-- ==== Sys2Proof/Word.lean ====
section
/-! DEFINITION. The machine's units of data (spec/00_scope.md, R5, R9): byte, word, line, the stored word with its check
field (R280), and the type of sparse tables the state is made of. -/

namespace Sys2Proof

/-- A byte. -/
abbrev Byte := BitVec 8

/-- A word: 256 bits, the unit of every data path, store and code (R5). -/
abbrev Word := BitVec 256

/-- A line: 64 bytes, two words (R5). -/
abbrev Line := BitVec 512

/-- A word as a store, a lane or a wire holds it: its data and its 16-bit check field (R280). -/
structure CWord where
  /-- the 256 data bits -/
  data : Word
  /-- the check field of Table 12.1: CB in [15:8], CA in [7:0] -/
  check : BitVec 16
  deriving DecidableEq, Repr, Inhabited

/-- The poison marker: zero data and check field 0x0700 (R282). -/
def CWord.poison : CWord := ⟨0, 0x0700⟩

/-- A word as it crosses a port: its data and the poisoned-data attribute (R286, R293). -/
structure RWord where
  /-- the 256 data bits -/
  data : Word
  /-- the completion or request carried the poisoned-data attribute -/
  poison : Bool
  deriving DecidableEq, Repr, Inhabited

/-- A value as the dictionary holds and carries it: `len` little-endian bytes whose number is `n` (R321). -/
structure OVal where
  /-- length in bytes -/
  len : Nat
  /-- the bytes as one little-endian number -/
  n : Nat
  deriving DecidableEq, Repr, Inhabited

/-- A sparse table: pairs of key and value, keys strictly rising, no pair at the table's default value. -/
abbrev Tab (α : Type) := List (Nat × α)

/-- Addition that saturates at `top`. -/
def satAdd (top x n : Nat) : Nat := min top (x + n)

end Sys2Proof
end

