-- ==== Sys2Proof/Syntax.lean ====
section
/-! DEFINITION. The commands of the part: one constructor of `Instr` for each row of spec/opcode_table.json, with the
operands the outside world supplies (an address, a value, a reading, the outcome of a physical test). -/

namespace Sys2Proof

/-- The configurations of the family (Table 00.1). -/
inductive Fam where
  | f2 | f4 | f8 | f16
  deriving DecidableEq, Repr, Inhabited

/-- MetaValue of a CXL.mem request (Table 09.8).
(PRESUMED, log entry 38.) -/
inductive MetaVal where
  | invalid | shared | any
  deriving DecidableEq, Repr, Inhabited

/-- The arcade's virtual channels (spec/01, The arcade). -/
inductive VC where
  | req | rsp | bi | svc
  deriving DecidableEq, Repr, Inhabited

/-- The status of a completion for a device-initiated request (R250, R251). -/
inductive CplStatus where
  | success | ur | ca
  deriving DecidableEq, Repr, Inhabited

/-- Where a dictionary client sends from: a field-port address and UDP port, or the mailbox of a port's FM-owned logical
device (R316, R336). -/
inductive Src where
  | udp (addr port : Nat)
  | inband (k : Nat)
  deriving DecidableEq, Repr, Inhabited

/-- The header fields of a dictionary request that its sender chooses (Table 14.2). -/
structure MHdr where
  /-- sender -/
  src : Src
  /-- VER -/
  ver : Nat
  /-- CLIENT -/
  client : Nat
  /-- SEQ -/
  seq : Nat
  deriving DecidableEq, Repr, Inhabited

/-- One entry of a WRITE (R323): index, subindex, type code and value. -/
structure WEntry where
  /-- object index -/
  index : Nat
  /-- subindex -/
  sub : Nat
  /-- type code of Table 14.5 -/
  ty : Nat
  /-- the value -/
  val : OVal
  deriving DecidableEq, Repr, Inhabited

/-- One SPDM request as the responder distinguishes them (R350, R352). Cryptographic outcomes are the environment's. -/
inductive SpdmReq where
  | getVersion
  | getCapabilities
  /-- whether the requester offers the algorithms of Table 16.3 -/
  | negotiate (offersTable163 : Bool)
  | getDigests
  | getCertificate (slot : Nat)
  | challenge (slot : Nat)
  | getMeasurements (block : Nat) (signed : Bool)
  | keyExchange (slot : Nat)
  /-- FINISH with the requester's public key and whether its signature verified -/
  | finish (key : Nat) (verified : Bool)
  | keyUpdate
  | endSession
  deriving DecidableEq, Repr, Inhabited

/-- A structure of a region's table block whose word a cell finds beyond repair (R292). -/
inductive TableWord where
  /-- word 0 or 1 of a line of the page-map cache -/
  | mapLine (line word : Nat)
  /-- an entry of the pattern table -/
  | pattern (i : Nat)
  /-- the session table, the coherence directory or planner state -/
  | records
  deriving DecidableEq, Repr, Inhabited

/-- What is wrong with a frame or datagram that carries no dictionary message (R313 to R315). -/
inductive DgramFault where
  /-- the MAGIC is right and the header whole, and a header rule is broken -/
  | header
  /-- a datagram without a whole header or without the MAGIC -/
  | stray
  /-- a frame of another kind, an IPv6 fragment, a bad UDP checksum, or a PLCA or receive error of the field port -/
  | frame
  deriving DecidableEq, Repr, Inhabited

/-- The body of one dictionary message (Table 14.3). -/
inductive DMsg where
  | hello (vmin vmax : Nat) (probe : Bool)
  | read (staged : Bool) (entries : List (Nat × Nat))
  | write (entries : List WEntry)
  | readBlock (staged : Bool) (index sub offset count : Nat)
  | writeBlock (index sub ty total offset : Nat) (piece : List Byte) (more : Bool)
  | stage (mask : BitVec 16)
  | commit (expected : Nat)
  | abort
  | subscribe (classes : BitVec 32) (least : Nat) (pitches : BitVec 64)
  | spdm (q : SpdmReq)
  | bye
  deriving DecidableEq, Repr, Inhabited

/-- The header of a firmware image as a hub's boot ROM reads it (Table 16.2), and what its digest and signature checks find. -/
structure ImgIn where
  /-- MAGIC -/
  magic : BitVec 32
  /-- CONFIGS -/
  configs : BitVec 8
  /-- FLAGS: [0] RAISE -/
  flags : BitVec 8
  /-- SVN -/
  svn : Nat
  /-- FWVER -/
  fwver : BitVec 32
  /-- UCODEVER -/
  ucodever : BitVec 32
  /-- the SM3 digest of the verified image header, which the hub's claim carries (R400) -/
  hdrDigest : Nat
  /-- the SM3 digest of the steward firmware component (Table 16.2) -/
  fwDigest : Nat
  /-- the SM3 digest of the region microcode component -/
  ucodeDigest : Nat
  /-- every component's SM3 digest matches -/
  digestsOk : Bool
  /-- SIG verifies with KEY, and KEY's digest equals FWKEYHASH -/
  sigOk : Bool
  deriving DecidableEq, Repr, Inhabited

/-- What one hub reads from its boot flash at start-up (R348, R399). -/
structure BootFlash where
  /-- the hub -/
  hub : Nat
  /-- the marker sector: the 8-byte positions from position 0 on, up to 512 -/
  markers : List (BitVec 64)
  /-- slot A, if it holds anything the ROM can read as a header -/
  slotA : Option ImgIn
  /-- slot B -/
  slotB : Option ImgIn
  deriving DecidableEq, Repr, Inhabited

/-- What the start-up tests and reads find (Table 17.1, Table 17.2): the outcome of each physical test of one start-up.
(DESIGN CHOICE, log entry 51.) -/
structure BootIn where
  /-- NODE_STRAP pins (R397) -/
  strap : BitVec 6
  /-- some fuse bank fails its digest (R346) -/
  fuseBad : Bool
  /-- hubs whose own checker fails self-test, with the failing pattern row (R295) -/
  hubBad : List (Nat × Nat)
  /-- an arcade stop's checker fails self-test: stop number and pattern row -/
  stopBad : List (Nat × Nat)
  /-- blocks of regions whose checker or engine fails: region, QUARANTINE bit, pattern row (R295, R23) -/
  blockBad : List (Nat × Nat × Nat)
  /-- what each hub reads from its boot flash -/
  flash : List BootFlash
  deriving DecidableEq, Repr, Inhabited

/-- What a host's request carries for its response: the source port ID and the host's tag (R232). -/
structure HostTag where
  /-- source port ID -/
  spid : BitVec 12 := 0
  /-- tag -/
  tag : Nat := 0
  deriving DecidableEq, Repr, Inhabited

/-- The outcome of a training attempt of a link (R219, R220, R227). -/
structure TrainIn where
  /-- rate in GT/s, rounded down -/
  rate : Nat
  /-- width in lanes -/
  width : Nat
  /-- flit mode negotiated -/
  flit : Bool
  /-- CXL.mem negotiated -/
  cxlMem : Bool
  /-- port-based routing negotiated -/
  pbr : Bool
  /-- the lane map the partner uses: 0 MAP A, 1 MAP B -/
  map : Nat
  /-- the partner's lane number that arrives at each physical lane, from lane 0 on (R220) -/
  lanes : List Nat
  /-- the port ID the switch assigns (R232) -/
  pid : BitVec 12
  deriving DecidableEq, Repr, Inhabited

/-- The register a REGISTER_WRITE names: a register of BAR0 or of the configuration space of a function that has no row
of its own, or a dictionary object written in place (R10, R240). -/
inductive RegTarget where
  | bar0 (f : Nat) (offset : Nat)
  | config (f : Nat) (offset : Nat)
  | object (h : MHdr) (index sub : Nat)
  deriving DecidableEq, Repr, Inhabited

/-- A clock domain that may be gated (Table 13.1, R306). -/
inductive Domain where
  | tally (r : Nat) | lanes (r : Nat) | region (r : Nat) | memory (r die : Nat) | flash (h : Nat)
  deriving DecidableEq, Repr, Inhabited

/-- A group of leaky buckets outside the regions (R294). -/
inductive OuterBucket where
  | segment (i : Nat) | hubBuffer (h : Nat) | portFec (k : Nat)
  deriving DecidableEq, Repr, Inhabited

/-- A die whose temperature R389 reads. -/
inductive DieId where
  | region (r : Nat) | hub (h : Nat) | engine (k : Nat) | gddr (r die : Nat)
  deriving DecidableEq, Repr, Inhabited

/-- A DOE mailbox: of function `f`, or of the FM-owned logical device of port `k` (R235). -/
inductive Mbx where
  | fn (f : Nat) | fm (k : Nat)
  deriving DecidableEq, Repr, Inhabited

/-- A cycle of a cell: what its ports ask, and what the granted one reads. -/
structure CellTurn where
  /-- the ports that raise a request this cycle (R21) -/
  reqs : BitVec 4
  /-- the word that the granted port reads is one of the region's tables, beyond repair (R292) -/
  ue : Option TableWord
  deriving DecidableEq, Repr, Inhabited

/-- What a block's crossbar holds. -/
structure BlockTurn where
  /-- the waiting requests as (pitch, priority level, units of Table 08.2) -/
  reqs : List (Nat × Nat × Nat)
  /-- a request header fails its word code beyond repair (R23) -/
  hdrBad : Bool
  deriving DecidableEq, Repr, Inhabited

/-- A turn of a hub's ingress. -/
structure HubTurn where
  /-- the hub -/
  hub : Nat
  /-- the transaction state it reads fails its word code beyond repair (R25) -/
  stateBad : Bool
  deriving DecidableEq, Repr, Inhabited

/-- A line of four descriptors that has been read. -/
structure LineRead where
  /-- the line -/
  line : Nat
  /-- which of its two words the cells flag (R292) -/
  bad : BitVec 2
  deriving DecidableEq, Repr, Inhabited

/-- A power that an optical engine measures (R224, R225). -/
structure Reading where
  /-- in 0.01 dBm -/
  dbm : Int
  /-- hub cycles for which it has stood on its side of the threshold -/
  held : Nat
  deriving DecidableEq, Repr, Inhabited

/-- An SPDM request as it comes to a DOE mailbox (R235). -/
structure SpdmIn where
  /-- the request -/
  req : SpdmReq
  /-- its length in bytes -/
  len : Nat
  deriving DecidableEq, Repr, Inhabited

/-- The commands, in the order of spec/opcode_table.json. -/
inductive Instr where
  /-- RESET_n falls; the low lasts `ns` nanoseconds (R370, R394) -/
  | resetNAssert (ns : Nat)
  | resetNRelease (b : BootIn)
  /-- training of channel `c` of region `r` ends; `ok` when a working setting was found -/
  | channelTrainingDone (r c : Nat) (ok : Bool)
  | memoryActive
  | startupContainmentExit (k : Nat)
  /-- stop `src` injects a flit for stop `dst`; `words` is the header word, then up to 15 data words, which belong to pitch `pitch` and
  address `addr` -/
  | arcadeFlitInject (src dst : Nat) (vc : VC) (pitch addr : Nat) (words : List CWord)
  /-- flit `id` passes its next stop; `flips` are bits of its words upset on the way: (word, bits of check and data) -/
  | arcadeFlitHop (id : Nat) (flips : List (Nat × BitVec 272))
  | arcadeCreditReturn (src dst : Nat) (vc : VC) (n : Nat)
  /-- cell `cell` of region `r` -/
  | cellGrant (r cell : Nat) (t : CellTurn)
  /-- block `b` of region `r` -/
  | blockGrant (r b : Nat) (t : BlockTurn)
  | hubIngressAdmit (t : HubTurn)
  | memrd (f : Nat) (mv : MetaVal) (hpa : BitVec 64) (tag : HostTag)
  | memrddata (f : Nat) (hpa : BitVec 64) (tag : HostTag)
  | meminv (f : Nat) (mv : MetaVal) (hpa : BitVec 64) (tag : HostTag)
  | memclnevct (f : Nat) (hpa : BitVec 64) (tag : HostTag)
  | memwr (f : Nat) (mv : MetaVal) (hpa : BitVec 64) (tag : HostTag) (data : Line) (poison : Bool)
  | memwrptl (f : Nat) (mv : MetaVal) (hpa : BitVec 64) (tag : HostTag) (data : Line) (be : BitVec 64) (poison : Bool)
  | memspecrd (f : Nat) (hpa : BitVec 64)
  | biconflict (f : Nat) (hpa : BitVec 64) (tag : HostTag)
  /-- answer of function `f` for line number `line`; `wb` is modified data it writes back -/
  | birspi (f : Nat) (line : Nat) (wb : Option Line)
  | birsps (f : Nat) (line : Nat) (wb : Option Line)
  | birspe (f : Nat) (line : Nat) (wb : Option Line)
  /-- answer of function `f` to the block snoop at line number `line` -/
  | birspiblk (f : Nat) (line : Nat)
  | unsupportedMemMessage (f : Nat) (opcode : Nat) (isRead : Bool) (tag : HostTag)
  | recallTimeout (r line f : Nat)
  | t0PageGrant (r : Nat)
  /-- the page-map cache line `line` (four descriptors) of region `r` has been fetched -/
  | descriptorMissFill (r : Nat) (l : LineRead)
  | refForward (req : Nat)
  | sectorAccess (r c : Nat)
  | unfoldDone (r job : Nat)
  | foldDone (r move : Nat)
  | bell (r : Nat)
  | moveStart (r : Nat)
  | moveComplete (r move : Nat)
  /-- a report of region `r` reaches the home region of the session with this handle -/
  | accessReport (r handle : Nat)
  | slotLoanRequest (r p : Nat)
  | priorityLevelUpdate (r : Nat)
  | requestAgeEscalate (r req : Nat)
  | reattachPeriodEnd (r p : Nat)
  | reattachend (h : MHdr) (p : Nat) (v : OVal)
  /-- the session descriptors: `d` numbers a descriptor the hub has dispatched (R166) -/
  | create (d : Nat)
  | destroy (d : Nat)
  | setattr (d : Nat)
  | publish (d : Nat)
  | publishConvert (handle : Nat)
  | drop (d : Nat)
  | openv (d : Nat)
  | close (d : Nat)
  | fork (d : Nat)
  | park (d : Nat)
  | manifestSeal (handle : Nat)
  | resume (d : Nat)
  | expire (d : Nat)
  /-- `hdr` is the manifest header sector and `body` the decrypted body the part reads from far memory -/
  | reattach (d : Nat) (hdr : BitVec 4096) (body : List Byte)
  | sessionOpResume (handle : Nat)
  | detachHoldExpire (p mloc : Nat)
  | nop (d : Nat)
  | fence (d : Nat)
  | attend (d : Nat)
  | merge (d : Nat)
  | sift (d : Nat)
  | reduce (d : Nat)
  | compare (d : Nat)
  | fill (d : Nat)
  | copy (d : Nat)
  | tallyDispatch (r : Nat)
  | tallyRegionResult (r d : Nat)
  /-- a write of QCMD with CREATE in function `f` -/
  | queueCreate (f : Nat)
  | queueDelete (f : Nat)
  | sqtail (f q : Nat) (v : BitVec 64)
  | cqhead (f q : Nat) (v : BitVec 64)
  /-- hub `h` takes the next fetch of pitch `p` -/
  | descriptorFetch (h p : Nat)
  /-- the data of the fetch under read tag `tag` of port `k`: its words from the first on; absent words are missing -/
  | fetchComplete (k tag : Nat) (words : List RWord)
  | irqDelayExpire (f q : Nat)
  | deadlineExpire (d : Nat)
  | extadd (h : MHdr) (p : Nat) (v : OVal)
  | extgrant (h : MHdr) (p : Nat) (v : OVal)
  | extrel (h : MHdr) (p : Nat) (v : OVal)
  | addDynamicCapacityResponse (f : Nat) (exts : List Nat)
  | releaseDynamicCapacity (f e : Nat)
  | offerTimeout (e f : Nat)
  | releaseRecallStart (r e : Nat)
  | releaseClear (e : Nat)
  | renew (f : Nat) (v : BitVec 64)
  | leaserenew (h : MHdr) (k ld : Nat) (v : OVal)
  | leaseExpire (f : Nat)
  | leaseExpired (f : Nat)
  | leaseLow (f : Nat)
  | retireack (f : Nat) (v : BitVec 64)
  | retirementSweepStart (ticket f : Nat)
  | blockSnoopTimeout (ticket f : Nat)
  | derateApply
  /-- the package power measured over the window, in units of 0.1 W -/
  | powerCapWindow (pwr : Nat)
  /-- the lanes whose power stayed low, and its reading -/
  | lossOfLight (k : Nat) (lanes : BitVec 16) (x : Reading)
  | lightRestored (k : Nat) (lanes : BitVec 16) (x : Reading)
  /-- the wavelengths of laser input `i` that stayed low, and their reading -/
  | laserLossDeclare (k i : Nat) (waves : BitVec 4) (x : Reading)
  | laserRestored (k i : Nat) (x : Reading)
  | linkTraining (k : Nat) (t : TrainIn)
  | retrainTimer (k : Nat)
  /-- a flit with `corrected` FEC-corrected symbols; `crcOk` when its CRC holds after FEC -/
  | flitReceive (k corrected : Nat) (crcOk : Bool)
  | linkRecoveryEntry (k : Nat)
  | recoveryExit (k rate width : Nat) (l0 : Bool)
  | ideIntegrityFail (k stream : Nat)
  | hotReset (k : Nat)
  | release (h : MHdr) (k : Nat) (v : OVal)
  | doeDiscovery (mb : Mbx) (index : Nat)
  | cdatTableAccess (mb : Mbx)
  | cmaSpdm (mb : Mbx) (q : SpdmIn)
  /-- key set `set` (0 or 1) of the selective stream of port `k` -/
  | keyProg (k set : Nat) (key : BitVec 256)
  /-- `cxl` names the CXL.mem stream, otherwise the selective stream -/
  | kSetGo (k : Nat) (cxl : Bool) (set : Nat)
  | kSetStop (k : Nat) (cxl : Bool) (set : Nat)
  | cxlIdeKeyProg (k set : Nat) (key : BitVec 256)
  | getLdInfo (k : Nat)
  | fmIdentify (k : Nat)
  | getLdAllocations (k : Nat)
  | setLdAllocations (k : Nat)
  | identify (f : Nat)
  | getSupportedLogs (f : Nat)
  /-- `cel` when the log asked for is the Command Effects Log -/
  | getLog (f : Nat) (cel : Bool)
  /-- log 4 is the Dynamic Capacity Event Log, 5 the Vendor Specific Event Log, 0 to 3 the standard's other logs -/
  | getEventRecords (f log : Nat)
  | clearEventRecords (f log n : Nat)
  | getEventInterruptPolicy (f : Nat)
  | setEventInterruptPolicy (f : Nat) (noInterrupts : Bool)
  | getDcConfiguration (f : Nat)
  | getDcExtentList (f : Nat)
  | unsupportedMailboxCommand (f opcode : Nat)
  | dictionaryMessage (k : Nat) (h : MHdr) (msg : DMsg) (len : Nat)
  | dictionaryEvents (k client n : Nat)
  | busMasterEnable (f : Nat) (b : Bool)
  | interruptDisable (f : Nat) (b : Bool)
  | initiateFlr (f : Nat)
  | flrReady (f : Nat)
  | hdmDecoderCommit (f i : Nat) (base size skip : BitVec 64) (ways : Nat)
  | intxUpdate (f : Nat)
  | ltrSend (k : Nat)
  | intstatClear (f : Nat) (v : BitVec 64)
  | registerWrite (t : RegTarget) (v : BitVec 64)
  /-- a completion of port `k` under `tag`, its words from word `off` of the request on -/
  | readCompletion (k tag : Nat) (st : CplStatus) (off : Nat) (words : List RWord)
  | completionTimeout (k tag : Nat)
  | tagQuarantineEnd (k tag : Nat)
  | writeCompletion (k id : Nat) (st : CplStatus)
  | writeTimeout (k id : Nat)
  | refreshTick (r c : Nat)
  | refreshIssue (r c : Nat)
  | refreshWindowEnd (r c : Nat)
  | temperatureReading (r die : Nat) (degC : Int)
  | retrainDone (r c : Nat) (ok : Bool)
  | channelRetryDone (r c : Nat) (ok : Bool)
  | channelFailSettle (r c : Nat)
  | leakyBucketLeak (b : OuterBucket)
  | injarm (h : MHdr) (v : OVal)
  | wakeRequest (d : Domain)
  | hello (h : MHdr) (vmin vmax : Nat) (probe : Bool)
  | read (h : MHdr) (staged : Bool) (entries : List (Nat × Nat))
  | write (h : MHdr) (entries : List WEntry)
  | readBlock (h : MHdr) (staged : Bool) (index sub offset count : Nat)
  | writeBlock (h : MHdr) (index sub ty total offset : Nat) (piece : List Byte) (more : Bool)
  | stage (h : MHdr) (mask : BitVec 16)
  | commit (h : MHdr) (expected : Nat)
  /-- the configuration set reaches hub `u` (`hub`) or region `u` -/
  | configInstall (hub : Bool) (u : Nat)
  | commitAcknowledged
  | abort (h : MHdr)
  | subscribe (h : MHdr) (classes : BitVec 32) (least : Nat) (pitches : BitVec 64)
  | spdm (h : MHdr) (q : SpdmReq)
  | secured (h : MHdr) (inner : DMsg)
  | bye (h : MHdr)
  /-- a datagram from `src`: whether it has 16 bytes and the MAGIC, and its TYPE, CLIENT and SEQ fields -/
  | malformedDatagram (src : Src) (why : DgramFault) (ty client seq : Nat)
  | eventSend (client : Nat)
  | neighbourSolicitation (target : BitVec 128) (fromAddr : Nat)
  | icmpv6Echo (fromAddr id seq : Nat) (payload : List Byte)
  | duplicateAddressDetection (inUse : Bool)
  | clientTimeout (client : Nat)
  | editTimeout (client : Nat)
  /-- `flagged` when the word code flagged a word of region `r`'s copy -/
  | digestRecheck (r : Nat) (flagged : Bool)
  | eqread (h : MHdr) (p : Nat)
  | counterWrite (h : MHdr) (index sub : Nat) (v : OVal)
  | deficitClear (h : MHdr) (v : OVal)
  | optevtClear (h : MHdr) (k : Nat) (v : OVal)
  | g7evtClear (h : MHdr) (r : Nat) (v : OVal)
  | alarmstatClear (h : MHdr) (v : OVal)
  | restart (h : MHdr) (r : Nat) (v : OVal)
  /-- the restart's steps end: the store blocks and other blocks that fail self-test -/
  | regionRestartDone (r : Nat) (bad : List (Nat × Nat))
  | drain (h : MHdr) (p : Nat) (v : OVal)
  | drainRelease (h : MHdr) (p : Nat) (v : OVal)
  | clear (h : MHdr) (p : Nat) (v : OVal)
  | wrapkey (h : MHdr) (p : Nat) (v : OVal)
  | fwimage (h : MHdr) (total offset : Nat) (piece : List Byte) (more : Bool)
  | fwVerify (h : MHdr)
  /-- `flashOk` when every write to the hubs' flashes reads back (R400) -/
  | fwActivate (h : MHdr) (flashOk : Bool)
  | fwDiscard (h : MHdr)
  | hubReloadReady (hub : Nat)
  | microcodeRollDone (r : Nat)
  | rollTimeout
  | dbgopen (h : MHdr) (v : OVal)
  /-- the classes (1 to 4) of the sensors that rise together, as bits 0 to 3 -/
  | securityAlarm (classes : BitVec 4)
  | zeroized
  | fuseRecheck (ok : Bool)
  | d2dTagCheck (ok : Bool)
  /-- hub `h` receives the claim of hub `src`, with the digest of its image header -/
  | stewardClaim (h src : Nat)
  | stewardElectionWin (h : Nat)
  | stewardRenewal
  | stewardLeaseExpire (h : Nat)
  | watchdogExpire (h : Nat)
  | leaseDeferredExpire (f : Nat)
  | regionWatchdog (r : Nat)
  | referenceSweepDone (r fenced : Nat)
  | thermalReading (temps : List (DieId × Int))
  | vddAonLoss
  | watchdogService (h : Nat)
  | plcaBeacon
  /-- `disabled` when the link goes to DISABLED rather than DETECT -/
  | linkLeavesL0 (k : Nat) (disabled : Bool)
  deriving DecidableEq, Repr

end Sys2Proof
end

