-- ==== Sys2Proof/Decode.lean ====
section
/-! DEFINITION. Words of commands. spec/opcode_table.json gives no row any bits, so no word spells a command. -/

namespace Sys2Proof

/-- The command a word of `nbits` bits spells by the table's bits: the table gives none to any row (log entry 2).
(DESIGN CHOICE, log entry 2.) -/
def decodeTableWord (_nbits _w : Nat) : Option Instr := none

end Sys2Proof
end

