-- ==== Sys2Proof/Config.lean ====
section
/-! DEFINITION. The free values: what the spec leaves to the part, to an implementation or to a standard it does not restate.
Every constant here is opaque: nothing can evaluate it or prove a value of it. -/

namespace Sys2Proof.Config

/-- A fresh free value: choices the spec leaves to the part (which free page, sector, entry, tag or identifier it takes),
random draws (R66, R316, Table 14.10) and unstated values. Log entry 3.
(DESIGN CHOICE, log entry 3.) -/
opaque free : Nat → Nat

/-- The SM3 digest of a byte string (R332, R346); the algorithm is the standard's. Log entry 4.
(DESIGN CHOICE, log entry 4.) -/
opaque sm3 : List Byte → BitVec 256

/-- HMAC-SM3 of a message under a 256-bit key (R121, R356). Log entry 4. -/
opaque hmacSm3 : BitVec 256 → List Byte → BitVec 256

/-- SM4-XTS decryption of the words of one data unit: data key, tweak key, tweak (R357). Log entry 4. -/
opaque xtsDec : BitVec 128 → BitVec 128 → BitVec 128 → List Word → List Word

/-- SM4-XTS encryption of the words of one data unit: data key, tweak key, tweak (R357). Log entry 4. -/
opaque xtsEnc : BitVec 128 → BitVec 128 → BitVec 128 → List Word → List Word

/-- SM2 decryption of a 145-byte ciphertext under a private key: the key record of Table 16.5, if C3 verifies (R354).
Log entry 4. -/
opaque sm2Decrypt : Nat → Nat → Option Nat

/-- SM2 signature check: user identifier, public key, digest, signature (R348). Log entry 4. -/
opaque sm2Verify : List Byte → Nat → Nat → Nat → Bool

/-- The first 256 bits of the SM3 key derivation function of GB/T 32918.4, as an integer (R347). Log entry 4. -/
opaque sm3Kdf : List Byte → Nat

/-- The SM2 public key of a private key, x then y (R347). Log entry 4. -/
opaque sm2Pub : Nat → BitVec 512

/-- The payload an encoder writes for a page: codec code, format version, CPARAM, page words. Any encoder whose output the decoder turns
back is valid (R74; R71 leaves the choice of tokens); what R76 fixes stands in CPARAM. Log entry 5.
(DESIGN CHOICE, log entry 5.) -/
opaque encode : Nat → Nat → Nat → List Word → List Byte

/-- The set of the page-map cache that holds a line of descriptors (R33 does not give the index). Log entry 6.
(DESIGN CHOICE, log entry 6.) -/
opaque pmcSet : Nat → Nat

/-- A computed score of ATTEND or SIFT as an FP32 code: free index, query row, key row, scale (R153: no bit-exact value).
Log entry 7.
(DESIGN CHOICE, log entry 7.) -/
opaque score : Nat → List Byte → List Byte → BitVec 32 → BitVec 32

/-- A computed FP32 value of a partial triple or a merged record: free index, place, inputs read (R153). Log entry 7. -/
opaque tally : Nat → Nat → List (List Byte) → BitVec 32

/-- A computed floating-point SUM of REDUCE: free index, type, element codes (R145, R153). Log entry 7. -/
opaque fpSum : Nat → Nat → List Nat → Nat

/-- The answer of the standard's mailbox, FM and SPDM commands whose payload layout the spec leaves to the standards
(R231, R242, R350): command code and the numbers the spec fixes. Log entry 8.
(PRESUMED, log entry 8.) -/
opaque stdPayload : Nat → List Nat → List Byte

/-- Whether an unaligned or sub-8-byte register access has effect is never asked: accesses here are 8 bytes (R240). The
serial number of the part (R314, Table 15.2): unique, with no fixed value. Log entry 9.
(DESIGN CHOICE, log entry 9.) -/
opaque serial : Nat

/-- The fuse bank SEED (Table 16.1): unique to the part. Log entry 9. -/
opaque seed : BitVec 256

/-- CERT0: the device certificate chain, of up to 4,096 bytes (R347). Log entry 4. -/
opaque cert0 : List Byte

/-- The SM3 digest of the hub boot ROM (measurement block 1 of Table 16.4). Log entry 9.
(DESIGN CHOICE, log entry 9.) -/
opaque romDigest : BitVec 256

/-- The fuse bank FWKEYHASH (Table 16.1): the digest of the firmware signing key. Log entry 9. -/
opaque fwKeyHash : BitVec 256

/-- Offset, in units of 8 bytes, of the HDM decoder capability in the component registers (Table 10.3 leaves its place to the standard).
Log entry 8.
(PRESUMED, log entry 8.) -/
opaque hdmCap : Nat

/-- The standards' registers of the component and device blocks of BAR0 that the spec does not name, by offset. Log entry 8.
(PRESUMED, log entry 8.) -/
opaque stdReg : Nat → Nat

/-- Configuration-space offset of the PCI Express capability (Table 10.2 places it nowhere). Log entry 8.
(PRESUMED, log entry 8.) -/
opaque pcieCap : Nat

end Sys2Proof.Config
end

