-- ==== Sys2Proof/Machine/Codes.lean ====
section
/-! DEFINITION. The word code (R280 to R282), the page code over GF(2^16) (R285 to R287) and CRC-32C (R66, R124). -/

namespace Sys2Proof.Machine

/-! ## Bytes of words -/

/-- Byte `b` of a word: bits [8b+7:8b] (R9). -/
def byteOf (w : Word) (b : Nat) : Byte := w.extractLsb' (8 * b) 8

/-- The exclusive OR of the bits of a byte. -/
def parity8 (x : Byte) : Bool :=
  let a := x ^^^ (x >>> 4)
  let b := a ^^^ (a >>> 2)
  let c := b ^^^ (b >>> 1)
  c.getLsbD 0

/-- The 32 bytes of a word, byte 0 first. -/
def wordBytes (w : Word) : List Byte := (List.range 32).map (byteOf w)

/-- The number a little-endian byte string stands for (R9). -/
def leNat : List Byte → Nat
  | [] => 0
  | b :: t => b.toNat + 256 * leNat t

/-- The `n` little-endian bytes of a number. -/
def leBytes : Nat → Nat → List Byte
  | 0, _ => []
  | n + 1, v => BitVec.ofNat 8 v :: leBytes n (v / 256)

/-- The bytes of an ASCII label, as a derivation writes it (R347, R348, R356). -/
def ascii (s : String) : List Byte := s.toList.map fun c => BitVec.ofNat 8 c.toNat

/-- A word from its bytes, missing bytes as zero. -/
def wordOfBytes (l : List Byte) : Word := BitVec.ofNat 256 (leNat (l.take 32))

/-- A byte string cut into `n` words, missing bytes as zero. -/
def bytesToWords : Nat → List Byte → List Word
  | 0, _ => []
  | n + 1, l => wordOfBytes l :: bytesToWords n (l.drop 32)

/-- The bytes of words, in order. -/
def wordsToBytes (l : List Word) : List Byte := (l.map wordBytes).flatten

/-! ## The word code -/

/-- E(b) for byte index `b`: bits [6:0] hold b + 1 and bit 7 its parity (R280). -/
def eByte (b : Nat) : Byte :=
  let v : Byte := BitVec.ofNat 8 (b + 1)
  if parity8 v then v ||| 0x80 else v

/-- CA: the exclusive OR of the 32 data bytes (Table 12.1). -/
def codeA (w : Word) : Byte := (List.range 32).foldl (fun a b => a ^^^ byteOf w b) 0

/-- CB: the exclusive OR of E(b) over every data byte with an odd bit count (Table 12.1). -/
def codeB (w : Word) : Byte := (List.range 32).foldl (fun a b => if parity8 (byteOf w b) then a ^^^ eByte b else a) 0

/-- The check field of a word: CB in [15:8], CA in [7:0]. -/
def checkOf (w : Word) : BitVec 16 := codeB w ++ codeA w

/-- A word with its check field, as the part writes it. -/
def encWord (w : Word) : CWord := ⟨w, checkOf w⟩

/-- What a checker finds (Table 12.2). -/
inductive Verdict where
  | clean
  | corrected (w : Word)
  | poison
  | flagged
  deriving DecidableEq, Repr

/-- The index of the only set bit, if exactly one is set. -/
def oneBit (x : Byte) : Option Nat :=
  match (List.range 8).filter x.getLsbD with
  | [i] => some i
  | _ => none

/-- The byte index whose E(b) a syndrome equals. -/
def eIndex (sb : Byte) : Option Nat := (List.range 32).find? fun b => eByte b = sb

/-- A word with one bit inverted. -/
def flipBit (w : Word) (i : Nat) : Word := w ^^^ (1#256 <<< i)

/-- The checker's action for the two syndromes (Table 12.2). -/
def verdictOf (w : Word) (sa sb : Byte) : Verdict :=
  if sa = 0 then
    if sb = 0 then .clean
    else if sb = 0x07 then .poison
    else if (oneBit sb).isSome then .corrected w
    else .flagged
  else
    match oneBit sa with
    | none => .flagged
    | some i =>
      if sb = 0 then .corrected w
      else
        match eIndex sb with
        | some b => .corrected (flipBit w (8 * b + i))
        | none => .flagged

/-- SA and SB (R281). -/
def syndA (c : CWord) : Byte := codeA c.data ^^^ c.check.extractLsb' 0 8
/-- SB -/
def syndB (c : CWord) : Byte := codeB c.data ^^^ c.check.extractLsb' 8 8

/-- A checker settles a word it receives (R281). -/
def checkWord (c : CWord) : Verdict := verdictOf c.data (syndA c) (syndB c)

/-- The data a checker passes: none when the word reads as poison or is flagged (R282). -/
def Verdict.data? (c : CWord) : Verdict → Option Word
  | .clean => some c.data
  | .corrected w => some w
  | .poison => none
  | .flagged => none

/-- The word a reader of a store or a hop gets: its data, or none where it is poison. -/
def readWord (c : CWord) : Option Word := (checkWord c).data? c

/-- The checker corrected the word as it was read. -/
def isCorrected (c : CWord) : Bool := match checkWord c with | .corrected _ => true | _ => false

/-- The word is flagged: neither data nor the poison marker (R281, R282). -/
def isFlagged (c : CWord) : Bool := checkWord c = .flagged

/-- The word as the checker passes it on: corrected in place, poison where it is flagged (R20, R22). -/
def passWord (c : CWord) : CWord :=
  match readWord c with
  | some w => encWord w
  | none => .poison

/-- A word a port or a lane delivers, in store form. -/
def ofPort (r : RWord) : CWord := if r.poison then .poison else encWord r.data

/-! ## GF(2^16), sixteen lanes at a time

The 16 symbols of a word are the 16 lanes of the interleaves, so one word operation serves every interleave (R285). -/

/-- One in each lane. -/
def lanes1 : Word := 0x0001000100010001000100010001000100010001000100010001000100010001

/-- Every lane times α = 0x0002, reduced by x^16 + x^12 + x^3 + x + 1. -/
def mulAlpha (w : Word) : Word :=
  let t := (w >>> 15) &&& lanes1
  ((w <<< 1) &&& ~~~lanes1) ^^^ t ^^^ (t <<< 1) ^^^ (t <<< 3) ^^^ (t <<< 12)

/-- Every lane times α^k. -/
def mulAlphaPow : Nat → Word → Word
  | 0, w => w
  | k + 1, w => mulAlphaPow k (mulAlpha w)

/-- Every lane times the element `c`, by its bits from bit `n - 1` down. -/
def mulLanes (w : Word) (c : BitVec 16) : Nat → Word
  | 0 => 0
  | n + 1 => mulLanes (mulAlpha w) (c >>> 1) n ^^^ (if c.getLsbD 0 then w else 0)

/-- Multiplication of two elements. -/
def gfMul (a b : BitVec 16) : BitVec 16 := (mulLanes (a.setWidth 256) b 16).setWidth 16

/-- α^k. -/
def gfPow (k : Nat) : BitVec 16 := (mulAlphaPow k 1#256).setWidth 16

/-- The product of c^2, c^4, … c^(2^n). -/
def gfInvAux (c : BitVec 16) : Nat → BitVec 16
  | 0 => 1
  | n + 1 => let s := gfMul c c; gfMul s (gfInvAux s n)

/-- The inverse of a non-zero element: c^(2^16 - 2). -/
def gfInv (c : BitVec 16) : BitVec 16 := gfInvAux c 15

/-- S0 of every interleave. -/
def synd0 (f : List Word) : Word := f.foldl (· ^^^ ·) 0

/-- S1 of every interleave: Σ_k s_k α^k. -/
def synd1 (f : List Word) : Word := f.foldr (fun w a => mulAlpha a ^^^ w) 0

/-- The two erased words k1 < k2 of a frame whose other syndromes are s0 and s1 (Table 12.4): e1 and e2. -/
def erasures (s0 s1 : Word) (k1 k2 : Nat) : Word × Word :=
  let c := gfPow k1 ^^^ gfPow k2
  let e2 := mulLanes (s1 ^^^ mulAlphaPow k1 s0) (gfInv c) 16
  (s0 ^^^ e2, e2)

/-- A frame with its two page-parity words: `body` holds every word before them (R285). -/
def addParity (body : List Word) : List Word :=
  let n := body.length
  let (e1, e2) := erasures (synd0 body) (synd1 body) n (n + 1)
  body ++ [e1, e2]

/-- The first word number below `n`, from `k` on, for which s1 = s0 × α^k in every interleave; `p` is s0 × α^k. -/
def locate (s1 : Word) : Nat → Nat → Word → Option Nat
  | 0, _, _ => none
  | n + 1, k, p => if p = s1 then some k else locate s1 n (k + 1) (mulAlpha p)

/-- The outcome of the page code on one frame (R287). -/
inductive Repair where
  | sound
  | repaired (f : List Word)
  | unrepairable
  deriving DecidableEq, Repr

/-- The page code settles a frame: `f` its words, `flagged` the word numbers of R286, rising (Table 12.4). -/
def repairFrame (f : List Word) (flagged : List Nat) : Repair :=
  let z := flagged.foldl (fun l k => l.set k 0) f
  let s0 := synd0 z
  let s1 := synd1 z
  match flagged with
  | [] =>
    if s0 = 0 ∧ s1 = 0 then .sound
    else if s0 = 0 then .unrepairable
    else
      match locate s1 z.length 0 s0 with
      | some k => .repaired (z.set k (z.getD k 0 ^^^ s0))
      | none => .unrepairable
  | [k1] => if s1 = mulAlphaPow k1 s0 then .repaired (z.set k1 s0) else .unrepairable
  | [k1, k2] =>
    let (e1, e2) := erasures s0 s1 k1 k2
    .repaired ((z.set k1 e1).set k2 e2)
  | _ => .unrepairable

/-! ## CRC-32C -/

/-- One bit of the reflected Castagnoli division. -/
def crcBit (c : BitVec 32) : BitVec 32 := if c.getLsbD 0 then (c >>> 1) ^^^ 0x82F63B78 else c >>> 1

/-- One byte. -/
def crcByte (c : BitVec 32) (b : Byte) : BitVec 32 :=
  crcBit (crcBit (crcBit (crcBit (crcBit (crcBit (crcBit (crcBit (c ^^^ b.setWidth 32))))))))

/-- CRC-32C of a byte string from an initial register, with the standard's final inversion (R66; log entry 10).
(PRESUMED, log entry 10.) -/
def crc32c (seed : BitVec 32) (l : List Byte) : BitVec 32 := ~~~(l.foldl crcByte seed)

end Sys2Proof.Machine
end

