-- ==== Sys2Proof/Machine/Num.lean ====
section
/-! DEFINITION. Number formats and microscaling blocks (R78 to R83, R134): exact values as sign, integer and power of two. -/

namespace Sys2Proof.Machine

/-- A floating-point format: exponent and mantissa bits, its largest finite code without sign, and whether an all-ones
exponent holds infinity and NaN (2), only the all-ones code is NaN (1), or neither (0). -/
structure FlFmt where
  /-- exponent bits -/
  eb : Nat
  /-- mantissa bits -/
  mb : Nat
  /-- largest finite code, sign clear -/
  top : Nat
  /-- 2 infinity and NaN, 1 NaN at all ones only, 0 neither -/
  special : Nat
  deriving DecidableEq, Repr

/-- BF16 -/
def fmtBF16 : FlFmt := ⟨8, 7, 0x7F7F, 2⟩
/-- FP16 -/
def fmtFP16 : FlFmt := ⟨5, 10, 0x7BFF, 2⟩
/-- FP32 -/
def fmtFP32 : FlFmt := ⟨8, 23, 0x7F7FFFFF, 2⟩
/-- E4M3 (OCP) -/
def fmtE4M3 : FlFmt := ⟨4, 3, 0x7E, 1⟩
/-- E5M2 -/
def fmtE5M2 : FlFmt := ⟨5, 2, 0x7B, 2⟩
/-- E2M1 -/
def fmtE2M1 : FlFmt := ⟨2, 1, 0x7, 0⟩

/-- Bits below the sign. -/
def FlFmt.bits (f : FlFmt) : Nat := f.eb + f.mb

/-- The exponent of the smallest normal number. -/
def FlFmt.emin (f : FlFmt) : Int := 2 - 2 ^ (f.eb - 1)

/-- A decoded value: NaN, an infinity, or (-1)^neg × m × 2^e. -/
inductive FVal where
  | nan
  | inf (neg : Bool)
  | fin (neg : Bool) (m : Nat) (e : Int)
  deriving DecidableEq, Repr

/-- The value of a code. -/
def FlFmt.decode (f : FlFmt) (code : Nat) : FVal :=
  let neg := (code >>> f.bits) % 2 = 1
  let be := (code >>> f.mb) % 2 ^ f.eb
  let m := code % 2 ^ f.mb
  let ones := be = 2 ^ f.eb - 1
  if f.special = 2 ∧ ones then (if m = 0 then .inf neg else .nan)
  else if f.special = 1 ∧ ones ∧ m = 2 ^ f.mb - 1 then .nan
  else if be = 0 then .fin neg m (f.emin - f.mb)
  else .fin neg (2 ^ f.mb + m) (f.emin - f.mb + be - 1)

/-- `m` divided by 2^s, to the nearest integer, ties to even. -/
def rneShift (m s : Nat) : Nat :=
  let q := m >>> s
  let r := m % 2 ^ s
  if 2 * r < 2 ^ s then q else if 2 * r = 2 ^ s then q + q % 2 else q + 1

/-- The code of the value of format `f` nearest to (-1)^neg × m × 2^e, ties to even, subnormals included; beyond the code
`cap`, that code. -/
def FlFmt.roundCap (f : FlFmt) (cap : Nat) (neg : Bool) (m : Nat) (e : Int) : Nat :=
  let s := if neg then 2 ^ f.bits else 0
  if m = 0 then s
  else
    let ex := e + Nat.log2 m
    let q := max ex f.emin - f.mb
    let k := if q ≤ e then m <<< (e - q).toNat else rneShift m (q - e).toNat
    let code := ((q + f.mb - f.emin).toNat <<< f.mb) + k
    s + min code cap

/-- Rounding of a quantised element: beyond the largest finite value, that value (R78, R80; log entry 11).
(DEDUCED, log entry 11.) -/
def FlFmt.round (f : FlFmt) (neg : Bool) (m : Nat) (e : Int) : Nat := f.roundCap f.top neg m e

/-- m1 × 2^e1 ≤ m2 × 2^e2. -/
def magLe (m1 : Nat) (e1 : Int) (m2 : Nat) (e2 : Int) : Bool :=
  if e1 ≤ e2 then decide (m1 ≤ m2 <<< (e2 - e1).toNat) else decide (m1 <<< (e1 - e2).toNat ≤ m2)

/-- `a ≤ b` on finite and infinite values, -0 equal to +0. -/
def FVal.le : FVal → FVal → Bool
  | .nan, _ => false
  | _, .nan => false
  | .inf true, _ => true
  | _, .inf false => true
  | .inf false, _ => false
  | _, .inf true => false
  | .fin na ma ea, .fin nb mb eb =>
    match na, nb with
    | false, false => magLe ma ea mb eb
    | true, true => magLe mb eb ma ea
    | true, false => true
    | false, true => ma = 0 && mb = 0

/-! ## Microscaling blocks -/

/-- The exponent of M: 8 for 448, 15 for 57,344, 2 for 6 (R78). -/
def mxExp (el : FlFmt) : Int := el.emin + (2 ^ el.eb - 2 : Int) - (if el.special = 2 then 1 else 0)

/-- M as an integer and a power of two. -/
def mxMax (el : FlFmt) : Nat × Int :=
  match el.decode el.top with
  | .fin _ m e => (m, e)
  | _ => (0, 0)

/-- The larger magnitude of two values m × 2^e. -/
def magMax (a b : Nat × Int) : Nat × Int := if magLe a.1 a.2 b.1 b.2 then b else a

/-- X: the smallest integer from -127 to 127 for which amax × 2^-X does not exceed M (R78). -/
def mxScale (el : FlFmt) (m : Nat) (e : Int) : Int :=
  if m = 0 then -127
  else
    let x := e + Nat.log2 m - mxExp el
    let mx := mxMax el
    let x := if magLe m (e - x) mx.1 mx.2 then x else x + 1
    min 127 (max (-127) x)

/-- The scale byte and the element codes of a block of element codes of the written format (R78, R79). -/
def mxQuant (src el : FlFmt) (codes : List Nat) : Nat × List Nat :=
  let vs := codes.map src.decode
  if vs.any (fun v => match v with | .fin _ _ _ => false | _ => true) then (0xFF, codes.map fun _ => 0)
  else
    let amax := vs.foldl (fun a v => match v with | .fin _ m e => magMax a (m, e) | _ => a) (0, 0)
    let x := mxScale el amax.1 amax.2
    ((x + 127).toNat, vs.map fun v => match v with | .fin n m e => el.round n m (e - x) | _ => 0)

/-- The canonical NaN of a written format (R79). -/
def canonNaN (src : FlFmt) : Nat := if src.eb = 8 then 0x7FC0 else 0x7E00

/-- The values a block reads as, as codes of the written format (R79, R80). An element code that is a NaN or an infinity, which the
part never writes (R78), reads as the canonical NaN: the spec gives no value.
(DESIGN CHOICE, log entry 89.) -/
def mxDequant (src el : FlFmt) (scale : Nat) (codes : List Nat) : List Nat :=
  if scale = 0xFF then codes.map fun _ => canonNaN src
  else codes.map fun c =>
    match el.decode c with
    | .fin n m e => src.round n m (e + scale - 127)
    | _ => canonNaN src

/-- The two-byte elements of a byte string. -/
def elems16 : List Byte → List Nat
  | a :: b :: t => (a.toNat + 256 * b.toNat) :: elems16 t
  | _ => []

/-- The bytes of two-byte elements. -/
def bytes16 (l : List Nat) : List Byte := l.flatMap fun c => [BitVec.ofNat 8 c, BitVec.ofNat 8 (c / 256)]

/-- A line quantised and dequantised as it lands in T0: each word or poison (R82). -/
def landLine (src el : FlFmt) (w0 w1 : Option Word) : Option Word × Option Word :=
  let bs := wordBytes (w0.getD 0) ++ wordBytes (w1.getD 0)
  let (x, cs) := mxQuant src el (elems16 bs)
  let out := bytes16 (mxDequant src el x cs)
  (w0.map fun _ => wordOfBytes out, w1.map fun _ => wordOfBytes (out.drop 32))

end Sys2Proof.Machine
end

