-- ==== Sys2Proof/Machine/Exact.lean ====
section
/-! DEFINITION. Exact values and the bounds of the Tally engines' computed results (R133, R134, R138, R141, R145, R153, R154): every
value an integer multiple of a power of two, the exponential enclosed between two such multiples. A computed result is a free value
held within its bound. -/

namespace Sys2Proof.Machine

/-! ## Codes of exact values -/

/-- The canonical NaN of a format (R134). -/
def FlFmt.qnan (f : FlFmt) : Nat := (2 ^ f.eb - 1) * 2 ^ f.mb + 2 ^ (f.mb - 1)

/-- Infinity of a format with a sign. -/
def FlFmt.inf (f : FlFmt) (neg : Bool) : Nat := f.top + 1 + if neg then 2 ^ f.bits else 0

/-- The nearest code of a value, as IEEE 754 rounds it (R134). -/
def FlFmt.code (f : FlFmt) : FVal → Nat
  | .nan => f.qnan
  | .inf n => f.inf n
  | .fin n m e => f.roundCap (f.top + 1) n m e

/-- A NaN as it is written (R134). -/
def FlFmt.canon (f : FlFmt) (c : Nat) : Nat := if f.decode c = .nan then f.qnan else c

/-- A finite value as a multiple of 2^-s. -/
def FVal.units (s : Nat) : FVal → Int
  | .fin n m e => let x : Int := Int.ofNat (m * 2 ^ (e + s).toNat); if n then -x else x
  | _ => 0

/-- The value is finite. -/
def FVal.finite : FVal → Bool
  | .fin _ _ _ => true
  | _ => false

/-- `x` × 2^-s as a value. -/
def valOf (s : Nat) (x : Int) : FVal := .fin (decide (x < 0)) x.natAbs (-s)

/-- The exact product (R134). -/
def FVal.mul : FVal → FVal → FVal
  | .nan, _ => .nan
  | _, .nan => .nan
  | .fin a m e, .fin b n k => .fin (a != b) (m * n) (e + k)
  | .fin a m _, .inf b => if m = 0 then .nan else .inf (a != b)
  | .inf a, .fin b n _ => if n = 0 then .nan else .inf (a != b)
  | .inf a, .inf b => .inf (a != b)

/-- The FP32 quotient of two FP32 codes (R134, R139). -/
def divFP32 (a b : Nat) : Nat :=
  match fmtFP32.decode a, fmtFP32.decode b with
  | .fin n m e, .fin k w g =>
    if w = 0 then (if m = 0 then fmtFP32.qnan else fmtFP32.inf (n != k))
    else
      let q := m * 2 ^ 80 / w
      fmtFP32.code (.fin (n != k) (2 * q + if q * w = m * 2 ^ 80 then 0 else 1) (e - g - 81))
  | .inf n, .fin k _ _ => fmtFP32.inf (n != k)
  | .fin n _ _, .inf k => fmtFP32.code (.fin (n != k) 0 0)
  | _, _ => fmtFP32.qnan

/-! ## Free values within a bound (R153, R154) -/

/-- A computed result: the free value where it lies from `lo` to `hi`, multiples of 2^-s; else the code nearest to `mid`.
(DESIGN CHOICE, log entry 7.) -/
def bounded (f : FlFmt) (s : Nat) (lo hi mid : Int) (free : Nat) : Nat :=
  let v := f.decode free
  if v.finite && decide (lo ≤ v.units s) && decide (v.units s ≤ hi) then free else f.code (valOf s mid)

/-- What a sum that meets NaN or infinity gives, if one does (R134). -/
def specialSum (l : List FVal) : Option FVal :=
  let pos := l.any fun v => v = .inf false
  let neg := l.any fun v => v = .inf true
  if (l.any fun v => v = .nan) || (pos && neg) then some .nan
  else if pos then some (.inf false)
  else if neg then some (.inf true)
  else none

/-- The exact sum of finite values, a multiple of 2^-s. -/
def sumUnits (s : Nat) (l : List FVal) : Int := l.foldl (fun a v => a + v.units s) 0

/-- The exact sum of their magnitudes. -/
def absUnits (s : Nat) (l : List FVal) : Nat := l.foldl (fun a v => a + (v.units s).natAbs) 0

/-- A sum of magnitudes that FP32 arithmetic can take beyond its range: Table 05.7 gives no bound for what follows.
(DESIGN CHOICE, log entry 7.) -/
def tooBig (s a : Nat) : Bool := decide (2 ^ (127 + s) ≤ a)

/-! ## Rows and scores (R133, R138) -/

/-- A value times 2^x. -/
def FVal.scale (x : Int) : FVal → FVal
  | .fin n m e => .fin n m (e + x)
  | v => v

/-- Elements of MX blocks: 32 to each scale byte, 0xFF making them NaN (R133). -/
def mxVals (el : FlFmt) : List Nat → List Nat → List FVal
  | [], _ => []
  | x :: xs, cs =>
    ((cs.take 32).map fun c => if x = 0xFF then FVal.nan else (el.decode c).scale (Int.ofNat x - 127)) ++ mxVals el xs (cs.drop 32)

/-- The scale bytes of an MX row of `d` elements, none for the other formats. -/
def rowScales (efmt d : Nat) (bs : List Byte) : List Nat :=
  match efmt with
  | 5 => (bs.drop d).map BitVec.toNat
  | 6 => (bs.drop (d / 2)).map BitVec.toNat
  | _ => []

/-- The values of a row of `d` elements under EFMT (R98, R133, R135). -/
def rowVals (efmt d : Nat) (bs : List Byte) : List FVal :=
  match efmt with
  | 1 => (elems16 bs).map fmtBF16.decode
  | 2 => (elems16 bs).map fmtFP16.decode
  | 3 => bs.map fun b => fmtE4M3.decode b.toNat
  | 4 => bs.map fun b => fmtE5M2.decode b.toNat
  | 5 => mxVals fmtE4M3 (rowScales 5 d bs) ((bs.take d).map BitVec.toNat)
  | _ => mxVals fmtE2M1 (rowScales 6 d bs) ((bs.take (d / 2)).flatMap fun b => [b.toNat % 16, b.toNat / 16])

/-- The values of a query row (QFMT). -/
def queryVals (fp16 : Bool) (bs : List Byte) : List FVal := (elems16 bs).map (if fp16 then fmtFP16 else fmtBF16).decode

/-- An FP32 block sum, before or after its scale is applied, overflows or underflows (Table 05.7, MX inputs). `ts` are the products
with the scales in them.
(DESIGN CHOICE, log entry 7.) -/
def blockRisk : List Nat → List FVal → Bool
  | [], _ => false
  | x :: xs, ts =>
    let b := ts.take 32
    let a := absUnits 300 b
    (a ≠ 0 && (decide (2 ^ 427 ≤ a) || decide (2 ^ (300 + x) ≤ a) || decide ((sumUnits 300 b).natAbs < 2 ^ 174)))
      || blockRisk xs (ts.drop 32)

/-- SCALE as a value: +0 stands for 1/√d rounded to FP32 (Table 05.2). -/
def scaleVal (scale d : Nat) : FVal :=
  fmtFP32.decode (if scale = 0 then fmtFP32.roundCap fmtFP32.top false (2 * Nat.sqrt (2 ^ 160 / d) + 1) (-81) else scale)

/-- A computed score: SCALE × (q · k) within its bound of Table 05.7 (R138, R154). `xs` are the scale bytes of an MX row.
(DESIGN CHOICE, log entry 7.) -/
def boundScore (d : Nat) (scale : FVal) (q k : List FVal) (xs : List Nat) (free : Nat) : Nat :=
  let ts := q.zipWith FVal.mul k
  let a := absUnits 300 ts
  let c := scale.units 150
  let loose := tooBig 300 a || tooBig 450 (a * c.natAbs) || blockRisk xs ts
  match specialSum ts with
  | some .nan => fmtFP32.qnan
  | some v => if loose then fmtFP32.canon free else fmtFP32.code (scale.mul v)
  | none =>
    if loose then fmtFP32.canon free
    else
      let s := sumUnits 300 ts * c * 2 ^ 24
      let w : Int := Int.ofNat ((d + 2 + xs.length) * (a * c.natAbs))
      bounded fmtFP32 474 (s - w) (s + w) s free

/-! ## Weights (R138) -/

/-- One as a multiple of 2^-640. -/
def expOne : Nat := 2 ^ 640

/-- 1 − z/k (1 − z/(k+1) (…)) between two multiples of 2^-640, for `z` × 2^-159 from 0 to 1: `n` steps of the series of exp(−z). -/
def expSeries (z : Nat) : Nat → Nat → Nat × Nat
  | _, 0 => (0, expOne)
  | k, n + 1 =>
    let t := expSeries z (k + 1) n
    (expOne - (z * t.2 / (k * 2 ^ 159) + 1), expOne - z * t.1 / (k * 2 ^ 159))

/-- Squares an enclosure `n` times. -/
def expSquare : Nat → Nat × Nat → Nat × Nat
  | 0, t => t
  | n + 1, t => expSquare n (t.1 * t.1 / expOne, t.2 * t.2 / expOne + 1)

/-- exp(−y) between two multiples of 2^-640, for `y` × 2^-150: reduced by 512, the series, squared nine times. Beyond 300 it lies
below 2^-400. -/
def expIn (y : Nat) : Nat × Nat :=
  if y = 0 then (expOne, expOne)
  else if 300 * 2 ^ 150 ≤ y then (0, 2 ^ 240)
  else expSquare 9 (expSeries y 1 140)

/-- What an infinity or NaN times the weight exp(−y) gives; none where the weight may be taken as zero or not. -/
def weighSpecial (y : Nat) (v : FVal) : Option FVal :=
  if v = .nan then some .nan else if y < 87 * 2 ^ 150 then some v else none

/-- The sum of weighted values at the upper or the lower ends of their weights' enclosures. -/
def weighSum (upper : Bool) : List ((Nat × Nat) × Int) → Int
  | [] => 0
  | (w, v) :: t => v * Int.ofNat (if decide (v < 0) = upper then w.1 else w.2) + weighSum upper t

/-- A computed sum of x_j × exp(s_j − m), within `num` × 2^-24 of the sum of the magnitudes (R138, R141, R154): terms are FP32 codes
s_j, none above the code `m`, and values x_j.
(DESIGN CHOICE, log entry 7.) -/
def boundSum (num m : Nat) (ts : List (Nat × FVal)) (free : Nat) : Nat :=
  match fmtFP32.decode m with
  | .fin a b e =>
    let ds := ts.map fun t =>
      match fmtFP32.decode t.1 with
      | .fin n w g => (some (((FVal.fin a b e).units 150) - (FVal.fin n w g).units 150).toNat, t.2)
      | _ => (none, t.2)
    let odd := ds.filterMap fun t => if t.2.finite then none else some (match t.1 with | some y => weighSpecial y t.2 | none => some .nan)
    let ws := ds.filterMap fun t => match t.1 with | some y => if t.2.finite then some (expIn y, t.2.units 160) else none | none => none
    let lo := weighSum false ws
    let hi := weighSum true ws
    let mag := ws.foldl (fun a t => a + t.2.natAbs * t.1.2) 0
    match specialSum (odd.filterMap id) with
    | some .nan => fmtFP32.qnan
    | some v => if tooBig 800 mag || odd.any Option.isNone then fmtFP32.canon free else fmtFP32.code v
    | none =>
      if tooBig 800 mag || odd.any Option.isNone then fmtFP32.canon free
      else
        let w : Int := Int.ofNat (num * mag)
        bounded fmtFP32 824 (lo * 2 ^ 24 - w) (hi * 2 ^ 24 + w) ((lo + hi) * 2 ^ 23) free
  | _ => fmtFP32.qnan

/-- κ of Table 05.7 for `np` token pages. -/
def kappa (tpp np : Nat) : Nat := tpp + 3 * (Nat.log2 np + 1) + 16

/-! ## REDUCE SUM (R145) -/

/-- A floating-point SUM: an FP32 sum in some order, within (NSRC − 1) × u of the magnitudes, rounded once to the type (R145, R154).
(DESIGN CHOICE, log entry 7.) -/
def boundReduce (f : FlFmt) (l : List FVal) (free : Nat) : Nat :=
  let a := absUnits 150 l
  match specialSum l with
  | some .nan => f.qnan
  | some v => if tooBig 150 a then f.canon (f.code (fmtFP32.decode free)) else f.code v
  | none =>
    if tooBig 150 a then f.canon (f.code (fmtFP32.decode free))
    else if a = 0 then (if l.all fun v => v = .fin true 0 (f.emin - f.mb) then f.code (.fin true 0 0) else 0)
    else
      let s := sumUnits 150 l * 2 ^ 24
      let w : Int := Int.ofNat ((l.length - 1) * a)
      f.code (fmtFP32.decode (bounded fmtFP32 174 (s - w) (s + w) s free))

end Sys2Proof.Machine
end

