-- ==== Sys2Proof/Machine/Cloth.lean ====
section
/-! DEFINITION. Frames and codecs (spec/03_cloth_codecs.md): the frame header (R66), the decoders of Muslin, Damask, Voile
and Tulle (R71 to R77, R84, R85), the checks of an unfold (R68), the fold (R65, R67, R69, R86 to R88). -/

namespace Sys2Proof.Machine

/-! ## The frame header (Table 03.1) -/

/-- The fields of a frame header word (Table 03.1). -/
structure FHdr where
  /-- MAGIC -/
  magic : BitVec 8
  /-- CODEC -/
  codec : BitVec 3
  /-- PMASK -/
  pmask : BitVec 1
  /-- LEN -/
  len : BitVec 4
  /-- CFV -/
  cfv : BitVec 8
  /-- PVER -/
  pver : BitVec 16
  /-- ULEN -/
  ulen : BitVec 13
  /-- PLEN -/
  plen : BitVec 13
  /-- CPARAM -/
  cparam : BitVec 16
  /-- PITCH -/
  pitch : BitVec 6
  /-- SEED -/
  seed : BitVec 32
  /-- UCRC -/
  ucrc : BitVec 32
  /-- the reserved field -/
  rsvd : BitVec 104
  deriving DecidableEq, Repr

/-- A header as a word. -/
def FHdr.word (h : FHdr) : Word :=
  h.magic ++ h.codec ++ h.pmask ++ h.len ++ h.cfv ++ h.pver ++ h.ulen ++ h.plen ++ h.cparam ++ h.pitch ++ h.seed ++ h.ucrc
    ++ h.rsvd

/-- The header a word holds. -/
def FHdr.ofWord (w : Word) : FHdr where
  magic := w.extractLsb' 248 8
  codec := w.extractLsb' 245 3
  pmask := w.extractLsb' 244 1
  len := w.extractLsb' 240 4
  cfv := w.extractLsb' 232 8
  pver := w.extractLsb' 216 16
  ulen := w.extractLsb' 203 13
  plen := w.extractLsb' 190 13
  cparam := w.extractLsb' 174 16
  pitch := w.extractLsb' 168 6
  seed := w.extractLsb' 136 32
  ucrc := w.extractLsb' 104 32
  rsvd := w.extractLsb' 0 104

/-- The format versions the part decodes (Table 03.7). -/
def cfvDecoded (codec cfv : Nat) : Bool :=
  match codec with
  | 0 => cfv = 1
  | 1 => cfv = 1 || cfv = 2
  | 2 => cfv = 1 || cfv = 2
  | 3 => cfv = 1
  | 4 => cfv = 1
  | _ => false

/-- The version written by default (Table 03.7). -/
def cfvWritten (codec : Nat) : Nat := if codec = 1 ∨ codec = 2 then 2 else 1

/-! ## Muslin -/

/-- The tokens of one plane (R72, R73): `rev` is the plane's output so far, last byte first, `size` the plane's size,
`v1` format version 1. None when the stream is malformed. The first argument bounds the tokens: the stream's length. -/
def muslinPlane (size : Nat) (v1 : Bool) : Nat → List Byte → Nat → List Byte → Option (List Byte)
  | _, [], n, rev => if n = size then some rev.reverse else none
  | 0, _ :: _, _, _ => none
  | fuel + 1, t :: s, n, rev =>
    let k := t.toNat % 64
    match t.toNat / 64 with
    | 0 =>
      if s.length < k + 1 ∨ size < n + (k + 1) then none
      else muslinPlane size v1 fuel (s.drop (k + 1)) (n + (k + 1)) ((s.take (k + 1)).reverse ++ rev)
    | 1 =>
      if size < n + (k + 1) then none
      else muslinPlane size v1 fuel s (n + (k + 1)) (List.replicate (k + 1) 0 ++ rev)
    | 2 =>
      match s with
      | [] => none
      | b :: s =>
        if size < n + (k + 1) then none
        else muslinPlane size v1 fuel s (n + (k + 1)) (List.replicate (k + 1) b ++ rev)
    | _ =>
      match s with
      | [] => none
      | d :: s =>
        if n < d.toNat + 1 ∨ size < n + (k + 4) ∨ (v1 = true ∧ 64 ≤ d.toNat) then none
        else muslinPlane size v1 fuel s (n + (k + 4))
          ((List.range (k + 4)).foldl (fun r _ => r.getD d.toNat 0 :: r) rev)

/-- The planes of a Muslin payload (R71): their sizes in order; the streams fill the payload exactly. -/
def muslinPlanes (v1 : Bool) : List Nat → List Nat → List Byte → Option (List (List Byte))
  | [], [], [] => some []
  | size :: sizes, l :: ls, s =>
    if s.length < l then none
    else
      match muslinPlane size v1 l (s.take l) 0 [], muslinPlanes v1 sizes ls (s.drop l) with
      | some p, some ps => some (p :: ps)
      | _, _ => none
  | _, _, _ => none

/-- The directory word's lengths and the planes after it; lengths of absent planes and bits [255:64] are zero (R71). -/
def muslinPayload (v1 : Bool) (sizes : List Nat) (pay : List Byte) : Option (List (List Byte)) :=
  if pay.length < 32 then none
  else
    let d := leNat (pay.take 32)
    let ls := (List.range 4).map fun j => d / 2 ^ (16 * j) % 65536
    if 2 ^ 64 ≤ d ∨ (ls.drop sizes.length).any (· ≠ 0) then none
    else muslinPlanes v1 sizes (ls.take sizes.length) (pay.drop 32)

/-- Byte planes put together: byte i of the page is byte i / w of plane i % w. -/
def interleavePlanes (ps : List (List Byte)) : Nat → List Byte
  | 0 => []
  | n + 1 => ps.map (fun p => p.headD 0) ++ interleavePlanes (ps.map List.tail) n

/-- The byte planes of a page for a stride of `w` bytes: plane j, `n` bytes each. -/
def splitPlane (w j : Nat) : Nat → List Byte → List Byte
  | 0, _ => []
  | n + 1, l => l.getD j 0 :: splitPlane w j n (l.drop w)

/-- A Muslin payload unfolded (R71 to R73, Table 03.2). -/
def unMuslin (cparam cfv : Nat) (pay : List Byte) : Option (List Byte) :=
  if 4 ≤ cparam ∨ cparam = 3 ∨ (cfv = 1 ∧ cparam = 2) then none
  else
    let w := 2 ^ cparam
    match muslinPayload (cfv = 1) (List.replicate w (4096 / w)) pay with
    | some ps => some (interleavePlanes ps (4096 / w))
    | none => none

/-! ## Damask -/

/-- The range decoder's registers and the bytes not yet read (R74). -/
structure RangeDec where
  /-- range -/
  range : Nat
  /-- code -/
  code : Nat
  /-- the rest of the stream; past its end bytes read as zero -/
  rest : List Byte
  deriving DecidableEq, Repr

/-- Takes in the next byte. -/
def RangeDec.next (d : RangeDec) : RangeDec :=
  { d with code := (d.code * 256 + (d.rest.headD 0).toNat) % 2 ^ 32, rest := d.rest.tail }

/-- The decoder at the start of a stream. -/
def RangeDec.start (s : List Byte) : RangeDec := (RangeDec.mk 0xFFFFFFFF 0 s).next.next.next.next

/-- The symbol whose cumulative interval holds `v`, its cumulative frequency and its frequency. -/
def findSym : List Nat → Nat → Nat → Nat → Nat × Nat × Nat
  | [], _, s, c => (s, c, 1)
  | f :: fs, v, s, c => if v < c + f then (s, c, f) else findSym fs v (s + 1) (c + f)

/-- Takes in bytes while the range is below 2^24: at most three. -/
def RangeDec.norm (d : RangeDec) : Nat → RangeDec
  | 0 => d
  | n + 1 => if d.range < 0x01000000 then RangeDec.norm { d.next with range := d.range * 256 } n else d

/-- One decode (R74): none when the stream is malformed. -/
def RangeDec.decode (d : RangeDec) (freqs : List Nat) (total : Nat) : Option (Nat × RangeDec) :=
  let r := d.range / total
  let v := d.code / r
  if total ≤ v then none
  else
    let (s, c, f) := findSym freqs v 0 0
    some (s, RangeDec.norm { d with code := d.code - r * c, range := r * f } 4)

/-- |s - 15| * t div D, the shift of Table t. -/
def tabShift (ver t s : Nat) : Nat := (if s ≤ 15 then 15 - s else s - 15) * t / (if ver = 1 then 2 else 4)

/-- Exponent table `t` of Damask version `ver` (R76). -/
def damaskTable (ver t : Nat) : List Nat :=
  if t = 0 then List.replicate 32 128
  else
    let r := (List.range 31).map (fun s => max 1 (65536 >>> tabShift ver t s)) ++ [1024]
    let sum := r.foldl (· + ·) 0
    let f := r.map fun x => max 1 (x * 4000 / sum)
    f.set 15 (f.getD 15 0 + 4096 - f.foldl (· + ·) 0)

/-- The escape symbol's 256 equal frequencies (R75). -/
def escFreqs : List Nat := List.replicate 256 16

/-- The element codes of a MODE 0 stream (R75): `sm` the sign-and-mantissa values, sign first. -/
def damaskExps (tab : List Nat) (base mb emax : Nat) : List Nat → RangeDec → Option (List Nat)
  | [], _ => some []
  | x :: xs, d =>
    match d.decode tab 4096 with
    | none => none
    | some (s, d) =>
      let r := if s = 31 then d.decode escFreqs 4096 else some (base + s, d)
      match r with
      | none => none
      | some (e, d) =>
        let e := if s = 31 then e + 15 else e
        if e < 15 ∨ emax < e - 15 then none
        else
          match damaskExps tab base mb emax xs d with
          | none => none
          | some l => some ((((x / 2 ^ mb) * (emax + 1) + (e - 15)) * 2 ^ mb + x % 2 ^ mb) :: l)

/-- The sign-and-mantissa values of a plane: 2,048 of 8 bits, or of 11 bits packed least significant first (R75). -/
def smBF16 (plane : List Byte) : List Nat := plane.map BitVec.toNat
/-- eleven bytes hold eight 11-bit values -/
def smFP16 : Nat → List Byte → List Nat
  | 0, _ => []
  | n + 1, l =>
    let v := leNat (l.take 11)
    (List.range 8).map (fun i => v / 2 ^ (11 * i) % 2048) ++ smFP16 n (l.drop 11)

/-- The 32 adaptive models of MODE 1 (R77): 16 for high nibbles, then 16 for low nibbles. -/
def nibModels : List (List Nat) := List.replicate 32 (List.replicate 16 16)

/-- A model after a decode of `s` (R77). -/
def bumpModel (f : List Nat) (s : Nat) : List Nat :=
  let f := f.set s (f.getD s 0 + 24)
  if 8192 < f.foldl (· + ·) 0 then f.map fun x => (x + 1) / 2 else f

/-- One nibble decoded with model `i`. -/
def decodeNib (ms : List (List Nat)) (d : RangeDec) (i : Nat) : Option (Nat × List (List Nat) × RangeDec) :=
  let f := ms.getD i []
  match d.decode f (f.foldl (· + ·) 0) with
  | none => none
  | some (s, d) => some (s, ms.set i (bumpModel f s), d)

/-- The bytes of a MODE 1 stream; `prev` is the previous byte's high nibble (R77). -/
def damaskBytes : Nat → List (List Nat) → Nat → RangeDec → Option (List Byte)
  | 0, _, _, _ => some []
  | n + 1, ms, prev, d =>
    match decodeNib ms d prev with
    | none => none
    | some (h, ms, d) =>
      match decodeNib ms d (16 + h) with
      | none => none
      | some (l, ms, d) =>
        match damaskBytes n ms h d with
        | none => none
        | some t => some (BitVec.ofNat 8 (16 * h + l) :: t)

/-- A Damask payload unfolded (R74 to R77, Table 03.2). -/
def unDamask (cparam cfv : Nat) (pay : List Byte) : Option (List Byte) :=
  let mode := cparam / 2 ^ 15
  if mode = 1 then
    if cparam % 2 ^ 15 ≠ 0 ∨ cfv = 1 then none else damaskBytes 4096 nibModels 0 (RangeDec.start pay)
  else if cparam % 4 ≠ 0 then none
  else
    let fp16 := cparam / 2 ^ 14 % 2 = 1
    let tab := damaskTable cfv (cparam / 2 ^ 10 % 16)
    let base := cparam / 4 % 256
    let size := if fp16 then 2816 else 2048
    if pay.length < size then none
    else
      let d := RangeDec.start (pay.drop size)
      let sm := if fp16 then smFP16 256 (pay.take size) else smBF16 (pay.take size)
      (damaskExps tab base (if fp16 then 10 else 7) (if fp16 then 31 else 255) sm d).map bytes16

/-! ## Voile and Tulle -/

/-- SRC of CPARAM (Table 03.2). -/
def mxSrc (cparam : Nat) : Option FlFmt :=
  match cparam / 2 ^ 14 with
  | 1 => some fmtBF16
  | 2 => some fmtFP16
  | _ => none

/-- Blocks of a Voile payload dequantised: scales and their elements, 32 to a block (R84). -/
def voileBlocks (src el : FlFmt) : List Byte → List Byte → List Byte
  | [], _ => []
  | x :: xs, q => bytes16 (mxDequant src el x.toNat ((q.take 32).map BitVec.toNat)) ++ voileBlocks src el xs (q.drop 32)

/-- A Voile payload unfolded (R84). -/
def unVoile (cparam : Nat) (pay : List Byte) : Option (List Byte) :=
  match mxSrc cparam with
  | none => none
  | some src =>
    if cparam % 2 ^ 13 ≠ 0 then none
    else
      match muslinPayload false [64, 2048] pay with
      | some [xs, qs] => some (voileBlocks src (if cparam / 2 ^ 13 % 2 = 1 then fmtE5M2 else fmtE4M3) xs qs)
      | _ => none

/-- The nibbles of bytes, low first. -/
def nibbles (l : List Byte) : List Nat := l.flatMap fun b => [b.toNat % 16, b.toNat / 16]

/-- Blocks of a Tulle payload: the zero-block mask from block `i` on, the scales and the elements (R85). -/
def tulleBlocks (src : FlFmt) (mask : Nat) : Nat → Nat → List Byte → List Byte → List Byte
  | 0, _, _, _ => []
  | n + 1, i, xs, qs =>
    if mask / 2 ^ i % 2 = 1 then List.replicate 64 0 ++ tulleBlocks src mask n (i + 1) xs qs
    else
      bytes16 (mxDequant src fmtE2M1 (xs.headD 0).toNat (nibbles (qs.take 16))) ++
        tulleBlocks src mask n (i + 1) xs.tail (qs.drop 16)

/-- How many of the lowest `n` bits of a mask are zero. -/
def zeroBits (mask n : Nat) : Nat := ((List.range n).filter fun i => mask / 2 ^ i % 2 = 0).length

/-- A Tulle payload unfolded (R85). -/
def unTulle (cparam : Nat) (pay : List Byte) : Option (List Byte) :=
  match mxSrc cparam with
  | none => none
  | some src =>
    if cparam % 2 ^ 14 ≠ 0 ∨ pay.length < 8 then none
    else
      let mask := leNat (pay.take 8)
      let nz := zeroBits mask 64
      if pay.length ≠ 8 + 17 * nz then none
      else some (tulleBlocks src mask 64 0 ((pay.drop 8).take nz) (pay.drop (8 + nz)))

/-- Whether a block of codes is all +0 and its scale is not 0xFF: its Tulle mask bit is 1 (R85). -/
def tulleZero (b : Nat × List Nat) : Bool := b.1 ≠ 0xFF && b.2.all (· = 0)

/-- The element bytes of a Tulle block: element 2k in the low nibble of byte k. -/
def packNibs : List Nat → List Byte
  | a :: b :: t => BitVec.ofNat 8 (a % 16 + 16 * (b % 16)) :: packNibs t
  | _ => []

/-- The quantised blocks of a page, 64 bytes each. -/
def mxBlocks (src el : FlFmt) : Nat → List Byte → List (Nat × List Nat)
  | 0, _ => []
  | n + 1, l => mxQuant src el (elems16 (l.take 64)) :: mxBlocks src el n (l.drop 64)

/-- The mask of the blocks whose bit is 1. -/
def zeroMask : List (Nat × List Nat) → Nat
  | [] => 0
  | b :: t => (if tulleZero b then 1 else 0) + 2 * zeroMask t

/-- A page folded under Tulle (R85). -/
def tullePayload (src : FlFmt) (page : List Byte) : List Byte :=
  let bs := mxBlocks src fmtE2M1 64 page
  let nz := bs.filter fun b => !tulleZero b
  leBytes 8 (zeroMask bs) ++ nz.map (fun b => BitVec.ofNat 8 b.1) ++ nz.flatMap fun b => packNibs b.2

/-! ## Unfold -/

/-- A payload unfolded by its codec: the 4,096 bytes (R68). -/
def unPayload (codec cparam cfv : Nat) (pay : List Byte) : Option (List Byte) :=
  match codec with
  | 0 => if cparam = 0 ∧ pay.length = 4096 then some pay else none
  | 1 => unMuslin cparam cfv pay
  | 2 => unDamask cparam cfv pay
  | 3 => unVoile cparam pay
  | 4 => unTulle cparam pay
  | _ => none

/-- Words with those of the mask taken as zero, from word `i` on (R67). -/
def maskWords (mask : Nat) : Nat → List Word → List Word
  | _, [] => []
  | i, w :: t => (if mask / 2 ^ i % 2 = 1 then 0 else w) :: maskWords mask (i + 1) t

/-- Page words with those of the mask restored as poison, from word `i` on (R67). -/
def restoreWords (mask : Nat) : Nat → List Word → List CWord
  | _, [] => []
  | i, w :: t => (if mask / 2 ^ i % 2 = 1 then .poison else encWord w) :: restoreWords mask (i + 1) t

/-- What an unfold finds: the page, a stale frame (only PVER differs, R35), or a malformed frame. -/
inductive Unfolded where
  | page (ws : List CWord)
  | stale
  | malformed
  deriving DecidableEq, Repr

/-- An unfold lane checks a repaired frame against its descriptor's codec, length, PVER and pitch, and expands it (R68). A frame
whose poison mask has one of bits [255:128] set is malformed too: R67 writes them zero, and R68 does not name them.
(DESIGN CHOICE, log entry 88.) -/
def unfoldFrame (codec len pver pitch : Nat) (f : List Word) : Unfolded :=
  let h := FHdr.ofWord (f.headD 0)
  let plen := h.plen.toNat
  let bad := h.magic ≠ 0xC7 ∨ h.codec.toNat ≠ codec ∨ !cfvDecoded codec h.cfv.toNat ∨ h.len.toNat ≠ len
    ∨ (codec = 0 ∧ len ≠ 9) ∨ h.ulen.toNat ≠ 4096 ∨ 32 * (16 * len - 3) < plen ∨ h.pitch.toNat ≠ pitch ∨ h.rsvd ≠ 0
    ∨ (h.pmask = 1 ∧ plen < 32)
  if bad then .malformed
  else
    let pay := (wordsToBytes (f.tail.take ((plen + 31) / 32))).take plen
    let mask := if h.pmask = 1 then leNat (pay.take 32) else 0
    let pay := if h.pmask = 1 then pay.drop 32 else pay
    if 2 ^ 128 ≤ mask then .malformed
    else
      match unPayload codec h.cparam.toNat h.cfv.toNat pay with
      | none => .malformed
      | some bs =>
        let ws := maskWords mask 0 (bytesToWords 128 bs)
        if crc32c h.seed (wordsToBytes ws) ≠ h.ucrc then .malformed
        else if h.pver.toNat ≠ pver then .stale
        else .page (restoreWords mask 0 ws)

/-! ## Fold -/

/-- The mask of the poisoned words, from the first word up (R67). -/
def poisonMask : List (Option Word) → Nat
  | [] => 0
  | w :: t => (if w.isNone then 1 else 0) + 2 * poisonMask t

/-- The exponents of a page's 16-bit elements. -/
def pageExps (mb emax : Nat) (page : List Byte) : List Nat := (elems16 page).map fun c => c / 2 ^ mb % (emax + 1)

/-- The most frequent of the exponents 0 to `n - 1`, the lower value winning a tie (R76). -/
def baseExp (es : List Nat) (n : Nat) : Nat :=
  ((List.range n).foldl (fun (b : Nat × Nat) e =>
    let c := es.count e
    if b.2 < c then (e, c) else b) (0, 0)).1

/-- The scale and element planes a Voile payload holds (R84). -/
def voilePlanes (src el : FlFmt) (page : List Byte) : List (List Byte) :=
  let bs := mxBlocks src el 64 page
  [bs.map fun b => BitVec.ofNat 8 b.1, bs.flatMap fun b => b.2.map fun q => BitVec.ofNat 8 q]

/-- What a fold runs with: element format 1 BF16, 2 FP16 as a format. -/
def efmtFl (efmt : Nat) : FlFmt := if efmt = 2 then fmtFP16 else fmtBF16

/-- VOILE's element format. -/
def velFl (vel : Nat) : FlFmt := if vel = 1 then fmtE5M2 else fmtE4M3

/-- The shortest of the payloads found with their CPARAM, the first of equals (R76: TAB's choice). -/
def shortest : List (Nat × List Byte) → Option (Nat × List Byte)
  | [] => none
  | p :: t =>
    match shortest t with
    | some q => if q.2.length < p.2.length then some q else some p
    | none => some p

/-- CPARAM of a MODE 0 Damask frame: FMT, TAB and BASE (Table 03.2). -/
def damaskParam (efmt tab base : Nat) : Nat := (if efmt = 2 then 2 ^ 14 else 0) + tab * 2 ^ 10 + base * 4

/-- The CPARAM and payload of a page folded by a codec at a format version, without a mask word; none where the format
version lacks a feature the extent needs (R87), or where no payload of the encoder's own choice stands for the page.
The encoder's choices are free values checked by the decoder (R74; log entry 5).
(DESIGN CHOICE, log entry 5.) -/
def foldPayload (codec cfv efmt vel : Nat) (ws : List Word) : Option (Nat × List Byte) :=
  let page := wordsToBytes ws
  let checked (cparam : Nat) : Option (Nat × List Byte) :=
    let p := Config.encode codec cfv cparam ws
    if unPayload codec cparam cfv p = some page then some (cparam, p) else none
  match codec with
  | 1 =>
    let st := if efmt = 0 then 0 else if efmt = 3 then 2 else 1
    if cfv = 1 ∧ st = 2 then none else checked st
  | 2 =>
    if efmt = 1 ∨ efmt = 2 then
      let es := if efmt = 2 then pageExps 10 31 page else pageExps 7 255 page
      let base := baseExp es 256
      shortest ((List.range 16).filterMap fun tab => checked (damaskParam efmt tab base))
    else if cfv = 1 then none
    else checked (2 ^ 15)
  | 3 =>
    let cparam := efmt * 2 ^ 14 + vel * 2 ^ 13
    let p := Config.encode 3 cfv cparam ws
    if muslinPayload false [64, 2048] p = some (voilePlanes (efmtFl efmt) (velFl vel) page) then some (cparam, p) else none
  | 4 => some (efmt * 2 ^ 14, tullePayload (efmtFl efmt) page)
  | _ => none

/-- The smallest LEN that holds a payload of `n` words (R65). -/
def frameLen (n : Nat) : Nat := max 1 ((n + 3 + 15) / 16)

/-- A frame as the fold lane writes it: its words, LEN and codec. -/
structure Frame where
  /-- words, 16 × LEN of them -/
  words : List Word
  /-- LEN -/
  len : Nat
  /-- codec -/
  codec : Nat
  deriving DecidableEq, Repr

/-- The frame of a payload: header, payload, padding and parity (R65, R66, R285). -/
def packFrame (codec cfv cparam pver pitch : Nat) (seed ucrc : BitVec 32) (mask : Option Nat) (pay : List Byte) : Frame :=
  let body := (match mask with | some m => leBytes 32 m | none => []) ++ pay
  let n := (body.length + 31) / 32
  let len := frameLen n
  let h : FHdr := ⟨0xC7, BitVec.ofNat 3 codec, if mask.isSome then 1 else 0, BitVec.ofNat 4 len, BitVec.ofNat 8 cfv,
    BitVec.ofNat 16 pver, 4096, BitVec.ofNat 13 body.length, BitVec.ofNat 16 cparam, BitVec.ofNat 6 pitch, seed, ucrc, 0⟩
  ⟨addParity (h.word :: bytesToWords (16 * len - 3) body), len, codec⟩

/-- The page a payload unfolds to, its poisoned words as zero: what UCRC covers (R66, R67). -/
def ucrcPage (codec cparam cfv mask : Nat) (pay : List Byte) : List Word :=
  maskWords mask 0 (bytesToWords 128 ((unPayload codec cparam cfv pay).getD []))

/-- The fold of a page: its words, none where poisoned (R65, R67, R69). `codec` is the resolved codec, `cfv` the capped
format version.
(DESIGN CHOICE, log entry 5.) -/
def foldPage (codec cfv efmt vel pver pitch : Nat) (seed : BitVec 32) (page : List (Option Word)) : Frame :=
  let ws := page.map fun w => w.getD 0
  let m := poisonMask page
  let mask := if m = 0 then none else some m
  let extra := if m = 0 then 0 else 1
  let raw := packFrame 0 1 0 pver pitch seed (crc32c seed (wordsToBytes ws)) mask (wordsToBytes ws)
  match foldPayload codec cfv efmt vel ws with
  | some (cparam, pay) =>
    if 125 < (pay.length + 31) / 32 + extra then raw
    else packFrame codec cfv cparam pver pitch seed (crc32c seed (wordsToBytes (ucrcPage codec cparam cfv m pay))) mask pay
  | none => raw

end Sys2Proof.Machine
end

