-- ==== Sys2Proof/Machine/Figures.lean ====
section
/-! DEFINITION. The figures of each configuration: Tables 00.1, 01.3, 01.4a and the limits that follow them, the latencies
of Table 01.8, and the lengths of time in hub cycles (R298: 0.5 ns). -/

namespace Sys2Proof.Machine

/-- Regions N (Table 00.1). -/
def regions : Fam → Nat
  | .f2 => 2 | .f4 => 4 | .f8 => 8 | .f16 => 16

/-- Hubs, host ports and optical engines (Table 00.1). -/
def hubs : Fam → Nat
  | .f2 => 1 | .f4 => 2 | .f8 => 4 | .f16 => 8

/-- Functions: 16 per port (R176). -/
def functions (f : Fam) : Nat := 16 * hubs f

/-- CONFIG: 2, 4, 8 or 16 (Table 15.2). -/
def configNum : Fam → Nat
  | .f2 => 2 | .f4 => 4 | .f8 => 8 | .f16 => 16

/-- log2 of the number of regions (R29). -/
def regionBits : Fam → Nat
  | .f2 => 1 | .f4 => 2 | .f8 => 3 | .f16 => 4

/-- Extents mapped at most (Table 01.3). -/
def extentLimit : Fam → Nat
  | .f2 => 12288 | .f4 => 24576 | .f8 => 49152 | .f16 => 98304

/-- TDP in W (Table 01.3). -/
def tdp : Fam → Nat
  | .f2 => 150 | .f4 => 290 | .f8 => 560 | .f16 => 1100

/-- Least power cap in W (R216). -/
def capMin : Fam → Nat
  | .f2 => 80 | .f4 => 160 | .f8 => 310 | .f16 => 600

/-- Device ID (Table 10.1). -/
def deviceId : Fam → BitVec 16
  | .f2 => 0x0F02 | .f4 => 0x0F04 | .f8 => 0x0F08 | .f16 => 0x0F16

/-- Stops of the arcade, numbered: hubs 0 to 7, junctions 8 to 11, regions 16 to 31. -/
def stopHub (h : Nat) : Nat := h
/-- junction stop of inner ring `q` -/
def stopJunction (q : Nat) : Nat := 8 + q
/-- stop of region `r` -/
def stopRegion (r : Nat) : Nat := 16 + r

/-- The rings in ring order (Table 01.4a). -/
def rings : Fam → List (List Nat)
  | .f2 => [[0, 16, 17]]
  | .f4 => [[0, 1, 8], [8, 16, 17, 18, 19]]
  | .f8 => [[0, 1, 8, 2, 3, 9], [8, 16, 17, 18, 19], [9, 20, 21, 22, 23]]
  | .f16 => [[0, 1, 9, 2, 3, 11, 4, 5, 10, 6, 7, 8], [8, 16, 17, 21, 20], [9, 18, 19, 23, 22], [10, 24, 25, 29, 28],
      [11, 26, 27, 31, 30]]

/-- The segments of one ring: each stop with the next, the last with the first (R404). -/
def ringSegments (l : List Nat) : List (Nat × Nat) :=
  match l with
  | [] => []
  | a :: t => (a :: t).zip (t ++ [a])

/-- The numbered segments (R404): the outer ring's first, then each inner ring's. -/
def segments (f : Fam) : List (Nat × Nat) := ((rings f).map ringSegments).flatten

/-- The stops a configuration has. -/
def hasStop (f : Fam) (s : Nat) : Bool := (rings f).any fun l => l.contains s

/-- The stops met from position `i` of ring `l` going forward to stop `b`, without the start, within `fuel` steps. -/
def walkTo (l : List Nat) (i : Nat) (b : Nat) : Nat → List Nat
  | 0 => []
  | fuel + 1 =>
    let j := (i + 1) % l.length
    let s := l.getD j 0
    if s = b then [s] else s :: walkTo l j b fuel

/-- The one way round ring `l` from `a` to `b` (R19): the stops met after `a`. R19 says only that it is fixed; the model takes the shorter
way, forward on a tie.
(DESIGN CHOICE, log entry 96.) -/
def ringPath (l : List Nat) (a b : Nat) : List Nat :=
  if a = b then [] else
    let fwd := walkTo l (l.idxOf a) b l.length
    let bwd := walkTo l.reverse (l.reverse.idxOf a) b l.length
    if fwd.length ≤ bwd.length then fwd else bwd

/-- The inner ring that holds a stop and its junction, if the configuration has inner rings. -/
def innerOf (f : Fam) (s : Nat) : Option (List Nat) := (rings f).tail.find? fun l => l.tail.contains s

/-- The one fixed path between two stops (R19): by junctions between rings. -/
def arcadePath (f : Fam) (a b : Nat) : List Nat :=
  let outer := (rings f).headD []
  match innerOf f a, innerOf f b with
  | none, none => ringPath outer a b
  | some la, none => ringPath la a (la.headD 0) ++ ringPath outer (la.headD 0) b
  | none, some lb => ringPath outer a (lb.headD 0) ++ ringPath lb (lb.headD 0) b
  | some la, some lb =>
    if la = lb then ringPath la a b
    else ringPath la a (la.headD 0) ++ ringPath outer (la.headD 0) (lb.headD 0) ++ ringPath lb (lb.headD 0) b

/-- The segment that joins two adjacent stops. -/
def segmentOf (f : Fam) (a b : Nat) : Nat := (segments f).findIdx fun p => p = (a, b) || p = (b, a)

/-- Regions on the same inner ring as `r` (Table 01.6): all of F2's are on its single ring. -/
def sameRing (f : Fam) (r : Nat) : List Nat :=
  match f with
  | .f2 => [0, 1]
  | _ =>
    match innerOf f (stopRegion r) with
    | some l => (l.tail.map fun s => s - 16)
    | none => []

/-! ## Sizes -/

/-- Pages of an extent (R5). -/
def extentPages : Nat := 65536
/-- T0 pages of a store block of 16 MiB. -/
def blockPages : Nat := 4096
/-- Sectors of a region's T1 (R262). -/
def t1Sectors : Nat := 15790080
/-- Sectors of one die. -/
def dieSectors : Nat := 7895040
/-- T1 record slots of a region with every channel in service (Table 02.3). -/
def t1RecordSlots : Nat := 1572864
/-- Slots of a far window (R48). -/
def winSlots : Nat := 229376
/-- Sectors of a window's 16 MiB area. -/
def areaSectors : Nat := 32768
/-- Records of a region's session table and of its view table. -/
def sessPerRegion : Nat := 16384
/-- Entries of a region's shared pool (R36). -/
def poolPerRegion : Nat := 1048576
/-- Entries of a region's pattern table (R53). -/
def patsPerRegion : Nat := 4096
/-- Ways and sets of a directory (R193). -/
def dirWays : Nat := 16
/-- Sectors of the refold reserve: the rest of the sectors after the record pool and the descriptor cache (Table 02.3). -/
def reserveSectors : Nat := 585728

/-! ## Time, in hub cycles of 0.5 ns (R298) -/

/-- `n` nanoseconds
(DESIGN CHOICE, log entry 1.) -/
def ns (n : Nat) : Nat := 2 * n
/-- `n` microseconds -/
def us (n : Nat) : Nat := 2000 * n
/-- `n` milliseconds -/
def ms (n : Nat) : Nat := 2000000 * n

/-! ## Unloaded latency (R26, R404), in tenths of a picosecond-free unit: picoseconds -/

/-- Unloaded typical latency of a line read on F16 in picoseconds: tier 0, tier 1 with a frame of `s` sectors; tier 2 takes
the far round trip `far` (Table 01.8). -/
def latencyTypical (tier s far : Nat) : Nat :=
  match tier with
  | 0 => 108000
  | 1 => 268700 + 17000 * ((s + 3) / 4)
  | _ => 349400 + far

/-- The maximum of Table 01.8. -/
def latencyMax (tier s far : Nat) : Nat :=
  match tier with
  | 0 => 122000
  | 1 => 288000 + 17000 * ((s + 3) / 4)
  | _ => 377500 + far

end Sys2Proof.Machine
end

