-- ==== Sys2Proof/Machine/Tab.lean ====
section
/-! DEFINITION. Sparse tables: reading, writing, the canonical form, and choosing a free index. -/

namespace Sys2Proof.Machine

variable {α : Type}

/-- The value at `k`: `d` where nothing is listed. -/
def tget (t : Tab α) (d : α) (k : Nat) : α :=
  match t with
  | [] => d
  | (j, v) :: t => if k = j then v else tget t d k

/-- The value listed at `k`, if one is. -/
def tfind (t : Tab α) (k : Nat) : Option α :=
  match t with
  | [] => none
  | (j, v) :: t => if k = j then some v else tfind t k

/-- `t` without an entry at `k`. -/
def tdel (t : Tab α) (k : Nat) : Tab α :=
  match t with
  | [] => []
  | (j, v) :: t => if k = j then tdel t k else (j, v) :: tdel t k

/-- `t` with `v` listed at `k`, in rising order of keys. -/
def tins (t : Tab α) (k : Nat) (v : α) : Tab α :=
  match t with
  | [] => [(k, v)]
  | (j, w) :: t => if k < j then (k, v) :: (j, w) :: t else if k = j then (k, v) :: t else (j, w) :: tins t k v

/-- `t` with the value at `k` set to `v`; the default `d` is never listed. -/
def tput [DecidableEq α] (t : Tab α) (d : α) (k : Nat) (v : α) : Tab α :=
  if v = d then tdel t k else tins t k v

/-- Every key of `t` is above `k`. -/
def tabove (t : Tab α) (k : Nat) : Bool :=
  match t with
  | [] => true
  | (j, _) :: t => decide (k < j) && tabove t k

/-- The canonical form: keys strictly rising and no entry at the default. -/
def twf [DecidableEq α] (d : α) (t : Tab α) : Bool :=
  match t with
  | [] => true
  | (j, v) :: t => tabove t j && decide (v ≠ d) && twf d t

/-- The first of `start`, `start + 1`, … (wrapping at `n`) that `used` does not hold, looking at `fuel` candidates. -/
def scanFree (used : Nat → Bool) (n : Nat) : Nat → Nat → Option Nat
  | 0, _ => none
  | fuel + 1, k => if used (k % n) then scanFree used n fuel (k + 1) else some (k % n)

/-- A free index below `n`, taken from a free starting point: none when `n` is zero or every index is used.
`count` bounds the indexes in use.
(DESIGN CHOICE, log entry 3.) -/
def pickFree (used : Nat → Bool) (n count start : Nat) : Option Nat :=
  if n = 0 then none else scanFree used n (min n (count + 1)) start

/-- The first index below `n` that `used` does not hold. -/
def lowestFree (used : Nat → Bool) (n count : Nat) : Option Nat := pickFree used n count 0

/-- Replaces the elements that satisfy `p`. -/
def lmod (l : List α) (p : α → Bool) (f : α → α) : List α := l.map fun a => if p a then f a else a

end Sys2Proof.Machine
end

