-- ==== Sys2Proof/Machine/Objects.lean ====
section
/-! DEFINITION. The object dictionary's catalogue (spec/15_dictionary_reference.md and the object tables of chapters 09 to 14):
which objects exist, their types, access codes, lengths and defaults; areas (Table 14.6); ranges applied at COMMIT. -/

namespace Sys2Proof.Machine

/-- Access of an object (Table 00.3); `cmd` is a WO object whose write starts an action (R323). -/
inductive Acc where
  | const | ro | rw | rws | w1c | cmd
  deriving DecidableEq, Repr

/-- An object: its type code (Table 14.5), access, least and greatest length in bytes, default. -/
structure Obj where
  /-- type code -/
  ty : Nat
  /-- access -/
  acc : Acc
  /-- least length -/
  lo : Nat
  /-- greatest length -/
  hi : Nat
  /-- default -/
  dflt : OVal
  deriving DecidableEq, Repr

/-- Length of a fixed-length type (Table 14.5). -/
def tyLen (ty : Nat) : Nat :=
  match ty with
  | 1 => 1 | 2 => 1 | 3 => 2 | 4 => 4 | 5 => 8 | 6 => 4 | _ => 0

/-- A numeric object. -/
def oNum (ty : Nat) (acc : Acc) (d : Nat) : Option Obj := some ⟨ty, acc, tyLen ty, tyLen ty, ⟨tyLen ty, d⟩⟩
/-- A STRING or DOMAIN object of lengths `lo` to `hi`, default of length `lo` and number `d`. -/
def oDom (ty : Nat) (acc : Acc) (lo hi d : Nat) : Option Obj := some ⟨ty, acc, lo, hi, ⟨lo, d⟩⟩

/-- The key of an object in a configuration set. -/
def okey (i s : Nat) : Nat := i * 256 + s

/-- Identity objects (Table 15.2). -/
def objIdentity (f : Fam) (s : Nat) : Option Obj :=
  match s with
  | 0x01 => oDom 7 .const 6 6 (leNat [0x50, 0x6C, 0x65, 0x77, 0x65, 0x6E])
  | 0x02 => oDom 7 .const 0 12 0
  | 0x03 => oNum 2 .const (configNum f)
  | 0x04 => oNum 5 .const 0
  | 0x05 => oNum 2 .const 0x11
  | 0x06 => oNum 4 .ro 0
  | 0x07 => oDom 8 .ro (4 * regions f) (4 * regions f) 0
  | 0x08 => oDom 8 .ro 0 32 0
  | 0x09 => oNum 2 .const 3
  | 0x0A => oNum 2 .ro 0
  | 0x0B => oNum 5 .ro 0
  | _ => none

/-- Field-port objects (Table 14.1). -/
def objFieldPort (s : Nat) : Option Obj :=
  match s with
  | 0x01 => oNum 2 .ro 0
  | 0x02 => oNum 3 .rws 50613
  | 0x03 => oNum 2 .rws 32
  | 0x04 => oNum 3 .rws 10
  | 0x05 => oNum 3 .rws 30
  | 0x06 => oNum 5 .ro 0
  | 0x07 => oNum 4 .ro 0
  | 0x08 => oNum 4 .ro 0
  | _ => none

/-- Chip configuration objects (Table 15.3). -/
def objChip (f : Fam) (s : Nat) : Option Obj :=
  match s with
  | 0x01 => oNum 2 .rws 1
  | 0x02 => oNum 3 .rws (tdp f)
  | 0x03 => oNum 3 .rws 0
  | 0x04 => oNum 1 .w1c 0
  | 0x05 => oDom 8 .ro (4 * hubs f + 8 * regions f) (4 * hubs f + 8 * regions f) 0
  | 0x06 => oNum 4 .ro 65536
  | 0x07 => oNum 4 .ro 0
  | 0x08 => oNum 4 .ro 0
  | _ => none

/-- Generation and digest objects of the chip (Table 14.10). -/
def objGen (s : Nat) : Option Obj :=
  match s with
  | 0x01 => oNum 5 .ro 0
  | 0x02 => oDom 8 .ro 32 32 0
  | 0x03 => oNum 5 .ro 0
  | 0x04 => oNum 3 .ro 0
  | 0x05 => oNum 5 .ro 0
  | _ => none

/-- Generation and digest objects of a region (Table 14.10). -/
def objRGen (s : Nat) : Option Obj :=
  match s with
  | 0x01 => oNum 5 .ro 0
  | 0x02 => oDom 8 .ro 32 32 0
  | 0x03 => oNum 2 .ro 0
  | _ => none

/-- Region objects (Tables 15.4 and 11.5). -/
def objRegion (s : Nat) : Option Obj :=
  match s with
  | 0x01 => oNum 2 .ro 0
  | 0x02 => oNum 2 .ro 0
  | 0x03 => oNum 1 .cmd 0
  | 0x04 => oNum 3 .ro 0
  | 0x05 => oNum 2 .ro 0
  | 0x06 => oNum 4 .ro 0
  | 0x07 => oNum 5 .ro 0
  | 0x40 => oDom 8 .ro 2 2 0
  | 0x41 => oNum 2 .rws 85
  | 0x42 => oNum 2 .rws 5
  | 0x43 => oNum 3 .rws 2048
  | 0x44 => oNum 3 .rws 256
  | 0x45 => oNum 4 .ro 0
  | 0x46 => oNum 4 .ro 0
  | 0x47 => oNum 4 .w1c 0
  | 0x48 => oDom 8 .ro 20 20 0
  | _ => none

/-- Pitch objects (Table 15.5). -/
def objPitch (s : Nat) : Option Obj :=
  match s with
  | 0x01 => oNum 1 .rws 0
  | 0x02 => oNum 2 .rws 0
  | 0x03 => oNum 4 .rws 0
  | 0x04 => oNum 4 .rws 0
  | 0x05 => oNum 4 .rws 0
  | 0x06 => oNum 4 .rws 0
  | 0x07 => oNum 4 .rws 0
  | 0x08 => oNum 4 .rws 0
  | 0x09 => oNum 3 .rws 100
  | 0x0A => oNum 3 .rws 3600
  | 0x0B => oNum 3 .rws 64
  | 0x0C => oNum 2 .rws 16
  | 0x0D => oNum 4 .rws 1000
  | 0x0E => oNum 4 .rws 1000
  | 0x0F => oNum 4 .rws 200000
  | 0x10 => oNum 2 .rws 2
  | 0x11 => oNum 2 .rws 0
  | 0x12 => oDom 8 .rws 8 8 0x0000000101020201
  | 0x13 => oNum 4 .rws 2000
  | 0x14 => oNum 2 .rws 64
  | 0x15 => oNum 4 .rws 10000
  | 0x16 => oNum 1 .cmd 0
  | 0x17 => oNum 2 .cmd 0
  | 0x18 => oNum 1 .cmd 0
  | 0x19 => oDom 8 .cmd 28 28 0
  | 0x1A => oNum 4 .cmd 0
  | 0x1B => oDom 8 .cmd 20 20 0
  | 0x1C => oNum 4 .ro 0
  | 0x1D => oNum 2 .ro 0
  | _ => none

/-- The house pitch's objects read as zero but WEIGHT, which reads 64 (Table 15.5). -/
def objHouse (s : Nat) : Option Obj :=
  (objPitch s).map fun o => { o with dflt := ⟨o.dflt.len, if s = 0x0C then 64 else 0⟩ }

/-- Tiering objects (Table 15.6). -/
def objTier (chip : Bool) (s : Nat) : Option Obj :=
  match s with
  | 0x01 => oNum 2 .rws 0
  | 0x02 => oNum 2 .rws 0
  | 0x03 => oNum 3 .rws 0
  | 0x04 => oNum 2 .rws 0
  | 0x10 => if chip then oNum 3 .rws 1024 else none
  | _ => none

/-- Port objects (Tables 15.7, 10.8, 09.4). -/
def objPort (s : Nat) : Option Obj :=
  match s with
  | 0x01 => oNum 1 .ro 0
  | 0x02 => oNum 3 .ro 0
  | 0x10 => oNum 3 .rws 4096
  | 0x11 => oNum 3 .rws 1024
  | 0x12 => oNum 4 .rws 1000
  | 0x13 => oNum 3 .ro 0
  | 0x14 => oNum 3 .ro 0
  | 0x15 => oNum 5 .ro 0
  | 0x20 => oNum 2 .rws 0
  | 0x21 => oNum 5 .ro 0
  | 0x22 => oDom 8 .ro 32 32 0
  | 0x23 => oDom 8 .ro 16 16 0
  | 0x24 => oNum 4 .w1c 0
  | 0x25 => oNum 1 .rws 1
  | 0x30 => oNum 2 .ro 1
  | 0x31 => oNum 2 .ro 0
  | 0x32 => oNum 1 .cmd 0
  | s =>
    if 0x40 ≤ s ∧ s < 0x50 then oNum 2 .rws 0
    else if 0x50 ≤ s ∧ s < 0x60 then oNum 1 .cmd 0
    else if 0x60 ≤ s ∧ s < 0x70 then oNum 5 .ro 0
    else none

/-- Security objects below 0x6040 and the firmware objects (Table 15.8). -/
def objSecurity (i s : Nat) : Option Obj :=
  if i = 0x6000 then
    match s with
    | 0x01 => oDom 8 .ro 64 64 0
    | 0x02 => oNum 2 .ro 0
    | _ => none
  else if i = 0x6010 then
    match s with
    | 0x01 => oNum 2 .rws 1
    | 0x02 => oNum 2 .rws 1
    | 0x03 => oNum 2 .rws 2
    | 0x04 => oNum 2 .rws 2
    | 0x05 => oNum 4 .w1c 0
    | _ => none
  else if i = 0x6020 then
    if s = 1 then oDom 8 .ro 0 4096 0 else if 2 ≤ s ∧ s ≤ 8 then oDom 8 .rws 0 4096 0 else none
  else if i = 0x6030 then
    if 1 ≤ s ∧ s ≤ 4 then oDom 8 .rws 0 64 0 else none
  else if i = 0x6050 then
    match s with
    | 0x01 => oDom 8 .cmd 0 16777216 0
    | 0x02 => oNum 2 .cmd 0
    | 0x03 => oNum 2 .ro 0
    | _ => none
  else none

/-- Log objects (Table 15.9) and code objects (Table 12.6). -/
def objEvents (i s : Nat) : Option Obj :=
  if i = 0x7000 then
    match s with
    | 0x01 => oNum 5 .ro 0
    | 0x02 => oNum 5 .ro 0
    | 0x03 => oNum 5 .rw 0
    | 0x04 => oDom 8 .ro 0 1280 0
    | 0x05 => oNum 3 .ro 0
    | _ => none
  else if i = 0x7100 then
    match s with
    | 0x01 => oNum 3 .rws 64
    | 0x02 => oNum 3 .rws 32
    | 0x03 => oNum 4 .rws 1000
    | 0x04 => oNum 4 .ro 0
    | 0x05 => oNum 4 .ro 0
    | 0x06 => oNum 4 .ro 0
    | _ => none
  else none

/-- Injection objects (Table 12.8) and debug objects (Table 15.12). -/
def objDebug (i s : Nat) : Option Obj :=
  if i = 0x9000 then
    match s with
    | 0x01 => oNum 1 .cmd 0
    | 0x02 => oNum 2 .ro 0
    | _ => none
  else if i = 0x9001 then
    match s with
    | 0x01 => oNum 5 .rw 0
    | 0x02 => oDom 8 .ro 0 128 0
    | _ => none
  else if i = 0x9010 then
    match s with
    | 0x01 => oNum 1 .rw 0
    | 0x02 => oNum 2 .rw 0
    | 0x03 => oNum 4 .rw 0
    | 0x04 => oNum 4 .rw 0
    | 0x05 => oNum 2 .rw 0
    | 0x06 => oNum 3 .rw 1
    | 0x07 => oNum 4 .ro 0
    | _ => none
  else none

/-- Counters and gauges (Table 15.11). -/
def objCounter (f : Fam) (i s : Nat) : Option Obj :=
  let cnt := oNum 5 .rw 0
  let gauge := oNum 5 .ro 0
  if i = 0x8000 then (if s = 1 then cnt else none)
  else if 0x8100 ≤ i ∧ i < 0x8100 + regions f then
    (if 1 ≤ s ∧ s ≤ 3 then cnt else if 4 ≤ s ∧ s ≤ 6 then gauge else none)
  else if 0x8200 ≤ i ∧ i < 0x8200 + hubs f then (if 1 ≤ s ∧ s ≤ 7 then cnt else none)
  else if 0x8300 ≤ i ∧ i < 0x8300 + functions f then (if s = 1 then cnt else none)
  else if 0x8400 ≤ i ∧ i < 0x8440 then (if 1 ≤ s ∧ s ≤ 7 then cnt else none)
  else none

/-- The object at an index and subindex, if the configuration has it (R337, Table 15.1). Index 0x6050 names the firmware
objects; the same index as 0x6040 + 16 is read as Table 15.8's firmware rows (log entry 12).
(DEDUCED, log entry 12.) (PRESUMED, log entry 50.) -/
def objAt (f : Fam) (i s : Nat) : Option Obj :=
  if i = 0x1000 then objIdentity f s
  else if i = 0x1100 then objFieldPort s
  else if i = 0x2000 then objChip f s
  else if i = 0x2100 then objGen s
  else if 0x2110 ≤ i ∧ i < 0x2110 + regions f then objRGen s
  else if 0x2200 ≤ i ∧ i < 0x2200 + regions f then objRegion s
  else if i = 0x3000 then objHouse s
  else if 0x3000 < i ∧ i < 0x3040 then objPitch s
  else if 0x4000 ≤ i ∧ i < 0x4040 then objTier (i = 0x4000) s
  else if 0x4100 < i ∧ i < 0x4140 then (if 1 ≤ s ∧ s ≤ 64 then oDom 8 .rws 16 16 0 else none)
  else if 0x5000 ≤ i ∧ i < 0x5000 + hubs f then objPort s
  else if 0x5100 ≤ i ∧ i < 0x5140 then (if s = 1 then oDom 8 .rws 24 24 0 else none)
  else if i = 0x6050 then objSecurity i s
  else if 0x6040 < i ∧ i < 0x6080 then
    (if s = 1 then oDom 8 .cmd 0 256 0 else if s = 2 then oNum 2 .ro 0 else none)
  else if 0x6000 ≤ i ∧ i < 0x6040 then objSecurity i s
  else if 0x7040 < i ∧ i < 0x7080 then (if s = 1 then oDom 8 .ro 0 1280 0 else if s = 2 then oNum 3 .ro 0 else none)
  else if 0x7110 ≤ i ∧ i < 0x7110 + regions f then (if s = 1 then oDom 8 .ro 1126 1126 0 else none)
  else if i = 0x7120 then
    (if s = 1 then oDom 8 .ro (2 * (segments f).length) (2 * (segments f).length) 0
    else if s = 2 then oDom 8 .ro (4 * hubs f) (4 * hubs f) 0 else none)
  else if 0x7000 ≤ i ∧ i < 0x7110 then objEvents i s
  else if 0x8000 ≤ i ∧ i < 0x9000 then objCounter f i s
  else if 0x9000 ≤ i then objDebug i s
  else none

/-- The area of an index (Table 14.6). -/
def areaOf (i : Nat) : Nat :=
  if i < 0x1100 then 0 else if i < 0x2000 then 1 else if i < 0x2100 then 2 else if i < 0x2200 then 3
  else if i < 0x3000 then 4 else if i < 0x4000 then 5 else if i < 0x4100 then 6 else if i < 0x5000 then 7
  else if i < 0x5100 then 8 else if i < 0x6000 then 9 else if i < 0x7000 then 10 else if i < 0x8000 then 11
  else if i < 0x9000 then 12 else 13

/-- The areas that can be locked, as a mask: all but 0, 3 and 12 (Table 14.6). -/
def lockable : BitVec 16 := 0x2FF6

/-- The areas whose writes and locks need an authenticated client (Table 14.6). -/
def authArea (a : Nat) : Bool := a = 10 || a = 13

/-- The value of an object in a configuration set: its default where the set lists none. -/
def cfgVal (f : Fam) (vals : Tab OVal) (i s : Nat) : OVal :=
  match tfind vals (okey i s) with
  | some v => v
  | none => match objAt f i s with | some o => o.dflt | none => ⟨0, 0⟩

/-- The same as a number. -/
def cfgN (f : Fam) (vals : Tab OVal) (i s : Nat) : Nat := (cfgVal f vals i s).n

/-- A configuration set's values with one object set; defaults are not listed. -/
def cfgPut (f : Fam) (vals : Tab OVal) (k : Nat) (v : OVal) : Tab OVal :=
  tput vals (cfgVal f [] (k / 256) (k % 256)) k v

/-- Values laid over others: an edit over the values in force (R329). -/
def cfgOver (f : Fam) (base edit : Tab OVal) : Tab OVal := edit.foldl (fun b e => cfgPut f b e.1 e.2) base

/-- The indexes that can hold RWS objects, ascending. -/
def rwsIndexes (f : Fam) : List Nat :=
  [0x1100, 0x2000] ++ (List.range (regions f)).map (0x2200 + ·) ++ (List.range 63).map (0x3001 + ·)
    ++ (List.range 64).map (0x4000 + ·) ++ (List.range 63).map (0x4101 + ·) ++ (List.range (hubs f)).map (0x5000 + ·)
    ++ (List.range 64).map (0x5100 + ·) ++ [0x6010, 0x6020, 0x6030, 0x7100]

/-- Every RWS object, ascending index, then ascending subindex (Table 14.9).
(DEDUCED, log entry 44.) -/
def rwsKeys (f : Fam) : List Nat :=
  (rwsIndexes f).flatMap fun i =>
    ((List.range 128).filter fun s => match objAt f i s with | some o => o.acc = .rws | none => false).map (okey i)

/-- The serialisation of a configuration set (R332, Table 14.9). No RWS object holds key material. -/
def serialise (f : Fam) (vals : Tab OVal) : List Byte :=
  [0x46, 0x4E, 0x43, 0x43, 0x46, 0x47, BitVec.ofNat 8 (configNum f), 1] ++
    (rwsKeys f).flatMap fun k =>
      let i := k / 256
      let s := k % 256
      let v := cfgVal f vals i s
      leBytes 2 i ++ leBytes 1 s ++ leBytes 1 ((objAt f i s).elim 0 (·.ty)) ++ leBytes 4 v.len ++ leBytes v.len v.n

/-- CFGDIGEST and region digests (R332). -/
def cfgDigest (f : Fam) (vals : Tab OVal) : Nat := (Config.sm3 (serialise f vals)).toNat

end Sys2Proof.Machine
end

