-- ==== Sys2Proof/Machine/State.lean ====
section
/-! DEFINITION. The machine's state as plain data: every register, table, queue, counter, mode and pin the spec gives the
part, the queue of waiting commands, and `State.reset`. -/

namespace Sys2Proof.Machine

/-! ## Configuration sets and messages -/

/-- A set of dictionary values with its generation (R330); keys are index * 256 + subindex, absent keys hold the default. -/
structure CfgSet where
  /-- generation -/
  gen : Nat := 0
  /-- the values that differ from their defaults -/
  vals : Tab OVal := []
  deriving DecidableEq, Repr, Inhabited

/-- A logged event (Table 14.11). -/
structure EvRec where
  /-- ESEQ -/
  eseq : Nat
  /-- TIME, steward microseconds -/
  time : Nat
  /-- CODE -/
  code : Nat
  /-- SEV -/
  sev : Nat
  /-- CLASS -/
  cls : Nat
  /-- PITCH -/
  pitch : Nat
  /-- SOURCE [15:12] -/
  srcKind : Nat
  /-- SOURCE [11:0] -/
  srcNum : Nat
  /-- DATA -/
  data : Nat
  deriving DecidableEq, Repr, Inhabited

/-- One entry of a READ or WRITE reply (R322, R323). -/
structure REntry where
  /-- index -/
  index : Nat
  /-- subindex -/
  sub : Nat
  /-- status of Table 14.4 -/
  status : Nat
  /-- type code -/
  ty : Nat
  /-- length field (the full length under USE_BLOCK) -/
  len : Nat
  /-- the value -/
  val : OVal
  deriving DecidableEq, Repr, Inhabited

/-- The payload of a dictionary reply. -/
inductive DBody where
  | none
  | hello (v nodeid config maxPayload clientTo resetId cfgGen : Nat) (short : Bool)
  | entries (es : List REntry)
  | committed (gen digest : Nat)
  | block (index sub ty total offset count : Nat) (val : OVal)
  | spdm (code : Nat) (payload : List Byte)
  deriving DecidableEq, Repr, Inhabited

/-- A dictionary reply (Table 14.2). -/
structure DReply where
  /-- TYPE -/
  ty : Nat
  /-- STATUS -/
  status : Nat := 0
  /-- REASON -/
  reason : Nat := 0
  /-- DINDEX -/
  dindex : Nat := 0
  /-- DSUB -/
  dsub : Nat := 0
  /-- FLAGS MORE -/
  more : Bool := false
  /-- CLIENT -/
  client : Nat := 0
  /-- VER -/
  ver : Nat := 0
  /-- SEQ -/
  seq : Nat := 0
  /-- sent inside a SECURED message (R320) -/
  secured : Bool := false
  /-- payload -/
  body : DBody := .none
  deriving DecidableEq, Repr, Inhabited

/-- The completion of a CXL.mem request (Table 09.8). -/
inductive RspKind where
  | memData (data : Line) (poison : Bool)
  | cmp | cmpS | cmpE | biConflictAck
  deriving DecidableEq, Repr, Inhabited

/-- Kinds of back-invalidation snoop (Table 09.8). -/
inductive SnpKind where
  | cur | data | inv
  deriving DecidableEq, Repr, Inhabited

/-- A message or signal the part gives to the outside, in the order it gives them. -/
inductive Out where
  /-- a CXL.mem response of function `f` to the port ID and tag of the request (R232) -/
  | rsp (f : Nat) (tag : HostTag) (k : RspKind)
  /-- a line snoop to function `f` -/
  | snoop (f : Nat) (k : SnpKind) (line : Nat)
  /-- BISnpInvBlk to function `f` from line number `line` -/
  | snoopBlk (f line : Nat)
  /-- a device-initiated read: port, requester (a function, or none for the FM-owned logical device: R410), tag, destination, far
  address, bytes, relaxed ordering; no-snoop and ID-based ordering are 0 in every request (R252) -/
  | uioRd (k : Nat) (rid : Option Nat) (tag dpid addr len : Nat) (ro : Bool)
  /-- a device-initiated write: port, requester, tracking number, destination, address, bytes, words, poisoned-data, relaxed ordering -/
  | uioWr (k : Nat) (rid : Option Nat) (id dpid addr len : Nat) (words : List Word) (poison ro : Bool)
  | intx (f : Nat) (assert : Bool)
  | ltr (k : Nat) (msg : BitVec 16)
  /-- an error message of function `f`: 0 ERR_COR, 1 ERR_NONFATAL, 2 ERR_FATAL (Table 10.2) -/
  | err (f sev : Nat)
  /-- a mailbox answer of function `f`: return code and payload bytes -/
  | mbox (f code : Nat) (payload : List Byte)
  /-- a mailbox answer of the FM-owned logical device of port `k` -/
  | fmMbox (k code : Nat) (payload : List Byte)
  /-- a dictionary reply to its sender -/
  | dict (dst : Src) (r : DReply)
  /-- an EVENT message -/
  | event (dst : Src) (client seq dropped : Nat) (recs : List EvRec)
  /-- an answer of a DOE mailbox -/
  | doe (mb : Mbx) (payload : List Byte)
  | spdm (mb : Mbx) (code : Nat) (payload : List Byte)
  /-- neighbour advertisement, echo reply, PLCA beacon -/
  | neighbourAdvert (toAddr : Nat)
  | echoReply (toAddr id seq : Nat) (payload : List Byte)
  | beacon
  /-- a steward claim, with the digest of the image header, from one hub to another -/
  | claim (src dst digest : Nat)
  /-- flash write by the steward: hub and slot (2 names the marker sector) -/
  | flashWr (h slot : Nat)
  /-- a cell's or a block's grant -/
  | cellGrant (r cell port : Nat)
  | blockGrant (r b pitch : Nat)
  /-- a refresh command, an activate -/
  | refresh (r c : Nat)
  | activate (r c bank row : Nat) (write : Bool)
  deriving DecidableEq, Repr, Inhabited

/-! ## The chip -/

/-- Where the part stands in its life (R370, R371). -/
inductive Phase where
  /-- RESET_n is low -/
  | held
  /-- RESET_n is high and the steps of Table 17.1 run -/
  | starting
  /-- memory-active has been reached -/
  | active
  deriving DecidableEq, Repr, Inhabited

/-- The chip-wide unit: the always-on security monitor, start-up, the steward role, derating and power. -/
structure Sys where
  /-- reset and start-up -/
  phase : Phase := .held
  /-- chip fatal is in effect (R25) -/
  fatal : Bool := false
  /-- FATALCAUSE, in the always-on security monitor (R25, Table 17.3) -/
  fatalCause : Nat := 0
  /-- the CHIP_FATAL event is still to be logged, after the RESET_n that follows (Table 15.10) -/
  fatalReport : Bool := false
  /-- the debug latch, in the always-on security monitor (R364) -/
  debugLatch : Bool := false
  /-- the alarm classes the monitor has recorded (R300, spec/16 worked example) -/
  monClasses : BitVec 4 := 0
  /-- hub cycle in which RESET_n fell: the part stretches the low to 10 µs (R394) -/
  heldAt : Nat := 0
  /-- hub cycle in which the start-up sequence began; the steward's microsecond count runs from it (R299) -/
  resetAt : Nat := 0
  /-- a start-up fuse failure keeps every port dark (Table 17.2) -/
  bootDark : Bool := false
  /-- hub holding the steward role (STEWARD) -/
  steward : Option Nat := none
  /-- hub cycle in which the last steward role began or was lost, and the last steward -/
  roleAt : Nat := 0
  /-- the last hub that held the role -/
  lastSteward : Nat := 0
  /-- microcode has been loaded into the regions at this start-up (R349) -/
  ucodeLoaded : Bool := false
  /-- hub cycle until which the dictionary is unavailable (R319). (DESIGN CHOICE, log entry 54.) -/
  dictDownUntil : Nat := 0
  /-- σ_h per hub as derated capacity over committed sum, absent = 1 (R212) -/
  sigmaH : Tab (Nat × Nat) := []
  /-- σ_T0 per region -/
  sigmaT0 : Tab (Nat × Nat) := []
  /-- σ_T1 per region -/
  sigmaT1 : Tab (Nat × Nat) := []
  /-- φ as a fraction (R210) -/
  phi : Nat × Nat := (1, 1)
  /-- the DEFICIT flag (R213) -/
  deficit : Bool := false
  /-- power-cap steps tightened in stages 1 to 3 (PCSTAGE, R216) -/
  pc1 : Nat := 0
  /-- stage 2 -/
  pc2 : Nat := 0
  /-- stage 3 -/
  pc3 : Nat := 0
  /-- PKGPWR -/
  pkgPwr : Nat := 0
  /-- hub cycle of the last power-cap window's end, and of the last POWER_LIMIT event -/
  pcAt : Nat := 0
  /-- hub cycle of the last POWER_LIMIT event -/
  powerLimitAt : Option Nat := none
  /-- THERM_ALERT_n is pulled low (R389) -/
  thermAlert : Bool := false
  /-- the last temperature of each die (R389) -/
  temps : List (DieId × Int) := []
  /-- hub cycle of the last thermal reading -/
  thermAt : Option Nat := none
  /-- hub cycle of the last fuse recheck and of the last die-to-die tag check (R359) -/
  fuseAt : Nat := 0
  /-- die-to-die tag check -/
  tagAt : Nat := 0
  deriving DecidableEq, Repr, Inhabited

/-! ## Hubs, ports and functions -/

/-- A token bucket: tokens in units of 1/65,536 and the remainder below that resolution (R202). -/
structure Bucket where
  /-- tokens * 65536 -/
  tok : Nat := 0
  /-- remainder carried from one hub cycle to the next, in 1/2000 of a unit -/
  rem : Nat := 0
  deriving DecidableEq, Repr, Inhabited

/-- A hub die (Table 01.1): its regulation, its steward core and its boot image. -/
structure Hub where
  /-- failed under R378 -/
  failed : Bool := false
  /-- holds a verified image and takes part in election (R375) -/
  live : Bool := false
  /-- the slot whose image runs, 0 A, 1 B -/
  slot : Nat := 0
  /-- the image in force, if one verified -/
  image : Option ImgIn := none
  /-- the position the next slot marker is written to (R399) -/
  markerPos : Nat := 0
  /-- hub cycle in which the watchdog was last serviced (R375) -/
  watchdogAt : Nat := 0
  /-- the watchdog is held during a planned reload (R375) -/
  watchdogHeld : Bool := false
  /-- hub cycle of the last steward renewal received -/
  renewedAt : Nat := 0
  /-- hub cycle of this hub's own outstanding claim -/
  claimAt : Option Nat := none
  /-- a claim from a lower-numbered live hub has been seen since -/
  sawLower : Bool := false
  /-- hub cycle in which a reload began (R366) -/
  reloadAt : Option Nat := none
  /-- the configuration set installed -/
  cfg : CfgSet := {}
  /-- guarantee buckets by pitch (R202) -/
  guar : Tab Bucket := []
  /-- ceiling buckets by pitch -/
  ceil : Tab Bucket := []
  /-- pitches whose buckets exist at this hub -/
  bound : List Nat := []
  /-- the surplus pool (R203) -/
  pool : Bucket := {}
  /-- smooth weighted round-robin counts of step 2 (R204) -/
  wrr : Tab Int := []
  /-- the pitch last admitted under step 1 -/
  rrPitch : Nat := 0
  /-- per pitch, the function last admitted -/
  rrFn : Tab Nat := []
  /-- per function, the queue last fetched for -/
  rrQueue : Tab Nat := []
  /-- admissions made in this hub cycle -/
  admitted : Nat := 0
  deriving DecidableEq, Repr, Inhabited

/-- An IDE stream (R234, R353): two key sets, the set in use, and whether the stream is established. -/
structure IdeStream where
  /-- key set 0 -/
  key0 : Option (BitVec 256) := none
  /-- key set 1 -/
  key1 : Option (BitVec 256) := none
  /-- the key set in use -/
  active : Option Nat := none
  deriving DecidableEq, Repr, Inhabited

/-- How a CXL.mem request treats the requester's copy (Table 07.7). -/
inductive Keep where
  | none | shared | own
  deriving DecidableEq, Repr, Inhabited

/-- A CXL.mem request in the part. -/
inductive ReqKind where
  | rd (k : Keep)
  /-- MemInv with MetaValue Any -/
  | inv
  /-- a clean eviction -/
  | evict
  /-- a write: whether F keeps its copy, data, byte enables, poisoned data -/
  | wr (keep : Bool) (data : Line) (be : BitVec 64) (poison : Bool)
  deriving DecidableEq, Repr, Inhabited

/-- A CXL.mem request as the hub passes it on. -/
structure Req where
  /-- number of the request -/
  id : Nat
  /-- function -/
  fn : Nat
  /-- source port ID and tag, which the response goes back to -/
  tag : HostTag
  /-- what is asked -/
  kind : ReqKind
  /-- device physical address of the line -/
  dpa : Nat
  /-- hub cycle of arrival at the hub, and at the region -/
  at_ : Nat
  /-- the request's place in the order in which requests reached their regions' stops (R24) -/
  ord : Nat := 0
  /-- the directory has been settled -/
  dirDone : Bool := false
  /-- the request's footfall has been counted -/
  counted : Bool := false
  /-- served as level 7 after 64 µs (R209) -/
  aged : Bool := false
  /-- the request has been forwarded to the region of a REF (R37) -/
  forwarded : Bool := false
  /-- the snoops its directory row calls for have been sent (R194) -/
  snooped : Bool := false
  /-- data written back in answer to a snoop: no response, no directory action (R194, R196) -/
  internal : Bool := false
  /-- a holder's write-back: it is applied before earlier requests for its line (R194) -/
  wb : Bool := false
  /-- the descriptor whose output in the part the write is -/
  dtor : Option Nat := none
  /-- a write of the house pitch to a map area (R103) -/
  house : Bool := false
  deriving DecidableEq, Repr, Inhabited

/-- Link states (LTSTATE of Table 09.5). -/
inductive LtState where
  | detect | polling | config | l0 | recovery | disabled
  deriving DecidableEq, Repr, Inhabited

/-- A port: link, light, containment, requester bounds. -/
structure Port where
  /-- CSTATE is CONTAINED (R258) -/
  contained : Bool := true
  /-- CCAUSE -/
  ccause : Nat := 0
  /-- the containment is the one that RESET_n begins (R373) -/
  startup : Bool := true
  /-- RXLOS -/
  rxlos : BitVec 16 := 0xFFFF
  /-- LASLOS -/
  laslos : BitVec 8 := 0xFF
  /-- microsecond in which block snoops were last sent, and how many went out in it (R200) -/
  blkUs : Nat := 0
  /-- block snoops sent in it -/
  blkSent : Nat := 0
  /-- RXPWR per physical lane, 0.01 dBm -/
  rxpwr : List Int := []
  /-- LASPWR per wavelength, 0.01 dBm -/
  laspwr : List Int := []
  /-- received power of each lane as the engine last found it, which RXPWR takes every 1 ms (R226) -/
  rxIn : List Int := []
  /-- laser input power of each wavelength likewise -/
  lasIn : List Int := []
  /-- REV -/
  rev : Bool := false
  /-- MAP in force -/
  map : Nat := 0
  /-- LTSTATE -/
  lt : LtState := .detect
  /-- RATE -/
  rate : Nat := 0
  /-- WIDTH -/
  width : Nat := 0
  /-- FLIT -/
  flit : Bool := false
  /-- READY -/
  ready : Bool := false
  /-- the link may train: step 4 of Table 17.1 has been reached -/
  training : Bool := false
  /-- OPTEVT -/
  optevt : BitVec 4 := 0
  /-- PID -/
  pid : BitVec 12 := 0
  /-- LTRSENT -/
  ltrSent : BitVec 16 := 0
  /-- an LTR message is due (R253) -/
  ltrDue : Bool := false
  /-- hub cycle from which a failed training is retried (R227) -/
  retrainAt : Option Nat := none
  /-- a hot reset's retraining is under way (Table 10.13) -/
  hotReset : Bool := false
  /-- the link is held in DISABLED by FENCE, chip fatal or hub failure -/
  down : Bool := false
  /-- failed replays of the flit in hand (Table 09.6) -/
  replays : Nat := 0
  /-- the CXL.mem stream -/
  ideMem : IdeStream := {}
  /-- the selective stream -/
  ideSel : IdeStream := {}
  /-- WINGEN and the window set in force (R257) -/
  wingen : Nat := 0
  /-- requests waiting for a token, in arrival order (R205) -/
  ingress : List Req := []
  /-- snoops held while contained (Table 10.12) -/
  heldSnoops : List Out := []
  /-- the last whole millisecond in which UNEXPECTED_COMPLETION was logged -/
  unexpAt : Option Nat := none
  deriving DecidableEq, Repr, Inhabited

/-- An HDM decoder (R241). -/
structure Decoder where
  /-- committed -/
  committed : Bool := false
  /-- the standard's commit error bit -/
  error : Bool := false
  /-- base HPA -/
  base : Nat := 0
  /-- size -/
  size : Nat := 0
  /-- DPA skip -/
  skip : Nat := 0
  deriving DecidableEq, Repr, Inhabited

/-- Lease states (LEASESTAT). -/
inductive LeaseState where
  | none | held | ending
  deriving DecidableEq, Repr, Inhabited

/-- A record of the Dynamic Capacity Event Log (R243). -/
inductive DcRec where
  | add (e : Nat) | forced (e : Nat)
  deriving DecidableEq, Repr, Inhabited

/-- A function of a port (a logical device). -/
structure Func where
  /-- Command register: [1] Memory Space Enable, [2] Bus Master Enable, [10] Interrupt Disable -/
  command : BitVec 16 := 0
  /-- BAR0 and BAR1 -/
  bar0 : BitVec 64 := 4
  /-- Expansion ROM BAR -/
  romBar : BitVec 32 := 0
  /-- Interrupt Line -/
  intLine : BitVec 8 := 0
  /-- LTR Mechanism Enable -/
  ltrEnable : Bool := false
  /-- the standard's error reporting enables: correctable, non-fatal, fatal (Table 10.2, Advanced Error Reporting) -/
  errEn : BitVec 3 := 0
  /-- HDM decoder 0 -/
  dec0 : Decoder := {}
  /-- HDM decoder 1 -/
  dec1 : Decoder := {}
  /-- QSQBASE -/
  qsqbase : BitVec 64 := 0
  /-- QCQBASE -/
  qcqbase : BitVec 64 := 0
  /-- QPARAM -/
  qparam : BitVec 64 := 0
  /-- QSTAT BUSY, and the queue whose DELETE is in progress -/
  qbusy : Option Nat := none
  /-- QSTAT RESULT -/
  qresult : Nat := 0
  /-- QSTAT QVERMAJ -/
  qverMaj : Nat := 0
  /-- QSTAT QVERMIN -/
  qverMin : Nat := 0
  /-- lease state -/
  lease : LeaseState := .none
  /-- hub cycle of expiry -/
  leaseAt : Nat := 0
  /-- the lease has been reported low since its last renewal -/
  leaseWasLow : Bool := false
  /-- hub cycle until which a lease that fell due in a failover is deferred (R377) -/
  leaseDefer : Option Nat := none
  /-- extents released and left at the lease's end, and lines poisoned (R188) -/
  endReleased : Nat := 0
  /-- extents left to other holders -/
  endLeft : Nat := 0
  /-- lines poisoned -/
  endPoisoned : Nat := 0
  /-- INTSTAT RAS, latched -/
  ras : Bool := false
  /-- INTSTAT MBOX, latched -/
  mbox : Bool := false
  /-- INTSTAT LEASE, latched -/
  leaseBit : Bool := false
  /-- INTEN -/
  inten : BitVec 8 := 0
  /-- INTSENT -/
  intsent : Bool := false
  /-- the Dynamic Capacity Event Log -/
  dclog : List DcRec := []
  /-- hub cycle of a function-level reset not yet over (R260) -/
  flrAt : Option Nat := none
  /-- the last whole millisecond in which STRAY_ACCESS was logged -/
  strayAt : Option Nat := none
  /-- the last whole millisecond in which PROTOCOL_UNSUPPORTED was logged -/
  protAt : Option Nat := none
  deriving DecidableEq, Repr, Inhabited

/-- Hubs, ports and functions by number. -/
structure Link where
  /-- hubs H0 upward -/
  hubs : Tab Hub := []
  /-- ports P0 upward -/
  ports : Tab Port := []
  /-- functions -/
  fns : Tab Func := []
  deriving DecidableEq, Repr, Inhabited

/-! ## Pages, frames and regions -/

/-- Tier of record (REC of Table 02.1). -/
inductive Rec where
  | none | t1 | t2
  deriving DecidableEq, Repr, Inhabited

/-- A PRIVATE-form page descriptor (Table 02.1). Codec codes are those of R35. -/
structure Priv where
  /-- CPITCH -/
  cpitch : Nat := 0
  /-- FOOTFALL -/
  footfall : Nat := 0
  /-- SHARES -/
  shares : Nat := 0
  /-- PVER -/
  pver : Nat := 0
  /-- T2LEN -/
  t2len : Nat := 0
  /-- T2CODEC -/
  t2codec : Nat := 0
  /-- T2WIN -/
  t2win : Nat := 0
  /-- T2SLOT -/
  t2slot : Nat := 0
  /-- T1LEN -/
  t1len : Nat := 0
  /-- T1CODEC -/
  t1codec : Nat := 0
  /-- T1ADDR -/
  t1addr : Nat := 0
  /-- T0SLOT -/
  t0slot : Nat := 0
  /-- T0 -/
  t0 : Bool := false
  /-- DIRTY -/
  dirty : Bool := false
  /-- T1DIRTY -/
  t1dirty : Bool := false
  /-- BAD -/
  bad : Bool := false
  /-- LOCK -/
  lock : Bool := false
  /-- REC -/
  rec_ : Rec := .none
  /-- a PAGE_POISONED event has been logged for the page (R291) -/
  poisLogged : Bool := false
  /-- the T1 frame, or the T2 frame, was found unrepairable and is read no more (R289) -/
  t1bad : Bool := false
  /-- the same of the T2 frame -/
  t2bad : Bool := false
  /-- the descriptor was lost with its descriptor page: its record slot is charged by count (Table 11.4) -/
  lost : Bool := false
  deriving DecidableEq, Repr, Inhabited

/-- A page descriptor (R34, R36). -/
inductive Desc where
  | unwritten
  | priv (p : Priv)
  | const (cpitch footfall pat : Nat)
  | ref (region entry : Nat)
  deriving DecidableEq, Repr, Inhabited

/-- A content descriptor's place: a slot of a descriptor run, by page number, or an entry of a shared pool. -/
inductive CRef where
  | slot (pn : Nat)
  | pool (r e : Nat)
  /-- the descriptor page `pg` (extent × 256 + page of the run) of region `r`, as a frame of its own (R33, R92) -/
  | desc (r pg : Nat)
  deriving DecidableEq, Repr, Inhabited

/-- Codec attribute, element format and VOILE element of an extent (R88, Table 07.1). -/
structure Attr where
  /-- CODEC -/
  codec : Nat := 0
  /-- EFMT -/
  efmt : Nat := 0
  /-- VEL -/
  vel : Nat := 0
  deriving DecidableEq, Repr, Inhabited

/-- An entry of a region's shared pool (R36, R101). -/
structure PoolEnt where
  /-- its content descriptor -/
  c : Priv := {}
  /-- the pitch that owns it -/
  pitch : Nat := 0
  /-- attributes of the extent in which it was frozen -/
  attr : Attr := {}
  /-- parked sessions that name it (R114) -/
  anchors : Nat := 0
  /-- lost with its descriptor page (Table 11.4) -/
  lost : Bool := false
  deriving DecidableEq, Repr, Inhabited

/-- An entry of a region's pattern table other than entry 0 (R53). -/
structure Pat where
  /-- the pattern -/
  word : Word := 0
  /-- CONSTANT descriptors and map entries that use it -/
  cnt : Nat := 0
  /-- the word code flagged it (R292) -/
  poison : Bool := false
  deriving DecidableEq, Repr, Inhabited

/-- A line of four descriptors in a region's page-map cache (R33); `id` numbers the line: page number of its first slot's
run position as (extent * 65536 + slot) / 4. -/
structure PLine where
  /-- the line -/
  id : Nat
  /-- modified since it was fetched -/
  dirty : Bool := false
  deriving DecidableEq, Repr, Inhabited

/-- A frame being read from T1 or T2 and unfolded. -/
structure Job where
  /-- number -/
  id : Nat
  /-- region that reads -/
  region : Nat
  /-- whose frame -/
  cref : CRef
  /-- tier read: 1 or 2 -/
  tier : Nat
  /-- length in sectors -/
  len : Nat
  /-- codec the descriptor gave the frame, and the page version it must carry -/
  codec : Nat
  /-- version -/
  pver : Nat
  /-- T1 sector addresses (tier 1), or far window and slot in that order (tier 2) -/
  src : List Nat
  /-- sectors not yet read or requested -/
  todo : List Nat
  /-- sectors asked for and not yet come -/
  left : Nat
  /-- frame words that have come, by word number -/
  words : Tab CWord
  /-- words flagged under R286 -/
  flagged : List Nat
  /-- words are missing at a timeout or an error completion -/
  missing : Bool
  /-- the requests that wait want the page; otherwise the reader is a move or a descriptor -/
  demand : Bool
  /-- descriptors whose Tally or service work reads the page into scratch -/
  users : List Nat
  /-- moves that read the page or frame -/
  moves : List Nat
  /-- T0 page taken for the landing (R27, R49) -/
  land : Option Nat := none
  /-- the frame, once the page code has settled it (R287) -/
  frame : List Word := []
  deriving DecidableEq, Repr, Inhabited

/-- Kinds of move (R57, R51, R113, R277, R288). -/
inductive MoveKind where
  /-- demotion out of T0 -/
  | demote
  /-- demotion of a T1 cache copy -/
  | dropT1
  /-- promotion into T0 -/
  | promT0
  /-- promotion from T2 into T1 -/
  | promT1
  /-- placing in T1 for the RESUME with this descriptor number -/
  | resume (d : Nat)
  /-- a T1 record moves to T2 -/
  | toT2
  /-- PARK of the session with this handle -/
  | park (h : Nat)
  /-- reload of a T1 frame lost with a channel -/
  | reload
  /-- write-back of a repaired frame -/
  | refold (tier : Nat)
  deriving DecidableEq, Repr, Inhabited

/-- Stages of a move. -/
inductive MovePhase where
  | planned | reading | folding | writing | ready
  deriving DecidableEq, Repr, Inhabited

/-- A planned or running move. -/
structure Move where
  /-- number -/
  id : Nat
  /-- region -/
  region : Nat
  /-- page -/
  cref : CRef
  /-- kind -/
  kind : MoveKind
  /-- stage -/
  phase : MovePhase := .planned
  /-- region priority level: 7 or 0 (R58) -/
  level : Nat := 0
  /-- destination tier of the frame written: 1 or 2 -/
  dst : Nat := 0
  /-- destination in T1: first sector address -/
  addr : Nat := 0
  /-- destination in T2: far window and slot -/
  win : Nat := 0
  /-- slot -/
  slot : Nat := 0
  /-- T0 page taken for a landing -/
  t0slot : Nat := 0
  /-- header codec, length and PVER of the frame made -/
  codec : Nat := 0
  /-- length in sectors -/
  len : Nat := 0
  /-- PVER written -/
  pver : Nat := 0
  /-- the frame words read or made -/
  frame : List Word := []
  /-- the page words PARK folds (R91) -/
  page : List CWord := []
  /-- sector writes, or device-initiated writes, not yet acknowledged -/
  acks : Nat := 0
  deriving DecidableEq, Repr, Inhabited

/-- Why a request waits. -/
inductive Why where
  /-- for a recall or snoops of its line -/
  | line
  /-- for a directory way of its set -/
  | way
  /-- for its descriptor line -/
  | miss
  /-- for a T0 page -/
  | t0
  /-- for a frame to be read and unfolded, or a promotion to land -/
  | frame
  /-- for a REF to be forwarded to another region -/
  | fwd
  /-- for its session to leave a state -/
  | session
  deriving DecidableEq, Repr, Inhabited

/-- A waiting request. -/
structure Wait where
  /-- the request -/
  req : Req
  /-- region where it waits -/
  region : Nat
  /-- reason -/
  why : Why
  deriving DecidableEq, Repr, Inhabited

/-- REGSTATE (Table 15.4). -/
inductive RegState where
  | bringup | serving | fenced | restarting
  deriving DecidableEq, Repr, Inhabited

/-- A region: its controller's registers and tables. -/
structure Region where
  /-- REGSTATE -/
  st : RegState := .bringup
  /-- FENCECAUSE -/
  fenceCause : Nat := 0
  /-- QUARANTINE: [7:0] store blocks, [9:8] DRAM blocks, [10] Tally, [11] codec -/
  quar : BitVec 12 := 0
  /-- TABLEBLOCK -/
  tableBlock : Nat := 0
  /-- BELLS -/
  bells : Nat := 0
  /-- hub cycle of the next bell (R406) -/
  bellAt : Nat := 0
  /-- hub cycle of the last bell -/
  lastBell : Nat := 0
  /-- configuration installed (R330) -/
  cfg : CfgSet := {}
  /-- configuration in effect since the last bell (R60) -/
  eff : CfgSet := {}
  /-- scaled-share factor σ_T0 in effect since the last bell (R212) -/
  sT0 : Nat × Nat := (1, 1)
  /-- σ_T1 in effect -/
  sT1 : Nat × Nat := (1, 1)
  /-- RSTATE (Table 14.10) -/
  rstate : Nat := 0
  /-- hub cycle of the last digest recheck -/
  digestAt : Nat := 0
  /-- page-map cache lines, least recently used first (R33) -/
  pmc : List PLine := []
  /-- T1 descriptor cache: descriptor pages held of T2-homed runs, least recently used first, and whether modified -/
  dcache : List PLine := []
  /-- where a descriptor page held in T1 lies: its first sector, by page number (R409); pool pages count from 2^40 -/
  dplace : Tab Nat := []
  /-- frames of T2-homed descriptor pages in T2, by page number: length in sectors, codec (R33, R92) -/
  dfar : Tab (Nat × Nat) := []
  /-- moves that a fold lane works on (R70) -/
  foldLanes : List Nat := []
  /-- jobs that an unfold lane works on (R70) -/
  unfoldLanes : List Nat := []
  /-- moves of the running plan and of the lists outside the plan limit -/
  moves : List Move := []
  /-- contents read by moves abandoned by none: pages on the refold list with the tier of the repaired frame (R288) -/
  refold : List (CRef × Nat × List Word) := []
  /-- sectors borrowed from the refold reserve (R47) -/
  borrowed : Nat := 0
  /-- record slots kept charged for lost descriptors: (extent, pitch, tier, count) (Table 11.4, R292) -/
  lostCharge : List (Nat × Nat × Rec × Nat) := []
  /-- per pitch, hub cycle from which its reattach period runs; absent when none runs (R123) -/
  reattach : Tab (Option Nat) := []
  /-- pitches whose reattach period has begun since RESET_n or since the region's restart (R123) -/
  reattachBegan : List Nat := []
  /-- T2 slots lent by this region: (pitch, window, slot, borrower) (R405) -/
  loans : List (Nat × Nat × Nat × Nat) := []
  /-- loans this region is still to ask for -/
  wantLoan : List Nat := []
  /-- handles of sessions whose accesses it has still to report at its next bell (R118) -/
  reports : List Nat := []
  /-- reports sent at a bell that have still to reach their home regions -/
  reportsOut : List Nat := []
  /-- descriptors running in the Tally block as ATTEND or SIFT -/
  tallyBig : List Nat := []
  /-- other descriptors running there -/
  tallySmall : List Nat := []
  /-- descriptors waiting in the Tally queue, in arrival order -/
  tallyQ : List Nat := []
  /-- hub cycle in which a running descriptor was dispatched, by descriptor (R206) -/
  tallyAt : Tab Nat := []
  /-- averages A by pitch * 3 + class, units of 2^-16 region cycles (R207) -/
  avg : Tab Nat := []
  /-- priority levels by pitch * 3 + class (R208) -/
  level : Tab Nat := []
  /-- hub cycle of the last level update -/
  levelAt : Nat := 0
  /-- block credits by block * 64 + pitch, as the amount below the cap (R206) -/
  spent : Tab Int := []
  /-- per cell, the port after the one granted last (R21) -/
  cellLast : Tab Nat := []
  /-- per cell, ports with a request waiting -/
  cellReq : Tab Nat := []
  /-- per cell, cycle of its own clock of the last grant, plus one -/
  cellAt : Tab Nat := []
  /-- microcode version active -/
  ucode : BitVec 32 := 0
  /-- SM3 digest of that microcode (R351) -/
  ucodeDigest : Nat := 0
  /-- microcode is being loaded: no plan is built and work waits (R367) -/
  rolling : Bool := false
  /-- the microcode of the roll has been started; the region resumes at its next bell (R367) -/
  rolledIn : Bool := false
  /-- regions in service that have still to end their reference sweep after this region's fence (R381) -/
  sweepLeft : List Nat := []
  /-- the ticket of the fence's retirement (R382) -/
  fenceTicket : Option Nat := none
  /-- hub cycle of the fence or restart -/
  fencedAt : Nat := 0
  /-- clocks gated: Tally cells, lanes (R297, R306) -/
  tallyGated : Bool := true
  /-- fold and unfold lanes gated -/
  lanesGated : Bool := true
  deriving DecidableEq, Repr, Inhabited

/-- What the house pitch does to a page: it writes the page whole, writes one of its lines (R103), or makes it UNWRITTEN. -/
inductive HouseDo where
  | page (ws : List Word)
  | line (i : Nat) (ws : List Word)
  | clear
  deriving DecidableEq, Repr, Inhabited

/-- Work of the house pitch on a page: it waits until the page's lines have been recalled (R197), and a whole write until a T0 page
is there (R49). -/
structure House where
  /-- page -/
  pn : Nat
  /-- what is done -/
  what : HouseDo
  /-- the descriptor whose completion waits for it -/
  dtor : Option Nat := none
  deriving DecidableEq, Repr, Inhabited

/-- Pages and regions. -/
structure Mem where
  /-- regions by number -/
  regions : Tab Region := []
  /-- page descriptors by page number. (DESIGN CHOICE, log entry 33.) -/
  descs : Tab Desc := []
  /-- shared pools, key region * 1048576 + entry -/
  pool : Tab PoolEnt := []
  /-- pattern tables, key region * 4096 + index -/
  pats : Tab Pat := []
  /-- T0 pages in use: key region * 32768 + T0 page, the page they hold -/
  t0own : Tab (Option CRef) := []
  /-- T1 sectors in use: key region * 2^24 + sector; 1 frame, 2 being written, 3 descriptor page -/
  t1own : Tab Nat := []
  /-- frames being read -/
  jobs : List Job := []
  /-- requests waiting in regions, in arrival order -/
  waits : List Wait := []
  /-- unfolded pages that are to be kept and wait for a T0 page: content, pitch charged, page version, words (R49, R50) -/
  keeps : List (CRef × Nat × Nat × List CWord) := []
  /-- pages unfolded into Tally scratch: (descriptor, page, words) (R130) -/
  scratch : List (Nat × CRef × List CWord) := []
  /-- work of the house pitch on map areas and cleared ranges that is not done yet, oldest first -/
  house : List House := []
  deriving DecidableEq, Repr, Inhabited

/-- The stores: T0 SRAM words and T1 GDDR7 words. An absent word reads as the poison marker (R284).
(DEDUCED, log entry 28.) -/
structure Store where
  /-- T0: key (region * 32768 + T0 page) * 128 + word -/
  t0 : Tab CWord := []
  /-- T1: key (region * 2^24 + sector) * 16 + word -/
  t1 : Tab CWord := []
  deriving DecidableEq, Repr, Inhabited

/-! ## Extents, directory, retirement -/

/-- Extent states (Table 07.1). -/
inductive ExtState where
  | free | adding | active | releasing
  deriving DecidableEq, Repr, Inhabited

/-- Coherence attributes. -/
inductive Coh where
  | tracked | readShared | uncached
  deriving DecidableEq, Repr, Inhabited

/-- An extent map entry (Table 07.1) with the offer and the release in progress. -/
structure Extent where
  /-- STATE -/
  st : ExtState := .free
  /-- COH -/
  coh : Coh := .tracked
  /-- CODEC, EFMT, VEL. (DEDUCED, log entry 32.) -/
  attr : Attr := {}
  /-- PLACE is CONFINED -/
  confined : Bool := false
  /-- where a T2-homed descriptor run lies: window and MiB of its area (R43) -/
  run : Option (Nat × Nat) := none
  /-- HOME -/
  home : Nat := 0
  /-- PITCH -/
  pitch : Nat := 0
  /-- CAUSE -/
  cause : Nat := 0
  /-- GRANT -/
  grant : BitVec 128 := 0
  /-- functions offered and the hub cycle in which each offer times out (R180) -/
  offer : List (Nat × Nat) := []
  /-- the add's outcome is still to be reported as EXTENT_ADDED (R180) -/
  report : Bool := false
  /-- regions that have still to start or end step 3 of R183 -/
  recalling : List Nat := []
  /-- step 3 has started in these regions -/
  started : List Nat := []
  /-- the retirement of a READ-SHARED release -/
  ticket : Option Nat := none
  /-- the function whose lease's end released the extent: no recall is sent to it (R188) -/
  endedBy : Option Nat := none
  /-- lines forced out in step 3 -/
  forced : Nat := 0
  /-- lines poisoned in step 3 -/
  poisoned : Nat := 0
  deriving DecidableEq, Repr, Inhabited

/-- Directory entry states (Table 07.6). -/
inductive DirState where
  | invalid | shared | owned
  deriving DecidableEq, Repr, Inhabited

/-- A directory entry (Table 07.6). -/
structure DirEnt where
  /-- STATE -/
  st : DirState := .invalid
  /-- RECALL -/
  recalling : Bool := false
  /-- PITCH -/
  pitch : Nat := 0
  /-- LINE -/
  line : Nat := 0
  /-- OWNER -/
  owner : Nat := 0
  /-- RORDER -/
  rorder : Nat := 0
  /-- SHARERS -/
  sharers : BitVec 128 := 0
  deriving DecidableEq, Repr, Inhabited

/-- A snoop sent and not answered. -/
structure Snoop where
  /-- region that sent it -/
  region : Nat
  /-- line -/
  line : Nat
  /-- function -/
  fn : Nat
  /-- kind -/
  kind : SnpKind
  /-- hub cycle in which it was sent -/
  at_ : Nat
  deriving DecidableEq, Repr, Inhabited

/-- The sweep of a retirement for one function (R200). -/
structure Sweep where
  /-- function -/
  fn : Nat
  /-- lines not yet snooped: first lines of blocks -/
  next : Nat
  /-- blocks outstanding: (line, hub cycle sent) -/
  sent : List (Nat × Nat)
  deriving DecidableEq, Repr, Inhabited

/-- A retirement (R199). -/
structure Ticket where
  /-- ticket number -/
  num : Nat
  /-- first page and number of pages of the range; a fence's retirement lists its extents instead -/
  base : Nat
  /-- pages -/
  pages : Nat
  /-- a fence's retirement: the fenced region (R382) -/
  region : Option Nat := none
  /-- extents covered by a fence's retirement -/
  exts : List Nat := []
  /-- pitch whose lease term bounds the block snoops -/
  pitch : Nat
  /-- functions that owe it -/
  owed : List Nat
  /-- hub cycle of its start -/
  start : Nat
  /-- sweeps under way -/
  sweeps : List Sweep := []
  deriving DecidableEq, Repr, Inhabited

/-- Extents and coherence. -/
structure Ext where
  /-- the extent map by extent number -/
  exts : Tab Extent := []
  /-- directories, key region * 32768 + set * 16 + way -/
  dir : Tab DirEnt := []
  /-- snoops outstanding -/
  snoops : List Snoop := []
  /-- retirements, oldest first -/
  tickets : List Ticket := []
  /-- the last ticket number given -/
  lastTicket : Nat := 0
  deriving DecidableEq, Repr, Inhabited

/-! ## Sessions -/

/-- Session states (Table 04.1). -/
inductive SState where
  | free | active | freezing | parking | parked | resuming | destroying | reattaching
  deriving DecidableEq, Repr, Inhabited

/-- A map entry of a published version (Table 04.4). -/
inductive MapEnt where
  | unwritten
  | const (r pat : Nat)
  | shared (r e : Nat)
  deriving DecidableEq, Repr, Inhabited

/-- A published or retiring version (Table 04.3) and its map. -/
structure Version where
  /-- entry index, which names the map slot -/
  idx : Nat
  /-- VNUM -/
  vnum : Nat
  /-- VSTATE is RETIRING -/
  retiring : Bool := false
  /-- VIEWS -/
  views : Nat := 0
  /-- VPAGES -/
  vpages : Nat
  /-- LAYOUT -/
  layout : Word := 0
  /-- map entries in SPN order -/
  map : List MapEnt := []
  deriving DecidableEq, Repr, Inhabited

/-- A session control record (Table 04.1), with its versions and the operation in progress. -/
structure Session where
  /-- STATE -/
  st : SState := .free
  /-- GEN -/
  gen : Nat := 0
  /-- PITCH -/
  pitch : Nat := 0
  /-- PIN -/
  pin : Bool := false
  /-- DAMAGED -/
  damaged : Bool := false
  /-- MVALID -/
  mvalid : Bool := false
  /-- NAME -/
  name : BitVec 64 := 0
  /-- READERS -/
  readers : BitVec 64 := 0
  /-- NEXTVER -/
  nextver : Nat := 0
  /-- NPAGES -/
  npages : Nat := 0
  /-- WBASE -/
  wbase : Nat := 0
  /-- MBASE -/
  mbase : Nat := 0
  /-- LEASE in seconds -/
  lease : Nat := 0
  /-- IDLE in hub cycles since it was last cleared -/
  idle : Nat := 0
  /-- DMGCOUNT -/
  dmgcount : Nat := 0
  /-- PARENT -/
  parent : Nat := 0
  /-- FORKVER -/
  forkver : Nat := 0
  /-- MLOC -/
  mloc : Nat := 0
  /-- MGEN -/
  mgen : Nat := 0
  /-- LAYOUT -/
  layout : Word := 0
  /-- version entries that are not EMPTY; their number is NPUB -/
  versions : List Version := []
  /-- pieces of the manifest: (window, first sector, sectors) -/
  pieces : List (Nat × Nat × Nat) := []
  /-- the descriptor whose operation holds the session in its state -/
  busy : Option Nat := none
  /-- the FORK from the session that is in progress beside it (Table 04.6) -/
  side : Option Nat := none
  /-- manifest writes not acknowledged, once PARK writes the manifest -/
  sealAcks : Option Nat := none
  /-- contents that PARK has left with their T1 record: ABSENT in the manifest -/
  absent : List CRef := []
  /-- pool entries this parked session anchors (R114) -/
  anchored : List (Nat × Nat) := []
  deriving DecidableEq, Repr, Inhabited

/-- A view (R107). -/
structure View where
  /-- open -/
  live : Bool := false
  /-- generation of the record -/
  gen : Nat := 0
  /-- opening pitch -/
  pitch : Nat := 0
  /-- first page of the range -/
  base : Nat := 0
  /-- pages -/
  pages : Nat := 0
  /-- handle of the session -/
  sess : Nat := 0
  /-- version shown -/
  vnum : Nat := 0
  /-- a VIEW_WRITE event has been logged (R109) -/
  wrote : Bool := false
  deriving DecidableEq, Repr, Inhabited

/-- The claims of a detached session (R185, R126). -/
structure Detached where
  /-- pitch -/
  pitch : Nat
  /-- MLOC -/
  mloc : Nat
  /-- NAME -/
  name : BitVec 64
  /-- frames claimed: (window, slot) -/
  slots : List (Nat × Nat)
  /-- T2 record slots claimed: (region, count) (R126, R185) -/
  recs : List (Nat × Nat)
  /-- manifest pieces -/
  pieces : List (Nat × Nat × Nat)
  /-- hub cycle of the release; none when a fence detached it -/
  since : Option Nat
  /-- the fenced region -/
  region : Option Nat
  deriving DecidableEq, Repr, Inhabited

/-- Sessions, views and detached claims. -/
structure Sess where
  /-- session tables, key region * 16384 + record -/
  sess : Tab Session := []
  /-- view tables, key region * 16384 + record -/
  views : Tab View := []
  /-- detached sessions -/
  detached : List Detached := []
  /-- operations that wait for a session to leave its state: (session key, descriptor), in arrival order (R112) -/
  waitOps : List (Nat × Nat) := []
  deriving DecidableEq, Repr, Inhabited

/-! ## Service queues and requester -/

/-- Queue states (Table 06.3). -/
inductive QState where
  | free | active | error | draining | drained | deleting
  deriving DecidableEq, Repr, Inhabited

/-- A queue pair (R158 to R165). -/
structure Queue where
  /-- STATE -/
  st : QState := .free
  /-- CAUSE -/
  cause : Nat := 0
  /-- submission ring address -/
  sqbase : Nat := 0
  /-- completion ring address -/
  cqbase : Nat := 0
  /-- LOG2DEPTH -/
  log2 : Nat := 4
  /-- QVER major -/
  maj : Nat := 1
  /-- QVER minor -/
  min : Nat := 0
  /-- pitch -/
  pitch : Nat := 0
  /-- SQTAIL -/
  sqtail : Nat := 0
  /-- SQHEAD -/
  sqhead : Nat := 0
  /-- CQHEAD -/
  cqhead : Nat := 0
  /-- CQTAIL -/
  cqtail : Nat := 0
  /-- PHASE of the current pass -/
  phase : Bool := true
  /-- QIRQ -/
  ien : Bool := false
  /-- ICOUNT -/
  icount : Nat := 0
  /-- IDELAY in µs -/
  idelay : Nat := 0
  /-- hub cycles in which the completions not yet released were written, oldest first -/
  written : List Nat := []
  /-- a fetch is outstanding: first slot and slots -/
  fetching : Option (Nat × Nat) := none
  /-- descriptors dispatched over the queue's life, which numbers them in ring order -/
  seq : Nat := 0
  /-- number of this life of the queue, given at its CREATE: the model's own field -/
  inc : Nat := 0
  deriving DecidableEq, Repr, Inhabited

/-- An input a descriptor reads from outside the part (R129, R171). -/
structure InBuf where
  /-- 0 control input, 1 data buffer -/
  ctl : Bool
  /-- address -/
  addr : Nat
  /-- bytes -/
  len : Nat
  /-- words that have come, by word number from the 32-byte boundary at or below `addr` -/
  words : Tab RWord := []
  /-- reads not yet issued: (address, bytes) -/
  todo : List (Nat × Nat) := []
  /-- reads issued and not ended -/
  out : Nat := 0
  /-- a word is missing or poisoned -/
  bad : Bool := false
  deriving DecidableEq, Repr, Inhabited

/-- Stages of a descriptor. -/
inductive DStage where
  /-- its inputs are still being read -/
  | reading
  /-- dispatched and not started -/
  | dispatched
  /-- waiting for a session state -/
  | waiting
  /-- started -/
  | running
  /-- its operation is over and its writes are not all acknowledged -/
  | writing
  deriving DecidableEq, Repr, Inhabited

/-- A page of a COPY as it was read (R148). -/
inductive PageVal where
  | unwritten
  | const (w : Word)
  /-- none where poisoned -/
  | words (l : List (Option Word))
  deriving DecidableEq, Repr

/-- A descriptor fetched and not completed. -/
structure Dtor where
  /-- number -/
  id : Nat
  /-- function -/
  fn : Nat
  /-- queue index -/
  q : Nat
  /-- place in the queue's ring order -/
  seq : Nat
  /-- the 64 bytes -/
  raw : BitVec 512
  /-- hub cycle in which its fetch data reached the hub -/
  at_ : Nat
  /-- hub cycle of its deadline -/
  deadline : Option Nat
  /-- stage -/
  stage : DStage := .dispatched
  /-- inputs -/
  inp : List InBuf := []
  /-- device-initiated writes not acknowledged -/
  acks : Nat := 0
  /-- a data write failed -/
  wrFailed : Bool := false
  /-- output pages outside the part of which a data write failed -/
  failed : List Nat := []
  /-- status and result settled -/
  done : Option (Nat × Nat) := none
  /-- regions that have still to give a result -/
  regions : List Nat := []
  /-- regions whose pages the work is on -/
  homes : List Nat := []
  /-- pages done (FILL, COPY), placed in T0 (RESUME); then placed in T1 and left -/
  n0 : Nat := 0
  /-- second count -/
  n1 : Nat := 0
  /-- third count -/
  n2 : Nat := 0
  /-- contents a RESUME has still to place, and whether a move has been made for them -/
  todo : List (CRef × Bool) := []
  /-- pages a RESUME has still to copy out: list position and SPN; of a FILL or COPY, list position and page number -/
  outs : List (Nat × Nat) := []
  /-- the layout record an ATTEND or SIFT runs under -/
  lay : Word := 0
  /-- source pages of a COPY -/
  src : List PageVal := []
  /-- hub cycle in which Tally work was sent to its regions -/
  sentAt : Nat := 0
  deriving DecidableEq, Repr, Inhabited

/-- What a device-initiated read is for. -/
inductive RdOwner where
  /-- a fetch of queue `q` of function `f` -/
  | fetch (f q : Nat)
  /-- input `i` of descriptor `d`, from word `w` on -/
  | input (d i w : Nat)
  /-- sector `s` of job `j` -/
  | sector (j s : Nat)
  /-- a fetch of a queue that has become FREE: nothing waits for it -/
  | gone
  deriving DecidableEq, Repr, Inhabited

/-- A read tag in use (R249, R250). -/
structure RTag where
  /-- port -/
  port : Nat
  /-- tag -/
  tag : Nat
  /-- service read, or tier read -/
  svc : Bool
  /-- hub cycle of issue -/
  issue : Nat
  /-- hub cycle of the completion deadline -/
  deadline : Nat
  /-- CPLTO at issue, in hub cycles -/
  cplto : Nat
  /-- in quarantine -/
  quar : Bool := false
  /-- words asked for -/
  n : Nat
  /-- words that have come, by number -/
  words : Tab RWord := []
  /-- owner -/
  owner : RdOwner
  deriving DecidableEq, Repr, Inhabited

/-- What a device-initiated write is for (R251). -/
inductive WrOwner where
  /-- the completion of descriptor `d` of incarnation `inc` of queue `q` of function `f` -/
  | cqe (f q inc d : Nat)
  /-- data of descriptor `d` of that queue, in the page numbered `i` of its output -/
  | data (f q inc d i : Nat)
  | frame (r move : Nat)
  /-- of the PARK with this descriptor number -/
  | manifest (d : Nat)
  /-- a descriptor page written back -/
  | descPage
  deriving DecidableEq, Repr, Inhabited

/-- A device-initiated write in flight. -/
structure WTrk where
  /-- port -/
  port : Nat
  /-- number -/
  id : Nat
  /-- hub cycle of the deadline -/
  deadline : Nat
  /-- owner -/
  owner : WrOwner
  deriving DecidableEq, Repr, Inhabited

/-- A device-initiated write made and not yet issued: it waits for an entry of the write table or for Bus Master Enable
(R249, R410). -/
structure WReq where
  /-- port -/
  port : Nat
  /-- the function it is made for; none for far-tier writes -/
  fn : Option Nat
  /-- owner -/
  owner : WrOwner
  /-- destination port ID -/
  dpid : Nat
  /-- far address -/
  addr : Nat
  /-- bytes -/
  len : Nat
  /-- data -/
  words : List Word
  /-- poisoned-data attribute -/
  poison : Bool
  /-- relaxed ordering -/
  ro : Bool
  deriving DecidableEq, Repr, Inhabited

/-- Queues, descriptors, tags and writes. -/
structure Svc where
  /-- queues, key function * 64 + index -/
  queues : Tab Queue := []
  /-- descriptors in flight -/
  dtors : List Dtor := []
  /-- read tags -/
  tags : List RTag := []
  /-- writes in flight -/
  wrs : List WTrk := []
  /-- writes made and not yet issued, oldest first -/
  wrWait : List WReq := []
  /-- pitches drained (R161): from DRAIN written as 1 -/
  drained : List Nat := []
  deriving DecidableEq, Repr, Inhabited

/-! ## Dictionary, events, security -/

/-- A staged edit (R326, R327). -/
structure Edit where
  /-- areas locked -/
  areas : BitVec 16 := 0
  /-- staged values -/
  vals : Tab OVal := []
  /-- hub cycle of the client's last message -/
  at_ : Nat := 0
  deriving DecidableEq, Repr, Inhabited

/-- A dictionary client (R316). -/
structure Client where
  /-- live -/
  live : Bool := false
  /-- address -/
  src : Src := .udp 0 0
  /-- granted version -/
  v : Nat := 0
  /-- the SEQ of the last request and its reply; none while it is in progress -/
  lastSeq : Option Nat := none
  /-- the reply sent -/
  reply : Option DReply := none
  /-- hub cycle of the last message -/
  at_ : Nat := 0
  /-- authenticated (R320), a provisioning client included -/
  auth : Bool := false
  /-- a provisioning client (R352) -/
  prov : Bool := false
  /-- the SPDM responder's progress: 0 none, 1 version, 2 capabilities, 3 algorithms, 4 key exchange, 5 session -/
  spdm : Nat := 0
  /-- subscription: class mask, least severity, pitch mask -/
  sub : Option (BitVec 32 × Nat × BitVec 64) := none
  /-- records queued for it (R335) -/
  evq : List EvRec := []
  /-- records dropped since the last EVENT message -/
  dropped : Nat := 0
  /-- EVENT messages sent -/
  evSeq : Nat := 0
  /-- hub cycle of the last EVENT message -/
  evAt : Option Nat := none
  /-- the staged edit -/
  edit : Option Edit := none
  /-- LOGSEL. (DEDUCED, log entry 85.) -/
  logsel : Nat := 0
  /-- DBGSEL -/
  dbgsel : BitVec 64 := 0
  /-- the copy that READ_BLOCK reads from: key, type code, value -/
  rblock : Option (Nat × Nat × OVal) := none
  /-- the pieces WRITE_BLOCK has assembled: key, type code, total, bytes so far, number -/
  wblock : Option (Nat × Nat × Nat × Nat × Nat) := none
  deriving DecidableEq, Repr, Inhabited

/-- A commit being installed (R330). -/
structure InCommit where
  /-- hubs that have not acknowledged -/
  hubs : List Nat
  /-- regions that have not acknowledged -/
  regions : List Nat
  /-- the set -/
  set : CfgSet
  /-- client -/
  client : Nat
  /-- its SEQ -/
  seq : Nat
  /-- hub cycle of the COMMIT -/
  at_ : Nat
  /-- the set in force before it, and its COMMITTIME (R331) -/
  prev : CfgSet
  /-- COMMITTIME before it -/
  prevTime : Nat
  deriving DecidableEq, Repr, Inhabited

/-- A COMMIT or a command object that waits for the commit in progress (R323, R330). -/
structure Waiting where
  /-- the request's header -/
  h : MHdr
  /-- the request -/
  msg : DMsg
  /-- the flash writes that FWCMD 2 starts read back (R400) -/
  flashOk : Bool
  deriving DecidableEq, Repr, Inhabited

/-- The object dictionary as the steward holds it. -/
structure Dict where
  /-- the configuration of the last completed or running commit -/
  cfg : CfgSet := {}
  /-- commit in progress -/
  inst : Option InCommit := none
  /-- requests that wait for it, in order of arrival -/
  waiting : List Waiting := []
  /-- COMMITTIME -/
  commitTime : Nat := 0
  /-- RESETID -/
  resetId : Nat := 0
  /-- clients by CLIENT value -/
  clients : Tab Client := []
  deriving DecidableEq, Repr, Inhabited

/-- Events (R334, R342). -/
structure Ev where
  /-- ESEQ of the newest record -/
  eseq : Nat := 0
  /-- the chip log, oldest first -/
  log : List EvRec := []
  /-- pitch event queues, oldest first -/
  pq : Tab (List EvRec) := []
  /-- events held in their sources while no steward holds the role (R377) -/
  held : List EvRec := []
  /-- events dropped there -/
  heldDrop : Nat := 0
  deriving DecidableEq, Repr, Inhabited

/-- An SPDM session of a DOE mailbox (R350). -/
structure SpdmSess where
  /-- mailbox -/
  mb : Mbx
  /-- FINISH has been accepted -/
  up : Bool := false
  deriving DecidableEq, Repr, Inhabited

/-- Phases of a firmware roll (R366 to R368). -/
inductive Roll where
  /-- this hub's steward core is reloading -/
  | hub (h : Nat)
  /-- this region is changing microcode -/
  | region (r : Nat)
  /-- the roll is being undone: units still to reload -/
  | revert
  deriving DecidableEq, Repr, Inhabited

/-- Identity, keys, alarms, debug port and firmware update. -/
structure Sec where
  /-- SECSTATE -/
  secstate : Nat := 0
  /-- ALARMSTAT [3:0] -/
  alarmstat : BitVec 4 := 0
  /-- the data path is fenced (R361) -/
  fenced : Bool := false
  /-- the strongest policy applied or running: 0 none or LOG, 1 FENCE, 2 ZEROIZE -/
  applied : Nat := 0
  /-- ZEROIZE is erasing (R362) -/
  zeroizing : Bool := false
  /-- the identity private key (R347), while it is held -/
  idKey : Option Nat := none
  /-- DBGSTATE -/
  dbgOpen : Bool := false
  /-- SVNFLOOR fuses: the number of bits set -/
  svnFloor : Nat := 0
  /-- pitch keys held -/
  keys : Tab (Option (BitVec 256)) := []
  /-- KEYSTATE by pitch -/
  keystate : Tab Nat := []
  /-- SPDM sessions of DOE mailboxes -/
  spdm : List SpdmSess := []
  /-- negotiation progress of DOE mailboxes: mailbox and 1 version, 2 capabilities, 3 algorithms -/
  spdmNeg : List (Mbx × Nat) := []
  /-- FWSTATE -/
  fwstate : Nat := 0
  /-- the image received -/
  fwImage : List Byte := []
  /-- the verified header -/
  fwHdr : Option ImgIn := none
  /-- the header of the image in the active slot when a roll began -/
  fwOld : Option ImgIn := none
  /-- slot the roll installs -/
  fwSlot : Nat := 0
  /-- the roll -/
  roll : Option Roll := none
  /-- hubs and regions already changed -/
  rolledHubs : List Nat := []
  /-- regions already changed -/
  rolledRegs : List Nat := []
  /-- hub cycle in which the present unit of the roll began -/
  rollAt : Nat := 0
  deriving DecidableEq, Repr, Inhabited

/-! ## Arcade, memory controllers, codes, counters, field port -/

/-- A flit on the arcade. -/
structure Flit where
  /-- number -/
  id : Nat
  /-- source stop -/
  src : Nat
  /-- destination stop -/
  dst : Nat
  /-- virtual channel -/
  vc : VC
  /-- segments still to cross, next first -/
  path : List Nat
  /-- the pitch its data belongs to -/
  pitch : Nat
  /-- address of its first data word -/
  addr : Nat
  /-- header word, then data words -/
  words : List CWord
  deriving DecidableEq, Repr, Inhabited

/-- The arcade. -/
structure Arc where
  /-- depth of each destination queue: the credits a stop holds when none is in use (R304) -/
  depth : Nat := 16
  /-- credits in use, key (src * 64 + dst) * 4 + channel -/
  used : Tab Nat := []
  /-- flits on the rings, oldest first -/
  flits : List Flit := []
  /-- flits delivered to their destination stops, oldest first -/
  arrived : List Flit := []
  /-- hub cycle of the last injection onto a segment (R18) -/
  slotAt : Tab Nat := []
  deriving DecidableEq, Repr, Inhabited

/-- Channel states (Table 11.3). -/
inductive ChState where
  | training | serving | retraining | suspended | failed | fenced
  deriving DecidableEq, Repr, Inhabited

/-- A queued sector access (R267). -/
structure Access where
  /-- sector address -/
  sector : Nat
  /-- write -/
  write : Bool
  /-- words written with the access, if it is a write: (word, value) -/
  words : List (Nat × CWord) := []
  /-- the job a read serves and the frame's sector number -/
  job : Option (Nat × Nat) := none
  /-- the move a write serves -/
  move : Option Nat := none
  /-- pitch that an activate above the threshold marks; none for descriptor pages, map entries and the shared pool (R272) -/
  pitch : Option Nat := none
  /-- it serves a line of a descriptor page or of the shared pool (R33) -/
  desc : Bool := false
  deriving DecidableEq, Repr, Inhabited

/-- A GDDR7 channel (chapter 11). -/
structure Chan where
  /-- state -/
  st : ChState := .training
  /-- training attempts that have failed at start-up -/
  tries : Nat := 0
  /-- OWED -/
  owed : Nat := 0
  /-- hub cycle of the next interval tick -/
  nextTick : Nat := 0
  /-- hub cycle until which a refresh or a start occupies the channel -/
  busyUntil : Nat := 0
  /-- hub cycle at which each bank is ready -/
  bankReady : Tab Nat := []
  /-- hub cycle of the last access start -/
  lastStart : Option Nat := none
  /-- queued accesses, oldest first -/
  queue : List Access := []
  /-- interval ticks counted in this refresh window -/
  winTicks : Nat := 0
  /-- a retraining waits for the owed refreshes (R275) -/
  wantRetrain : Bool := false
  /-- bells since the channel last trained (R275) -/
  sinceTrain : Nat := 0
  /-- the die's reading when it last trained -/
  trainTemp : Int := 0
  /-- bells until its temperature retraining starts -/
  tempRetrain : Option Nat := none
  /-- retries that have failed while SUSPENDED -/
  retries : Nat := 0
  /-- hub cycle in which the training, retraining or retry began -/
  since : Nat := 0
  /-- FAILED, and what it held is not settled yet (R277) -/
  lossDue : Bool := false
  deriving DecidableEq, Repr, Inhabited

/-- A GDDR7 die. -/
structure Die where
  /-- last reading in °C -/
  temp : Int := 0
  /-- doubled refresh rate -/
  doubled : Bool := false
  /-- hub cycle of the last reading -/
  at_ : Option Nat := none
  /-- throttled pitches and the channel whose window ends the throttle (R215) -/
  throttled : List (Nat × Nat) := []
  /-- activates in the current microsecond: (pitch, count), and the microsecond -/
  acts : List (Nat × Nat) := []
  /-- the microsecond counted -/
  actsUs : Nat := 0
  deriving DecidableEq, Repr, Inhabited

/-- Memory controllers. -/
structure Dram where
  /-- channels, key region * 8 + index -/
  chans : Tab Chan := []
  /-- dies, key region * 2 + die -/
  dies : Tab Die := []
  /-- row activation counters, key ((region * 8 + index) * 16 + bank) * 8192 + row -/
  rows : Tab Nat := []
  /-- G7EVT by region -/
  g7evt : Tab Nat := []
  /-- CHLOSS by region: frames lost, pages reloaded, kept from T0, made BAD, descriptor pages lost -/
  chloss : Tab (List Nat) := []
  deriving DecidableEq, Repr, Inhabited

/-- The settings of a bucket in its present leak period (Table 12.6).
(DEDUCED, log entry 31.) -/
structure LbSet where
  /-- LBTHRESH -/
  thr : Nat := 64
  /-- LBLEAKBELLS in bells, or LBLEAKUS in µs -/
  period : Nat := 0
  /-- bell or hub cycle of the last leak -/
  last : Nat := 0
  deriving DecidableEq, Repr, Inhabited

/-- Leaky buckets, code counts and error injection (chapter 12). -/
structure Code where
  /-- region buckets, key region * 1024 + the order of LBREGION -/
  lbRegion : Tab Nat := []
  /-- arcade buckets by segment -/
  lbSeg : Tab Nat := []
  /-- hub buffer buckets -/
  lbHub : Tab Nat := []
  /-- port FEC buckets -/
  lbPort : Tab Nat := []
  /-- threshold and period in force in each region, and the bell of its last leak (R294) -/
  lbRegSet : Tab LbSet := []
  /-- threshold and period in force at each outer bucket, and the hub cycle of its last leak, by kind * 64 + number -/
  lbOutSet : Tab LbSet := []
  /-- LBOVF -/
  lbovf : Nat := 0
  /-- UECOUNT -/
  uecount : Nat := 0
  /-- PAGEBAD -/
  pagebad : Nat := 0
  /-- INJARM -/
  injArm : Bool := false
  /-- INJKIND -/
  injKind : Nat := 0
  /-- INJTARGET -/
  injTarget : BitVec 32 := 0
  /-- INJPOS -/
  injPos : BitVec 32 := 0
  /-- INJPITCH -/
  injPitch : Nat := 0
  /-- INJCOUNT -/
  injCount : Nat := 1
  /-- INJFIRED -/
  injFired : Nat := 0
  deriving DecidableEq, Repr, Inhabited

/-- The field port (R312 to R314). -/
structure Fp where
  /-- NODEID -/
  nodeid : Nat := 0
  /-- FPSTAT [0]: beacons seen or sent -/
  beacons : Bool := false
  /-- FPERR -/
  fperr : Nat := 0
  /-- duplicate address detection has ended with the address free -/
  addrOk : Bool := false
  /-- it found the address in use: no datagram is accepted until RESET_n -/
  addrDup : Bool := false
  /-- transmit opportunities left in the PLCA cycle -/
  slots : Nat := 0
  deriving DecidableEq, Repr, Inhabited

/-- What one hub cycle has set and counted so far, which a software clear or write in the same cycle does not undo (R310, R311). -/
structure Now where
  /-- the hub cycle -/
  at_ : Nat := 0
  /-- status bits set: the object or register (`okey` of an object, 2^24 + f for INTSTAT of function f) and a mask -/
  bits : List (Nat × Nat) := []
  /-- counts added, by counter -/
  counts : Tab Nat := []
  deriving DecidableEq, Repr, Inhabited

/-- The whole machine but its queue of commands. -/
structure Mach where
  /-- the configuration: which member of the family this part is (Table 00.1) -/
  fam : Fam := .f16
  /-- hub cycles (0.5 ns) that have passed; the model's one time axis -/
  cycle : Nat := 0
  /-- free values drawn so far: the MODEL's own field, not the spec's -/
  fresh : Nat := 0
  /-- numbers given to requests, jobs, moves, flits and descriptors: the model's own field -/
  nextId : Nat := 0
  /-- what the part has sent, oldest first: the model's own record of its pins and links -/
  out : List Out := []
  /-- chip-wide unit -/
  sys : Sys := {}
  /-- hubs, ports, functions -/
  link : Link := {}
  /-- pages and regions -/
  mem : Mem := {}
  /-- T0 and T1 stores -/
  store : Store := {}
  /-- extents and coherence -/
  ext : Ext := {}
  /-- sessions and views -/
  sess : Sess := {}
  /-- queues and requester -/
  svc : Svc := {}
  /-- dictionary -/
  dict : Dict := {}
  /-- events -/
  ev : Ev := {}
  /-- security -/
  sec : Sec := {}
  /-- arcade -/
  arc : Arc := {}
  /-- memory controllers -/
  dram : Dram := {}
  /-- codes -/
  code : Code := {}
  /-- counters of Table 15.11 by index * 256 + subindex -/
  cnt : Tab Nat := []
  /-- field port -/
  fp : Fp := {}
  /-- the present hub cycle's settings and counts (R310, R311): the model's own field -/
  now : Now := {}
  deriving DecidableEq, Repr, Inhabited

/-- The state: the commands that are waiting, first in, first out, and the machine. -/
structure State where
  /-- the waiting commands, front first. (DEDUCED, log entry 79.) -/
  pending : List Instr
  /-- the machine -/
  m : Mach
  deriving DecidableEq, Repr

/-- Why a step stops with a fault. -/
inductive Fault where
  /-- a command names a unit (region, hub, port, function, channel, pitch) the configuration does not have: no such
  unit exists to act or to be acted on (Table 00.1, R176). Raised by every meaning that names a unit. Safe: the machine
  stops where no hardware behaviour exists. (DESIGN CHOICE, log entry 27.) -/
  | noSuchUnit
  deriving DecidableEq, Repr

/-- Why a step is refused. -/
inductive Refusal where
  /-- no meaning has been written for the command; raised by the dispatcher only. Safe. -/
  | notModelled (mnemonic : String)
  deriving DecidableEq, Repr

/-- The machine right after reset: RESET_n is low, every register at its reset value (R370, R337), the queue empty.
(DESIGN CHOICE, log entry 25.) (DESIGN CHOICE, log entry 26.) -/
def State.reset : State := { pending := [], m := {} }

end Sys2Proof.Machine
end

