-- ==== Sys2Proof/Machine/Units.lean ====
section
/-! DEFINITION. The units a configuration has, as checks on the numbers a command names (Table 00.1, R3, R176). -/

namespace Sys2Proof.Machine

/-- Region `r` exists. -/
def regionOk (fam : Fam) (r : Nat) : Bool := r < regions fam
/-- Hub `h` exists. -/
def hubOk (fam : Fam) (h : Nat) : Bool := h < hubs fam
/-- Port `k` exists. -/
def portOk (fam : Fam) (k : Nat) : Bool := k < hubs fam
/-- Function `f` exists (R176). -/
def fnOk (fam : Fam) (f : Nat) : Bool := f < functions fam
/-- Pitch `p` is a tenant's (Table 00.2). -/
def pitchOk (p : Nat) : Bool := 1 ≤ p && p < 64
/-- Queue `q` is one of a function's 64 (R158). -/
def queueOk (q : Nat) : Bool := q < 64
/-- Extent `e` is within the configuration's limit (Table 01.3). -/
def extentOk (fam : Fam) (e : Nat) : Bool := e < extentLimit fam

/-- An outer leaky bucket exists (R294). -/
def bucketOk (fam : Fam) : OuterBucket → Bool
  | .segment i => i < (segments fam).length
  | .hubBuffer h => hubOk fam h
  | .portFec k => portOk fam k

/-- A clock domain exists (Table 13.1). -/
def domainOk (fam : Fam) : Domain → Bool
  | .tally r => regionOk fam r
  | .lanes r => regionOk fam r
  | .region r => regionOk fam r
  | .memory r die => regionOk fam r && die < 2
  | .flash h => hubOk fam h

/-- A die exists (Table 01.1). -/
def dieOk (fam : Fam) : DieId → Bool
  | .region r => regionOk fam r
  | .hub h => hubOk fam h
  | .engine k => portOk fam k
  | .gddr r die => regionOk fam r && die < 2

/-- A DOE mailbox exists (R235). -/
def mbxOk (fam : Fam) : Mbx → Bool
  | .fn f => fnOk fam f
  | .fm k => portOk fam k

/-- The unit of a register write exists; objects answer for themselves (R337). -/
def targetOk (fam : Fam) : RegTarget → Bool
  | .bar0 f _ => fnOk fam f
  | .config f _ => fnOk fam f
  | .object _ _ _ => true

end Sys2Proof.Machine
end

