-- ==== Sys2Proof/WellFormed.lean ====
section
/-! DEFINITION. Well-formed commands: every unit a command names is one the configuration has (Table 00.1, R3, R176). -/

namespace Sys2Proof

open Machine

/-- Whether every unit a command names exists in the configuration.
(DESIGN CHOICE, log entry 27.) -/
def Instr.wf (fam : Fam) : Instr → Bool
  | .resetNAssert _ | .resetNRelease _ | .memoryActive | .arcadeFlitHop _ _ | .refForward _ | .reattachend _ _ _ | .create _
  | .destroy _ | .setattr _ | .publish _ | .publishConvert _ | .drop _ | .openv _ | .close _ | .fork _ | .park _ | .manifestSeal _
  | .resume _ | .expire _ | .reattach _ _ _ | .sessionOpResume _ | .nop _ | .fence _ | .attend _ | .merge _ | .sift _ | .reduce _
  | .compare _ | .fill _ | .copy _ | .deadlineExpire _ | .extadd _ _ _ | .extgrant _ _ _ | .extrel _ _ _ | .leaserenew _ _ _ _
  | .derateApply | .powerCapWindow _ | .release _ _ _ | .injarm _ _ | .hello _ _ _ _ | .read _ _ _ | .write _ _
  | .readBlock _ _ _ _ _ _ | .writeBlock _ _ _ _ _ _ _ _ | .stage _ _ | .commit _ _ | .commitAcknowledged | .abort _
  | .subscribe _ _ _ _ | .spdm _ _ | .secured _ _ | .bye _ | .malformedDatagram _ _ _ _ _ | .eventSend _ | .neighbourSolicitation _ _
  | .icmpv6Echo _ _ _ _ | .duplicateAddressDetection _ | .clientTimeout _ | .editTimeout _ | .eqread _ _ | .counterWrite _ _ _ _
  | .deficitClear _ _ | .optevtClear _ _ _ | .g7evtClear _ _ _ | .alarmstatClear _ _ | .restart _ _ _ | .drain _ _ _
  | .drainRelease _ _ _ | .clear _ _ _ | .wrapkey _ _ _ | .fwimage _ _ _ _ _ | .fwVerify _ | .fwActivate _ _ | .fwDiscard _
  | .rollTimeout | .dbgopen _ _ | .securityAlarm _ | .zeroized | .fuseRecheck _ | .d2dTagCheck _ | .stewardRenewal | .vddAonLoss
  | .plcaBeacon => true
  | .channelTrainingDone r c _ | .sectorAccess r c | .refreshTick r c | .refreshIssue r c | .refreshWindowEnd r c | .retrainDone r c _
  | .channelRetryDone r c _ | .channelFailSettle r c => regionOk fam r && decide (c < 8)
  | .startupContainmentExit k | .fetchComplete k _ _ | .lossOfLight k _ _ | .lightRestored k _ _ | .linkTraining k _ | .retrainTimer k
  | .flitReceive k _ _ | .linkRecoveryEntry k | .recoveryExit k _ _ _ | .hotReset k | .getLdInfo k | .fmIdentify k
  | .getLdAllocations k | .setLdAllocations k | .dictionaryMessage k _ _ _ | .dictionaryEvents k _ _ | .ltrSend k
  | .readCompletion k _ _ _ _ | .completionTimeout k _ | .tagQuarantineEnd k _ | .writeCompletion k _ _ | .writeTimeout k _
  | .linkLeavesL0 k _ => portOk fam k
  | .arcadeFlitInject src dst _ _ _ words => hasStop fam src && hasStop fam dst && decide (words ≠ [])
  | .arcadeCreditReturn src dst _ _ => hasStop fam src && hasStop fam dst
  | .cellGrant r cell _ => regionOk fam r && decide (cell < 560)
  | .blockGrant r b _ => regionOk fam r && decide (b < 12)
  | .hubIngressAdmit t => hubOk fam t.hub
  | .memrd f _ _ _ | .memrddata f _ _ | .meminv f _ _ _ | .memclnevct f _ _ | .memwr f _ _ _ _ _ | .memwrptl f _ _ _ _ _ _
  | .memspecrd f _ | .biconflict f _ _ | .birspi f _ _ | .birsps f _ _ | .birspe f _ _ | .birspiblk f _
  | .unsupportedMemMessage f _ _ _ | .queueCreate f | .queueDelete f | .addDynamicCapacityResponse f _ | .releaseDynamicCapacity f _
  | .renew f _ | .leaseExpire f | .leaseExpired f | .leaseLow f | .retireack f _ | .retirementSweepStart _ f | .blockSnoopTimeout _ f
  | .identify f | .getSupportedLogs f | .getLog f _ | .getEventRecords f _ | .clearEventRecords f _ _ | .getEventInterruptPolicy f
  | .setEventInterruptPolicy f _ | .getDcConfiguration f | .getDcExtentList f | .unsupportedMailboxCommand f _ | .busMasterEnable f _
  | .interruptDisable f _ | .initiateFlr f | .flrReady f | .intxUpdate f | .intstatClear f _ | .leaseDeferredExpire f => fnOk fam f
  | .recallTimeout r _ f => regionOk fam r && fnOk fam f
  | .t0PageGrant r | .descriptorMissFill r _ | .unfoldDone r _ | .foldDone r _ | .bell r | .moveStart r | .moveComplete r _
  | .accessReport r _ | .priorityLevelUpdate r | .requestAgeEscalate r _ | .tallyDispatch r | .tallyRegionResult r _
  | .digestRecheck r _ | .regionRestartDone r _ | .microcodeRollDone r | .regionWatchdog r => regionOk fam r
  | .slotLoanRequest r p | .reattachPeriodEnd r p => regionOk fam r && pitchOk p
  | .detachHoldExpire p _ => pitchOk p
  | .sqtail f q _ | .cqhead f q _ | .irqDelayExpire f q => fnOk fam f && queueOk q
  | .descriptorFetch h p => hubOk fam h && pitchOk p
  | .offerTimeout e f => extentOk fam e && fnOk fam f
  | .releaseRecallStart r e => regionOk fam r && extentOk fam e
  | .releaseClear e => extentOk fam e
  | .laserLossDeclare k i _ _ | .laserRestored k i _ => portOk fam k && decide (i < 2)
  | .ideIntegrityFail k stream => portOk fam k && decide (stream < 2)
  | .doeDiscovery mb _ | .cdatTableAccess mb | .cmaSpdm mb _ => mbxOk fam mb
  | .keyProg k set _ | .kSetGo k _ set | .kSetStop k _ set | .cxlIdeKeyProg k set _ => portOk fam k && decide (set < 2)
  | .hdmDecoderCommit f i _ _ _ _ => fnOk fam f && decide (i < 2)
  | .registerWrite t _ => targetOk fam t
  | .temperatureReading r die _ => regionOk fam r && decide (die < 2)
  | .leakyBucketLeak b => bucketOk fam b
  | .wakeRequest d => domainOk fam d
  | .configInstall hub u => if hub then hubOk fam u else regionOk fam u
  | .hubReloadReady hub => hubOk fam hub
  | .stewardClaim h src => hubOk fam h && hubOk fam src
  | .stewardElectionWin h | .stewardLeaseExpire h | .watchdogExpire h | .watchdogService h => hubOk fam h
  | .referenceSweepDone r fenced => regionOk fam r && regionOk fam fenced
  | .thermalReading temps => temps.all fun x => dieOk fam x.1

end Sys2Proof
end

