-- ==== Sys2Proof/Machine/Ops.lean ====
section
/-! DEFINITION. The shared operations: how a command acts on the state, the accessors of every table, free draws, what the
part sends, event logging (R334, R342, R343), counters (R344), settings in force, leaky buckets (R294). -/

namespace Sys2Proof.Machine

/-! ## How a command acts -/

/-- A command on the machine: it has its effect where the units it names exist, and it stops where one does not. The queue
of waiting commands is never touched.
(DESIGN CHOICE, log entry 27.) -/
def State.app (s : State) (ok : Bool) (f : Mach → Mach) : Host.Outcome State Fault Refusal :=
  if ok then .next { s with m := f s.m } else .fault .noSuchUnit

/-- The part is out of RESET_n (R370). -/
def Mach.awake (m : Mach) : Bool := m.sys.phase ≠ .held

/-- An effect that only a part out of reset has: with RESET_n low nothing runs. -/
def Mach.run (f : Mach → Mach) (m : Mach) : Mach := if m.awake then f m else m

/-- The data path runs: memory-active has been reached, and neither chip fatal nor a FENCE of the security monitor stops it
(R25, R361, R370). -/
def Mach.up (m : Mach) : Bool := m.sys.phase = .active && !m.sys.fatal && !m.sec.fenced

/-- An effect of the data path. -/
def Mach.dataRun (f : Mach → Mach) (m : Mach) : Mach := if m.up then f m else m

/-- The part is out of reset and not chip fatal: its units other than the data path run. -/
def Mach.alive (m : Mach) : Bool := m.awake && !m.sys.fatal

/-- An effect of such a unit. -/
def Mach.aliveRun (f : Mach → Mach) (m : Mach) : Mach := if m.alive then f m else m

/-- An effect where a condition holds. -/
def Mach.when (m : Mach) (b : Bool) (f : Mach → Mach) : Mach := if b then f m else m

/-! ## Components -/

/-- `m` with its chip-wide unit changed. -/
def Mach.onSys (m : Mach) (f : Sys → Sys) : Mach := { m with sys := f m.sys }
/-- link -/
def Mach.onLink (m : Mach) (f : Link → Link) : Mach := { m with link := f m.link }
/-- pages and regions -/
def Mach.onMem (m : Mach) (f : Mem → Mem) : Mach := { m with mem := f m.mem }
/-- stores -/
def Mach.onStore (m : Mach) (f : Store → Store) : Mach := { m with store := f m.store }
/-- extents -/
def Mach.onExt (m : Mach) (f : Ext → Ext) : Mach := { m with ext := f m.ext }
/-- sessions -/
def Mach.onSess (m : Mach) (f : Sess → Sess) : Mach := { m with sess := f m.sess }
/-- queues -/
def Mach.onSvc (m : Mach) (f : Svc → Svc) : Mach := { m with svc := f m.svc }
/-- dictionary -/
def Mach.onDict (m : Mach) (f : Dict → Dict) : Mach := { m with dict := f m.dict }
/-- events -/
def Mach.onEv (m : Mach) (f : Ev → Ev) : Mach := { m with ev := f m.ev }
/-- security -/
def Mach.onSec (m : Mach) (f : Sec → Sec) : Mach := { m with sec := f m.sec }
/-- arcade -/
def Mach.onArc (m : Mach) (f : Arc → Arc) : Mach := { m with arc := f m.arc }
/-- memory controllers -/
def Mach.onDram (m : Mach) (f : Dram → Dram) : Mach := { m with dram := f m.dram }
/-- codes -/
def Mach.onCode (m : Mach) (f : Code → Code) : Mach := { m with code := f m.code }
/-- field port -/
def Mach.onFp (m : Mach) (f : Fp → Fp) : Mach := { m with fp := f m.fp }

/-! ## Table entries -/

/-- Region `r`. -/
def Mach.region (m : Mach) (r : Nat) : Region := tget m.mem.regions {} r
/-- Region `r` changed. -/
def Mach.onRegion (m : Mach) (r : Nat) (f : Region → Region) : Mach :=
  m.onMem fun x => { x with regions := tput x.regions {} r (f (m.region r)) }
/-- Hub `h`. -/
def Mach.hub (m : Mach) (h : Nat) : Hub := tget m.link.hubs {} h
/-- Hub `h` changed. -/
def Mach.onHub (m : Mach) (h : Nat) (f : Hub → Hub) : Mach :=
  m.onLink fun x => { x with hubs := tput x.hubs {} h (f (m.hub h)) }
/-- Port `k`. -/
def Mach.port (m : Mach) (k : Nat) : Port := tget m.link.ports {} k
/-- Port `k` changed. -/
def Mach.onPort (m : Mach) (k : Nat) (f : Port → Port) : Mach :=
  m.onLink fun x => { x with ports := tput x.ports {} k (f (m.port k)) }
/-- Function `f`. -/
def Mach.fn (m : Mach) (f : Nat) : Func := tget m.link.fns {} f
/-- Function `f` changed. -/
def Mach.onFn (m : Mach) (f : Nat) (g : Func → Func) : Mach :=
  m.onLink fun x => { x with fns := tput x.fns {} f (g (m.fn f)) }
/-- Extent `e`'s map entry. -/
def Mach.extent (m : Mach) (e : Nat) : Extent := tget m.ext.exts {} e
/-- Extent `e`'s map entry changed. -/
def Mach.onExtent (m : Mach) (e : Nat) (f : Extent → Extent) : Mach :=
  m.onExt fun x => { x with exts := tput x.exts {} e (f (m.extent e)) }
/-- The session record under a key region * 16384 + record. -/
def Mach.session (m : Mach) (k : Nat) : Session := tget m.sess.sess {} k
/-- That record changed. -/
def Mach.onSession (m : Mach) (k : Nat) (f : Session → Session) : Mach :=
  m.onSess fun x => { x with sess := tput x.sess {} k (f (m.session k)) }
/-- The view record under a key region * 16384 + record. -/
def Mach.view (m : Mach) (k : Nat) : View := tget m.sess.views {} k
/-- That record changed. -/
def Mach.onView (m : Mach) (k : Nat) (f : View → View) : Mach :=
  m.onSess fun x => { x with views := tput x.views {} k (f (m.view k)) }
/-- Queue `q` of function `f`. -/
def Mach.queue (m : Mach) (f q : Nat) : Queue := tget m.svc.queues {} (f * 64 + q)
/-- That queue changed. -/
def Mach.onQueue (m : Mach) (f q : Nat) (g : Queue → Queue) : Mach :=
  m.onSvc fun x => { x with queues := tput x.queues {} (f * 64 + q) (g (m.queue f q)) }
/-- Channel `c` of region `r`. -/
def Mach.chan (m : Mach) (r c : Nat) : Chan := tget m.dram.chans {} (r * 8 + c)
/-- That channel changed. -/
def Mach.onChan (m : Mach) (r c : Nat) (f : Chan → Chan) : Mach :=
  m.onDram fun x => { x with chans := tput x.chans {} (r * 8 + c) (f (m.chan r c)) }
/-- Die `d` of region `r`. -/
def Mach.die (m : Mach) (r d : Nat) : Die := tget m.dram.dies {} (r * 2 + d)
/-- That die changed. -/
def Mach.onDie (m : Mach) (r d : Nat) (f : Die → Die) : Mach :=
  m.onDram fun x => { x with dies := tput x.dies {} (r * 2 + d) (f (m.die r d)) }
/-- Client `c` of the dictionary. -/
def Mach.client (m : Mach) (c : Nat) : Client := tget m.dict.clients {} c
/-- That client changed. -/
def Mach.onClient (m : Mach) (c : Nat) (f : Client → Client) : Mach :=
  m.onDict fun x => { x with clients := tput x.clients {} c (f (m.client c)) }
/-- The page descriptor of page `pn` of the device's address space. -/
def Mach.desc (m : Mach) (pn : Nat) : Desc := tget m.mem.descs .unwritten pn
/-- That descriptor written. -/
def Mach.setDesc (m : Mach) (pn : Nat) (d : Desc) : Mach :=
  m.onMem fun x => { x with descs := tput x.descs .unwritten pn d }
/-- Entry `e` of region `r`'s shared pool, if in use. -/
def Mach.poolEnt (m : Mach) (r e : Nat) : Option PoolEnt := tfind m.mem.pool (r * poolPerRegion + e)

/-! ## Free draws, numbers and outputs -/

/-- The next free value (log entry 3).
(DESIGN CHOICE, log entry 3.) -/
def Mach.drawn (m : Mach) : Nat := Config.free m.fresh
/-- `m` after a draw.
(DESIGN CHOICE, log entry 3.) -/
def Mach.redraw (m : Mach) : Mach := { m with fresh := m.fresh + 1 }
/-- `m` after a new number has been given: the number is the old `nextId`. -/
def Mach.renumber (m : Mach) : Mach := { m with nextId := m.nextId + 1 }
/-- The part sends a message or drives a signal.
(DESIGN CHOICE, log entry 29.) -/
def Mach.send (m : Mach) (o : Out) : Mach := { m with out := m.out ++ [o] }
/-- The part sends messages in order. -/
def Mach.sendAll (m : Mach) (l : List Out) : Mach := { m with out := m.out ++ l }

/-- Folds an effect over a list of units. -/
def Mach.each (m : Mach) (l : List α) (f : Mach → α → Mach) : Mach := l.foldl f m

/-! ## Time -/

/-- The steward's microsecond count (R299, UPTIME). -/
def Mach.usec (m : Mach) : Nat := (m.cycle - m.sys.resetAt) / 2000

/-! ## Events -/

/-- Severity of an event code (Table 15.10): 0 INFO, 1 NOTICE, 2 WARNING, 3 ERROR, 4 FATAL. -/
def evSev (code : Nat) : Nat :=
  if code ∈ [0x0101, 0x0102, 0x0306, 0x030A, 0x0701, 0x0806] then 0
  else if code ∈ [0x0001, 0x0002, 0x0104, 0x0305, 0x0307, 0x0408, 0x0409, 0x0502, 0x0803, 0x0804] then 1
  else if code ∈ [0x0003, 0x0004, 0x0105, 0x0303, 0x0308, 0x0401, 0x0406, 0x0407, 0x040A, 0x040B, 0x0501, 0x0503, 0x0601,
    0x0603, 0x0702] then 2
  else if code ∈ [0x0602, 0x0805] then 4
  else 3

/-- The DATA field: fields packed from bit 0 upward at the widths given (R343). -/
def packData : List (Nat × Nat) → Nat
  | [] => 0
  | (w, v) :: t => v % 2 ^ w + 2 ^ w * packData t

/-- A bounded log, oldest first: a record more, the oldest dropped beyond `n`. -/
def pushBounded (n : Nat) (l : List EvRec) (e : EvRec) : List EvRec := (l ++ [e]).drop (l.length + 1 - n)

/-- What the present hub cycle has set and counted so far. -/
def Mach.nowOf (m : Mach) : Now := if m.now.at_ = m.cycle then m.now else { at_ := m.cycle }

/-- Status bits of `mask` of an object or register are set in this hub cycle (R310). -/
def Mach.latch (m : Mach) (key mask : Nat) : Mach := { m with now := { m.nowOf with bits := m.nowOf.bits ++ [(key, mask)] } }

/-- The bits of an object or register set in this hub cycle: a write of one does not clear them (R310).
(DESIGN CHOICE, log entry 24.) -/
def Mach.latched (m : Mach) (key : Nat) : BitVec 64 :=
  m.nowOf.bits.foldl (fun a b => if b.1 = key then a ||| BitVec.ofNat 64 b.2 else a) 0

/-- A write of ones to status bits, without those set in the same hub cycle (R310).
(DESIGN CHOICE, log entry 24.) -/
def Mach.clearing (m : Mach) (key : Nat) (v : BitVec 64) : BitVec 64 := v &&& ~~~(m.latched key)

/-- The key of INTSTAT of function `f`. -/
def intKey (f : Nat) : Nat := 2 ^ 24 + f

/-- A counter of Table 15.11 after `n` more; it saturates at the largest U64 (R344). -/
def Mach.count (m : Mach) (i s n : Nat) : Mach :=
  { m with cnt := tput m.cnt 0 (okey i s) (satAdd (2 ^ 64 - 1) (tget m.cnt 0 (okey i s)) n)
           now := { m.nowOf with counts := tput m.nowOf.counts 0 (okey i s) (tget m.nowOf.counts 0 (okey i s) + n) } }

/-- A counter written: what the part has counted in the same hub cycle is added to the written value (R311). -/
def Mach.setCount (m : Mach) (i s n : Nat) : Mach :=
  { m with cnt := tput m.cnt 0 (okey i s) (satAdd (2 ^ 64 - 1) n (tget m.nowOf.counts 0 (okey i s))) }

/-- Whether a subscription selects an event (R334). -/
def subMatches (sub : Option (BitVec 32 × Nat × BitVec 64)) (e : EvRec) : Bool :=
  match sub with
  | none => false
  | some (mask, least, pitches) => mask.getLsbD e.cls && decide (least ≤ e.sev) && pitches.getLsbD e.pitch

/-- A client with a record queued for it, if it subscribes to it: 256 records, the oldest dropped and counted (R335). -/
def Client.offer (c : Client) (e : EvRec) : Client :=
  if subMatches c.sub e then
    { c with evq := pushBounded 256 c.evq e, dropped := if 256 ≤ c.evq.length then c.dropped + 1 else c.dropped }
  else c

/-- How many subscriber queues are full when a record reaches them. -/
def fullQueues (cs : Tab Client) (e : EvRec) : Nat :=
  (cs.filter fun c => subMatches c.2.sub e && decide (256 ≤ c.2.evq.length)).length

/-- A record enters the chip log, its pitch's queue and the subscribers' queues (R334, R335, R342). -/
def Mach.record (m : Mach) (e : EvRec) : Mach :=
  let e := { e with eseq := m.ev.eseq + 1 }
  let q := tget m.ev.pq [] e.pitch
  let m := m.count 0x8000 1 (fullQueues m.dict.clients e)
  let m := m.when (e.pitch ≠ 0 && decide (256 ≤ q.length)) fun m => m.count (0x8400 + e.pitch) 7 1
  let m := m.onEv fun v =>
    { v with eseq := e.eseq, log := pushBounded 4096 v.log e
             pq := if e.pitch = 0 then v.pq else tput v.pq [] e.pitch (pushBounded 256 q e) }
  m.onDict fun d => { d with clients := d.clients.map fun c => (c.1, c.2.offer e) }

/-- The hub or region that offers an event to the steward: ports and functions are their hub's (R377).
(DESIGN CHOICE, log entry 48.) -/
def EvRec.unit (e : EvRec) : Nat :=
  match e.srcKind with
  | 1 => 256 + e.srcNum
  | 4 => e.srcNum / 16
  | _ => e.srcNum

/-- An event is logged; while no steward holds the role its source holds it, up to 256 in each hub and region, and counts the others
(R377).
(DESIGN CHOICE, log entry 48.) -/
def Mach.logSev (m : Mach) (code sev pitch kind num data : Nat) : Mach :=
  let e : EvRec := ⟨0, m.usec, code, sev, code / 256, pitch, kind, num, data % 2 ^ 128⟩
  if m.sys.steward.isSome then m.record e
  else if (m.ev.held.filter fun x => x.unit = e.unit).length < 256 then m.onEv fun v => { v with held := v.held ++ [e] }
  else m.onEv fun v => { v with heldDrop := v.heldDrop + 1 }

/-- The events held in their sources reach the steward: each takes the time of its arrival (R299), and those dropped are added to EVDROP
(R377). -/
def Mach.drainHeld (m : Mach) : Mach :=
  let l := m.ev.held
  let n := m.ev.heldDrop
  let m := m.onEv fun v => { v with held := [], heldDrop := 0 }
  (l.foldl (fun m e => m.record { e with time := m.usec }) m).count 0x8000 1 n

/-- An event of Table 15.10 with its severity there. -/
def Mach.log (m : Mach) (code pitch kind num : Nat) (data : List (Nat × Nat)) : Mach :=
  m.logSev code (evSev code) pitch kind num (packData data)

/-! ## Settings -/

/-- An object's number in the configuration of the last completed commit. -/
def Mach.cfgN (m : Mach) (i s : Nat) : Nat := Machine.cfgN m.fam m.dict.cfg.vals i s
/-- In the set hub `h` has installed. -/
def Mach.hubN (m : Mach) (h i s : Nat) : Nat := Machine.cfgN m.fam (m.hub h).cfg.vals i s
/-- In the set region `r` has installed. -/
def Mach.regN (m : Mach) (r i s : Nat) : Nat := Machine.cfgN m.fam (m.region r).cfg.vals i s
/-- In the set in effect in region `r` since its last bell (R60). -/
def Mach.effN (m : Mach) (r i s : Nat) : Nat := Machine.cfgN m.fam (m.region r).eff.vals i s

/-- The pitch bound to function `f` (R176), as its hub has it; 0 when unbound. -/
def Mach.pitchOf (m : Mach) (f : Nat) : Nat := m.hubN (f / 16) (0x5000 + f / 16) (0x40 + f % 16)

/-- The functions bound to pitch `p`. -/
def Mach.boundFns (m : Mach) (p : Nat) : List Nat := (List.range (functions m.fam)).filter fun f => m.pitchOf f = p

/-- The bell length in µs under a set of values (R338, Table 02.5). -/
def bellUs (f : Fam) (vals : Tab OVal) : Nat :=
  let b := cfgN f vals 0x2000 3
  if b ≠ 0 then b
  else if cfgN f vals 0x2000 1 = 0 then 16 else 32

/-- The regions in service (R330): serving, and so neither in bring-up, fenced nor restarting. -/
def Mach.serving (m : Mach) : List Nat := (List.range (regions m.fam)).filter fun r => (m.region r).st = .serving

/-- The hubs that have not failed. -/
def Mach.liveHubs (m : Mach) : List Nat := (List.range (hubs m.fam)).filter fun h => !(m.hub h).failed

/-! ## Leaky buckets (R294) -/

/-- The RAS bit of INTSTAT is set in every function. -/
def Mach.setRas (m : Mach) : Mach := m.each (List.range (functions m.fam)) fun m f => (m.onFn f fun x => { x with ras := true }).latch (intKey f) 0x80

/-- A bucket overflow at location `loc`: event, LBOVF, RAS. -/
def Mach.overflow (m : Mach) (kind num loc : Nat) : Mach :=
  ((m.log 0x0303 0 kind num [(32, loc)]).onCode fun c => { c with lbovf := satAdd (2 ^ 32 - 1) c.lbovf 1 }).setRas

/-- A bucket after `n` additions under threshold `thr`: its value and the overflows.
(DEDUCED, log entry 31.) -/
def fillBucket (thr : Nat) : Nat → Nat → Nat × Nat
  | 0, b => (b, 0)
  | n + 1, b =>
    if thr ≤ b + 1 then let (b', o) := fillBucket thr n (thr / 2); (b', o + 1)
    else fillBucket thr n (b + 1)

/-- Repeats an effect. -/
def Mach.times (m : Mach) (f : Mach → Mach) : Nat → Mach
  | 0 => m
  | n + 1 => Mach.times (f m) f n

/-- A correction in bucket `i` (LBREGION order) of region `r`. -/
def Mach.fillRegion (m : Mach) (r i n : Nat) : Mach :=
  let set := tget m.code.lbRegSet {} r
  let k := r * 1024 + i
  let (b, o) := fillBucket set.thr n (tget m.code.lbRegion 0 k)
  (m.onCode fun c => { c with lbRegion := tput c.lbRegion 0 k b }).times (fun m => m.overflow 1 r i) o

/-- Corrections in an outer bucket: kind 0 arcade segment, 1 hub buffers, 2 port FEC (R20, R228, R294). -/
def Mach.fillOuter (m : Mach) (kind i n : Nat) : Mach :=
  let set := tget m.code.lbOutSet {} (kind * 64 + i)
  let t := match kind with | 0 => m.code.lbSeg | 1 => m.code.lbHub | _ => m.code.lbPort
  let (b, o) := fillBucket set.thr n (tget t 0 i)
  let t := tput t 0 i b
  let m := m.onCode fun c =>
    match kind with | 0 => { c with lbSeg := t } | 1 => { c with lbHub := t } | _ => { c with lbPort := t }
  m.times (fun m => m.overflow (match kind with | 0 => 0 | 1 => 2 | _ => 3) (if kind = 0 then 0 else i) i) o

/-- The stores are in their canonical form: keys strictly rising, and no word listed that an unlisted address reads as, the poison marker
(R284). -/
def Memory.wf (s : Store) : Bool := twf CWord.poison s.t0 && twf CWord.poison s.t1

/-- A word flagged as uncorrectable is counted (UECOUNT). -/
def Mach.countUe (m : Mach) (n : Nat) : Mach := m.onCode fun c => { c with uecount := satAdd (2 ^ 32 - 1) c.uecount n }

end Sys2Proof.Machine
end

