-- ==== Sys2Proof/Machine/Credits.lean ====
section
/-! DEFINITION. Block credits (R206): the count every store, DRAM, Tally and codec block keeps for each pitch, its refill, the
choice among the requests a block holds (R209) and what a grant costs (Table 08.2). -/

namespace Sys2Proof.Machine

/-- Weight of a pitch in region `r`; the house pitch's is 64. -/
def Mach.regWeight (m : Mach) (r p : Nat) : Nat := if p = 0 then 64 else m.regN r (0x3000 + p) 0x0C

/-- The credit count of pitch `p` at block `b` of region `r`: kept as the amount below its cap of 32 × W. -/
def Mach.credit (m : Mach) (r b p : Nat) : Int := 32 * (m.regWeight r p : Int) - tget (m.region r).spent 0 (b * 64 + p)

/-- A credit count set. -/
def Mach.setCredit (m : Mach) (r b p : Nat) (x : Int) : Mach :=
  m.onRegion r fun g => { g with spent := tput g.spent 0 (b * 64 + p) (32 * (m.regWeight r p : Int) - x) }

/-- Every count of block `b` gains 16 × W, up to its cap. -/
def Mach.refillBlock (m : Mach) (r b : Nat) : Mach :=
  m.each (List.range 64) fun m p =>
    let w : Int := m.regWeight r p
    let c := m.credit r b p
    m.setCredit r b p (if 32 * w ≤ c then c else min (32 * w) (c + 16 * w))

/-- The refill before a grant: none of the requesting pitches holds a positive count. -/
def Mach.refillFor (m : Mach) (r b : Nat) (ps : List Nat) : Mach :=
  m.when (!ps.isEmpty && ps.all fun p => decide (m.credit r b p ≤ 0)) fun m => m.refillBlock r b

/-- The request a block grants among those `prio` gives pitch and region priority level of: highest level, then highest credit count,
then the lower pitch number, then the oldest. -/
def Mach.pickBy {α : Type} (m : Mach) (r b : Nat) (prio : α → Nat × Nat) (reqs : List α) : Option α :=
  reqs.foldl (fun best x =>
    match best with
    | none => some x
    | some y =>
      let (px, lx) := prio x
      let (py, ly) := prio y
      let cx := m.credit r b px
      let cy := m.credit r b py
      if decide (ly < lx) || (ly = lx && (decide (cy < cx) || (cy = cx && decide (px < py)))) then some x else best) none

/-- A grant costs pitch `p` its units, whatever its count. -/
def Mach.charge (m : Mach) (r b p units : Nat) : Mach := m.setCredit r b p (m.credit r b p - units)

/-- Work of one pitch alone at a block: a refill if its count is not positive, then the cost. -/
def Mach.chargeAlone (m : Mach) (r b p units : Nat) : Mach := (m.refillFor r b [p]).charge r b p units

end Sys2Proof.Machine
end

