-- ==== Sys2Proof/Machine/Pages.lean ====
section
/-! DEFINITION. Pages and their space (spec/02_pages_and_tiers.md): placement (R28 to R32), content descriptors, settings of
tiering (R64, R340), shares and accounting (R41 to R48), T0 pages (R49), T1 sectors (R263), T2 slots (R405). -/

namespace Sys2Proof.Machine

/-! ## Placement -/

/-- The exclusive OR of the `n` lowest 4-bit groups of `x` (R29). -/
def nibXor : Nat → Nat → Nat
  | 0, _ => 0
  | n + 1, x => (x % 16) ^^^ nibXor n (x / 16)

/-- The home region of page number `pn` under STRIPED placement (R29). -/
def stripe (f : Fam) (pn : Nat) : Nat := nibXor 9 pn % regions f

/-- The extent number of a page number (R28). -/
def extOf (pn : Nat) : Nat := pn / extentPages

/-- The home region of a page (R29, R30). -/
def Mach.homeOf (m : Mach) (pn : Nat) : Nat :=
  let x := m.extent (extOf pn)
  if x.confined then x.home else stripe m.fam pn

/-- The slot of a page in its extent's run (R32). -/
def Mach.slotOf (m : Mach) (pn : Nat) : Nat :=
  if (m.extent (extOf pn)).confined then pn % extentPages else pn % extentPages / regions m.fam

/-- The page-map cache line that holds a page's descriptor: four consecutive slots of its run (R33). -/
def Mach.pmLine (m : Mach) (pn : Nat) : Nat := (extOf pn * extentPages + m.slotOf pn) / 4

/-! ## Content descriptors -/

/-- Where a page's content descriptor lies: its slot, or the pool entry its REF names (R36). -/
def Mach.crefOf (m : Mach) (pn : Nat) : CRef :=
  match m.desc pn with
  | .ref r e => .pool r e
  | _ => .slot pn

/-- The page a content stands for, in an event's DATA: the DPA, or the pool entry with bit 63 set (Table 15.10). -/
def crefData : CRef → Nat
  | .slot pn => pn * 4096
  | .pool r e => 2 ^ 63 + r * 2 ^ 20 + e
  | .desc _ pg => pg * 2 ^ 20

/-- The region that holds a content descriptor. -/
def Mach.crefRegion (m : Mach) : CRef → Nat
  | .slot pn => m.homeOf pn
  | .pool r _ => r
  | .desc r _ => r

/-- A content descriptor in PRIVATE form, if there is one. -/
def Mach.priv (m : Mach) : CRef → Option Priv
  | .slot pn => match m.desc pn with | .priv p => some p | _ => none
  | .pool r e => (m.poolEnt r e).map (·.c)
  | .desc _ _ => none

/-- A content descriptor written. -/
def Mach.setPriv (m : Mach) (c : CRef) (p : Priv) : Mach :=
  match c with
  | .slot pn => m.setDesc pn (.priv p)
  | .pool r e =>
    match m.poolEnt r e with
    | some x => m.onMem fun y => { y with pool := tins y.pool (r * poolPerRegion + e) { x with c := p } }
    | none => m
  | .desc _ _ => m

/-- A content descriptor changed. -/
def Mach.onPriv (m : Mach) (c : CRef) (f : Priv → Priv) : Mach :=
  match m.priv c with
  | some p => m.setPriv c (f p)
  | none => m

/-- The pitch that owns a content descriptor (R55).
(DEDUCED, log entry 35.) -/
def Mach.ownerOf (m : Mach) : CRef → Nat
  | .slot pn => (m.extent (extOf pn)).pitch
  | .pool r e => match m.poolEnt r e with | some x => x.pitch | none => 0
  | .desc _ pg => (m.extent (pg / 256)).pitch

/-- The codec attributes that hold for a content descriptor (R88, R101). -/
def Mach.attrOf (m : Mach) : CRef → Attr
  | .slot pn => (m.extent (extOf pn)).attr
  | .pool r e => match m.poolEnt r e with | some x => x.attr | none => {}
  | .desc _ _ => {}

/-- A pool entry's number of anchors (R114). -/
def Mach.anchorsOf (m : Mach) : CRef → Nat
  | .pool r e => match m.poolEnt r e with | some x => x.anchors | none => 0
  | .slot _ => 0
  | .desc _ _ => 0

/-- The content descriptors region `r` holds, in the order of its descriptor runs, then of its pool. -/
def Mach.contents (m : Mach) (r : Nat) : List (CRef × Priv) :=
  (m.mem.descs.filterMap fun d =>
    match d.2 with
    | .priv p => if m.homeOf d.1 = r then some (.slot d.1, p) else none
    | _ => none)
  ++ (m.mem.pool.filterMap fun d =>
    if d.1 / poolPerRegion = r then some (.pool r (d.1 % poolPerRegion), d.2.c) else none)

/-- Every content descriptor of the part. -/
def Mach.allContents (m : Mach) : List (CRef × Priv) :=
  (List.range (regions m.fam)).flatMap m.contents

/-! ## Descriptors as they are stored (Table 02.1, R34, R36) -/

/-- A record's number: fields from the highest bit down, each as (width, value). -/
def packHi (l : List (Nat × Nat)) : Nat := l.foldl (fun a f => a * 2 ^ f.1 + f.2 % 2 ^ f.1) 0

/-- A bit as a number. -/
def bit (b : Bool) : Nat := if b then 1 else 0

/-- Tier of record as REC. -/
def Rec.code : Rec → Nat
  | .none => 0 | .t1 => 1 | .t2 => 2

/-- A PRIVATE-form descriptor (Table 02.1). -/
def Priv.pack (p : Priv) (lock : Bool) : Nat :=
  packHi [(2, 1), (6, p.cpitch), (8, p.footfall), (12, p.shares), (16, p.pver), (4, p.t2len), (3, p.t2codec), (6, p.t2win), (18, p.t2slot),
    (4, p.t1len), (3, p.t1codec), (24, p.t1addr), (15, p.t0slot), (1, bit p.t0), (1, bit p.dirty), (1, bit p.t1dirty), (1, bit p.bad),
    (1, bit (lock || p.lock)), (2, p.rec_.code)]

/-- A page descriptor (R34, R36). -/
def Desc.pack (d : Desc) (lock : Bool) : Nat :=
  match d with
  | .unwritten => 0
  | .priv p => p.pack lock
  | .const cp ff pat => packHi [(2, 2), (6, cp), (8, ff), (78, 0), (12, pat), (22, 0)]
  | .ref r e => packHi [(2, 3), (102, 0), (4, r), (20, e)]

/-! ## Settings (Table 02.5, R340) -/

/-- The profile in effect in region `r`. -/
def Mach.profile (m : Mach) (r : Nat) : Nat := m.effN r 0x2000 1

/-- The profile's default of a setting of Table 15.6: 1 U, 2 L, 3 D, 4 read-install mode (Table 02.5). -/
def tierDefault (profile s : Nat) : Nat :=
  match s, profile with
  | 1, 0 => 4 | 1, 1 => 16 | 1, _ => 32
  | 2, 0 => 1 | 2, 1 => 4 | 2, _ => 8
  | 3, 2 => 16 | 3, _ => 8
  | 4, 0 => 1 | 4, 1 => 2 | 4, _ => 3
  | _, _ => 0

/-- A pitch's effective value of a setting under a set of values: its own, the chip's, the profile's (R340). -/
def tierVal (f : Fam) (vals : Tab OVal) (p s : Nat) : Nat :=
  let own := cfgN f vals (0x4000 + p) s
  let chip := cfgN f vals 0x4000 s
  if own ≠ 0 then own else if chip ≠ 0 then chip else tierDefault (cfgN f vals 0x2000 1) s

/-- The value in effect in region `r` (R60). -/
def Mach.tier (m : Mach) (r p s : Nat) : Nat := tierVal m.fam (m.region r).eff.vals p s

/-! ## Shares (R42, R43, R212) -/

/-- Extents of pitch `p` mapped: ADDING, ACTIVE or RELEASING. -/
def Mach.extentsOf (m : Mach) (p : Nat) : List (Nat × Extent) :=
  m.ext.exts.filter fun e => e.2.st ≠ .free && e.2.pitch = p

/-- Pages of extent `x` homed in region `r`. -/
def extentPagesIn (f : Fam) (x : Extent) (r : Nat) : Nat :=
  if x.confined then (if x.home = r then extentPages else 0) else extentPages / regions f

/-- Pages of pitch `p` homed in region `r`. -/
def Mach.pagesHomed (m : Mach) (p r : Nat) : Nat := ((m.extentsOf p).map fun e => extentPagesIn m.fam e.2 r).foldl (· + ·) 0

/-- The descriptor reservation of pitch `p` in region `r`, in pages: 16 bytes per page (R43). -/
def Mach.reservation (m : Mach) (p r : Nat) : Nat := m.pagesHomed p r / 256

/-- A MiB quantity's share of one region in whole pages (R42). -/
def sharePages (f : Fam) (mib : Nat) : Nat := mib * 256 / regions f

/-- A share scaled by σ, in whole pages (R212).
(DEDUCED, log entry 72.) -/
def scalePages (x : Nat) (s : Nat × Nat) : Nat := x * s.1 / s.2

/-- The T0 floor share in effect. -/
def Mach.t0Floor (m : Mach) (r p : Nat) : Nat := scalePages (sharePages m.fam (m.effN r (0x3000 + p) 3)) (m.region r).sT0
/-- The T0 ceiling share. -/
def Mach.t0Ceil (m : Mach) (r p : Nat) : Nat := sharePages m.fam (m.effN r (0x3000 + p) 4)
/-- The T1 ceiling share. -/
def Mach.t1Ceil (m : Mach) (r p : Nat) : Nat := sharePages m.fam (m.effN r (0x3000 + p) 6)
/-- T1 record slots of the pitch: its scaled floor share less a reservation charged to it (R42, R43). -/
def Mach.t1Share (m : Mach) (r p : Nat) : Nat :=
  scalePages (sharePages m.fam (m.effN r (0x3000 + p) 5)) (m.region r).sT1
    - (if m.effN r (0x3000 + p) 7 = 0 then m.reservation p r else 0)
/-- T2 record slots of the pitch. -/
def Mach.t2Share (m : Mach) (r p : Nat) : Nat :=
  let fl := m.effN r (0x3000 + p) 7
  sharePages m.fam fl - (if fl = 0 then 0 else m.reservation p r)

/-! ## Occupancy (R41, R42) -/

/-- The descriptors of region `r` with a property. -/
def Mach.tally (m : Mach) (r : Nat) (f : CRef → Priv → Bool) : Nat := ((m.contents r).filter fun c => f c.1 c.2).length

/-- T2 record slots of region `r` that manifests of pitch `p`'s detached sessions name: they stay claimed (R126, R185). -/
def Mach.claimedRecs (m : Mach) (r p : Nat) : Nat :=
  (m.sess.detached.flatMap fun d => if d.pitch = p then d.recs.filterMap fun x => if x.1 = r then some x.2 else none else []).foldl (· + ·) 0

/-- Record slots of tier `t` that pitch `p` holds in region `r`, lost descriptors (Table 11.4) and detached claims included. -/
def Mach.recPages (m : Mach) (r p : Nat) (t : Rec) : Nat :=
  m.tally r (fun c d => d.rec_ = t && !d.lost && m.ownerOf c = p)
    + (((m.region r).lostCharge.filter fun x => x.2.1 = p && x.2.2.1 = t).map fun x => x.2.2.2).foldl (· + ·) 0
    + (if t = .t2 then m.claimedRecs r p else 0)

/-- T0 copies charged to pitch `p` in region `r`. -/
def Mach.t0Pages (m : Mach) (r p : Nat) : Nat := m.tally r fun _ d => d.t0 && d.cpitch = p

/-- Whether a descriptor's T1 frame is a cache copy. -/
def Priv.t1Cache (d : Priv) : Bool := d.t1len ≠ 0 && d.rec_ ≠ .t1

/-- Sectors of T1 that pitch `p` occupies: 8 for a record page, a cache copy's frame (R42). -/
def Mach.t1Sect (m : Mach) (r p : Nat) : Nat :=
  8 * m.recPages r p .t1
    + (((m.contents r).filter fun c => c.2.t1Cache && c.2.cpitch = p).map fun c => c.2.t1len).foldl (· + ·) 0

/-! ## T0 pages (R16, R49) -/

/-- Store block of T0 page `t`: the table block holds none (log entry 13).
(DEDUCED, log entry 13.) -/
def t0Block (tb t : Nat) : Nat := let b := t / blockPages; if b < tb then b else b + 1

/-- T0 page `t` of region `r` lies in a block in service.
(DEDUCED, log entry 13.) -/
def Mach.t0Usable (m : Mach) (r t : Nat) : Bool :=
  let g := m.region r
  t < 28672 && !(g.quar.getLsbD (t0Block g.tableBlock t))

/-- T0 pages in service (T0PAGES): 16 MiB for each passing store block but the table block (R16). -/
def Mach.t0Cap (m : Mach) (r : Nat) : Nat :=
  let g := m.region r
  blockPages * ((List.range 8).filter fun b => b ≠ g.tableBlock && !(g.quar.getLsbD b)).length

/-- T0 pages of region `r` in use. -/
def Mach.t0InUse (m : Mach) (r : Nat) : Nat := (m.mem.t0own.filter fun x => x.1 / 32768 = r).length

/-- Free T0 pages. -/
def Mach.t0Free (m : Mach) (r : Nat) : Nat := m.t0Cap r - m.t0InUse r

/-- The house reserve: one eighth of the region's T0 (R49). -/
def Mach.houseReserve (m : Mach) (r : Nat) : Nat := m.t0Cap r / 8

/-- What is left of the house reserve for the house's own use. -/
def Mach.houseLeft (m : Mach) (r : Nat) : Nat := m.houseReserve r - m.t0Pages r 0

/-- FREET0: free T0 pages, house reserve excluded (Table 15.11). -/
def Mach.freeT0 (m : Mach) (r : Nat) : Nat := m.t0Free r - m.houseLeft r

/-- A free T0 page, chosen by the part (log entry 3). -/
def Mach.pickT0 (m : Mach) (r : Nat) : Option Nat :=
  pickFree (fun t => (tfind m.mem.t0own (r * 32768 + t)).isSome || !m.t0Usable r t) 28672
    (m.t0InUse r + (28672 - m.t0Cap r)) m.drawn

/-- T0 page `t` belongs to content `c` from now on. -/
def Mach.ownT0 (m : Mach) (r t : Nat) (c : CRef) : Mach :=
  m.onMem fun x => { x with t0own := tins x.t0own (r * 32768 + t) (some c) }

/-- T0 page `t` is free. -/
def Mach.freeT0Page (m : Mach) (r t : Nat) : Mach := m.onMem fun x => { x with t0own := tdel x.t0own (r * 32768 + t) }

/-- Word `w` of T0 page `t` of region `r`.
(DEDUCED, log entry 28.) -/
def Mach.t0Word (m : Mach) (r t w : Nat) : CWord := tget m.store.t0 .poison ((r * 32768 + t) * 128 + w)

/-- Words written to a T0 page from word `w` on. -/
def Mach.putT0 (m : Mach) (r t : Nat) : Nat → List CWord → Mach
  | _, [] => m
  | w, x :: xs =>
    Mach.putT0 (m.onStore fun s => { s with t0 := tput s.t0 .poison ((r * 32768 + t) * 128 + w) x }) r t (w + 1) xs

/-- The 128 words of a T0 page. -/
def Mach.t0Words (m : Mach) (r t : Nat) : List CWord := (List.range 128).map (m.t0Word r t)

/-! ## Dropping copies -/

/-- A descriptor without its T0 copy. -/
def Priv.noT0 (d : Priv) : Priv := { d with t0 := false, t0slot := 0, dirty := false }

/-- The region drops a content's T0 copy. -/
def Mach.dropT0 (m : Mach) (c : CRef) : Mach :=
  match m.priv c with
  | some d => if d.t0 then (m.freeT0Page (m.crefRegion c) d.t0slot).setPriv c d.noT0 else m
  | none => m

/-! ## T1 sectors (R262, R263) -/

/-- Die of a sector address (Table 11.1). -/
def secDie (n : Nat) : Nat := n / dieSectors
/-- Channel index of a sector address within its region: die × 4 + channel. -/
def secChan (n : Nat) : Nat := secDie n * 4 + n % dieSectors % 4
/-- k of Table 11.1 -/
def secK (n : Nat) : Nat := n % dieSectors / 4
/-- Bank -/
def secBank (n : Nat) : Nat := secK n % 16
/-- Row -/
def secRow (n : Nat) : Nat := secK n / 256
/-- Slot in row -/
def secSlot (n : Nat) : Nat := secK n / 16 % 16

/-- A sector's channel still counts in the layout of frames: it is not FAILED, or its loss is not settled yet (R263, R277). -/
def Mach.secLive (m : Mach) (r n : Nat) : Bool :=
  (m.chan r (secChan n)).st ≠ .failed || (m.chan r (secChan n)).lossDue

/-- The next `s` live addresses from `a` on within its die, looking at `fuel` addresses (R263). -/
def Mach.liveRun (m : Mach) (r : Nat) : Nat → Nat → Nat → List Nat
  | _, _, 0 => []
  | 0, _, _ => []
  | fuel + 1, a, s + 1 => if m.secLive r a then a :: Mach.liveRun m r fuel (a + 1) s else Mach.liveRun m r fuel (a + 1) (s + 1)

/-- The sectors of a frame of `s` sectors whose first address is `a` (R263). -/
def Mach.frameSectors (m : Mach) (r a s : Nat) : List Nat := m.liveRun r (4 * s + 4) a s

/-- A frame of `s` sectors fits from `a`: on one die, starting on a live channel, its sectors free, no channel of the die SUSPENDED
or with a loss to settle (R263, R276, R277). -/
def Mach.frameFits (m : Mach) (r a s : Nat) : Bool :=
  let l := m.frameSectors r a s
  m.secLive r a && l.length = s &&
    l.all fun n => n < t1Sectors && secDie n = secDie a && (tfind m.mem.t1own (r * 2 ^ 24 + n)).isNone &&
      (List.range 4).all fun c =>
        (m.chan r (secDie a * 4 + c)).st ≠ .suspended && !(m.chan r (secDie a * 4 + c)).lossDue

/-- Sectors of region `r` in use by frames; descriptor pages have areas of their own (Table 02.3). -/
def Mach.t1InUse (m : Mach) (r : Nat) : Nat := (m.mem.t1own.filter fun x => x.1 / 2 ^ 24 = r && x.2 ≠ 3).length
/-- Sectors of region `r` that hold anything. -/
def Mach.t1Held (m : Mach) (r : Nat) : Nat := (m.mem.t1own.filter fun x => x.1 / 2 ^ 24 = r).length

/-- A place for a frame of `s` sectors among `fuel` addresses from `a` on. -/
def Mach.scanT1 (m : Mach) (r s : Nat) : Nat → Nat → Option Nat
  | 0, _ => none
  | fuel + 1, a =>
    let a := a % t1Sectors
    if m.frameFits r a s then some a else Mach.scanT1 m r s fuel (a + 1)

/-- Channels of region `r` in service: not FAILED (R278). -/
def Mach.liveChans (m : Mach) (r : Nat) : Nat := ((List.range 8).filter fun c => (m.chan r c).st ≠ .failed).length

/-- Sectors of the record pool: 6,912 MiB, an eighth less for each failed channel (Table 02.3, R278). -/
def Mach.poolSectors (m : Mach) (r : Nat) : Nat := t1RecordSlots * 9 * m.liveChans r / 8
/-- Sectors of the refold reserve. -/
def Mach.reserveOf (m : Mach) (r : Nat) : Nat := reserveSectors * m.liveChans r / 8
/-- Sectors of T1-homed descriptor runs in region `r`. -/
def Mach.runSectors (m : Mach) (r : Nat) : Nat :=
  ((List.range 64).map fun p => if p ≠ 0 && m.effN r (0x3000 + p) 7 = 0 then 8 * m.reservation p r else 0).foldl (· + ·) 0
/-- Sectors that cache copies hold, those with T1DIRTY alone if `dirty`. -/
def Mach.cacheSectors (m : Mach) (r : Nat) (dirty : Bool) : Nat :=
  (((m.contents r).filter fun c => c.2.t1Cache && (!dirty || c.2.t1dirty)).map fun c => c.2.t1len).foldl (· + ·) 0
/-- Sectors that record frames and frames being written hold. -/
def Mach.frameSectorsHeld (m : Mach) (r : Nat) : Nat := m.t1InUse r - m.cacheSectors r false

/-- Free sectors: those of the record pool that no frame and no run holds (R47). -/
def Mach.freeSectors (m : Mach) (r : Nat) : Nat := m.poolSectors r - m.runSectors r - m.t1InUse r

/-- The sectors of `l` taken for a use: 1 a frame, 3 a descriptor page. -/
def Mach.takeFor (m : Mach) (use r : Nat) (l : List Nat) : Mach :=
  m.each l fun m n => m.onMem fun x => { x with t1own := tins x.t1own (r * 2 ^ 24 + n) use }
/-- The sectors of `l` taken for a frame. -/
def Mach.takeSectors (m : Mach) (r : Nat) (l : List Nat) : Mach := m.takeFor 1 r l
/-- The sectors of `l` freed. -/
def Mach.dropSectors (m : Mach) (r : Nat) (l : List Nat) : Mach :=
  m.each l fun m n => m.onMem fun x => { x with t1own := tdel x.t1own (r * 2 ^ 24 + n) }

/-- A descriptor without its T1 frame. -/
def Priv.noT1 (d : Priv) : Priv := { d with t1len := 0, t1codec := 0, t1addr := 0, t1dirty := false, t1bad := false }

/-- A content's T1 frame is freed. -/
def Mach.dropT1 (m : Mach) (c : CRef) : Mach :=
  match m.priv c with
  | some d =>
    if d.t1len = 0 then m
    else (m.dropSectors (m.crefRegion c) (m.frameSectors (m.crefRegion c) d.t1addr d.t1len)).setPriv c d.noT1
  | none => m

/-- The clean cache copy a record frame's sectors are taken from first: lowest footfall, then lowest address (R47). -/
def Mach.cleanVictim (m : Mach) (r : Nat) : Option CRef :=
  ((m.contents r).foldl (fun (b : Option (CRef × Nat × Nat)) c =>
    if c.2.t1Cache && !c.2.t1dirty && !c.2.lock && c.2.t2len ≠ 0 then
      match b with
      | none => some (c.1, c.2.footfall, c.2.t1addr)
      | some (_, f, a) => if c.2.footfall < f || (c.2.footfall = f && c.2.t1addr < a) then some (c.1, c.2.footfall, c.2.t1addr) else b
    else b) none).map (·.1)

/-- Drops clean cache copies until `s` sectors are free, `fuel` copies at most (R47). -/
def Mach.reclaim (m : Mach) (r s : Nat) : Nat → Mach
  | 0 => m
  | n + 1 =>
    if s ≤ m.freeSectors r then m
    else match m.cleanVictim r with
      | some c => Mach.reclaim (m.dropT1 c) r s n
      | none => m

/-- Takes sectors for a frame of `s` sectors: free sectors, and for a record frame then those of clean cache copies and the
refold reserve (R47). The address is the part's own choice (R409). -/
def Mach.takeT1 (m : Mach) (r s : Nat) (record : Bool) : Option (Mach × Nat) :=
  let m' := if record then m.reclaim r s s else m
  let free := m'.freeSectors r
  let short := s - free
  if free < s && (!record || m'.reserveOf r < (m'.region r).borrowed + short) then none
  else
    match m'.scanT1 r s (18 * (m'.t1Held r + 1) + 16) m'.drawn with
    | none => none
    | some a =>
      let m' := (m'.redraw.takeSectors r (m'.frameSectors r a s)).when (record && decide (free < s)) fun m =>
        m.onRegion r fun g => { g with borrowed := g.borrowed + short }
      some (m', a)

/-! ## Descriptor pages in T1 (R33, R409) -/

/-- A descriptor page of region `r` gets its place in T1: 8 consecutive live-channel sectors of one die, the part's own choice.
(DESIGN CHOICE, log entry 19.) -/
def Mach.placePage (m : Mach) (r pg : Nat) : Mach :=
  if (tfind (m.region r).dplace pg).isSome then m
  else
    match m.scanT1 r 8 (18 * (m.t1Held r + 1) + 16) m.drawn with
    | some a =>
      (m.redraw.takeFor 3 r (m.frameSectors r a 8)).onRegion r fun g => { g with dplace := tins g.dplace pg a }
    | none => m

/-- A descriptor page leaves T1: its sectors are free. -/
def Mach.unplacePage (m : Mach) (r pg : Nat) : Mach :=
  match tfind (m.region r).dplace pg with
  | some a => (m.dropSectors r (m.frameSectors r a 8)).onRegion r fun g => { g with dplace := tdel g.dplace pg }
  | none => m

/-- The die of a descriptor page held in T1. -/
def Mach.pageDie (m : Mach) (r pg : Nat) : Option Nat := (tfind (m.region r).dplace pg).map secDie

/-- Word `w` of sector `n` of region `r`'s GDDR7. -/
def Mach.t1Word (m : Mach) (r n w : Nat) : CWord := tget m.store.t1 .poison ((r * 2 ^ 24 + n) * 16 + w)

/-! ## T2 slots (R48, R405) -/

/-- Bits [hi:lo] of a number. -/
def bits (x hi lo : Nat) : Nat := x / 2 ^ lo % 2 ^ (hi + 1 - lo)

/-- A far window (Table 10.10). -/
structure FarWin where
  /-- FBASE -/
  fbase : Nat
  /-- DPID -/
  dpid : Nat
  /-- PORTS -/
  ports : Nat
  /-- VALID -/
  valid : Bool
  deriving DecidableEq, Repr

/-- The far window a value holds. -/
def farWin (x : Nat) : FarWin := ⟨bits x 127 94, bits x 93 82, bits x 81 74, x % 2 = 1⟩

/-- Far window `w` of pitch `p` under a set of values. -/
def winOf (f : Fam) (vals : Tab OVal) (p w : Nat) : FarWin := farWin (cfgN f vals (0x4100 + p) (w + 1))

/-- The valid far windows of pitch `p` under a set of values, in index order. -/
def winsOf (f : Fam) (vals : Tab OVal) (p : Nat) : List Nat := (List.range 64).filter fun w => (winOf f vals p w).valid

/-- The slots of pitch `p`'s windows in use: frames, frames being written, claims (R405, R185). -/
def Mach.usedSlots (m : Mach) (p : Nat) : List (Nat × Nat) :=
  (m.allContents.filterMap fun c => if c.2.t2len ≠ 0 && m.ownerOf c.1 = p then some (c.2.t2win, c.2.t2slot) else none)
  ++ ((List.range (regions m.fam)).flatMap fun r => (m.region r).moves.filterMap fun v =>
      if v.dst = 2 && m.ownerOf v.cref = p && (v.phase = .writing || v.phase = .ready) then some (v.win, v.slot) else none)
  ++ (m.sess.detached.flatMap fun d => if d.pitch = p then d.slots else [])

/-- The least slot below the window's end that region `r` owns and `used` does not hold. -/
def lowestSlot (n r : Nat) (used : List Nat) : Nat → Nat → Option Nat
  | 0, _ => none
  | fuel + 1, i =>
    let t := i * n + r
    if winSlots ≤ t then none else if used.contains t then lowestSlot n r used fuel (i + 1) else some t

/-- The lowest free slot region `r` owns in the pitch's lowest-numbered window that has one (R405). -/
def Mach.ownSlot (m : Mach) (r p : Nat) : Option (Nat × Nat) :=
  let used := m.usedSlots p ++ (m.region r).loans.filterMap fun l => if l.1 = p then some (l.2.1, l.2.2.1) else none
  (winsOf m.fam (m.region r).cfg.vals p).findSome? fun w =>
    (lowestSlot (regions m.fam) r ((used.filter fun x => x.1 = w).map (·.2)) (used.length + 1) 0).map fun t => (w, t)

/-- The pitch's reattach period runs in region `r` (R123). -/
def Mach.inReattach (m : Mach) (r p : Nat) : Bool := (tget (m.region r).reattach none p).isSome

/-- Some region withholds its share of pitch `p`'s T2 slots for a reattach period: the claims of R123 that R256 and R355 name.
(DEDUCED, log entry 107.) -/
def Mach.slotsClaimed (m : Mach) (p : Nat) : Bool := (List.range (regions m.fam)).any fun r => m.inReattach r p

/-- The pitch holds a key (R355, R358). -/
def Mach.hasKey (m : Mach) (p : Nat) : Bool := (tget m.sec.keys none p).isSome

/-- Free T1 record slots of the pitch's share (R44, R214). -/
def Mach.t1RecFree (m : Mach) (r p : Nat) : Nat := m.t1Share r p - m.recPages r p .t1
/-- T2 record slots that moves of T1 records on their way to T2 have taken (R45). -/
def Mach.recMoving (m : Mach) (r p : Nat) : Nat :=
  ((m.region r).moves.filter fun v =>
    m.ownerOf v.cref = p &&
      (match v.kind with
      | .toT2 => decide (v.phase ≠ .planned)
      | .park _ => v.dst = 2 && (match m.priv v.cref with | some d => decide (d.rec_ = .t1) | none => false)
      | _ => false)).length
/-- Free T2 record slots: none in the reattach period or without a key (R123, R358). -/
def Mach.t2RecFree (m : Mach) (r p : Nat) : Nat :=
  if m.inReattach r p || !m.hasKey p then 0 else m.t2Share r p - m.recPages r p .t2 - m.recMoving r p

/-- Free owned slots of region `q` for pitch `p`: a lent slot counts as claimed (R405). -/
def Mach.ownedFree (m : Mach) (q p : Nat) : Nat :=
  let n := regions m.fam
  let own := ((winsOf m.fam (m.region q).cfg.vals p).length) * ((winSlots + n - 1 - q) / n)
  let used := m.usedSlots p
  let lent := (m.region q).loans.filter fun l => l.1 = p && !used.contains (l.2.1, l.2.2.1)
  own - ((used.filter fun x => x.2 % n = q).length + (lent.filter fun l => l.2.2.1 % n = q).length)

/-- A slot for a T2 frame: one region `r` owns, or a loan of the lowest region whose free owned slots outnumber its free
record slots (R405). -/
def Mach.takeT2 (m : Mach) (r p : Nat) : Option (Nat × Nat) :=
  match m.ownSlot r p with
  | some s => some s
  | none => (m.region r).loans.findSome? fun l =>
      if l.1 = p && l.2.2.2 = r && !((m.usedSlots p).contains (l.2.1, l.2.2.1)) then some (l.2.1, l.2.2.1) else none

/-- A descriptor without its T2 frame. -/
def Priv.noT2 (d : Priv) : Priv := { d with t2len := 0, t2codec := 0, t2win := 0, t2slot := 0, t2bad := false }

/-- A slot's loan is over when its frame is freed (R405). -/
def Mach.endLoan (m : Mach) (p w t : Nat) : Mach :=
  m.each (List.range (regions m.fam)) fun m r =>
    m.when ((m.region r).loans.any fun l => l.1 = p && l.2.1 = w && l.2.2.1 = t) fun m =>
      m.onRegion r fun g => { g with loans := g.loans.filter fun l => !(l.1 = p && l.2.1 = w && l.2.2.1 = t) }

/-- A content's T2 frame is freed. -/
def Mach.dropT2 (m : Mach) (c : CRef) : Mach :=
  match m.priv c with
  | some d => if d.t2len = 0 then m else (m.endLoan (m.ownerOf c) d.t2win d.t2slot).setPriv c d.noT2
  | none => m

/-- Every frame and copy of a content is freed. -/
def Mach.dropAll (m : Mach) (c : CRef) : Mach := ((m.dropT0 c).dropT1 c).dropT2 c

/-! ## Record slots (R44) -/

/-- The tier a first write takes its record slot in, by the profile; none when neither has a free slot. -/
def Mach.pickRec (m : Mach) (r p : Nat) : Rec :=
  let a := decide (0 < m.t1RecFree r p)
  let b := decide (0 < m.t2RecFree r p)
  if m.profile r = 2 then (if b then .t2 else if a then .t1 else .none)
  else (if a then .t1 else if b then .t2 else .none)

/-! ## Patterns (R53) -/

/-- Word of pattern `i` of region `r`'s table, as it reads: entry 0 is zero; an entry the word code flagged is poison. -/
def Mach.patWord (m : Mach) (r i : Nat) : CWord :=
  if i = 0 then encWord 0
  else match tfind m.mem.pats (r * patsPerRegion + i) with
    | some p => if p.poison then .poison else encWord p.word
    | none => .poison

/-- The entry of region `r`'s table that holds pattern `w`, or the lowest free one. -/
def Mach.patIndex (m : Mach) (r : Nat) (w : Word) : Option Nat :=
  if w = 0 then some 0
  else
    let mine := m.mem.pats.filter fun x => x.1 / patsPerRegion = r
    match mine.find? fun x => x.2.word = w && !x.2.poison with
    | some x => some (x.1 % patsPerRegion)
    | none =>
      lowestFree (fun i => i = 0 || (tfind m.mem.pats (r * patsPerRegion + i)).isSome) patsPerRegion (mine.length + 1)

/-- One more use of pattern `i`, which holds `w`. -/
def Mach.patUse (m : Mach) (r i : Nat) (w : Word) : Mach :=
  if i = 0 then m
  else
    let k := r * patsPerRegion + i
    let p : Pat := match tfind m.mem.pats k with | some p => { p with cnt := p.cnt + 1 } | none => { word := w, cnt := 1 }
    m.onMem fun x => { x with pats := tins x.pats k p }

/-- One use of pattern `i` less; the entry is freed at zero. -/
def Mach.patDrop (m : Mach) (r i : Nat) : Mach :=
  let k := r * patsPerRegion + i
  match tfind m.mem.pats k with
  | some p => m.onMem fun x => { x with pats := if p.cnt ≤ 1 then tdel x.pats k else tins x.pats k { p with cnt := p.cnt - 1 } }
  | none => m

/-! ## Shared pool -/

/-- Entries of region `r`'s pool in use. -/
def Mach.poolUsed (m : Mach) (r : Nat) : Nat := (m.mem.pool.filter fun x => x.1 / poolPerRegion = r).length

/-- A free entry of region `r`'s pool, chosen by the part (log entry 3). -/
def Mach.pickPool (m : Mach) (r : Nat) : Option Nat :=
  pickFree (fun e => (m.poolEnt r e).isSome) poolPerRegion (m.poolUsed r) m.drawn

/-- A pool entry made. -/
def Mach.putPool (m : Mach) (r e : Nat) (x : PoolEnt) : Mach :=
  m.onMem fun y => { y with pool := tins y.pool (r * poolPerRegion + e) x }

/-- A pool entry freed with its frames and copies. -/
def Mach.freePool (m : Mach) (r e : Nat) : Mach :=
  (m.dropAll (.pool r e)).onMem fun y => { y with pool := tdel y.pool (r * poolPerRegion + e) }

/-- One reference to a pool entry less: freed at zero, with frames and record slot (R105). -/
def Mach.unref (m : Mach) (r e : Nat) : Mach :=
  match m.poolEnt r e with
  | some x =>
    if x.lost then m
    else if x.c.shares ≤ 1 then m.freePool r e
    else m.putPool r e { x with c := { x.c with shares := x.c.shares - 1 } }
  | none => m

/-- One reference more, up to 4,095 (R38). -/
def Mach.addRef (m : Mach) (r e : Nat) : Mach :=
  match m.poolEnt r e with
  | some x => m.putPool r e { x with c := { x.c with shares := min 4095 (x.c.shares + 1) } }
  | none => m

/-! ## Clearing slots -/

/-- Moves of a content in flight are dropped: Table 02.4. -/
def Mach.dropMoves (m : Mach) (c : CRef) : Mach :=
  let r := m.crefRegion c
  m.when ((m.region r).moves.any fun v => v.cref = c) fun m =>
    let vs := (m.region r).moves.filter fun v => v.cref = c
    let m := m.each vs fun m v =>
      (m.when (v.dst = 1 && (v.phase = .writing || v.phase = .ready)) fun m => m.dropSectors r (m.frameSectors r v.addr v.len)).when
        (v.kind = .promT0 && v.phase ≠ .planned) fun m => m.freeT0Page r v.t0slot
    (m.onRegion r fun g => { g with moves := g.moves.filter fun v => v.cref ≠ c }).onPriv c fun d => { d with lock := false }

/-- The page leaves the refold list (R288). -/
def Mach.unrefold (m : Mach) (c : CRef) : Mach :=
  let r := m.crefRegion c
  m.when ((m.region r).refold.any fun x => x.1 = c) fun m =>
    m.onRegion r fun g => { g with refold := g.refold.filter fun x => x.1 ≠ c }

/-- A slot becomes UNWRITTEN: what it held is freed or released (R44, R53, R183). -/
def Mach.clearSlot (m : Mach) (pn : Nat) : Mach :=
  let c := CRef.slot pn
  match m.desc pn with
  | .unwritten => m
  | .priv _ => (((m.dropMoves c).unrefold c).dropAll c).setDesc pn .unwritten
  | .const _ _ i => (m.patDrop (m.homeOf pn) i).setDesc pn .unwritten
  | .ref r e => (m.unref r e).setDesc pn .unwritten

/-- Page numbers `base`, `base + 1`, …, `n` of them. -/
def pageRange (base n : Nat) : List Nat := (List.range n).map (base + ·)

/-- The slots of a page range that are not UNWRITTEN, in rising order. -/
def Mach.written (m : Mach) (base n : Nat) : List Nat :=
  m.mem.descs.filterMap fun d => if base ≤ d.1 && d.1 < base + n then some d.1 else none

/-- Work of the house pitch on a page range is given up: what it would have written is to go. -/
def Mach.dropHouse (m : Mach) (base n : Nat) : Mach :=
  let meets (pn : Nat) : Bool := decide (base ≤ pn) && decide (pn < base + n)
  m.onMem fun x => { x with house := x.house.filter fun h => !meets h.pn
                            waits := x.waits.filter fun w => !(w.req.house && meets (w.req.dpa / 4096)) }

/-- Every slot of a page range becomes UNWRITTEN. -/
def Mach.clearPages (m : Mach) (base n : Nat) : Mach := (m.dropHouse base n).each (m.written base n) fun m pn => m.clearSlot pn

/-! ## The page-map cache (R33) -/

/-- The line is in region `r`'s page-map cache. -/
def Mach.pmHit (m : Mach) (r line : Nat) : Bool := (m.region r).pmc.any fun l => l.id = line

/-- The line is used: it becomes the most recently used one, modified if `dirty`. -/
def Mach.pmTouch (m : Mach) (r line : Nat) (dirty : Bool) : Mach :=
  m.onRegion r fun g =>
    match g.pmc.find? fun l => l.id = line with
    | some l => { g with pmc := (g.pmc.filter fun l => l.id ≠ line) ++ [{ l with dirty := l.dirty || dirty }] }
    | none => g

/-- The line of region `r`'s page-map cache that holds pool entry `e`: pool lines count from 2^46 (R33, R36).
(DEDUCED, log entry 14.) -/
def poolLine (e : Nat) : Nat := 2 ^ 46 + e / 4

/-- The descriptor of page `pn` is in its home region's page-map cache. -/
def Mach.cached (m : Mach) (pn : Nat) : Bool := m.pmHit (m.homeOf pn) (m.pmLine pn)

/-- A content descriptor is in its region's page-map cache. -/
def Mach.cachedRef (m : Mach) : CRef → Bool
  | .slot pn => m.cached pn
  | .pool r e => m.pmHit r (poolLine e)
  | .desc _ _ => false

/-- A content's descriptor is considered by the planner: it is in the page-map cache, and its extent is not RELEASING (R57). -/
def Mach.planned? (m : Mach) (c : CRef) : Bool :=
  m.cachedRef c && (match c with | .slot pn => (m.extent (extOf pn)).st ≠ .releasing | _ => true)

end Sys2Proof.Machine
end

