-- ==== Sys2Proof/Machine/Inject.lean ====
section
/-! DEFINITION. Error injection (R296, Table 12.8): what an armed injection does to a word or a frame on its way. -/

namespace Sys2Proof.Machine

/-- A stored word with bit `i` of its 272 flipped: data, then check field (INJPOS). -/
def flipC (c : CWord) (i : Nat) : CWord :=
  if i < 256 then { c with data := flipBit c.data i } else { c with check := c.check ^^^ (1#16 <<< (i - 256)) }

/-- A stored word with byte lane `b` inverted: lanes 0 to 31 of data, 32 and 33 of the check field. -/
def invLane (c : CWord) (b : Nat) : CWord := (List.range 8).foldl (fun c i => flipC c (8 * b + i)) c

/-- A word as a word-code injection of a kind leaves it (INJKIND 1 to 4). -/
def injWord (kind p0 p1 : Nat) (c : CWord) : CWord :=
  match kind with
  | 1 => flipC c p0
  | 2 => flipC (flipC c p0) p1
  | 3 => invLane c (p0 / 8)
  | 4 => .poison
  | _ => c

/-- The unit of INJTARGET matches the kind: 1 to 4 any unit whose words carry the word code, 5 and 6 a DRAM channel, 7 far
writes (Table 12.8; log entry 16).
(DEDUCED, log entry 16.) -/
def injMatches (kind unit : Nat) : Bool :=
  match kind with
  | 1 => unit ≤ 4 | 2 => unit ≤ 4 | 3 => unit ≤ 4 | 4 => unit ≤ 4
  | 5 => unit = 1 | 6 => unit = 1
  | 7 => unit = 5
  | _ => false

/-- An injection is armed at a unit for a pitch's data. -/
def Mach.injAt (m : Mach) (unit region block cell pitch : Nat) : Bool :=
  let t := m.code.injTarget.toNat
  m.code.injArm && injMatches m.code.injKind unit && bits t 31 28 = unit && m.code.injPitch = pitch &&
    (if unit = 5 then true
    else if unit = 4 then bits t 15 0 = cell
    else bits t 27 24 = region && bits t 15 0 = cell && (unit ≠ 0 || bits t 23 16 = block))

/-- A firing: INJCOUNT, INJFIRED, INJARM and the INJECT_FIRED event.
(DESIGN CHOICE, log entry 37.) -/
def Mach.injFire (m : Mach) (pitch addr : Nat) : Mach :=
  (m.onCode fun c =>
    { c with injCount := c.injCount - 1, injFired := satAdd (2 ^ 32 - 1) c.injFired 1, injArm := decide (1 < c.injCount) }).log
      0x030A pitch 0 0 [(64, addr)]

/-- A word on its way through a unit: altered if an injection fires there. -/
def Mach.injW (m : Mach) (unit region block cell pitch addr : Nat) (c : CWord) : Mach × CWord :=
  if m.injAt unit region block cell pitch && m.code.injKind ≤ 4 then
    (m.injFire pitch addr, injWord m.code.injKind (bits m.code.injPos.toNat 8 0) (bits m.code.injPos.toNat 24 16) c)
  else (m, c)

/-- SRAM cell of T0 page `t` within its block: 64 pages to a cell of 256 KiB (log entry 13).
(DEDUCED, log entry 13.) -/
def t0Cell (t : Nat) : Nat := t % blockPages / 64

/-- The leaky bucket of that cell in the order of LBREGION. -/
def Mach.t0Bucket (m : Mach) (r t : Nat) : Nat := t0Block (m.region r).tableBlock t * 64 + t0Cell t

/-- Words stored in a T0 page from word `w` on, for data of pitch `p` at device address `dpa`. -/
def Mach.storeWords (m : Mach) (r t p dpa : Nat) : Nat → List CWord → Mach
  | _, [] => m
  | w, x :: xs =>
    let (m, x) := m.injW 0 r (t0Block (m.region r).tableBlock t) (t0Cell t) p (dpa + 32 * w) x
    Mach.storeWords (m.onStore fun s => { s with t0 := tput s.t0 .poison ((r * 32768 + t) * 128 + w) x }) r t p dpa (w + 1) xs

/-- `n` lines of T0 page `t` pass the crossbar of their store block for pitch `p`: one credit each (Table 08.2). -/
def Mach.chargeT0 (m : Mach) (r t p n : Nat) : Mach := m.chargeAlone r (t0Block (m.region r).tableBlock t) p n

/-- The same words as lines written through the store block's crossbar. -/
def Mach.storeT0 (m : Mach) (r t p dpa w : Nat) (xs : List CWord) : Mach :=
  (m.chargeT0 r t p ((xs.length + 1) / 2)).storeWords r t p dpa w xs

/-- Words that pass the cells of a unit, the word at place `i` through cell `cell i`, for data of pitch `p` at address `a`. -/
def Mach.injWords (m : Mach) (unit r : Nat) (cell : Nat → Nat) (p a : Nat) : Nat → List CWord → Mach × List CWord
  | _, [] => (m, [])
  | i, w :: ws =>
    let x := m.injW unit r 0 (cell i) p (a + 32 * i) w
    let y := Mach.injWords x.1 unit r cell p a (i + 1) ws
    (y.1, x.2 :: y.2)

/-- Words that leave the codec lane in place `at_` of the region's lanes, if any (unit 3 of INJTARGET).
(DESIGN CHOICE, log entry 106.) -/
def Mach.injLane (m : Mach) (r : Nat) (at_ : Option Nat) (p a : Nat) (ws : List CWord) : Mach × List CWord :=
  match at_ with
  | some l => m.injWords 3 r (fun _ => l) p a 0 ws
  | none => (m, ws)

/-- The Tally cell of word `i` of a page in scratch. -/
def tallyCell (i : Nat) : Nat := i % 16

/-- A page's words enter the Tally scratch for descriptor `d` (R130), as an armed injection leaves them (R296); the cells check each
word that the work reads there: corrections in their buckets, flagged words poison (Table 12.3, R292, R294).
(DESIGN CHOICE, log entry 106.) -/
def Mach.keepWords (m : Mach) (d : Nat) (c : CRef) (ws : List CWord) : Mach :=
  let r := m.crefRegion c
  let (m, ws) := m.injWords 2 r tallyCell (m.ownerOf c) (crefData c) 0 ws
  let m := m.each ((ws.zipIdx.filter fun x => isCorrected x.1).map (·.2)) fun m i => m.fillRegion r (520 + tallyCell i) 1
  (m.countUe (ws.filter isFlagged).length).onMem fun x => { x with scratch := x.scratch ++ [(d, c, ws.map passWord)] }

/-- Words of a frame as a frame injection leaves them (INJKIND 5 and 6): word WORD0 inverted with a new check field, or two
bits of words WORD0 and WORD1 flipped. -/
def injFrame (kind w0 w1 : Nat) (f : List CWord) : List CWord :=
  if kind = 5 then f.modify w0 fun c => encWord (~~~c.data)
  else if kind = 6 then (f.modify w0 fun c => flipC (flipC c 0) 1).modify w1 fun c => flipC (flipC c 0) 1
  else f

end Sys2Proof.Machine
end

