-- ==== Sys2Proof/Machine/Requester.lean ====
section
/-! DEFINITION. The part as a requester (R249 to R257): read tags and their shares, the write table, windows, and what a
port sends while it may send. -/

namespace Sys2Proof.Machine

/-! ## What a port may send -/

/-- The port is NORMAL: out of containment (R258). -/
def Mach.normal (m : Mach) (k : Nat) : Bool := !(m.port k).contained
/-- The port carries CXL.mem and UIO traffic: IDEREQ is 0, or its IDE streams are established (R234).
(DEDUCED, log entry 62.) -/
def Mach.ideOpen (m : Mach) (k : Nat) : Bool :=
  m.hubN k (0x5000 + k) 0x25 = 0 || ((m.port k).ideMem.active.isSome && (m.port k).ideSel.active.isSome)
/-- The port is NORMAL and READY, with the streams it needs (R234, R255). -/
def Mach.portReady (m : Mach) (k : Nat) : Bool := m.normal k && (m.port k).ready && !(m.hub k).failed && m.ideOpen k

/-- Device-initiated requests may leave port `k` (R234, R258). -/
def Mach.uioOpen (m : Mach) (k : Nat) : Bool := m.normal k && m.ideOpen k && !(m.hub k).failed

/-- Requests of hosts reach hub `k`: out of containment, in L0, the hub alive (Table 10.12, Table 10.13). -/
def Mach.linkUp (m : Mach) (k : Nat) : Bool := m.normal k && (m.port k).lt = .l0 && !(m.hub k).failed
/-- CXL.mem messages of hosts reach hub `k` (R234). -/
def Mach.memOpen (m : Mach) (k : Nat) : Bool := m.linkUp k && m.ideOpen k
/-- Configuration requests reach function `f`: no function-level reset is under way (R260). -/
def Mach.cfgOpen (m : Mach) (f : Nat) : Bool := m.linkUp (f / 16) && (m.fn f).flrAt.isNone
/-- Register accesses reach function `f`'s BAR: Memory Space Enable is 1 besides (Table 10.1).
(DEDUCED, log entry 60.) -/
def Mach.barOpen (m : Mach) (f : Nat) : Bool := m.cfgOpen f && (m.fn f).command.getLsbD 1

/-- CXL.mem and UIO messages, which need IDE streams. -/
def Out.needsIde : Out → Bool
  | .rsp _ _ _ => true
  | .snoop _ _ _ => true
  | .snoopBlk _ _ => true
  | .uioRd _ _ _ _ _ _ _ => true
  | .uioWr _ _ _ _ _ _ _ _ _ => true
  | _ => false

/-- A snoop. -/
def Out.isSnoop : Out → Bool
  | .snoop _ _ _ => true
  | .snoopBlk _ _ => true
  | _ => false

/-- A message leaves through port `k`: at once in L0; while the link is out of L0 it is held and sent on the return (R260,
Table 10.13). A contained port sends nothing: its snoops are held, other messages are discarded (Table 10.12); the same
holds for CXL.mem and UIO while IDE streams are called for and not established (R234). -/
def Mach.portSend (m : Mach) (k : Nat) (o : Out) : Mach :=
  let p := m.port k
  if p.contained || (o.needsIde && !m.ideOpen k) then
    if o.isSnoop then m.onPort k fun p => { p with heldSnoops := p.heldSnoops ++ [o] } else m
  else if p.lt = .l0 then m.send o
  else m.onPort k fun p => { p with heldSnoops := p.heldSnoops ++ [o] }

/-- An error of Table 09.6 or R250 on port `k` is reported by each of its functions that has messages of its class enabled (Table 10.2;
classes as the standard gives them by default, log entry 8): 0 correctable, 1 non-fatal, 2 fatal.
(PRESUMED, log entry 8.) -/
def Mach.aer (m : Mach) (k sev : Nat) : Mach :=
  m.each ((List.range 16).filter fun i => (m.fn (16 * k + i)).errEn.getLsbD sev) fun m i => m.portSend k (.err (16 * k + i) sev)

/-! ## Read tags (R249, R250) -/

/-- Reads of one share that hold a tag of port `k`, quarantined ones included (R250). -/
def Mach.tagsUsed (m : Mach) (k : Nat) (svc : Bool) : Nat := (m.svc.tags.filter fun t => t.port = k && t.svc = svc).length

/-- Free tags of a share. -/
def Mach.tagsFree (m : Mach) (k : Nat) (svc : Bool) : Nat :=
  let lim := m.hubN k (0x5000 + k) 0x10
  let sv := m.hubN k (0x5000 + k) 0x11
  min ((if svc then sv else lim - sv) - m.tagsUsed k svc) (lim - m.tagsUsed k true - m.tagsUsed k false)

/-- A free tag value of the port, chosen by the part: 14 bits (R249; log entry 3). -/
def Mach.pickTag (m : Mach) (k : Nat) : Option Nat :=
  let mine := m.svc.tags.filter fun t => t.port = k
  pickFree (fun t => mine.any fun x => x.tag = t) 16384 mine.length m.drawn

/-- Hub `k` issues a device-initiated read of requester `rid` if the share has a tag: the deadline is CPLTO after the issue (R250). -/
def Mach.issueRead (m : Mach) (k : Nat) (rid : Option Nat) (svc : Bool) (dpid addr len : Nat) (ro : Bool) (owner : RdOwner) : Option Mach :=
  if m.tagsFree k svc = 0 then none
  else
    (m.pickTag k).map fun t =>
      let lim := us (m.hubN k (0x5000 + k) 0x12)
      let tag : RTag := ⟨k, t, svc, m.cycle, m.cycle + lim, lim, false, (addr % 32 + len + 31) / 32, [], owner⟩
      ((m.redraw.onSvc fun s => { s with tags := s.tags ++ [tag] }).portSend k (.uioRd k rid t dpid addr len ro))

/-- The read under `tag` of port `k`. -/
def Mach.tagAt (m : Mach) (k t : Nat) : Option RTag := m.svc.tags.find? fun x => x.port = k && x.tag = t

/-- A tag is free. -/
def Mach.freeTag (m : Mach) (k t : Nat) : Mach :=
  m.onSvc fun s => { s with tags := s.tags.filter fun x => !(x.port = k && x.tag = t) }

/-- A tag changed. -/
def Mach.onTag (m : Mach) (k t : Nat) (f : RTag → RTag) : Mach :=
  m.onSvc fun s => { s with tags := lmod s.tags (fun x => x.port = k && x.tag = t) f }

/-! ## Windows (R254, R255) -/

/-- A peer window (Table 10.9). -/
structure PeerWin where
  /-- TBASE -/
  tbase : Nat
  /-- BASE -/
  base : Nat
  /-- LOG2SIZE -/
  log2 : Nat
  /-- DPID -/
  dpid : Nat
  /-- PITCH -/
  pitch : Nat
  /-- PORTS -/
  ports : Nat
  /-- VALID -/
  valid : Bool
  deriving DecidableEq, Repr

/-- The peer window a value holds. -/
def peerWin (x : Nat) : PeerWin :=
  ⟨bits x 191 140, bits x 139 88, bits x 87 82, bits x 81 70, bits x 69 64, bits x 63 56, x % 2 = 1⟩

/-- Whether a number has bit `i`. -/
def hasBit (x i : Nat) : Bool := x / 2 ^ i % 2 = 1

/-- An address range lies wholly in the window. -/
def PeerWin.holds (w : PeerWin) (p k a len : Nat) : Bool :=
  w.valid && w.pitch = p && hasBit w.ports k && w.base * 4096 ≤ a && a + len ≤ w.base * 4096 + 2 ^ w.log2

/-- Where a device-initiated request of pitch `p` through port `k` goes: destination port and address there (R254). -/
def Mach.peerMatch (m : Mach) (p k a len : Nat) : Option (Nat × Nat) :=
  (List.range 64).findSome? fun j =>
    let w := peerWin (m.hubN k (0x5100 + j) 1)
    if w.holds p k a len then some (w.dpid, w.tbase * 4096 + (a - w.base * 4096)) else none

/-- The port a far request of window `w` of pitch `p` takes: NORMAL and READY, with the most free tier tags, the
lower-numbered winning a tie (R255). -/
def Mach.farPort (m : Mach) (win : FarWin) : Option Nat :=
  ((List.range (hubs m.fam)).foldl (fun (b : Option (Nat × Nat)) k =>
    if hasBit win.ports k && m.portReady k then
      match b with
      | none => some (k, m.tagsFree k false)
      | some (_, n) => if n < m.tagsFree k false then some (k, m.tagsFree k false) else b
    else b) none).map (·.1)

/-- The far window `w` of pitch `p` as hub `h` has it. -/
def Mach.hubWin (m : Mach) (h p w : Nat) : FarWin := farWin (m.hubN h (0x4100 + p) (w + 1))

/-- The far window of pitch `p` as the committed set gives it. -/
def Mach.farWinOf (m : Mach) (p w : Nat) : FarWin := winOf m.fam m.dict.cfg.vals p w

/-- Far address of sector `s` of a frame slot (R255). -/
def slotAddr (win : FarWin) (slot s : Nat) : Nat := win.fbase * 2 ^ 30 + 4608 * slot + 512 * s
/-- Far address of sector `s` of a window's manifest and descriptor area. -/
def areaAddr (win : FarWin) (s : Nat) : Nat := win.fbase * 2 ^ 30 + 0x3F000000 + 512 * s

/-! ## Writes (R249, R251, R410) -/

/-- Writes of port `k` in flight. -/
def Mach.writesUsed (m : Mach) (k : Nat) : Nat := (m.svc.wrs.filter fun w => w.port = k).length

/-- The function's Bus Master Enable (R410). -/
def Mach.bme (m : Mach) (f : Nat) : Bool := (m.fn f).command.getLsbD 2

/-- A write may be issued now: an entry of the port's table is free and Bus Master Enable does not hold it. -/
def Mach.canWrite (m : Mach) (w : WReq) : Bool :=
  m.writesUsed w.port < 4096 && (match w.fn with | some f => m.bme f | none => true) && m.uioOpen w.port

/-- Words cut into runs of one kind, with the number of the first word: poisoned words apart from the others (R293). -/
def runsOf : Nat → List (Option Word) → List (Nat × List Word × Bool)
  | _, [] => []
  | i, w :: t =>
    match runsOf (i + 1) t with
    | (j, ws, b) :: rest =>
      if b = w.isNone then (i, w.getD 0 :: ws, b) :: rest else (i, [w.getD 0], w.isNone) :: (j, ws, b) :: rest
    | [] => [(i, [w.getD 0], w.isNone)]

end Sys2Proof.Machine
end

