-- ==== Sys2Proof/Machine/Operands.lean ====
section
/-! DEFINITION. The service descriptor (Tables 06.4 to 06.6, R166, R167): its fields, its operand words, and the checks the hub
makes before it dispatches one. -/

namespace Sys2Proof.Machine

/-! ## Status codes (Table 06.7) -/

/-- OK -/
def stOk : Nat := 0x00
/-- PARTIAL -/
def stPartial : Nat := 0x01
/-- TRUNCATED -/
def stTruncated : Nat := 0x02
/-- POISON -/
def stPoison : Nat := 0x03
/-- BAD_OPCODE -/
def stBadOpcode : Nat := 0x10
/-- BAD_ABI -/
def stBadAbi : Nat := 0x11
/-- BAD_OPERAND -/
def stBadOperand : Nat := 0x12
/-- TOO_LARGE -/
def stTooLarge : Nat := 0x13
/-- BAD_RANGE -/
def stBadRange : Nat := 0x14
/-- BAD_HANDLE -/
def stBadHandle : Nat := 0x15
/-- BAD_VERSION -/
def stBadVersion : Nat := 0x16
/-- BAD_STATE -/
def stBadState : Nat := 0x17
/-- BAD_LAYOUT -/
def stBadLayout : Nat := 0x18
/-- BAD_MANIFEST -/
def stBadManifest : Nat := 0x19
/-- DENIED -/
def stDenied : Nat := 0x1A
/-- NO_WINDOW -/
def stNoWindow : Nat := 0x1B
/-- NO_KEY -/
def stNoKey : Nat := 0x1C
/-- INPUT_POISON -/
def stInputPoison : Nat := 0x1D
/-- BAD_WINDOWS -/
def stBadWindows : Nat := 0x1E
/-- NO_SESSION -/
def stNoSession : Nat := 0x20
/-- NO_SPACE -/
def stNoSpace : Nat := 0x21
/-- POOL_FULL -/
def stPoolFull : Nat := 0x22
/-- VERSION_LIMIT -/
def stVersionLimit : Nat := 0x23
/-- NO_VIEW -/
def stNoView : Nat := 0x24
/-- NO_PATTERN -/
def stNoPattern : Nat := 0x25
/-- NO_ENGINE -/
def stNoEngine : Nat := 0x26
/-- NO_QUEUE -/
def stNoQueue : Nat := 0x27
/-- LATE -/
def stLate : Nat := 0x30
/-- DAMAGED -/
def stDamaged : Nat := 0x31
/-- ABORTED -/
def stAborted : Nat := 0x32

/-! ## Fields -/

/-- Bits [hi:lo] of a descriptor. -/
def Dtor.fld (d : Dtor) (hi lo : Nat) : Nat := bits d.raw.toNat hi lo
/-- OPCODE -/
def Dtor.opcode (d : Dtor) : Nat := d.fld 7 0
/-- RELAX -/
def Dtor.relax (d : Dtor) : Bool := d.fld 8 8 = 1
/-- CID -/
def Dtor.cid (d : Dtor) : Nat := d.fld 47 32
/-- DEADLINE -/
def Dtor.bells (d : Dtor) : Nat := d.fld 63 48
/-- VERSION -/
def Dtor.version (d : Dtor) : Nat := d.fld 95 64
/-- HANDLE -/
def Dtor.handle (d : Dtor) : Nat := d.fld 127 96
/-- OPk -/
def Dtor.op (d : Dtor) (k : Nat) : Nat := d.fld (64 * k + 191) (64 * k + 128)
/-- Bits [hi:lo] of OPk -/
def Dtor.opf (d : Dtor) (k hi lo : Nat) : Nat := bits (d.op k) hi lo
/-- The page number in bits [63:28] of OPk (R167). -/
def Dtor.pn (d : Dtor) (k : Nat) : Nat := d.opf k 63 28

/-! ## Versions and opcodes -/

/-- A version pair is at or below another (R160). -/
def verLe (a b : Nat × Nat) : Bool := decide (a.1 < b.1) || (decide (a.1 = b.1) && decide (a.2 ≤ b.2))

/-- The versions the part speaks (R160). -/
def spoken : List (Nat × Nat) := [(1, 0), (1, 1), (2, 0), (2, 1)]

/-- The highest version spoken that is not above the creator's (R160). -/
def grantVer (host : Nat × Nat) : Option (Nat × Nat) := spoken.reverse.find? fun v => verLe v host

/-- The version from which an opcode is defined (Table 06.5). -/
def opcodeFrom (op : Nat) : Option (Nat × Nat) :=
  if op = 0x00 || op = 0x01 then some (1, 0)
  else if 0x10 ≤ op && op ≤ 0x1A then some (1, 0)
  else if op = 0x1B || op = 0x22 then some (2, 0)
  else if op = 0x20 || op = 0x21 then some (1, 1)
  else if 0x23 ≤ op && op ≤ 0x26 then some (1, 0)
  else none

/-- Whether the opcode uses HANDLE, and VERSION (Table 06.5). -/
def usesHandle (op : Nat) : Bool := (0x11 ≤ op && op ≤ 0x19) || op = 0x20 || op = 0x22
/-- VERSION -/
def usesVersion (op : Nat) : Bool := op = 0x14 || op = 0x15 || op = 0x17 || op = 0x19 || op = 0x20 || op = 0x22

/-- A mask of bits [hi:lo]. -/
def mask (hi lo : Nat) : Nat := 2 ^ (hi + 1) - 2 ^ lo

/-- All 64 bits. -/
def maskAll : Nat := 2 ^ 64 - 1

/-- The bits of OP0 to OP5 that an opcode uses (Table 06.6); the mask type of ATTEND and SIFT decides OP2. -/
def opMasks (d : Dtor) : List Nat :=
  let op := d.opcode
  match op with
  | 0x10 => [maskAll, maskAll, mask 63 28 + mask 24 0, mask 63 27 + mask 15 0, maskAll, 0]
  | 0x12 => [maskAll, maskAll, 0, mask 27 27 + mask 15 0, maskAll, mask 4 0]
  | 0x15 => [0, 0, mask 63 28, 0, 0, 0]
  | 0x17 => [maskAll, maskAll, mask 63 28, mask 63 27 + mask 15 0, 0, 0]
  | 0x19 => [maskAll, mask 33 32 + mask 24 0, maskAll, 0, 0, 0]
  | 0x1B => [mask 20 0, 0, mask 63 28, mask 63 28, 0, 0]
  | 0x20 => [maskAll, maskAll, (let k := d.opf 5 23 20; if k = 3 then maskAll else if k = 2 then mask 24 0 else 0), mask 62 0,
      mask 63 50 + mask 24 0, mask 63 20 + (if d.opf 5 23 20 = 3 then mask 19 19 else 0) + mask 18 16]
  | 0x21 => [maskAll, maskAll, mask 40 40 + mask 34 32 + mask 26 16 + mask 8 0, 0, 0, 0]
  | 0x22 => [maskAll, maskAll, (let k := d.opf 5 23 20; if k = 3 then maskAll else if k = 2 then mask 24 0 else 0), mask 62 0,
      maskAll, mask 63 20 + (if d.opf 5 23 20 = 3 then mask 19 19 else 0) + mask 16 0]
  | 0x23 => [maskAll, maskAll, mask 45 44 + mask 41 40 + mask 36 32 + mask 28 0, 0, 0, 0]
  | 0x24 => [maskAll, maskAll, mask 31 0, 0, 0, 0]
  | 0x25 => [maskAll, maskAll, maskAll, maskAll, mask 63 28 + mask 24 0, 0]
  | 0x26 => [maskAll, maskAll, mask 24 0, 0, 0, 0]
  | _ => [0, 0, 0, 0, 0, 0]

/-- Bits of `x` outside a mask are zero. -/
def within (x msk : Nat) : Bool := x &&& msk = x

/-- No reserved or unused bit is set. -/
def Dtor.clean (d : Dtor) : Bool :=
  d.fld 23 9 = 0 && (usesHandle d.opcode || d.handle = 0) && (usesVersion d.opcode || d.version = 0) &&
    ((opMasks d).zipIdx.all fun x => within (d.op x.2) x.1)

/-- A value the opcode has only from a later version on (Table 06.5). -/
def Dtor.newValue (d : Dtor) (v : Nat × Nat) : Bool :=
  match d.opcode with
  | 0x19 => d.opf 1 33 33 = 1 && !verLe (2, 0) v
  | 0x20 => (d.opf 5 23 20 = 3 && !verLe (2, 0) v) || (d.opf 5 17 17 = 1 && !verLe (2, 1) v)
  | 0x22 => (d.opf 5 13 13 = 1 || d.opf 5 15 15 = 1) && !verLe (2, 1) v
  | _ => false

/-- The hub's checks of R166 in order, and FENCE's (R173) and RESUME's (R168): the status of the first that fails. -/
def Dtor.check (d : Dtor) (qver : Nat × Nat) : Option Nat :=
  let v := (d.fld 31 28, d.fld 27 24)
  if !(spoken.contains v && verLe v qver) then some stBadAbi
  else
    match opcodeFrom d.opcode with
    | none => some stBadOpcode
    | some from_ =>
      if !verLe from_ v then some stBadOpcode
      else if !d.clean || d.newValue v then some stBadOperand
      else if d.opcode = 0x01 && d.bells ≠ 0 then some stBadOperand
      else if d.opcode = 0x19 && d.opf 1 33 33 = 0 && d.op 2 ≠ 0 then some stBadOperand
      else none

/-- The descriptor is a FENCE. -/
def Dtor.isFence (d : Dtor) : Bool := d.opcode = 0x01

end Sys2Proof.Machine
end

