-- ==== Sys2Proof/Machine/QueueCore.lean ====
section
/-! DEFINITION. Descriptors in flight and their completions (R161, R162, R164, R169 to R172, R251): what ends a descriptor. -/

namespace Sys2Proof.Machine

/-! ## Descriptors -/

/-- Descriptor `d`, if it is in flight. -/
def Mach.dtorAt (m : Mach) (d : Nat) : Option Dtor := m.svc.dtors.find? fun x => x.id = d
/-- A descriptor changed. -/
def Mach.onDtor (m : Mach) (d : Nat) (f : Dtor → Dtor) : Mach :=
  m.onSvc fun s => { s with dtors := lmod s.dtors (fun x => x.id = d) f }

/-- The write is a completion of queue `q` of function `f`. -/
def WrOwner.isCqe (f q : Nat) : WrOwner → Bool
  | .cqe g r _ _ => g = f && r = q
  | _ => false

/-- The write carries data of descriptor `d`. -/
def WrOwner.isData (d : Nat) : WrOwner → Bool
  | .data _ _ _ e _ => e = d
  | _ => false

/-- Descriptors of a queue fetched and not completed (INFLIGHT): those whose completion waits to be written among them. -/
def Mach.inflight (m : Mach) (f q : Nat) : Nat :=
  (m.svc.dtors.filter fun d => d.fn = f && d.q = q).length + (m.svc.wrWait.filter fun w => w.owner.isCqe f q).length

/-- The pitch a descriptor runs for. -/
def Mach.dtorPitch (m : Mach) (d : Dtor) : Nat := (m.queue d.fn d.q).pitch

/-! ## Queue states -/

/-- A queue enters ERROR and the event is logged (R162). -/
def Mach.queueError (m : Mach) (f q cause : Nat) : Mach :=
  let x := m.queue f q
  (m.onQueue f q fun x => { x with st := .error, cause := cause }).log 0x0201 x.pitch 4 f
    [(8, f), (8, q), (8, cause)]

/-- An ACTIVE queue enters ERROR (R162). -/
def Mach.errorIfActive (m : Mach) (f q cause : Nat) : Mach := m.when ((m.queue f q).st = .active) fun m => m.queueError f q cause

/-- A queue becomes FREE. -/
def Mach.freeQueue (m : Mach) (f q : Nat) : Mach :=
  let m := m.onQueue f q fun _ => {}
  let m := m.onSvc fun s => { s with tags := lmod s.tags (fun t => t.owner = .fetch f q) fun t => { t with owner := .gone } }
  m.onFn f fun x => if x.qbusy = some q then { x with qbusy := none, qresult := stOk } else x

/-- A queue whose last descriptor has completed moves on: DRAINING to DRAINED, DELETING to FREE (R161). -/
def Mach.queueSettle (m : Mach) (f q : Nat) : Mach :=
  if m.inflight f q ≠ 0 then m
  else
    match (m.queue f q).st with
    | .draining => m.onQueue f q fun x => { x with st := .drained }
    | .deleting => if (m.queue f q).fetching.isSome then m else m.freeQueue f q
    | _ => m

/-! ## Completions (R164, R169) -/

/-- A completion's 128 bits (Table 06.7a). -/
def cqeWord (phase : Bool) (sqhead cid status result : Nat) : Nat :=
  (if phase then 1 else 0) + 2 * (sqhead % 65536) + 2 ^ 17 * (cid % 65536) + 2 ^ 33 * (status % 256) + 2 ^ 41 * (result % 2 ^ 87)

/-! ## Writes (R249, R251, R410) -/

/-- A write is sent. -/
def Mach.issueWrite (m : Mach) (w : WReq) : Mach :=
  let id := m.nextId
  let m := m.renumber
  (m.onSvc fun s => { s with wrs := s.wrs ++ [⟨w.port, id, m.cycle + us (m.hubN w.port (0x5000 + w.port) 0x12), w.owner⟩] }).portSend
    w.port (.uioWr w.port w.fn id w.dpid w.addr w.len w.words w.poison w.ro)

/-- A completion is written: it takes the next slot, the PHASE and SQHEAD of this moment (R164, R165, R169). Where no window holds
the slot any more it is dropped (R162). -/
def Mach.issueCqe (m : Mach) (f q : Nat) (w : WReq) : Mach :=
  let x := m.queue f q
  match m.peerMatch x.pitch w.port (x.cqbase + 16 * x.cqtail) 16 with
  | none => (m.errorIfActive f q 3).queueSettle f q
  | some (dpid, addr) =>
    let head : Word := BitVec.ofNat 256 (cqeWord x.phase x.sqhead 0 0 0)
    let m := m.onQueue f q fun x =>
      { x with cqtail := (x.cqtail + 1) % 2 ^ x.log2, phase := if x.cqtail + 1 = 2 ^ x.log2 then !x.phase else x.phase
               written := x.written ++ [m.cycle] }
    (m.issueWrite { w with dpid := dpid, addr := addr, words := w.words.map (· ||| head) }).queueSettle f q

/-- A data write of a descriptor is matched when it is issued (R257): where no window holds it any more it has failed (Table 10.11). -/
def Mach.issueData (m : Mach) (p d i : Nat) (w : WReq) : Mach :=
  match m.peerMatch p w.port w.addr w.len with
  | some (dpid, addr) => m.issueWrite { w with dpid := dpid, addr := addr }
  | none =>
    (m.onDtor d fun y => { y with acks := y.acks - 1, wrFailed := true, failed := i :: y.failed }).count (0x8200 + w.port) 4 1

/-- Writes that wait are issued where they may be, oldest first. -/
def Mach.issueAll (m : Mach) : Mach :=
  m.each m.svc.wrWait fun m w =>
    if m.canWrite w then
      let m := m.onSvc fun s => { s with wrWait := s.wrWait.erase w }
      match w.owner with
      | .cqe f q _ _ => m.issueCqe f q w
      | .data f q _ d i => m.issueData (m.queue f q).pitch d i w
      | _ => m.issueWrite w
    else m

/-- A write is made: issued at once, or kept behind those that wait. -/
def Mach.postWrite (m : Mach) (w : WReq) : Mach := (m.onSvc fun s => { s with wrWait := s.wrWait ++ [w] }).issueAll

/-- The completion of descriptor `d` is made: it is written as soon as a write of its function may go out, and dropped where the
ring cannot be reached (R162, R164). -/
def Mach.writeCqe (m : Mach) (d : Dtor) (status result : Nat) (ro : Bool) : Mach :=
  let x := m.queue d.fn d.q
  if x.st = .free || (m.port (d.fn / 16)).contained then m
  else
    m.postWrite ⟨d.fn / 16, some d.fn, .cqe d.fn d.q x.inc d.id, 0, 0, 16,
      [BitVec.ofNat 256 (cqeWord false 0 d.cid status result)], false, ro⟩

/-- RESULT counts under the statuses of R169: OK, PARTIAL, TRUNCATED, POISON, and always for FILL and COPY (R152). -/
def resultOf (op status result : Nat) : Nat := if status ≤ stPoison || op = 0x25 || op = 0x26 then result else 0

/-- A descriptor leaves every list that holds it. -/
def Mach.forget (m : Mach) (d : Nat) : Mach :=
  let m := m.onSvc fun s => { s with dtors := s.dtors.filter fun x => x.id ≠ d }
  let m := m.onMem fun x => { x with scratch := x.scratch.filter fun y => y.1 ≠ d
                                     jobs := x.jobs.map fun j => { j with users := j.users.filter (· ≠ d) } }
  let m := m.onSess fun x => { x with waitOps := x.waitOps.filter fun y => y.2 ≠ d
                                      sess := x.sess.map fun y => if y.2.side = some d then (y.1, { y.2 with side := none }) else y }
  m.each (List.range (regions m.fam)) fun m r =>
    let g := m.region r
    m.when (g.tallyBig.contains d || g.tallySmall.contains d || g.tallyQ.contains d) fun m =>
      m.onRegion r fun g => { g with tallyBig := g.tallyBig.filter (· ≠ d), tallySmall := g.tallySmall.filter (· ≠ d)
                                     tallyQ := g.tallyQ.filter (· ≠ d), tallyAt := tdel g.tallyAt d }

/-- A descriptor completes with a status and RESULT: its completion is written and it leaves the part. -/
def Mach.finish (m : Mach) (d : Dtor) (status result : Nat) : Mach :=
  let m := m.forget d.id
  let m := m.when (status = stLate) fun m => m.count (0x8400 + m.dtorPitch d) 2 1
  (m.writeCqe d status (resultOf d.opcode status result) (d.relax && !d.isFence)).queueSettle d.fn d.q

/-- What descriptor `d` has written into the part still waits for its pages. -/
def Mach.linesWait (m : Mach) (d : Nat) : Bool :=
  (m.mem.waits.any fun w => w.req.dtor = some d) || m.mem.house.any fun h => h.dtor = some d

/-- What the descriptor has written stands as R172 asks before its completion: its lines in the part have landed; its data writes
are acknowledged, or with RELAX = 1 issued. -/
def Mach.outDone (m : Mach) (x : Dtor) : Bool :=
  !m.linesWait x.id && (if x.relax then !(m.svc.wrWait.any fun w => w.owner.isData x.id) else x.acks = 0)

/-- A descriptor whose operation is over completes: a data write that failed makes the status POISON (R251); a COPY counts the
pages that reached their new content (R152). -/
def Mach.settle (m : Mach) (x : Dtor) (status result : Nat) : Mach :=
  m.finish x (if x.wrFailed && status ≤ stPoison then stPoison else status) (if x.opcode = 0x26 && !x.relax then x.n0 else result)

/-- The operation of a descriptor is over: its completion waits for what it has written (R172). -/
def Mach.opDone (m : Mach) (d : Nat) (status result : Nat) : Mach :=
  match m.dtorAt d with
  | none => m
  | some x =>
    if m.outDone x then m.settle x status result
    else m.onDtor d fun y => { y with stage := .writing, done := some (status, result) }

/-- Descriptors whose completion waited and need not wait any longer complete. -/
def Mach.landed (m : Mach) : Mach :=
  m.each (m.svc.dtors.map (·.id)) fun m d =>
    match m.dtorAt d with
    | some x => match x.done with | some (st, res) => if m.outDone x then m.settle x st res else m | none => m
    | none => m

/-- Writes that wait are issued, and what waited for them goes on. -/
def Mach.drainWrites (m : Mach) : Mach := m.issueAll.landed

/-- A data write of a descriptor, in page `i` of its output, has ended: the page has its new content with the last of its writes. -/
def Mach.dataAck (m : Mach) (d i : Nat) (ok : Bool) : Mach :=
  let more := (m.svc.wrs.map (·.owner) ++ m.svc.wrWait.map (·.owner)).any fun o =>
    match o with | .data _ _ _ e j => e = d && j = i | _ => false
  let m := m.onDtor d fun y => { y with acks := y.acks - 1, wrFailed := y.wrFailed || !ok
                                        failed := if ok then y.failed else i :: y.failed }
  (m.onDtor d fun y => if more || y.failed.contains i || y.opcode ≠ 0x26 then y else { y with n0 := y.n0 + 1 }).landed

/-! ## Data writes out of the part (R131, R293) -/

/-- Device-initiated requests for a range: at most 512 bytes each, none crossing a 512-byte boundary (R175; that data writes
are cut as reads are is DEDUCED, log 22).
(DEDUCED, log entry 22.) -/
def cutReads : Nat → Nat → Nat → List (Nat × Nat)
  | 0, _, _ => []
  | fuel + 1, a, len =>
    if len = 0 then []
    else
      let n := min len (512 - a % 512)
      (a, n) :: cutReads fuel (a + n) (len - n)

/-- Words written by descriptor `d` to an outside address, `n` bytes of them in page `i` of its output, in runs that are poisoned or
not (R293), each with the address its window is looked up for when it is issued (R257).
(DEDUCED, log entry 22.) -/
def Mach.writeOut (m : Mach) (d : Dtor) (i a n : Nat) (ws : List (Option Word)) : Mach :=
  m.each (runsOf 0 ws) fun m r =>
    let start := a + 32 * r.1
    let len := min (32 * r.2.1.length) (n - 32 * r.1)
    m.each (cutReads (len / 512 + 2) start len) fun m x =>
      let ws := (r.2.1.drop ((x.1 - start) / 32)).take ((x.2 + 31) / 32)
      (m.onDtor d.id fun y => { y with acks := y.acks + 1 }).postWrite
        ⟨d.fn / 16, some d.fn, .data d.fn d.q (m.queue d.fn d.q).inc d.id i, 0, x.1, x.2, ws, r.2.2, d.relax⟩

/-! ## Inputs (R129, R171, R175) -/

/-- The words an address range of `len` bytes touches, from the 32-byte boundary at or below it. -/
def wordsOf (a len : Nat) : Nat := (a % 32 + len + 31) / 32

/-- An input outside the part whose reads are still to be issued. -/
def newInput (ctl : Bool) (a len : Nat) : InBuf :=
  { ctl := ctl, addr := a, len := len, todo := cutReads (len / 512 + 2) a len }

/-- Reads of a descriptor outstanding. -/
def Dtor.outReads (d : Dtor) : Nat := (d.inp.map (·.out)).foldl (· + ·) 0

/-- Issues what may be issued of a descriptor's input reads: at most 16 outstanding, one tag each (R175), while
Bus Master Enable is 1 (R410) and the port may send. A read no window
holds any more is missing (R171). -/
def Mach.issueInputs (m : Mach) (d : Nat) : Nat → Mach
  | 0 => m
  | fuel + 1 =>
    match m.dtorAt d with
    | none => m
    | some x =>
      if 16 ≤ x.outReads || !m.bme x.fn || !m.uioOpen (x.fn / 16) then m
      else
        match x.inp.zipIdx.find? fun i => !i.1.todo.isEmpty with
        | none => m
        | some (i, n) =>
          match i.todo with
          | [] => m
          | (a, len) :: rest =>
            let upd (f : InBuf → InBuf) (m : Mach) : Mach := m.onDtor d fun y => { y with inp := y.inp.modify n f }
            match m.peerMatch (m.dtorPitch x) (x.fn / 16) a len with
            | none => Mach.issueInputs (upd (fun b => { b with todo := rest, bad := true }) m) d fuel
            | some (dpid, addr) =>
              match m.issueRead (x.fn / 16) (some x.fn) true dpid addr len x.relax (.input d n ((a / 32) - (i.addr / 32))) with
              | some m => Mach.issueInputs (upd (fun b => { b with todo := rest, out := b.out + 1 }) m) d fuel
              | none => m

/-- Every input of a descriptor has come. -/
def Dtor.inputsDone (d : Dtor) : Bool := d.inp.all fun i => i.todo.isEmpty && i.out = 0

/-- A control input that is poisoned or missing (R171). -/
def Dtor.ctlBad (d : Dtor) : Bool :=
  d.inp.any fun i => i.ctl && (i.bad || (List.range (wordsOf i.addr i.len)).any fun w =>
    match tfind i.words w with | some x => x.poison | none => true)

/-- A word of input `i`: none where poisoned or missing. -/
def Dtor.inWord (d : Dtor) (i w : Nat) : Option Word :=
  match d.inp[i]? with
  | some b => match tfind b.words w with | some x => if x.poison then none else some x.data | none => none
  | none => none

end Sys2Proof.Machine
end

