-- ==== Sys2Proof/Machine/Frames.lean ====
section
/-! DEFINITION. Pages in T0 and reads of frames: taking a T0 page (R49), writing lines (R40, R82, R293), the record slot of a
first write (R44), jobs that read a frame from T1 or T2 (R255, R267, R286), footfall (R54). -/

namespace Sys2Proof.Machine

/-! ## Moves -/

/-- A move planned for a page; a page has one move at most (R62: the first one placed stands). -/
def Mach.planMove (m : Mach) (r : Nat) (c : CRef) (k : MoveKind) (level : Nat) : Mach :=
  if (m.region r).moves.any fun v => v.cref = c then m
  else
    let id := m.nextId
    m.renumber.onRegion r fun g => { g with moves := g.moves ++ [{ id := id, region := r, cref := c, kind := k, level := level }] }

/-! ## Taking a T0 page (R49) -/

/-- T0 pages of region `r` charged to pitch `p`: landings and promotions under way hold theirs already. -/
def Mach.t0Charged (m : Mach) (r p : Nat) : Nat :=
  m.t0Pages r p + (m.mem.jobs.filter fun j => j.region = r && j.land.isSome && m.ownerOf j.cref = p).length
    + ((m.region r).moves.filter fun v => v.kind = .promT0 && v.phase ≠ .planned && m.ownerOf v.cref = p).length

/-- The better of two victims: a clean page before a dirty one, then the lower footfall (R49).
(DEDUCED, log entry 30.) -/
def t0Better (a b : Priv) : Bool := if a.dirty = b.dirty then decide (a.footfall < b.footfall) else !a.dirty

/-- The victim among the unlocked T0 copies of region `r` that `ok` admits; T0-PENDING pages never qualify (R44). -/
def Mach.t0Victim (m : Mach) (r : Nat) (ok : Priv → Bool) : Option (CRef × Priv) :=
  (m.contents r).foldl (fun b c =>
    if c.2.t0 && !c.2.lock && c.2.rec_ ≠ .none && ok c.2 then
      match b with
      | none => some c
      | some x => if t0Better c.2 x.2 then some c else b
    else b) none

/-- A victim gives its page up: a clean one at once, a dirty one by a demotion at the highest level, for which the taker
waits (R49, R58). -/
def Mach.t0Evict (m : Mach) (r : Nat) (v : CRef × Priv) : Mach × Option Nat :=
  if v.2.dirty then (m.planMove r v.1 .demote 7, none) else (m.dropT0 v.1, some v.2.t0slot)

/-- Region `r` takes a T0 page for pitch `p` (R49); none while the request must wait. -/
def Mach.takeT0 (m : Mach) (r p : Nat) : Mach × Option Nat :=
  if p = 0 then
    (if m.houseLeft r = 0 && m.freeT0 r = 0 then (m, none) else ((m.redraw), m.pickT0 r))
  else if m.t0Ceil r p ≤ m.t0Charged r p then
    match m.t0Victim r (fun d => d.cpitch = p) with
    | some v => m.t0Evict r v
    | none => (m, none)
  else if 0 < m.freeT0 r then (m.redraw, m.pickT0 r)
  else
    match m.t0Victim r (fun d => decide (m.t0Floor r d.cpitch < m.t0Pages r d.cpitch)) with
    | some v => m.t0Evict r v
    | none => (m, none)

/-! ## Lines -/

/-- A mask of the bytes whose enable is set. -/
def byteMask (be : BitVec 32) : Word :=
  (List.range 32).foldl (fun a b => if be.getLsbD b then a ||| (0xFF#256 <<< (8 * b)) else a) 0

/-- A word of a line after a write with byte enables: untouched words keep their contents, poisoned data stores the poison
marker, a word written only in part and held as poison stays poison (R52, R291, R293). -/
def writeWord (c : CWord) (be : BitVec 32) (d : Word) (poison : Bool) : CWord :=
  if be = 0 then c
  else if poison then .poison
  else if be = BitVec.allOnes 32 then encWord d
  else
    match readWord c with
    | none => .poison
    | some o => encWord ((o &&& ~~~byteMask be) ||| (d &&& byteMask be))

/-- The part's own codec of an extent that quantises what lands (R82). -/
def Attr.lossy (a : Attr) : Bool := a.codec = 3 || a.codec = 4

/-- The element format of the quantisation: VOILE's element or Tulle's. -/
def Attr.el (a : Attr) : FlFmt := if a.codec = 3 then velFl a.vel else fmtE2M1

/-- A line's two words as they land in an extent with these attributes (R82). -/
def landPair (a : Attr) (w0 w1 : CWord) : CWord × CWord :=
  if a.lossy then
    let (x, y) := landLine (efmtFl a.efmt) a.el (readWord w0) (readWord w1)
    ((x.map encWord).getD .poison, (y.map encWord).getD .poison)
  else (w0, w1)

/-- The words of a page as they land (R82). -/
def landWords (a : Attr) : List CWord → List CWord
  | w0 :: w1 :: t => let (x, y) := landPair a w0 w1; x :: y :: landWords a t
  | l => l

/-- The pattern a CONSTANT page of an extent with these attributes is held as (R82): one word of a line of it. -/
def Attr.pattern (a : Attr) (w : Word) : Word :=
  if a.lossy then (readWord (landPair a (encWord w) (encWord w)).1).getD 0 else w

/-- Words of T0 page `t` have been read: corrections are counted in the cell's bucket (R22, R294), flagged words in UECOUNT. -/
def Mach.countRead (m : Mach) (r t : Nat) (ws : List CWord) : Mach :=
  let n := (ws.filter isCorrected).length
  let m := m.when (0 < n) fun m => m.fillRegion r (m.t0Bucket r t) n
  m.countUe (ws.filter isFlagged).length

/-- The word is read before it is written: some of its bytes keep their contents. -/
def partWord (be : BitVec 32) (poison : Bool) : Bool := be ≠ 0 && be ≠ BitVec.allOnes 32 && !poison

/-- A line written into a T0 page: line `l` of T0 page `t` of region `r`, in a page of content `c`, for pitch `p`. -/
def Mach.writeLine (m : Mach) (r t p : Nat) (c : CRef) (dpa l : Nat) (data : Line) (be : BitVec 64) (poison : Bool) : Mach :=
  let w0 := writeWord (m.t0Word r t (2 * l)) (be.extractLsb' 0 32) (data.extractLsb' 0 256) poison
  let w1 := writeWord (m.t0Word r t (2 * l + 1)) (be.extractLsb' 32 32) (data.extractLsb' 256 256) poison
  let old := (if partWord (be.extractLsb' 0 32) poison then [m.t0Word r t (2 * l)] else [])
    ++ (if partWord (be.extractLsb' 32 32) poison then [m.t0Word r t (2 * l + 1)] else [])
  let (w0, w1) := landPair (m.attrOf c) w0 w1
  (m.countRead r t old).storeT0 r t p (dpa / 4096 * 4096) (2 * l) [w0, w1]

/-- A line read from a T0 page for pitch `p`: its words, corrections counted (R22, R281), one credit spent (Table 08.2). -/
def Mach.readLine (m : Mach) (r t p l : Nat) : Mach × CWord × CWord :=
  let w0 := m.t0Word r t (2 * l)
  let w1 := m.t0Word r t (2 * l + 1)
  let n := ([w0, w1].filter isCorrected).length
  ((m.chargeT0 r t p 1).when (0 < n) fun m => m.fillRegion r (m.t0Bucket r t) n, w0, w1)

/-- Flagged words of a content's T0 copy become poison there, counted, with one event for the page (R291). `data` names the
page in the event. -/
def Mach.markPoison (m : Mach) (c : CRef) (ws : List Nat) (data : Nat) : Mach :=
  match m.priv c with
  | some d =>
    let r := m.crefRegion c
    let bad := ws.filter fun w => d.t0 && isFlagged (m.t0Word r d.t0slot w)
    if bad.isEmpty then m
    else
      let m := (m.each bad fun m w => m.putT0 r d.t0slot w [.poison]).countUe bad.length
      m.when (!d.poisLogged) fun m =>
        (m.log 0x0302 (m.ownerOf c) 1 r [(64, data)]).onPriv c fun d => { d with poisLogged := true }
  | none => m

/-- The whole T0 copy of a content read for pitch `p` by a fold or a copy: flagged words become poison there (R291), corrected
words are counted and leave corrected (R22), 64 credits are spent. -/
def Mach.readT0 (m : Mach) (c : CRef) (p : Nat) : Mach × List CWord :=
  match m.priv c with
  | some d =>
    let r := m.crefRegion c
    let m := m.markPoison c (List.range 128) (crefData c)
    let ws := m.t0Words r d.t0slot
    ((m.countRead r d.t0slot ws).chargeT0 r d.t0slot p 64, ws.map passWord)
  | none => (m, List.replicate 128 .poison)

/-- The 64 bytes of a line from its two words, zero where poisoned, and the poison bit (R293). -/
def lineOf2 (w0 w1 : CWord) : Line × Bool :=
  (((readWord w1).getD 0) ++ ((readWord w0).getD 0), (readWord w0).isNone || (readWord w1).isNone)

/-! ## Footfall (R54) -/

/-- One access more to a content descriptor. -/
def Mach.foot (m : Mach) (c : CRef) : Mach := m.onPriv c fun d => { d with footfall := min 255 (d.footfall + 1) }

/-- One access more to a CONSTANT page. -/
def Mach.footConst (m : Mach) (pn : Nat) : Mach :=
  match m.desc pn with
  | .const cp f i => m.setDesc pn (.const cp (min 255 (f + 1)) i)
  | _ => m

/-! ## First writes (R44) -/

/-- A slot becomes PRIVATE with a T0 copy only, in a fresh record slot or T0-PENDING (R44): the T0 page is `t`, the access
came from pitch `cp`. -/
def Mach.newPage (m : Mach) (pn r t cp foot pver : Nat) : Mach :=
  let d : Priv := { cpitch := cp, footfall := foot, pver := pver, t0slot := t, t0 := true, dirty := true,
                    rec_ := m.pickRec r (m.ownerOf (.slot pn)) }
  (m.ownT0 r t (.slot pn)).setDesc pn (.priv d)

/-- FOOTFALL and PVER of a slot's own descriptor. -/
def Mach.footPver (m : Mach) (pn : Nat) : Nat × Nat :=
  match m.desc pn with
  | .priv d => (d.footfall, d.pver)
  | .const _ f _ => (f, 0)
  | _ => (0, 0)

/-- A whole-page write of slot `pn` (R40): its words land in T0 page `t`, old frames are freed at once, BAD is clear.
`foot` is 1 where the write counts as an access (R54). -/
def Mach.wholePage (m : Mach) (pn r t cp foot : Nat) (ws : List CWord) : Mach :=
  let a := m.attrOf (.slot pn)
  let (f, v) := m.footPver pn
  ((m.clearSlot pn).newPage pn r t cp (min 255 (f + foot)) v).storeT0 r t cp (pn * 4096) 0 (landWords a ws)

/-! ## Jobs: frames read from T1 or T2 -/

/-- The frame a page is read from: the newest one the region still reads (R50, R289, R408). -/
def Priv.newest (d : Priv) : Option Nat :=
  if d.t1len ≠ 0 then
    if !d.t1bad then some 1
    else if d.rec_ = .t2 && !d.t1dirty && d.t2len ≠ 0 && !d.t2bad then some 2
    else none
  else if d.t2len ≠ 0 && !d.t2bad then some 2
  else none

/-! ## Lanes of the codec block (R70) -/

/-- Fold lanes in service: 8, fewer by the steps of stage 2 of the power cap (Table 08.5). -/
def Mach.foldLimit (m : Mach) : Nat := 8 - m.sys.pc2
/-- Unfold lanes. -/
def unfoldLimit : Nat := 16

/-- An access queued on its channel (R267). -/
def Mach.pushAccess (m : Mach) (r : Nat) (a : Access) : Mach :=
  m.onChan r (secChan a.sector) fun c => { c with queue := c.queue ++ [a] }

/-- Far address of sector `s` of a job's frame: a slot of the window, or a descriptor page in the window's area (R43, R255). The
spec lays out neither the area nor a ninth sector there.
(DESIGN CHOICE, log entry 19.) -/
def secAddr (win : FarWin) (c : CRef) (t s : Nat) : Nat :=
  match c with
  | .desc _ _ => areaAddr win (8 * t + s)
  | _ => slotAddr win t s

/-- Job `j`, if it runs. -/
def Mach.jobAt (m : Mach) (j : Nat) : Option Job := m.mem.jobs.find? fun x => x.id = j

/-- Job `j` changed. -/
def Mach.onJob (m : Mach) (j : Nat) (f : Job → Job) : Mach := m.onMem fun x => { x with jobs := lmod x.jobs (fun y => y.id = j) f }

/-- The far reads a job has still to issue are issued while a tag is free (R252, R255). When no port of the window
qualifies, the frame completes at once with words missing. -/
def Mach.issueSectors (m : Mach) (j : Nat) : Mach :=
  match m.jobAt j with
  | none => m
  | some x =>
    match x.src with
    | [w, t] =>
      let win := winOf m.fam (m.region x.region).cfg.vals (m.ownerOf x.cref) w
      x.todo.foldl (fun m s =>
        match m.farPort win with
        | none => m.onJob j fun y => { y with missing := true, todo := [], left := 0 }
        | some k =>
          match m.issueRead k none false win.dpid (secAddr win x.cref t s) 512 true (.sector j s) with
          | some m' => m'.onJob j fun y => { y with todo := y.todo.erase s }
          | none => m) m
    | _ => m

/-- A frame read starts: one sector access, or one far read, for each of the frame's sectors (R255, R267).
(DEDUCED, log entry 36.) -/
def Mach.startJob (m : Mach) (c : CRef) (d : Priv) (tier : Nat) (demand : Bool) (users moves : List Nat) (land : Option Nat) :
    Mach :=
  let r := m.crefRegion c
  let id := m.nextId
  let m := m.renumber
  if tier = 1 then
    let l := m.frameSectors r d.t1addr d.t1len
    let job : Job := ⟨id, r, c, 1, d.t1len, d.t1codec, d.pver, l, [], l.length, [], [], false, demand, users, moves, land, []⟩
    let m := m.onMem fun x => { x with jobs := x.jobs ++ [job] }
    let pitch := if demand || !users.isEmpty then m.ownerOf c else d.cpitch
    m.each l.zipIdx fun m s => m.pushAccess r { sector := s.1, write := false, job := some (id, s.2), pitch := some pitch }
  else
    let l := List.range d.t2len
    let job : Job := ⟨id, r, c, 2, d.t2len, d.t2codec, d.pver, [d.t2win, d.t2slot], l, d.t2len, [], [], false, demand, users, moves, land, []⟩
    (m.onMem fun x => { x with jobs := x.jobs ++ [job] }).issueSectors id

/-- The running job that reads content `c`. -/
def Mach.jobOf (m : Mach) (c : CRef) : Option Job := m.mem.jobs.find? fun x => x.cref = c

/-! ## Descriptor pages (R33) -/

/-- The run that holds a line of descriptors is homed in T2: its pitch has a T2 floor (R32, R43); the pool never leaves T1 (R36). -/
def Mach.t2Run (m : Mach) (r line : Nat) : Bool :=
  decide (line < 2 ^ 46) && m.effN r (0x3000 + (m.extent (line * 4 / extentPages)).pitch) 7 ≠ 0

/-- The sector that holds a line of descriptors of a page that lies in T1: eight lines of four descriptors to a sector. -/
def Mach.lineSector (m : Mach) (r line : Nat) : Option Nat :=
  (tfind (m.region r).dplace (line / 64)).map fun a => (m.frameSectors r a 8).getD (line % 64 / 8) a

/-- An access of a sector of descriptors: it names no pitch (R272). -/
def descAccess (sector : Nat) (write : Bool) : Access := { sector := sector, write := write, desc := true }

/-- The descriptors' sector is being read. -/
def Mach.descReading (m : Mach) (r sector : Nat) : Bool :=
  (m.chan r (secChan sector)).queue.any fun a => a.desc && !a.write && a.sector = sector

/-- The number of a descriptor page within its extent's run of 1 MiB, the regions' parts one after the other.
(DESIGN CHOICE, log entry 19.) -/
def Mach.pageOrder (m : Mach) (r pg : Nat) : Nat :=
  if (m.extent (pg / 256)).confined then pg % 256 else r * (256 / regions m.fam) + pg % 256

/-- The frame of a T2-homed descriptor page is read: all its sectors are asked for together (R33). -/
def Mach.readDescPage (m : Mach) (r pg : Nat) : Mach :=
  match tfind (m.region r).dfar pg, (m.extent (pg / 256)).run, m.jobOf (.desc r pg) with
  | some (len, codec), some (w, mib), none =>
    let id := m.nextId
    let job : Job := ⟨id, r, .desc r pg, 2, len, codec, 0, [w, mib * 256 + m.pageOrder r pg], List.range len, len, [], [], false,
      false, [], [], none, []⟩
    (m.renumber.onMem fun x => { x with jobs := x.jobs ++ [job] }).issueSectors id
  | _, _, _ => m

/-- A miss of the page-map cache starts its fetch: a sector read in T1, or the read of the page's frame in T2 (R33). A page that was
never stored has nothing to be read. -/
def Mach.fetchLine (m : Mach) (r line : Nat) : Mach :=
  match m.lineSector r line with
  | some n => if m.descReading r n then m else m.pushAccess r (descAccess n false)
  | none => if m.t2Run r line then m.readDescPage r (line / 64) else m

/-- A demand on a page without a T0 copy joins the read of its newest frame, or starts it (R290). `land` is a T0 page taken
for the landing. -/
def Mach.readFrame (m : Mach) (c : CRef) (d : Priv) (land : Option Nat) (user : Option Nat) : Mach :=
  match m.jobOf c with
  | some j =>
    m.onJob j.id fun x =>
      { x with demand := x.demand || user.isNone, land := x.land.orElse fun _ => land
               users := match user with | some u => if x.users.contains u then x.users else x.users ++ [u] | none => x.users }
  | none =>
    match d.newest with
    | some tier => m.startJob c d tier user.isNone user.toList [] land
    | none => m

end Sys2Proof.Machine
end

