-- ==== Sys2Proof/Machine/Directory.lean ====
section
/-! DEFINITION. The coherence directory (R193 to R197, Tables 07.6 and 07.7): entries, snoops, recalls, allocation, and the
requests that wait for them. -/

namespace Sys2Proof.Machine

/-! ## Waiting requests -/

/-- The page of a request. -/
def Req.page (q : Req) : Nat := q.dpa / 4096
/-- The line number of a request (DPA div 64). -/
def Req.line (q : Req) : Nat := q.dpa / 64
/-- The request writes. -/
def Req.isWr (q : Req) : Bool := match q.kind with | .wr _ _ _ _ => true | _ => false

/-- The line a request misses and the region that holds it: that of its slot, else that of the pool entry its REF names (R33,
R37). -/
def Mach.missAt (m : Mach) (q : Req) : Nat × Nat :=
  let r := m.homeOf q.page
  if !m.pmHit r (m.pmLine q.page) then (r, m.pmLine q.page)
  else match m.desc q.page with | .ref pr e => (pr, poolLine e) | _ => (r, m.pmLine q.page)

/-- Inserts a wait in the order in which the requests reached their regions (R24). -/
def insWait (w : Wait) : List Wait → List Wait
  | [] => [w]
  | x :: t => if w.req.ord < x.req.ord then w :: x :: t else x :: insWait w t

/-- A request waits no more. -/
def Mach.unwait (m : Mach) (id : Nat) : Mach := m.onMem fun x => { x with waits := x.waits.filter fun w => w.req.id ≠ id }

/-- A request waits in region `r`. -/
def Mach.wait (m : Mach) (q : Req) (r : Nat) (why : Why) : Mach :=
  m.onMem fun x => { x with waits := insWait ⟨q, r, why⟩ (x.waits.filter fun w => w.req.id ≠ q.id) }

/-- A request waits for its line of descriptors, which is being fetched (R33). -/
def Mach.waitMiss (m : Mach) (q : Req) (r : Nat) : Mach :=
  let (pr, line) := m.missAt q
  (m.fetchLine pr line).wait q r .miss

/-! ## Entries -/

/-- The exclusive OR of the `n` lowest 11-bit groups of `x` (R193). -/
def xor11 : Nat → Nat → Nat
  | 0, _ => 0
  | n + 1, x => (x % 2048) ^^^ xor11 n (x / 2048)

/-- The directory set of a line. -/
def dirSet (line : Nat) : Nat := xor11 4 line

/-- Key of way `w` of set `s` of region `r`. -/
def dirKey (r s w : Nat) : Nat := r * 32768 + s * 16 + w

/-- An entry. -/
def Mach.dirAt (m : Mach) (r s w : Nat) : DirEnt := tget m.ext.dir {} (dirKey r s w)
/-- An entry written. -/
def Mach.dirPut (m : Mach) (r s w : Nat) (e : DirEnt) : Mach :=
  m.onExt fun x => { x with dir := tput x.dir {} (dirKey r s w) e }

/-- The way that holds a line in region `r`. -/
def Mach.dirWay (m : Mach) (r line : Nat) : Option Nat :=
  (List.range dirWays).find? fun w =>
    let e := m.dirAt r (dirSet line) w
    e.st ≠ .invalid && e.line = line

/-- The holders an entry names. -/
def DirEnt.holders (f : Fam) (e : DirEnt) : List Nat :=
  match e.st with
  | .invalid => []
  | .shared => (List.range (functions f)).filter e.sharers.getLsbD
  | .owned => [e.owner]

/-- An entry that no longer names a line. -/
def DirEnt.clear (e : DirEnt) : DirEnt := { rorder := e.rorder }

/-- Function `f` removed from an entry: INVALID when no holder remains. -/
def DirEnt.remove (e : DirEnt) (f : Nat) : DirEnt :=
  match e.st with
  | .invalid => e
  | .shared =>
    let s := e.sharers &&& ~~~(1#128 <<< f)
    if s = 0 then e.clear else { e with sharers := s }
  | .owned => if e.owner = f then e.clear else e

/-- Function `f` as a sharer beside the present holders. -/
def DirEnt.share (e : DirEnt) (f : Nat) : DirEnt :=
  match e.st with
  | .owned => { e with st := .shared, sharers := (1#128 <<< e.owner) ||| (1#128 <<< f), owner := 0 }
  | _ => { e with st := .shared, sharers := e.sharers ||| (1#128 <<< f) }

/-- Function `f` as the only holder, owning. -/
def DirEnt.own (e : DirEnt) (f : Nat) : DirEnt := { e with st := .owned, owner := f, sharers := 0 }

/-! ## Snoops -/

/-- A snoop sent to function `g`, unless one for the line is outstanding: a recall's BISnpInv then follows its answer (R194, R196). -/
def Mach.snoop (m : Mach) (r g line : Nat) (k : SnpKind) : Mach :=
  if m.ext.snoops.any fun s => s.region = r && s.fn = g && s.line = line then m
  else (m.onExt fun x => { x with snoops := x.snoops ++ [⟨r, line, g, k, m.cycle⟩] }).portSend (g / 16) (.snoop g k line)

/-- Snoops outstanding for a line. -/
def Mach.snooping (m : Mach) (r line : Nat) : Bool := m.ext.snoops.any fun s => s.region = r && s.line = line

/-- The snoop to function `g` for a line is answered or given up. -/
def Mach.unsnoop (m : Mach) (r g line : Nat) : Mach :=
  m.onExt fun x => { x with snoops := x.snoops.filter fun s => !(s.region = r && s.fn = g && s.line = line) }

/-- A recall of the entry in way `w` of set `s`: RECALL set, BISnpInv to every holder (R196). -/
def Mach.recallLine (m : Mach) (r s w : Nat) : Mach :=
  let e := m.dirAt r s w
  if e.recalling || e.st = .invalid then m
  else
    m.each (e.holders m.fam) (fun m g => m.snoop r g e.line .inv) |>.dirPut r s w { e with recalling := true }

/-- A recall goes on: BISnpInv to every holder that no snoop of the line is out to (R196). -/
def Mach.recallRest (m : Mach) (r line : Nat) : Mach :=
  match m.dirWay r line with
  | some w =>
    let e := m.dirAt r (dirSet line) w
    m.when e.recalling fun m => m.each (e.holders m.fam) fun m g => m.snoop r g line .inv
  | none => m

/-- Every entry of region `r` whose line satisfies `p` is recalled. -/
def Mach.recallLines (m : Mach) (r : Nat) (p : Nat → Bool) : Mach :=
  m.each (m.ext.dir.filter fun x => x.1 / 32768 = r && x.2.st ≠ .invalid && p x.2.line) fun m x =>
    m.recallLine r (x.1 % 32768 / 16) (x.1 % 16)

/-- Entries of region `r` whose line satisfies `p` are left. -/
def Mach.dirHolds (m : Mach) (r : Nat) (p : Nat → Bool) : Bool :=
  m.ext.dir.any fun x => x.1 / 32768 = r && x.2.st ≠ .invalid && p x.2.line

/-- A line lies in page `pn`. -/
def lineIn (base n : Nat) (line : Nat) : Bool := decide (base ≤ line / 64) && decide (line / 64 < base + n)

/-! ## Allocation (R195) -/

/-- The victim among the ways of a set with RECALL = 0: SHARED before OWNED, then the lowest RORDER. -/
def Mach.dirVictim (m : Mach) (r s : Nat) : Option Nat :=
  ((List.range dirWays).foldl (fun (b : Option (Nat × Bool × Nat)) w =>
    let e := m.dirAt r s w
    if e.recalling || e.st = .invalid then b
    else
      let k := (decide (e.st = .owned), e.rorder)
      match b with
      | none => some (w, k)
      | some (_, o, n) => if (!k.1 && o) || (k.1 = o && k.2 < n) then some (w, k) else b) none).map (·.1)

/-- RORDER after way `w` becomes the newest: it takes 15 and the ways above its old place move down. -/
def Mach.dirNewest (m : Mach) (r s w : Nat) : Mach :=
  let old := (m.dirAt r s w).rorder
  let m := m.each (List.range dirWays) fun m v =>
    let e := m.dirAt r s v
    m.when (v ≠ w && decide (old < e.rorder)) fun m => m.dirPut r s v { e with rorder := e.rorder - 1 }
  m.dirPut r s w { m.dirAt r s w with rorder := 15 }

/-- Recalls of set `s` begun and not yet ended. -/
def Mach.dirRecalls (m : Mach) (r s : Nat) : Nat := ((List.range dirWays).filter fun w => (m.dirAt r s w).recalling).length

/-- Other requests than `id` that wait for a way of set `s`. -/
def Mach.wayWaiters (m : Mach) (r s id : Nat) : Nat :=
  (m.mem.waits.filter fun w => w.region = r && w.why = .way && w.req.id ≠ id && dirSet w.req.line = s).length

/-- A new entry for a line as `set` makes it, or the way request `id` waits for: each waiting request has one victim recalled for
it (R195). -/
def Mach.dirAlloc (m : Mach) (r line pitch id : Nat) (set : DirEnt → DirEnt) : Mach × Bool :=
  let s := dirSet line
  match pickFree (fun w => (m.dirAt r s w).st ≠ .invalid) dirWays dirWays m.drawn with
  | some w =>
    let m := m.redraw.dirNewest r s w
    (m.dirPut r s w (set { (m.dirAt r s w) with pitch := pitch, line := line, sharers := 0, owner := 0 }), true)
  | none =>
    if m.wayWaiters r s id < m.dirRecalls r s then (m, false)
    else match m.dirVictim r s with
    | some w => ((m.recallLine r s w).count (0x8100 + r) 2 1, false)
    | none => (m, false)

/-! ## Table 07.7 -/

/-- What the directory makes of a request. -/
inductive DirOut where
  /-- it is served now -/
  | go (m : Mach) (q : Req)
  /-- it waits -/
  | wait (m : Mach) (q : Req) (why : Why)
  deriving DecidableEq, Repr

/-- A new or existing entry for the line of `q`, changed by `set`.
(DEDUCED, log entry 15.) -/
def Mach.dirGrant (m : Mach) (r : Nat) (q : Req) (set : DirEnt → DirEnt) : DirOut :=
  match m.dirWay r q.line with
  | some w => .go (m.dirPut r (dirSet q.line) w (set (m.dirAt r (dirSet q.line) w))) { q with dirDone := true }
  | none =>
    match m.dirAlloc r q.line (m.extent (extOf q.page)).pitch q.id set with
    | (m, true) => .go m { q with dirDone := true }
    | (m, false) => .wait m q .way

/-- Snoops to `gs`, for which the request waits; none: it goes on as `k` says.
(DEDUCED, log entry 15.) -/
def Mach.dirSnoop (m : Mach) (r : Nat) (q : Req) (gs : List Nat) (kind : SnpKind) (k : DirOut) : DirOut :=
  if gs.isEmpty then k else .wait (m.each gs fun m g => m.snoop r g q.line kind) { q with snooped := true } .line

/-- The directory settles a request to a line of a TRACKED extent (Table 07.7). An owner's own reads leave its entry as it is
(log entry 15). -/
def Mach.dirSettle (m : Mach) (r : Nat) (q : Req) : DirOut :=
  let s := dirSet q.line
  let w := m.dirWay r q.line
  let e := match w with | some w => m.dirAt r s w | none => {}
  let hs := e.holders m.fam
  let others := hs.filter (· ≠ q.fn)
  let busy := e.recalling || m.snooping r q.line
  let done := DirOut.go m { q with dirDone := true }
  let ownedBySelf := e.st = .owned && e.owner = q.fn
  let drop : DirOut :=
    match w with
    | some w => .go (m.dirPut r s w (e.remove q.fn)) { q with dirDone := true, wb := true }
    | none => done
  if q.dirDone || q.internal then .go m q
  else
    match q.kind with
    | .evict => if hs.contains q.fn then drop else done
    | .wr false _ _ _ =>
      if hs.contains q.fn then drop
      else if busy then .wait m q .line
      else m.dirSnoop r q others .inv done
    | .wr true _ _ _ =>
      if busy then .wait m q .line
      else if ownedBySelf then done
      else m.dirSnoop r q others .inv (m.dirGrant r q fun e => e.own q.fn)
    | .inv =>
      if busy then .wait m q .line
      else if ownedBySelf then done
      else m.dirSnoop r q others .inv (m.dirGrant r q fun e => e.own q.fn)
    | .rd .none =>
      if busy then .wait m q .line
      else if e.st = .owned && !ownedBySelf && !q.snooped then m.dirSnoop r q others .cur done
      else done
    | .rd .shared =>
      if busy then .wait m q .line
      else if ownedBySelf then done
      else if e.st = .owned && !q.snooped then m.dirSnoop r q others .data done
      else m.dirGrant r q fun e => e.share q.fn
    | .rd .own =>
      if busy then .wait m q .line
      else if ownedBySelf then done
      else m.dirSnoop r q others .inv (m.dirGrant r q fun e => e.own q.fn)

end Sys2Proof.Machine
end

