-- ==== Sys2Proof/Machine/Serve.lean ====
section
/-! DEFINITION. A region serves a CXL.mem request (R24, R27, R37, R50, R52, R96, R106, R109, R112, R115, R236, R237, R290,
R291, R380): one request served, and the waiting requests served again when what they wait for has come. -/

namespace Sys2Proof.Machine

/-! ## Sessions and views that hold a page -/

/-- Pages of a session's map area (R93). -/
def mapPages (npages : Nat) : Nat := 1 + 63 * ((npages + 1023) / 1024)

/-- The page lies in a range. -/
def inPages (base n pn : Nat) : Bool := decide (base ≤ pn) && decide (pn < base + n)

/-- The session whose working range holds a page: its key and record. -/
def Mach.sessWork (m : Mach) (pn : Nat) : Option (Nat × Session) :=
  m.sess.sess.find? fun x => x.2.st ≠ .free && inPages x.2.wbase x.2.npages pn
/-- The session whose map area holds a page. -/
def Mach.sessMap (m : Mach) (pn : Nat) : Option (Nat × Session) :=
  m.sess.sess.find? fun x => x.2.st ≠ .free && inPages x.2.mbase (mapPages x.2.npages) pn
/-- The view whose range holds a page. -/
def Mach.viewAt (m : Mach) (pn : Nat) : Option (Nat × View) :=
  m.sess.views.find? fun x => x.2.live && inPages x.2.base x.2.pages pn

/-- The handle of a session record or view record (R95). -/
def handleOf (gen key : Nat) : Nat := gen % 16384 * 2 ^ 18 + key

/-- The anchors of a parked session are lifted (R115). -/
def Mach.liftAnchors (m : Mach) (k : Nat) : Mach :=
  let l := (m.session k).anchored
  (m.each l fun m a =>
    match m.poolEnt a.1 a.2 with
    | some x => m.putPool a.1 a.2 { x with anchors := x.anchors - 1 }
    | none => m).onSession k fun s => { s with anchored := [] }

/-- A manifest is invalidated: its MAGIC is written as zero in the header sector (R115, Table 04.7).
(DEDUCED, log entry 68.) -/
def Mach.voidManifest (m : Mach) (k : Nat) : Mach :=
  let s := m.session k
  match s.pieces with
  | (w, a, _) :: _ =>
    let win := winOf m.fam (m.region (k / 16384)).cfg.vals s.pitch w
    match m.farPort win with
    | some port => m.renumber.postWrite ⟨port, none, .manifest m.nextId, win.dpid, areaAddr win a + 30, 2, [0], false, true⟩
    | none => m
  | [] => m

/-- A PARKED session becomes ACTIVE or RESUMING: its manifest is invalid, the manifest's space is free, the anchors are lifted
(R115, R116). -/
def Mach.unseal (m : Mach) (k : Nat) (st : SState) : Mach :=
  ((m.voidManifest k).liftAnchors k).onSession k fun s => { s with st := st, mvalid := false, pieces := [], mloc := 0, absent := [] }

/-- A write makes a PARKED session ACTIVE, and the event is logged (R115). -/
def Mach.unpark (m : Mach) (k : Nat) : Mach :=
  let s := m.session k
  (m.unseal k .active).log 0x0101 s.pitch 1 (k / 16384) [(32, handleOf s.gen k)]

/-! ## Responses -/

/-- A response leaves the hub of the function's port. -/
def Mach.respond (m : Mach) (q : Req) (k : RspKind) : Mach := if q.internal then m else m.portSend (q.fn / 16) (.rsp q.fn q.tag k)

/-- The completion that ends a request by its kind and its extent's coherence attribute (Table 09.8, R237). -/
def cmpOf (coh : Coh) (k : ReqKind) : RspKind :=
  match coh, k with
  | .uncached, _ => .cmp
  | .readShared, .rd _ => .cmpS
  | .readShared, .inv => .cmpS
  | .readShared, _ => .cmp
  | .tracked, .rd .none => .cmp
  | .tracked, .rd .shared => .cmpS
  | .tracked, .rd .own => .cmpE
  | .tracked, .inv => .cmpE
  | .tracked, _ => .cmp

/-- A request answered outside the data path (R178, R183, R258, R380): poison for a read, a write discarded, each completed
normally, no state granted. -/
def Mach.refuse (m : Mach) (q : Req) : Mach :=
  match q.kind with
  | .rd _ => (m.respond q (.memData 0 true)).respond q .cmp
  | _ => m.respond q .cmp

/-! ## Latency averages (R207) -/

/-- Region cycles (1 GHz) in a number of hub cycles. -/
def regCycles (n : Nat) : Nat := n / 2

/-- A moves toward x by a sixteenth of the difference, in units of 2^-16 region cycles. -/
def avgStep (a x : Nat) : Nat := if a ≤ x then a + (x - a) / 16 else a - (a - x) / 16

/-- The pitch's average of a class (0 load, 1 store, 2 service) after a completion of latency `n` hub cycles. -/
def Mach.measure (m : Mach) (r p cls n : Nat) : Mach :=
  m.onRegion r fun g => { g with avg := tput g.avg 0 (p * 3 + cls) (avgStep (tget g.avg 0 (p * 3 + cls)) (regCycles n * 65536)) }

/-- A request's latency is measured (R207). -/
def Mach.measureReq (m : Mach) (r : Nat) (q : Req) : Mach :=
  if q.internal then m else m.measure r (m.pitchOf q.fn) (if q.isWr then 1 else 0) (m.cycle - q.at_)

/-! ## Completing -/

/-- A read is answered with two words. -/
def Mach.answer (m : Mach) (r : Nat) (q : Req) (w0 w1 : CWord) : Mach :=
  let (l, p) := lineOf2 w0 w1
  ((m.respond q (.memData l p)).respond q (cmpOf (m.extent (extOf q.page)).coh q.kind)).measureReq r q

/-- A request without data is completed. -/
def Mach.complete (m : Mach) (r : Nat) (q : Req) : Mach :=
  (m.respond q (cmpOf (m.extent (extOf q.page)).coh q.kind)).measureReq r q

/-- A write is discarded and completes normally, counted in MAPWRITE (R96, R192). -/
def Mach.discard (m : Mach) (r : Nat) (q : Req) (p : Nat) : Mach := (m.count (0x8400 + p) 1 1).complete r q

/-! ## Content -/

/-- The words an unfold has just made of a content: what its waiting readers get. -/
abbrev Buf := Option (CRef × List CWord)

/-- Line number within the page. -/
def Req.lineIx (q : Req) : Nat := q.line % 64

/-- Data, enables and poison of a write. -/
def Req.wr (q : Req) : Line × BitVec 64 × Bool :=
  match q.kind with
  | .wr _ d be p => (d, be, p)
  | _ => (0, 0, false)

/-- The pitch whose access it is: the bound pitch, or the page's own for the part's own write-backs. -/
def Mach.reqPitch (m : Mach) (q : Req) : Nat :=
  let p := m.pitchOf q.fn
  if q.house then 0
  else if p = 0 then (m.extent (extOf q.page)).pitch else p

/-- The access counts in a page's footfall: a host's access does once, the part's own write-backs do not (R54). -/
def Req.counts (q : Req) : Bool := !q.counted && !q.internal

/-- A write lands in a page's T0 copy (Table 02.2, Table 02.4): a demotion out of T0 under way is dropped. -/
def Mach.hitWrite (m : Mach) (r : Nat) (q : Req) (c : CRef) (d : Priv) : Mach :=
  let m := m.when ((m.region r).moves.any fun v => v.cref = c && v.kind = .demote) fun m => m.dropMoves c
  let (dt, be, p) := q.wr
  ((m.writeLine r d.t0slot (m.reqPitch q) c q.dpa q.lineIx dt be p).onPriv c fun d => { d with dirty := true }).complete r q

/-- A write to a page without data of its own: a T0 page filled with `fill`, then the line (Table 02.2). -/
def Mach.freshWrite (m : Mach) (r : Nat) (q : Req) (fill : List CWord) : Mach :=
  let pn := q.page
  match m.takeT0 r (m.reqPitch q) with
  | (m, none) => m.wait q r .t0
  | (m, some t) =>
    let (f, v) := m.footPver pn
    let m := (m.clearSlot pn).putT0 r t 0 (landWords (m.attrOf (.slot pn)) fill)
    let m := m.newPage pn r t (m.reqPitch q) (min 255 (f + if q.counts then 1 else 0)) v
    let (dt, be, p) := q.wr
    (m.writeLine r t (m.reqPitch q) (.slot pn) q.dpa q.lineIx dt be p).complete r q

/-- A flagged word of a T0 copy (R291): a clean copy with a frame is dropped once that frame has been read; otherwise the
poison marker goes into the word and the event is logged once for the page. -/
def Mach.t0Flagged (m : Mach) (r : Nat) (q : Req) (c : CRef) (d : Priv) : Mach :=
  let mark (m : Mach) : Mach :=
    let m := m.markPoison c [2 * q.lineIx, 2 * q.lineIx + 1] (q.page * 4096)
    m.answer r q (m.t0Word r d.t0slot (2 * q.lineIx)) (m.t0Word r d.t0slot (2 * q.lineIx + 1))
  if d.dirty || d.newest.isNone then mark m
  else (m.readFrame c d none none).wait q r .frame

/-- A request to a page of PRIVATE content `c`, which region `r` holds. -/
def Mach.servePriv (m : Mach) (buf : Buf) (r : Nat) (q : Req) (c : CRef) (d : Priv) : Mach :=
  if q.isWr then
    if d.t0 then m.hitWrite r q c d
    else if (m.region r).moves.any fun v => v.cref = c && v.kind = .promT0 && v.phase ≠ .planned then m.wait q r .frame
    else
      match m.jobOf c, d.newest with
      | some j, some _ =>
        if j.land.isSome then m.wait q r .frame
        else
          match m.takeT0 r (m.reqPitch q) with
          | (m, none) => m.wait q r .t0
          | (m, some t) => ((m.ownT0 r t c).readFrame c d (some t) none).wait q r .frame
      | none, some _ =>
        match m.takeT0 r (m.reqPitch q) with
        | (m, none) => m.wait q r .t0
        | (m, some t) => ((m.ownT0 r t c).readFrame c d (some t) none).wait q r .frame
      | _, none =>
        match m.takeT0 r (m.reqPitch q) with
        | (m, none) => m.wait q r .t0
        | (m, some t) =>
          let m := ((m.ownT0 r t c).putT0 r t 0 (List.replicate 128 .poison)).setPriv c
            { d with t0 := true, t0slot := t, dirty := true, cpitch := m.reqPitch q }
          let (dt, be, p) := q.wr
          (m.writeLine r t (m.reqPitch q) c q.dpa q.lineIx dt be p).complete r q
  else if d.t0 then
    let (m, w0, w1) := m.readLine r d.t0slot (m.reqPitch q) q.lineIx
    if isFlagged w0 || isFlagged w1 then m.t0Flagged r q c d else m.answer r q w0 w1
  else
    match buf with
    | some (b, ws) =>
      if b = c then m.answer r q (ws.getD (2 * q.lineIx) .poison) (ws.getD (2 * q.lineIx + 1) .poison)
      else if d.newest.isNone then m.answer r q .poison .poison
      else (m.readFrame c d none none).wait q r .frame
    | none =>
      if d.newest.isNone then m.answer r q .poison .poison
      else (m.readFrame c d none none).wait q r .frame

/-- Copy-on-write of a REF slot with the content's words (R106): a whole-page write, the reference released, the line
written. -/
def Mach.cowLand (m : Mach) (r : Nat) (q : Req) (ws : List CWord) : Mach :=
  match m.takeT0 r (m.reqPitch q) with
  | (m, none) => m.wait q r .t0
  | (m, some t) =>
    let m := m.wholePage q.page r t (m.reqPitch q) (if q.counts then 1 else 0) ws
    let (dt, be, p) := q.wr
    (m.writeLine r t (m.reqPitch q) (.slot q.page) q.dpa q.lineIx dt be p).complete r q

/-- A content descriptor has moved from `c` to `c'`: whatever names it follows. -/
def Mach.moveCref (m : Mach) (c c' : CRef) : Mach :=
  let f (x : CRef) : CRef := if x = c then c' else x
  let m := m.onMem fun y =>
    { y with jobs := y.jobs.map fun j => { j with cref := f j.cref }
             t0own := y.t0own.map fun x => (x.1, x.2.map f)
             scratch := y.scratch.map fun x => (x.1, f x.2.1, x.2.2) }
  m.onRegion (m.crefRegion c) fun g =>
    { g with moves := g.moves.map fun v => { v with cref := f v.cref }, refold := g.refold.map fun v => (f v.1, v.2) }

/-- The content of pool entry `e` of region `r` moves into the slot `pn` that is its only reference, in the same region. -/
def Mach.takeOver (m : Mach) (pn r e : Nat) (x : PoolEnt) : Mach :=
  ((m.moveCref (.pool r e) (.slot pn)).onMem fun y => { y with pool := tdel y.pool (r * poolPerRegion + e) }).setDesc pn
    (.priv { x.c with shares := 0 })

/-- A slot may take its content over as it stands: its extent quantises as the content's did, or not at all (R82). -/
def Mach.sameLanding (m : Mach) (pn : Nat) (x : PoolEnt) : Bool :=
  let a := (m.extent (extOf pn)).attr
  !a.lossy || (a = x.attr)

/-- A write to a REF slot (R106, R381): an entry of a fenced region, or a lost one, reads as poison. -/
def Mach.serveCow (m : Mach) (buf : Buf) (r : Nat) (q : Req) (pr e : Nat) : Mach :=
  let c := CRef.pool pr e
  match (if (m.region pr).st = .serving then m.poolEnt pr e else none) with
  | none => m.cowLand r q (List.replicate 128 .poison)
  | some x =>
    if x.lost then m.cowLand r q (List.replicate 128 .poison)
    else if pr ≠ r && !q.forwarded then m.wait q r .fwd
    else if !m.pmHit pr (poolLine e) then m.waitMiss q r
    else if x.c.shares ≤ 1 && pr = r && x.anchors = 0 && m.sameLanding q.page x then
      let m := (m.takeOver q.page r e x).when q.counts fun m => m.foot (.slot q.page)
      let q := { q with counted := true }
      match m.priv (.slot q.page) with
      | some d => m.servePriv (match buf with | some (b, ws) => if b = c then some (.slot q.page, ws) else buf | none => none)
          r q (.slot q.page) d
      | none => m
    else if x.c.t0 then
      let (m, ws) := m.readT0 c (m.reqPitch q)
      m.cowLand r q ws
    else if x.c.newest.isNone then m.cowLand r q (List.replicate 128 .poison)
    else
      match buf with
      | some (b, ws) => if b = c then m.cowLand r q ws else (m.readFrame c x.c none none).wait q r .frame
      | none => (m.readFrame c x.c none none).wait q r .frame

/-- The words of a request to a page by its descriptor's form (Table 02.2). -/
def Mach.serveForm (m : Mach) (buf : Buf) (r : Nat) (q : Req) : Mach :=
  match m.desc q.page with
  | .unwritten =>
    if q.isWr then m.freshWrite r q (List.replicate 128 .poison) else m.answer r q .poison .poison
  | .const _ _ i =>
    let w := m.patWord r i
    if q.isWr then m.freshWrite r q (List.replicate 128 w)
    else (m.footConst q.page).answer r q w w
  | .priv d =>
    let first := !q.counted && !q.internal
    let m := m.when first fun m => m.foot (.slot q.page)
    m.servePriv buf r { q with counted := true } (.slot q.page) ((m.priv (.slot q.page)).getD d)
  | .ref pr e =>
    let c := CRef.pool pr e
    let first := !q.counted && !q.internal
    if q.isWr then
      m.serveCow buf r q pr e
    else if (m.region pr).st ≠ .serving then m.refuse q
    else if pr ≠ r && !q.forwarded then m.wait q r .fwd
    else if !m.pmHit pr (poolLine e) then m.waitMiss q r
    else
      match m.poolEnt pr e with
      | none => m.answer r q .poison .poison
      | some x =>
        if x.lost then m.answer r q .poison .poison
        else
          let m := (m.pmTouch pr (poolLine e) false).when first fun m => m.foot c
          m.servePriv buf pr { q with counted := true } c ((m.priv c).getD x.c)

/-- The handle of the session that an access to a page reaches: through its working range, or through one of its views. -/
def Mach.handleAt (m : Mach) (pn : Nat) : Option Nat :=
  match m.sessWork pn with
  | some (k, s) => some (handleOf s.gen k)
  | none => (m.viewAt pn).map fun v => v.2.sess

/-- Region `r` notes an access to a session, which it reports at its next bell (R118). -/
def Mach.noteAccess (m : Mach) (r pn : Nat) : Mach :=
  match m.handleAt pn with
  | some h => m.onRegion r fun g => if g.reports.contains h then g else { g with reports := g.reports ++ [h] }
  | none => m

/-- Requests without data of their own end once the directory has settled them. -/
def Mach.serveContent (m : Mach) (buf : Buf) (r : Nat) (q : Req) : Mach :=
  let pn := q.page
  let p := (m.extent (extOf pn)).pitch
  let m := m.when (!q.internal) fun m => m.noteAccess r pn
  match q.kind with
  | .inv => m.complete r q
  | .evict => m.complete r q
  | _ =>
    match (if q.house then none else m.sessMap pn) with
    | some _ => if q.isWr then m.discard r q p else m.answer r q .poison .poison
    | none =>
      match (if q.isWr then m.viewAt pn else none) with
      | some (k, v) =>
        let m := m.when (!v.wrote) fun m =>
          (m.log 0x0105 v.pitch 1 (k / 16384) [(32, handleOf v.gen k)]).onView k fun v => { v with wrote := true }
        m.complete r q
      | none =>
        if q.isWr && (m.extent (extOf pn)).coh = .readShared then m.discard r q p
        else if !m.pmHit r (m.pmLine pn) then m.waitMiss q r
        else (m.pmTouch r (m.pmLine pn) q.isWr).serveForm buf r q

/-- An earlier request for the line waits: R24. A holder's write-back goes before all but earlier write-backs (R194). A page on which
the house pitch has work to do takes no other request (R197). -/
def Mach.blocked (m : Mach) (q : Req) : Bool :=
  (m.mem.waits.any fun w =>
    w.req.line = q.line && w.req.id ≠ q.id
      && (if q.wb then w.req.wb && decide (w.req.ord < q.ord) else w.req.wb || decide (w.req.ord < q.ord)))
  || (!q.wb && m.mem.house.any fun h => h.pn = q.page)

/-- A write waits for its session to leave a state (Table 04.6), or first makes a PARKED session ACTIVE. Data written back for a
snoop, or by a holder, is applied at once: R194 gives it precedence; a holder's own write still ends the parking (R115). -/
def Mach.sessionGate (m : Mach) (q : Req) : Mach × Bool :=
  if !q.isWr || q.internal then (m, false)
  else if q.wb then
    match m.sessWork q.page with
    | some (k, s) => if s.st = .parked then (m.unpark k, false) else (m, false)
    | none => (m, false)
  else
    match m.sessWork q.page with
    | some (k, s) =>
      match s.st with
      | .freezing => (m, true)
      | .parking => (m, true)
      | .reattaching => (m, true)
      | .parked => (m.unpark k, false)
      | _ => (m, false)
    | none => (m, false)

/-- The region serves a request.
(DESIGN CHOICE, log entry 29.) -/
def Mach.serve (m : Mach) (buf : Buf) (q : Req) : Mach :=
  let r := m.homeOf q.page
  let m := m.unwait q.id
  if (m.region r).st ≠ .serving then m.refuse q
  else
    let settle (q : Req) : Mach :=
      match m.sessionGate q with
      | (m, true) => m.wait q r .session
      | (m, false) =>
        match (if (m.extent (extOf q.page)).coh = .tracked then m.dirSettle r q else .go m q) with
        | .wait m q why => m.wait q r why
        | .go m q => m.serveContent buf r q
    let isHolder : Bool :=
      (m.extent (extOf q.page)).coh = .tracked &&
        (match m.dirWay r q.line with
        | some w => ((m.dirAt r (dirSet q.line) w).holders m.fam).contains q.fn
        | none => false)
    let wb : Bool := q.wb || q.internal || (isHolder && (match q.kind with | .evict => true | .wr false _ _ _ => true | _ => false))
    let q := { q with wb := wb }
    if m.blocked q then m.wait q r .line else settle q

/-! ## Serving the waiting requests again -/

/-- The priority level of a waiting request (R208, R209). -/
def Mach.levelOf (m : Mach) (w : Wait) : Nat :=
  if w.req.aged then 7 else tget (m.region w.region).level 0 (m.pitchOf w.req.fn * 3 + (if w.req.isWr then 1 else 0))

/-- Inserts by falling level, keeping arrival order within a level. -/
def insLevel (x : Nat × Wait) : List (Nat × Wait) → List (Nat × Wait)
  | [] => [x]
  | y :: t => if y.1 < x.1 then x :: y :: t else y :: insLevel x t

/-- Requests served again in the given order, those that wait still. -/
def Mach.reserve (m : Mach) (buf : Buf) (ids : List Nat) : Mach :=
  m.each ids fun m id =>
    match m.mem.waits.find? fun w => w.req.id = id with
    | some w => m.serve buf w.req
    | none => m

/-- Some region holds a directory entry for a line of the pages. -/
def Mach.pagesCached (m : Mach) (base n : Nat) : Bool :=
  m.ext.dir.any fun x => x.2.st ≠ .invalid && lineIn base n x.2.line

/-- Every directory entry for a line of the pages is recalled. -/
def Mach.recallPages (m : Mach) (base n : Nat) : Mach :=
  m.each m.serving fun m r => m.recallLines r (lineIn base n)

/-- A line of a page written by the house pitch (R103). -/
def Mach.houseLine (m : Mach) (pn i : Nat) (ws : List Word) (d : Option Nat) : Mach :=
  m.renumber.serve none { id := m.nextId, fn := 0, tag := {}, kind := .wr false (ws.getD 1 0 ++ ws.getD 0 0) (BitVec.allOnes 64) false
                          dpa := pn * 4096 + 64 * i, at_ := m.cycle, internal := true, house := true, dtor := d }

/-- One piece of the house pitch's work tried: done (or its region has gone), or it waits on.
(DESIGN CHOICE, log entry 18.) -/
def Mach.houseOne (m : Mach) (h : House) : Mach :=
  let r := m.homeOf h.pn
  let keep (m : Mach) : Mach := m.onMem fun x => { x with house := x.house ++ [h] }
  if (m.region r).st ≠ .serving then m
  else if m.mem.house.any fun g => g.pn = h.pn then keep m
  else if m.pagesCached h.pn 1 then keep (m.recallPages h.pn 1)
  else
    match h.what with
    | .clear => m.clearSlot h.pn
    | .line i ws => m.houseLine h.pn i ws h.dtor
    | .page ws =>
      match m.takeT0 r 0 with
      | (m, some t) => m.wholePage h.pn r t 0 0 (ws.map encWord)
      | (m, none) => keep m

/-- The house pitch's work, oldest first, done where it can be. -/
def Mach.houseRun (m : Mach) : Mach := (m.onMem fun x => { x with house := [] }).each m.mem.house fun m h => m.houseOne h

/-- The waits of region `r` that `p` admits are served again, highest level first; then the house pitch's work goes on; then
requests that waited for their line or for a directory way.
(DESIGN CHOICE, log entry 29.) -/
def Mach.pump (m : Mach) (buf : Buf) (r : Nat) (p : Wait → Bool) : Mach :=
  let ws := (m.mem.waits.filter fun w => w.region = r && p w).foldl (fun l w => insLevel (m.levelOf w, w) l) []
  let m := (m.reserve buf (ws.map fun w => w.2.req.id)).houseRun
  let ls := (m.mem.waits.filter fun w => w.region = r && (w.why = .line || w.why = .way)).foldl
    (fun l w => insLevel (m.levelOf w, w) l) []
  (m.reserve none (ls.map fun w => w.2.req.id)).landed

/-- The waits for one reason. -/
def Mach.pumpFor (m : Mach) (r : Nat) (why : Why) : Mach := m.pump none r fun w => w.why = why

/-- The same in every region. -/
def Mach.pumpAll (m : Mach) (why : Why) : Mach := m.each (List.range (regions m.fam)) fun m r => m.pumpFor r why

end Sys2Proof.Machine
end

