-- ==== Sys2Proof/Machine/Jobs.lean ====
section
/-! DEFINITION. Frame reads come to an end: the page code (R286, R287), frames that cannot be repaired (R289), the unfold and
the landing (R35, R50, R68), the requests, moves and descriptors that waited. -/

namespace Sys2Proof.Machine

/-! ## Moves -/

/-- Move `v` of region `r`. -/
def Mach.moveAt (m : Mach) (r v : Nat) : Option Move := (m.region r).moves.find? fun x => x.id = v
/-- A move changed. -/
def Mach.onMove (m : Mach) (r v : Nat) (f : Move → Move) : Mach :=
  m.onRegion r fun g => { g with moves := lmod g.moves (fun x => x.id = v) f }

/-- A move is dropped: its destination is freed, LOCK clears, the descriptor stays as it was (R57, Table 02.4). -/
def Mach.abandon (m : Mach) (r : Nat) (v : Move) : Mach :=
  let m := m.when (v.dst = 1 && (v.phase = .writing || v.phase = .ready)) fun m => m.dropSectors r (m.frameSectors r v.addr v.len)
  let m := m.when (v.kind = .promT0 && v.phase ≠ .planned) fun m => m.freeT0Page r v.t0slot
  let m := m.when (v.phase ≠ .planned) fun m => m.onPriv v.cref fun d => { d with lock := false }
  m.onRegion r fun g => { g with moves := g.moves.filter fun x => x.id ≠ v.id }

/-! ## The page code on a frame that has come -/

/-- The pitch key that encrypts a pitch's frames (R357); zero stands where no key is held, which no far frame meets (R358). -/
def Mach.keyOf (m : Mach) (p : Nat) : BitVec 256 := (tget m.sec.keys none p).getD 0

/-- A key derived from pitch `p`'s key: HMAC-SM3 of a label and the pitch's byte (R356). -/
def Mach.derived (m : Mach) (p : Nat) (label : String) : BitVec 256 := Config.hmacSm3 (m.keyOf p) (ascii label ++ [BitVec.ofNat 8 p])

/-- K_data of a pitch: bytes 0 to 15 of its derivation (R356). -/
def Mach.dataKey (m : Mach) (p : Nat) : BitVec 128 := (m.derived p "FNC-T2-DATA").setWidth 128

/-- K_tweak of a pitch: bytes 0 to 15 of its derivation (R356). -/
def Mach.tweakKey (m : Mach) (p : Nat) : BitVec 128 := (m.derived p "FNC-T2-TWEAK").setWidth 128

/-- A sector of pitch `p` as it stands at far byte address `a`: the address is the tweak (R357). -/
def Mach.sealSector (m : Mach) (p a : Nat) (ws : List Word) : List Word := Config.xtsEnc (m.dataKey p) (m.tweakKey p) (BitVec.ofNat 128 a) ws

/-- A sector read at far byte address `a`, in clear (R357). -/
def Mach.openSector (m : Mach) (p a : Nat) (ws : List Word) : List Word := Config.xtsDec (m.dataKey p) (m.tweakKey p) (BitVec.ofNat 128 a) ws

/-- Words cut into sectors of 16. -/
def sectorsOf : Nat → List Word → List (List Word)
  | 0, _ => []
  | n + 1, l => l.take 16 :: sectorsOf n (l.drop 16)

/-- The words of a job's frame, missing and flagged ones as zero, decrypted if they came from T2 (R357). -/
def Mach.jobWords (m : Mach) (j : Job) : List Word :=
  let raw := (List.range (16 * j.len)).map fun w => (tget j.words .poison w).data
  if j.tier = 1 then raw
  else
    let p := m.ownerOf j.cref
    let win := winOf m.fam (m.region j.region).cfg.vals p (j.src.getD 0 0)
    ((sectorsOf j.len raw).zipIdx.map fun s => m.openSector p (secAddr win j.cref (j.src.getD 1 0) s.2) s.1).flatten

/-- The word numbers flagged under R286: flagged by the word code, poison, or missing. -/
def Job.flags (j : Job) : List Nat :=
  (List.range (16 * j.len)).filter fun w => j.flagged.contains w || (tfind j.words w).isNone

/-- The leaky bucket of the engine that settles a job's frame: a DRAM block's, or the codec block's for T2 (R287, R294). -/
def Job.engine (j : Job) : Nat := if j.tier = 1 then 560 + secDie (j.src.headD 0) else 562

/-- The job reads the frame its content's descriptor still names. -/
def Job.current (j : Job) (d : Priv) : Bool :=
  d.pver = j.pver &&
    (if j.tier = 1 then d.t1len = j.len && d.t1codec = j.codec && j.src.head? = some d.t1addr
    else d.t2len = j.len && d.t2codec = j.codec && j.src = [d.t2win, d.t2slot])

/-- The job reads a descriptor page. -/
def Job.isDesc (j : Job) : Bool := match j.cref with | .desc _ _ => true | _ => false

/-- The frame fields of a descriptor at a tier: codec and length. -/
def Priv.frameAt (d : Priv) (tier : Nat) : Nat × Nat := if tier = 1 then (d.t1codec, d.t1len) else (d.t2codec, d.t2len)

/-- A job ends: its landing page goes back unless it was used. -/
def Mach.closeJob (m : Mach) (j : Job) (landed : Bool) : Mach :=
  let m := m.when (!landed) fun m => match j.land with | some t => m.freeT0Page j.region t | none => m
  m.onMem fun x => { x with jobs := x.jobs.filter fun y => y.id ≠ j.id }

/-- The content a waiting request asks for. -/
def Mach.reqCref (m : Mach) (q : Req) : CRef := m.crefOf q.page

/-- The requests that wait for a frame of content `c` are served again, in every region. -/
def Mach.pumpCref (m : Mach) (buf : Buf) (c : CRef) : Mach :=
  m.each (List.range (regions m.fam)) fun m r => m.pump buf r fun w => w.why = .frame && m.reqCref w.req = c

/-- Tally work of descriptors gets a page's words in scratch (R130). -/
def Mach.giveUsers (m : Mach) (j : Job) (ws : List CWord) : Mach :=
  m.each j.users fun m d => m.keepWords d j.cref ws

/-- The moves that wait on a job are dropped. -/
def Mach.dropJobMoves (m : Mach) (j : Job) : Mach :=
  m.each j.moves fun m v => match m.moveAt j.region v with | some x => m.abandon j.region x | none => m

/-- A flagged word of a clean T0 copy whose frame cannot be read becomes poison there (R291). -/
def Mach.markFlagged (m : Mach) (c : CRef) : Mach := m.markPoison c (List.range 128) (crefData c)

/-- PAGE_BAD (R289 step 3): BAD is set, the frame is read no more, the event is logged. -/
def Mach.setBad (m : Mach) (c : CRef) (tier : Nat) : Mach :=
  let r := m.crefRegion c
  ((m.onPriv c fun d => { d with bad := true, t1bad := d.t1bad || tier = 1, t2bad := d.t2bad || tier = 2 }).log
    0x0301 (m.ownerOf c) 1 r [(64, crefData c)]).onCode fun x => { x with pagebad := satAdd (2 ^ 32 - 1) x.pagebad 1 }

/-- A frame's read ends without a frame: its queued accesses and the moves that waited for it are dropped. -/
def Mach.killJob (m : Mach) (j : Job) : Mach :=
  let m := m.dropJobMoves j
  let m := m.each (List.range 8) fun m c => m.onChan j.region c fun x =>
    { x with queue := x.queue.filter fun a => match a.job with | some y => y.1 ≠ j.id | none => true }
  m.closeJob j false

/-- The page of slot `k` of extent `e`'s run in region `r`. -/
def Mach.slotPage (m : Mach) (e r k : Nat) : Nat :=
  let n := regions m.fam
  if (m.extent e).confined then e * extentPages + k
  else ((List.range n).map fun j => e * extentPages + k * n + j).find? (fun pn => m.homeOf pn = r) |>.getD (e * extentPages + k * n)

/-- One descriptor of a lost page: PRIVATE with BAD, no frames and REC = T1; its record slot stays charged by count.
(DEDUCED, log entry 69.) -/
def Mach.loseDesc (m : Mach) (r : Nat) (pn : Nat) : Mach :=
  let e := extOf pn
  let lostPriv : Desc := .priv { bad := true, rec_ := .t1, lost := true }
  match m.desc pn with
  | .priv d =>
    let c := CRef.slot pn
    let m := match m.jobOf c with | some j => m.killJob j | none => m
    let m := ((m.dropMoves c).unrefold c).dropAll c
    let m := m.when (d.rec_ ≠ .none && !d.lost) fun m =>
      m.onRegion r fun g => { g with lostCharge := g.lostCharge ++ [(e, (m.extent e).pitch, d.rec_, 1)] }
    m.setDesc pn lostPriv
  | _ => m.setDesc pn lostPriv

/-- A shared-pool entry is lost: BAD with SHARES = 4,095, so that every reference reads poison until the next RESET_n (Table 11.4). -/
def Mach.losePoolEnt (m : Mach) (r e : Nat) : Mach :=
  if (m.poolEnt r e).isNone then m
  else
    let c := CRef.pool r e
    let m := match m.jobOf c with | some j => m.killJob j | none => m
    let m := ((m.dropMoves c).unrefold c).dropAll c
    match m.poolEnt r e with
    | some x => m.putPool r e { x with lost := true, c := { x.c with bad := true, shares := 4095, dirty := false } }
    | none => m

/-- The two descriptors that word `w` of a line holds are lost (R292, Table 11.4). -/
def Mach.loseWord (m : Mach) (r line w : Nat) : Mach :=
  m.each [2 * w, 2 * w + 1] fun m i =>
    if line < 2 ^ 46 then m.loseDesc r (m.slotPage (line * 4 / extentPages) r (line * 4 % extentPages + i))
    else m.losePoolEnt r ((line - 2 ^ 46) * 4 + i)

/-- The pages of a descriptor page whose descriptors the page-map cache does not hold. -/
def Mach.uncached (m : Mach) (r pg : Nat) : List Nat :=
  ((List.range (min 256 (extentPagesIn m.fam (m.extent (pg / 256)) r))).map fun i => m.slotPage (pg / 256) r (pg % 256 * 256 + i)).filter
    fun pn => !m.cached pn

/-- A descriptor page whose frame in T2 cannot be read: with words missing it is asked for again at the next miss; otherwise its
descriptors are lost as R292 states of a descriptor. -/
def Mach.loseDescFrame (m : Mach) (j : Job) (missing : Bool) : Mach :=
  match j.cref with
  | .desc r pg =>
    if missing then m
    else
      (m.each (m.uncached r pg) fun m pn => m.loseDesc r pn).onRegion r fun g => { g with dfar := tdel g.dfar pg }
  | _ => m

/-- The frame a job read is the page's no more (Table 02.4): those that wait ask again for the newest one. -/
def Mach.readAgain (m : Mach) (j : Job) : Mach :=
  let m := (m.dropJobMoves j).closeJob j false
  let m := match m.priv j.cref with
    | some d => m.each j.users fun m u =>
        if d.t0 then
          let (m, ws) := m.readT0 j.cref (m.ownerOf j.cref)
          m.keepWords u j.cref ws
        else match d.newest with
          | some _ => m.readFrame j.cref d none (some u)
          | none => m.keepWords u j.cref (List.replicate 128 .poison)
    | none => m.giveUsers j (List.replicate 128 .poison)
  m.pumpCref none j.cref

/-- A frame that is unrepairable (R289): its twin is read instead; or, when only words were missing, poison is served and the
descriptor stays; or the page is BAD. -/
def Mach.frameLost (m : Mach) (j : Job) (missing : Bool) : Mach :=
  let c := j.cref
  match m.priv c with
  | none => (m.closeJob j false).loseDescFrame j missing
  | some d =>
    let poison := List.replicate 128 CWord.poison
    if !j.current d then m.readAgain j
    else if j.tier = 1 && d.rec_ = .t2 && !d.t1dirty && d.t2len ≠ 0 && !d.t2bad then
      let m := m.onPriv c fun d => { d with t1bad := true }
      let m := m.onMem fun x => { x with jobs := x.jobs.filter fun y => y.id ≠ j.id }
      m.startJob c { d with t1bad := true } 2 j.demand j.users j.moves j.land
    else if missing then
      let m := (m.markFlagged c).giveUsers j poison
      ((m.dropJobMoves j).closeJob j false).pumpCref (some (c, poison)) c
    else
      let m := (m.markFlagged c).setBad c j.tier
      let m := (m.giveUsers j poison).dropJobMoves j
      (m.closeJob j false).pumpCref none c

/-- The page goes on the refold list of 256 entries, unless it is full (R288). -/
def Mach.refoldAdd (m : Mach) (j : Job) (f : List Word) : Mach :=
  m.onRegion j.region fun g =>
    if 256 ≤ g.refold.length || g.refold.any (fun x => x.1 = j.cref) then g
    else { g with refold := g.refold ++ [(j.cref, j.tier, f)] }

/-- A move that takes the frame as it stands: it needs no unfold. -/
def MoveKind.raw : MoveKind → Bool
  | .promT0 => false
  | .park _ => false
  | .reload => false
  | _ => true

/-- Moves that carry the frame unchanged have it now: their write is next. -/
def Mach.giveRaw (m : Mach) (j : Job) (f : List Word) : Mach :=
  m.each j.moves fun m v => m.onMove j.region v fun x => if x.kind.raw then { x with frame := f, phase := .folding } else x

/-- Whether a job still needs an unfold lane. -/
def Mach.needsUnfold (m : Mach) (j : Job) : Bool :=
  j.demand || !j.users.isEmpty || j.land.isSome || j.isDesc
    || j.moves.any fun v => match m.moveAt j.region v with | some x => !x.kind.raw | none => false

/-! ## Lanes of the codec block (R70, R206, R209) -/

/-- The pitch a job's work is done for: the content's owner, or the house where only moves and descriptors read. -/
def Mach.jobPitch (m : Mach) (j : Job) : Nat := if j.demand || !j.users.isEmpty then m.ownerOf j.cref else 0

/-- The region priority level of a job: the highest of those it is done for (R209). -/
def Mach.jobLevel (m : Mach) (j : Job) : Nat :=
  let ws := (m.mem.waits.filter fun w => w.why = .frame && m.reqCref w.req = j.cref).map m.levelOf
  let us := j.users.filterMap fun d => (m.svc.dtors.find? fun x => x.id = d).map fun x =>
    tget (m.region j.region).level 0 (m.pitchOf x.fn * 3 + 2)
  let vs := j.moves.filterMap fun v => (m.moveAt j.region v).map (·.level)
  (ws ++ us ++ vs).foldl max 0

/-- A kind of move whose page a fold lane folds. -/
def MoveKind.folds : MoveKind → Bool
  | .demote => true
  | .park _ => true
  | _ => false

/-- Jobs on unfold lanes of region `r` that still run. -/
def Mach.unfoldBusy (m : Mach) (r : Nat) : List Nat := (m.region r).unfoldLanes.filter fun i => (m.jobAt i).isSome

/-- Moves on fold lanes of region `r` that still fold. -/
def Mach.foldBusy (m : Mach) (r : Nat) : List Nat :=
  (m.region r).foldLanes.filter fun i => match m.moveAt r i with | some v => decide (v.phase = .folding) | none => false

/-- Jobs whose frame is settled and that wait for an unfold lane. -/
def Mach.unfoldQueue (m : Mach) (r : Nat) : List Job :=
  m.mem.jobs.filter fun j => j.region = r && !j.frame.isEmpty && m.needsUnfold j && !(m.unfoldBusy r).contains j.id

/-- Moves that wait for a fold lane. -/
def Mach.foldQueue (m : Mach) (r : Nat) : List Move :=
  (m.region r).moves.filter fun v => v.phase = .folding && v.kind.folds && !(m.foldBusy r).contains v.id

/-- Unfold lanes go to the jobs that wait, in the codec block's order: one page, one credit each. -/
def Mach.grantUnfold (m : Mach) (r : Nat) : Nat → Mach
  | 0 => m
  | n + 1 =>
    let q := m.unfoldQueue r
    if unfoldLimit ≤ (m.unfoldBusy r).length then m
    else
      let m := m.refillFor r 11 (q.map m.jobPitch)
      match m.pickBy r 11 (fun j => (m.jobPitch j, m.jobLevel j)) q with
      | some j =>
        Mach.grantUnfold ((m.charge r 11 (m.jobPitch j) 1).onRegion r fun g => { g with unfoldLanes := g.unfoldLanes ++ [j.id] }) r n
      | none => m

/-- Fold lanes go to the moves that wait, the house pitch's (R58). -/
def Mach.grantFold (m : Mach) (r : Nat) : Nat → Mach
  | 0 => m
  | n + 1 =>
    let q := m.foldQueue r
    if m.foldLimit ≤ (m.foldBusy r).length then m
    else
      let m := m.refillFor r 11 (q.map fun _ => 0)
      match m.pickBy r 11 (fun v => (0, v.level)) q with
      | some v => Mach.grantFold ((m.charge r 11 0 1).onRegion r fun g => { g with foldLanes := g.foldLanes ++ [v.id] }) r n
      | none => m

/-- Lanes of region `r` whose work has ended are free, and free lanes are granted. -/
def Mach.grantLanes (m : Mach) (r : Nat) : Mach :=
  let m := m.onRegion r fun g => { g with unfoldLanes := m.unfoldBusy r, foldLanes := m.foldBusy r }
  (m.grantUnfold r unfoldLimit).grantFold r 8

/-- The last sector of a frame has come: the page code settles it (R286, R287). -/
def Mach.frameIn (m : Mach) (id : Nat) : Mach :=
  match m.jobAt id with
  | none => m
  | some j =>
    if j.left ≠ 0 then m
    else
      let ok (m : Mach) (f : List Word) : Mach :=
        let m := (m.onJob id fun y => { y with frame := f }).giveRaw j f
        if m.needsUnfold j then m.grantLanes j.region else m.closeJob j false
      match repairFrame (m.jobWords j) j.flags with
      | .sound => ok m (m.jobWords j)
      | .repaired f => ok ((m.fillRegion j.region j.engine 1).refoldAdd j f) f
      | .unrepairable => m.frameLost j j.missing

/-! ## The unfold -/

/-- Whether a page read from a frame is kept in T0 (R50): the mode and threshold of the content's owner.
(DEDUCED, log entry 35.) -/
def Mach.installs (m : Mach) (c : CRef) (d : Priv) : Bool :=
  let r := m.crefRegion c
  let p := m.ownerOf c
  match m.tier r p 4 with
  | 1 => true
  | 2 => decide (m.tier r p 1 ≤ d.footfall)
  | _ => false

/-- The pitch whose access a landing is charged to: that of the first request that waits for the page, else the owner's.
(DEDUCED, log entry 35.) -/
def Mach.landPitch (m : Mach) (c : CRef) : Nat :=
  match m.mem.waits.find? fun w => w.why = .frame && m.reqCref w.req = c with
  | some w => m.reqPitch w.req
  | none => m.ownerOf c

/-- An unfolded page lands in T0 page `t` as a clean copy. -/
def Mach.landT0 (m : Mach) (c : CRef) (t cp : Nat) (ws : List CWord) : Mach :=
  let r := m.crefRegion c
  ((m.ownT0 r t c).storeT0 r t cp (crefData c) 0 ws).onPriv c fun d =>
    { d with t0 := true, t0slot := t, dirty := false, cpitch := cp, poisLogged := false }

/-- An unfolded page that is to be kept waits for a T0 page (R49, R50). -/
def Mach.keepLater (m : Mach) (c : CRef) (cp pver : Nat) (ws : List CWord) : Mach :=
  m.onMem fun x => { x with keeps := (x.keeps.filter fun k => k.1 ≠ c) ++ [(c, cp, pver, ws)] }

/-- The pages of region `r` that wait to be kept land where a T0 page can be had; those that have changed since are let go. -/
def Mach.landKeeps (m : Mach) (r : Nat) : Mach :=
  m.each (m.mem.keeps.filter fun k => m.crefRegion k.1 = r) fun m k =>
    let gone (m : Mach) : Mach := m.onMem fun x => { x with keeps := x.keeps.filter fun y => y.1 ≠ k.1 }
    match m.priv k.1 with
    | none => gone m
    | some d =>
      if d.t0 || d.pver ≠ k.2.2.1 || d.newest.isNone then gone m
      else
        match m.takeT0 r k.2.1 with
        | (m, some t) => gone (m.landT0 k.1 t k.2.1 k.2.2.2)
        | (m, none) => m

/-- The unfolded page reaches those who wait for it. -/
def Mach.unfolded (m : Mach) (j : Job) (ws : List CWord) : Mach :=
  let c := j.cref
  let m := match m.priv c with | some d => m.when (d.t0 && !d.dirty) fun m => m.dropT0 c | none => m
  let cp := m.landPitch c
  let (m, ws) := m.injLane j.region (((m.region j.region).unfoldLanes.idxOf? j.id).map (8 + ·)) (m.ownerOf c) (crefData c) ws
  let m := m.giveUsers j ws
  let m := m.each j.moves fun m v =>
    match m.moveAt j.region v with
    | some x =>
      match x.kind with
      | .promT0 => (m.storeT0 j.region x.t0slot (m.ownerOf c) (crefData c) 0 ws).onMove j.region v fun y => { y with phase := .ready }
      | .park _ => m.onMove j.region v fun y => { y with page := ws, phase := .folding }
      | .reload => m.onMove j.region v fun y => { y with frame := j.frame, phase := .folding }
      | _ => m
    | none => m
  let (m, landed) : Mach × Bool :=
    match j.land with
    | some t => (m.landT0 c t cp ws, true)
    | none =>
      match m.priv c with
      | some d =>
        if j.demand && !d.t0 && m.installs c d && !((m.region j.region).moves.any fun v => v.cref = c && v.kind = .promT0) then
          match m.takeT0 j.region cp with
          | (m, some t) => (m.landT0 c t cp ws, false)
          | (m, none) => (m.keepLater c cp d.pver ws, false)
        else (m, false)
      | none => (m, false)
  (m.closeJob j landed).pumpCref (some (c, ws)) c

end Sys2Proof.Machine
end

