-- ==== Sys2Proof/Machine/Moves.lean ====
section
/-! DEFINITION. Moves between tiers (R45, R47, R51, R57 to R62, R65 to R69, R86 to R91, R113, R114, R288, R405): MOVE_START,
FOLD_DONE and MOVE_COMPLETE, and slot loans. -/

namespace Sys2Proof.Machine

/-! ## Codec choice -/

/-- The codec a fold uses for an attribute under a profile (R88). -/
def resolveCodec (profile codec : Nat) : Nat := if codec = 0 then (if profile = 2 then 2 else 1) else codec

/-- The fold version of a codec for pitch `p` in region `r` (R86, R87). -/
def Mach.foldCfv (m : Mach) (r p codec : Nat) : Nat :=
  let c := bits (m.effN r (0x3000 + p) 0x12) (8 * codec + 7) (8 * codec)
  min c (cfvWritten codec)

/-- Codec of a content's fold: a pool entry's last frame's (R101), the extent's, or the park codec (R91). -/
def Mach.codecFor (m : Mach) (c : CRef) (d : Priv) (park : Bool) : Nat :=
  let r := m.crefRegion c
  let a := m.attrOf c
  let own :=
    match c with
    | .pool _ _ => if d.t1len ≠ 0 then d.t1codec else if d.t2len ≠ 0 then d.t2codec else resolveCodec (m.profile r) a.codec
    | .slot _ => resolveCodec (m.profile r) a.codec
    | .desc _ _ => 1
  if park then
    let p := m.ownerOf c
    let pc := m.regN r (0x3000 + p) 0x11
    let lossy := m.regN r (0x3000 + p) 0x10
    let allowed := lossy = 1 || (lossy = 2 && m.profile r = 2)
    if pc = 0 then own
    else if pc ≤ 2 then pc
    else if a.lossy && allowed then pc
    else own
  else own

/-- A folded page: `cfv` is the format version in force for the codec (R65 to R69, R86, R87). -/
def Mach.foldOf (m : Mach) (c : CRef) (d : Priv) (ws : List CWord) (park : Bool) : Frame :=
  let a := m.attrOf c
  let p := m.ownerOf c
  let codec := m.codecFor c d park
  foldPage codec (m.foldCfv (m.crefRegion c) p codec) a.efmt a.vel ((d.pver + 1) % 65536) p (BitVec.ofNat 32 m.drawn)
    (ws.map readWord)

/-! ## Starting (R58, R59, R61) -/

/-- The move's page has LOCK set and the move is in the given stage (R61). -/
def Mach.lockMove (m : Mach) (v : Move) (ph : MovePhase) (f : Move → Move) : Mach :=
  (m.onPriv v.cref fun d => { d with lock := true }).onMove v.region v.id fun x => f { x with phase := ph }

/-- The move waits for the frame of its page at `tier`: it joins a read under way of that tier or starts one. -/
def Mach.moveRead (m : Mach) (v : Move) (d : Priv) (tier : Nat) (f : Move → Move) : Mach :=
  let m := m.lockMove v .reading f
  match m.jobOf v.cref with
  | some j =>
    if j.tier = tier then
      if j.frame.isEmpty then m.onJob j.id fun x => { x with moves := x.moves ++ [v.id] }
      else (m.onJob j.id fun x => { x with moves := x.moves ++ [v.id] }).giveRaw { j with moves := [v.id] } j.frame
    else m.abandon v.region v
  | none => m.startJob v.cref d tier false [] [v.id] none

/-- What a promotion finds when it needs a T0 page. -/
inductive PageFor where
  /-- a page -/
  | got (m : Mach) (t : Nat)
  /-- a dirty victim is folded and written below first: the promotion waits -/
  | later (m : Mach)
  /-- the promotion leaves the plan (R59) -/
  | leave

/-- A promotion's T0 page (R49, R59): a victim gives its page up only if its footfall is at most half the candidate's. -/
def Mach.promT0Page (m : Mach) (r p foot : Nat) : PageFor :=
  let from_ (v : Option (CRef × Priv)) : PageFor :=
    match v with
    | some x =>
      if 2 * x.2.footfall ≤ foot then
        match m.t0Evict r x with
        | (m, some t) => .got m t
        | (m, none) => .later m
      else .leave
    | none => .leave
  if m.t0Ceil r p ≤ m.t0Charged r p then from_ (m.t0Victim r fun d => d.cpitch = p)
  else if 0 < m.freeT0 r then (match m.pickT0 r with | some t => .got m.redraw t | none => .leave)
  else from_ (m.t0Victim r fun d => decide (m.t0Floor r d.cpitch < m.t0Pages r d.cpitch))

/-- A PARK leaves the page with its T1 record: no T2 slot of the share is free (R45, R113). -/
def Mach.parkStays (m : Mach) (r : Nat) (d : Priv) (p : Nat) : Bool := d.rec_ = .t1 && m.t2RecFree r p = 0

/-- A planned move starts. -/
def Mach.startMove (m : Mach) (r : Nat) (v : Move) : Mach :=
  let drop := m.abandon r v
  match m.priv v.cref with
  | none => drop
  | some d =>
    if d.lock then m
    else
      match v.kind with
      | .demote =>
        if !d.t0 || d.rec_ = .none then drop
        else if d.dirty then m.lockMove v .folding id
        else m.lockMove v .ready id
      | .dropT1 =>
        if !d.t1Cache then drop
        else if d.t1dirty then (if d.t1bad then drop else m.moveRead v d 1 id)
        else m.lockMove v .ready id
      | .promT0 =>
        match d.newest with
        | none => drop
        | some tier =>
          if d.t0 then drop
          else
            match m.promT0Page r (m.ownerOf v.cref) d.footfall with
            | .leave => m.abandon r v
            | .later m => m
            | .got m t => (m.ownT0 r t v.cref).moveRead v d tier fun x => { x with t0slot := t }
      | .promT1 => if d.t1len ≠ 0 || d.t2len = 0 || d.t2bad then drop else m.moveRead v d 2 id
      | .resume _ => if d.t1len ≠ 0 || d.t2len = 0 || d.t2bad then drop else m.moveRead v d 2 id
      | .toT2 => if d.rec_ ≠ .t1 || d.t1len = 0 || d.t1bad || m.t2RecFree r (m.ownerOf v.cref) = 0 then drop else m.moveRead v d 1 id
      | .park _ =>
        if m.parkStays r d (m.ownerOf v.cref) && !(d.t0 && d.dirty) then m.lockMove v .ready id
        else if d.t0 && (d.dirty || d.bad) then
          let (m, ws) := m.readT0 v.cref 0
          m.lockMove v .folding fun x => { x with page := ws }
        else if d.rec_ = .t2 && d.t2len ≠ 0 && !d.t1dirty && !d.t2bad then m.lockMove v .ready id
        else
          match d.newest with
          | some tier => m.moveRead v d tier id
          | none => m.lockMove v .folding fun x => { x with page := List.replicate 128 .poison }
      | .reload => if d.t1len ≠ 0 || d.t2len = 0 || d.t2bad then drop else m.moveRead v d 2 id
      | .refold _ => m.lockMove v .folding id

/-- The planned moves of a region in the order they run: the highest level first, then plan order (R58). -/
def Mach.plannedMoves (m : Mach) (r : Nat) : List Move :=
  let l := (m.region r).moves.filter fun v => v.phase = .planned
  (l.filter fun v => v.level = 7) ++ l.filter fun v => v.level ≠ 7

/-- A planned move may start now (R58): its page is not locked, a lane of the kind it needs first is free, and a promotion does not
wait for a dirty page to leave T0. -/
def Mach.mayStart (m : Mach) (r : Nat) (v : Move) : Bool :=
  match m.priv v.cref with
  | none => true
  | some d =>
    !d.lock &&
      (match v.kind with
      | .demote => !d.dirty || decide ((m.foldBusy r).length < m.foldLimit)
      | .park _ => !d.t0 || decide ((m.foldBusy r).length < m.foldLimit)
      | .promT0 =>
        decide ((m.unfoldBusy r).length < unfoldLimit) &&
          (match m.promT0Page r (m.ownerOf v.cref) d.footfall with
          | .later m' => decide ((m'.region r).moves.length ≠ (m.region r).moves.length)
          | _ => true)
      | _ => true)

/-- Meaning of MOVE_START: the region starts the next move of its plan that lanes allow (R58, R61). -/
def execMoveStart (r : Nat) (s : State) : Host.Outcome State Fault Refusal :=
  s.app ((Instr.moveStart r).wf s.m.fam) <| Mach.dataRun fun m =>
    if (m.region r).st ≠ .serving || (m.region r).rolling then m
    else
      match (m.plannedMoves r).find? fun v => m.mayStart r v with
      | some v => (m.startMove r v).grantLanes r
      | none => m

/-! ## Writing the frame -/

/-- A frame queued for T1: sector writes of 16 words with their check fields (R266, R267), as an armed injection leaves it
(R296). -/
def Mach.writeT1 (m : Mach) (r : Nat) (v : Move) (a : Nat) (f : Frame) (pver : Nat) : Mach :=
  let l := m.frameSectors r a f.len
  let p := m.ownerOf v.cref
  let (m, ws) := m.injLane r ((m.region r).foldLanes.idxOf? v.id) p (crefData v.cref) (f.words.map encWord)
  let (m, ws) :=
    if m.injAt 1 r 0 (secChan a) p && (m.code.injKind = 5 || m.code.injKind = 6) then
      (m.injFire p (crefData v.cref),
        injFrame m.code.injKind (bits m.code.injPos.toNat 7 0) (bits m.code.injPos.toNat 23 16) ws)
    else (m, ws)
  let m := m.each l.zipIdx fun m s =>
    m.pushAccess r { sector := s.1, write := true, move := some v.id, pitch := (m.priv v.cref).map (·.cpitch),
                     words := (List.range 16).map fun i => (i, ws.getD (16 * s.2 + i) .poison) }
  m.onMove r v.id fun x =>
    { x with phase := .writing, dst := 1, addr := a, len := f.len, codec := f.codec, pver := pver, frame := f.words, acks := l.length }

/-- A frame sent to T2: each sector encrypted at its far address (R255, R357), a write of its own, with the words a
FAR_POISON injection names in poisoned pieces. No port that qualifies fails the write (R251, R255). -/
def Mach.writeT2 (m : Mach) (r : Nat) (v : Move) (w t : Nat) (f : Frame) (pver : Nat) : Mach :=
  let p := m.ownerOf v.cref
  let win := winOf m.fam (m.region r).cfg.vals p w
  match m.farPort win with
  | none => m.abandon r v
  | some k =>
    let (m, ws) := m.injLane r ((m.region r).foldLanes.idxOf? v.id) p (crefData v.cref) (f.words.map encWord)
    let fire := m.injAt 5 r 0 0 p && m.code.injKind = 7
    let m := m.when fire fun m => m.injFire p (slotAddr win t 0)
    let w0 := bits m.code.injPos.toNat 7 0
    let w1 := bits m.code.injPos.toNat 23 16
    let bad (i : Nat) : Bool := (readWord (ws.getD i .poison)).isNone
    let pieces := ((sectorsOf f.len (ws.map fun w => (readWord w).getD 0)).zipIdx.map fun s =>
      let c := m.sealSector p (slotAddr win t s.2) s.1
      let opts := c.zipIdx.map fun x =>
        let n := 16 * s.2 + x.2
        if (fire && (n = w0 || n = w1)) || bad n then none else some x.1
      (runsOf 0 opts).map fun q => (slotAddr win t s.2 + 32 * q.1, q.2.1, q.2.2)).flatten
    let m := m.onMove r v.id fun x =>
      { x with phase := .writing, dst := 2, win := w, slot := t, len := f.len, codec := f.codec, pver := pver, frame := f.words
               acks := pieces.length }
    m.each pieces fun m q => m.postWrite ⟨k, none, .frame r v.id, win.dpid, q.1, 32 * q.2.1.length, q.2.1, q.2.2, true⟩

/-- Sectors of cache copies that moves of region `r` are still writing to T1: those `ok` admits. -/
def Mach.writingT1 (m : Mach) (r : Nat) (ok : Move → Priv → Bool) : Nat :=
  ((m.region r).moves.filterMap fun v =>
    if v.dst = 1 && (v.phase = .writing || v.phase = .ready) then
      match m.priv v.cref with | some d => if d.rec_ ≠ .t1 && ok v d then some v.len else none | none => none
    else none).foldl (· + ·) 0

/-- Sectors that T1DIRTY copies may still take, demotions under way included (R47). -/
def Mach.dirtyRoom (m : Mach) (r : Nat) : Nat :=
  m.reserveOf r - m.cacheSectors r true - m.writingT1 r fun v _ => v.kind = .demote

/-- Sectors pitch `p` may still occupy in T1 under its ceiling share (R42). -/
def Mach.t1CeilRoom (m : Mach) (r p : Nat) : Nat :=
  8 * m.t1Ceil r p - m.t1Sect r p
    - m.writingT1 r fun v d => if v.kind = .demote then decide (d.cpitch = p) else decide (m.ownerOf v.cref = p)

/-- Region `r` lacks an owned slot of pitch `p` though its share has room: it asks for a loan (R405). -/
def Mach.askLoan (m : Mach) (r p : Nat) : Mach :=
  m.onRegion r fun g => if g.wantLoan.contains p then g else { g with wantLoan := g.wantLoan ++ [p] }

/-- A frame is written to T2 if a slot is free; otherwise the move waits and asks for a loan (R405). In the reattach period, and
without a key, no slot is free (R123, R358). -/
def Mach.toFar (m : Mach) (r : Nat) (v : Move) (f : Frame) (pver : Nat) : Mach :=
  let p := m.ownerOf v.cref
  if !m.hasKey p || m.inReattach r p then m
  else
    match m.takeT2 r p with
    | some (w, t) => m.writeT2 r v w t f pver
    | none => if m.recPages r p .t2 ≤ m.t2Share r p then m.askLoan r p else m

/-- Where a demoted dirty page goes (R51): its own T1 record, a dirty T1 copy, or T2. -/
def Mach.demoteTo (m : Mach) (r : Nat) (v : Move) (d : Priv) (f : Frame) (pver : Nat) : Mach :=
  if d.rec_ = .t1 then
    match m.takeT1 r f.len true with
    | some (m, a) => m.writeT1 r v a f pver
    | none => m
  else if f.len ≤ m.t1CeilRoom r d.cpitch && f.len ≤ m.dirtyRoom r then
    match m.takeT1 r f.len false with
    | some (m, a) => m.writeT1 r v a f pver
    | none => m.toFar r v f pver
  else m.toFar r v f pver

/-- The frame a move carries unchanged. -/
def Move.raw (v : Move) (d : Priv) (tier : Nat) : Frame := ⟨v.frame, (d.frameAt tier).2, (d.frameAt tier).1⟩

/-- Clean cache copies dropped for a promotion, `n` at most, until `s` sectors are free: the lowest footfall first, and only those
whose footfall is at most half the candidate's (R47, R59). -/
def Mach.reclaimFor (m : Mach) (r s foot : Nat) : Nat → Mach
  | 0 => m
  | n + 1 =>
    if s ≤ m.freeSectors r then m
    else match m.cleanVictim r with
      | some c =>
        if (match m.priv c with | some d => decide (2 * d.footfall ≤ foot) | none => false) then Mach.reclaimFor (m.dropT1 c) r s foot n
        else m
      | none => m

/-- A T1 place for a promoted frame (R59): free sectors, then those of clean copies of at most half its footfall; for a record
frame, when no clean copy is left, the refold reserve (R47). -/
def Mach.promT1Place (m : Mach) (r len foot : Nat) (record : Bool) : Option (Mach × Nat) :=
  let m' := m.reclaimFor r len foot len
  if len ≤ m'.freeSectors r then m'.takeT1 r len false
  else if record && (m'.cleanVictim r).isNone then m'.takeT1 r len true
  else none

/-- The page belongs to a PARKED session: anchored (R114). -/
def Mach.parked (m : Mach) (c : CRef) : Bool :=
  match c with
  | .slot pn =>
    (match m.sessWork pn with | some (_, s) => decide (s.st = .parked) | none => false)
      || (match m.sessMap pn with | some (_, s) => decide (s.st = .parked) | none => false)
  | .pool _ _ => false
  | .desc _ _ => false

/-- A fold lane, or the migration path of an unchanged frame, ends: the frame is written to its destination. -/
def Mach.folded (m : Mach) (r : Nat) (v : Move) (d : Priv) : Mach :=
  match v.kind with
  | .demote =>
    let (m, ws) := m.readT0 v.cref 0
    let f := m.foldOf v.cref d ws false
    m.redraw.demoteTo r v d f ((d.pver + 1) % 65536)
  | .park _ =>
    if m.parkStays r d (m.ownerOf v.cref) then
      match m.takeT1 r (m.foldOf v.cref d v.page false).len true with
      | some (m, a) => m.redraw.writeT1 r v a (m.foldOf v.cref d v.page false) ((d.pver + 1) % 65536)
      | none => m
    else m.redraw.toFar r v (m.foldOf v.cref d v.page true) ((d.pver + 1) % 65536)
  | .dropT1 => m.toFar r v (v.raw d 1) d.pver
  | .toT2 => m.toFar r v (v.raw d 1) d.pver
  | .promT1 =>
    let record := decide (0 < m.t1RecFree r (m.ownerOf v.cref)) && m.anchorsOf v.cref = 0 && !m.parked v.cref
    if !record && decide (m.t1CeilRoom r (m.ownerOf v.cref) < d.t2len) then m.abandon r v
    else
      match m.promT1Place r d.t2len d.footfall record with
      | some (m, a) => m.writeT1 r v a (v.raw d 2) d.pver
      | none => m.abandon r v
  | .resume _ =>
    let record := decide (0 < m.t1RecFree r (m.ownerOf v.cref)) && m.anchorsOf v.cref = 0 && !m.parked v.cref
    if !record && decide (m.t1CeilRoom r (m.ownerOf v.cref) < d.t2len) then m.abandon r v
    else
      match m.takeT1 r d.t2len record with
      | some (m, a) => m.writeT1 r v a (v.raw d 2) d.pver
      | none => m.abandon r v
  | .reload =>
    match m.takeT1 r d.t2len (d.rec_ = .t1) with
    | some (m, a) => m.writeT1 r v a (v.raw d 2) d.pver
    | none => m.abandon r v
  | .refold tier =>
    if tier = 1 then
      match m.takeT1 r d.t1len (d.rec_ = .t1) with
      | some (m, a) => m.writeT1 r v a (v.raw d 1) d.pver
      | none => m.abandon r v
    else m.writeT2 r v d.t2win d.t2slot (v.raw d 2) d.pver
  | .promT0 => m

/-- Meaning of FOLD_DONE: a fold lane ends with the page of a move (R51, R65 to R71, R76, R83 to R92, R285); a frame that moves
unchanged takes no lane. -/
def execFoldDone (r move : Nat) (s : State) : Host.Outcome State Fault Refusal :=
  s.app ((Instr.foldDone r move).wf s.m.fam) <| Mach.dataRun fun m =>
    let m := m.grantLanes r
    match m.moveAt r move with
    | some v =>
      if v.phase ≠ .folding || (m.region r).rolling || (v.kind.folds && !(m.foldBusy r).contains move) then m
      else
        match m.priv v.cref with
        | some d => (m.folded r v d).grantLanes r
        | none => (m.abandon r v).grantLanes r
    | none => m

/-- One of a move's writes has ended well: at the last, the frame stands. -/
def Mach.moveAck (m : Mach) (r v : Nat) : Mach :=
  m.onMove r v fun x => if x.acks ≤ 1 then { x with acks := 0, phase := .ready } else { x with acks := x.acks - 1 }

/-! ## Completing (R45, R51, R61) -/

/-- The descriptor takes a frame in T1. -/
def Priv.withT1 (d : Priv) (v : Move) : Priv :=
  { d with t1len := v.len, t1codec := v.codec, t1addr := v.addr, t1bad := false, pver := v.pver }
/-- The descriptor takes a frame in T2. -/
def Priv.withT2 (d : Priv) (v : Move) : Priv :=
  { d with t2len := v.len, t2codec := v.codec, t2win := v.win, t2slot := v.slot, t2bad := false, pver := v.pver }

/-- Sectors borrowed from the reserve are repaid as the region's frames and runs fit the record pool again (R47). -/
def Mach.repay (m : Mach) (r : Nat) : Mach :=
  let excess := m.runSectors r + m.t1InUse r - m.poolSectors r
  m.onRegion r fun g => { g with borrowed := min g.borrowed excess }

/-- A frame placed in T1: with the record, where its share has a free slot and the page is not anchored, else as a cache copy
(R45, R114, R116). -/
def Mach.promT1Effect (m : Mach) (r : Nat) (v : Move) : Mach :=
  let c := v.cref
  let p := m.ownerOf c
  let record := decide (0 < m.t1RecFree r p) && m.anchorsOf c = 0 && !m.parked c
  let m := m.onPriv c fun d => { (d.withT1 v) with t1dirty := false }
  if record then ((m.dropT2 c).onPriv c fun d => { d with rec_ := .t1 })
  else m.onPriv c fun d => { d with cpitch := if d.t0 then d.cpitch else p }

/-- The descriptor update of a move takes effect. -/
def Mach.moveEffect (m : Mach) (r : Nat) (v : Move) (d : Priv) : Mach :=
  let c := v.cref
  match v.kind with
  | .demote =>
    if v.dst = 0 then m.dropT0 c
    else if v.dst = 1 then
      (((m.unrefold c).dropT1 c).onPriv c fun d => { (d.withT1 v) with t1dirty := decide (d.rec_ = .t2), dirty := false }).dropT0 c
    else (((m.unrefold c).dropT1 c).dropT2 c |>.onPriv c fun d => { (d.withT2 v) with dirty := false }).dropT0 c
  | .dropT1 =>
    if v.dst = 0 then m.dropT1 c
    else if d.dirty then m
    else ((m.unrefold c).dropT2 c |>.onPriv c fun d => d.withT2 v).dropT1 c
  | .promT0 =>
    m.onPriv c fun d => { d with t0 := true, t0slot := v.t0slot, dirty := false, cpitch := m.ownerOf c, poisLogged := false }
  | .promT1 => m.promT1Effect r v
  | .resume _ => m.promT1Effect r v
  | .toT2 => ((m.unrefold c).onPriv c fun d => { (d.withT2 v) with rec_ := .t2, t1dirty := false }).dropT1 c
  | .park _ =>
    if d.rec_ = .t1 && v.dst ≠ 2 then
      (((m.unrefold c).when (v.dst = 1) fun m => (m.dropT1 c).onPriv c fun d => d.withT1 v).onPriv c fun d =>
        { d with footfall := 0, dirty := false }).dropT0 c
    else
      let m := (m.unrefold c).when (v.dst = 2) fun m => (m.dropT2 c).onPriv c fun d => d.withT2 v
      ((m.onPriv c fun d => { d with rec_ := .t2, footfall := 0, t1dirty := false, dirty := false }).dropT0 c).dropT1 c
  | .reload => m.onPriv c fun d => { (d.withT1 v) with t1dirty := false }
  | .refold tier =>
    let m := m.unrefold c
    if tier = 1 then
      let dirty := d.t1dirty
      (m.dropT1 c).onPriv c fun d => { (d.withT1 v) with t1dirty := dirty }
    else m.onPriv c fun d => d.withT2 v

/-- A session's PARK notes a page that it leaves with its T1 record (R113). -/
def Mach.parkCount (m : Mach) (v : Move) : Mach :=
  match v.kind with
  | .park h =>
    let t2 : Bool := match m.priv v.cref with | some d => decide (d.rec_ = .t2) | none => false
    m.onSession (h % 2 ^ 18) fun s =>
      if t2 || s.absent.contains v.cref then s else { s with absent := s.absent ++ [v.cref] }
  | _ => m

/-- Meaning of MOVE_COMPLETE: a move whose frame stands takes effect in the descriptor and LOCK clears (R45, R51, R61). -/
def execMoveComplete (r move : Nat) (s : State) : Host.Outcome State Fault Refusal :=
  s.app ((Instr.moveComplete r move).wf s.m.fam) <| Mach.dataRun fun m =>
    match m.moveAt r move with
    | some v =>
      if v.phase ≠ .ready || (m.region r).rolling then m
      else
        match m.priv v.cref with
        | some d =>
          let m := (m.moveEffect r v d).onRegion r fun g => { g with moves := g.moves.filter fun x => x.id ≠ v.id }
          let m := ((m.onPriv v.cref fun d => { d with lock := false }).parkCount v).repay r
          ((m.pumpCref none v.cref).pumpFor r .t0).landKeeps r
        | none => m.abandon r v
    | none => m

/-! ## Slot loans (R405) -/

/-- The lowest free slot of region `q` in pitch `p`'s windows. -/
def Mach.lendSlot (m : Mach) (q p : Nat) : Option (Nat × Nat) :=
  if m.t2Share q p - m.recPages q p .t2 < m.ownedFree q p then m.ownSlot q p else none

/-- Meaning of SLOT_LOAN_REQUEST: region `r` asks the other regions in ascending order for the loan of a free slot of pitch
`p`; the first that may lends one (R405). -/
def execSlotLoanRequest (r p : Nat) (s : State) : Host.Outcome State Fault Refusal :=
  s.app ((Instr.slotLoanRequest r p).wf s.m.fam) <| Mach.dataRun fun m =>
    if (m.region r).st ≠ .serving || !(m.region r).wantLoan.contains p then m
    else
      let others := (m.serving).filter (· ≠ r)
      match others.findSome? fun q => (m.lendSlot q p).map fun s => (q, s) with
      | some (q, w, t) =>
        (m.onRegion q fun g => { g with loans := g.loans ++ [(p, w, t, r)] }).onRegion r fun g =>
          { g with wantLoan := g.wantLoan.filter (· ≠ p), loans := g.loans ++ [(p, w, t, r)] }
      | none => m

end Sys2Proof.Machine
end

