-- ==== Sys2Proof/Machine/Ingress.lean ====
section
/-! DEFINITION. The hub's ingress (R28, R178, R183, R201 to R205, R241): decode, stray requests, tokens, admission. -/

namespace Sys2Proof.Machine

/-! ## Decode -/

/-- An address lies in a decoder's range. -/
def Decoder.has (d : Decoder) (a : Nat) : Bool := d.committed && decide (d.base ≤ a) && decide (a < d.base + d.size)

/-- The DPA of an HPA through function `f`'s decoders (R241): decoder 0's range begins at its skip, decoder 1's where decoder
0's ends, plus its own skip. -/
def Mach.decodeHpa (m : Mach) (f hpa : Nat) : Option Nat :=
  let x := m.fn f
  if x.dec0.has hpa then some (x.dec0.skip + (hpa - x.dec0.base))
  else if x.dec1.has hpa then some (x.dec0.skip + x.dec0.size + x.dec1.skip + (hpa - x.dec1.base))
  else none

/-- Function `f` holds extent `e`. -/
def Mach.granted (m : Mach) (f e : Nat) : Bool := (m.extent e).grant.getLsbD f

/-- Where a hub settles a request (R178, R183, R188). -/
inductive Settle where
  | stray | releasing | served
  deriving DecidableEq, Repr

/-- The hub settles a request of function `f` by its extent's entry. -/
def Mach.settleAt (m : Mach) (f dpa : Nat) : Settle :=
  let e := dpa / 4096 / extentPages
  let x := m.extent e
  if m.pitchOf f = 0 || (m.fn f).lease = .ending then .stray
  else
    match x.st with
    | .free => .stray
    | .adding => .stray
    | .active => if m.granted f e then .served else .stray
    | .releasing => if m.granted f e then .releasing else .stray

/-- The whole millisecond of the steward's count. -/
def Mach.msec (m : Mach) : Nat := m.usec / 1000

/-- The hub settles a stray request at decode: counted, one event per function and millisecond, answered at once; it counts as
one of the four admissions of its hub cycle (R178).
(DEDUCED, log entry 65.) -/
def Mach.stray (m : Mach) (q : Req) : Mach :=
  let m := (m.count (0x8300 + q.fn) 1 1).onHub (q.fn / 16) fun h => { h with admitted := h.admitted + 1 }
  let m := m.when ((m.fn q.fn).strayAt ≠ some m.msec) fun m =>
    (m.log 0x0004 (m.pitchOf q.fn) 4 q.fn [(8, q.fn), (64, q.dpa)]).onFn q.fn fun x => { x with strayAt := some m.msec }
  m.refuse q

/-! ## Tokens (R202, R203) -/

/-- One token in a bucket's units. -/
def oneTok : Nat := 65536

/-- The bucket holds a token. -/
def Bucket.has (b : Bucket) : Bool := decide (oneTok ≤ b.tok)
/-- A token taken. -/
def Bucket.take (b : Bucket) : Bucket := { b with tok := b.tok - oneTok }

/-- How pitch `p` is admitted at hub `h` now: under step 1, under step 2, or not (R204). -/
def Mach.tokenStep (m : Mach) (h p : Nat) : Option Nat :=
  let x := m.hub h
  if !(tget x.ceil {} p).has then none
  else if (tget x.guar {} p).has then some 1
  else if x.pool.has then some 2
  else none

/-- Pitch `p` takes its token at hub `h`. -/
def Mach.takeToken (m : Mach) (h p step : Nat) : Mach :=
  m.onHub h fun x =>
    let x := { x with ceil := tput x.ceil {} p (tget x.ceil {} p).take, admitted := x.admitted + 1 }
    if step = 1 then { x with guar := tput x.guar {} p (tget x.guar {} p).take, rrPitch := p }
    else { x with pool := x.pool.take }

/-! ## Admission (R204, R205) -/

/-- A list of numbers turned so that it starts after `k`. -/
def after (k : Nat) (l : List Nat) : List Nat := (l.filter fun x => decide (k < x)) ++ l.filter fun x => decide (x ≤ k)

/-- Functions of hub `h` bound to pitch `p`, in the order of their turn. -/
def Mach.fnTurn (m : Mach) (h p : Nat) : List Nat :=
  let l := (List.range 16).map (16 * h + ·) |>.filter fun f => m.pitchOf f = p
  let last := tget (m.hub h).rrFn 0 p
  if last = 0 then l else after (last - 1) l

/-- A descriptor fetch that is admitted together with the requests waiting (R204): the pitch and function it is for, slots it may
still read, and slots charged so far. -/
structure FetchOffer where
  /-- pitch -/
  pitch : Nat
  /-- function -/
  fn : Nat
  /-- slots that may still be charged -/
  left : Nat
  /-- slots charged -/
  got : Nat := 0
  deriving DecidableEq, Repr

/-- The fetch is among the heads of pitch `p`. -/
def FetchOffer.for (o : FetchOffer) (p : Nat) : Bool := o.pitch = p && o.left ≠ 0

/-- The pitches with a head waiting at hub `h`, rising: a request, or the fetch offered. -/
def Mach.waitingPitches (m : Mach) (h : Nat) (o : FetchOffer) : List Nat :=
  (List.range 64).filter fun p => o.for p || (m.port h).ingress.any fun q => m.pitchOf q.fn = p

/-- The oldest request of function `f` waiting at hub `h`. -/
def Mach.oldestOf (m : Mach) (h f : Nat) : Option Req := (m.port h).ingress.find? fun q => q.fn = f

/-- The head of pitch `p` at hub `h` is the fetch offered: one that has begun goes on; else the next function with something waiting
has no request, and the fetch is for it (the model's choice where a function has both: log entry 60).
(DESIGN CHOICE, log entry 100.) -/
def Mach.headIsFetch (m : Mach) (h p : Nat) (o : FetchOffer) : Bool :=
  o.for p && (o.got ≠ 0 ||
    (match (m.fnTurn h p).find? fun f => (m.oldestOf h f).isSome || f = o.fn with
    | some f => (m.oldestOf h f).isNone
    | none => false))

/-- The request at the head of pitch `p` at hub `h`: the oldest of the next function with one waiting. -/
def Mach.headOf (m : Mach) (h p : Nat) : Option Req := (m.fnTurn h p).findSome? fun f => m.oldestOf h f

/-- The weight of a pitch at a hub; the house pitch's is 64 (R206). -/
def Mach.weightAt (m : Mach) (h p : Nat) : Nat := if p = 0 then 64 else m.hubN h (0x3000 + p) 0x0C

/-- The pitch smooth weighted round-robin takes among `ps`, and the counts after (R204): the lower number wins a tie. -/
def wrrPick (w : Nat → Nat) (counts : Tab Int) (ps : List Nat) : Option (Nat × Tab Int) :=
  let counts := ps.foldl (fun c p => tput c 0 p (tget c 0 p + (w p : Int))) counts
  let total : Int := ps.foldl (fun n p => n + (w p : Int)) 0
  match ps.foldl (fun (b : Option Nat) p =>
      match b with
      | none => some p
      | some q => if tget counts 0 q < tget counts 0 p then some p else b) none with
  | some p => some (p, tput counts 0 p (tget counts 0 p - total))
  | none => none

/-- A request leaves the ingress buffer admitted: its token taken, counted, passed to its region (R204). A request whose extent
has changed meanwhile completes as a new one (R183). -/
def Mach.admitReq (m : Mach) (h p step : Nat) (q : Req) : Mach :=
  let m := m.onPort h fun x => { x with ingress := x.ingress.filter fun y => y.id ≠ q.id }
  let m := (m.takeToken h p step).onHub h fun x => { x with rrFn := tput x.rrFn 0 p (q.fn + 1) }
  let m := m.count (0x8400 + p) (if q.isWr then 4 else 3) 1
  m.renumber.serve none { q with at_ := m.cycle, ord := m.nextId }

/-- The head of pitch `p` is admitted under a step: a request goes to its region; a slot of a fetch is charged. -/
def Mach.admitHead (m : Mach) (h p step : Nat) (o : FetchOffer) : Option (Mach × FetchOffer) :=
  if m.headIsFetch h p o then
    some ((m.takeToken h p step).onHub h fun x => { x with rrFn := tput x.rrFn 0 p (o.fn + 1) },
      { o with left := o.left - 1, got := o.got + 1 })
  else (m.headOf h p).map fun q => (m.admitReq h p step q, o)

/-- One admission at hub `h`, if one is possible: step 1 in round-robin order, then step 2 in weighted order (R204). -/
def Mach.admitOne (m : Mach) (h : Nat) (o : FetchOffer) : Option (Mach × FetchOffer) :=
  if decide (4 ≤ (m.hub h).admitted) || !m.normal h || !m.ideOpen h then none
  else
    let ps := m.waitingPitches h o
    match (after (m.hub h).rrPitch ps).find? fun p => m.tokenStep h p = some 1 with
    | some p => m.admitHead h p 1 o
    | none =>
      match wrrPick (m.weightAt h) (m.hub h).wrr (ps.filter fun p => m.tokenStep h p = some 2) with
      | some (p, counts) => (m.onHub h fun x => { x with wrr := counts }).admitHead h p 2 o
      | none => none

/-- Admissions of one hub cycle: at most four (R204). -/
def Mach.admitWith (m : Mach) (h : Nat) (o : FetchOffer) : Nat → Mach × FetchOffer
  | 0 => (m, o)
  | n + 1 => match m.admitOne h o with | some (m', o') => Mach.admitWith m' h o' n | none => (m, o)

/-- Admissions where no fetch is offered. -/
def Mach.admitHeads (m : Mach) (h n : Nat) : Mach := (m.admitWith h ⟨0, 0, 0, 0⟩ n).1

/-- Requests that wait for a token at a hub and are no longer to be served there complete as new ones (R183, R188). -/
def Mach.flushIngress (m : Mach) : Mach :=
  m.each (List.range (hubs m.fam)) fun m h =>
    let out := (m.port h).ingress.filter fun q => m.settleAt q.fn q.dpa ≠ .served
    m.when (!out.isEmpty) fun m =>
      let m := m.onPort h fun x => { x with ingress := x.ingress.filter fun q => !(out.any fun y => y.id = q.id) }
      m.each out fun m q => if m.settleAt q.fn q.dpa = .stray then m.stray q else m.refuse q

/-- A request reaches the hub of function `f` (R28, R178, R204, R205). While the port is contained or its link is out of L0
nothing reaches it, and while its buffer is full the partner holds no credit to send.
(DEDUCED, log entry 39.) -/
def Mach.arrive (m : Mach) (f : Nat) (tag : HostTag) (hpa : Nat) (kind : ReqKind) : Mach :=
  let k := f / 16
  let p := m.port k
  if !m.memOpen k || 2048 ≤ p.ingress.length then m
  else
    let q : Req := { id := m.nextId, fn := f, tag := tag, kind := kind, dpa := 0, at_ := m.cycle }
    let m := m.renumber
    match m.decodeHpa f hpa with
    | none => m.stray q
    | some dpa =>
      let q := { q with dpa := dpa / 64 * 64 }
      match m.settleAt f dpa with
      | .stray => m.stray q
      | .releasing => m.refuse q
      | .served => (m.onPort k fun x => { x with ingress := x.ingress ++ [q] }).admitHeads k 4

end Sys2Proof.Machine
end

