-- ==== Sys2Proof/Machine/CxlMem.lean ====
section
/-! DEFINITION. The CXL.mem messages of Table 09.8 (R236, R237) and the region's own events on waiting requests: T0_PAGE_GRANT,
DESCRIPTOR_MISS_FILL, REF_FORWARD, REQUEST_AGE_ESCALATE. -/

namespace Sys2Proof.Machine

/-! ## Requests -/

/-- How a read's MetaValue treats the requester's copy. -/
def keepOf : MetaVal → Keep
  | .invalid => .none
  | .shared => .shared
  | .any => .own

/-- A message the part does not support is discarded and counted; a read among them completes with poison (R237). -/
def Mach.unsupported (m : Mach) (f opcode : Nat) (tag : HostTag) (isRead : Bool) : Mach :=
  let k := f / 16
  if !m.memOpen k then m
  else
    let m := m.count (0x8200 + k) 7 1
    let m := m.when ((m.fn f).protAt ≠ some m.msec) fun m =>
      (m.log 0x040A (m.pitchOf f) 4 f [(8, f), (8, opcode)]).onFn f fun x => { x with protAt := some m.msec }
    m.when isRead fun m => (m.portSend k (.rsp f tag (.memData 0 true))).portSend k (.rsp f tag .cmp)

/-- Opcode numbers under which the reserved MetaValue cases are logged: the standard's MemInv and MemWr. -/
def opMemInv : Nat := 0
/-- MemWr -/
def opMemWr : Nat := 1
/-- MemWrPtl -/
def opMemWrPtl : Nat := 2

/-- Meaning of MEMRD (R236): a line read.
(PRESUMED, log entry 38.) -/
def execMemrd (f : Nat) (mv : MetaVal) (hpa : BitVec 64) (tag : HostTag) (s : State) : Host.Outcome State Fault Refusal :=
  s.app ((Instr.memrd f mv hpa tag).wf s.m.fam) <| Mach.dataRun fun m => m.arrive f tag hpa.toNat (.rd (keepOf mv))

/-- Meaning of MEMRDDATA (R236): as MemRd with MetaValue Shared. -/
def execMemrddata (f : Nat) (hpa : BitVec 64) (tag : HostTag) (s : State) : Host.Outcome State Fault Refusal :=
  s.app ((Instr.memrddata f hpa tag).wf s.m.fam) <| Mach.dataRun fun m => m.arrive f tag hpa.toNat (.rd .shared)

/-- Meaning of MEMINV (R236): Any takes ownership without data, Invalid is a clean eviction; Shared is not named (R237). -/
def execMeminv (f : Nat) (mv : MetaVal) (hpa : BitVec 64) (tag : HostTag) (s : State) : Host.Outcome State Fault Refusal :=
  s.app ((Instr.meminv f mv hpa tag).wf s.m.fam) <| Mach.dataRun fun m =>
    match mv with
    | .any => m.arrive f tag hpa.toNat .inv
    | .invalid => m.arrive f tag hpa.toNat .evict
    | .shared => m.unsupported f opMemInv tag false

/-- Meaning of MEMCLNEVCT (R236): a clean eviction. -/
def execMemclnevct (f : Nat) (hpa : BitVec 64) (tag : HostTag) (s : State) : Host.Outcome State Fault Refusal :=
  s.app ((Instr.memclnevct f hpa tag).wf s.m.fam) <| Mach.dataRun fun m => m.arrive f tag hpa.toNat .evict

/-- Meaning of MEMWR (R236): Any keeps the writer's copy, Invalid drops it; Shared is not named (R237). -/
def execMemwr (f : Nat) (mv : MetaVal) (hpa : BitVec 64) (tag : HostTag) (data : Line) (poison : Bool) (s : State) :
    Host.Outcome State Fault Refusal :=
  s.app ((Instr.memwr f mv hpa tag data poison).wf s.m.fam) <| Mach.dataRun fun m =>
    match mv with
    | .any => m.arrive f tag hpa.toNat (.wr true data (BitVec.allOnes 64) poison)
    | .invalid => m.arrive f tag hpa.toNat (.wr false data (BitVec.allOnes 64) poison)
    | .shared => m.unsupported f opMemWr tag false

/-- Meaning of MEMWRPTL (R236): a partial-line write with byte enables. -/
def execMemwrptl (f : Nat) (mv : MetaVal) (hpa : BitVec 64) (tag : HostTag) (data : Line) (be : BitVec 64) (poison : Bool)
    (s : State) : Host.Outcome State Fault Refusal :=
  s.app ((Instr.memwrptl f mv hpa tag data be poison).wf s.m.fam) <| Mach.dataRun fun m =>
    match mv with
    | .any => m.arrive f tag hpa.toNat (.wr true data be poison)
    | .invalid => m.arrive f tag hpa.toNat (.wr false data be poison)
    | .shared => m.unsupported f opMemWrPtl tag false

/-- Meaning of MEMSPECRD (R236): discarded without a response. -/
def execMemspecrd (f : Nat) (hpa : BitVec 64) (s : State) : Host.Outcome State Fault Refusal :=
  s.app ((Instr.memspecrd f hpa).wf s.m.fam) id

/-- Meaning of BICONFLICT (R236): answered with BIConflictAck after every earlier message of the line, which has left. -/
def execBiconflict (f : Nat) (hpa : BitVec 64) (tag : HostTag) (s : State) : Host.Outcome State Fault Refusal :=
  s.app ((Instr.biconflict f hpa tag).wf s.m.fam) <| Mach.dataRun fun m =>
    if m.memOpen (f / 16) then m.portSend (f / 16) (.rsp f tag .biConflictAck) else m

/-- Meaning of UNSUPPORTED_MEM_MESSAGE (R230, R237). -/
def execUnsupportedMemMessage (f opcode : Nat) (isRead : Bool) (tag : HostTag) (s : State) : Host.Outcome State Fault Refusal :=
  s.app ((Instr.unsupportedMemMessage f opcode isRead tag).wf s.m.fam) <| Mach.dataRun fun m => m.unsupported f opcode tag isRead

/-! ## Answers to snoops (R194, R196) -/

/-- How an answer leaves the entry of its line. -/
inductive BiAns where
  | i | s | e
  deriving DecidableEq, Repr

/-- An entry after function `f` answers a snoop of a kind: BIRspI, and any answer to BISnpInv, removes the holder; BIRspS keeps it
as a sharer; BIRspE to BISnpCur leaves it owner. -/
def DirEnt.answered (e : DirEnt) (f : Nat) (k : SnpKind) (a : BiAns) : DirEnt :=
  match k, a with
  | .inv, _ => e.remove f
  | _, .i => e.remove f
  | .cur, .e => e
  | _, _ => if e.st = .owned && e.owner = f then { e with st := .shared, sharers := 1#128 <<< f, owner := 0 } else e

/-- Function `f` answers the snoop for a line in region `r`: data it writes back is applied, the entry follows, and what waited
goes on. -/
def Mach.biRsp (m : Mach) (f line : Nat) (a : BiAns) (wb : Option Line) : Mach :=
  match m.ext.snoops.find? fun s => s.fn = f && s.line = line with
  | none => m
  | some sn =>
    let r := sn.region
    let m := m.unsnoop r f line
    let m :=
      match m.dirWay r line with
      | some w =>
        let e := m.dirAt r (dirSet line) w
        (m.dirPut r (dirSet line) w (e.answered f sn.kind a)).recallRest r line
      | none => m
    let m :=
      match wb with
      | some d =>
        let q : Req := { id := m.nextId, fn := f, tag := {}, kind := .wr false d (BitVec.allOnes 64) false, dpa := line * 64,
                         at_ := m.cycle, ord := m.nextId, internal := true, wb := true }
        m.renumber.serve none q
      | none => m
    if m.snooping r line then m else m.pump none r fun w => w.why = .line || w.why = .way

/-- Meaning of BIRSPI (R196, R236). -/
def execBirspi (f line : Nat) (wb : Option Line) (s : State) : Host.Outcome State Fault Refusal :=
  s.app ((Instr.birspi f line wb).wf s.m.fam) <| Mach.dataRun fun m =>
    if m.memOpen (f / 16) then m.biRsp f line .i wb else m

/-- Meaning of BIRSPS (R194, R236). -/
def execBirsps (f line : Nat) (wb : Option Line) (s : State) : Host.Outcome State Fault Refusal :=
  s.app ((Instr.birsps f line wb).wf s.m.fam) <| Mach.dataRun fun m =>
    if m.memOpen (f / 16) then m.biRsp f line .s wb else m

/-- Meaning of BIRSPE (R236). -/
def execBirspe (f line : Nat) (wb : Option Line) (s : State) : Host.Outcome State Fault Refusal :=
  s.app ((Instr.birspe f line wb).wf s.m.fam) <| Mach.dataRun fun m =>
    if m.memOpen (f / 16) then m.biRsp f line .e wb else m

/-! ## The region's own events -/

/-- Meaning of T0_PAGE_GRANT (R27, R49, R50, R284): requests that wait for a T0 page of region `r` are served again, and unfolded
pages that are to be kept land. -/
def execT0PageGrant (r : Nat) (s : State) : Host.Outcome State Fault Refusal :=
  s.app ((Instr.t0PageGrant r).wf s.m.fam) <| Mach.dataRun fun m => (m.pumpFor r .t0).landKeeps r

/-- The set of the page-map cache a line falls in; its 16 ways are replaced least recently used (R33). -/
def pmcWays : Nat := 16

/-- A line's contents halved once as it is fetched (R55, the DECAY of a descriptor that was outside the cache).
(DEDUCED, log entry 34.) -/
def Mach.decayLine (m : Mach) (r line : Nat) : Mach :=
  if 2 ^ 46 ≤ line then
    m.each (List.range 4) fun m i =>
      m.onPriv (.pool r ((line - 2 ^ 46) * 4 + i)) fun d => { d with footfall := d.footfall / 2 }
  else
    m.each (List.range 4) fun m i =>
      let pn := m.slotPage (line * 4 / extentPages) r (line * 4 % extentPages + i)
      match m.desc pn with
      | .priv d => m.setDesc pn (.priv { d with footfall := d.footfall / 2 })
      | .const c f i => m.setDesc pn (.const c (f / 2) i)
      | _ => m

/-- Descriptor pages the T1 descriptor cache holds: 126,976, fewer with failed channels (R33, R278). -/
def Mach.dcacheSize (m : Mach) (r : Nat) : Nat := 126976 - 16384 * (8 - m.liveChans r)

/-- Descriptors the page-map cache holds beside the roots: 524,288 less one for every two mapped extents with pages here (R33). -/
def Mach.pmCap (m : Mach) (r : Nat) : Nat :=
  524288 - ((m.ext.exts.filter fun e => e.2.st ≠ .free && extentPagesIn m.fam e.2 r ≠ 0).length + 1) / 2

/-- The 256 descriptors of a descriptor page, two to a word. -/
def Mach.descWords (m : Mach) (r pg : Nat) : List Word :=
  let one (i : Nat) : Nat := (m.desc (m.slotPage (pg / 256) r (pg % 256 * 256 + i))).pack false
  (List.range 128).map fun w => BitVec.ofNat 256 (one (2 * w) + one (2 * w + 1) * 2 ^ 128)

/-- A modified page of a T2-homed run leaves the T1 descriptor cache: it is folded with Muslin at stride 1, encrypted and written to
its place in the window's area (R33, R92); without a port that qualifies it stays. -/
def Mach.writeBackPage (m : Mach) (r pg : Nat) : Option Mach :=
  match (m.extent (pg / 256)).run with
  | none => none
  | some (w, mib) =>
    let p := (m.extent (pg / 256)).pitch
    let win := winOf m.fam (m.region r).cfg.vals p w
    (m.farPort win).map fun k =>
      let f := foldPage 1 (m.foldCfv r p 1) 0 0 0 p (BitVec.ofNat 32 m.drawn) ((m.descWords r pg).map some)
      let m := m.redraw.each (sectorsOf f.len f.words).zipIdx fun m s =>
        let a := secAddr win (.desc r pg) (mib * 256 + m.pageOrder r pg) s.2
        m.postWrite ⟨k, none, .descPage, win.dpid, a, 512, m.sealSector p a s.1, false, true⟩
      m.onRegion r fun g => { g with dfar := tins g.dfar pg (f.len, f.codec) }

/-- The T1 descriptor cache gives up pages beyond its size, least recently used first; a modified one is written back first (R33). -/
def Mach.dcTrim (m : Mach) (r : Nat) : Nat → Mach
  | 0 => m
  | n + 1 =>
    match (m.region r).dcache with
    | l :: rest =>
      if rest.length < m.dcacheSize r then m
      else
        match (if l.dirty then m.writeBackPage r l.id else some m) with
        | some m => Mach.dcTrim ((m.unplacePage r l.id).onRegion r fun g => { g with dcache := rest }) r n
        | none => m
    | [] => m

/-- A page of a T2-homed run in the T1 descriptor cache, most recently used (R33). -/
def Mach.dcTouch (m : Mach) (r page : Nat) (dirty : Bool) : Mach :=
  let m := m.onRegion r fun g =>
    let was := g.dcache.any fun l => l.id = page && l.dirty
    { g with dcache := (g.dcache.filter fun l => l.id ≠ page) ++ [{ id := page, dirty := was || dirty }] }
  (m.placePage r page).dcTrim r 2

/-- A line leaves the page-map cache: a modified one goes back to its descriptor page in T1 (R33). -/
def Mach.pmEvict (m : Mach) (r : Nat) (l : PLine) : Mach :=
  let m := m.onRegion r fun g => { g with pmc := g.pmc.filter fun x => x.id ≠ l.id }
  m.when l.dirty fun m =>
    let m := m.when (m.t2Run r l.id) fun m => m.dcTouch r (l.id / 64) true
    match m.lineSector r l.id with
    | some n => m.pushAccess r (descAccess n true)
    | none => m

/-- The line enters region `r`'s page-map cache: a seventeenth of its set, or one beyond the cache's size, drops the least recently
used one; its descriptor page has its place in T1 from then on.
(DESIGN CHOICE, log entry 6.) -/
def Mach.pmInstall (m : Mach) (r line : Nat) : Mach :=
  if m.pmHit r line then m
  else
    let m := if m.t2Run r line then m.dcTouch r (line / 64) false else m.placePage r (line / 64)
    let mates := (m.region r).pmc.filter fun l => Config.pmcSet l.id = Config.pmcSet line
    let victim :=
      if pmcWays ≤ mates.length then mates.head?
      else if m.pmCap r < 4 * ((m.region r).pmc.length + 1) then mates.head?.orElse fun _ => (m.region r).pmc.head?
      else none
    let m := match victim with | some v => m.pmEvict r v | none => m
    (m.onRegion r fun g => { g with pmc := g.pmc ++ [{ id := line }] }).decayLine r line

/-- The line's descriptors are at hand: its page lies in T1 and no read of its sector is queued, or it was never stored (R33). -/
def Mach.lineAtHand (m : Mach) (r line : Nat) : Bool :=
  match m.lineSector r line with
  | some n => !m.descReading r n
  | none => !(m.t2Run r line && (tfind (m.region r).dfar (line / 64)).isSome)

/-- A line of four descriptors enters the page-map cache and the requests that waited for it are served (R33, R55). -/
def Mach.lineFilled (m : Mach) (r line : Nat) : Mach :=
  let ids := (m.mem.waits.filter fun w => w.why = .miss && m.missAt w.req = (r, line)).map (·.req.id)
  let rs := ((m.mem.waits.filter fun w => ids.contains w.req.id).map (·.region)).eraseDups
  m.pmInstall r line |>.each rs fun m q => m.pump none q fun w => ids.contains w.req.id

/-- Words of a line that its descriptor page in T1 gives flagged, bit by bit: a T2-homed page not modified since it was fetched is
dropped and fetched again; of any other the descriptors of the word are lost (R292, Table 11.4). -/
def Mach.lineFlagged (m : Mach) (r line : Nat) (bad : BitVec 2) : Mach :=
  let m := m.countUe (bit (bad.getLsbD 0) + bit (bad.getLsbD 1))
  if m.t2Run r line && !((m.region r).dcache.any fun l => l.id = line / 64 && l.dirty) && (tfind (m.region r).dfar (line / 64)).isSome then
    ((m.unplacePage r (line / 64)).onRegion r fun g => { g with dcache := g.dcache.filter fun l => l.id ≠ line / 64 }).fetchLine r line
  else (m.each ([0, 1].filter fun w => bad.getLsbD w) fun m w => m.loseWord r line w).lineFilled r line

/-- Meaning of DESCRIPTOR_MISS_FILL (R33, R55, R292): a line of four descriptors has been fetched into the page-map cache, and
the requests that waited for it are served. A line whose page is still to come from T2 is asked for again. The DRAM cells may
flag words of the line.
(DESIGN CHOICE, log entry 37.) -/
def execDescriptorMissFill (r : Nat) (l : LineRead) (s : State) : Host.Outcome State Fault Refusal :=
  s.app ((Instr.descriptorMissFill r l).wf s.m.fam) <| Mach.dataRun fun m =>
    if (m.region r).st ≠ .serving then m
    else if m.mem.waits.any fun w => w.why = .miss && m.missAt w.req = (r, l.line) then
      (if !m.lineAtHand r l.line then m.fetchLine r l.line
      else if l.bad ≠ 0 && (m.lineSector r l.line).isSome then m.lineFlagged r l.line l.bad
      else m.lineFilled r l.line)
    else m

/-- The unfolded descriptor page enters the T1 descriptor cache, and the lines that requests wait for the page-map cache (R33). -/
def Mach.descUnfolded (m : Mach) (j : Job) (r pg : Nat) : Mach :=
  let m := (m.closeJob j false).dcTouch r pg false
  let lines := (m.mem.waits.filterMap fun w =>
    let x := m.missAt w.req
    if w.why = .miss && x.1 = r && x.2 / 64 = pg then some x.2 else none).eraseDups
  m.each lines fun m l => m.lineFilled r l

/-- An unfold lane has ended with a job's frame: the page or the descriptor page, a frame that is no longer the page's, or one that
cannot be used (R35, R68, R289). -/
def Mach.unfoldJob (m : Mach) (j : Job) : Mach :=
  match j.cref, m.priv j.cref, unfoldFrame j.codec j.len j.pver (m.ownerOf j.cref) j.frame with
  | .desc r pg, _, .page _ => m.descUnfolded j r pg
  | _, some d, .page ws => if d.pver = j.pver && !(d.t0 && d.dirty) then m.unfolded j ws else m.readAgain j
  | _, none, .page _ => m.closeJob j false
  | _, _, .stale => m.frameLost j false
  | _, _, .malformed => m.frameLost j false

/-- Meaning of UNFOLD_DONE: an unfold lane ends with the frame of a job (R35, R50, R67, R68, R84, R85). A job whose far read
ended at once with every word missing is settled here (R255). -/
def execUnfoldDone (r job : Nat) (s : State) : Host.Outcome State Fault Refusal :=
  s.app ((Instr.unfoldDone r job).wf s.m.fam) <| Mach.dataRun fun m =>
    let m := m.grantLanes r
    match m.jobAt job with
    | none => m
    | some j =>
      if j.region ≠ r || j.left ≠ 0 || (m.region r).rolling then m
      else if j.frame.isEmpty then m.frameIn job
      else if !(m.unfoldBusy r).contains job then m
      else (m.unfoldJob j).grantLanes r

/-- Meaning of REF_FORWARD (R37): the request reaches the region of its REF's pool entry. -/
def execRefForward (req : Nat) (s : State) : Host.Outcome State Fault Refusal :=
  s.app ((Instr.refForward req).wf s.m.fam) <| Mach.dataRun fun m =>
    match m.mem.waits.find? fun w => w.req.id = req && w.why = .fwd with
    | some w => m.serve none { w.req with forwarded := true, at_ := m.cycle }
    | none => m

/-- Meaning of REQUEST_AGE_ESCALATE (R209): a request that has waited 64 µs in a region is served as level 7. -/
def execRequestAgeEscalate (r req : Nat) (s : State) : Host.Outcome State Fault Refusal :=
  s.app ((Instr.requestAgeEscalate r req).wf s.m.fam) <| Mach.dataRun fun m =>
    match m.mem.waits.find? fun w => w.req.id = req && w.region = r with
    | some w =>
      if m.cycle < w.req.at_ + us 64 then m
      else m.onMem fun x => { x with waits := lmod x.waits (fun y => y.req.id = req) fun y => { y with req := { y.req with aged := true } } }
    | none => m

/-! ## Priority levels (R208) -/

/-- The level of an average against a target in region cycles (R208): A in units of 2^-16. -/
def levelFor (a t : Nat) : Nat :=
  let t := t * 65536
  if t = 0 then 0
  else if 2 * a < t then 0
  else if a < t then min 7 (1 + 12 * (2 * a - t) / (2 * t))
  else 7

/-- The target object of a class: LDTGT, STTGT, SVTGT (Table 15.5). -/
def tgtSub (cls : Nat) : Nat := 0x0D + cls

/-- Region `r` sets the level of pitch `p`'s class `c` from its average against its target. -/
def Mach.setLevel (m : Mach) (r p c : Nat) : Mach :=
  m.onRegion r fun g =>
    { g with level := tput g.level 0 (p * 3 + c) (levelFor (tget g.avg 0 (p * 3 + c)) (m.regN r (0x3000 + p) (tgtSub c))) }

/-- The three levels of pitch `p` in region `r`. -/
def Mach.setLevels (m : Mach) (r p : Nat) : Mach := m.each (List.range 3) fun m c => m.setLevel r p c

/-- Meaning of PRIORITY_LEVEL_UPDATE (R208): every 256 region cycles each pitch's level of each class is set from A / T. A target
in ns is as many region cycles. -/
def execPriorityLevelUpdate (r : Nat) (s : State) : Host.Outcome State Fault Refusal :=
  s.app ((Instr.priorityLevelUpdate r).wf s.m.fam) <| Mach.dataRun fun m =>
    let g := m.region r
    if g.st ≠ .serving || m.cycle < g.levelAt + 512 then m
    else
      (m.each (List.range 63) fun m i => m.setLevels r (i + 1)).onRegion r fun g =>
        { g with levelAt := g.levelAt + 512 * ((m.cycle - g.levelAt) / 512) }

end Sys2Proof.Machine
end

