-- ==== Sys2Proof/Machine/Retire.lean ====
section
/-! DEFINITION. Range retirement (R199, R200, R382): tickets, acknowledgement, sweeps of block snoops. -/

namespace Sys2Proof.Machine

/-! ## Blocks of a retirement -/

/-- Page `j` of extent `e` among those homed in region `r`, in rising order. -/
def Mach.homedPage (m : Mach) (e r j : Nat) : Nat :=
  if (m.extent e).confined then e * extentPages + j
  else
    let n := regions m.fam
    let b := e * extentPages + j * n
    match (List.range n).find? fun i => stripe m.fam (b + i) = r with
    | some i => b + i
    | none => b

/-- The first line of block `i` of four lines among the pages of the extents `es` homed in region `r`. -/
def Mach.fenceBlock (m : Mach) (r : Nat) : List Nat → Nat → Option Nat
  | [], _ => none
  | e :: es, i =>
    let n := 16 * extentPagesIn m.fam (m.extent e) r
    if i < n then some (m.homedPage e r (i / 16) * 64 + 4 * (i % 16)) else Mach.fenceBlock m r es (i - n)

/-- The first line of block `i` of a retirement, if it has one (R200). -/
def Mach.ticketBlock (m : Mach) (t : Ticket) (i : Nat) : Option Nat :=
  match t.region with
  | some r => m.fenceBlock r t.exts i
  | none => if i < 16 * t.pages then some (t.base * 64 + 4 * i) else none

/-! ## Tickets -/

/-- The functions that hold some extent of a page range; one whose lease has ended owes nothing (R200). -/
def Mach.holdersOf (m : Mach) (base pages : Nat) : List Nat :=
  (List.range (functions m.fam)).filter fun f =>
    (m.fn f).lease ≠ .ending && m.ext.exts.any fun x => x.2.grant.getLsbD f && decide (x.1 * extentPages < base + pages) &&
      decide (base < (x.1 + 1) * extentPages)

/-- The lease term of a pitch in hub cycles (R186). -/
def Mach.leaseTerm (m : Mach) (p : Nat) : Nat := ms (m.cfgN (0x3000 + p) 0x13)

/-- The part holds 4,096 retirements (R199). -/
def Mach.ticketsFull (m : Mach) : Bool := decide (4096 ≤ m.ext.tickets.length)

/-- A retirement begins: numbered, owed by `owed`; with none owing it the range is free at once (R199). -/
def Mach.startTicket (m : Mach) (t : Ticket) : Mach :=
  m.onExt fun x =>
    { x with lastTicket := x.lastTicket + 1
             tickets := if t.owed.isEmpty then x.tickets else x.tickets ++ [{ t with num := x.lastTicket + 1, start := m.cycle }] }

/-- A page range is retired for the functions that hold it. -/
def Mach.retire (m : Mach) (base pages pitch : Nat) : Mach :=
  m.startTicket { num := 0, base := base, pages := pages, pitch := pitch, owed := m.holdersOf base pages, start := 0 }

/-- Ticket `n`, while some function owes it. -/
def Mach.ticketAt (m : Mach) (n : Nat) : Option Ticket := m.ext.tickets.find? fun t => t.num = n

/-- A ticket changed. -/
def Mach.onTicket (m : Mach) (n : Nat) (f : Ticket → Ticket) : Mach :=
  m.onExt fun x => { x with tickets := lmod x.tickets (fun t => t.num = n) f }

/-- Function `f` discharges the tickets that `p` admits; a ticket nobody owes is complete (R200). -/
def Mach.discharge (m : Mach) (f : Nat) (p : Ticket → Bool) : Mach :=
  m.onExt fun x =>
    { x with tickets := (lmod x.tickets p fun t =>
        { t with owed := t.owed.filter (· ≠ f), sweeps := t.sweeps.filter fun s => s.fn ≠ f }).filter fun t => !t.owed.isEmpty }

/-- RETIREPEND of function `f`: the oldest ticket it owes (Table 07.4). -/
def Mach.oldestOwed (m : Mach) (f : Nat) : Option Nat := (m.ext.tickets.find? fun t => t.owed.contains f).map (·.num)

/-- Meaning of RETIREACK (R200): function `f` acknowledges every ticket it owes up to the one written. -/
def execRetireack (f : Nat) (v : BitVec 64) (s : State) : Host.Outcome State Fault Refusal :=
  s.app ((Instr.retireack f v).wf s.m.fam) <| Mach.dataRun fun m =>
    if m.barOpen f then m.discharge f fun t => decide (t.num ≤ bits v.toNat 31 0) else m

/-! ## Sweeps -/

/-- Block snoops that port `k` may still send in this microsecond: 64 in each (R200).
(DEDUCED, log entry 17.) -/
def Mach.blockRoom (m : Mach) (k : Nat) : Nat :=
  64 - (if (m.port k).blkUs = m.usec then (m.port k).blkSent else 0)

/-- A block snoop of port `k` is counted. -/
def Mach.blockOut (m : Mach) (k : Nat) : Mach :=
  m.onPort k fun p => { p with blkUs := m.usec, blkSent := if p.blkUs = m.usec then p.blkSent + 1 else 1 }

/-- Block snoops of the sweeps of port `k`'s functions go out in ticket order while the port may send (R200).
(DEDUCED, log entry 17.) -/
def Mach.sendBlocks (m : Mach) (k : Nat) : Nat → Mach
  | 0 => m
  | fuel + 1 =>
    if m.blockRoom k = 0 then m
    else
      match m.ext.tickets.findSome? fun t =>
          t.sweeps.findSome? fun s => if s.fn / 16 = k then (m.ticketBlock t s.next).map fun l => (t.num, s.fn, l) else none with
      | some (n, f, line) =>
        let m := (m.blockOut k).onTicket n fun t =>
          { t with sweeps := lmod t.sweeps (fun s => s.fn = f) fun s => { s with next := s.next + 1, sent := s.sent ++ [(line, m.cycle)] } }
        Mach.sendBlocks (m.portSend k (.snoopBlk f line)) k fuel
      | none => m

/-- Meaning of RETIREMENT_SWEEP_START (R200): function `f` has not acknowledged within 1 ms and is swept. -/
def execRetirementSweepStart (ticket f : Nat) (s : State) : Host.Outcome State Fault Refusal :=
  s.app ((Instr.retirementSweepStart ticket f).wf s.m.fam) <| Mach.dataRun fun m =>
    match m.ticketAt ticket with
    | some t =>
      if !t.owed.contains f || t.sweeps.any (fun s => s.fn = f) || m.cycle ≤ t.start + ms 1 then m
      else (m.onTicket ticket fun t => { t with sweeps := t.sweeps ++ [⟨f, 0, []⟩] }).sendBlocks (f / 16) 64
    | none => m

/-- Meaning of BIRSPIBLK (R199, R200, R236): function `f` answers a block snoop; the sweep goes on, or discharges the
retirement. -/
def execBirspiblk (f line : Nat) (s : State) : Host.Outcome State Fault Refusal :=
  s.app ((Instr.birspiblk f line).wf s.m.fam) <| Mach.dataRun fun m =>
    match m.ext.tickets.find? fun t => m.memOpen (f / 16) && t.sweeps.any fun s => s.fn = f && s.sent.any fun x => x.1 = line with
    | none => m
    | some t =>
      let m := (m.onTicket t.num fun t =>
        { t with sweeps := lmod t.sweeps (fun s => s.fn = f) fun s => { s with sent := s.sent.filter fun x => x.1 ≠ line } }).sendBlocks (f / 16) 64
      match m.ticketAt t.num with
      | some t' =>
        if t'.sweeps.any fun s => s.fn = f && s.sent.isEmpty && (m.ticketBlock t' s.next).isNone then
          (m.discharge f fun x => x.num = t.num).sendBlocks (f / 16) 64
        else m
      | none => m

end Sys2Proof.Machine
end

