-- ==== Sys2Proof/Machine/SessCore.lean ====
section
/-! DEFINITION. Sessions, versions and views as data (R93 to R105, R110, R120, R185): records, ranges, map pages, and what ends a
session, a version or a view. -/

namespace Sys2Proof.Machine

/-! ## Handles -/

/-- The record key a handle names: home region and record index (R95).
(DESIGN CHOICE, log entry 67.) -/
def keyOfHandle (h : Nat) : Nat := h % 2 ^ 18

/-- The session a handle names, unless it is stale or FREE (R95).
(DESIGN CHOICE, log entry 67.) -/
def Mach.byHandle (m : Mach) (h : Nat) : Option (Nat × Session) :=
  let k := keyOfHandle h
  let s := m.session k
  if s.st ≠ .free && s.gen % 16384 = h / 2 ^ 18 % 16384 && (m.region (k / 16384)).st = .serving then some (k, s) else none

/-- The view a handle names. -/
def Mach.viewByHandle (m : Mach) (h : Nat) : Option (Nat × View) :=
  let k := keyOfHandle h
  let v := m.view k
  if v.live && v.gen % 16384 = h / 2 ^ 18 % 16384 then some (k, v) else none

/-- The handle of session `k`. -/
def Mach.handle (m : Mach) (k : Nat) : Nat := handleOf (m.session k).gen k

/-- A free record of region `r`'s session table, chosen by the part (log entry 3). -/
def Mach.freeSess (m : Mach) (r : Nat) : Option Nat :=
  (pickFree (fun i => (m.session (r * 16384 + i)).st ≠ .free) sessPerRegion
    (m.sess.sess.filter fun x => x.1 / 16384 = r && x.2.st ≠ .free).length m.drawn).map (r * 16384 + ·)

/-- Session records of region `r` that are free. -/
def Mach.freeSessCount (m : Mach) (r : Nat) : Nat :=
  sessPerRegion - (m.sess.sess.filter fun x => x.1 / 16384 = r && x.2.st ≠ .free).length

/-- A free record of region `r`'s view table. -/
def Mach.freeView (m : Mach) (r : Nat) : Option Nat :=
  (pickFree (fun i => (m.view (r * 16384 + i)).live) sessPerRegion
    (m.sess.views.filter fun x => x.1 / 16384 = r && x.2.live).length m.drawn).map (r * 16384 + ·)

/-- The home region of a session of pitch `p` whose working range starts at `wbase` (R95). -/
def Mach.sessHome (m : Mach) (p wbase : Nat) : Nat :=
  if m.cfgN (0x3000 + p) 2 = 1 then (m.extent (extOf wbase)).home
  else
    (m.serving.foldl (fun (b : Option (Nat × Nat)) r =>
      let n := m.freeSessCount r
      match b with
      | none => some (r, n)
      | some (_, k) => if k < n then some (r, n) else b) none).elim 0 (·.1)

/-! ## Ranges (R93, R107) -/

/-- Two page ranges meet. -/
def overlap (a n b k : Nat) : Bool := decide (a < b + k) && decide (b < a + n) && decide (0 < n) && decide (0 < k)

/-- A page range lies in mapped extents of the pitch that are not RELEASING and that `ok` admits (R93). An extent still
ADDING counts as mapped, which the spec leaves open.
(DESIGN CHOICE, log entry 95.) -/
def Mach.rangeIn (m : Mach) (p base n : Nat) (ok : Extent → Bool) : Bool :=
  decide (0 < n) &&
    (List.range ((base + n - 1) / extentPages + 1 - base / extentPages)).all fun i =>
      let x := m.extent (base / extentPages + i)
      (x.st = .active || x.st = .adding) && x.pitch = p && ok x

/-- The range meets a working range or a map area of a session that is not FREE, a view, a range still being retired, or pages still
to be cleared (R93, R197, R199). A session in DESTROYING counts: R93 says "of any live session" and not which states those are.
(DESIGN CHOICE, log entry 94.) -/
def Mach.rangeTaken (m : Mach) (base n : Nat) : Bool :=
  (m.sess.sess.any fun x => x.2.st ≠ .free &&
    (overlap base n x.2.wbase x.2.npages || overlap base n x.2.mbase (mapPages x.2.npages)))
  || (m.sess.views.any fun x => x.2.live && overlap base n x.2.base x.2.pages)
  || (m.ext.tickets.any fun t => t.region.isNone && overlap base n t.base t.pages)
  || m.mem.house.any fun h => overlap base n h.pn 1

/-- The conditions of R93 on a working range and a map area. -/
def Mach.rangesOk (m : Mach) (p wbase npages mbase : Nat) : Bool :=
  let cache (x : Extent) : Bool := x.coh = .tracked || x.coh = .uncached
  decide (1 ≤ npages) && decide (npages ≤ 2 ^ 24) &&
    m.rangeIn p wbase npages cache && m.rangeIn p mbase (mapPages npages) (fun x => cache x && !x.attr.lossy) &&
    !overlap wbase npages mbase (mapPages npages) && !m.rangeTaken wbase npages && !m.rangeTaken mbase (mapPages npages)

/-! ## Map pages (R103, R104) -/

/-- Map pages of one map slot. -/
def slotPages (npages : Nat) : Nat := (npages + 1023) / 1024

/-- A map entry's 32 bits (Table 04.4). -/
def MapEnt.pack : MapEnt → BitVec 32
  | .unwritten => 0
  | .const r i => BitVec.ofNat 32 (2 ^ 30 + r * 2 ^ 20 + i)
  | .shared r e => BitVec.ofNat 32 (2 ^ 31 + r * 2 ^ 20 + e)

/-- A version entry's 512 bits as its two words, low word first (Table 04.3). -/
def Version.pack (v : Version) : List Word :=
  [v.layout, BitVec.ofNat 256 (v.vnum * 2 ^ 224 + (if v.retiring then 2 else 1) * 2 ^ 222 + v.views * 2 ^ 206 + v.vpages * 2 ^ 181)]

/-- Words of 32-bit entries. -/
def packEnts (n : Nat) (l : List MapEnt) : List Word :=
  (List.range n).map fun w => wordOfBytes (((l.drop (8 * w)).take 8).flatMap fun e => leBytes 4 e.pack.toNat)

/-- Work for the house pitch, done at once where it can be.
(DESIGN CHOICE, log entry 18.) -/
def Mach.houseDo (m : Mach) (l : List House) : Mach := (m.onMem fun x => { x with house := x.house ++ l }).houseRun

/-- The version page of session `k` written anew as a whole (R94, R125); descriptor `d`'s completion waits for it. -/
def Mach.writeVersionPage (m : Mach) (k : Nat) (d : Option Nat) : Mach :=
  let s := m.session k
  let ents := (List.range 63).flatMap fun i =>
    match s.versions.find? fun v => v.idx = i with
    | some v => v.pack
    | none => [0, 0]
  m.houseDo [⟨s.mbase, .page ([0, 0] ++ ents), d⟩]

/-- Entry `i` of session `k`'s version page, as the session now has it, written as one line (R103). -/
def Mach.writeEntry (m : Mach) (k i : Nat) (d : Option Nat) : Mach :=
  let s := m.session k
  m.houseDo [⟨s.mbase, .line (1 + i) (match s.versions.find? fun v => v.idx = i with | some v => v.pack | none => [0, 0]), d⟩]

/-- The map slot of entry `i` of session `k` written, each map page whole (R103). -/
def Mach.writeMapSlot (m : Mach) (k i : Nat) (l : List MapEnt) (d : Option Nat) : Mach :=
  let s := m.session k
  let n := slotPages s.npages
  m.houseDo ((List.range n).map fun j =>
    ⟨s.mbase + 1 + i * n + j, .page (packEnts 128 ((l.drop (1024 * j)).take 1024)), d⟩)

/-- The slots of a page range become UNWRITTEN, each once its lines have been recalled (R197). -/
def Mach.wipe (m : Mach) (base n : Nat) (d : Option Nat) : Mach :=
  let m := m.dropHouse base n
  m.houseDo ((m.written base n).map fun pn => ⟨pn, .clear, d⟩)

/-! ## Versions -/

/-- NPUB: versions that are not EMPTY. -/
def Session.npub (s : Session) : Nat := s.versions.length

/-- Version `v` of a session. -/
def Session.ver (s : Session) (v : Nat) : Option Version := s.versions.find? fun x => x.vnum = v

/-- A version of session `k` changed. -/
def Mach.onVersion (m : Mach) (k v : Nat) (f : Version → Version) : Mach :=
  m.onSession k fun s => { s with versions := lmod s.versions (fun x => x.vnum = v) f }

/-- Pool entries that the session's slots, then its map entries name, each once. -/
def Mach.namedPool (m : Mach) (s : Session) : List (Nat × Nat) :=
  let slots := (pageRange s.wbase s.npages).filterMap fun pn => match m.desc pn with | .ref r e => some (r, e) | _ => none
  let maps := s.versions.flatMap fun v => v.map.filterMap fun e => match e with | .shared r e => some (r, e) | _ => none
  (slots ++ maps).eraseDups

/-- Entries that a parked session anchors and no longer names are anchored by it no more (R114). -/
def Mach.lessAnchors (m : Mach) (k : Nat) : Mach :=
  let s := m.session k
  if s.anchored.isEmpty then m
  else
    let named := m.namedPool s
    (m.each (s.anchored.filter fun a => !named.contains a) fun m a =>
      match m.poolEnt a.1 a.2 with
      | some x => m.putPool a.1 a.2 { x with anchors := x.anchors - 1 }
      | none => m).onSession k fun s => { s with anchored := s.anchored.filter named.contains }

/-- Version `v` of session `k` is dropped: its references released, its map slot UNWRITTEN, its entry EMPTY (R105). -/
def Mach.dropVersion (m : Mach) (k v : Nat) (d : Option Nat) : Mach :=
  match (m.session k).ver v with
  | none => m
  | some x =>
    let m := (m.onSession k fun s => { s with versions := s.versions.filter fun y => y.vnum ≠ v }).lessAnchors k
    let m := m.each x.map fun m e =>
      match e with
      | .shared r e => m.unref r e
      | .const r i => m.patDrop r i
      | .unwritten => m
    let s := m.session k
    let n := slotPages s.npages
    (m.wipe (s.mbase + 1 + x.idx * n) n d).writeEntry k x.idx d

/-! ## The end of a session -/

/-- The record becomes FREE and GEN increments (Table 04.1). -/
def Mach.freeRecord (m : Mach) (k : Nat) : Mach := m.onSession k fun s => { gen := (s.gen + 1) % 16384 }

/-- DESTROY's effect (R120): ranges UNWRITTEN, versions dropped, anchors lifted, the manifest's space freed. A version with open
views leaves the session DESTROYING.
(DESIGN CHOICE, log entry 67.) -/
def Mach.destroySess (m : Mach) (k : Nat) : Mach :=
  let s := m.session k
  let m := m.wipe s.wbase s.npages none
  let m := m.each (s.versions.filter fun v => v.views = 0) fun m v => m.dropVersion k v.vnum none
  let m := (m.liftAnchors k).onSession k fun s => { s with mvalid := false, pieces := [], mloc := 0, busy := none }
  if (m.session k).versions.isEmpty then (m.wipe s.mbase (mapPages s.npages) none).freeRecord k
  else m.onSession k fun s => { s with st := .destroying }

/-- The content descriptors that a parked session's manifest records, with the region of each. -/
def Mach.parkedPrivs (m : Mach) (s : Session) : List (Nat × Priv) :=
  (m.mem.descs.filterMap fun d =>
    if inPages s.wbase s.npages d.1 || inPages s.mbase (mapPages s.npages) d.1 then
      match d.2 with | .priv p => some (m.homeOf d.1, p) | _ => none
    else none)
  ++ s.anchored.filterMap fun a => (m.poolEnt a.1 a.2).map fun x => (a.1, x.c)

/-- What a detached session's manifest keeps claimed (R126, R185): the T2 frames it names, and T2 record slots by region. -/
def Mach.parkedClaims (m : Mach) (s : Session) : List (Nat × Nat) × List (Nat × Nat) :=
  let l := (m.parkedPrivs s).filter fun x => x.2.rec_ = .t2
  ((l.filter fun x => x.2.t2len ≠ 0).map fun x => (x.2.t2win, x.2.t2slot),
    (List.range (regions m.fam)).filterMap fun r =>
      let n := (l.filter fun x => x.1 = r).length
      if n = 0 then none else some (r, n))

/-- A PARKED session with a valid manifest is detached: its record is freed, its claims are kept, the event is logged (R126,
R185). -/
def Mach.detachSess (m : Mach) (k : Nat) (region : Option Nat) (claims : List (Nat × Nat) × List (Nat × Nat)) : Mach :=
  let s := m.session k
  let d : Detached := ⟨s.pitch, s.mloc, s.name, claims.1, claims.2, s.pieces, if region.isNone then some m.cycle else none, region⟩
  let m := m.onSess fun x => { x with detached := x.detached ++ [d] }
  let m := m.destroySess k
  m.log 0x0104 s.pitch 1 (k / 16384) [(64, s.name.toNat), (32, s.mloc)]

/-! ## The end of a view (R110) -/

/-- A slot of a view becomes UNWRITTEN: a REF of a view counts in no SHARES, a pattern reference is released. -/
def Mach.clearViewSlot (m : Mach) (pn : Nat) : Mach :=
  match m.desc pn with
  | .const _ _ i => (m.patDrop (m.homeOf pn) i).setDesc pn .unwritten
  | _ => m.setDesc pn .unwritten

/-- A view closes: its slots UNWRITTEN, VIEWS down, a RETIRING version without views dropped, a DESTROYING session without
versions FREE. The retirement of the range is the caller's. -/
def Mach.closeView (m : Mach) (vk : Nat) (d : Option Nat) : Mach :=
  let v := m.view vk
  let k := keyOfHandle v.sess
  let m := m.each (m.written v.base v.pages) fun m pn => m.clearViewSlot pn
  let m := m.onView vk fun v => { gen := (v.gen + 1) % 16384 }
  if (m.session k).gen % 16384 ≠ v.sess / 2 ^ 18 % 16384 then m
  else
    let m := m.onVersion k v.vnum fun x => { x with views := x.views - 1 }
    let s := m.session k
    match s.ver v.vnum with
    | some x =>
      if x.views = 0 && (x.retiring || s.st = .destroying) then
        let m := m.dropVersion k v.vnum d
        if (m.session k).st = .destroying && (m.session k).versions.isEmpty then
          (m.wipe s.mbase (mapPages s.npages) d).freeRecord k
        else m
      else m.writeEntry k x.idx d
    | none => m

end Sys2Proof.Machine
end

