-- ==== Sys2Proof/Machine/Fence.lean ====
section
/-! DEFINITION. Block quarantine (R23) and the fence of a region (R126, R198, R379 to R382). -/

namespace Sys2Proof.Machine

/-! ## What a fence loses -/

/-- Entries of a table whose key, divided by `w`, is not `r`. -/
def without {α : Type} (t : Tab α) (w r : Nat) : Tab α := t.filter fun x => x.1 / w ≠ r

/-- Everything region `r` holds is lost: its page maps, pool, patterns, T0 and T1 contents, directory, jobs and snoops
(R198, Table 04.9). -/
def Mach.loseRegion (m : Mach) (r : Nat) : Mach :=
  let m := m.onMem fun x =>
    { x with descs := x.descs.filter fun d => m.homeOf d.1 ≠ r, pool := without x.pool poolPerRegion r
             pats := without x.pats patsPerRegion r, t0own := without x.t0own 32768 r, t1own := without x.t1own (2 ^ 24) r
             jobs := x.jobs.filter fun j => j.region ≠ r, keeps := x.keeps.filter fun k => m.crefRegion k.1 ≠ r, house := x.house.filter fun h => m.homeOf h.pn ≠ r }
  let m := m.onStore fun x => { t0 := without x.t0 (32768 * 128) r, t1 := without x.t1 (2 ^ 24 * 16) r }
  let m := m.onExt fun x => { x with dir := without x.dir 32768 r, snoops := x.snoops.filter fun s => s.region ≠ r }
  let m := m.onDram fun d =>
    { d with rows := d.rows.filter fun x => x.1 / (8 * 16 * 8192) ≠ r
             chans := d.chans.map fun c => if c.1 / 8 = r && c.2.st ≠ .failed then (c.1, { c.2 with st := .fenced, queue := [] }) else c }
  m.onRegion r fun g =>
    { g with pmc := [], dcache := [], dplace := [], dfar := [], foldLanes := [], unfoldLanes := [], tallyAt := [], moves := [], refold := [], borrowed := 0, lostCharge := [], loans := g.loans.filter fun l => l.2.2.2 ≠ r
             wantLoan := []
             reports := [], reportsOut := [], tallyBig := [], tallySmall := [], tallyQ := [], tallyGated := true, lanesGated := true
             rolling := false, rolledIn := false }

/-! ## Sessions (R126) -/

/-- Pages of a range homed in region `r`. -/
def Mach.homedIn (m : Mach) (r base n : Nat) : Nat := ((pageRange base n).filter fun pn => m.homeOf pn = r).length

/-- Pool entries of region `r` that a session's slots and map entries name, each once. -/
def Mach.namedIn (m : Mach) (s : Session) (r : Nat) : List Nat :=
  let slots := m.mem.descs.filterMap fun d =>
    match d.2 with
    | .ref q e => if q = r && inPages s.wbase s.npages d.1 then some e else none
    | _ => none
  let maps := s.versions.flatMap fun v => v.map.filterMap fun e =>
    match e with | .shared q e => if q = r then some e else none | _ => none
  (slots ++ maps).eraseDups

/-- Pages and pool entries of a session that a fence of region `r` loses (R126). -/
def Mach.lostIn (m : Mach) (s : Session) (r : Nat) : Nat :=
  m.homedIn r s.wbase s.npages + m.homedIn r s.mbase (mapPages s.npages) + (m.namedIn s r).length

/-- A PARK in progress ends: the session is ACTIVE, its manifest space is free (R113). -/
def Mach.endPark (m : Mach) (k : Nat) (status : Nat) : Mach :=
  let s := m.session k
  let m := m.onSession k fun (s : Session) => { s with st := .active, mvalid := false, pieces := [], mloc := 0, busy := none, absent := [], sealAcks := none }
  let m := m.each (List.range (regions m.fam)) fun m r =>
    m.each ((m.region r).moves.filter fun v => v.kind = .park (m.handle k)) fun m v => m.abandon r v
  let m := match s.busy with
    | some d => m.opDone d status 0
    | none => m
  m.pumpAll .session

/-- One session at a fence of region `r`, with what the fence has lost of it and what its manifest claims: marked DAMAGED with its
event, and destroyed or detached when its record was there (R126). -/
def Mach.fenceSess (m : Mach) (r : Nat) (k : Nat) (lost : Nat) (claims : List (Nat × Nat) × List (Nat × Nat)) : Mach :=
  let s := m.session k
  let dmg := satAdd (2 ^ 32 - 1) s.dmgcount lost
  let m := m.when (lost ≠ 0) fun m =>
    (m.onSession k fun s => { s with damaged := true, dmgcount := dmg }).log 0x0103 s.pitch 1 (k / 16384) [(32, m.handle k), (32, dmg)]
  if k / 16384 = r then
    let m := match s.busy with
      | some d => m.opDone d (if s.st = SState.parking then stDamaged else stBadHandle) 0
      | none => m
    if s.mvalid && s.st = SState.parked then m.detachSess k (some r) claims
    else (m.destroySess k).onSession k fun x => if x.st = SState.free then x else { gen := (x.gen + 1) % 16384 }
  else m.when (lost ≠ 0 && s.st = .parking) fun m => m.endPark k stDamaged

/-- Entries of versions whose map page lay in region `r`: they read as poison from now on (R126).
(DEDUCED, log entry 101.) -/
def Mach.loseMaps (m : Mach) (r : Nat) : Mach :=
  let cut (s : Session) (v : Version) : Version :=
    let page (i : Nat) : Nat := s.mbase + 1 + v.idx * slotPages s.npages + i / 1024
    { v with map := v.map.zipIdx.map fun e => if m.homeOf (page e.2) = r then .unwritten else e.1 }
  m.onSess fun x => { x with sess := x.sess.map fun s => (s.1, { s.2 with versions := s.2.versions.map (cut s.2) }) }

/-! ## Tally work of a block that is lost (R128, R380, Table 01.6) -/

/-- Region `r`'s Tally block works. -/
def Mach.tallyOk (m : Mach) (r : Nat) : Bool := (m.region r).st = .serving && !(m.region r).quar.getLsbD 10

/-- The region whose Tally block does region `r`'s work: its own, or the lowest-numbered healthy one of its inner ring.
(DESIGN CHOICE, log entry 66.) -/
def Mach.engineOf (m : Mach) (r : Nat) : Option Nat :=
  if m.tallyOk r then some r else (List.range (regions m.fam)).find? fun q => (sameRing m.fam r).contains q && m.tallyOk q

/-- A descriptor's work joins a region's Tally queue. -/
def Mach.tallyEnqueue (m : Mach) (r d : Nat) : Mach :=
  m.onRegion r fun g =>
    if g.tallyBig.contains d || g.tallySmall.contains d || g.tallyQ.contains d then g else { g with tallyQ := g.tallyQ ++ [d] }

/-- The work that region `r`'s Tally block has, once it has left service: on another block of the ring; without one it ends
with NO_ENGINE, but for a fenced region's own pages, which read as poison. -/
def Mach.tallyLeave (m : Mach) (r : Nat) (fenced : Bool) : Mach :=
  let ds := (m.svc.dtors.filter fun x => x.regions.contains r).map (·.id)
  let m := m.onRegion r fun g => { g with tallyBig := [], tallySmall := [], tallyQ := [] }
  m.each ds fun m d =>
    match m.engineOf r with
    | some e => (m.onDtor d fun x => { x with regions := (x.regions.map fun q => if q = r then e else q).eraseDups }).tallyEnqueue e d
    | none =>
      match m.dtorAt d with
      | none => m
      | some x =>
        if fenced && !(x.homes.any fun q => (m.region q).st = .serving && (m.engineOf q).isNone) then
          m.onDtor d fun x => { x with regions := x.regions.filter (· ≠ r) }
        else m.opDone d stNoEngine x.n0

/-- Pages of region `r` that a RESUME has still to place are left in T2 (R380). -/
def Mach.resumeLose (m : Mach) (r : Nat) : Mach :=
  m.onSvc fun s => { s with dtors := s.dtors.map fun x =>
    if x.opcode = 0x19 then
      { x with n2 := x.n2 + (x.todo.filter fun c => m.crefRegion c.1 = r).length, todo := x.todo.filter fun c => m.crefRegion c.1 ≠ r }
    else x }

/-! ## The fence -/

/-- Region `r` is fenced with a cause of Table 17.4: its stop answers for it, its contents are lost, sessions follow R126, its
directory is settled as a retirement, and every region in service starts a reference sweep (R379 to R382).
(DEDUCED, log entry 68.) -/
def Mach.fence (m : Mach) (r cause : Nat) : Mach :=
  if (m.region r).st = .fenced then m
  else
    let damage := (m.sess.sess.filter fun x => x.2.st ≠ .free).map fun x => (x.1, m.lostIn x.2 r, m.parkedClaims x.2)
    let views := (m.sess.views.filter fun x => x.2.live && x.1 / 16384 = r).map (·.1)
    let exts := (m.ext.exts.filter fun x => x.2.st ≠ .free && x.2.coh = .tracked && extentPagesIn m.fam x.2 r ≠ 0).map (·.1)
    let owed := (List.range (functions m.fam)).filter fun f => exts.any fun e => (m.extent e).grant.getLsbD f
    let m := m.onRegion r fun g => { g with st := .fenced, fenceCause := cause, fencedAt := m.cycle }
    let m := m.onRegion r fun g => { g with sweepLeft := m.serving.filter (· ≠ r) }
    let m := m.each ((List.range (regions m.fam)).filter (· ≠ r)) fun m q => m.onRegion q fun g =>
      { g with sweepLeft := g.sweepLeft.filter (· ≠ r), loans := g.loans.filter fun l => l.2.2.2 ≠ r }
    let waiting := (m.mem.waits.filter fun w => w.region = r || m.crefRegion (m.reqCref w.req) = r).map (·.req.id)
    let m := (m.resumeLose r).tallyLeave r true
    let m := (m.loseRegion r).loseMaps r
    let m := m.each views fun m v => m.closeView v none
    let m := m.each damage fun m d => m.fenceSess r d.1 d.2.1 d.2.2
    let m := m.startTicket { num := 0, base := 0, pages := 0, region := some r, exts := exts, pitch := 0, owed := owed, start := 0 }
    let m := m.onRegion r fun g => { g with fenceTicket := if owed.isEmpty then none else some m.ext.lastTicket }
    let m := m.onExt fun x => { x with exts := x.exts.map fun e =>
      (e.1, { e.2 with recalling := e.2.recalling.filter (· ≠ r), started := e.2.started.filter (· ≠ r) }) }
    let m := m.onDict fun d => { d with inst := d.inst.map fun i => { i with regions := i.regions.filter (· ≠ r) } }
    (m.log 0x0802 0 1 r [(8, r), (8, cause)]).reserve none waiting

/-! ## Quarantine (R23, Table 01.6) -/

/-- T0 copies in store block `b` of region `r`: clean ones are dropped, dirty ones are lost and their pages are BAD. -/
def Mach.loseBlock (m : Mach) (r b : Nat) : Mach :=
  let tb := (m.region r).tableBlock
  m.each ((m.contents r).filter fun c => c.2.t0 && t0Block tb c.2.t0slot = b) fun m c =>
    let m := m.dropMoves c.1
    let m := m.dropT0 c.1
    m.when c.2.dirty fun m => m.onPriv c.1 fun d => { d with bad := true, t1bad := true, t2bad := true }

/-- Block `b` of region `r` (as a QUARANTINE bit) is quarantined: the table block and the codec block fence the region
(Table 01.6). The four channels of a DRAM block fail together; Table 11.4 follows at CHANNEL_FAIL_SETTLE.
(DESIGN CHOICE, log entry 37.) -/
def Mach.quarantine (m : Mach) (r b : Nat) : Mach :=
  if (m.region r).quar.getLsbD b then m
  else
    let m := (m.onRegion r fun g => { g with quar := g.quar ||| (1#12 <<< b) }).log 0x0304 0 1 r [(8, r), (8, b)]
    if b < 8 then
      (if (m.region r).st = .serving && b = (m.region r).tableBlock then m.fence r 2 else m.loseBlock r b)
    else if b = 8 || b = 9 then
      m.each (List.range 4) fun m i => m.onChan r ((b - 8) * 4 + i) fun c =>
        if c.st = .failed then c else { c with st := .failed, lossDue := decide ((m.region r).st = RegState.serving), wantRetrain := false }
    else if b = 11 then m.fence r 3
    else m.tallyLeave r false

/-! ## Words of the table block (R292) -/

/-- A word of region `r`'s table block is flagged (R292): a line of the page-map cache is dropped or, modified, loses the word's two
descriptors; a pattern reads as poison; the session table, the directory and planner state fence the region. -/
def Mach.tableFlagged (m : Mach) (r : Nat) (w : TableWord) : Mach :=
  let m := m.countUe 1
  match w with
  | .mapLine line i =>
    (match (m.region r).pmc.find? fun l => l.id = line with
    | none => m
    | some l =>
      if l.dirty then m.loseWord r line i
      else m.onRegion r fun g => { g with pmc := g.pmc.filter fun l => l.id ≠ line })
  | .pattern i =>
    (match tfind m.mem.pats (r * patsPerRegion + i) with
    | some p => m.onMem fun x => { x with pats := tins x.pats (r * patsPerRegion + i) { p with poison := true } }
    | none => m)
  | .records => m.fence r 4

/-! ## The reference sweep (R381) -/

/-- REFs of region `r`'s slots into region `q` become UNWRITTEN, and so do map entries of sessions homed in `r` that name `q`. -/
def Mach.sweepRefs (m : Mach) (r q : Nat) : Mach :=
  let m := m.each (m.mem.descs.filter fun d => m.homeOf d.1 = r && (match d.2 with | .ref x _ => x = q | _ => false)) fun m d =>
    m.setDesc d.1 .unwritten
  m.onSess fun x => { x with sess := x.sess.map fun s =>
    if s.1 / 16384 = r then
      (s.1, { s.2 with versions := s.2.versions.map fun v => { v with map := v.map.map fun e =>
        match e with
        | .shared y _ => if y = q then .unwritten else e
        | .const y _ => if y = q then .unwritten else e
        | .unwritten => e } })
    else s }

/-- Meaning of REFERENCE_SWEEP_DONE (R381): region `r` has visited every run and map area for the fence of region `fenced`. -/
def execReferenceSweepDone (r fenced : Nat) (s : State) : Host.Outcome State Fault Refusal :=
  s.app ((Instr.referenceSweepDone r fenced).wf s.m.fam) <| Mach.dataRun fun m =>
    if (m.region fenced).sweepLeft.contains r && (m.region r).st = .serving then
      (m.sweepRefs r fenced).onRegion fenced fun g => { g with sweepLeft := g.sweepLeft.filter (· ≠ r) }
    else m

/-- Meaning of REGION_WATCHDOG (R379, Table 17.4): a region controller that does not answer for 10 ms is fenced. -/
def execRegionWatchdog (r : Nat) (s : State) : Host.Outcome State Fault Refusal :=
  s.app ((Instr.regionWatchdog r).wf s.m.fam) <| Mach.dataRun fun m =>
    if (m.region r).st = .serving then m.fence r 6 else m

end Sys2Proof.Machine
end

