-- ==== Sys2Proof/Machine/MemCtl.lean ====
section
/-! DEFINITION. The region memory controllers (spec/11_memory_controllers.md): sector accesses, refresh, the activation
tracker, temperature, training, and the settlement of a failed channel. -/

namespace Sys2Proof.Machine

/-! ## Refresh (R269, R270) -/

/-- The channel keeps its refresh: it has trained and has not failed (R275, R276). -/
def Chan.ticks (c : Chan) : Bool := c.st = .serving || c.st = .retraining || c.st = .suspended

/-- The refresh interval of a die in hub cycles. -/
def Die.interval (d : Die) : Nat := if d.doubled then us 2 else us 4
/-- The limit on OWED. -/
def Die.limit (d : Die) : Nat := if d.doubled then 4 else 8

/-- The die of channel `c` of region `r`. -/
def Mach.dieOf (m : Mach) (r c : Nat) : Die := m.die r (c / 4)

/-- An interval tick of a channel. -/
def Chan.tick (c : Chan) (interval : Nat) : Chan :=
  { c with owed := c.owed + 1, winTicks := c.winTicks + 1, nextTick := c.nextTick + interval }

/-- Meaning of REFRESH_TICK (R269): a refresh falls due on a channel. -/
def execRefreshTick (r c : Nat) (s : State) : Host.Outcome State Fault Refusal :=
  s.app ((Instr.refreshTick r c).wf s.m.fam) <| Mach.aliveRun fun m =>
    if (m.chan r c).ticks && decide ((m.chan r c).nextTick ≤ m.cycle) then m.onChan r c fun x => x.tick (m.dieOf r c).interval
    else m

/-- Every bank of a channel is ready and no refresh is in progress. -/
def Chan.quiet (c : Chan) (now : Nat) : Bool := decide (c.busyUntil ≤ now) && c.bankReady.all fun b => decide (b.2 ≤ now)

/-- A channel on its way into a retraining: no activate starts any more (R275). -/
def Chan.draining (c : Chan) : Bool := c.st = .serving && c.wantRetrain

/-- Meaning of REFRESH_ISSUE (R269, R275): a channel issues an owed refresh, which occupies it for 100 ns; a retraining that
waits for the owed refreshes starts after the last of them. -/
def execRefreshIssue (r c : Nat) (s : State) : Host.Outcome State Fault Refusal :=
  s.app ((Instr.refreshIssue r c).wf s.m.fam) <| Mach.aliveRun fun m =>
    let x := m.chan r c
    if (x.st = .serving || x.st = .suspended) && decide (1 ≤ x.owed) && x.quiet m.cycle
        && (decide ((m.dieOf r c).limit ≤ x.owed) || x.queue.isEmpty || x.draining) then
      (m.send (.refresh r c)).onChan r c fun y =>
        let y := { y with owed := y.owed - 1, busyUntil := m.cycle + ns 100 }
        if y.draining && y.owed = 0 then
          { y with st := .retraining, wantRetrain := false, sinceTrain := 0, since := m.cycle + ns 100 }
        else y
    else m

/-! ## The activation tracker (R271, R272, R215) -/

/-- Key of a row's counter. -/
def rowKey (r c bank row : Nat) : Nat := ((r * 8 + c) * 16 + bank) * 8192 + row

/-- The channel's refresh window ends: its counters clear and the throttles of that window lapse. -/
def Mach.closeWindow (m : Mach) (r c : Nat) : Mach :=
  if (m.chan r c).winTicks < 8192 then m
  else
    ((m.onDram fun d => { d with rows := d.rows.filter fun x => x.1 / (16 * 8192) ≠ r * 8 + c }).onDie r (c / 4) fun d =>
      { d with throttled := d.throttled.filter fun t => t.2 ≠ c }).onChan r c fun x => { x with winTicks := x.winTicks - 8192 }

/-- Meaning of REFRESH_WINDOW_END (R271, R215): the 8,192nd tick ends a channel's window. -/
def execRefreshWindowEnd (r c : Nat) (s : State) : Host.Outcome State Fault Refusal :=
  s.app ((Instr.refreshWindowEnd r c).wf s.m.fam) <| Mach.aliveRun fun m => m.closeWindow r c

/-- G7EVT bit `b` of region `r` is set (Table 11.5). -/
def Mach.g7 (m : Mach) (r b : Nat) : Mach :=
  (m.onDram fun d => { d with g7evt := tput d.g7evt 0 r (tget d.g7evt 0 r ||| 2 ^ b) }).latch (okey (0x2200 + r) 0x47) (2 ^ b)

/-- A pitch is marked as offending on channel `c`: throttled to the window's end, one event per pitch, block and window.
(DEDUCED, log entry 40.) -/
def Mach.mark (m : Mach) (r c p : Nat) : Mach :=
  if (m.die r (c / 4)).throttled.contains (p, c) then m
  else
    (((m.onDie r (c / 4) fun d => { d with throttled := d.throttled ++ [(p, c)] }).log 0x0502 p 1 r [(8, r), (8, c / 4)]).when
      (p ≠ 0) fun m => m.count (0x8400 + p) 6 1).g7 r 4

/-- An activate of a row for an access of pitch `p` is counted (R271). -/
def Mach.activateRow (m : Mach) (r c bank row : Nat) (p : Option Nat) : Mach :=
  let k := rowKey r c bank row
  let n := satAdd 65535 (tget m.dram.rows 0 k) 1
  let m := m.onDram fun d => { d with rows := tput d.rows 0 k n }
  if m.effN r (0x2200 + r) 0x43 < n then (match p with | some p => m.mark r c p | none => m) else m

/-- Activates of one block in 1 µs, one eighth of its slots: four channels, one access each 17 ns (R215, R265).
(DEDUCED, log entry 40.) -/
def throttleSlots : Nat := 4 * 1000 / 17 / 8

/-- Activates of pitch `p` in the microsecond `t`. -/
def Die.actsOf (d : Die) (p t : Nat) : Nat := if d.actsUs = t then tget d.acts 0 p else 0

/-- The throttle withholds an activate of pitch `p` (R215). -/
def Die.held (d : Die) (p : Option Nat) (t : Nat) : Bool :=
  match p with
  | some p => d.throttled.any (fun x => x.1 = p) && decide (throttleSlots ≤ d.actsOf p t)
  | none => false

/-- An activate of pitch `p` is counted toward the throttle. -/
def Die.act (d : Die) (p : Option Nat) (t : Nat) : Die :=
  match p with
  | some p => { d with acts := tput (if d.actsUs = t then d.acts else []) 0 p (d.actsOf p t + 1), actsUs := t }
  | none => d

/-! ## Sector accesses (R262 to R267) -/

/-- The accesses of a queue that `ok` admits and that pass no earlier one to their sector (R267), with their places. -/
def startable (ok : Access → Bool) : Nat → List Nat → List Access → List (Nat × Access)
  | _, _, [] => []
  | n, seen, a :: t =>
    (if ok a && !seen.contains a.sector then [(n, a)] else []) ++ startable ok (n + 1) (a.sector :: seen) t

/-- The pitch a sector access is charged to: the owner of the page a request or a descriptor reads, else the house (R58, R206). -/
def Mach.accPitch (m : Mach) (a : Access) : Nat :=
  match a.job with
  | some (j, _) => match m.jobAt j with | some x => m.jobPitch x | none => 0
  | none => 0

/-- The region priority level of a sector access: its job's, its move's, or 0 (R58, R209). -/
def Mach.accLevel (m : Mach) (r : Nat) (a : Access) : Nat :=
  match a.job, a.move with
  | some (j, _), _ => match m.jobAt j with | some x => m.jobLevel x | none => 0
  | none, some v => match m.moveAt r v with | some x => x.level | none => 0
  | none, none => if a.desc then (m.mem.waits.filterMap fun w => if w.why = .miss then some (m.levelOf w) else none).foldl max 0 else 0

/-- The pitches with an access queued on a die's four channels. -/
def Mach.diePitches (m : Mach) (r die : Nat) : List Nat :=
  ((List.range 4).flatMap fun i => (m.chan r (die * 4 + i)).queue.map m.accPitch).eraseDups

/-- Key of word `w` of a sector in the T1 store. -/
def t1Key (r sector w : Nat) : Nat := (r * 2 ^ 24 + sector) * 16 + w

/-- The 16 words of a sector as its channel reads them (R264: a word never written reads as poison). -/
def Mach.t1Sector (m : Mach) (r sector : Nat) : List CWord := (List.range 16).map fun w => tget m.store.t1 .poison (t1Key r sector w)

/-- A read's words reach the engine: checked, corrections counted in the channel's bucket, flagged words counted (R281, R294);
the last sector of a frame brings the page code (R286, R287). -/
def Mach.sectorRead (m : Mach) (r c : Nat) (a : Access) : Mach :=
  let ws := m.t1Sector r a.sector
  let fixed := (ws.filter isCorrected).length
  let m := m.when (0 < fixed) fun m => m.fillRegion r (512 + c) fixed
  let m := m.countUe (ws.filter isFlagged).length
  match a.job with
  | some (j, s) =>
    let m := m.onJob j fun y =>
      { y with left := y.left - 1
               words := ws.zipIdx.foldl (fun t w => tins t (16 * s + w.2) (passWord w.1)) y.words
               flagged := y.flagged ++ (ws.zipIdx.filterMap fun w => if (readWord w.1).isNone then some (16 * s + w.2) else none) }
    m.frameIn j
  | none => m

/-- A write's words are stored with their check fields (R266), as an armed injection leaves them (R296): they belong to the owner of the
page the frame is of, else to the house. -/
def Mach.sectorWrite (m : Mach) (r c : Nat) (a : Access) : Mach :=
  let own : Nat × Nat :=
    match a.move.bind (m.moveAt r) with
    | some v => (m.ownerOf v.cref, crefData v.cref)
    | none => (0, 0)
  let m := m.each a.words fun m w =>
    let x := m.injW 1 r 0 c own.1 own.2 w.2
    x.1.onStore fun st => { st with t1 := tput st.t1 .poison (t1Key r a.sector w.1) x.2 }
  match a.move with
  | some v => m.moveAck r v
  | none => m

/-- The channel's activate slot, one in 17 ns, is in use: stage 3 of the power cap leaves out one slot of 16 a step (R216). Which
slots it leaves out the spec does not say.
(DESIGN CHOICE, log entry 86.) -/
def Mach.slotInUse (m : Mach) : Bool := decide (m.cycle / ns 17 % 16 < 16 - m.sys.pc3)

/-- Channel `c` may start an access now (R216, R265, R269, R273, R275). -/
def Mach.chanOpen (m : Mach) (r c : Nat) : Bool :=
  let x := m.chan r c
  x.st = .serving && !x.draining && decide (x.owed < (m.dieOf r c).limit) && decide (x.busyUntil ≤ m.cycle)
    && (match x.lastStart with | some t => decide (t + ns 17 ≤ m.cycle) | none => true) && m.slotInUse

/-- Access `a` of channel `c` starts: one activate, 17 bursts, auto-precharge (R265); it costs one credit (Table 08.2). -/
def Mach.startAccess (m : Mach) (r c n : Nat) (a : Access) : Mach :=
  let m := (m.charge r (8 + c / 4) (m.accPitch a) 1).closeWindow r c
  let ready := m.cycle + (if a.write then ns 60 else ns 48)
  let m := m.onChan r c fun y =>
    { y with queue := y.queue.eraseIdx n, lastStart := some m.cycle, bankReady := tput y.bankReady 0 (secBank a.sector) ready }
  let m := (m.onDie r (c / 4) fun d => d.act a.pitch (m.cycle / us 1)).send (.activate r c (secBank a.sector) (secRow a.sector) a.write)
  let m := m.activateRow r c (secBank a.sector) (secRow a.sector) a.pitch
  if a.write then m.sectorWrite r c a else m.sectorRead r c a

/-- Meaning of SECTOR_ACCESS (R206, R209, R215, R262 to R267, R271, R272, R281, R286): of the queued accesses whose bank is ready, that
the throttle does not withhold and that pass no earlier one to their sector, the channel starts the one its block grants: the
highest level, then the most credit, then the lower pitch, then the oldest.
(DEDUCED, log entry 87.) -/
def execSectorAccess (r c : Nat) (s : State) : Host.Outcome State Fault Refusal :=
  s.app ((Instr.sectorAccess r c).wf s.m.fam) <| Mach.dataRun fun m =>
    let x := m.chan r c
    let ok (a : Access) : Bool :=
      decide (tget x.bankReady 0 (secBank a.sector) ≤ m.cycle) && !(m.dieOf r c).held a.pitch (m.cycle / us 1)
    let l := startable ok 0 [] x.queue
    if !m.chanOpen r c || l.isEmpty then m
    else
      let m := m.refillFor r (8 + c / 4) (m.diePitches r (c / 4))
      match m.pickBy r (8 + c / 4) (fun y => (m.accPitch y.2, m.accLevel r y.2)) l with
      | some (n, a) => m.startAccess r c n a
      | none => m

/-! ## Temperature (R268 to R270, R275) -/

/-- Channel `c` of a die after the die's rate changed to `d`: a tick that falls due now counts first, the next tick is one new
interval away, and OWED above the new limit is catch-up (R269, R270). -/
def Mach.rateChange (m : Mach) (r c : Nat) (old d : Die) : Mach :=
  let x := m.chan r c
  if !x.ticks then m
  else
    let m := m.when (decide (x.nextTick ≤ m.cycle)) fun m => m.onChan r c fun y => y.tick old.interval
    let m := m.onChan r c fun y => { y with nextTick := m.cycle + d.interval }
    let owed := (m.chan r c).owed
    m.when (decide (d.limit < owed)) fun m => (m.log 0x0307 0 1 r [(8, r), (8, c), (8, owed)]).g7 r 1

/-- The channels of a die. -/
def dieChans (die : Nat) : List Nat := (List.range 4).map (die * 4 + ·)

/-- Meaning of TEMPERATURE_READING (R268, R275): every 100 µs a die's sensor is read; the refresh rate may change, and a drift
of 10 °C since some channel last trained retrains the die's channels at the next four bells. -/
def execTemperatureReading (r die : Nat) (degC : Int) (s : State) : Host.Outcome State Fault Refusal :=
  s.app ((Instr.temperatureReading r die degC).wf s.m.fam) <| Mach.dataRun fun m =>
    let old := m.die r die
    let due : Bool := match old.at_ with | some t => decide (t + us 100 ≤ m.cycle) | none => true
    if (m.region r).st ≠ .serving || !due then m
    else
      let thr : Int := m.effN r (0x2200 + r) 0x41
      let hys : Int := m.effN r (0x2200 + r) 0x42
      let dbl := if old.doubled then decide (thr - hys < degC) else decide (thr < degC)
      let d := { old with temp := degC, doubled := dbl, at_ := some m.cycle }
      let m := m.onDie r die fun _ => d
      let m := m.when (dbl && !old.doubled) fun m => (m.log 0x0305 0 1 r [(8, r), (8, die)]).g7 r 0
      let m := m.when (!dbl && old.doubled) fun m => m.log 0x0306 0 1 r [(8, r), (8, die)]
      let m := m.when (dbl ≠ old.doubled) fun m => m.each (dieChans die) fun m c => m.rateChange r c old d
      if old.at_ = none then m.each (dieChans die) fun m c => m.onChan r c fun x => { x with trainTemp := degC }
      else
        let drift := (dieChans die).any fun c => (m.chan r c).st = .serving && decide (10 ≤ (degC - (m.chan r c).trainTemp).natAbs)
        let planned := (dieChans die).any fun c => (m.chan r c).tempRetrain.isSome
        if drift && !planned then
          m.each (List.range 4) fun m i => m.onChan r (die * 4 + i) fun x => { x with tempRetrain := some i }
        else m

/-! ## Training (R273 to R276) -/

/-- CHANNEL_FAILED: event, G7EVT, CHLOSS (R274, R277): the counts of frames lost, pages reloaded, kept, BAD, descriptor pages.
(DEDUCED, log entry 69.) -/
def Mach.channelFailed (m : Mach) (r c : Nat) (counts : List Nat) : Mach :=
  ((m.log 0x0309 0 1 r ([(8, r), (8, c)] ++ counts.map fun n => (16, min 65535 n))).g7 r 3).onDram fun d =>
    { d with chloss := tput d.chloss [] r (counts.map fun n => min (2 ^ 32 - 1) n) }

/-- A region whose eight channels have all failed is fenced (R274). -/
def Mach.fenceIfNoT1 (m : Mach) (r : Nat) : Mach :=
  m.when ((List.range 8).all fun c => (m.chan r c).st = .failed) fun m => m.fence r 5

/-- A channel that trains starts to serve: its interval ticks run from here. -/
def Chan.served (c : Chan) (now interval : Nat) (temp : Int) : Chan :=
  { c with st := .serving, nextTick := now + interval, trainTemp := temp, sinceTrain := 65536, since := now, retries := 0 }

/-- Meaning of CHANNEL_TRAINING_DONE (R274, R372): a channel's start-up training ends; a first failure trains once more, a
second makes the channel FAILED. -/
def execChannelTrainingDone (r c : Nat) (ok : Bool) (s : State) : Host.Outcome State Fault Refusal :=
  s.app ((Instr.channelTrainingDone r c ok).wf s.m.fam) <| Mach.aliveRun fun m =>
    let x := m.chan r c
    if x.st ≠ .training || (m.region r).st = .fenced || !m.sys.ucodeLoaded then m
    else if ok then m.onChan r c fun y => y.served m.cycle (m.dieOf r c).interval (m.dieOf r c).temp
    else if x.tries = 0 then m.onChan r c fun y => { y with tries := 1, since := m.cycle }
    else
      ((m.onChan r c fun y => { y with st := .failed, tries := 2 }).channelFailed r c [0, 0, 0, 0, 0]).fenceIfNoT1 r

/-- Meaning of RETRAIN_DONE (R275, R276): a retraining ends; without a working setting the channel is SUSPENDED. -/
def execRetrainDone (r c : Nat) (ok : Bool) (s : State) : Host.Outcome State Fault Refusal :=
  s.app ((Instr.retrainDone r c ok).wf s.m.fam) <| Mach.dataRun fun m =>
    if (m.chan r c).st ≠ .retraining || m.cycle < (m.chan r c).since then m
    else if ok then m.onChan r c fun y => { y with st := .serving, trainTemp := (m.dieOf r c).temp }
    else
      ((m.onChan r c fun y => { y with st := .suspended, retries := 0, wantRetrain := false }).log 0x0308 0 1 r [(8, r), (8, c)]).g7 r 2

/-- Meaning of CHANNEL_RETRY_DONE (R276): a retry of a SUSPENDED channel ends; the fourth failure makes it FAILED. -/
def execChannelRetryDone (r c : Nat) (ok : Bool) (s : State) : Host.Outcome State Fault Refusal :=
  s.app ((Instr.channelRetryDone r c ok).wf s.m.fam) <| Mach.dataRun fun m =>
    let x := m.chan r c
    if x.st ≠ .suspended || !x.wantRetrain then m
    else if ok then
      m.onChan r c fun y =>
        { y with st := .serving, wantRetrain := false, retries := 0, sinceTrain := 0, trainTemp := (m.dieOf r c).temp }
    else if x.retries + 1 < 4 then m.onChan r c fun y => { y with wantRetrain := false, retries := y.retries + 1 }
    else m.onChan r c fun y => { y with st := .failed, wantRetrain := false, retries := 4, lossDue := true }

/-! ## A failed channel (R277, R278, Table 11.4) -/

/-- Counts of CHLOSS. -/
structure Loss where
  /-- frames lost -/
  frames : Nat := 0
  /-- pages reloaded -/
  reloaded : Nat := 0
  /-- pages kept from T0 -/
  kept : Nat := 0
  /-- pages made BAD -/
  bad : Nat := 0
  /-- descriptor pages lost -/
  pages : Nat := 0
  deriving DecidableEq, Repr

/-- Sectors of a frame on channel `c`. -/
def Mach.hits (m : Mach) (r c a len : Nat) : Bool := (m.frameSectors r a len).any fun n => secChan n = c

/-- One lost T1 frame is settled by Table 11.4. -/
def Mach.loseFrame (m : Mach) (r : Nat) (l : Loss) (c : CRef) : Mach × Loss :=
  let m := match m.jobOf c with | some j => m.when (j.tier = 1) fun m => m.killJob j | none => m
  let m := (m.dropMoves c).unrefold c
  match m.priv c with
  | none => (m, l)
  | some d =>
    let l := { l with frames := l.frames + 1 }
    let m := m.dropT1 c
    if d.rec_ ≠ .t1 && !d.t1dirty then (m, l)
    else if d.t0 then (m.onPriv c fun d => { d with dirty := true }, { l with kept := l.kept + 1 })
    else if d.rec_ = .t1 && d.t2len ≠ 0 && !d.t2bad then (m.planMove r c .reload 7, { l with reloaded := l.reloaded + 1 })
    else ((m.dropT2 c).onPriv c fun d => { d with bad := true }, { l with bad := l.bad + 1 })

/-- The descriptor pages of region `r`'s runs that lie on die `die` and are lost with it, as extent × 256 + page: those of
T1-homed runs and modified pages of the descriptor cache. -/
def Mach.lostPages (m : Mach) (r die : Nat) : List Nat :=
  ((m.region r).dplace.filterMap fun x => if x.1 < 2 ^ 40 && secDie x.2 = die then some x.1 else none).filter fun pg =>
    !m.t2Run r (pg * 64) || (m.region r).dcache.any fun l => l.id = pg && l.dirty

/-- A lost descriptor page: the descriptors that the page-map cache holds are kept. -/
def Mach.losePage (m : Mach) (r : Nat) (l : Loss) (pg : Nat) : Mach × Loss :=
  let pns := m.uncached r pg
  (m.each pns fun m pn => m.loseDesc r pn, { l with pages := l.pages + 1, bad := l.bad + pns.length })

/-- Shared-pool entries on the die that the page-map cache does not hold: BAD with SHARES = 4,095 to the next RESET_n. -/
def Mach.losePool (m : Mach) (r die : Nat) : Mach :=
  m.each ((m.mem.pool.filter fun x => x.1 / poolPerRegion = r && m.pageDie r (2 ^ 40 + x.1 % poolPerRegion / 256) = some die).map
      fun x => x.1 % poolPerRegion) fun m e =>
    if m.pmHit r (poolLine e) then m else m.losePoolEnt r e

/-- Descriptor pages of a die that has lost a channel leave their places there; those still needed are placed anew. -/
def Mach.moveOffDie (m : Mach) (r die : Nat) : Mach :=
  let pgs := ((m.region r).dplace.filter fun x => secDie x.2 = die).map (·.1)
  let m := m.each pgs fun m pg => m.unplacePage r pg
  m.onRegion r fun g => { g with dcache := g.dcache.filter fun l => !pgs.contains l.id }

/-- Meaning of CHANNEL_FAIL_SETTLE (R277, R278, Table 11.4): the frames and descriptor pages lost with a FAILED channel are
settled, CHANNEL_FAILED is logged, and requests that waited for them go on.
(DEDUCED, log entry 69.) -/
def execChannelFailSettle (r c : Nat) (s : State) : Host.Outcome State Fault Refusal :=
  s.app ((Instr.channelFailSettle r c).wf s.m.fam) <| Mach.dataRun fun m =>
    if (m.chan r c).st ≠ .failed || !(m.chan r c).lossDue || (m.region r).st ≠ .serving then m
    else
      let lost := ((m.contents r).filter fun x => x.2.t1len ≠ 0 && m.hits r c x.2.t1addr x.2.t1len).map (·.1)
      let lost := lost.filter m.cachedRef ++ lost.filter fun x => !m.cachedRef x
      let writing := (m.region r).moves.filter fun v => v.phase = .writing && v.dst = 1 && m.hits r c v.addr v.len
      let pages := m.lostPages r (c / 4)
      let m := m.each writing fun m v => m.abandon r v
      let (m, l) := lost.foldl (fun (x : Mach × Loss) cr => x.1.loseFrame r x.2 cr) (m, {})
      let (m, l) := pages.foldl (fun (x : Mach × Loss) pg => x.1.losePage r x.2 pg) (m, l)
      let m := (m.losePool r (c / 4)).moveOffDie r (c / 4)
      let m := m.onChan r c fun x => { x with lossDue := false, queue := [], owed := 0 }
      let m := (m.channelFailed r c [l.frames, l.reloaded, l.kept, l.bad, l.pages]).repay r
      let m := m.each lost fun m cr => m.pumpCref none cr
      m.fenceIfNoT1 r

end Sys2Proof.Machine
end

