-- ==== Sys2Proof/Machine/Roll.lean ====
section
/-! DEFINITION. The firmware roll (R366 to R368, R319): which hub or region changes next, and how a roll ends. -/

namespace Sys2Proof.Machine

/-- The roll's present unit begins to change: a hub's steward core is in reset with its watchdog held (R366, R375). -/
def Mach.startUnit (m : Mach) (u : Roll) : Mach :=
  let m := m.onSec fun s => { s with roll := some u, rollAt := m.cycle }
  match u with
  | .hub h => m.onHub h fun x => { x with reloadAt := some m.cycle, watchdogHeld := true }
  | _ => m

/-- A planned handover of the steward role (R319, R366): logged with kind 0; the dictionary is away for 50 ms. -/
def Mach.handOver (m : Mach) (old new : Nat) : Mach :=
  (m.onSys fun s => { s with steward := some new, lastSteward := new, roleAt := m.cycle, dictDownUntil := m.cycle + ms 50 }).log
    0x0804 0 0 0 [(8, old), (8, new), (8, 0)]

/-- The clients, their edits, subscriptions and requests are lost (R319, R366, R377). -/
def Mach.loseClients (m : Mach) : Mach := m.onDict fun d => { d with clients := [], waiting := [] }

/-- The position of the next slot marker: the next empty one, or position 0 of the erased sector (R399). -/
def nextMarker (p : Nat) : Nat := if p < 512 then p + 1 else 1

/-- The roll is over: every hub and region runs the new image; the pending slot becomes active, RAISE raises SVNFLOOR (R367). -/
def Mach.rollEnd (m : Mach) : Mach :=
  let m := m.each m.liveHubs fun m h => (m.send (.flashWr h 2)).onHub h fun x => { x with markerPos := nextMarker x.markerPos }
  m.onSec fun s =>
    let raise := match s.fwHdr with | some i => if i.flags.getLsbD 0 then i.svn else 0 | none => 0
    { s with fwstate := 0, roll := none, rolledHubs := [], rolledRegs := [], svnFloor := max s.svnFloor raise
             fwImage := [], fwHdr := none, fwOld := none }

/-- The next unit of a roll: hubs other than the steward in ascending order, then the former steward, then regions (R366,
R367). -/
def Mach.rollNext (m : Mach) : Mach :=
  let left := m.liveHubs.filter fun h => !m.sec.rolledHubs.contains h
  match left.find? fun h => m.sys.steward ≠ some h with
  | some h => m.startUnit (.hub h)
  | none =>
    match left, m.sec.rolledHubs with
    | [], _ =>
      match m.serving.find? fun r => !m.sec.rolledRegs.contains r with
      | some r => m.startUnit (.region r)
      | none => m.rollEnd
    | s :: _, n :: ns => (m.handOver s ((n :: ns).foldl min n)).startUnit (.hub s)
    | s :: _, [] => ((m.onSys fun x => { x with dictDownUntil := m.cycle + ms 250 }).loseClients).startUnit (.hub s)

/-- The unit that is changing now; in a roll that is being undone, the first changed unit left (R368). -/
def Mach.rollUnit (m : Mach) : Option Roll :=
  match m.sec.roll with
  | some .revert =>
    match m.sec.rolledHubs, m.sec.rolledRegs with
    | h :: _, _ => some (.hub h)
    | [], r :: _ => some (.region r)
    | [], [] => none
  | u => u

/-- A unit has changed: the roll moves on; a roll that was undone ends with FWSTATE 4 (R368). -/
def Mach.rollAdvance (m : Mach) (u : Roll) : Mach :=
  if m.sec.roll = some .revert then
    let m := m.onSec fun s =>
      match u with
      | .hub h => { s with rolledHubs := s.rolledHubs.filter (· ≠ h), rollAt := m.cycle }
      | .region r => { s with rolledRegs := s.rolledRegs.filter (· ≠ r), rollAt := m.cycle }
      | .revert => s
    if m.rollUnit.isNone then m.onSec fun s => { s with fwstate := 4, roll := none }
    else
      match m.rollUnit with
      | some (.hub h) => m.onHub h fun x => { x with reloadAt := some m.cycle, watchdogHeld := true }
      | _ => m
  else
    (m.onSec fun s =>
      match u with
      | .hub h => { s with rolledHubs := s.rolledHubs ++ [h] }
      | .region r => { s with rolledRegs := s.rolledRegs ++ [r] }
      | .revert => s).rollNext

/-- A roll is stopped: the pending mark is cleared and what has changed goes back to the active slot (R368). -/
def Mach.rollRevert (m : Mach) : Mach :=
  let m := m.onSec fun s => { s with roll := some .revert, rollAt := m.cycle }
  match m.rollUnit with
  | none => m.onSec fun s => { s with fwstate := 4, roll := none }
  | some (.hub h) => m.onHub h fun x => { x with reloadAt := some m.cycle, watchdogHeld := true }
  | some _ => m

end Sys2Proof.Machine
end

