-- ==== Sys2Proof/Machine/Bell.lean ====
section
/-! DEFINITION. The bell of a region (R55 to R60, R62, R64, R118, R214, R275, R276, R288, R294, R367, R406) and the reports of
accesses to sessions (R118). -/

namespace Sys2Proof.Machine

/-! ## Settings and the old plan (R57 step 1, R60, R406) -/

/-- The settings committed since the last bell take effect (R60); the next bell falls one new bell length later (R406). -/
def Mach.applySettings (m : Mach) (r : Nat) : Mach :=
  m.onRegion r fun g =>
    { g with bells := g.bells + 1, lastBell := m.cycle, eff := g.cfg, bellAt := m.cycle + us (bellUs m.fam g.cfg.vals)
             sT0 := tget m.sys.sigmaT0 (1, 1) r, sT1 := tget m.sys.sigmaT1 (1, 1) r }

/-- A move of a PARK or a RESUME: it belongs to no bell's plan (R113, R116). -/
def MoveKind.ofPark : MoveKind → Bool
  | .park _ => true
  | .resume _ => true
  | _ => false

/-- The moves of the old plan that have not taken effect are dropped and counted (R57). -/
def Mach.endPlan (m : Mach) (r : Nat) : Mach :=
  let old := (m.region r).moves.filter fun v => !v.kind.ofPark
  let m := ((m.each old fun m v => m.abandon r v).count (0x8100 + r) 1 old.length).grantLanes r
  m.each (old.filter fun v => v.kind = .promT0 && v.phase ≠ .planned) fun m v => m.pumpCref none v.cref

/-! ## Footfall (R55) -/

/-- The decay interval of pitch `p` in region `r` ends at this bell. -/
def Mach.decays (m : Mach) (r p : Nat) : Bool := let d := m.tier r p 3; decide (0 < d) && (m.region r).bells % d = 0

/-- The descriptors of region `r`'s page-map cache whose owner's interval ends are halved. -/
def Mach.decay (m : Mach) (r : Nat) : Mach :=
  let m := m.each ((m.contents r).filter fun c =>
      m.cachedRef c.1 && m.decays r (m.ownerOf c.1)) fun m c =>
    m.onPriv c.1 fun d => { d with footfall := d.footfall / 2 }
  m.onMem fun x => { x with descs := x.descs.map fun d =>
    match d.2 with
    | .const cp f i =>
      if m.homeOf d.1 = r && m.cached d.1 && m.decays r (m.ownerOf (.slot d.1)) then (d.1, .const cp (f / 2) i) else d
    | _ => d }

/-! ## Record slots and sessions -/

/-- T0-PENDING pages get free record slots in the order of the runs (R44). -/
def Mach.grantPending (m : Mach) (r : Nat) : Mach :=
  m.each ((m.contents r).filter fun c => c.2.t0 && c.2.rec_ = .none) fun m c =>
    let t := m.pickRec r (m.ownerOf c.1)
    m.onPriv c.1 fun d => { d with rec_ := t }

/-- IDLE of every session homed in region `r` grows by the bell's length, and the region's reports are sent (R118). -/
def Mach.idleBell (m : Mach) (r len : Nat) : Mach :=
  let m := m.onSess fun x => { x with sess := x.sess.map fun s =>
    if s.1 / 16384 = r && s.2.st ≠ .free then (s.1, { s.2 with idle := s.2.idle + len }) else s }
  m.onRegion r fun g =>
    { g with reports := [], reportsOut := g.reportsOut ++ g.reports.filter fun h => !g.reportsOut.contains h }

/-! ## The plan (R56 to R59, R62, R214) -/

/-- Inserts by rising key, keeping the order of equal keys. -/
def insKey {α : Type} (key : α → Nat) (x : α) : List α → List α
  | [] => [x]
  | y :: t => if key x < key y then x :: y :: t else y :: insKey key x t

/-- A list by rising key. -/
def sortKey {α : Type} (key : α → Nat) (l : List α) : List α := l.foldl (fun a x => insKey key x a) []

/-- What the planner may move: descriptors in the page-map cache, not locked, not of a RELEASING extent, not a BAD page with
nothing left to read (R57, R408). -/
def Mach.candidates (m : Mach) (r : Nat) : List (CRef × Priv) :=
  (m.contents r).filter fun c => m.planned? c.1 && !c.2.lock && !(c.2.bad && !c.2.t0 && c.2.newest.isNone)

/-- Moves that count against the plan limit: all but PARK's, reloads and refold write-backs. -/
def Mach.planSize (m : Mach) (r : Nat) : Nat :=
  ((m.region r).moves.filter fun v => match v.kind with | .park _ => false | .resume _ => false | .reload => false | .refold _ => false | _ => true).length

/-- A move added to the plan while it has room (R57 step 3). -/
def Mach.plan (m : Mach) (r : Nat) (c : CRef) (k : MoveKind) (level : Nat) : Mach :=
  if m.effN r 0x4000 0x10 ≤ m.planSize r then m else m.planMove r c k level

/-- Item 2.1: borrowed sectors are repaid by dropping clean cache copies, lowest footfall first, then by writing T1DIRTY copies
to T2 (R47). -/
def Mach.planRepay (m : Mach) (r : Nat) : Mach :=
  let cs := (m.candidates r).filter fun c => c.2.t1Cache && !c.2.t1bad
  let clean := sortKey (fun c => c.2.footfall * 2 ^ 24 + c.2.t1addr) (cs.filter fun c => !c.2.t1dirty)
  let dirty := sortKey (fun c => c.2.footfall) (cs.filter fun c => c.2.t1dirty)
  ((clean ++ dirty).foldl (fun (x : Mach × Nat) c =>
    if x.2 = 0 then x else (x.1.plan r c.1 .dropT1 7, x.2 - c.2.t1len)) (m, (m.region r).borrowed)).1

/-- Item 2.1: records of a pitch above its scaled T1 share move to T2, lowest footfall first (R214). -/
def Mach.planExcess (m : Mach) (r : Nat) : Mach :=
  m.each (List.range 64) fun m p =>
    let excess := min (m.recPages r p .t1 - m.t1Share r p) (m.t2RecFree r p)
    m.when (p ≠ 0 && decide (0 < excess)) fun m =>
      let cs := (m.candidates r).filter fun c =>
        c.2.rec_ = .t1 && c.2.t1len ≠ 0 && !c.2.t1bad && !(c.2.t0 && c.2.dirty) && m.ownerOf c.1 = p
      m.each ((sortKey (fun c => c.2.footfall) cs).take excess) fun m c => m.plan r c.1 .toT2 7

/-- The low-water mark of free T0 pages: 1/32 of the region's T0 (R57). -/
def Mach.lowWater (m : Mach) (r : Nat) : Nat := m.t0Cap r / 32

/-- Pages a demotion may take out of T0: with a record, clean ones first, then by footfall (R49).
(DEDUCED, log entry 30.) -/
def Mach.t0Order (m : Mach) (r : Nat) : List (CRef × Priv) :=
  sortKey (fun c => (if c.2.dirty then 256 else 0) + c.2.footfall) ((m.candidates r).filter fun c => c.2.t0 && c.2.rec_ ≠ .none)

/-- The pitches of the requests that wait in region `r` for a T0 page, each once. -/
def Mach.t0Waiters (m : Mach) (r : Nat) : List Nat :=
  let ws := m.mem.waits.filterMap fun w => if w.why = .t0 && w.region = r then some (m.reqPitch w.req) else none
  let ks := m.mem.keeps.filterMap fun k => if m.crefRegion k.1 = r then some k.2.1 else none
  let hs := m.mem.house.filterMap fun h => if m.homeOf h.pn = r then some 0 else none
  (ws ++ ks ++ hs).eraseDups

/-- Item 2.2 for requests that found no page under R49: one of the pages R49 would take, for each pitch that waits. -/
def Mach.planWaiters (m : Mach) (r : Nat) : Mach :=
  m.each (m.t0Waiters r) fun m p =>
    let own := decide (m.t0Ceil r p ≤ m.t0Charged r p)
    match (m.t0Order r).find? fun c =>
        if own then c.2.cpitch = p else decide (m.t0Floor r c.2.cpitch < m.t0Pages r c.2.cpitch) with
    | some c => if own || m.freeT0 r = 0 then m.plan r c.1 .demote 7 else m
    | none => m

/-- Item 2.2: pressure demotions for the requests that wait, then from pitches above their floor shares until the free pages reach
the low-water mark. -/
def Mach.planPressure (m : Mach) (r : Nat) : Mach :=
  let m := m.planWaiters r
  ((m.t0Order r).foldl (fun (x : Mach × Nat × Tab Nat) c =>
    let (m, need, taken) := x
    let p := c.2.cpitch
    if need = 0 || m.t0Pages r p ≤ m.t0Floor r p + tget taken 0 p then x
    else (m.plan r c.1 .demote 7, need - 1, tput taken 0 p (tget taken 0 p + 1))) (m, m.lowWater r - m.freeT0 r, [])).1

/-- Item 2.3 for T0: a pitch above its ceiling share gives pages up. Answers the pages it planned. -/
def Mach.planCeilT0 (m : Mach) (r : Nat) : Mach × List CRef :=
  (m.t0Order r).foldl (fun (x : Mach × List CRef) c =>
    let (m, done) := x
    let p := c.2.cpitch
    let leaving := ((m.region r).moves.filter fun v =>
      v.kind = .demote && (match m.priv v.cref with | some d => decide (d.cpitch = p) | none => false)).length
    if p = 0 || m.t0Pages r p ≤ m.t0Ceil r p + leaving then x else (m.plan r c.1 .demote 7, done ++ [c.1])) (m, [])

/-- Item 2.3 for T1: cache copies of a pitch above its ceiling share, lowest footfall first. -/
def Mach.planCeilT1 (m : Mach) (r : Nat) : Mach × List CRef :=
  let cs := sortKey (fun c => c.2.footfall) ((m.candidates r).filter fun c => c.2.t1Cache && !c.2.t1bad)
  cs.foldl (fun (x : Mach × List CRef) c =>
    let (m, done) := x
    let p := c.2.cpitch
    let leaving := (((m.region r).moves.filter fun v => v.kind = .dropT1).filterMap fun v =>
      match m.priv v.cref with | some d => if d.cpitch = p then some d.t1len else none | none => none).foldl (· + ·) 0
    if p = 0 || m.t1Sect r p ≤ 8 * m.t1Ceil r p + leaving then x else (m.plan r c.1 .dropT1 7, done ++ [c.1])) (m, [])

/-- The promotion of a candidate (R57 item 2.4): T1 to T0, T2 to T1, or T2 to T0 from a footfall of 2U. -/
def Mach.promotion (m : Mach) (r : Nat) (c : CRef) (d : Priv) : Option MoveKind :=
  let u := m.tier r (m.ownerOf c) 1
  if d.footfall < u then none
  else if d.t1len ≠ 0 then (if d.t0 || d.newest.isNone then none else some .promT0)
  else if d.t2len = 0 || d.t2bad || (d.t0 && d.dirty) || m.inReattach r (m.ownerOf c) then none
  else if !d.t0 && decide (2 * u ≤ d.footfall) then some .promT0
  else some .promT1

/-- Item 2.4 with R62: a promotion takes the place of another move of the page; in place of a ceiling demotion, the copy is
charged to the page's owner. -/
def Mach.planPromote (m : Mach) (r : Nat) (ceiling : List CRef) : Mach :=
  let cs := sortKey (fun c => 255 - c.2.footfall) ((m.candidates r).filter fun c => (m.promotion r c.1 c.2).isSome)
  m.each cs fun m c =>
    match m.promotion r c.1 c.2 with
    | none => m
    | some k =>
      let contested := (m.region r).moves.any fun v => v.cref = c.1 && v.phase = .planned && !v.kind.ofPark
      if contested then
        if m.effN r 0x4000 0x10 ≤ m.planSize r then m
        else
        let m := m.onRegion r fun g => { g with moves := g.moves.filter fun v => v.cref ≠ c.1 }
        let m := m.when (ceiling.contains c.1) fun m => m.onPriv c.1 fun d => { d with cpitch := m.ownerOf c.1 }
        m.plan r c.1 k 0
      else m.plan r c.1 k 0

/-- Item 2.5: idle demotions in ascending footfall (R56, R57, Table 02.5). -/
def Mach.planIdle (m : Mach) (r : Nat) : Mach :=
  let prof := m.profile r
  let idle (c : CRef × Priv) : Bool := decide (c.2.footfall ≤ m.tier r (m.ownerOf c.1) 2)
  let cs := sortKey (fun c => c.2.footfall) ((m.candidates r).filter idle)
  let t0 := cs.filter fun c => c.2.t0 && c.2.rec_ ≠ .none
  let t1 := cs.filter fun c => c.2.t1Cache && !c.2.t1bad
  let m := m.when (prof ≠ 0 || decide (m.freeT0 r < 2 * m.lowWater r)) fun m =>
    m.each (t0.map fun c => (c, MoveKind.demote)) (fun m c => m.plan r c.1.1 c.2 0) |>.each t1 fun m c => m.plan r c.1 .dropT1 0
  m.when (prof = 2) fun m =>
    let rs := (m.candidates r).filter fun c =>
      c.2.rec_ = .t1 && c.2.t1len ≠ 0 && !c.2.t1bad && c.2.footfall = 0 && !(c.2.t0 && c.2.dirty)
        && decide (0 < m.t2RecFree r (m.ownerOf c.1))
    m.each rs fun m c => m.plan r c.1 .toT2 0

/-- The write-backs of the refold list and the reloads of frames lost with a channel: highest level, outside the limit (R277,
R288). -/
def Mach.planOutside (m : Mach) (r : Nat) : Mach :=
  let m := m.each (m.region r).refold fun m x =>
    (m.planMove r x.1 (.refold x.2.1) 7).onRegion r fun g =>
      { g with moves := lmod g.moves (fun v => v.cref = x.1 && v.kind = .refold x.2.1) fun v => { v with frame := x.2.2 } }
  let lost := (m.contents r).filter fun c => c.2.rec_ = .t1 && c.2.t1len = 0 && c.2.t2len ≠ 0 && !c.2.t2bad && !c.2.t0 && !c.2.lock
  m.each lost fun m c => m.planMove r c.1 .reload 7

/-- The new plan in the order of R57.
(DEDUCED, log entry 68.) -/
def Mach.newPlan (m : Mach) (r : Nat) : Mach :=
  let m := ((m.planOutside r).planRepay r).planExcess r
  let (m, a) := (m.planPressure r).planCeilT0 r
  let (m, b) := m.planCeilT1 r
  (m.planPromote r (a ++ b)).planIdle r

/-! ## Channels (R275, R276) and leaky buckets (R294) -/

/-- A channel starts to retrain, once its owed refreshes have been issued (R275). -/
def Chan.retrain (c : Chan) (now : Nat) : Chan :=
  if c.st = .serving && !c.wantRetrain then
    (if c.owed = 0 then { c with st := .retraining, sinceTrain := 0, since := now } else { c with wantRetrain := true })
  else c

/-- Channel `c` at its region's bell: the periodic and the temperature trigger, and a SUSPENDED channel's retry. A retraining
less than a period ago has reset the channel's periodic count (log entry 20).
(DEDUCED, log entry 20.) -/
def Chan.bell (x : Chan) (c bells period now : Nat) : Chan :=
  let x := { x with sinceTrain := x.sinceTrain + 1 }
  let slot := bells % period = c * period / 8 && decide (period ≤ x.sinceTrain)
  let x := if slot || x.tempRetrain = some 0 then x.retrain now else x
  let x := if x.st = .suspended && !x.wantRetrain then { x with wantRetrain := true, since := now } else x
  { x with tempRetrain := match x.tempRetrain with | some (n + 1) => some n | _ => none }

/-- The channels of region `r` at its bell. -/
def Mach.bellChans (m : Mach) (r : Nat) : Mach :=
  m.each (List.range 8) fun m c =>
    m.onChan r c fun x => x.bell c (m.region r).bells (m.effN r (0x2200 + r) 0x44) m.cycle

/-- The region's buckets leak by one each leak period, and take the settings in force for the next period (R294). -/
def Mach.leakRegion (m : Mach) (r : Nat) : Mach :=
  let set := tget m.code.lbRegSet {} r
  let period := if set.period = 0 then 32 else set.period
  let bells := (m.region r).bells
  if bells < set.last + period then m
  else
    m.onCode fun c =>
      { c with lbRegion := c.lbRegion.filterMap fun b =>
                 if b.1 / 1024 = r then (if b.2 ≤ 1 then none else some (b.1, b.2 - 1)) else some b
               lbRegSet := tput c.lbRegSet {} r ⟨m.regN r 0x7100 1, m.regN r 0x7100 2, bells⟩ }

/-! ## The bell -/

/-- A bell of region `r` in a firmware roll: the region stops planning for its microcode, or resumes (R367). -/
def Mach.rollBell (m : Mach) (r : Nat) : Mach :=
  if (m.region r).rolledIn then
    (m.onRegion r fun g => { g with rolling := false, rolledIn := false }).rollAdvance (.region r)
  else if m.rollUnit = some (.region r) then m.onRegion r fun g => { g with rolling := true }
  else m

/-- Meaning of BELL (R57, R60, R406): one bell of region `r`. -/
def execBell (r : Nat) (s : State) : Host.Outcome State Fault Refusal :=
  s.app ((Instr.bell r).wf s.m.fam) <| Mach.dataRun fun m =>
    if (m.region r).st ≠ .serving || m.cycle < (m.region r).bellAt then m
    else
      let len := us (bellUs m.fam (m.region r).eff.vals)
      let m := ((m.applySettings r).endPlan r).rollBell r
      let m := ((m.decay r).idleBell r len).grantPending r
      let m := m.when (!(m.region r).rolling) fun m => m.newPlan r
      (m.bellChans r).leakRegion r

/-- Meaning of ACCESS_REPORT (R118): region `r`'s report of accesses to a session reaches the session's home region, which
clears IDLE. -/
def execAccessReport (r handle : Nat) (s : State) : Host.Outcome State Fault Refusal :=
  s.app ((Instr.accessReport r handle).wf s.m.fam) <| Mach.dataRun fun m =>
    if (m.region r).st = .serving && (m.region r).reportsOut.contains handle then
      let m := m.onRegion r fun g => { g with reportsOut := g.reportsOut.filter (· ≠ handle) }
      match m.byHandle handle with
      | some (k, _) => m.onSession k fun s => { s with idle := 0 }
      | none => m
    else m

end Sys2Proof.Machine
end

