-- ==== Sys2Proof/Machine/Buffers.lean ====
section
/-! DEFINITION. Buffers and pages as service descriptors read and write them (R117, R129 to R132, R149, R171, R184, R197, R293):
where a buffer lies, the pages read into scratch, the lines written. -/

namespace Sys2Proof.Machine

/-! ## Where a buffer lies (R131) -/

/-- The addresses at which the 4 KiB pages of a buffer begin. -/
def pageAddrs (a len : Nat) : List Nat := (List.range ((a % 4096 + len + 4095) / 4096)).map fun i => a / 4096 * 4096 + 4096 * i

/-- The device page number of an address in a mapped extent; none outside every extent. -/
def Mach.pageAt (m : Mach) (f a : Nat) : Option Nat :=
  match m.decodeHpa f a with
  | some dpa => if (m.extent (extOf (dpa / 4096))).st = .free then none else some (dpa / 4096)
  | none => none

/-- The buffer begins in memory of the part. -/
def Mach.inPart (m : Mach) (d : Dtor) (a : Nat) : Bool := (m.pageAt d.fn a).isSome

/-- The buffer spans the boundary between memory of the part and memory outside it. -/
def Mach.straddles (m : Mach) (d : Dtor) (a len : Nat) : Bool :=
  (pageAddrs a len).any (fun x => m.inPart d x) && (pageAddrs a len).any (fun x => !m.inPart d x)

/-- Order 6 of Table 05.5 for a buffer: aligned, below 2^64, not straddling. -/
def Mach.bufFits (m : Mach) (d : Dtor) (align a len : Nat) : Bool :=
  a % align = 0 && decide (a + len ≤ 2 ^ 64) && !m.straddles d a len

/-- Order 7 of Table 05.5 for a buffer: DENIED in another pitch's extent, NO_WINDOW where no one window
holds the buffer (R254). -/
def Mach.bufResolve (m : Mach) (d : Dtor) (a len : Nat) : Option Nat :=
  let p := m.dtorPitch d
  (pageAddrs a len).findSome? fun x =>
    match m.pageAt d.fn x with
    | some pn => if (m.extent (extOf pn)).pitch = p then none else some stDenied
    | none => if (m.peerMatch p (d.fn / 16) a len).isSome then none else some stNoWindow

/-- The device pages of a buffer in the part. -/
def Mach.bufPages (m : Mach) (d : Dtor) (a len : Nat) : List Nat := (pageAddrs a len).filterMap fun x => m.pageAt d.fn x

/-! ## What a page holds -/

/-- Where a page's words come from: nowhere (they read as poison), a pattern, a content descriptor. -/
inductive PageRef where
  | blank
  | pat (r i : Nat)
  | cont (c : CRef)
  deriving DecidableEq, Repr

/-- A pool entry of region `q` as a reference: poison where the region is not serving or the entry is lost. -/
def Mach.poolRef (m : Mach) (q e : Nat) : PageRef :=
  match m.poolEnt q e with
  | some x => if (m.region q).st = .serving && !x.lost then .cont (.pool q e) else .blank
  | none => .blank

/-- A page of the part as a service reads it: poison in a RELEASING extent (R184) and in a region that is not serving. -/
def Mach.pageRef (m : Mach) (pn : Nat) : PageRef :=
  let r := m.homeOf pn
  let x := m.extent (extOf pn)
  if x.st = .free || x.st = .releasing || (m.region r).st ≠ .serving then .blank
  else
    match m.desc pn with
    | .unwritten => .blank
    | .priv _ => .cont (.slot pn)
    | .const _ _ i => .pat r i
    | .ref q e => m.poolRef q e

/-- A page of a published version by its map entry. -/
def Mach.entRef (m : Mach) : MapEnt → PageRef
  | .unwritten => .blank
  | .const r i => if (m.region r).st = .serving then .pat r i else .blank
  | .shared r e => m.poolRef r e

/-- The descriptor has the content's words in scratch. -/
def Mach.inScratch (m : Mach) (d : Nat) (c : CRef) : Option (List CWord) :=
  (m.mem.scratch.find? fun x => x.1 = d && x.2.1 = c).map fun x => x.2.2

/-- A page's words for a descriptor: those in scratch, or what needs no reading. -/
def Mach.refWords (m : Mach) (d : Nat) : PageRef → List CWord
  | .blank => List.replicate 128 .poison
  | .pat r i => List.replicate 128 (m.patWord r i)
  | .cont c => (m.inScratch d c).getD (List.replicate 128 .poison)

/-- The descriptor still waits for the content's frame. -/
def Mach.fetching (m : Mach) (d : Nat) : PageRef → Bool
  | .cont c => (m.inScratch d c).isNone && m.mem.jobs.any fun j => j.cref = c && j.users.contains d
  | _ => false

/-- The line of page `pn`'s descriptor is used: fetched into the page-map cache where it was not there (R33). -/
def Mach.useLine (m : Mach) (pn : Nat) (dirty : Bool) : Mach :=
  let r := m.homeOf pn
  (m.pmInstall r (m.pmLine pn)).pmTouch r (m.pmLine pn) dirty

/-- The line of a content's descriptor is used (R33). -/
def Mach.useContent (m : Mach) : CRef → Mach
  | .slot pn => m.useLine pn false
  | .pool r e => (m.pmInstall r (poolLine e)).pmTouch r (poolLine e) false
  | .desc _ _ => m

/-- A content is read for descriptor `d`, once, and counted once in its footfall (R54, R130): from T0; else its newest frame is
unfolded into scratch; else poison. A flagged word of a T0 copy is settled as R291 states. -/
def Mach.fetchRef (m : Mach) (d : Nat) (ref : PageRef) : Mach :=
  match ref with
  | .cont c =>
    if (m.inScratch d c).isSome || m.fetching d ref then m
    else
      let m := (m.useContent c).foot c
      match m.priv c with
      | none => m.keepWords d c (List.replicate 128 .poison)
      | some p =>
        if p.t0 then
          if (m.t0Words (m.crefRegion c) p.t0slot).any isFlagged && !p.dirty && p.newest.isSome then m.readFrame c p none (some d)
          else
            let (m, ws) := m.readT0 c (match m.dtorAt d with | some x => m.dtorPitch x | none => 0)
            m.keepWords d c ws
        else if p.newest.isNone then m.keepWords d c (List.replicate 128 .poison)
        else m.readFrame c p none (some d)
  | _ => m

/-- A page of the part is read for descriptor `d`. -/
def Mach.fetchPage (m : Mach) (d pn : Nat) : Mach := (m.useLine pn false).fetchRef d (m.pageRef pn)

/-- A page made CONSTANT counts its one access by a descriptor (R54). -/
def Mach.footPat (m : Mach) (pn : Nat) : Mach := m.footConst pn

/-! ## Buffers read -/

/-- The number of the input that holds an outside buffer. -/
def Dtor.inputAt (d : Dtor) (a len : Nat) : Option Nat :=
  let i := d.inp.findIdx fun x => x.addr = a && x.len = len
  if i < d.inp.length then some i else none

/-- The words of a buffer from the 32-byte boundary at or below `a`: none where poisoned or missing. -/
def Mach.bufWords (m : Mach) (d : Dtor) (a len : Nat) : List (Option Word) :=
  if m.inPart d a then
    (((m.bufPages d a len).flatMap fun pn => m.refWords d.id (m.pageRef pn)).map readWord).drop (a % 4096 / 32) |>.take (wordsOf a len)
  else
    match d.inputAt a len with
    | some i => (List.range (wordsOf a len)).map fun w => d.inWord i w
    | none => List.replicate (wordsOf a len) none

/-- The bytes of a buffer: none in a poisoned word. -/
def Mach.bufBytes (m : Mach) (d : Dtor) (a len : Nat) : List (Option Byte) :=
  (((m.bufWords d a len).flatMap fun w =>
    match w with
    | some w => (wordBytes w).map some
    | none => List.replicate 32 none).drop (a % 32)).take len

/-- The bytes of a buffer without a poisoned word. -/
def Mach.bufClean (m : Mach) (d : Dtor) (a len : Nat) : Option (List Byte) :=
  let l := m.bufBytes d a len
  if l.all Option.isSome then some (l.map fun b => b.getD 0) else none

/-- The pages of a buffer in the part are read for a descriptor.
(DESIGN CHOICE, log entry 66.) -/
def Mach.fetchBuf (m : Mach) (d : Dtor) (a len : Nat) : Mach := m.each (m.bufPages d a len) fun m pn => m.fetchPage d.id pn

/-- Whether some page of a buffer in the part has still to come. -/
def Mach.bufFetching (m : Mach) (d : Dtor) (a len : Nat) : Bool :=
  (m.bufPages d a len).any fun pn => m.fetching d.id (m.pageRef pn)

/-- The outside buffers among `bs` (control input or not, address, length) that are not inputs of the descriptor yet become
inputs, each read once (R129). -/
def Mach.addInputs (m : Mach) (d : Nat) (bs : List (Bool × Nat × Nat)) : Mach :=
  match m.dtorAt d with
  | none => m
  | some x =>
    let new := (bs.filter fun b => b.2.2 ≠ 0 && !m.inPart x b.2.1 && (x.inputAt b.2.1 b.2.2).isNone).eraseDups
    (m.onDtor d fun y => { y with inp := y.inp ++ new.map fun b => newInput b.1 b.2.1 b.2.2 }).issueInputs d 16

/-- Every input of a descriptor, outside the part and in it, has come. -/
def Mach.inputsReady (m : Mach) (d : Nat) (bs : List (Bool × Nat × Nat)) : Bool :=
  match m.dtorAt d with
  | none => false
  | some x => x.inputsDone && bs.all fun b => !m.inPart x b.2.1 || !m.bufFetching x b.2.1 b.2.2

/-- The inputs of a descriptor are asked for: outside ones by device-initiated reads, pages of the part into scratch. -/
def Mach.askInputs (m : Mach) (d : Nat) (bs : List (Bool × Nat × Nat)) : Mach :=
  let m := m.addInputs d bs
  m.each bs fun m b => match m.dtorAt d with | some x => m.fetchBuf x b.2.1 b.2.2 | none => m

/-- Footfall of the CONSTANT pages of a buffer that a descriptor has read (R54). -/
def Mach.footBuf (m : Mach) (d : Dtor) (a len : Nat) : Mach := m.each (m.bufPages d a len) fun m pn => m.footPat pn

/-! ## Pages written -/

/-- The session whose working range holds a page is PARKED: a write makes it ACTIVE (R115). -/
def Mach.unparkAt (m : Mach) (pn : Nat) : Mach :=
  match m.sessWork pn with
  | some (k, s) => if s.st = .parked then m.unpark k else m
  | none => m

/-- A write of a service to the page must wait for its session (Table 04.6). -/
def Mach.sessHolds (m : Mach) (pn : Nat) : Bool :=
  match m.sessWork pn with
  | some (_, s) => s.st = .freezing || s.st = .parking || s.st = .reattaching
  | none => false

/-- Pages a service may write now: no line of them is held in a directory (R197), no session holds writes back. -/
def Mach.mayWrite (m : Mach) (pns : List Nat) : Bool :=
  pns.all fun pn => !m.pagesCached pn 1 && !m.sessHolds pn

/-- The lines of the pages are recalled (R197). -/
def Mach.recallAll (m : Mach) (pns : List Nat) : Mach := m.each pns fun m pn => m.recallPages pn 1

/-- A page a service writes counts one access: a fresh write counts itself (R54). -/
def Mach.footWrite (m : Mach) (pn : Nat) : Mach :=
  match m.desc pn with
  | .priv _ => m.foot (.slot pn)
  | .ref r e => m.foot (.pool r e)
  | _ => m

/-- One or two words of a line written by a service, as the part's own write of the line: clean words, then poisoned ones. -/
def Mach.lineOut (m : Mach) (d : Dtor) (dpa : Nat) (be : BitVec 64) (w0 w1 : Option Word) : Mach :=
  let lo : BitVec 64 := 0xFFFFFFFF
  let ok : BitVec 64 := (if w0.isSome then lo else 0) ||| (if w1.isSome then lo <<< 32 else 0)
  let put (m : Mach) (be : BitVec 64) (poison : Bool) : Mach :=
    if be = 0 then m
    else
      let q : Req := { id := m.nextId, fn := d.fn, tag := {}, kind := .wr false ((w1.getD 0) ++ (w0.getD 0)) be poison, dpa := dpa,
                       at_ := m.cycle, internal := true, dtor := some d.id }
      m.renumber.serve none q
  put (put m (be &&& ok) false) (be &&& ~~~ok) true

/-- The page is in an extent a service may change: one that is RELEASING is written to no effect (R184). -/
def Mach.takesWrites (m : Mach) (pn : Nat) : Bool := (m.extent (extOf pn)).st = .active

/-- Words written into memory of the part, one line after another from `a` on; `n` bytes of them count. -/
def Mach.linesOut (m : Mach) (d : Dtor) (a n : Nat) : Nat → Nat → List (Option Word) → Mach
  | 0, _, _ => m
  | fuel + 1, i, ws =>
    let be : BitVec 64 := BitVec.ofNat 64 (2 ^ (min 64 (n - 64 * i)) - 1)
    let m := match m.decodeHpa d.fn (a + 64 * i) with
      | some dpa => m.when (m.takesWrites (dpa / 4096)) fun m => m.lineOut d dpa be (ws.headD (some 0)) (ws.tail.headD (some 0))
      | none => m
    Mach.linesOut m d a n fuel (i + 1) (ws.drop 2)

/-- Words sent out of the part to an outside address: `n` bytes of them, in requests of at most a page, poisoned words apart. -/
def Mach.pagesOut (m : Mach) (d : Dtor) (a n : Nat) (ws : List (Option Word)) : Mach :=
  m.each (pageAddrs a n) fun m x =>
    let lo := max a x
    let hi := min (a + n) (x + 4096)
    m.writeOut d (x / 4096 - a / 4096) lo (hi - lo) ((ws.drop ((lo - a) / 32)).take ((hi - lo + 31) / 32))

/-- A buffer is written: `n` bytes at `a` (R131, R293). -/
def Mach.bufOut (m : Mach) (d : Dtor) (a n : Nat) (ws : List (Option Word)) : Mach :=
  if m.inPart d a then
    let m := m.each ((m.bufPages d a n).filter m.takesWrites) fun m pn => ((m.useLine pn true).unparkAt pn).footWrite pn
    m.linesOut d a n ((n + 63) / 64) 0 ws
  else m.pagesOut d a n ws

end Sys2Proof.Machine
end

