-- ==== Sys2Proof/Machine/Sessions.lean ====
section
/-! DEFINITION. Session descriptors (R93 to R96, R99, R105, R107 to R112, R118 to R120, R184, R407): how a session takes an
operation, and CREATE, DESTROY, SETATTR, DROP, OPEN, CLOSE, FORK and EXPIRE. -/

namespace Sys2Proof.Machine

/-! ## Starting a descriptor (R112, R172, R173) -/

/-- Descriptors of the same queue that come before `x`. -/
def Mach.before (m : Mach) (x : Dtor) : List Dtor :=
  m.svc.dtors.filter fun y => y.fn = x.fn && y.q = x.q && decide (y.seq < x.seq)

/-- The descriptor names a session by HANDLE. -/
def Dtor.namesSess (x : Dtor) : Bool := usesHandle x.opcode && x.opcode ≠ 0x16

/-- Descriptor `d` with its opcode, if it may run now: no FENCE before it is in flight (R173), and operations of its queue on
the session it names have reached the session before it (R172). -/
def Mach.startable (m : Mach) (d op : Nat) : Option Dtor :=
  match m.dtorAt d with
  | none => none
  | some x =>
    if x.opcode ≠ op then none
    else
      match x.stage with
      | .running => some x
      | .writing => none
      | .waiting => none
      | _ =>
        if (m.before x).any fun y => y.isFence || (x.namesSess && y.namesSess && y.handle = x.handle &&
            (y.stage = .dispatched || y.stage = .reading)) then none
        else some x

/-- The descriptor has started. -/
def Mach.begin (m : Mach) (d : Nat) : Mach := m.onDtor d fun x => { x with stage := .running }
/-- The descriptor's inputs are being read. -/
def Mach.reading (m : Mach) (d : Nat) : Mach :=
  m.onDtor d fun x => if x.stage = .running then x else { x with stage := .reading }

/-! ## Table 04.6 -/

/-- How a session settles an operation. -/
inductive Gate where
  | runs | waits
  | ends (status : Nat)
  deriving DecidableEq, Repr

/-- A Tally operation on version 0, or an operation on a published version: those of the third and second columns. -/
def Dtor.onWorking (x : Dtor) : Bool := (x.opcode = 0x20 || x.opcode = 0x22) && x.version = 0
/-- OPEN, FORK and Tally on a published version. -/
def Dtor.onPublished (x : Dtor) : Bool := x.opcode = 0x15 || x.opcode = 0x17 || ((x.opcode = 0x20 || x.opcode = 0x22) && x.version ≠ 0)

/-- The settlement of an operation in a session state (Table 04.6). -/
def gateOf (st : SState) (x : Dtor) : Gate :=
  let op := x.opcode
  match st with
  | .free => .ends stBadHandle
  | .active => .runs
  | .freezing => if x.onPublished then .runs else .waits
  | .parking => if x.onPublished || x.onWorking then .runs else .waits
  | .parked => if op = 0x13 || op = 0x14 then .ends stBadState else .runs
  | .resuming => if x.onPublished || x.onWorking then .runs else .waits
  | .destroying => .ends stBadHandle
  | .reattaching => .waits

/-- Some page of the session lies in an extent that is RELEASING (R184). -/
def Mach.sessReleasing (m : Mach) (s : Session) : Bool :=
  m.ext.exts.any fun e => e.2.st = .releasing &&
    (overlap s.wbase s.npages (e.1 * extentPages) extentPages ||
      overlap s.mbase (mapPages s.npages) (e.1 * extentPages) extentPages)

/-- The first operation that waits for session `k` (R112). -/
def Mach.firstWaiter (m : Mach) (k : Nat) : Option Nat :=
  (m.sess.waitOps.find? fun w => w.1 = k && (match m.dtorAt w.2 with
    | some x => x.stage ≠ .running && x.stage ≠ .writing
    | none => false)).map (·.2)

/-- The settlement at session `k`: by its state; an ACTIVE or PARKED session takes one operation at a time, in the order they came
(R112), and in the other states an operation that runs waits for a FORK alone.
(DEDUCED, log entry 80.) -/
def Mach.gate (m : Mach) (k : Nat) (s : Session) (x : Dtor) : Gate :=
  if s.busy = some x.id || s.side = some x.id then .runs
  else if gateOf s.st x ≠ .runs then gateOf s.st x
  else if s.side.isSome then .waits
  else if (s.st = .active || s.st = .parked) &&
      (s.busy.isSome || (x.stage ≠ .running && (match m.firstWaiter k with | some d => d ≠ x.id | none => false))) then .waits
  else .runs

/-- The operation waits for its session (R112). -/
def Mach.waitSess (m : Mach) (k d : Nat) : Mach :=
  let m := m.onDtor d fun x => { x with stage := .waiting }
  m.onSess fun x => if x.waitOps.contains (k, d) then x else { x with waitOps := x.waitOps ++ [(k, d)] }

/-- An operation on a session: handle (R95), pitch (R407, `own` where the owner alone may), RELEASING extents (R184), state. One in
DESTROYING answers BAD_HANDLE, also where the descriptor names an absent version: Table 05.5 row 2 gives both BAD_HANDLE and BAD_VERSION
and no order inside the row.
(DESIGN CHOICE, log entry 91.) -/
def Mach.sessOp (m : Mach) (d op : Nat) (own : Bool) (body : Mach → Dtor → Nat → Session → Mach) : Mach :=
  match m.startable d op with
  | none => m
  | some x =>
    match m.byHandle x.handle with
    | none => m.opDone d stBadHandle 0
    | some (k, s) =>
      let m := m.onSession k fun s => { s with idle := 0 }
      if own && s.pitch ≠ m.dtorPitch x then m.opDone d stDenied 0
      else if s.busy ≠ some d && m.sessReleasing s then m.opDone d stAborted 0
      else
        match m.gate k s x with
        | .runs => body m x k s
        | .waits => m.waitSess k d
        | .ends st => m.opDone d st 0

/-- A session operation in progress holds the session. -/
def Mach.hold (m : Mach) (k d : Nat) : Mach := (m.begin d).onSession k fun s => { s with busy := some d }

/-- A FORK in progress stands beside the session's state. -/
def Mach.holdFork (m : Mach) (k d : Nat) : Mach := (m.begin d).onSession k fun s => { s with side := some d }

/-- A session leaves a state: writes that waited for it go on (R100, Table 04.6). -/
def Mach.leaveState (m : Mach) (k : Nat) (st : SState) : Mach :=
  (m.onSession k fun s => { s with st := st, busy := none }).pumpAll .session

/-! ## The layout record (R98, R99) -/

/-- Head dimension by HDIM. -/
def headDim (code : Nat) : Nat := match code with | 0 => 64 | 1 => 96 | 2 => 128 | 3 => 192 | _ => 256

/-- A layout record's fields (Table 04.2). -/
structure Layout where
  /-- NTOK -/
  ntok : Nat
  /-- KBASE -/
  kbase : Nat
  /-- VBASE -/
  vbase : Nat
  /-- LSTRIDE -/
  lstride : Nat
  /-- HSTRIDE -/
  hstride : Nat
  /-- LAYERS -/
  layers : Nat
  /-- KVHEADS -/
  kvheads : Nat
  /-- HDIM -/
  hdim : Nat
  /-- EFMT -/
  efmt : Nat
  /-- TPP -/
  tpp : Nat
  /-- LVER -/
  lver : Nat
  /-- the reserved bits -/
  rsvd : Nat
  deriving DecidableEq, Repr

/-- The layout record a word holds. -/
def layoutOf (w : Word) : Layout :=
  let x := w.toNat
  ⟨bits x 255 231, bits x 230 207, bits x 206 183, bits x 182 159, bits x 158 135, bits x 134 127, bits x 126 119, bits x 118 116,
    bits x 115 112, bits x 111 102, bits x 101 96, bits x 95 0⟩

/-- Bytes of a row of `d` elements under EFMT (R98). -/
def rowBytes (efmt d : Nat) : Nat :=
  match efmt with
  | 1 => 2 * d | 2 => 2 * d
  | 3 => d | 4 => d
  | 5 => d + d / 32
  | _ => d / 2 + d / 32

/-- The part accepts a layout record for a session of NPAGES pages (R99). -/
def layoutOk (w : Word) (npages : Nat) : Bool :=
  let l := layoutOf w
  let span := (l.layers - 1) * l.lstride + (l.kvheads - 1) * l.hstride + (l.ntok + l.tpp - 1) / l.tpp - 1
  w = 0 ||
    (l.lver = 1 && decide (l.hdim ≤ 4) && decide (1 ≤ l.efmt) && decide (l.efmt ≤ 6) && l.rsvd = 0 && decide (l.ntok ≤ 2 ^ 24)
      && decide (1 ≤ l.layers) && decide (1 ≤ l.kvheads) && decide (1 ≤ l.tpp)
      && decide (l.tpp * rowBytes l.efmt (headDim l.hdim) ≤ 4096)
      && (l.ntok = 0 || (decide (l.kbase + span < npages) && decide (l.vbase + span < npages))))

/-- The layout operand at LAYADDR (R167, R171): a status, none while it is being read, or the word. -/
inductive LayIn where
  | bad (status : Nat)
  | later (m : Mach)
  | word (w : Word)
  deriving DecidableEq, Repr

/-- The layout record at address `a`: zero stands for the all-zero record. -/
def Mach.layIn (m : Mach) (x : Dtor) (a : Nat) : LayIn :=
  if a = 0 then .word 0
  else if !m.bufFits x 32 a 32 then .bad stBadRange
  else
    match m.bufResolve x a 32 with
    | some st => .bad st
    | none =>
      let bs := [(true, a, 32)]
      let m := m.askInputs x.id bs
      if !m.inputsReady x.id bs then .later (m.reading x.id)
      else
        match m.dtorAt x.id with
        | none => .later m
        | some x =>
          match m.bufWords x a 32 with
          | some w :: _ => .word w
          | _ => .bad stInputPoison

/-! ## CREATE (R93 to R95) -/

/-- Pages whose contents an operation is about to change: their cached lines are recalled first (R197). -/
def Mach.recallFirst (m : Mach) (base n : Nat) : Mach := m.recallPages base n

/-- CREATE's effect. -/
def Mach.createSess (m : Mach) (d k : Nat) (s : Session) : Mach :=
  let gen := (m.session k).gen
  let m := (m.redraw.clearPages s.mbase (mapPages s.npages)).onSession k fun _ => { s with gen := gen }
  (m.writeVersionPage k (some d)).opDone d stOk (m.handle k)

/-- CREATE (R93, R94). -/
def Mach.opCreate (m : Mach) (d : Nat) : Mach :=
  match m.startable d 0x10 with
  | none => m
  | some x =>
    let p := m.dtorPitch x
    let n := x.opf 2 24 0
    let wbase := x.pn 2
    let mbase := x.pn 3
    if n = 0 then m.opDone d stBadOperand 0
    else if 2 ^ 24 < n then m.opDone d stTooLarge 0
    else
      match m.layIn x (x.op 4) with
      | .bad st => m.opDone d st 0
      | .later m => m
      | .word w =>
        if !m.rangesOk p wbase n mbase then m.opDone d stBadRange 0
        else if !layoutOk w n then m.opDone d stBadLayout 0
        else
          match m.freeSess (m.sessHome p wbase) with
          | none => m.opDone d stNoSession 0
          | some k =>
            if m.pagesCached mbase (mapPages n) then (m.begin d).recallFirst mbase (mapPages n)
            else
              m.createSess d k
                { st := .active, pitch := p, pin := x.opf 3 27 27 = 1, name := BitVec.ofNat 64 (x.op 0), nextver := 1
                  readers := BitVec.ofNat 64 (x.op 1), npages := n, wbase := wbase, mbase := mbase, lease := x.opf 3 15 0, layout := w }

/-- Meaning of CREATE. -/
def execCreate (d : Nat) (s : State) : Host.Outcome State Fault Refusal :=
  s.app ((Instr.create d).wf s.m.fam) <| Mach.dataRun fun m => m.opCreate d

/-! ## DESTROY (R120) -/

/-- Lines of a session's ranges are held in a directory, or the house pitch has work to do there. -/
def Mach.sessCached (m : Mach) (s : Session) : Bool :=
  m.pagesCached s.wbase s.npages || m.pagesCached s.mbase (mapPages s.npages)
    || m.mem.house.any fun h => inPages s.wbase s.npages h.pn || inPages s.mbase (mapPages s.npages) h.pn
/-- They are recalled. -/
def Mach.sessRecall (m : Mach) (s : Session) : Mach := (m.recallPages s.wbase s.npages).recallPages s.mbase (mapPages s.npages)

/-- Operations that waited for session `k`, which has gone, are settled by its state: BAD_HANDLE. -/
def Mach.dropWaiters (m : Mach) (k : Nat) : Mach :=
  m.each (m.sess.waitOps.filter fun w => w.1 = k) fun m w =>
    match m.dtorAt w.2 with
    | some x => if x.stage = .waiting then m.opDone w.2 stBadHandle 0 else m
    | none => m

/-- DESTROY. -/
def Mach.opDestroy (m : Mach) (d : Nat) : Mach :=
  m.sessOp d 0x11 true fun m x k s =>
    if m.sessCached s then (m.hold k x.id).sessRecall s
    else (((m.destroySess k).opDone x.id stOk 0).dropWaiters k).pumpAll .session

/-- Meaning of DESTROY. -/
def execDestroy (d : Nat) (s : State) : Host.Outcome State Fault Refusal :=
  s.app ((Instr.destroy d).wf s.m.fam) <| Mach.dataRun fun m => m.opDestroy d

/-! ## SETATTR (R97, R115) -/

/-- SETATTR. A record refused under R99 gives BAD_LAYOUT. -/
def Mach.opSetattr (m : Mach) (d : Nat) : Mach :=
  m.sessOp d 0x12 true fun m x k s =>
    let mask := x.opf 5 4 0
    let has (i : Nat) : Bool := hasBit mask i
    let apply (m : Mach) (w : Word) : Mach :=
      if has 4 && !layoutOk w s.npages then m.opDone x.id stBadLayout 0
      else
        let m := m.when (s.st = .parked) fun m => m.unpark k
        (m.onSession k fun s =>
          { s with name := if has 0 then BitVec.ofNat 64 (x.op 0) else s.name
                   readers := if has 1 then BitVec.ofNat 64 (x.op 1) else s.readers
                   lease := if has 2 then x.opf 3 15 0 else s.lease, pin := if has 3 then x.opf 3 27 27 = 1 else s.pin
                   layout := if has 4 then w else s.layout }).opDone x.id stOk 0
    if has 4 then
      match m.layIn x (x.op 4) with
      | .bad st => m.opDone x.id st 0
      | .later m => m
      | .word w => apply m w
    else apply m 0

/-- Meaning of SETATTR. -/
def execSetattr (d : Nat) (s : State) : Host.Outcome State Fault Refusal :=
  s.app ((Instr.setattr d).wf s.m.fam) <| Mach.dataRun fun m => m.opSetattr d

/-! ## DROP (R105) -/

/-- DROP. -/
def Mach.opDrop (m : Mach) (d : Nat) : Mach :=
  m.sessOp d 0x14 true fun m x k s =>
    match s.ver x.version with
    | none => m.opDone x.id stBadVersion 0
    | some v =>
      if v.views ≠ 0 then
        ((m.onVersion k v.vnum fun v => { v with retiring := true }).writeEntry k v.idx (some d)).opDone d stOk 0
      else (m.dropVersion k v.vnum (some d)).opDone d stOk 0

/-- Meaning of DROP. -/
def execDrop (d : Nat) (s : State) : Host.Outcome State Fault Refusal :=
  s.app ((Instr.drop d).wf s.m.fam) <| Mach.dataRun fun m => m.opDrop d

/-! ## Slots from map entries (R38, R53, R107, R111) -/

/-- The pattern word of a map entry; none where it is zero, unreadable or no CONSTANT. -/
def Mach.entPat (m : Mach) : MapEnt → Option Word
  | .const r i => if (m.region r).st = .serving then (match readWord (m.patWord r i) with | some 0 => none | w => w) else none
  | _ => none

/-- The (region, pattern) pairs that slots from `base` on need and whose region's table lacks them. -/
def Mach.patNeeds (m : Mach) (base : Nat) (l : List MapEnt) : List (Nat × Word) :=
  (l.zipIdx.filterMap fun e =>
    match m.entPat e.1 with
    | some w =>
      let r := m.homeOf (base + e.2)
      let w := (m.attrOf (.slot (base + e.2))).pattern w
      if m.mem.pats.any fun x => x.1 / patsPerRegion = r && x.2.word = w && !x.2.poison then none else some (r, w)
    | none => none).eraseDups

/-- Every region has room for the patterns it must hold. -/
def Mach.patRoom (m : Mach) (needs : List (Nat × Word)) : Bool :=
  (List.range (regions m.fam)).all fun r =>
    decide ((needs.filter fun x => x.1 = r).length + (m.mem.pats.filter fun x => x.1 / patsPerRegion = r).length < patsPerRegion)

/-- A slot becomes CONSTANT with pattern `w` of its own region. -/
def Mach.setConst (m : Mach) (pn cp foot : Nat) (w : Word) : Mach :=
  let r := m.homeOf pn
  match m.patIndex r w with
  | some i => (m.patUse r i w).setDesc pn (.const cp foot i)
  | none => m

/-- An UNWRITTEN slot takes the form a map entry gives it, its reference not counted (R107); a pattern is held as the slot's
extent has it (R82). -/
def Mach.slotFrom (m : Mach) (pn cp : Nat) (e : MapEnt) : Mach :=
  match e with
  | .unwritten => m
  | .shared r e => if (m.region r).st = .serving && (m.poolEnt r e).isSome then m.setDesc pn (.ref r e) else m
  | .const r i =>
    if (m.region r).st ≠ .serving then m
    else
      match readWord (m.patWord r i) with
      | some w => m.setConst pn cp 0 ((m.attrOf (.slot pn)).pattern w)
      | none => m

/-- The pool entry takes no further reference (R38). -/
def Mach.saturated (m : Mach) (r e : Nat) : Bool := match m.poolEnt r e with | some x => decide (4095 ≤ x.c.shares) | none => false

/-- A page written whole by the part for pitch `p`: the words land in a T0 page of its own (R38, R40), or the region whose T0 page
it must wait for. -/
def Mach.copyPage (m : Mach) (pn p foot : Nat) (ws : List CWord) : Except Nat Mach :=
  let r := m.homeOf pn
  match m.takeT0 r p with
  | (m, some t) => .ok (m.wholePage pn r t p foot ws)
  | (_, none) => .error r

/-- Contents that must be copied because they take no further reference (R38). -/
def Mach.copyRefs (m : Mach) (l : List MapEnt) : List PageRef :=
  l.filterMap fun e => match e with | .shared r e => if m.saturated r e then some (m.poolRef r e) else none | _ => none

/-- Working slots from map entries, each reference counted, or the region whose T0 page a copy must wait for. -/
def Mach.forkSlots (m : Mach) (d p base : Nat) (l : List MapEnt) : Except Nat Mach :=
  l.zipIdx.foldl (fun (x : Except Nat Mach) e =>
    match x with
    | .error r => .error r
    | .ok m =>
      let pn := base + e.2
      match e.1 with
      | .shared r i =>
        if m.saturated r i && (m.region r).st = .serving then m.copyPage pn p 0 (m.refWords d (m.poolRef r i))
        else if (m.region r).st = .serving && (m.poolEnt r i).isSome then .ok ((m.addRef r i).setDesc pn (.ref r i))
        else .ok m
      | _ => .ok (m.slotFrom pn p e.1)) (.ok m)

/-! ## FORK (R111) -/

/-- FORK. -/
def Mach.opFork (m : Mach) (d : Nat) : Mach :=
  m.sessOp d 0x17 true fun m x k s =>
    match s.ver x.version with
    | none => m.opDone d stBadVersion 0
    | some v =>
      let p := s.pitch
      let wbase := x.pn 2
      let mbase := x.pn 3
      if v.retiring then m.opDone d stBadState 0
      else if !m.rangesOk p wbase v.vpages mbase then m.opDone d stBadRange 0
      else
        match m.freeSess (m.sessHome p wbase) with
        | none => m.opDone d stNoSession 0
        | some k' =>
          if !m.patRoom (m.patNeeds wbase v.map) then m.opDone d stNoPattern 0
          else if m.pagesCached wbase v.vpages || m.pagesCached mbase (mapPages v.vpages) then
            ((m.holdFork k d).recallPages wbase v.vpages).recallPages mbase (mapPages v.vpages)
          else
            let refs := m.copyRefs v.map
            let m := m.each refs fun m r => m.fetchRef d r
            if refs.any (m.fetching d) then m.holdFork k d
            else
              let m' := m.clearPages wbase v.vpages
              match m'.forkSlots d p wbase v.map with
              | .error r => ((m.takeT0 r p).1).holdFork k d
              | .ok m =>
                (m.onSession k fun s => { s with side := none }).createSess d k'
                  { st := .active, pitch := p, pin := x.opf 3 27 27 = 1, name := BitVec.ofNat 64 (x.op 0), nextver := 1
                    readers := BitVec.ofNat 64 (x.op 1), npages := v.vpages, wbase := wbase, mbase := mbase, lease := x.opf 3 15 0
                    parent := m.handle k, forkver := v.vnum, layout := v.layout }

/-- Meaning of FORK. -/
def execFork (d : Nat) (s : State) : Host.Outcome State Fault Refusal :=
  s.app ((Instr.fork d).wf s.m.fam) <| Mach.dataRun fun m => m.opFork d

/-! ## OPEN and CLOSE (R107, R110, R199) -/

/-- OPEN. -/
def Mach.opOpen (m : Mach) (d : Nat) : Mach :=
  m.sessOp d 0x15 false fun m x k s =>
    let p := m.dtorPitch x
    let base := x.pn 2
    let v := s.ver x.version
    let n := match v with | some v => v.vpages | none => s.npages
    if !m.rangeIn p base n (fun e => e.coh = .readShared) || m.rangeTaken base n then m.opDone d stBadRange 0
    else if s.pitch ≠ p && !s.readers.getLsbD p then m.opDone d stDenied 0
    else
      match v with
      | none => m.opDone d stBadVersion 0
      | some v =>
        if v.retiring then m.opDone d stBadState 0
        else
          match (if 65535 ≤ v.views then none else m.freeView (k / 16384)) with
          | none => m.opDone d stNoView 0
          | some vk =>
            if !m.patRoom (m.patNeeds base v.map) then m.opDone d stNoPattern 0
            else
              let m := m.redraw.clearPages base n
              let m := m.each v.map.zipIdx fun m e => m.slotFrom (base + e.2) p e.1
              let gen := (m.view vk).gen
              let m := m.onView vk fun _ =>
                { live := true, gen := gen, pitch := p, base := base, pages := n, sess := m.handle k, vnum := v.vnum }
              ((m.onVersion k v.vnum fun v => { v with views := v.views + 1 }).writeEntry k v.idx (some d)).opDone d stOk (handleOf gen vk)

/-- Meaning of OPEN. -/
def execOpenv (d : Nat) (s : State) : Host.Outcome State Fault Refusal :=
  s.app ((Instr.openv d).wf s.m.fam) <| Mach.dataRun fun m => m.opOpen d

/-- CLOSE (R110, R407): it runs in every session state; it waits while the part holds 4,096 retirements (R199). -/
def Mach.opClose (m : Mach) (d : Nat) : Mach :=
  match m.startable d 0x16 with
  | none => m
  | some x =>
    match m.viewByHandle x.handle with
    | none => m.opDone d stBadHandle 0
    | some (vk, v) =>
      let m := match m.byHandle v.sess with | some (k, _) => m.onSession k fun s => { s with idle := 0 } | none => m
      if v.pitch ≠ m.dtorPitch x then m.opDone d stDenied 0
      else if m.ticketsFull then m
      else (((m.closeView vk (some d)).retire v.base v.pages v.pitch)).opDone d stOk 0

/-- Meaning of CLOSE. -/
def execClose (d : Nat) (s : State) : Host.Outcome State Fault Refusal :=
  s.app ((Instr.close d).wf s.m.fam) <| Mach.dataRun fun m => m.opClose d

/-! ## EXPIRE (R119) -/

/-- A session that EXPIRE of pitch `p` destroys: idle time in ms, saturating (Table 04.1). One with an operation in progress is passed
over: R119 does not say whether EXPIRE waits for it.
(DESIGN CHOICE, log entry 98.) -/
def Mach.expires (m : Mach) (p : Nat) (s : Session) : Bool :=
  s.pitch = p && (s.st = .active || s.st = .parked) && s.busy.isNone && s.side.isNone && s.lease ≠ 0 && !s.pin && decide (ms (1000 * s.lease) ≤ s.idle)

/-- EXPIRE. -/
def Mach.opExpire (m : Mach) (d : Nat) : Mach :=
  match m.startable d 0x1A with
  | none => m
  | some x =>
    let l := m.sess.sess.filter fun e => m.expires (m.dtorPitch x) e.2
    if l.any fun e => m.sessCached e.2 then m.each l (fun m e => m.sessRecall e.2) |>.begin d
    else
      let m := m.each l fun m e =>
        ((m.destroySess e.1).dropWaiters e.1).log 0x0102 e.2.pitch 1 (e.1 / 16384) [(32, handleOf e.2.gen e.1), (64, e.2.name.toNat)]
      (m.opDone d stOk l.length).pumpAll .session

/-- Meaning of EXPIRE. -/
def execExpire (d : Nat) (s : State) : Host.Outcome State Fault Refusal :=
  s.app ((Instr.expire d).wf s.m.fam) <| Mach.dataRun fun m => m.opExpire d

end Sys2Proof.Machine
end

