-- ==== Sys2Proof/Machine/Publish.lean ====
section
/-! DEFINITION. PUBLISH and PUBLISH_CONVERT (R38, R100 to R104). -/

namespace Sys2Proof.Machine

/-- The pages PUBLISH writes or freezes whose lines are still held: working range, version page and the map slot it will take. -/
def Mach.publishCached (m : Mach) (s : Session) : Bool := m.sessCached s

/-- PUBLISH: the check of R102 item 1, the freeze and the recalls (R100 steps 1 to 3). -/
def Mach.opPublish (m : Mach) (d : Nat) : Mach :=
  m.sessOp d 0x13 true fun m _ k s =>
    if s.busy = some d then m
    else if 63 ≤ s.npub || s.nextver = 0 then m.opDone d stVersionLimit 0
    else ((m.hold k d).onSession k fun s => { s with st := .freezing }).sessRecall s

/-- Meaning of PUBLISH. -/
def execPublish (d : Nat) (s : State) : Host.Outcome State Fault Refusal :=
  s.app ((Instr.publish d).wf s.m.fam) <| Mach.dataRun fun m => m.opPublish d

/-! ## Conversion (R101, R102) -/

/-- The slot gives a new pool entry: a PRIVATE page, or a reference that takes no further one (R38). -/
def Mach.newEntry (m : Mach) (pn : Nat) : Bool :=
  (m.region (m.homeOf pn)).st = .serving &&
    (match m.desc pn with
    | .priv _ => true
    | .ref r e => (m.region r).st = .serving && m.saturated r e
    | _ => false)

/-- The content a reference that takes no further one is copied from (R38). -/
def Mach.newRef (m : Mach) (pn : Nat) : Option PageRef :=
  match m.desc pn with
  | .ref r e => if m.newEntry pn then some (m.poolRef r e) else none
  | _ => none

/-- Pool entries of pitch `p` held in region `r`. -/
def Mach.poolOf (m : Mach) (r p : Nat) : Nat := (m.mem.pool.filter fun x => x.1 / poolPerRegion = r && x.2.pitch = p).length

/-- The version headroom of pitch `p` in region `r` (R102). -/
def Mach.headroom (m : Mach) (r p : Nat) : Nat :=
  scalePages (sharePages m.fam (m.effN r (0x3000 + p) 5)) (m.region r).sT1 + sharePages m.fam (m.effN r (0x3000 + p) 7)
    - m.pagesHomed p r - m.reservation p r - m.poolOf r p

/-- The status of R102 items 2 and 3 for new entries per region. -/
def Mach.roomFor (m : Mach) (p : Nat) (need : Nat → Nat) : Option Nat :=
  let rs := (List.range (regions m.fam)).filter fun r => need r ≠ 0
  if rs.any fun r => m.headroom r p < need r then some stNoSpace
  else if rs.any fun r => poolPerRegion - m.poolUsed r < need r then some stPoolFull
  else none

/-- A PRIVATE slot's content descriptor moves into the region's pool with two references (R101). -/
def Mach.freezePage (m : Mach) (pn p : Nat) (d : Priv) : Mach × MapEnt :=
  let r := m.homeOf pn
  match m.pickPool r with
  | some e =>
    let x : PoolEnt := { c := { d with shares := 2 }, pitch := p, attr := (m.extent (extOf pn)).attr }
    (((m.redraw.moveCref (.slot pn) (.pool r e)).putPool r e x).setDesc pn (.ref r e), .shared r e)
  | none => (m, .unwritten)

/-- A private copy of pool entry (r, e) as a new entry of region `q` (R38, R101), or the region whose T0 page it waits for. -/
def Mach.copyEntry (m : Mach) (q p : Nat) (attr : Attr) (ws : List CWord) : Except Nat (Mach × MapEnt) :=
  match m.takeT0 q p with
  | (_, none) => .error q
  | (m, some t) =>
    match m.pickPool q with
    | none => .ok (m, .unwritten)
    | some e =>
      let c : Priv := { cpitch := p, shares := 1, t0slot := t, t0 := true, dirty := true, rec_ := m.pickRec q p }
      let m := (m.redraw.putPool q e { c := c, pitch := p, attr := attr }).ownT0 q t (.pool q e)
      .ok (m.storeT0 q t p (crefData (.pool q e)) 0 ws, .shared q e)

/-- One SPN of the working range converted (R101). -/
def Mach.convertPage (m : Mach) (d p pn : Nat) : Except Nat (Mach × MapEnt) :=
  let r := m.homeOf pn
  if (m.region r).st ≠ .serving then .ok (m, .unwritten)
  else
    match m.desc pn with
    | .unwritten => .ok (m, .unwritten)
    | .const _ _ i =>
      match readWord (m.patWord r i) with
      | some w => .ok (m.patUse r i w, .const r i)
      | none => .ok (m.patUse r i 0, .const r i)
    | .ref q e =>
      if (m.region q).st ≠ .serving || (m.poolEnt q e).isNone then .ok (m, .unwritten)
      else if m.saturated q e then
        m.copyEntry r p (match m.poolEnt q e with | some x => x.attr | none => {}) (m.refWords d (m.poolRef q e))
      else .ok (m.addRef q e, .shared q e)
    | .priv x => .ok (m.freezePage pn p x)

/-- The whole working range converted, and the version's map in SPN order. -/
def Mach.convertAll (m : Mach) (d p wbase n : Nat) : Except Nat (Mach × List MapEnt) :=
  match (pageRange wbase n).foldl (fun (x : Except Nat (Mach × List MapEnt)) pn =>
    match x with
    | .error r => .error r
    | .ok (m, l) => match m.convertPage d p pn with | .error r => .error r | .ok (m, e) => .ok (m, e :: l)) (.ok (m, [])) with
  | .error r => .error r
  | .ok (m, l) => .ok (m, l.reverse)

/-- The lowest EMPTY version entry (R104). -/
def Session.freeIdx (s : Session) : Nat := ((List.range 63).find? fun i => !(s.versions.any fun v => v.idx = i)).getD 0

/-- The version is filled in and the session is ACTIVE again (R100 steps 5 and 6). -/
def Mach.sealVersion (m : Mach) (k d : Nat) (l : List MapEnt) : Mach :=
  let s := m.session k
  let v : Version := { idx := s.freeIdx, vnum := s.nextver, vpages := s.npages, layout := s.layout, map := l }
  let m := m.onSession k fun s => { s with versions := s.versions ++ [v], nextver := (s.nextver + 1) % 2 ^ 32 }
  (((m.writeMapSlot k v.idx l (some d)).writeEntry k v.idx (some d)).leaveState k .active).opDone d stOk v.vnum

/-- Meaning of PUBLISH_CONVERT (R100 steps 4 to 6, R101, R102): once every recall of the freeze has ended, the home region's
session is converted, or the PUBLISH fails and the session returns to ACTIVE.
(DEDUCED, log entry 80.) -/
def execPublishConvert (handle : Nat) (s : State) : Host.Outcome State Fault Refusal :=
  s.app ((Instr.publishConvert handle).wf s.m.fam) <| Mach.dataRun fun m =>
    match m.byHandle handle with
    | none => m
    | some (k, s) =>
      match s.busy with
      | none => m
      | some d =>
        if s.st ≠ .freezing || m.publishCached s then m
        else
          let pns := pageRange s.wbase s.npages
          let refs := pns.filterMap m.newRef
          let m := m.each refs fun m r => m.fetchRef d r
          let news := pns.filter m.newEntry
          match m.roomFor s.pitch fun r => (news.filter fun pn => m.homeOf pn = r).length with
          | some st => (m.leaveState k .active).opDone d st 0
          | none =>
            if refs.any (m.fetching d) then m
            else
              match m.convertAll d s.pitch s.wbase s.npages with
              | .error r => (m.takeT0 r s.pitch).1
              | .ok (m, l) => m.sealVersion k d l

end Sys2Proof.Machine
end

