-- ==== Sys2Proof/Machine/Park.lean ====
section
/-! DEFINITION. PARK and the manifest (R91, R113, R114, R121, R122, R251): reserving its space, moving the session's frames to T2,
building and sealing it. -/

namespace Sys2Proof.Machine

/-! ## What a session names -/

/-- Patterns that they name, as region and index. -/
def Mach.namedPats (m : Mach) (s : Session) : List (Nat × Nat) :=
  let slots := (pageRange s.wbase s.npages).filterMap fun pn => match m.desc pn with | .const _ _ i => some (m.homeOf pn, i) | _ => none
  let maps := s.versions.flatMap fun v => v.map.filterMap fun e => match e with | .const r i => some (r, i) | _ => none
  (slots ++ maps).eraseDups.filter fun x => (m.region x.1).st = .serving && (readWord (m.patWord x.1 x.2)).isSome

/-- The pages of a session's ranges, in page-section order. -/
def Session.pages (s : Session) : List Nat := pageRange s.wbase s.npages ++ pageRange s.mbase (mapPages s.npages)

/-- What PARK works through: PRIVATE pages of the ranges and named pool entries, in regions in service (R113 step 3). -/
def Mach.parkSet (m : Mach) (s : Session) : List CRef :=
  (s.pages.filterMap fun pn =>
    if (m.region (m.homeOf pn)).st ≠ .serving then none
    else match m.desc pn with | .priv _ => some (.slot pn) | _ => none)
  ++ (m.namedPool s).filterMap fun x =>
    if (m.region x.1).st = .serving && (m.poolEnt x.1 x.2).isSome then some (.pool x.1 x.2) else none

/-- PARK is done with a content: its record and its newest copy are in T2 alone, or R45 left it in T1. -/
def Mach.parkedRef (m : Mach) (s : Session) (c : CRef) : Bool :=
  s.absent.contains c ||
    (match m.priv c with
    | some d => d.rec_ = .t2 && !d.t0 && d.t1len = 0 && d.t2len ≠ 0 && !d.t2bad
    | none => true)

/-! ## Space in the window areas (R48, R121) -/

/-- Runs of sectors of pitch `p`'s areas in use: T2-homed descriptor runs, manifests, claims. -/
def Mach.areaUsed (m : Mach) (p : Nat) : List (Nat × Nat × Nat) :=
  (m.ext.exts.filterMap fun e => if e.2.st ≠ .free && e.2.pitch = p then e.2.run.map fun x => (x.1, x.2 * 2048, 2048) else none)
  ++ (m.sess.sess.flatMap fun s => if s.2.st ≠ .free && s.2.pitch = p then s.2.pieces else [])
  ++ (m.sess.detached.flatMap fun d => if d.pitch = p then d.pieces else [])

/-- The free runs of one area from sector `a` on: `used` are its runs in use by rising first sector. -/
def freeRuns (w : Nat) : Nat → List (Nat × Nat) → List (Nat × Nat × Nat)
  | a, [] => if a < areaSectors then [(w, a, areaSectors - a)] else []
  | a, (b, n) :: t => (if a < b then [(w, a, b - a)] else []) ++ freeRuns w (max a (b + n)) t

/-- The free runs of pitch `p`'s areas, windows in index order. -/
def Mach.areaFree (m : Mach) (p : Nat) : List (Nat × Nat × Nat) :=
  let used := m.areaUsed p
  (winsOf m.fam m.dict.cfg.vals p).flatMap fun w =>
    freeRuns w 0 (sortKey (·.1) ((used.filter fun x => x.1 = w).map fun x => (x.2.1, x.2.2)))

/-- Pieces of free runs that make up `n` sectors, the longest runs first. -/
def takeRuns : Nat → List (Nat × Nat × Nat) → List (Nat × Nat × Nat)
  | _, [] => []
  | n, (w, a, k) :: t => if n = 0 then [] else (w, a, min n k) :: takeRuns (n - min n k) t

/-- Space for a manifest of `n` sectors in the fewest pieces, at most 48 (R121). -/
def Mach.manifestSpace (m : Mach) (p n : Nat) : Option (List (Nat × Nat × Nat)) :=
  let free := m.areaFree p
  match free.find? fun x => decide (n ≤ x.2.2) with
  | some (w, a, _) => some [(w, a, n)]
  | none =>
    let l := takeRuns n (sortKey (fun x => areaSectors - x.2.2) free)
    if l.length ≤ 48 && (l.map fun x => x.2.2).foldl (· + ·) 0 = n then some l else none

/-- Sectors of a session's manifest (R121). -/
def Mach.manifestSize (m : Mach) (s : Session) : Nat :=
  1 + (64 * s.npub + 64 * (m.namedPats s).length + 16 * (m.namedPool s).length + 8 * (s.npages + mapPages s.npages) + 511) / 512

/-! ## Records (Table 04.8, R122) -/

/-- The number of an element in a list. -/
def indexIn {α : Type} [BEq α] (l : List α) (x : α) : Nat := l.findIdx fun y => y == x

/-- NONE with ABSENT. -/
def recAbsent : Nat := 1

/-- A FRAME record of a content in T2; NONE with ABSENT for one that stayed in T1. -/
def frameRec (d : Priv) : Nat :=
  if d.rec_ = .t2 && d.t2len ≠ 0 then
    2 * 2 ^ 62 + (if d.bad then 2 ^ 61 else 0) + d.t2len * 2 ^ 57 + d.t2codec * 2 ^ 54 + d.t2win * 2 ^ 48 + d.t2slot * 2 ^ 30
      + d.pver * 2 ^ 14
  else recAbsent

/-- The page record of a page. -/
def Mach.pageRec (m : Mach) (s : Session) (pn : Nat) : Nat :=
  if (m.region (m.homeOf pn)).st ≠ .serving then recAbsent
  else
    match m.desc pn with
    | .unwritten => 0
    | .priv d => frameRec d
    | .const _ _ i =>
      let l := m.namedPats s
      let j := indexIn l (m.homeOf pn, i)
      if j < l.length then 2 ^ 62 + j else recAbsent
    | .ref r e => if (m.region r).st = .serving then 3 * 2 ^ 62 + indexIn (m.namedPool s) (r, e) else recAbsent

/-- The page record that a pool record holds. -/
def Mach.poolRec (m : Mach) (x : Nat × Nat) : Nat :=
  match m.poolRef x.1 x.2 with
  | .cont c => match m.priv c with | some d => frameRec d | none => recAbsent
  | _ => recAbsent

/-- The body of a session's manifest before padding (R121). -/
def Mach.manifestBody (m : Mach) (s : Session) : List Byte :=
  let vers := (sortKey (·.idx) s.versions).flatMap fun v =>
    leBytes 64 (leNat (wordsToBytes { v with views := 0 }.pack) + v.idx * 2 ^ 431)
  let pats := (m.namedPats s).flatMap fun x =>
    leBytes 64 (((readWord (m.patWord x.1 x.2)).getD 0).toNat + (x.1 * 2 ^ 12 + x.2) * 2 ^ 256)
  let pool := (m.namedPool s).flatMap fun x => leBytes 16 (m.poolRec x * 2 ^ 64 + x.1 * 2 ^ 60 + x.2 * 2 ^ 40)
  vers ++ pats ++ pool ++ s.pages.flatMap fun pn => leBytes 8 (m.pageRec s pn)

/-- A byte string padded with zero to whole sectors. -/
def padSectors (l : List Byte) : List Byte := l ++ List.replicate ((512 - l.length % 512) % 512) 0

/-! ## The header (Table 04.7) -/

/-- The windows a session's manifest names: its pieces and its frames' windows (WINUSED). -/
def Mach.winUsed (m : Mach) (s : Session) : List Nat :=
  let recs := s.pages.map (m.pageRec s) ++ (m.namedPool s).map m.poolRec
  let used := s.pieces.map (·.1) ++ recs.filterMap fun x => if bits x 63 62 = 2 then some (bits x 53 48) else none
  (List.range 64).filter used.contains

/-- The 16 bytes of a far window's entry with PORTS and the reserved bits as zero. -/
def winBytes (w : FarWin) : List Byte := leBytes 16 (w.fbase * 2 ^ 94 + w.dpid * 2 ^ 82 + (if w.valid then 1 else 0))

/-- The fingerprint of windows of a pitch as a set of values has them (R124).
(DEDUCED, log entry 68.) -/
def winCrc (f : Fam) (vals : Tab OVal) (p : Nat) (ws : List Nat) : Nat :=
  (crc32c 0xFFFFFFFF (ws.flatMap fun w => winBytes (winOf f vals p w))).toNat

/-- A manifest header's number with `tag` in SEAL. -/
def Mach.manifestHdr (m : Mach) (s : Session) (mgen tag : Nat) : Nat :=
  let recs := s.pages.map (m.pageRec s) ++ (m.namedPool s).map m.poolRec
  let used := m.winUsed s
  let nsect := (s.pieces.map fun x => x.2.2).foldl (· + ·) 0
  (s.pieces.zipIdx.map fun x => (x.1.1 * 2 ^ 58 + x.1.2.1 * 2 ^ 43 + x.1.2.2 * 2 ^ 27) * 2 ^ (64 * x.2 + 1024)).foldl (· + ·) 0
    + s.npages * 2 ^ 999 + mapPages s.npages * 2 ^ 978 + s.npub * 2 ^ 972 + (m.namedPool s).length * 2 ^ 947
    + (m.namedPats s).length * 2 ^ 930 + (recs.filter (· = recAbsent)).length * 2 ^ 905 + s.readers.toNat * 2 ^ 841
    + (used.map (2 ^ ·)).foldl (· + ·) 0 * 2 ^ 777 + s.layout.toNat * 2 ^ 512 + tag * 2 ^ 256 + 0x5E55 * 2 ^ 240 + 1 * 2 ^ 232
    + s.pitch * 2 ^ 226 + mgen * 2 ^ 192 + s.name.toNat * 2 ^ 128 + nsect * 2 ^ 96 + s.nextver * 2 ^ 64 + s.lease * 2 ^ 48
    + (if s.pin then 2 ^ 47 else 0) + winCrc m.fam m.dict.cfg.vals s.pitch used * 2 ^ 15

/-- K_man of a pitch, the manifest key (R356). -/
def Mach.manKey (m : Mach) (p : Nat) : BitVec 256 := m.derived p "FNC-MANIFEST"

/-- The sectors of a manifest's pieces in order: window and sector. -/
def pieceSectors (l : List (Nat × Nat × Nat)) : List (Nat × Nat) := l.flatMap fun x => (List.range x.2.2).map fun i => (x.1, x.2.1 + i)

/-- A manifest's body as it stands in far memory: each sector encrypted at its far address (R121, R357). -/
def Mach.bodyCipher (m : Mach) (p : Nat) (at_ : List (Nat × Nat)) (body : List Byte) : List (List Word) :=
  ((sectorsOf (body.length / 512) (bytesToWords (body.length / 32) body)).zip at_).map fun x =>
    m.sealSector p (areaAddr (winOf m.fam m.dict.cfg.vals p x.2.1) x.2.2) x.1

/-- SEAL of a header with SEAL as zero and a body's ciphertext (R121).
(DESIGN CHOICE, log entry 4.) -/
def Mach.sealOf (m : Mach) (p hdr : Nat) (cipher : List (List Word)) : Nat :=
  (Config.hmacSm3 (m.manKey p) (leBytes 512 hdr ++ wordsToBytes cipher.flatten)).toNat

/-! ## PARK -/

/-- Moves for the contents that PARK has still to settle (R113 step 3). -/
def Mach.planPark (m : Mach) (k : Nat) (s : Session) : Mach :=
  m.each ((m.parkSet s).filter fun c => !m.parkedRef s c) fun m c => m.planMove (m.crefRegion c) c (.park (handleOf s.gen k)) 0

/-- PARK's step 3 begins: the contents already parked have FOOTFALL 0, the others are moved. -/
def Mach.startPark (m : Mach) (k : Nat) (s : Session) : Mach :=
  (m.each ((m.parkSet s).filter (m.parkedRef s)) fun m c => m.onPriv c fun d => { d with footfall := 0 }).planPark k s

/-- MLOC of a manifest's pieces. -/
def mlocOf (l : List (Nat × Nat × Nat)) : Nat := match l with | (w, a, _) :: _ => w * 2 ^ 15 + a | [] => 0

/-- RESULT of PARK (Table 06.8). -/
def parkResult (mloc moved kept : Nat) : Nat := mloc * 2 ^ 64 + moved * 2 ^ 32 + kept

/-- PARK: steps 1 to 3 begin. On a PARKED session nothing moves (Table 04.6). -/
def Mach.opPark (m : Mach) (d : Nat) : Mach :=
  m.sessOp d 0x18 true fun m _ k s =>
    if s.busy = some d then
      (if m.sessCached s then m else m.startPark k s)
    else if s.st = .parked then m.opDone d stOk (parkResult s.mloc 0 0)
    else if !m.hasKey s.pitch then m.opDone d stNoKey 0
    else
      match m.manifestSpace s.pitch (m.manifestSize s) with
      | none => m.opDone d stNoSpace 0
      | some l =>
        let m := (m.hold k d).onSession k fun s => { s with st := .parking, pieces := l, mloc := mlocOf l, absent := [], sealAcks := none }
        let m := m.sessRecall s
        if m.sessCached s then m else m.startPark k (m.session k)

/-- Meaning of PARK. -/
def execPark (d : Nat) (s : State) : Host.Outcome State Fault Refusal :=
  s.app ((Instr.park d).wf s.m.fam) <| Mach.dataRun fun m => m.opPark d

/-- The manifest's sectors are written; no port that qualifies fails the write (R251, R255). -/
def Mach.writeManifest (m : Mach) (k d : Nat) (s : Session) : Mach :=
  let p := s.pitch
  let at_ := pieceSectors s.pieces
  let body := padSectors (m.manifestBody s)
  let cipher := m.bodyCipher p at_.tail body
  let mgen := (s.mgen + 1) % 2 ^ 32
  let hdr := m.manifestHdr s mgen (m.sealOf p (m.manifestHdr s mgen 0) cipher)
  let sectors := at_.zip (bytesToWords 16 (leBytes 512 hdr) :: cipher)
  let m := m.onSession k fun s => { s with sealAcks := some sectors.length }
  sectors.foldl (fun m x =>
    let win := winOf m.fam m.dict.cfg.vals p x.1.1
    match m.farPort win with
    | some port => m.postWrite ⟨port, none, .manifest d, win.dpid, areaAddr win x.1.2, 512, x.2, false, true⟩
    | none => if (m.session k).st = .parking then m.endPark k stDamaged else m) m

/-- A write of PARK `d`'s manifest has ended (R251). -/
def Mach.manifestAck (m : Mach) (d : Nat) (ok : Bool) : Mach :=
  match m.sess.sess.find? fun x => x.2.busy = some d && x.2.st = .parking with
  | some (k, s) =>
    match s.sealAcks with
    | some n => if ok then m.onSession k fun s => { s with sealAcks := some (n - 1) } else m.endPark k stDamaged
    | none => m
  | none => m

/-- The session is PARKED: MVALID, MGEN, the anchors of the pool entries it names (R113 step 6, R114). -/
def Mach.sealPark (m : Mach) (k d : Nat) (s : Session) : Mach :=
  let named := (m.namedPool s).filter fun x => (m.region x.1).st = .serving && (m.poolEnt x.1 x.2).isSome
  let moved := ((m.parkSet s).filter fun c => match m.priv c with | some p => decide (p.rec_ = .t2) | none => false).length
  let m := m.each named fun m x =>
    match m.poolEnt x.1 x.2 with | some y => m.putPool x.1 x.2 { y with anchors := y.anchors + 1 } | none => m
  let m := m.onSession k fun s => { s with mvalid := true, mgen := (s.mgen + 1) % 2 ^ 32, anchored := named, sealAcks := none }
  (m.leaveState k .parked).opDone d (if s.absent.isEmpty then stOk else stPartial) (parkResult s.mloc moved s.absent.length)

/-- Meaning of MANIFEST_SEAL (R113 steps 4 to 6, R121, R122): when every content of the session is in T2 or stays in T1, the home
region writes the manifest; when its writes are acknowledged, the session is PARKED. -/
def execManifestSeal (handle : Nat) (s : State) : Host.Outcome State Fault Refusal :=
  s.app ((Instr.manifestSeal handle).wf s.m.fam) <| Mach.dataRun fun m =>
    match m.byHandle handle with
    | none => m
    | some (k, s) =>
      match s.busy with
      | none => m
      | some d =>
        if s.st ≠ .parking || m.sessCached s then m
        else
          match s.sealAcks with
          | some 0 => m.sealPark k d s
          | some _ => m
          | none => if (m.parkSet s).all (m.parkedRef s) then m.writeManifest k d s else m.planPark k s

end Sys2Proof.Machine
end

