-- ==== Sys2Proof/Machine/Resume.lean ====
section
/-! DEFINITION. RESUME (R40, R45, R49, R114 to R117, R168, R197): the page list, placing each named page, the copy out. -/

namespace Sys2Proof.Machine

/-! ## The page list (R117) -/

/-- The 32-bit entries of a byte string. -/
def entries32 : Nat → List Byte → List Nat
  | 0, _ => []
  | n + 1, l => leNat (l.take 4) :: entries32 n (l.drop 4)

/-- Where SPN `i` of a version lies: version 0 is the working one. -/
def Mach.spnRef (m : Mach) (s : Session) (v : Option Version) (i : Nat) : PageRef :=
  match v with
  | some v => m.entRef (v.map.getD i .unwritten)
  | none => m.pageRef (s.wbase + i)

/-- The SPNs of a RESUME: a status, none while the list is being read, or the list. -/
inductive ListIn where
  | bad (status : Nat)
  | later (m : Mach)
  | spns (m : Mach) (l : List Nat)
  deriving DecidableEq, Repr

/-- The page list of a RESUME over `n` SPNs (R116, R167, R171). -/
def Mach.listIn (m : Mach) (x : Dtor) (n : Nat) : ListIn :=
  let a := x.op 0
  let cnt := x.opf 1 24 0
  if cnt = 0 then .spns m (List.range n)
  else if !m.bufFits x 64 a (4 * cnt) then .bad stBadRange
  else
    match m.bufResolve x a (4 * cnt) with
    | some st => .bad st
    | none =>
      let bs := [(true, a, 4 * cnt)]
      let m := m.askInputs x.id bs
      if !m.inputsReady x.id bs then .later (m.reading x.id)
      else
        match m.dtorAt x.id with
        | none => .later m
        | some x =>
          match m.bufClean x a (4 * cnt) with
          | none => .bad stInputPoison
          | some bs =>
            let l := entries32 cnt bs
            if l.all fun e => decide (e < 2 ^ 24) && decide (e < n) then .spns (m.footBuf x a (4 * cnt)) l else .bad stBadRange

/-! ## Placing one content (R116) -/

/-- A T0 page to be had at once for a landing: below the ceiling share, a free page or a clean victim (R49 steps 2 and 3). -/
def Mach.t0AtOnce (m : Mach) (r p : Nat) : Option (Mach × Nat) :=
  if m.t0Ceil r p ≤ m.t0Charged r p then none
  else if 0 < m.freeT0 r then (m.pickT0 r).map fun t => (m.redraw, t)
  else
    match m.t0Victim r (fun d => decide (m.t0Floor r d.cpitch < m.t0Pages r d.cpitch)) with
    | some v => if v.2.dirty then none else some (m.dropT0 v.1, v.2.t0slot)
    | none => none

/-- A content lands in T0 page `t` as a whole-page write; its record moves to T1 where R45 allows. -/
def Mach.landWhole (m : Mach) (c : CRef) (d : Priv) (t : Nat) (ws : List CWord) : Mach :=
  let r := m.crefRegion c
  let p := m.ownerOf c
  let rec' := if d.rec_ ≠ .t1 && decide (0 < m.t1RecFree r p) then Rec.t1 else d.rec_
  let m := (((m.dropMoves c).unrefold c).dropT1 c).dropT2 c
  ((m.ownT0 r t c).storeT0 r t p (crefData c) 0 (landWords (m.attrOf c) ws)).onPriv c fun d =>
    { d with t0 := true, t0slot := t, dirty := true, bad := false, cpitch := p, rec_ := rec', poisLogged := false }

/-- FOOTFALL of a placed page becomes the promote threshold (R116). -/
def Mach.footU (m : Mach) (c : CRef) : Mach :=
  m.onPriv c fun d => { d with footfall := m.tier (m.crefRegion c) (m.ownerOf c) 1 }

/-- Where a content stands after a try: 0 placed in T0, 1 in T1, 2 left in T2, 3 gone, none while it waits. -/
abbrev Placed := Option Nat

/-- A T1 cache copy takes the record over where its share has a free slot (R45). -/
def Mach.takeRecord (m : Mach) (c : CRef) (d : Priv) : Mach :=
  if d.rec_ = .t2 && !d.t1bad && decide (0 < m.t1RecFree (m.crefRegion c) (m.ownerOf c)) && m.anchorsOf c = 0 then
    (m.dropT2 c).onPriv c fun d => { d with rec_ := .t1, t1dirty := false }
  else m

/-- A content is placed in T1, by a move where it has to be read from T2. -/
def Mach.placeT1 (m : Mach) (d : Nat) (c : CRef) (x : Priv) (tried : Bool) : Mach × Placed :=
  if x.t1len ≠ 0 && !x.t1bad then (((m.takeRecord c x).footU c), some 1)
  else if x.t2len = 0 || x.t2bad || tried || x.rec_ = .t1 then (m, some 2)
  else ((m.when (x.t1len ≠ 0) fun m => m.dropT1 c).planMove (m.crefRegion c) c (.resume d) 0, none)

/-- One content of a RESUME with target T0 or T1. -/
def Mach.placeOne (m : Mach) (d : Nat) (toT0 : Bool) (c : CRef) (tried : Bool) : Mach × Placed :=
  let r := m.crefRegion c
  match m.priv c with
  | none => (m, some 3)
  | some x =>
    if x.t0 then (m.footU c, some 0)
    else if (m.region r).moves.any fun v => v.cref = c then (m, none)
    else if x.newest.isNone then (m, some 2)
    else if toT0 && !tried && m.anchorsOf c = 0 && (m.t0AtOnce r (m.ownerOf c)).isSome then
      let pn := match c with | .slot pn => pn | _ => 0
      let slot := match c with | .slot _ => true | _ => false
      if slot && m.pagesCached pn 1 then (m.recallPages pn 1, none)
      else
        let m := m.fetchRef d (.cont c)
        if m.fetching d (.cont c) then (m, none)
        else
          match m.t0AtOnce r (m.ownerOf c) with
          | some (m, t) => (((m.landWhole c x t (m.refWords d (.cont c))).footU c), some 0)
          | none => m.placeT1 d c x tried
    else m.placeT1 d c x tried

/-- The contents of a RESUME tried once: those that wait stay, the others are counted. -/
def Mach.placeAll (m : Mach) (d : Nat) (toT0 : Bool) : List (CRef × Bool) → Mach
  | [] => m
  | (c, tried) :: t =>
    let (m, res) := m.placeOne d toT0 c tried
    let m := m.onDtor d fun x =>
      match res with
      | some n => { x with n0 := x.n0 + (if n = 0 then 1 else 0), n1 := x.n1 + (if n = 1 then 1 else 0), n2 := x.n2 + (if n = 2 then 1 else 0) }
      | none =>
        let made := tried || (m.region (m.crefRegion c)).moves.any fun v => v.cref = c && v.kind = .resume d
        { x with todo := x.todo ++ [(c, made)] }
    Mach.placeAll m d toT0 t

/-- Pages copied out whose words are there (R117, R293). -/
def Mach.copyOuts (m : Mach) (d : Nat) (s : Session) (v : Option Version) : List (Nat × Nat) → Mach
  | [] => m
  | (i, spn) :: t =>
    let ref := m.spnRef s v spn
    let m := m.fetchRef d ref
    let m :=
      match m.dtorAt d with
      | none => m
      | some x =>
        if m.fetching d ref then m.onDtor d fun x => { x with outs := x.outs ++ [(i, spn)] }
        else m.pagesOut x (x.op 2 + 4096 * i) 4096 ((m.refWords d ref).map readWord)
    Mach.copyOuts m d s v t

/-! ## RESUME -/

/-- RESULT of RESUME (Table 06.8). -/
def resumeResult (x : Dtor) : Nat := x.n0 * 2 ^ 50 + x.n1 * 2 ^ 25 + x.n2

/-- A RESUME goes on: copies, placements, and its end. -/
def Mach.resumeGo (m : Mach) (d k : Nat) : Mach :=
  match m.dtorAt d with
  | none => m
  | some x =>
    let s := m.session k
    let v := s.ver x.version
    let m := (m.onDtor d fun x => { x with outs := [] }).copyOuts d s v x.outs
    let left := (m.dtorAt d).elim [] (·.outs)
    let m := if left.isEmpty then (m.onDtor d fun x => { x with todo := [] }).placeAll d (x.opf 1 32 32 = 1) x.todo else m
    match m.dtorAt d with
    | some x => if x.outs.isEmpty && x.todo.isEmpty then (m.leaveState k .active).opDone d stOk (resumeResult x) else m
    | none => m

/-- RESUME. -/
def Mach.opResume (m : Mach) (d : Nat) : Mach :=
  m.sessOp d 0x19 true fun m x k s =>
    if s.busy = some d then m.resumeGo d k
    else
      let v := s.ver x.version
      let n := match v with | some v => v.vpages | none => s.npages
      let cnt := x.opf 1 24 0
      let copy := x.opf 1 33 33 = 1
      if x.version ≠ 0 && v.isNone then m.opDone d stBadVersion 0
      else if copy && (m.peerMatch s.pitch (x.fn / 16) (x.op 2) (4096 * (if cnt = 0 then n else cnt))).isNone then
        m.opDone d stNoWindow 0
      else
        match m.listIn x n with
        | .bad st => m.opDone d st 0
        | .later m => m
        | .spns m l =>
          let refs := (l.filterMap fun i => match m.spnRef s v i with | .cont c => some c | _ => none).eraseDups
          let m := m.hold k d
          let m := if s.st = .parked then m.unseal k .resuming else m.onSession k fun s => { s with st := .resuming }
          (m.onDtor d fun x =>
            { x with todo := refs.map fun c => (c, false), outs := if copy then l.zipIdx.map fun e => (e.2, e.1) else [] }).resumeGo d k

/-- Meaning of RESUME. -/
def execResume (d : Nat) (s : State) : Host.Outcome State Fault Refusal :=
  s.app ((Instr.resume d).wf s.m.fam) <| Mach.dataRun fun m => m.opResume d

/-- A RESUME ends early: its moves are dropped, pages already placed stay, the session is ACTIVE (Table 06.9). -/
def Mach.endResume (m : Mach) (k d status : Nat) : Mach :=
  let m := m.each (List.range (regions m.fam)) fun m r =>
    m.each ((m.region r).moves.filter fun v => v.kind = .resume d) fun m v => m.abandon r v
  (m.leaveState k .active).opDone d status 0

end Sys2Proof.Machine
end

