-- ==== Sys2Proof/Machine/Reattach.lean ====
section
/-! DEFINITION. REATTACH (R123 to R125), the reattach period and the hold of detached sessions (R123, R126, R185). -/

namespace Sys2Proof.Machine

/-! ## The manifest as read -/

/-- What a manifest holds (R121, R122, Tables 04.3, 04.7, 04.8). -/
structure Manifest where
  /-- NPAGES -/
  npages : Nat
  /-- header fields that the session takes: a record with NAME, READERS, LEASE, PIN, NEXTVER, LAYOUT, MGEN -/
  sess : Session
  /-- versions: their entry index and their entry -/
  vers : List Version
  /-- pattern records: word, region and index at PARK -/
  pats : List (Word × Nat × Nat)
  /-- pool records: page record, region and entry at PARK -/
  pool : List (Nat × Nat × Nat)
  /-- page records -/
  recs : List Nat
  /-- contents of the map pages with a FRAME record, by page of the map area -/
  maps : List (Nat × List Byte)
  deriving DecidableEq, Repr

/-- Pieces of a header (Table 04.7). -/
def hdrPieces (h : Nat) : List (Nat × Nat × Nat) :=
  ((List.range 48).map fun j =>
    let x := h / 2 ^ (64 * j + 1024) % 2 ^ 64
    (bits x 63 58, bits x 57 43, bits x 42 27)).filter fun x => x.2.2 ≠ 0

/-- Pieces of `k` bytes of a byte string, `n` of them. -/
def chunks (k : Nat) : Nat → List Byte → List (List Byte)
  | 0, _ => []
  | n + 1, l => l.take k :: chunks k n (l.drop k)

/-- A version entry of the version section (R121). -/
def verOf (b : List Byte) : Version :=
  let x := leNat b
  { idx := bits x 436 431, vnum := bits x 511 480, retiring := bits x 479 478 = 2, vpages := bits x 461 437
    layout := BitVec.ofNat 256 x }

/-- A header and a body read as a manifest. The body's sectors are followed by the contents of the map pages that FRAME records
name, the version page's left out, as the part reads them from T2 (log entry 21).
(DESIGN CHOICE, log entry 21.) -/
def manifestOf (h : Nat) (body : List Byte) : Manifest :=
  let npages := bits h 1023 999
  let mapp := mapPages npages
  let npub := bits h 977 972
  let npool := bits h 971 947
  let npat := bits h 946 930
  let b1 := body.drop (64 * npub)
  let b2 := b1.drop (64 * npat)
  let b3 := b2.drop (16 * npool)
  let recs := (chunks 8 (npages + mapp) b3).map leNat
  let frames := (List.range mapp).filter fun i => i ≠ 0 && bits (recs.getD (npages + i) 0) 63 62 = 2
  let rest := body.drop (512 * (bits h 127 96 - 1))
  { npages := npages
    sess := { st := .reattaching, name := BitVec.ofNat 64 (bits h 191 128), readers := BitVec.ofNat 64 (bits h 904 841)
              lease := bits h 63 48, pin := bits h 47 47 = 1, nextver := bits h 95 64, npages := npages, mgen := bits h 223 192
              layout := BitVec.ofNat 256 (bits h 767 512), pieces := hdrPieces h }
    vers := (chunks 64 npub body).map verOf
    pats := (chunks 64 npat b1).map fun x => let n := leNat x; (BitVec.ofNat 256 n, bits n 271 268, bits n 267 256)
    pool := (chunks 16 npool b2).map fun x => let n := leNat x; (n / 2 ^ 64, bits n 63 60, bits n 59 40)
    recs := recs
    maps := frames.zip (chunks 4096 (rest.length / 4096) rest) }

/-! ## Checks (R124) -/

/-- BAD_MANIFEST.
(DESIGN CHOICE, log entry 21.) -/
def Mach.manifestBad (m : Mach) (p mloc h : Nat) (body : List Byte) : Bool :=
  let ps := hdrPieces h
  let n := (ps.map fun x => x.2.2).foldl (· + ·) 0
  let ok (w : Nat) : Bool := (winOf m.fam m.dict.cfg.vals p w).valid
  let at_ := pieceSectors ps
  let inner := body.take (512 * (n - 1))
  !ok (mloc / 2 ^ 15) || bits h 255 240 ≠ 0x5E55 || bits h 239 232 ≠ 1 || bits h 231 226 ≠ p || ps.isEmpty
    || ps.any (fun x => !ok x.1 || decide (areaSectors < x.2.1 + x.2.2)) || mlocOf ps ≠ mloc || bits h 127 96 ≠ n
    || inner.length ≠ 512 * (n - 1)
    || m.sealOf p (h - bits h 511 256 * 2 ^ 256) (m.bodyCipher p at_.tail inner) ≠ bits h 511 256

/-- BAD_WINDOWS. -/
def Mach.windowsBad (m : Mach) (p h : Nat) : Bool :=
  let ws := (List.range 64).filter fun w => hasBit (bits h 840 777) w
  ws.any (fun w => !(winOf m.fam m.dict.cfg.vals p w).valid) || winCrc m.fam m.dict.cfg.vals p ws ≠ bits h 46 15

/-! ## Pool entries (R125 step 2) -/

/-- Where a record of a pool entry goes. -/
inductive PoolPlan where
  /-- nothing: ABSENT, or named by nothing -/
  | none
  /-- a live entry is shared -/
  | live (r e : Nat)
  /-- a new entry in region `r` -/
  | new (r : Nat)
  deriving DecidableEq, Repr

/-- The live pool entry of pitch `p` that a FRAME record names. -/
def Mach.liveEntry (m : Mach) (p rec_ : Nat) : Option (Nat × Nat) :=
  (m.mem.pool.find? fun x =>
    x.2.pitch = p && !x.2.lost && x.2.c.t2len ≠ 0 && x.2.c.t2win = bits rec_ 53 48 && x.2.c.t2slot = bits rec_ 47 30
      && x.2.c.pver = bits rec_ 29 14 && (m.region (x.1 / poolPerRegion)).st = .serving).map fun x =>
    (x.1 / poolPerRegion, x.1 % poolPerRegion)

/-- The map entries of map page `j` of a map slot, as kind, region and entry. -/
def mapEnts (b : List Byte) : List (Nat × Nat × Nat) :=
  (entries32 1024 b).map fun x => (bits x 31 30, bits x 23 20, bits x 19 0)

/-- The number of the pool record that stands for an entry of the old part. -/
def Manifest.poolIx (f : Manifest) (r e : Nat) : Option Nat :=
  let i := f.pool.findIdx fun x => x.2.1 = r && x.2.2 = e
  if i < f.pool.length then some i else none

/-- The region that homes the first slot, or else the first map page, that names pool record `i` (R125 step 2). -/
def Mach.poolHome (m : Mach) (f : Manifest) (wbase mbase i : Nat) : Option Nat :=
  match (List.range f.npages).find? fun s => bits (f.recs.getD s 0) 63 62 = 3 && bits (f.recs.getD s 0) 23 0 = i with
  | some s => some (m.homeOf (wbase + s))
  | none =>
    (f.maps.find? fun x => (mapEnts x.2).any fun e => e.1 = 2 && f.poolIx e.2.1 e.2.2 = some i).map fun x => m.homeOf (mbase + x.1)

/-- The plan of every pool record. -/
def Mach.poolPlans (m : Mach) (f : Manifest) (p wbase mbase : Nat) : List PoolPlan :=
  f.pool.zipIdx.map fun x =>
    if bits x.1.1 63 62 ≠ 2 then .none
    else
      match m.liveEntry p x.1.1 with
      | some (r, e) => .live r e
      | none => match m.poolHome f wbase mbase x.2 with | some r => .new r | none => .none

/-- The patterns that slots and map entries need: region and word (R125). -/
def Mach.reattachPats (m : Mach) (f : Manifest) (wbase : Nat) : List (Nat × Word) :=
  let slots := (List.range f.npages).filterMap fun s =>
    let x := f.recs.getD s 0
    if bits x 63 62 = 1 then (f.pats[bits x 16 0]?).map fun w => (m.homeOf (wbase + s), w.1) else none
  let n := slotPages f.npages
  let maps := f.maps.flatMap fun x => (mapEnts x.2).zipIdx.filterMap fun e =>
    if e.1.1 = 1 then
      (f.pats.find? fun w => w.2.1 = e.1.2.1 && w.2.2 = e.1.2.2).map fun w => (m.homeOf (wbase + (x.1 - 1) % n * 1024 + e.2), w.1)
    else none
  ((slots ++ maps).filter fun x => x.2 ≠ 0 &&
    !(m.mem.pats.any fun y => y.1 / patsPerRegion = x.1 && y.2.word = x.2 && !y.2.poison)).eraseDups

/-- The status of a REATTACH that lacks room (R124). -/
def Mach.reattachRoom (m : Mach) (f : Manifest) (p wbase : Nat) (plans : List PoolPlan) : Option Nat :=
  let need (r : Nat) : Nat := (plans.filter fun x => x = .new r).length
  let rs := List.range (regions m.fam)
  if rs.any fun r => poolPerRegion - m.poolUsed r < need r then some stPoolFull
  else if !m.patRoom (m.reattachPats f wbase) then some stNoPattern
  else if rs.any fun r => need r ≠ 0 && decide (m.headroom r p < need r) then some stNoSpace
  else none

/-! ## Rebuilding (R125) -/

/-- A content descriptor of a FRAME record: a PRIVATE T2-record page. -/
def privOf (p rec_ : Nat) : Priv :=
  { cpitch := p, pver := bits rec_ 29 14, t2len := bits rec_ 60 57, t2codec := bits rec_ 56 54, t2win := bits rec_ 53 48
    t2slot := bits rec_ 47 30, bad := bits rec_ 61 61 = 1, rec_ := .t2 }

/-- The pool entries made or shared, by record number. -/
def Mach.makePool (m : Mach) (f : Manifest) (p : Nat) (attr : Attr) : List (PoolPlan × Nat × Nat × Nat) → Mach × List (Option (Nat × Nat))
  | [] => (m, [])
  | (pl, x) :: t =>
    match pl with
    | .none => let (m, l) := Mach.makePool m f p attr t; (m, none :: l)
    | .live r e => let (m, l) := Mach.makePool m f p attr t; (m, some (r, e) :: l)
    | .new r =>
      match m.pickPool r with
      | some e =>
        let (m, l) := Mach.makePool (m.redraw.putPool r e { c := privOf p x.1, pitch := p, attr := attr }) f p attr t
        (m, some (r, e) :: l)
      | none => let (m, l) := Mach.makePool m f p attr t; (m, none :: l)

/-- Times the slots and map entries of a manifest name pool record `i`. -/
def Manifest.names (f : Manifest) (i : Nat) : Nat :=
  ((List.range f.npages).filter fun s => bits (f.recs.getD s 0) 63 62 = 3 && bits (f.recs.getD s 0) 23 0 = i).length
    + (f.maps.map fun x => ((mapEnts x.2).filter fun e => e.1 = 2 && f.poolIx e.2.1 e.2.2 = some i).length).foldl (· + ·) 0

/-- Live entries that cannot take all of the references: they are read, for the private copies (R38). -/
def Mach.copyLive (m : Mach) (f : Manifest) (plans : List PoolPlan) : List PageRef :=
  plans.zipIdx.filterMap fun x =>
    match x.1 with
    | .live r e =>
      match m.poolEnt r e with
      | some y => if 4095 < y.c.shares + f.names x.2 then some (m.poolRef r e) else none
      | none => none
    | _ => none

/-- One slot set from its page record (R125 step 3), and whether it became UNWRITTEN from an ABSENT record; or the region whose T0 page
a private copy must wait for (R38). -/
def Mach.slotOfRec (m : Mach) (f : Manifest) (d p pn rec_ : Nat) (pool : List (Option (Nat × Nat))) : Except Nat (Mach × Bool) :=
  match bits rec_ 63 62 with
  | 0 => .ok (m, rec_ % 2 = 1)
  | 1 => match f.pats[bits rec_ 16 0]? with | some w => .ok (m.setConst pn p 0 w.1, false) | none => .ok (m, false)
  | 2 => .ok (m.setDesc pn (.priv (privOf p rec_)), false)
  | _ =>
    match pool.getD (bits rec_ 23 0) none with
    | some (r, e) =>
      if m.saturated r e then
        match m.copyPage pn p 0 (m.refWords d (m.poolRef r e)) with | .ok m => .ok (m, false) | .error q => .error q
      else .ok ((m.addRef r e).setDesc pn (.ref r e), false)
    | none => .ok (m, true)

/-- One map entry translated, its reference counted (R125 step 4), or the region whose T0 page a private copy must wait for. -/
def Mach.entOf (m : Mach) (f : Manifest) (d p wbase spn : Nat) (pool : List (Option (Nat × Nat))) (e : Nat × Nat × Nat) :
    Except Nat (Mach × MapEnt) :=
  let r := m.homeOf (wbase + spn)
  if e.1 = 2 then
    match (f.poolIx e.2.1 e.2.2).bind fun i => pool.getD i none with
    | some (q, x) =>
      if m.saturated q x then
        m.copyEntry r p (match m.poolEnt q x with | some y => y.attr | none => {}) (m.refWords d (m.poolRef q x))
      else .ok (m.addRef q x, .shared q x)
    | none => .ok (m, .unwritten)
  else if e.1 = 1 then
    match f.pats.find? fun w => w.2.1 = e.2.1 && w.2.2 = e.2.2 with
    | some w =>
      match m.patIndex r w.1 with
      | some i => .ok (m.patUse r i w.1, .const r i)
      | none => .ok (m, .unwritten)
    | none => .ok (m, .unwritten)
  else .ok (m, .unwritten)

/-- A fold that stops at the first error. -/
def foldE {α β : Type} (f : β → α → Except Nat β) : β → List α → Except Nat β
  | b, [] => .ok b
  | b, a :: l => match f b a with | .ok b => foldE f b l | .error e => .error e

/-- The map of a version in SPN order, translated. -/
def Mach.mapOf (m : Mach) (f : Manifest) (d p wbase : Nat) (pool : List (Option (Nat × Nat))) (v : Version) :
    Except Nat (Mach × List MapEnt) :=
  let n := slotPages f.npages
  foldE (fun (x : Mach × List MapEnt) spn =>
    match f.maps.find? fun y => y.1 = 1 + v.idx * n + spn / 1024 with
    | some y =>
      match x.1.entOf f d p wbase spn pool ((mapEnts y.2).getD (spn % 1024) (0, 0, 0)) with
      | .ok (m, e) => .ok (m, x.2 ++ [e])
      | .error q => .error q
    | none => .ok (x.1, x.2 ++ [.unwritten])) (m, []) (List.range v.vpages)

/-- The session's slots and versions rebuilt (R125 steps 1 to 4): versions with their maps, slots lost, pool entries. -/
def Mach.rebuildRefs (m : Mach) (d p : Nat) (s : Session) (f : Manifest) (plans : List PoolPlan) :
    Except Nat (Mach × List Version × Nat × List (Option (Nat × Nat))) :=
  let m := (m.clearPages s.wbase s.npages).clearPages s.mbase (mapPages s.npages)
  let (m, pool) := m.makePool f p (m.extent (extOf s.wbase)).attr (plans.zip f.pool)
  match foldE (fun (x : Mach × Nat) e =>
      match x.1.slotOfRec f d p e.1 e.2 pool with
      | .ok (m, b) => .ok (m, if b then x.2 + 1 else x.2)
      | .error q => .error q) (m, 0) (s.pages.zip f.recs) with
  | .error q => .error q
  | .ok (m, lost) =>
    match foldE (fun (x : Mach × List Version) v =>
        match x.1.mapOf f d p s.wbase pool v with
        | .ok (m, l) => .ok (m, x.2 ++ [{ v with map := l }])
        | .error q => .error q) (m, []) f.vers with
    | .error q => .error q
    | .ok (m, vers) => .ok (m, vers, lost, pool)

/-- The session is rebuilt and ends PARKED (R125); what private copies need comes first (R38). -/
def Mach.rebuild (m : Mach) (d k p mloc : Nat) (f : Manifest) (plans : List PoolPlan) : Mach :=
  let refs := m.copyLive f plans
  let m := m.each refs fun m r => m.fetchRef d r
  if refs.any (m.fetching d) then m
  else
    let m' := m.onSess fun x => { x with detached := x.detached.filter fun y => !(y.pitch = p && y.mloc = mloc) }
    match m'.rebuildRefs d p (m.session k) f plans with
    | .error q => (m.takeT0 q p).1
    | .ok (m, vers, lost, pool) =>
      let named := pool.filterMap id |>.eraseDups
      let m := m.each named fun m x =>
        match m.poolEnt x.1 x.2 with | some y => m.putPool x.1 x.2 { y with anchors := y.anchors + 1 } | none => m
      let m := m.onSession k fun s =>
        { s with versions := vers, mvalid := true, mloc := mloc, anchored := named, damaged := decide (lost ≠ 0), dmgcount := lost, idle := 0 }
      let m := m.each vers fun m v => m.writeMapSlot k v.idx v.map (some d)
      let m := m.each (vers.filter (·.retiring)) fun m v => m.dropVersion k v.vnum (some d)
      ((m.writeVersionPage k (some d)).leaveState k .parked).opDone d stOk (lost * 2 ^ 32 + m.handle k)

/-- REATTACH (R124, R125): its checks in order; then the session takes a record, the lines of its ranges are recalled, and it is
rebuilt. -/
def Mach.opReattach (m : Mach) (d : Nat) (hdr : BitVec 4096) (body : List Byte) : Mach :=
  match m.startable d 0x1B with
  | none => m
  | some x =>
    let p := m.dtorPitch x
    let wbase := x.pn 2
    let mbase := x.pn 3
    let mloc := x.opf 0 20 0
    let h := hdr.toNat
    let f := manifestOf h body
    let plans := m.poolPlans f p wbase mbase
    match m.sess.sess.find? fun s => s.2.st = .reattaching && s.2.busy = some d with
    | some (k, s) =>
      if m.sessCached s then m
      else
        match m.reattachRoom f p wbase plans with
        | some st => (m.freeRecord k).opDone d st 0
        | none => m.rebuild d k p mloc f plans
    | none =>
      if !m.hasKey p then m.opDone d stNoKey 0
      else if m.manifestBad p mloc h body then m.opDone d stBadManifest 0
      else if m.windowsBad p h then m.opDone d stBadWindows 0
      else if !m.rangesOk p wbase f.npages mbase then m.opDone d stBadRange 0
      else
        match m.freeSess (m.sessHome p wbase) with
        | none => m.opDone d stNoSession 0
        | some k =>
          match m.reattachRoom f p wbase plans with
          | some st => m.opDone d st 0
          | none =>
            let gen := (m.session k).gen
            let m := (m.redraw.begin d).onSession k fun _ =>
              { f.sess with pitch := p, gen := gen, wbase := wbase, mbase := mbase, busy := some d, mloc := mloc }
            let s := m.session k
            if m.sessCached s then m.sessRecall s else m.rebuild d k p mloc f plans

/-- Meaning of REATTACH.
(DESIGN CHOICE, log entry 21.) -/
def execReattach (d : Nat) (hdr : BitVec 4096) (body : List Byte) (s : State) : Host.Outcome State Fault Refusal :=
  s.app ((Instr.reattach d hdr body).wf s.m.fam) <| Mach.dataRun fun m => m.opReattach d hdr body

/-! ## The reattach period (R123) and the hold (R185) -/

/-- The reattach hold time of a pitch in hub cycles. -/
def Mach.reattachHold (m : Mach) (p : Nat) : Nat := ms (m.cfgN (0x3000 + p) 0x15)

/-- Pitch `p`'s reattach period ends in region `r`: claims that no REATTACH took are freed (R123, R126). -/
def Mach.endReattach (m : Mach) (r p : Nat) : Mach :=
  if m.inReattach r p then
    (m.onRegion r fun g => { g with reattach := tdel g.reattach p }).onSess fun x =>
      { x with detached := x.detached.filter fun d => !(d.pitch = p && d.region = some r) }
  else m

/-- Meaning of REATTACH_PERIOD_END (R123). -/
def execReattachPeriodEnd (r p : Nat) (s : State) : Host.Outcome State Fault Refusal :=
  s.app ((Instr.reattachPeriodEnd r p).wf s.m.fam) <| Mach.dataRun fun m =>
    match tget (m.region r).reattach none p with
    | some t => if t + m.reattachHold p < m.cycle then m.endReattach r p else m
    | none => m

/-- Meaning of DETACH_HOLD_EXPIRE (R185): a detached session's claims are freed when the hold time has passed since the release. -/
def execDetachHoldExpire (p mloc : Nat) (s : State) : Host.Outcome State Fault Refusal :=
  s.app ((Instr.detachHoldExpire p mloc).wf s.m.fam) <| Mach.dataRun fun m =>
    m.onSess fun x => { x with detached := x.detached.filter fun d =>
      !(d.pitch = p && d.mloc = mloc && (match d.since with | some t => decide (t + m.reattachHold p < m.cycle) | none => false)) }

end Sys2Proof.Machine
end

