-- ==== Sys2Proof/Machine/Regulation.lean ====
section
/-! DEFINITION. Block credits (R206, R209), derating and DEFICIT (R210 to R213), the power cap (R216). -/

namespace Sys2Proof.Machine

/-! ## Block credits (R206) -/

/-- A block grants one of the requests its crossbar holds, as (pitch, level, units): the grant costs its units (Table 08.2). -/
def Mach.grantBlock (m : Mach) (r b : Nat) (reqs : List (Nat × Nat × Nat)) : Mach :=
  let reqs := reqs.filter fun x => decide (x.1 < 64)
  let m := m.refillFor r b (reqs.map (·.1))
  match m.pickBy r b (fun x => (x.1, x.2.1)) reqs with
  | some x => (m.charge r b x.1 x.2.2).send (.blockGrant r b x.1)
  | none => m

/-- Meaning of BLOCK_GRANT (R23, R206, R209): blocks 0 to 7 store, 8 and 9 DRAM, 10 Tally, 11 codec. A request header the crossbar
finds uncorrectable quarantines the block.
(DESIGN CHOICE, log entry 37.) -/
def execBlockGrant (r b : Nat) (t : BlockTurn) (s : State) : Host.Outcome State Fault Refusal :=
  s.app ((Instr.blockGrant r b t).wf s.m.fam) <| Mach.dataRun fun m =>
    if (m.region r).st = .serving && !(m.region r).quar.getLsbD b then
      (if t.hdrBad then m.quarantine r b else m.grantBlock r b t.reqs)
    else m

/-! ## Capacities (R210, R211) -/

/-- Availability of a channel in fortieths: 1, 0.975 at the doubled rate, 0 when failed. -/
def Mach.chanAvail (m : Mach) (r c : Nat) : Nat :=
  if (m.chan r c).st = .failed then 0 else if (m.die r (c / 4)).doubled then 39 else 40

/-- φ as a fraction (R210): each channel's availability times the T1 factor of the power cap.
(DEDUCED, log entry 72.) -/
def Mach.phiFrac (m : Mach) : Nat × Nat :=
  (((m.serving.flatMap fun r => (List.range 8).map (m.chanAvail r)).foldl (· + ·) 0) * (16 - m.sys.pc3),
    40 * 16 * 8 * regions m.fam)

/-- Σ F over the pitches bound at hub `h` (R203, R210). -/
def Mach.floorSum (m : Mach) (h : Nat) : Nat := (((m.hub h).bound.map fun p => m.cfgN (0x3000 + p) 9)).foldl (· + ·) 0

/-- Pages of T0 for floors in region `r`: 7/8 of its T0. -/
def Mach.t0ForFloors (m : Mach) (r : Nat) : Nat := m.t0Cap r - m.t0Cap r / 8

/-- T1 record slots for floors in region `r`: 196,608 for each channel in service, less the T1-charged reservations (R46). -/
def Mach.t1ForFloors (m : Mach) (r : Nat) : Nat :=
  196608 * m.liveChans r
    - ((List.range 64).map fun p => if p ≠ 0 && m.cfgN (0x3000 + p) 7 = 0 then m.reservation p r else 0).foldl (· + ·) 0

/-- Σ of a floor share over the pitches that exist (CONFIGURED). -/
def Mach.shareSum (m : Mach) (sub : Nat) : Nat :=
  ((List.range 63).map fun i => if m.cfgN (0x3001 + i) 1 = 1 then sharePages m.fam (m.cfgN (0x3001 + i) sub) else 0).foldl (· + ·) 0

/-- σ = capacity ÷ sum where the capacity is below the sum, else 1 (R212). -/
def sigma (cap sum : Nat × Nat) : Nat × Nat := if cap.1 * sum.2 < sum.1 * cap.2 then (cap.1 * sum.2, cap.2 * sum.1) else (1, 1)

/-- σ in units of 2^-16. -/
def sigmaFix (s : Nat × Nat) : Nat := s.1 * 65536 / s.2

/-- σ_h of hub `h`: 1 while its port is contained. -/
def Mach.newSigmaH (m : Mach) (h : Nat) : Nat × Nat :=
  let phi := m.phiFrac
  if (m.port h).contained || (m.hub h).failed then (1, 1) else sigma (3600 * phi.1, phi.2) (m.floorSum h, 1)

/-- σ_T0 of region `r`: 1 while it is not in service. -/
def Mach.newSigmaT0 (m : Mach) (r : Nat) : Nat × Nat :=
  if (m.region r).st = .serving then sigma (m.t0ForFloors r, 1) (m.shareSum 3, 1) else (1, 1)
/-- σ_T1 of region `r`. -/
def Mach.newSigmaT1 (m : Mach) (r : Nat) : Nat × Nat :=
  if (m.region r).st = .serving then sigma (m.t1ForFloors r, 1) (m.shareSum 5, 1) else (1, 1)

/-- One σ in place of another: an event when its value changes (R213). -/
def Mach.deficitEvent (m : Mach) (kind u : Nat) (old new : Nat × Nat) : Mach :=
  m.when (old.1 * new.2 ≠ new.1 * old.2) fun m => m.log 0x0501 0 (if kind = 0 then 2 else 1) u [(8, kind), (8, u), (32, sigmaFix new)]

/-- The steward recomputes φ and every σ and sets DEFICIT (R211 to R213). -/
def Mach.derate (m : Mach) : Mach :=
  let phi := m.phiFrac
  let m := m.onSys fun s => { s with phi := phi }
  let m := m.each (List.range (hubs m.fam)) fun m h =>
    let x := m.newSigmaH h
    (m.deficitEvent 0 h (tget m.sys.sigmaH (1, 1) h) x).onSys fun s => { s with sigmaH := tput s.sigmaH (1, 1) h x }
  let m := m.each (List.range (regions m.fam)) fun m r =>
    let x := m.newSigmaT0 r
    let y := m.newSigmaT1 r
    let m := (m.deficitEvent 1 r (tget m.sys.sigmaT0 (1, 1) r) x).onSys fun s => { s with sigmaT0 := tput s.sigmaT0 (1, 1) r x }
    (m.deficitEvent 2 r (tget m.sys.sigmaT1 (1, 1) r) y).onSys fun s => { s with sigmaT1 := tput s.sigmaT1 (1, 1) r y }
  m.onSys fun s => { s with deficit := !(s.sigmaH.isEmpty && s.sigmaT0.isEmpty && s.sigmaT1.isEmpty) }

/-- Meaning of DERATE_APPLY (R211 to R213): the steward applies what has been lost or has returned. -/
def execDerateApply (s : State) : Host.Outcome State Fault Refusal :=
  s.app (Instr.derateApply.wf s.m.fam) <| Mach.dataRun fun m => if m.sys.steward.isSome then m.derate else m

/-! ## The power cap (R216) -/

/-- One step more of the first stage that is not at its limit: 15 of stage 1, 6 of stage 2, 8 of stage 3. -/
def Sys.tighten (s : Sys) : Sys :=
  if s.pc1 < 15 then { s with pc1 := s.pc1 + 1 }
  else if s.pc2 < 6 then { s with pc2 := s.pc2 + 1 }
  else if s.pc3 < 8 then { s with pc3 := s.pc3 + 1 }
  else s

/-- Every stage is at its limit. -/
def Sys.atLimit (s : Sys) : Bool := s.pc1 = 15 && s.pc2 = 6 && s.pc3 = 8

/-- One step less of the last stage that is tightened. -/
def Sys.release (s : Sys) : Sys :=
  if s.pc3 ≠ 0 then { s with pc3 := s.pc3 - 1 } else if s.pc2 ≠ 0 then { s with pc2 := s.pc2 - 1 } else { s with pc1 := s.pc1 - 1 }

/-- Meaning of POWER_CAP_WINDOW (R216): the end of a 1 ms window whose package power was `pwr` tenths of a watt. -/
def execPowerCapWindow (pwr : Nat) (s : State) : Host.Outcome State Fault Refusal :=
  s.app ((Instr.powerCapWindow pwr).wf s.m.fam) <| Mach.aliveRun fun m =>
    if m.cycle < m.sys.pcAt + ms 1 then m
    else
      let cap := 10 * m.cfgN 0x2000 2
      let m := m.onSys fun s => { s with pkgPwr := pwr, pcAt := s.pcAt + ms 1 * ((m.cycle - s.pcAt) / ms 1) }
      if cap < pwr then
        if m.sys.atLimit then
          (if (match m.sys.powerLimitAt with | some t => decide (m.cycle < t + ms 1000) | none => false) then m
          else (m.log 0x0503 0 0 0 [(32, pwr)]).onSys fun s => { s with powerLimitAt := some m.cycle })
        else m.onSys Sys.tighten
      else if pwr * 100 < cap * 98 then m.onSys Sys.release
      else m

end Sys2Proof.Machine
end

