-- ==== Sys2Proof/Machine/TallyCalc.lean ====
section
/-! DEFINITION. What the Tally engines compute (R133 to R146, R153): tokens and rows, masks, partial records and merges, rankings,
element-wise operations, comparison. -/

namespace Sys2Proof.Machine

/-! ## Operands of ATTEND and SIFT (Table 06.6) -/

/-- NKVH -/
def Dtor.nkvh (x : Dtor) : Nat := x.opf 3 62 58
/-- KVH0 -/
def Dtor.kvh0 (x : Dtor) : Nat := x.opf 3 57 50
/-- TEND -/
def Dtor.tend (x : Dtor) : Nat := x.opf 3 49 25
/-- TSTART -/
def Dtor.tstart (x : Dtor) : Nat := x.opf 3 24 0
/-- QHEADS -/
def Dtor.qheads (x : Dtor) : Nat := x.opf 4 63 57
/-- NPOS -/
def Dtor.npos (x : Dtor) : Nat := x.opf 4 56 50
/-- OCAP -/
def Dtor.ocap (x : Dtor) : Nat := x.opf 4 49 25
/-- QPOS -/
def Dtor.qpos (x : Dtor) : Nat := x.opf 4 24 0
/-- SCALE -/
def Dtor.scale (x : Dtor) : Nat := x.opf 5 63 32
/-- LAYER -/
def Dtor.layer (x : Dtor) : Nat := x.opf 5 31 24
/-- MASK -/
def Dtor.maskKind (x : Dtor) : Nat := x.opf 5 23 20
/-- BMCAUSAL -/
def Dtor.bmCausal (x : Dtor) : Bool := x.opf 5 19 19 = 1
/-- OMODE is FINAL -/
def Dtor.final (x : Dtor) : Bool := x.opf 5 18 18 = 1
/-- PPOLICY is SKIP -/
def Dtor.skip (x : Dtor) : Bool := x.opf 5 17 17 = 1
/-- QFMT is FP16 -/
def Dtor.qfmt (x : Dtor) : Bool := x.opf 5 16 16 = 1
/-- ALLLAYERS -/
def Dtor.allLayers (x : Dtor) : Bool := x.opf 5 15 15 = 1
/-- OUT is PAGES -/
def Dtor.toPages (x : Dtor) : Bool := x.opf 5 14 14 = 1
/-- AGG is PERHEAD -/
def Dtor.perHead (x : Dtor) : Bool := x.opf 5 13 13 = 1
/-- K -/
def Dtor.topK (x : Dtor) : Nat := x.opf 5 12 0
/-- WIN -/
def Dtor.win (x : Dtor) : Nat := x.opf 2 24 0
/-- Queries of the descriptor (R136). -/
def Dtor.nq (x : Dtor) : Nat := x.nkvh * x.npos * x.qheads

/-- d -/
def Layout.d (l : Layout) : Nat := headDim l.hdim
/-- Row bytes. -/
def Layout.rb (l : Layout) : Nat := rowBytes l.efmt l.d

/-- SCALE is finite and not zero, or +0 (Table 05.2). -/
def scaleOk (c : Nat) : Bool :=
  c = 0 || (match fmtFP32.decode c with | .fin _ m _ => decide (m ≠ 0) | _ => false)

/-- Bytes of a bitmap (R137). -/
def Dtor.bitmapLen (x : Dtor) (l : Layout) : Nat := ((x.tend - 1) / l.tpp - x.tstart / l.tpp + 1 + 7) / 8

/-- Token `j` is visible at position index `p` (Table 05.3); `bm` is the bitmap as a number. -/
def Dtor.visible (x : Dtor) (l : Layout) (bm p j : Nat) : Bool :=
  let pos := x.qpos + p
  match x.maskKind with
  | 0 => true
  | 1 => decide (j ≤ pos)
  | 2 => decide (j ≤ pos) && decide (pos < j + x.win)
  | _ => hasBit bm (j / l.tpp - x.tstart / l.tpp) && (!x.bmCausal || decide (j ≤ pos))

/-- The tokens of the range. -/
def Dtor.tokens (x : Dtor) : List Nat := (List.range (x.tend - x.tstart)).map (x.tstart + ·)

/-- The tokens visible at position index `p` (R137). -/
def Dtor.seen (x : Dtor) (l : Layout) (bm p : Nat) : List Nat := x.tokens.filter fun j => x.visible l bm p j

/-- The SPN of the key row of token `j` for KV head offset `a` in layer `ly`, or of its value row (R99). -/
def Dtor.rowSpn (x : Dtor) (l : Layout) (value : Bool) (ly a j : Nat) : Nat :=
  (if value then l.vbase else l.kbase) + ly * l.lstride + (x.kvh0 + a) * l.hstride + j / l.tpp

/-- Bytes `off` to `off + n - 1` of words: none where one of their words is poisoned. -/
def cutBytes (ws : List (Option Word)) (off n : Nat) : Option (List Byte) :=
  let l := (ws.drop (off / 32)).take (wordsOf off n)
  if l.all Option.isSome then some (((l.flatMap fun w => wordBytes (w.getD 0)).drop (off % 32)).take n) else none

/-- The row of token `j`, from the pages `pg` gives by SPN. -/
def Dtor.row (x : Dtor) (l : Layout) (pg : Nat → List (Option Word)) (value : Bool) (a j : Nat) : Option (List Byte) :=
  cutBytes (pg (x.rowSpn l value x.layer a j)) (j % l.tpp * l.rb) l.rb

/-- Query `i`'s row of the query buffer's words (R136). -/
def Dtor.query (qs : List (Option Word)) (d i : Nat) : Option (List Byte) := cutBytes qs (2 * d * i) (2 * d)

/-! ## Partial triples (R138 to R141) -/

/-- −∞ as FP32. -/
def negInf : Nat := 0xFF800000

/-- A code is a NaN. -/
def FlFmt.isNaN (f : FlFmt) (c : Nat) : Bool := match f.decode c with | .nan => true | _ => false

/-- The greatest of FP32 codes, the canonical NaN where one is a NaN, −∞ of none. -/
def maxCode (l : List Nat) : Nat :=
  if l.any fmtFP32.isNaN then 0x7FC00000
  else l.foldl (fun a c => if (fmtFP32.decode c).le (fmtFP32.decode a) then a else c) negInf

/-- Little-endian words of bytes. -/
def outWords (l : List Byte) : List (Option Word) := (bytesToWords ((l.length + 31) / 32) l).map some

/-- Bytes of a result for one query: a record of Table 05.4, or a BF16 row (R139). -/
def recBytes (final : Bool) (d : Nat) : Nat := if final then 2 * d else 64 + 4 * d

/-- A record's bytes (Table 05.4). -/
def recordBytes (m l nused npois : Nat) (o : List Nat) : List Byte :=
  leBytes 4 m ++ leBytes 4 l ++ leBytes 4 (min nused (2 ^ 32 - 1)) ++ leBytes 4 (min npois (2 ^ 32 - 1)) ++ leBytes 48 0 ++
    o.flatMap (leBytes 4)

/-- What is written for one query from its triple (m, l, o) and the counts of NUSED and NPOIS: a record, or a row of o[c] / l computed
in FP32 and rounded to BF16; without a token, (−∞, 0, 0) or a row of +0 (R138, R139). -/
def resultBytes (final : Bool) (d m l nused npois : Nat) (empty : Bool) (o : List Nat) : List Byte :=
  if final then
    (if empty then leBytes (2 * d) 0 else o.flatMap fun c => leBytes 2 (fmtBF16.code (fmtFP32.decode (divFP32 c l))))
  else if empty then recordBytes negInf 0 nused npois (List.replicate d 0)
  else recordBytes m l nused npois o

/-- One query's output: none poisons every word of it; and whether it is empty. -/
abbrev QOut := Option (List Byte) × Bool

/-- The place of a score among the free values of one descriptor: query `i`, token `j`. -/
def scoreAt (k i j : Nat) : Nat := (k * 2 ^ 16 + i) * 2 ^ 25 + j

/-- The computed score of query row `q` and key row `kr` of a descriptor, as FP32 (R138, R154); `k` numbers the free value.
(DESIGN CHOICE, log entry 7.) -/
def Dtor.scoreOf (x : Dtor) (l : Layout) (k : Nat) (q kr : List Byte) : Nat :=
  boundScore l.d (scaleVal x.scale l.d) (queryVals x.qfmt q) (rowVals l.efmt l.d kr) (rowScales l.efmt l.d kr)
    (Config.score k q kr (BitVec.ofNat 32 x.scale)).toNat

/-- Query `i` of an ATTEND (R136 to R140); `k` numbers the free values.
(DESIGN CHOICE, log entry 7.) -/
def Dtor.attendOne (x : Dtor) (l : Layout) (bm k : Nat) (qs : List (Option Word)) (pg : Nat → List (Option Word)) (i : Nat) : QOut :=
  let a := i / (x.npos * x.qheads)
  let p := i / x.qheads % x.npos
  let toks := x.seen l bm p
  let rows := toks.map fun j => (j, x.row l pg false a j, x.row l pg true a j)
  let used := rows.filterMap fun r => match r with | (j, some kr, some vr) => some (j, kr, vr) | _ => none
  match Dtor.query qs l.d i with
  | none => (none, false)
  | some q =>
    if !x.skip && used.length ≠ rows.length then (none, false)
    else
      let ss := used.map fun r => (x.scoreOf l (scoreAt k i r.1) q r.2.1, rowVals l.efmt l.d r.2.2)
      let m := maxCode (ss.map (·.1))
      let kap := kappa l.tpp ((x.tend - 1) / l.tpp - x.tstart / l.tpp + 1)
      let ins := q :: leBytes 4 x.scale :: used.flatMap fun r => [r.2.1, r.2.2]
      let free (c : Nat) : Nat := (Config.tally k (i * 512 + c) ins).toNat
      let sum := boundSum (kap + 8) m (ss.map fun s => (s.1, .fin false 1 0)) (free 0)
      let o := (List.range l.d).map fun c => boundSum (2 ^ 16 + kap) m (ss.map fun s => (s.1, s.2.getD c .nan)) (free (c + 1))
      (some (resultBytes x.final l.d m sum used.length (rows.length - used.length) used.isEmpty o), used.isEmpty)

/-- The words of all outputs, and the counts of RESULT: poisoned and empty. -/
def queryOut (size : Nat) (l : List QOut) : List (Option Word) × Nat × Nat :=
  (l.flatMap fun o => match o.1 with | some b => outWords b | none => List.replicate (size / 32) none,
    (l.filter fun o => o.1.isNone).length, (l.filter fun o => o.2).length)

/-- Record `i` of a MERGE from its sources' records (R141): none where one is poisoned. A source whose m is −∞ contributes nothing.
(DESIGN CHOICE, log entry 7.) -/
def mergeOne (final : Bool) (d k i : Nat) (recs : List (Option (List Byte))) : QOut :=
  if recs.any Option.isNone then (none, false)
  else
    let rs := recs.map fun r => r.getD []
    let f (r : List Byte) (o : Nat) : Nat := leNat ((r.drop o).take 4)
    let m := maxCode (rs.map fun r => f r 0)
    let ts := rs.filter fun r => f r 0 ≠ negInf
    let free (c : Nat) : Nat := (Config.tally k (i * 512 + c) rs).toNat
    let sum (o c : Nat) : Nat := boundSum (rs.length + 10) m (ts.map fun r => (f r 0, fmtFP32.decode (f r o))) (free c)
    (some (resultBytes final d m (sum 4 0) ((rs.map fun r => f r 8).foldl (· + ·) 0) ((rs.map fun r => f r 12).foldl (· + ·) 0)
      (m = negInf) ((List.range d).map fun c => sum (64 + 4 * c) (c + 1))), m = negInf)

/-- A source record, from byte `o` on, whose reserved field [511:128] is not zero in a word that can be read (R139). -/
def recReserved (ws : List (Option Word)) (o : Nat) : Bool :=
  ((cutBytes ws (o + 16) 16).getD []).any (· ≠ 0) || ((cutBytes ws (o + 32) 32).getD []).any (· ≠ 0)

/-! ## SIFT (R142 to R144) -/

/-- Score `s` ranks at or below `t`: NaN below every number. -/
def scoreLe (s t : Nat) : Bool :=
  if fmtFP32.isNaN s then true else if fmtFP32.isNaN t then false else (fmtFP32.decode s).le (fmtFP32.decode t)

/-- A ranking with one candidate more, of a higher token index than those in it (R143). -/
def insRank (c : Nat × Nat) : List (Nat × Nat) → List (Nat × Nat)
  | [] => [c]
  | t :: l => if scoreLe c.1 t.1 then t :: insRank c l else c :: t :: l

/-- KV head offsets of ranking `a`. -/
def Dtor.scope (x : Dtor) (a : Nat) : List Nat := if x.perHead then [a] else List.range x.nkvh

/-- Rankings of a SIFT. -/
def Dtor.rankings (x : Dtor) : Nat := if x.perHead then x.nkvh else 1

/-- The score of token `j` in ranking `a`; none when it is no candidate.
(DESIGN CHOICE, log entry 7.) -/
def Dtor.siftScore (x : Dtor) (l : Layout) (bm k : Nat) (qs : List (Option Word)) (pg : Nat → List (Option Word)) (a j : Nat) :
    Option Nat :=
  let ps := (List.range x.npos).filter fun p => x.visible l bm p j
  let rows := (x.scope a).map fun b => (b, x.row l pg false b j)
  if ps.isEmpty || rows.any fun r => r.2.isNone then none
  else
    some (maxCode (rows.flatMap fun r => ps.flatMap fun p => (List.range x.qheads).map fun g =>
      let i := (r.1 * x.npos + p) * x.qheads + g
      x.scoreOf l (scoreAt k i j) ((Dtor.query qs l.d i).getD []) (r.2.getD [])))

/-- The tokens ranking `a` selects with their scores, in descending rank (R143). -/
def Dtor.ranked (x : Dtor) (l : Layout) (bm k : Nat) (qs : List (Option Word)) (pg : Nat → List (Option Word)) (a : Nat) :
    List (Nat × Nat) :=
  (x.tokens.foldl (fun r j => match x.siftScore l bm k qs pg a j with | some s => insRank (s, j) r | none => r) []).take x.topK

/-- Entry of a token list (R144). -/
def tokenEntry (a : Nat) (c : Nat × Nat) : Nat := c.1 * 2 ^ 32 + a * 2 ^ 24 + c.2

/-- The SPNs a selected token names (R144). -/
def Dtor.siftSpns (x : Dtor) (l : Layout) (a j : Nat) : List Nat :=
  (x.scope a).flatMap fun b => (if x.allLayers then List.range l.layers else [x.layer]).flatMap fun ly =>
    [x.rowSpn l false ly b j, x.rowSpn l true ly b j]

/-- The full output of a SIFT: its entries (R144). -/
def Dtor.siftOut (x : Dtor) (l : Layout) (bm k : Nat) (qs : List (Option Word)) (pg : Nat → List (Option Word)) : List Nat :=
  let rs := (List.range x.rankings).map fun a => (x.ranked l bm k qs pg a, a)
  if x.toPages then sortKey (fun s : Nat => s) (rs.flatMap fun r => r.1.flatMap fun c => x.siftSpns l r.2 c.2).eraseDups
  else rs.flatMap fun r =>
    let es := r.1.map (tokenEntry (if x.perHead then r.2 else 0))
    es ++ List.replicate (x.topK - es.length) 0

/-- Bytes of an entry of a SIFT's output. -/
def Dtor.entryBytes (x : Dtor) : Nat := if x.toPages then 4 else 8

/-! ## REDUCE (R145) -/

/-- A REDUCE type's format: 0 FP32, 1 BF16, 2 FP16; none for INT32. -/
def redFmt (ty : Nat) : Option FlFmt :=
  match ty with | 0 => some fmtFP32 | 1 => some fmtBF16 | 2 => some fmtFP16 | _ => none

/-- A 32-bit code as a signed number. -/
def signed32 (c : Nat) : Int := (BitVec.ofNat 32 c).toInt

/-- The greater, or the lesser, of two codes by an order; at equal values the one with the sign `neg` asks for. -/
def pickFl (f : FlFmt) (greater : Bool) (neg : Bool) (a b : Nat) : Nat :=
  let x := f.decode a
  let y := f.decode b
  if x.le y && y.le x then (if (decide (a / 2 ^ f.bits % 2 = 1)) = neg then a else b)
  else if x.le y = greater then b else a

/-- Element of the destination from the sources' elements; `k` numbers the free values: a floating-point SUM, and the sign of MIN
of +0 and −0.
(DESIGN CHOICE, log entry 7.) -/
def redElem (ty op k : Nat) (l : List Nat) : Nat :=
  match redFmt ty with
  | none =>
    let s := l.map signed32
    let r : Int :=
      match op with
      | 0 => s.foldl (· + ·) 0
      | 1 => s.foldl max (s.headD 0)
      | _ => s.foldl min (s.headD 0)
    (BitVec.ofInt 32 r).toNat
  | some f =>
    if op = 0 then boundReduce f (l.map f.decode) (Config.fpSum k ty l % 2 ^ 32)
    else if l.any f.isNaN then f.qnan
    else l.foldl (pickFl f (op = 1) (op = 2 && Config.fpSum k ty l % 2 = 1)) (l.headD 0)

/-- Bytes of an element of a REDUCE type. -/
def redSize (ty : Nat) : Nat := if ty = 1 || ty = 2 then 2 else 4

/-- Word `i` of the destination from the sources' words: none where one is poisoned. -/
def redWord (ty op k : Nat) (ws : List (Option Word)) : Option Word :=
  if ws.any Option.isNone then none
  else
    let n := redSize ty
    let at_ (w : Word) (i : Nat) : Nat := w.toNat / 2 ^ (8 * n * i) % 2 ^ (8 * n)
    some (wordOfBytes ((List.range (32 / n)).flatMap fun i => leBytes n (redElem ty op (k + i) (ws.map fun w => at_ (w.getD 0) i))))

/-! ## COMPARE (R146) -/

/-- The status and RESULT of a COMPARE of two buffers' bytes, from offset `o` on. -/
def compareBytes : Nat → List (Option Byte) → List (Option Byte) → Nat × Nat
  | o, some a :: as, some b :: bs => if a = b then compareBytes (o + 1) as bs else (stOk, 2 ^ 32 + o)
  | o, _ :: _, _ :: _ => (stPoison, o)
  | _, _, _ => (stOk, 0)

end Sys2Proof.Machine
end

