-- ==== Sys2Proof/Machine/Tally.lean ====
section
/-! DEFINITION. Tally descriptors (R128 to R132, R136 to R153, R171, R173): their checks, the regions that work, their results and
outputs; NOP and FENCE. -/

namespace Sys2Proof.Machine

/-! ## NOP and FENCE -/

/-- Meaning of NOP (R166). -/
def execNop (d : Nat) (s : State) : Host.Outcome State Fault Refusal :=
  s.app ((Instr.nop d).wf s.m.fam) <| Mach.dataRun fun m =>
    match m.startable d 0x00 with
    | some _ => m.opDone d stOk 0
    | none => m

/-- The write is of a descriptor that comes before `x` in its queue: data, or a completion (R173). -/
def Mach.writesOut (m : Mach) (x : Dtor) (o : WrOwner) : Bool :=
  match o with
  | .cqe f q inc d => f = x.fn && q = x.q && inc = (m.queue x.fn x.q).inc && decide (d < x.id)
  | .data f q inc d _ => f = x.fn && q = x.q && inc = (m.queue x.fn x.q).inc && decide (d < x.id)
  | _ => false

/-- Meaning of FENCE (R173): it completes once every earlier descriptor of its queue has completed and every device-initiated write
of theirs has been acknowledged. -/
def execFence (d : Nat) (s : State) : Host.Outcome State Fault Refusal :=
  s.app ((Instr.fence d).wf s.m.fam) <| Mach.dataRun fun m =>
    match m.dtorAt d with
    | none => m
    | some x =>
      if !x.isFence || !(m.before x).isEmpty then m
      else if (m.svc.wrs.any fun w => m.writesOut x w.owner) || m.svc.wrWait.any fun w => m.writesOut x w.owner then m
      else m.opDone d stOk 0

/-! ## Session pages -/

/-- Where page `spn` of the version an ATTEND or SIFT names lies; poison once the session or the version is gone. -/
def Mach.tallyRef (m : Mach) (x : Dtor) (spn : Nat) : PageRef :=
  match m.byHandle x.handle with
  | none => .blank
  | some (_, s) =>
    if x.version = 0 then (if spn < s.npages then m.pageRef (s.wbase + spn) else .blank)
    else match s.ver x.version with | some v => m.spnRef s (some v) spn | none => .blank

/-- The region that works on a page: the one that holds its content descriptor (R128). -/
def Mach.refRegion (m : Mach) : PageRef → Option Nat
  | .blank => none
  | .pat r _ => some r
  | .cont c => some (m.crefRegion c)

/-- The words of a session page as a descriptor reads them. -/
def Mach.tallyPage (m : Mach) (x : Dtor) (spn : Nat) : List (Option Word) := (m.refWords x.id (m.tallyRef x spn)).map readWord

/-- The SPNs of the tokens `js` of an ATTEND or SIFT: a SIFT reads key rows alone. -/
def Dtor.tokenSpns (x : Dtor) (l : Layout) (js : List Nat) : List Nat :=
  ((List.range x.nkvh).flatMap fun a => js.flatMap fun j =>
    x.rowSpn l false x.layer a j :: (if x.opcode = 0x20 then [x.rowSpn l true x.layer a j] else [])).eraseDups

/-- The bitmap as a number; zero for the other masks. -/
def Mach.bitmap (m : Mach) (x : Dtor) (l : Layout) : Nat :=
  if x.maskKind = 3 then leNat ((m.bufClean x (x.op 2) (x.bitmapLen l)).getD []) else 0

/-- The SPNs with a visible token. -/
def Mach.visibleSpns (m : Mach) (x : Dtor) : List Nat :=
  let l := layoutOf x.lay
  let bm := m.bitmap x l
  x.tokenSpns l (x.tokens.filter fun j => (List.range x.npos).any fun p => x.visible l bm p j)

/-! ## Checks (R150) -/

/-- Table 05.5, orders 4 to 7, of an ATTEND or SIFT under layout `l`: the status of the first check that fails. -/
def Mach.attendCheck (m : Mach) (x : Dtor) (l : Layout) : Option Nat :=
  let sift : Bool := x.opcode = 0x22
  let olen := if sift then x.ocap * x.entryBytes else x.nq * recBytes x.final l.d
  if decide (3 < x.maskKind) || x.nkvh = 0 || x.qheads = 0 || x.npos = 0 || (x.maskKind = 2 && x.win = 0) || !scaleOk x.scale ||
      decide (2 ^ 24 < x.qpos) || (sift && (x.topK = 0 || x.ocap = 0)) then some stBadOperand
  else if decide (16 < x.nkvh) || decide (64 < x.qheads * x.npos) || decide (2 ^ 24 < x.tend - x.tstart) ||
      (x.maskKind = 2 && decide (2 ^ 24 < x.win)) || (sift && (decide (4096 < x.topK) || decide (2 ^ 24 < x.ocap))) then some stTooLarge
  else if decide (l.layers ≤ x.layer) || decide (l.kvheads < x.kvh0 + x.nkvh) || decide (x.tend ≤ x.tstart) || decide (l.ntok < x.tend) ||
      !m.bufFits x 64 (x.op 0) (2 * l.d * x.nq) || !m.bufFits x 64 (x.op 1) olen ||
      (x.maskKind = 3 && !m.bufFits x 1 (x.op 2) (x.bitmapLen l)) then some stBadRange
  else
    ((m.bufResolve x (x.op 0) (2 * l.d * x.nq)).or (m.bufResolve x (x.op 1) olen)).or
      (if x.maskKind = 3 then m.bufResolve x (x.op 2) (x.bitmapLen l) else none)

/-- A page range meets a map area or a view range of a live session, or lies in a READ-SHARED extent (R149, R192). -/
def Mach.barred (m : Mach) (base n : Nat) : Bool :=
  (m.sess.sess.any fun x => x.2.st ≠ .free && overlap base n x.2.mbase (mapPages x.2.npages))
  || (m.sess.views.any fun x => x.2.live && overlap base n x.2.base x.2.pages)
  || (List.range ((base + n - 1) / extentPages + 1 - base / extentPages)).any fun i => (m.extent (base / extentPages + i)).coh = .readShared

/-- The same of a buffer in the part. -/
def Mach.bufBarred (m : Mach) (x : Dtor) (a len : Nat) : Bool := (m.bufPages x a len).any fun pn => m.barred pn 1

/-! ## The regions that take part (R128) -/

/-- Tally descriptors waiting in a region. -/
def Mach.tallyWaiting (m : Mach) (r : Nat) : Nat := (m.region r).tallyQ.length

/-- The region the hub chooses for work outside the part: the one with the fewest waiting descriptors, the lower number winning. -/
def Mach.hubPick (m : Mach) : List Nat :=
  (m.serving.foldl (fun (b : Option Nat) r =>
    match b with
    | none => some r
    | some q => if m.tallyWaiting r < m.tallyWaiting q then some r else b) none).toList

/-- The regions that hold a buffer; the hub's choice for one outside the part. So mixed work, a COPY from the part to an outside
destination or a COMPARE of an outside buffer with one inside, has its outside side at the hub's choice: R128 places it nowhere.
(DESIGN CHOICE, log entry 92.) -/
def Mach.bufRegions (m : Mach) (x : Dtor) (a len : Nat) : List Nat :=
  if m.inPart x a then (((m.bufPages x a len).map m.homeOf).eraseDups).filter fun r => (m.region r).st = .serving else m.hubPick

/-- The blocks that do the work of regions: none where a region has no healthy block left on its ring. -/
def Mach.engines (m : Mach) (rs : List Nat) : Option (List Nat) :=
  let es := rs.map m.engineOf
  if es.all Option.isSome then some ((es.map fun e => e.getD 0).eraseDups) else none

/-- Sends the work on pages of the regions `rs` to the blocks `es` that do it. -/
def Mach.sendWork (m : Mach) (d : Nat) (rs es : List Nat) : Mach :=
  let m := m.onDtor d fun x => { x with stage := .running, homes := rs, regions := es, sentAt := m.cycle }
  m.each es fun m e => m.tallyEnqueue e d

/-! ## Outputs -/

/-- The words of a result go to a buffer, and the descriptor ends. Lines of pages of the part are recalled first (R197); the
result then waits for the descriptor to be taken up again. -/
def Mach.giveOut (m : Mach) (d a n : Nat) (ws : List (Option Word)) (status result : Nat) : Mach :=
  match m.dtorAt d with
  | none => m
  | some x => (m.redraw.bufOut x a n ws).opDone d status result

/-- The pages of an output buffer, if it lies in the part. -/
def Mach.outPages (m : Mach) (x : Dtor) (a n : Nat) : List Nat := if m.inPart x a then m.bufPages x a n else []

/-- The words of a buffer in a RELEASING extent are written to no effect (R184). -/
def Mach.outReady (m : Mach) (x : Dtor) (a n : Nat) : Bool := m.mayWrite (m.outPages x a n)

/-- An output is written once its pages may be. -/
def Mach.tryOut (m : Mach) (x : Dtor) (a n : Nat) (f : Mach → Mach) : Mach :=
  if m.outReady x a n then f m else m.recallAll (m.outPages x a n)

/-! ## Ends of the operations -/

/-- The end of an ATTEND (R138 to R140). -/
def Mach.endAttend (m : Mach) (x : Dtor) : Mach :=
  let l := layoutOf x.lay
  let size := recBytes x.final l.d
  m.tryOut x (x.op 1) (x.nq * size) fun m =>
    let qs := m.bufWords x (x.op 0) (2 * l.d * x.nq)
    let bm := m.bitmap x l
    let (ws, poisoned, empty) := queryOut size ((List.range x.nq).map (x.attendOne l bm m.fresh qs (m.tallyPage x)))
    m.giveOut x.id (x.op 1) (x.nq * size) ws (if poisoned = 0 then stOk else stPoison) (poisoned * 2 ^ 11 + empty)

/-- The end of a SIFT (R142 to R144). -/
def Mach.endSift (m : Mach) (x : Dtor) : Mach :=
  let l := layoutOf x.lay
  let qs := m.bufWords x (x.op 0) (2 * l.d * x.nq)
  if qs.any Option.isNone then m.opDone x.id stPoison 0
  else
    let es := x.siftOut l (m.bitmap x l) m.fresh qs (m.tallyPage x)
    let out := es.take x.ocap
    let n := out.length * x.entryBytes
    m.tryOut x (x.op 1) n fun m =>
      m.giveOut x.id (x.op 1) n (outWords (out.flatMap (leBytes x.entryBytes))) (if x.ocap < es.length then stTruncated else stOk) es.length

/-- The 64-bit addresses of a source list, once it has been read (R141). -/
def Mach.sources (m : Mach) (x : Dtor) (n : Nat) : Option (List Nat) :=
  (m.bufClean x (x.op 0) (8 * n)).map fun bs => (List.range n).map fun i => leNat ((bs.drop (8 * i)).take 8)

/-- MERGE: head dimension, NQ, NSRC, OMODE. -/
def Dtor.mergeD (x : Dtor) : Nat := headDim (x.opf 2 34 32)
/-- NQ -/
def Dtor.mergeNq (x : Dtor) : Nat := x.opf 2 26 16
/-- NSRC -/
def Dtor.mergeSrc (x : Dtor) : Nat := x.opf 2 8 0
/-- OMODE -/
def Dtor.mergeFinal (x : Dtor) : Bool := x.opf 2 40 40 = 1

/-- The end of a MERGE (R139, R141). -/
def Mach.endMerge (m : Mach) (x : Dtor) : Mach :=
  let d := x.mergeD
  let rb := recBytes false d
  let size := recBytes x.mergeFinal d
  let srcs := ((m.sources x x.mergeSrc).getD []).map fun a => m.bufWords x a (x.mergeNq * rb)
  let recs (i : Nat) : List (Option (List Byte)) := srcs.map fun ws => cutBytes ws (i * rb) rb
  if srcs.any fun ws => (List.range x.mergeNq).any fun i => recReserved ws (i * rb) then m.opDone x.id stBadOperand 0
  else
    m.tryOut x (x.op 1) (x.mergeNq * size) fun m =>
      let (ws, poisoned, empty) := queryOut size ((List.range x.mergeNq).map fun i => mergeOne x.mergeFinal d m.fresh i (recs i))
      m.giveOut x.id (x.op 1) (x.mergeNq * size) ws (if poisoned = 0 then stOk else stPoison) (poisoned * 2 ^ 11 + empty)

/-- REDUCE: type, operation, NSRC, length. -/
def Dtor.redTy (x : Dtor) : Nat := x.opf 2 45 44
/-- operation -/
def Dtor.redOp (x : Dtor) : Nat := x.opf 2 41 40
/-- NSRC -/
def Dtor.redSrc (x : Dtor) : Nat := x.opf 2 36 32
/-- length -/
def Dtor.redLen (x : Dtor) : Nat := x.opf 2 28 0

/-- The end of a REDUCE (R145). -/
def Mach.endReduce (m : Mach) (x : Dtor) : Mach :=
  let srcs := ((m.sources x x.redSrc).getD []).map fun a => m.bufWords x a x.redLen
  m.tryOut x (x.op 1) x.redLen fun m =>
    let ws := (List.range (x.redLen / 32)).map fun i => redWord x.redTy x.redOp (m.fresh * 2 ^ 32 + 16 * i) (srcs.map fun s => (s[i]?).getD none)
    let bad := (ws.filter Option.isNone).length
    m.giveOut x.id (x.op 1) x.redLen ws (if bad = 0 then stOk else stPoison) bad

/-- COMPARE's length. -/
def Dtor.cmpLen (x : Dtor) : Nat := x.opf 2 31 0

/-- The end of a COMPARE (R146). -/
def Mach.endCompare (m : Mach) (x : Dtor) : Mach :=
  let r := compareBytes 0 (m.bufBytes x (x.op 0) x.cmpLen) (m.bufBytes x (x.op 1) x.cmpLen)
  m.opDone x.id r.1 r.2

/-! ## FILL and COPY (R147 to R149) -/

/-- A page becomes CONSTANT with a pattern, or is written whole where the table has no room (R53); the region whose T0 page it must
wait for. -/
def Mach.fillPage (m : Mach) (pn p : Nat) (w : Word) : Except Nat Mach :=
  let r := m.homeOf pn
  let w := (m.attrOf (.slot pn)).pattern w
  let foot := min 255 ((m.footPver pn).1 + 1)
  let c := m.clearSlot pn
  if (c.patIndex r w).isSome then .ok (c.setConst pn p foot w)
  else m.copyPage pn p 1 (List.replicate 128 (encWord w))

/-- A COPY destination page in the part takes its content (R148). -/
def Mach.copyInto (m : Mach) (pn p : Nat) : PageVal → Except Nat Mach
  | .unwritten => .ok (m.clearSlot pn)
  | .const w => m.fillPage pn p w
  | .words l => m.copyPage pn p 1 (l.map fun w => match w with | some w => encWord w | none => .poison)

/-- FILL's pattern. -/
def Dtor.pattern (x : Dtor) : Word := BitVec.ofNat 256 (x.op 0 + x.op 1 * 2 ^ 64 + x.op 2 * 2 ^ 128 + x.op 3 * 2 ^ 192)

/-- What destination page `i` of a FILL or COPY takes. -/
def Dtor.pageVal (x : Dtor) (i : Nat) : PageVal := if x.opcode = 0x25 then .const x.pattern else (x.src[i]?).getD .unwritten

/-- One destination page that region `r`'s block does: written, or left for later while its lines, its session or a T0 page hold
it up; a page of a region or an extent that has gone does not reach its new content (R184, R380). -/
def Mach.destPage (m : Mach) (d r : Nat) (i pn : Nat) : Mach :=
  match m.dtorAt d with
  | none => m
  | some x =>
    let keep (m : Mach) : Mach := m.onDtor d fun x => { x with outs := x.outs ++ [(i, pn)] }
    let h := m.homeOf pn
    let e := m.extent (extOf pn)
    if (m.region h).st ≠ .serving || e.st = .free || e.st = .releasing then m
    else if m.engineOf h ≠ some r then keep m
    else if !m.mayWrite [pn] then keep (m.recallPages pn 1)
    else
      let p := m.dtorPitch x
      match ((m.useLine pn true).unparkAt pn).copyInto pn p (x.pageVal i) with
      | .error q => keep (m.takeT0 q p).1
      | .ok m => m.onDtor d fun x => { x with n0 := x.n0 + 1 }

/-- The destination pages of a FILL or COPY that region `r`'s block can do now. -/
def Mach.destPages (m : Mach) (d r : Nat) : Mach :=
  match m.dtorAt d with
  | none => m
  | some x => m.onDtor d (fun x => { x with outs := [] }) |>.each x.outs fun m o => m.destPage d r o.1 o.2

/-- The words of a page that is sent out of the part. -/
def PageVal.out : PageVal → List (Option Word)
  | .unwritten => List.replicate 128 none
  | .const w => List.replicate 128 (some w)
  | .words l => l

/-- The end of a FILL or COPY: a destination outside the part is written by device-initiated writes, page after page. -/
def Mach.endPages (m : Mach) (x : Dtor) : Mach :=
  let n := x.opf 2 24 0
  if x.opcode = 0x26 && !m.inPart x (x.op 1) then
    let m := m.pagesOut x (x.op 1) (4096 * n) (x.src.flatMap PageVal.out)
    m.opDone x.id stOk n
  else m.opDone x.id stOk x.n0

/-! ## Regions at work (R129, R130) -/

/-- The session pages of an ATTEND or SIFT that region `r`'s block reads. -/
def Mach.shareOf (m : Mach) (x : Dtor) (r : Nat) : List PageRef :=
  if x.opcode = 0x20 || x.opcode = 0x22 then
    ((m.visibleSpns x).map (m.tallyRef x)).eraseDups.filter fun ref =>
      match m.refRegion ref with | some q => m.engineOf q = some r | none => false
  else []

/-- Region `r` works on a descriptor: reads of its pages begin, destination pages are written. -/
def Mach.workOn (m : Mach) (r d : Nat) : Mach :=
  match m.dtorAt d with
  | none => m
  | some x =>
    if x.opcode = 0x25 || x.opcode = 0x26 then m.destPages d r
    else m.each (m.shareOf x r) fun m ref => m.fetchRef d ref

/-- Region `r`'s part of the work is done. -/
def Mach.workDone (m : Mach) (r d : Nat) : Bool :=
  match m.dtorAt d with
  | none => false
  | some x =>
    if x.opcode = 0x25 || x.opcode = 0x26 then !(x.outs.any fun o => m.engineOf (m.homeOf o.2) = some r)
    else !((m.shareOf x r).any (m.fetching d))

/-- CONSTANT pages a descriptor has read count once in their footfall (R54). -/
def Mach.footRead (m : Mach) (x : Dtor) : Mach :=
  if (x.opcode = 0x20 || x.opcode = 0x22) && x.version = 0 then
    match m.byHandle x.handle with
    | some (_, s) => m.each (m.visibleSpns x) fun m i => m.footConst (s.wbase + i)
    | none => m
  else m

/-- The hub ends a Tally descriptor whose regions have all given their results. -/
def Mach.tallyEnd (m : Mach) (d : Nat) : Mach :=
  match m.dtorAt d with
  | none => m
  | some x =>
    if x.stage ≠ .running || !x.regions.isEmpty then m
    else
      match x.opcode with
      | 0x20 => (m.footRead x).endAttend x
      | 0x21 => m.endMerge x
      | 0x22 => (m.footRead x).endSift x
      | 0x23 => m.endReduce x
      | 0x24 => m.endCompare x
      | _ => m.endPages x

/-- The work is sent; work without a region ends at once. -/
def Mach.startWork (m : Mach) (d : Nat) (rs es : List Nat) : Mach := (m.sendWork d rs es).tallyEnd d

/-! ## Descriptors -/

/-- A Tally descriptor that names no session: taken up, or taken up again. -/
def Mach.tallyOp (m : Mach) (d op : Nat) (start : Mach → Dtor → Mach) : Mach :=
  match m.startable d op with
  | none => m
  | some x => if x.stage = .running then m.tallyEnd d else start m x

/-- Inputs are asked for, and the operation goes on once they have come. -/
def Mach.withInputs (m : Mach) (d : Nat) (bs : List (Bool × Nat × Nat)) (go : Mach → Dtor → Mach) : Mach :=
  let m := m.askInputs d bs
  if !m.inputsReady d bs then m.reading d
  else match m.dtorAt d with | some x => go m x | none => m

/-- Footfall of the CONSTANT pages of in-part inputs. -/
def Mach.footInputs (m : Mach) (x : Dtor) (bs : List (Bool × Nat × Nat)) : Mach :=
  m.each bs fun m b => if m.inPart x b.2.1 then m.footBuf x b.2.1 b.2.2 else m

/-- ATTEND and SIFT. -/
def Mach.opAttend (m : Mach) (d op : Nat) : Mach :=
  m.tallyOp d op fun m x =>
    match m.byHandle x.handle with
    | none => m.opDone d stBadHandle 0
    | some (k, s) =>
      let p := m.dtorPitch x
      if s.pitch ≠ p && !s.readers.getLsbD p then (m.onSession k fun s => { s with idle := 0 }).opDone d stDenied 0
      else
        m.sessOp d op false fun m x k s =>
          match (if x.version = 0 then some s.layout else (s.ver x.version).map (·.layout)) with
          | none => m.opDone d stBadVersion 0
          | some w =>
            let l := layoutOf w
            if w = 0 then m.opDone d stBadLayout 0
            else
              match m.attendCheck x l with
              | some st => m.opDone d st 0
              | none =>
                let rs := ((x.tokenSpns l x.tokens).filterMap fun i => m.refRegion (m.tallyRef x i)).eraseDups
                let rs := if rs.isEmpty then [k / 16384] else rs
                match m.engines rs with
                | none => m.opDone d stNoEngine 0
                | some es =>
                  let bs := (if x.maskKind = 3 then [(true, x.op 2, x.bitmapLen l)] else []) ++ [(false, x.op 0, 2 * l.d * x.nq)]
                  m.withInputs d bs fun m x =>
                    if x.maskKind = 3 && (m.bufClean x (x.op 2) (x.bitmapLen l)).isNone then m.opDone d stInputPoison 0
                    else ((m.footInputs x bs).onDtor d fun y => { y with lay := w }).startWork d rs es

/-- Meaning of ATTEND. -/
def execAttend (d : Nat) (s : State) : Host.Outcome State Fault Refusal :=
  s.app ((Instr.attend d).wf s.m.fam) <| Mach.dataRun fun m => m.opAttend d 0x20

/-- Meaning of SIFT. -/
def execSift (d : Nat) (s : State) : Host.Outcome State Fault Refusal :=
  s.app ((Instr.sift d).wf s.m.fam) <| Mach.dataRun fun m => m.opAttend d 0x22

/-- An operation over a source list: `n` sources of `len` bytes each; `bad` refuses their addresses, and `es` are the blocks that
work. -/
def Mach.overSources (m : Mach) (x : Dtor) (n len : Nat) (bad : List Nat → Bool) (rs : List Nat) : Mach :=
  let d := x.id
  match m.engines rs with
  | none => m.opDone d stNoEngine 0
  | some es =>
    if rs.isEmpty && m.serving.isEmpty then m.opDone d stNoEngine 0
    else
      let bs := [(true, x.op 0, 8 * n)]
      m.withInputs d bs fun m x =>
        match m.sources x n with
        | none => m.opDone d stInputPoison 0
        | some as =>
          if bad as || as.any (fun a => !m.bufFits x 64 a len) then m.opDone d stBadRange 0
          else
            match as.findSome? fun a => m.bufResolve x a len with
            | some st => m.opDone d st 0
            | none =>
              let ins := as.eraseDups.map fun a => (false, a, len)
              m.withInputs d ins fun m x => (m.footInputs x (bs ++ ins)).startWork d rs es

/-- MERGE (R141). -/
def Mach.opMerge (m : Mach) (d : Nat) : Mach :=
  m.tallyOp d 0x21 fun m x =>
    let n := x.mergeSrc
    let nq := x.mergeNq
    let olen := nq * recBytes x.mergeFinal x.mergeD
    if decide (4 < x.opf 2 34 32) || decide (n < 2) || nq = 0 then m.opDone d stBadOperand 0
    else if decide (256 < n) || decide (1024 < nq) then m.opDone d stTooLarge 0
    else if !m.bufFits x 8 (x.op 0) (8 * n) || !m.bufFits x 64 (x.op 1) olen then m.opDone d stBadRange 0
    else
      match (m.bufResolve x (x.op 0) (8 * n)).or (m.bufResolve x (x.op 1) olen) with
      | some st => m.opDone d st 0
      | none => m.overSources x n (nq * recBytes false x.mergeD) (fun _ => false) m.hubPick

/-- Meaning of MERGE. -/
def execMerge (d : Nat) (s : State) : Host.Outcome State Fault Refusal :=
  s.app ((Instr.merge d).wf s.m.fam) <| Mach.dataRun fun m => m.opMerge d

/-- REDUCE (R145, R149). -/
def Mach.opReduce (m : Mach) (d : Nat) : Mach :=
  m.tallyOp d 0x23 fun m x =>
    let n := x.redSrc
    let len := x.redLen
    let b := x.op 1
    if x.redOp = 3 || decide (n < 2) || len = 0 then m.opDone d stBadOperand 0
    else if decide (16 < n) || decide (2 ^ 28 < len) then m.opDone d stTooLarge 0
    else if len % 64 ≠ 0 || !m.bufFits x 8 (x.op 0) (8 * n) || !m.bufFits x 64 b len || m.bufBarred x b len then m.opDone d stBadRange 0
    else
      match (m.bufResolve x (x.op 0) (8 * n)).or (m.bufResolve x b len) with
      | some st => m.opDone d st 0
      | none => m.overSources x n len (fun as => as.any fun a => a ≠ b && overlap a len b len) (m.bufRegions x b len)

/-- Meaning of REDUCE. -/
def execReduce (d : Nat) (s : State) : Host.Outcome State Fault Refusal :=
  s.app ((Instr.reduce d).wf s.m.fam) <| Mach.dataRun fun m => m.opReduce d

/-- COMPARE (R146). -/
def Mach.opCompare (m : Mach) (d : Nat) : Mach :=
  m.tallyOp d 0x24 fun m x =>
    let len := x.cmpLen
    if len = 0 then m.opDone d stBadOperand 0
    else if !m.bufFits x 1 (x.op 0) len || !m.bufFits x 1 (x.op 1) len then m.opDone d stBadRange 0
    else
      match (m.bufResolve x (x.op 0) len).or (m.bufResolve x (x.op 1) len) with
      | some st => m.opDone d st 0
      | none =>
        let rs := m.bufRegions x (x.op 0) len
        match m.engines rs with
        | none => m.opDone d stNoEngine 0
        | some es =>
          let bs := [(false, x.op 0, len), (false, x.op 1, len)].eraseDups
          m.withInputs d bs fun m x => (m.footInputs x bs).startWork d rs es

/-- Meaning of COMPARE. -/
def execCompare (d : Nat) (s : State) : Host.Outcome State Fault Refusal :=
  s.app ((Instr.compare d).wf s.m.fam) <| Mach.dataRun fun m => m.opCompare d

/-- A FILL or COPY starts on its destination pages in the part.
(DEDUCED, log entry 81.) -/
def Mach.startPages (m : Mach) (d : Nat) (pns rs es : List Nat) : Mach :=
  (m.onDtor d fun x => { x with outs := pns.zipIdx.map fun e => (e.2, e.1) }).startWork d rs es

/-- FILL (R147). A destination page in a FREE extent completes with BAD_RANGE: the spec gives no status for it.
(DESIGN CHOICE, log entry 90.) -/
def Mach.opFill (m : Mach) (d : Nat) : Mach :=
  m.tallyOp d 0x25 fun m x =>
    let n := x.opf 4 24 0
    let pns := pageRange (x.pn 4) n
    if n = 0 then m.opDone d stBadOperand 0
    else if 2 ^ 24 < n then m.opDone d stTooLarge 0
    else if (pns.any fun pn => (m.extent (extOf pn)).st = .free) || m.barred (x.pn 4) n then m.opDone d stBadRange 0
    else if pns.any fun pn => (m.extent (extOf pn)).pitch ≠ m.dtorPitch x then m.opDone d stDenied 0
    else
      let rs := ((pns.map m.homeOf).eraseDups).filter fun r => (m.region r).st = .serving
      match m.engines rs with
      | none => m.opDone d stNoEngine 0
      | some es => m.startPages d pns rs es

/-- Meaning of FILL. -/
def execFill (d : Nat) (s : State) : Host.Outcome State Fault Refusal :=
  s.app ((Instr.fill d).wf s.m.fam) <| Mach.dataRun fun m => m.opFill d

/-- A source page of a COPY in the part as it has been read: its form, or its words (R148). -/
def Mach.pageVal (m : Mach) (d pn : Nat) : PageVal :=
  let x := m.extent (extOf pn)
  let ref := m.pageRef pn
  if x.st = .free || x.st = .releasing || (m.region (m.homeOf pn)).st ≠ .serving then .words (List.replicate 128 none)
  else
    match m.desc pn, ref with
    | .unwritten, _ => .unwritten
    | _, .pat r i => match readWord (m.patWord r i) with | some w => .const w | none => .words (List.replicate 128 none)
    | _, _ => .words ((m.refWords d ref).map readWord)

/-- COPY (R148). -/
def Mach.opCopy (m : Mach) (d : Nat) : Mach :=
  m.tallyOp d 0x26 fun m x =>
    let n := x.opf 2 24 0
    let len := 4096 * n
    let a := x.op 0
    let b := x.op 1
    if n = 0 then m.opDone d stBadOperand 0
    else if 2 ^ 24 < n then m.opDone d stTooLarge 0
    else if !m.bufFits x 4096 a len || !m.bufFits x 4096 b len || m.bufBarred x b len then m.opDone d stBadRange 0
    else
      match (m.bufResolve x a len).or (m.bufResolve x b len) with
      | some st => m.opDone d st 0
      | none =>
        let rs := m.bufRegions x b len
        match m.engines rs with
        | none => m.opDone d stNoEngine 0
        | some es =>
          let bs := [(false, a, len)]
          m.withInputs d bs fun m x =>
            let vals :=
              if m.inPart x a then (m.bufPages x a len).map (m.pageVal d)
              else
                let ws := m.bufWords x a len
                (List.range n).map fun i => PageVal.words ((ws.drop (128 * i)).take 128)
            ((m.footInputs x bs).onDtor d fun y => { y with src := vals }).startPages d (m.outPages x b len) rs es

/-- Meaning of COPY. -/
def execCopy (d : Nat) (s : State) : Host.Outcome State Fault Refusal :=
  s.app ((Instr.copy d).wf s.m.fam) <| Mach.dataRun fun m => m.opCopy d

/-! ## The Tally block (R129, R206, R367) -/

/-- The descriptor is an ATTEND or SIFT. -/
def Dtor.isBig (x : Dtor) : Bool := x.opcode = 0x20 || x.opcode = 0x22

/-- A waiting descriptor has a place free. -/
def Region.placeFor (g : Region) (x : Dtor) : Bool := if x.isBig then decide (g.tallyBig.length < 2) else decide (g.tallySmall.length < 8)

/-- The pitch and region priority level of a descriptor's work in region `r`'s block: level 7 once it has waited 64 µs (R209). -/
def Mach.tallyPrio (m : Mach) (r : Nat) (x : Dtor) : Nat × Nat :=
  let p := m.dtorPitch x
  (p, if x.sentAt + us 64 ≤ m.cycle then 7 else tget (m.region r).level 0 (p * 3 + 2))

/-- The descriptors of region `r`'s queue that have a place. A small one does not wait behind an ATTEND or SIFT of its pitch that
has none, though R129 takes a pitch's work in arrival order.
(DESIGN CHOICE, log entry 99.) -/
def Mach.tallyReady (m : Mach) (r : Nat) : List Dtor := ((m.region r).tallyQ.filterMap m.dtorAt).filter (m.region r).placeFor

/-- Tally cells may start work in this region cycle: stage 1 of the power cap leaves out one in sixteen for each step (R216). -/
def Mach.tallyIssue (m : Mach) : Bool := decide (m.cycle / 2 % 16 + m.sys.pc1 < 16)

/-- Meaning of TALLY_DISPATCH: a waiting descriptor starts where a place is free, the one of the highest level and credit count (R206,
R209); not while the region changes microcode. -/
def execTallyDispatch (r : Nat) (s : State) : Host.Outcome State Fault Refusal :=
  s.app ((Instr.tallyDispatch r).wf s.m.fam) <| Mach.dataRun fun m =>
    if !m.tallyOk r || (m.region r).rolling || !m.tallyIssue then m
    else
      let xs := m.tallyReady r
      let m := m.refillFor r 10 (xs.map m.dtorPitch)
      match m.pickBy r 10 (m.tallyPrio r) xs with
      | none => m
      | some x =>
        let m := m.onRegion r fun g =>
          { g with tallyQ := g.tallyQ.filter (· ≠ x.id), tallyGated := false, tallyAt := tins g.tallyAt x.id m.cycle
                   tallyBig := if x.isBig then g.tallyBig ++ [x.id] else g.tallyBig
                   tallySmall := if x.isBig then g.tallySmall else g.tallySmall ++ [x.id] }
        m.workOn r x.id

/-- The Tally cell that works on descriptor `d` in region `r` has finished periods of 1,024 region cycles: each costs the pitch a
credit (Table 08.2).
(DESIGN CHOICE, log entry 102.) -/
def Mach.tallyCharge (m : Mach) (r d : Nat) : Mach :=
  match m.dtorAt d, tfind (m.region r).tallyAt d with
  | some x, some t =>
    let n := (m.cycle - t) / 2048
    (m.charge r 10 (m.dtorPitch x) n).onRegion r fun g => { g with tallyAt := tins g.tallyAt d (t + 2048 * n) }
  | _, _ => m

/-- Region `r` has finished a descriptor's work: it is measured (R207) and leaves the block. -/
def Mach.regionDone (m : Mach) (r d : Nat) : Mach :=
  match m.dtorAt d with
  | none => m
  | some x =>
    let m := m.measure r (m.dtorPitch x) 2 (m.cycle - x.sentAt)
    let m := m.onRegion r fun g => { g with tallyBig := g.tallyBig.filter (· ≠ d), tallySmall := g.tallySmall.filter (· ≠ d)
                                            tallyAt := tdel g.tallyAt d }
    m.onDtor d fun x => { x with regions := x.regions.filter (· ≠ r) }

/-- Meaning of TALLY_REGION_RESULT: region `r`'s result reaches the hub; after the last one the hub merges, writes the outputs and
completes the descriptor. A region whose pages have not all come, or whose pages are held up, goes on with them. -/
def execTallyRegionResult (r d : Nat) (s : State) : Host.Outcome State Fault Refusal :=
  s.app ((Instr.tallyRegionResult r d).wf s.m.fam) <| Mach.dataRun fun m =>
    let g := m.region r
    if !(g.tallyBig.contains d || g.tallySmall.contains d) then m
    else
      let m := (m.tallyCharge r d).workOn r d
      if m.workDone r d then (m.regionDone r d).tallyEnd d else m

/-! ## Waiting operations (R112) -/

/-- The operation of descriptor `d` on the session it names. -/
def Mach.sessionOp (m : Mach) (d : Nat) : Mach :=
  match (m.dtorAt d).elim 0 Dtor.opcode with
  | 0x11 => m.opDestroy d
  | 0x12 => m.opSetattr d
  | 0x13 => m.opPublish d
  | 0x14 => m.opDrop d
  | 0x15 => m.opOpen d
  | 0x17 => m.opFork d
  | 0x18 => m.opPark d
  | 0x19 => m.opResume d
  | 0x20 => m.opAttend d 0x20
  | 0x22 => m.opAttend d 0x22
  | _ => m

/-- Meaning of SESSION_OP_RESUME (R112): the first operation that waits for the session is settled by the state it now holds,
which can be a further wait. -/
def execSessionOpResume (handle : Nat) (s : State) : Host.Outcome State Fault Refusal :=
  s.app ((Instr.sessionOpResume handle).wf s.m.fam) <| Mach.dataRun fun m =>
    match m.firstWaiter (keyOfHandle handle) with
    | none => m
    | some d =>
      (m.onDtor d fun x => if x.stage = .waiting then { x with stage := .dispatched } else x).sessionOp d

end Sys2Proof.Machine
end

