-- ==== Sys2Proof/Machine/Flags.lean ====
section
/-! DEFINITION. Status words and levels that follow the state at every moment (R158, R165, R186, R200, R247, R248): QPEND, QLIVE,
QINFO, QSTAT, INTSTAT, the interrupt level, LEASESTAT, RETIREPEND. -/

namespace Sys2Proof.Machine

/-! ## Queues (Tables 06.1 to 06.3) -/

/-- The interrupt condition of a queue holds (R165). -/
def Mach.qpend (m : Mach) (f q : Nat) : Bool :=
  let x := m.queue f q
  x.ien && (decide (max 1 x.icount ≤ x.written.length) ||
    (match x.written with
    | t :: _ => x.idelay = 0 || decide (t + us x.idelay ≤ m.cycle)
    | [] => false))

/-- A number whose bit q is `p q`, for q below n. -/
def bitsOf (n : Nat) (p : Nat → Bool) : Nat := ((List.range n).map fun q => if p q then 2 ^ q else 0).foldl (· + ·) 0

/-- QPEND -/
def Mach.qpendReg (m : Mach) (f : Nat) : Nat := bitsOf 64 (m.qpend f)
/-- QLIVE -/
def Mach.qlive (m : Mach) (f : Nat) : Nat := bitsOf 64 fun q => (m.queue f q).st ≠ .free
/-- QSTAT -/
def Func.qstat (x : Func) : Nat := (if x.qbusy.isSome then 2 ^ 31 else 0) + x.qresult * 2 ^ 16 + x.qverMaj * 2 ^ 8 + x.qverMin

/-- STATE of a queue (Table 06.3). -/
def QState.code : QState → Nat
  | .free => 0 | .active => 1 | .error => 2 | .draining => 3 | .drained => 4 | .deleting => 5

/-- QINFO (Table 06.2). -/
def Mach.qinfo (m : Mach) (f q : Nat) : Nat :=
  let x := m.queue f q
  x.st.code * 2 ^ 61 + x.cause * 2 ^ 56 + x.sqhead * 2 ^ 32 + x.cqtail * 2 ^ 16 + m.inflight f q

/-! ## Interrupts (Table 10.7, R248) -/

/-- RETIREPEND of function `f`: [63] VALID, [31:0] the oldest ticket it owes (Table 07.4). -/
def Mach.retirePend (m : Mach) (f : Nat) : Nat := match m.oldestOwed f with | some t => 2 ^ 63 + t | none => 0

/-- INTSTAT. -/
def Mach.intstat (m : Mach) (f : Nat) : BitVec 8 :=
  let x := m.fn f
  let b (i : Nat) (c : Bool) : BitVec 8 := if c then 1#8 <<< i else 0
  b 7 x.ras ||| b 6 x.mbox ||| b 5 (m.oldestOwed f).isSome ||| b 4 x.leaseBit ||| b 3 (tget m.ev.pq [] (m.pitchOf f) ≠ [])
    ||| b 2 (x.dclog ≠ []) ||| b 1 ((List.range 64).any fun q => (m.queue f q).st = .error)
    ||| b 0 ((List.range 64).any (m.qpend f))

/-- Interrupt Status: an enabled source is active. -/
def Mach.intPending (m : Mach) (f : Nat) : Bool := m.intstat f &&& (m.fn f).inten ≠ 0

/-- The function's level (R248). -/
def Mach.intLevel (m : Mach) (f : Nat) : Bool := m.intPending f && !(m.fn f).command.getLsbD 10

/-- The hub compares a function's level with INTSENT and sends a message when they differ, in L0 out of containment (R248). -/
def Mach.intx (m : Mach) (f : Nat) : Mach :=
  if m.linkUp (f / 16) && m.intLevel f ≠ (m.fn f).intsent then
    (m.send (.intx f (m.intLevel f))).onFn f fun x => { x with intsent := m.intLevel f }
  else m

/-- Meaning of INTX_UPDATE (R248). -/
def execIntxUpdate (f : Nat) (s : State) : Host.Outcome State Fault Refusal :=
  s.app ((Instr.intxUpdate f).wf s.m.fam) <| Mach.dataRun fun m => m.intx f

/-- Meaning of IRQ_DELAY_EXPIRE (R165): the oldest unreleased completion reaches IDELAY, the queue's condition holds and the
function's level follows. -/
def execIrqDelayExpire (f q : Nat) (s : State) : Host.Outcome State Fault Refusal :=
  s.app ((Instr.irqDelayExpire f q).wf s.m.fam) <| Mach.dataRun fun m => if m.qpend f q then m.intx f else m

/-- INTSTAT after a write: latched bits written as 1 are cleared (R247). -/
def Func.clearInt (x : Func) (v : BitVec 64) : Func :=
  { x with ras := x.ras && !v.getLsbD 7, mbox := x.mbox && !v.getLsbD 6, leaseBit := x.leaseBit && !v.getLsbD 4 }

/-- A write of INTSTAT of function `f`: a bit set in the same hub cycle stays set (R247, R310). -/
def Mach.writeIntstat (m : Mach) (f : Nat) (v : BitVec 64) : Mach := m.onFn f fun x => x.clearInt (m.clearing (intKey f) v)

/-- Meaning of INTSTAT_CLEAR (R247). -/
def execIntstatClear (f : Nat) (v : BitVec 64) (s : State) : Host.Outcome State Fault Refusal :=
  s.app ((Instr.intstatClear f v).wf s.m.fam) <| Mach.dataRun fun m => if m.barOpen f then m.writeIntstat f v else m

end Sys2Proof.Machine
end

