-- ==== Sys2Proof/Machine/Queues.lean ====
section
/-! DEFINITION. Queue pairs (R158 to R166, R174): the control page's commands, doorbells, fetches, deadlines. -/

namespace Sys2Proof.Machine

/-! ## CREATE (R159, R160) -/

/-- Queues of a pitch that are not FREE. -/
def Mach.pitchQueues (m : Mach) (p : Nat) : Nat := (m.svc.queues.filter fun x => x.2.st ≠ .free && x.2.pitch = p).length
/-- Queues of the chip that are not FREE. -/
def Mach.chipQueues (m : Mach) : Nat := (m.svc.queues.filter fun x => x.2.st ≠ .free).length

/-- A ring lies wholly in one peer window that queues of the pitch on this port may use, and not in memory of the part. -/
def Mach.ringOk (m : Mach) (f p a len : Nat) : Bool :=
  (m.peerMatch p (f / 16) a len).isSome && !((pageAddrs a len).any fun x => (m.pageAt f x).isSome)

/-- CREATE's checks in order: the status of the first that fails, or the queue it makes (R159). -/
def Mach.createCheck (m : Mach) (f : Nat) : Except Nat Queue :=
  let x := m.fn f
  let w := x.qparam.toNat
  let p := m.pitchOf f
  let q := bits w 5 0
  let host := (bits w 31 24, bits w 23 16)
  let log2 := bits w 12 8
  let sq := x.qsqbase.toNat / 4096 * 4096
  let cq := x.qcqbase.toNat / 4096 * 4096
  if p = 0 then .error stNoQueue
  else if (m.queue f q).st ≠ .free then .error stBadState
  else
    match grantVer host with
    | none => .error stBadAbi
    | some v =>
      if log2 < 4 || 16 < log2 then .error stBadOperand
      else if !m.ringOk f p sq (2 ^ log2 * 64) || !m.ringOk f p cq (2 ^ log2 * 16) then .error stBadRange
      else if min 64 (m.hubN (f / 16) (0x3000 + p) 0x14) ≤ m.pitchQueues p || 4096 ≤ m.chipQueues then .error stNoQueue
      else .ok { st := if m.svc.drained.contains p then .drained else .active, sqbase := sq, cqbase := cq, log2 := log2
                 maj := v.1, min := v.2, pitch := p }

/-- CREATE of the queue that QPARAM names. -/
def Mach.createQueue (m : Mach) (f : Nat) : Mach :=
  match m.createCheck f with
  | .error st => m.onFn f fun x => { x with qresult := st }
  | .ok y => (m.renumber.onQueue f (bits (m.fn f).qparam.toNat 5 0) fun _ => { y with inc := m.nextId }).onFn f fun x =>
      { x with qresult := stOk, qverMaj := y.maj, qverMin := y.min }

/-- Meaning of QUEUE_CREATE: QCMD written with CREATE while BUSY is 0. -/
def execQueueCreate (f : Nat) (s : State) : Host.Outcome State Fault Refusal :=
  s.app ((Instr.queueCreate f).wf s.m.fam) <| Mach.dataRun fun m =>
    if m.barOpen f && (m.fn f).qbusy.isNone then m.createQueue f else m

/-! ## Early ends (R174, Table 06.9) -/

/-- Operations that a deadline ends only before they start. -/
def untilStart (op : Nat) : Bool := op ≤ 0x01 || (0x10 ≤ op && op ≤ 0x17) || op = 0x1A || op = 0x1B

/-- A descriptor ends as at its deadline, with the given status (Table 06.9). -/
def Mach.endEarly (m : Mach) (d status : Nat) : Mach :=
  match m.dtorAt d with
  | none => m
  | some x =>
    let started : Bool := x.stage = .running
    if x.stage = .writing then
      (if untilStart x.opcode || x.opcode = 0x18 then m else m.onDtor d fun y => { y with done := some (status, y.n0) })
    else if untilStart x.opcode then (if started then m else m.opDone d status 0)
    else if x.opcode = 0x18 && started then m.endPark (keyOfHandle x.handle) status
    else if x.opcode = 0x19 && started then m.endResume (keyOfHandle x.handle) d status
    else m.opDone d status x.n0

/-- Meaning of DEADLINE_EXPIRE (R174): the deadline of a descriptor has passed. -/
def execDeadlineExpire (d : Nat) (s : State) : Host.Outcome State Fault Refusal :=
  s.app ((Instr.deadlineExpire d).wf s.m.fam) <| Mach.dataRun fun m =>
    match m.dtorAt d with
    | none => m
    | some x =>
      match x.deadline with
      | some t => if t < m.cycle then m.endEarly d stLate else m
      | none => m

/-! ## DELETE (R159, R161) -/

/-- Every descriptor of a queue ends as under DELETING. -/
def Mach.abortQueue (m : Mach) (f q : Nat) : Mach :=
  m.each ((m.svc.dtors.filter fun x => x.fn = f && x.q = q).map (·.id)) fun m d => m.endEarly d stAborted

/-- DELETE of the queue that QPARAM names. -/
def Mach.deleteQueue (m : Mach) (f : Nat) : Mach :=
  let q := bits (m.fn f).qparam.toNat 5 0
  let st := (m.queue f q).st
  if st = .free || st = .deleting then m.onFn f fun x => { x with qresult := stBadState }
  else
    let m := (m.onQueue f q fun x => { x with st := .deleting }).onFn f fun x => { x with qbusy := some q }
    (m.abortQueue f q).queueSettle f q

/-- Meaning of QUEUE_DELETE. -/
def execQueueDelete (f : Nat) (s : State) : Host.Outcome State Fault Refusal :=
  s.app ((Instr.queueDelete f).wf s.m.fam) <| Mach.dataRun fun m =>
    if m.barOpen f && (m.fn f).qbusy.isNone then m.deleteQueue f else m

/-! ## Doorbells (R162 to R164) -/

/-- A write of SQTAIL: a value of depth or more puts an ACTIVE queue in ERROR (R162) and is not kept in
the register, which the spec leaves open.
(DESIGN CHOICE, log entry 97.) -/
def Mach.writeSqtail (m : Mach) (f q v : Nat) : Mach :=
  let x := m.queue f q
  let t := bits v 15 0
  if x.st = .free then m
  else if 2 ^ x.log2 ≤ t then m.errorIfActive f q 4
  else m.onQueue f q fun x => { x with sqtail := t }

/-- Meaning of SQTAIL. -/
def execSqtail (f q : Nat) (v : BitVec 64) (s : State) : Host.Outcome State Fault Refusal :=
  s.app ((Instr.sqtail f q v).wf s.m.fam) <| Mach.dataRun fun m => if m.barOpen f then m.writeSqtail f q v.toNat else m

/-- A write of CQHEAD: consumed completions are released; a value of depth or more, or past CQTAIL, puts an ACTIVE queue in
ERROR (R162) and is not kept in the register, which the spec leaves open.
(DESIGN CHOICE, log entry 97.) -/
def Mach.writeCqhead (m : Mach) (f q v : Nat) : Mach :=
  let x := m.queue f q
  let t := bits v 15 0
  let depth := 2 ^ x.log2
  let n := (t + depth - x.cqhead) % depth
  if x.st = .free then m
  else if decide (depth ≤ t) || decide (x.written.length < n) then m.errorIfActive f q 4
  else (m.onQueue f q fun x => { x with cqhead := t, written := x.written.drop n }).intx f

/-- Meaning of CQHEAD. -/
def execCqhead (f q : Nat) (v : BitVec 64) (s : State) : Host.Outcome State Fault Refusal :=
  s.app ((Instr.cqhead f q v).wf s.m.fam) <| Mach.dataRun fun m => if m.barOpen f then m.writeCqhead f q v.toNat else m

/-! ## Fetches (R163, R201, R204) -/

/-- Slots that may be fetched of a queue now, before tokens are counted. -/
def Mach.fetchRoom (m : Mach) (f q : Nat) : Nat :=
  let x := m.queue f q
  let depth := 2 ^ x.log2
  if x.st ≠ .active || x.fetching.isSome then 0
  else
    let n := m.inflight f q
    min (min (min 8 ((x.sqtail + depth - x.sqhead) % depth)) (depth - x.sqhead))
      (min (depth - (n + x.written.length)) (256 - n))

/-- Queues of a function in the order of their turn. -/
def Mach.queueTurn (m : Mach) (f : Nat) : List Nat :=
  let last := tget (m.hub (f / 16)).rrQueue 0 f
  if last = 0 then List.range 64 else after (last - 1) (List.range 64)

/-- The next queue of a pitch to fetch for at a hub.
(DEDUCED, log entry 60.) -/
def Mach.fetchNext (m : Mach) (h p : Nat) : Option (Nat × Nat) :=
  (m.fnTurn h p).findSome? fun f =>
    if m.bme f then ((m.queueTurn f).find? fun q => 0 < m.fetchRoom f q).map fun q => (f, q) else none

/-- A fetch of queue `q` of function `f` takes its part in the admissions of the hub cycle (R204): as many slots as can be charged,
in one read. -/
def Mach.fetch (m : Mach) (f q : Nat) : Mach :=
  let h := f / 16
  let x := m.queue f q
  if m.tagsFree h true = 0 then m
  else
    let (m, o) := m.admitWith h { pitch := x.pitch, fn := f, left := m.fetchRoom f q } 4
    let n := o.got
    if n = 0 then m
    else
      let m := (m.onHub h fun y => { y with rrQueue := tput y.rrQueue 0 f (q + 1) }).count (0x8400 + x.pitch) 5 n
      match m.peerMatch x.pitch h (x.sqbase + 64 * x.sqhead) (64 * n) with
      | none => m.errorIfActive f q 3
      | some (dpid, addr) =>
        match m.issueRead h (some f) true dpid addr (64 * n) false (.fetch f q) with
        | some m => m.onQueue f q fun x => { x with fetching := some (x.sqhead, n) }
        | none => m

/-- Meaning of DESCRIPTOR_FETCH: hub `h` takes the next fetch of pitch `p`. -/
def execDescriptorFetch (h p : Nat) (s : State) : Host.Outcome State Fault Refusal :=
  s.app ((Instr.descriptorFetch h p).wf s.m.fam) <| Mach.dataRun fun m =>
    if !m.uioOpen h then m
    else match m.fetchNext h p with | some (f, q) => m.fetch f q | none => m

/-! ## Fetch data (R162, R166, R174) -/

/-- The slots at the front of a fetch whose 64 bytes came whole and free of poison. -/
def wholeSlots : Nat → List RWord → List (BitVec 512)
  | n + 1, a :: b :: t => if a.poison || b.poison then [] else (b.data ++ a.data) :: wholeSlots n t
  | _, _ => []

/-- A fetched descriptor is checked and dispatched (R166): one that fails a check completes at once. -/
def Mach.dispatch (m : Mach) (f q : Nat) (raw : BitVec 512) : Mach :=
  let x := m.queue f q
  let bell := us (bellUs m.fam (m.hub (f / 16)).cfg.vals)
  let d : Dtor := { id := m.nextId, fn := f, q := q, seq := x.seq, raw := raw, at_ := m.cycle, deadline := none }
  let d := { d with deadline := if d.bells = 0 then none else some (m.cycle + d.bells * bell) }
  let m := (m.renumber.onSvc fun s => { s with dtors := s.dtors ++ [d] }).onQueue f q fun x =>
    { x with seq := x.seq + 1, sqhead := (x.sqhead + 1) % 2 ^ x.log2 }
  match d.check (x.maj, x.min) with
  | some st => m.opDone d.id st 0
  | none => m

/-- The data of a queue's fetch: while the queue is ACTIVE whole descriptors are dispatched in ring order, and a slot that is not
whole puts the queue in ERROR; in another state the fetch is given up and its slots stay unfetched.
(DEDUCED, log entry 60.) -/
def Mach.fetched (m : Mach) (f q : Nat) (words : List RWord) : Mach :=
  let x := m.queue f q
  match x.fetching with
  | none => m
  | some (_, n) =>
    let m := m.onQueue f q fun x => { x with fetching := none }
    if x.st ≠ .active then m.queueSettle f q
    else
      let ds := wholeSlots n words
      let m := m.each ds fun m raw => m.dispatch f q raw
      if ds.length < n then m.errorIfActive f q 1 else m

/-- Meaning of FETCH_COMPLETE: the data of the fetch under a read tag, which is freed.
(DEDUCED, log entry 61.) (DESIGN CHOICE, log entry 75.) -/
def execFetchComplete (k tag : Nat) (words : List RWord) (s : State) : Host.Outcome State Fault Refusal :=
  s.app ((Instr.fetchComplete k tag words).wf s.m.fam) <| Mach.dataRun fun m =>
    match m.tagAt k tag with
    | some t =>
      match t.owner with
      | .fetch f q => if t.quar || t.deadline < m.cycle then m else (m.freeTag k tag).fetched f q words
      | _ => m
    | none => m

end Sys2Proof.Machine
end

