-- ==== Sys2Proof/Machine/Extents.lean ====
section
/-! DEFINITION. Extents (R179 to R185, R243): adding, offers and their answers, release and its steps; the admission checks of
R43 and R210. -/

namespace Sys2Proof.Machine

/-! ## Admission (R42, R43, R46, R210) -/

/-- R43 for pitch `p` in region `r`: its pages there and their descriptor reservation fit its T1 and T2 floor shares. -/
def Mach.floorOk (m : Mach) (p r : Nat) : Bool :=
  decide (m.pagesHomed p r + m.reservation p r ≤
    sharePages m.fam (m.cfgN (0x3000 + p) 5) + sharePages m.fam (m.cfgN (0x3000 + p) 7))

/-- R43's second check: runs in T2 take at most 15 MiB of each far window of the pitch. -/
def Mach.runsOk (m : Mach) (p : Nat) : Bool :=
  m.cfgN (0x3000 + p) 7 = 0 || decide ((m.extentsOf p).length ≤ 15 * (winsOf m.fam m.dict.cfg.vals p).length)

/-- The pitches that exist (CONFIGURED). -/
def Mach.pitches (m : Mach) : List Nat := ((List.range 63).map (· + 1)).filter fun p => m.cfgN (0x3000 + p) 1 = 1

/-- The pitches bound at hub `h` under the committed bindings. -/
def Mach.boundAt (m : Mach) (h : Nat) : List Nat :=
  (((List.range 16).map fun i => m.cfgN (0x5000 + h) (0x40 + i)).filter (· ≠ 0)).eraseDups

/-- The first object that R210 finds overbooked, as index and subindex, with the configuration of the steward as it stands. -/
def Mach.overbooked (m : Mach) : Option (Nat × Nat) :=
  let phi := m.phiFrac
  let c (p s : Nat) : Nat := m.cfgN (0x3000 + p) s
  let hubsBad := (List.range (hubs m.fam)).find? fun h =>
    !(m.port h).contained && decide (3600 * phi.1 < (((m.boundAt h).map fun p => c p 9).foldl (· + ·) 0) * phi.2)
  let pitchBad := m.pitches.findSome? fun p =>
    if decide (c p 0x0A < c p 9) || decide (3600 < c p 0x0A) then some (0x3000 + p, 0x0A)
    else if c p 4 < c p 3 then some (0x3000 + p, 4)
    else if c p 6 < c p 5 then some (0x3000 + p, 6)
    else none
  let regBad := m.serving.findSome? fun r =>
    if m.t0ForFloors r < m.shareSum 3 then some (0x2200 + r, 0)
    else if m.t1ForFloors r < m.shareSum 5 then some (0x2200 + r, 0)
    else none
  let farBad := m.pitches.findSome? fun p =>
    if decide (896 * (winsOf m.fam m.dict.cfg.vals p).length < c p 7) then some (0x3000 + p, 7)
    else if c p 8 ≠ c p 7 then some (0x3000 + p, 8)
    else none
  let r43Bad := m.pitches.findSome? fun p =>
    if m.serving.all (m.floorOk p) && m.runsOk p then none else some (0x3000 + p, 5)
  (((hubsBad.map fun h => (0x5000 + h, 0)).or pitchBad).or regBad).or (farBad.or r43Bad)

/-! ## Mailbox answers (R242) -/

/-- Return codes of the standard's mailbox (log entry 8).
(PRESUMED, log entry 8.) -/
def mbSuccess : Nat := 0
/-- Invalid Input -/
def mbInvalidInput : Nat := 2
/-- Unsupported -/
def mbUnsupported : Nat := 3
/-- Busy -/
def mbBusy : Nat := 6

/-- A mailbox command of function `f` completes: its answer, and the latched MBOX bit of INTSTAT. -/
def Mach.mbox (m : Mach) (f code : Nat) (payload : List Byte) : Mach :=
  ((m.portSend (f / 16) (.mbox f code payload)).onFn f fun x => { x with mbox := true }).latch (intKey f) 0x40

/-! ## Adding (R179, R180, Table 07.2) -/

/-- The refusal codes of Table 14.8. -/
def rsBadValue : Nat := 1
/-- OVERBOOKED -/
def rsOverbooked : Nat := 2
/-- IN_USE -/
def rsInUse : Nat := 3
/-- STALE_GEN -/
def rsStaleGen : Nat := 4
/-- BAD_ATTR -/
def rsBadAttr : Nat := 5
/-- BAD_EXTENT -/
def rsBadExtent : Nat := 6
/-- BAD_GRANT -/
def rsBadGrant : Nat := 7
/-- BAD_HOME -/
def rsBadHome : Nat := 8
/-- NO_FLOOR -/
def rsNoFloor : Nat := 9
/-- REFUSED_STATE -/
def rsRefusedState : Nat := 10

/-- The functions of a mask. -/
def maskFns (mask : Nat) : List Nat := (List.range 128).filter (hasBit mask)

/-- Lossy codecs are allowed for pitch `p` (R89). -/
def Mach.lossyOk (m : Mach) (p : Nat) : Bool :=
  let l := m.cfgN (0x3000 + p) 0x10
  l = 1 || (l = 2 && m.cfgN 0x2000 1 = 2)

/-- The pitch bound to a function in the committed set; 0 beyond the last function. -/
def Mach.boundPitch (m : Mach) (f : Nat) : Nat :=
  if f < functions m.fam then m.cfgN (0x5000 + f / 16) (0x40 + f % 16) else 0

/-- Check 2 of Table 07.2: the pitch exists, and every function offered, at least one, is bound to it. -/
def Mach.grantsOk (m : Mach) (p mask : Nat) : Bool :=
  m.cfgN (0x3000 + p) 1 = 1 && !(maskFns mask).isEmpty && (maskFns mask).all fun f => m.boundPitch f = p

/-- COH of a code of Table 07.1. -/
def cohOf (n : Nat) : Coh := if n = 1 then .readShared else if n = 2 then .uncached else .tracked

/-- Where the run of a new extent of pitch `p` lies when it is homed in T2: the lowest free MiB of the pitch's window areas, in
window order (R43).
(DESIGN CHOICE, log entry 33.) -/
def Mach.runPlace (m : Mach) (p : Nat) : Option (Nat × Nat) :=
  if m.cfgN (0x3000 + p) 7 = 0 then none
  else
    let used := (m.extentsOf p).filterMap fun e => e.2.run
    ((winsOf m.fam m.dict.cfg.vals p).flatMap fun w => (List.range 15).map fun i => (w, i)).find? fun x => !used.contains x

/-- The functions `fs` are offered extent `e`: an Add Capacity record each (R243), until the pitch's lease term has passed (R180). -/
def Mach.offerTo (m : Mach) (e p : Nat) (fs : List Nat) : Mach :=
  let t := m.cycle + m.leaseTerm p
  let m := m.onExtent e fun x => { x with offer := (x.offer.filter fun o => !fs.contains o.1) ++ fs.map fun f => (f, t) }
  m.each fs fun m f => m.onFn f fun x => { x with dclog := x.dclog ++ [.add e] }

/-- EXTADD of pitch `p` with its 28 bytes (R339): zero, or the reason of the first check of Table 07.2 or R210 that fails, with
nothing changed.
(DEDUCED, log entry 63.) -/
def Mach.extAdd (m : Mach) (p v : Nat) : Mach × Nat :=
  let e := bits v 31 0
  let mask := bits v 159 32
  let codec := bits v 167 160
  let efmt := bits v 175 168
  let vel := bits v 183 176
  let coh := bits v 191 184
  let home := bits v 199 192
  let confined : Bool := m.cfgN (0x3000 + p) 2 = 1
  let lossy : Bool := codec = 3 || codec = 4
  if decide (extentLimit m.fam ≤ e) || (m.extent e).st ≠ .free then (m, rsBadExtent)
  else if !m.grantsOk p mask then (m, rsBadGrant)
  else if decide (4 < codec) || decide (3 < efmt) || decide (1 < vel) || decide (2 < coh) || bits v 223 200 ≠ 0 || (vel ≠ 0 && codec ≠ 3)
      || (lossy && (!m.lossyOk p || (efmt ≠ 1 && efmt ≠ 2))) then (m, rsBadAttr)
  else if (if confined then !regionOk m.fam home || (m.region home).st = .fenced else home ≠ 0) then (m, rsBadHome)
  else
    let x : Extent := { st := .adding, coh := cohOf coh, attr := ⟨codec, efmt, vel⟩, confined := confined, run := m.runPlace p
                        home := home, pitch := p, cause := (m.extent e).cause, report := true }
    let n := m.onExtent e fun _ => x
    if !((List.range (regions m.fam)).all (n.floorOk p) && n.runsOk p) then (m, rsNoFloor)
    else if n.overbooked.isSome then (m, rsOverbooked)
    else (n.offerTo e p (maskFns mask), 0)

/-- EXTGRANT of pitch `p`: a further offer of an ACTIVE extent (R180). -/
def Mach.extGrant (m : Mach) (p v : Nat) : Mach × Nat :=
  let e := bits v 31 0
  let mask := bits v 159 32
  if (m.extent e).st = .free || (m.extent e).pitch ≠ p then (m, rsBadExtent)
  else if !m.grantsOk p mask then (m, rsBadGrant)
  else if (m.extent e).st ≠ .active then (m, rsRefusedState)
  else (m.offerTo e p ((maskFns mask).filter fun f => !m.granted f e), 0)

/-- An extent whose last offer has ended: the outcome is reported; with no acceptance the extent is FREE (R180). -/
def Mach.offerSettle (m : Mach) (e : Nat) : Mach :=
  let x := m.extent e
  if !x.offer.isEmpty then m
  else
    let m := m.when x.report fun m =>
      (m.log 0x0001 x.pitch 0 0 [(32, e), (96, x.grant.toNat)]).onExtent e fun x => { x with report := false }
    if x.st = .adding then m.onExtent e fun _ => { cause := x.cause } else m

/-- Function `f` leaves the offer of extent `e`. -/
def Mach.offerDrop (m : Mach) (e f : Nat) : Mach :=
  (m.onExtent e fun x => { x with offer := x.offer.filter fun o => o.1 ≠ f }).offerSettle e

/-- Function `f` accepts extent `e`: its GRANT bit, the state, its lease (R180, R186). -/
def Mach.accept (m : Mach) (f e : Nat) : Mach :=
  let m := m.onExtent e fun x =>
    { x with grant := x.grant ||| (1#128 <<< f), st := if x.st = .adding then .active else x.st }
  let m := m.onFn f fun x =>
    if x.lease = .none then { x with lease := .held, leaseAt := m.cycle + m.leaseTerm (m.extent e).pitch, leaseWasLow := false } else x
  m.offerDrop e f

/-- Meaning of ADD_DYNAMIC_CAPACITY_RESPONSE (R180, R243): the extents named are accepted, the other ones offered to the function are
declined; one named that has not been offered makes the response Invalid Input. -/
def execAddDynamicCapacityResponse (f : Nat) (exts : List Nat) (s : State) : Host.Outcome State Fault Refusal :=
  s.app ((Instr.addDynamicCapacityResponse f exts).wf s.m.fam) <| Mach.dataRun fun m =>
    if !m.barOpen f then m
    else
      let offered := (m.ext.exts.filter fun x => x.2.offer.any fun o => o.1 = f).map (·.1)
      if exts.all offered.contains then
        let m := m.each exts.eraseDups fun m e => m.accept f e
        (m.each (offered.filter fun e => !exts.contains e) fun m e => m.offerDrop e f).mbox f mbSuccess []
      else m.mbox f mbInvalidInput []

/-- Meaning of OFFER_TIMEOUT (R180): a function that has not answered within the lease term leaves the offer. -/
def execOfferTimeout (e f : Nat) (s : State) : Host.Outcome State Fault Refusal :=
  s.app ((Instr.offerTimeout e f).wf s.m.fam) <| Mach.dataRun fun m =>
    if (m.extent e).offer.any fun o => o.1 = f && decide (o.2 < m.cycle) then m.offerDrop e f else m

/-! ## Leases and single grants (R186, R188) -/

/-- The extents function `f` holds. -/
def Mach.heldBy (m : Mach) (f : Nat) : List Nat := (m.ext.exts.filter fun x => x.2.st ≠ .free && x.2.grant.getLsbD f).map (·.1)

/-- A function that holds no extent any more holds no lease (R186); the end of a lease is settled by LEASE_EXPIRED. -/
def Mach.leaseSettle (m : Mach) (f : Nat) : Mach :=
  if (m.fn f).lease = .held && (m.heldBy f).isEmpty then m.onFn f fun x => { x with lease := .none } else m

/-- A line is written as poison by its region (R188, R196). -/
def Mach.poisonLine (m : Mach) (f line : Nat) : Mach :=
  let q : Req := { id := m.nextId, fn := f, tag := {}, kind := .wr false 0 (BitVec.allOnes 64) true, dpa := line * 64,
                   at_ := m.cycle, internal := true, wb := true }
  m.renumber.serve none q

/-- One directory entry is settled without a recall for function `f` (R188): its SHARERS bit is lost; owned by `f` it is forced out
and the line becomes poison. -/
def Mach.settleEntry (m : Mach) (f r s w : Nat) : Mach :=
  let e := m.dirAt r s w
  let owned : Bool := e.st = .owned && e.owner = f
  let m := (m.dirPut r s w (e.remove f)).unsnoop r f e.line
  let m := m.when owned fun m =>
    let x := extOf (e.line / 64)
    let m := m.onFn f fun y => { y with endPoisoned := y.endPoisoned + 1 }
    let m := m.when ((m.extent x).st = .releasing) fun m =>
      m.onExtent x fun y => { y with forced := y.forced + 1, poisoned := y.poisoned + 1 }
    m.poisonLine f e.line
  if m.snooping r e.line then m else m.pump none r fun v => v.why = .line || v.why = .way

/-- The entries of extent `e` that name function `f`, in every region. -/
def Mach.settleEntries (m : Mach) (f e : Nat) (p : Nat → Bool) : Mach :=
  m.each (m.ext.dir.filter fun x => p (x.1 / 32768) && extOf (x.2.line / 64) = e && (x.2.holders m.fam).contains f) fun m x =>
    m.settleEntry f (x.1 / 32768) (x.1 % 32768 / 16) (x.1 % 16)

/-- Function `f`'s GRANT bit of an extent that others hold is cleared (R182, R188): a record in its event log, its entries settled. -/
def Mach.ungrant (m : Mach) (f e : Nat) : Mach :=
  let m := m.onExtent e fun x => { x with grant := x.grant &&& ~~~(1#128 <<< f) }
  let m := m.onFn f fun x => { x with dclog := x.dclog ++ [.forced e] }
  let m := m.when ((m.extent e).coh = .tracked) fun m => m.settleEntries f e fun _ => true
  m.flushIngress

/-! ## Release (R182 to R184) -/

/-- The buffers of a Tally descriptor: address and bytes (chapter 05's operand tables). -/
def Mach.dtorBufs (m : Mach) (x : Dtor) : List (Nat × Nat) :=
  let d := (layoutOf x.lay).d
  match x.opcode with
  | 0x20 => (if x.maskKind = 3 then [(x.op 2, x.bitmapLen (layoutOf x.lay))] else []) ++
      [(x.op 0, 2 * d * x.nq), (x.op 1, x.nq * recBytes x.final d)]
  | 0x22 => (if x.maskKind = 3 then [(x.op 2, x.bitmapLen (layoutOf x.lay))] else []) ++
      [(x.op 0, 2 * d * x.nq), (x.op 1, x.ocap * x.entryBytes)]
  | 0x21 => (x.op 0, 8 * x.mergeSrc) :: (x.op 1, x.mergeNq * recBytes x.mergeFinal x.mergeD) ::
      ((m.sources x x.mergeSrc).getD []).map fun a => (a, x.mergeNq * recBytes false x.mergeD)
  | 0x23 => (x.op 0, 8 * x.redSrc) :: (x.op 1, x.redLen) :: ((m.sources x x.redSrc).getD []).map fun a => (a, x.redLen)
  | 0x24 => [(x.op 0, x.cmpLen), (x.op 1, x.cmpLen)]
  | 0x26 => [(x.op 0, 4096 * x.opf 2 24 0), (x.op 1, 4096 * x.opf 2 24 0)]
  | _ => []

/-- A descriptor that has started touches extent `e`: through the session it names, or through a buffer (R184). -/
def Mach.touches (m : Mach) (x : Dtor) (e : Nat) : Bool :=
  let inSess (s : Session) : Bool := overlap s.wbase s.npages (e * extentPages) extentPages ||
    overlap s.mbase (mapPages s.npages) (e * extentPages) extentPages
  (x.namesSess && (match m.byHandle x.handle with | some (_, s) => inSess s | none => false))
  || (m.sess.sess.any fun s => s.2.busy = some x.id && inSess s.2)
  || ((m.dtorBufs x).any fun b => (m.bufPages x b.1 b.2).any fun pn => extOf pn = e)
  || (x.opcode = 0x25 && x.outs.any fun o => extOf o.2 = e)

/-- A view in extent `e` closes with its release: one that reaches beyond the extent has its own range retired with it, and waits
while the part holds 4,096 retirements (R199); one inside is part of the extent's retirement (R184). -/
def Mach.closeIn (m : Mach) (e vk : Nat) : Mach :=
  let v := m.view vk
  let inside : Bool := decide (e * extentPages ≤ v.base) && decide (v.base + v.pages ≤ (e + 1) * extentPages)
  if inside then m.closeView vk none
  else if m.ticketsFull then m
  else (m.closeView vk none).retire v.base v.pages v.pitch

/-- The open views with pages in extent `e`. -/
def Mach.viewsIn (m : Mach) (e : Nat) : List Nat :=
  (m.sess.views.filter fun v => v.2.live && overlap v.2.base v.2.pages (e * extentPages) extentPages).map (·.1)

/-- They close as far as they can. -/
def Mach.closeViews (m : Mach) (e : Nat) : Mach := m.each (m.viewsIn e) fun m v => m.closeIn e v

/-- The release of extent `e` begins with a cause (R182 to R184): RELEASING in every hub's copy, offers dropped, records in the
holders' logs, started work ended with ABORTED, views closed, requests without a token completed as new ones. -/
def Mach.releaseExtent (m : Mach) (e cause : Nat) (endedBy : Option Nat) : Mach :=
  let x := m.extent e
  if x.st ≠ .active && x.st ≠ .adding then m
  else
    let m := (m.onExtent e fun x => { x with offer := [] }).offerSettle e
    if x.st = .adding then m
    else
      let rs := (List.range (regions m.fam)).filter fun r => extentPagesIn m.fam x r ≠ 0 && (m.region r).st = .serving
      let m := m.onExtent e fun x => { x with st := .releasing, cause := cause, recalling := rs, started := [], ticket := none
                                              endedBy := endedBy, forced := 0, poisoned := 0 }
      let m := m.each (maskFns x.grant.toNat) fun m f => m.onFn f fun y => { y with dclog := y.dclog ++ [.forced e] }
      let ds := (m.svc.dtors.filter fun d => (d.stage = .running || d.stage = .writing) && m.touches d e).map (·.id)
      let m := m.each ds fun m d => m.endEarly d stAborted
      (m.closeViews e).flushIngress

/-- EXTREL of pitch `p` (R182): an extent already RELEASING is left; one still ADDING refuses the command. -/
def Mach.extRel (m : Mach) (p e : Nat) : Mach × Nat :=
  if (m.extent e).st = .free || (m.extent e).pitch ≠ p then (m, rsBadExtent)
  else if (m.extent e).st = .adding then (m, rsRefusedState)
  else (m.releaseExtent e 1 none, 0)

/-- Meaning of RELEASE_DYNAMIC_CAPACITY (R182, R243): the host gives an extent back: the sole holder's extent is released with
CAUSE 2; otherwise its GRANT bit is cleared.
(DEDUCED, log entry 63.) -/
def execReleaseDynamicCapacity (f e : Nat) (s : State) : Host.Outcome State Fault Refusal :=
  s.app ((Instr.releaseDynamicCapacity f e).wf s.m.fam) <| Mach.dataRun fun m =>
    if !m.barOpen f then m
    else if !m.granted f e || ((m.extent e).st ≠ .active && (m.extent e).st ≠ .releasing) then m.mbox f mbInvalidInput []
    else if (m.extent e).st = .releasing then m.mbox f mbSuccess []
    else if (m.extent e).grant = 1#128 <<< f then (m.releaseExtent e 2 none).mbox f mbSuccess []
    else ((m.ungrant f e).leaseSettle f).mbox f mbSuccess []

/-- Region `r` holds an accepted request to extent `e`. -/
def Mach.extentWaits (m : Mach) (r e : Nat) : Bool := m.mem.waits.any fun w => w.region = r && extOf w.req.page = e

/-- Lines of extent `e`. -/
def lineOfExt (e line : Nat) : Bool := extOf (line / 64) = e

/-- Meaning of RELEASE_RECALL_START (R183 step 3): region `r` holds no accepted request to the extent and recalls its lines: by entry
under TRACKED; a READ-SHARED extent is retired as one range; UNCACHED needs nothing. The entries of the function whose lease's end
released it are settled without a recall (R188). -/
def execReleaseRecallStart (r e : Nat) (s : State) : Host.Outcome State Fault Refusal :=
  s.app ((Instr.releaseRecallStart r e).wf s.m.fam) <| Mach.dataRun fun m =>
    let x := m.extent e
    let m := m.when (x.st = .releasing) fun m => m.closeViews e
    if x.st ≠ .releasing || !x.recalling.contains r || x.started.contains r || m.extentWaits r e then m
    else
      let begun (m : Mach) : Mach := m.onExtent e fun y => { y with started := y.started ++ [r] }
      match x.coh with
      | .tracked =>
        let m := match x.endedBy with
          | some f => (begun m).settleEntries f e fun q => q = r
          | none => begun m
        m.recallLines r (lineOfExt e)
      | .readShared =>
        if x.ticket.isSome then begun m
        else if m.ticketsFull then m
        else
          let m := (begun m).retire (e * extentPages) extentPages x.pitch
          m.onExtent e fun y => { y with ticket := some m.ext.lastTicket }
      | .uncached => begun m

/-- Step 3 of R183 has ended: every region of the extent has recalled, no line is held, its retirement and those of its views are
discharged. -/
def Mach.recalled (m : Mach) (e : Nat) : Bool :=
  let x := m.extent e
  x.recalling.all (fun r => x.started.contains r && !m.extentWaits r e && !m.dirHolds r (lineOfExt e))
  && !(m.ext.tickets.any fun t => t.region.isNone && overlap t.base t.pages (e * extentPages) extentPages)
  && (m.viewsIn e).isEmpty

/-- A session at step 4 of its extent's release (R184): what it was doing ends, it is detached or destroyed. -/
def Mach.releaseSess (m : Mach) (k : Nat) : Mach :=
  let s := m.session k
  let m := match s.busy with | some d => m.opDone d stBadHandle 0 | none => m
  let m := if s.st = .parked && s.mvalid then m.detachSess k none (m.parkedClaims s) else m.destroySess k
  (m.dropWaiters k).pumpAll .session

/-- The descriptor run of extent `e` in region `r` is free: its pages leave T1 and the caches (R33, R182). -/
def Mach.freeRun (m : Mach) (r e : Nat) : Mach :=
  let pgs := ((m.region r).dplace.filter fun x => x.1 < 2 ^ 40 && x.1 / 256 = e).map (·.1)
  let m := m.each (m.mem.jobs.filter fun j => match j.cref with | .desc q pg => q = r && pg / 256 = e | _ => false) fun m j => m.killJob j
  let m := m.each pgs fun m pg => m.unplacePage r pg
  m.onRegion r fun g =>
    { g with pmc := g.pmc.filter fun l => !(l.id < 2 ^ 46 && l.id / 16384 = e), dcache := g.dcache.filter fun l => l.id / 256 ≠ e
             dfar := g.dfar.filter fun x => x.1 / 256 ≠ e }

/-- Steps 4 and 5 of R183. -/
def Mach.clearExtent (m : Mach) (e : Nat) : Mach :=
  let x := m.extent e
  let inSess (s : Session) : Bool := overlap s.wbase s.npages (e * extentPages) extentPages ||
    overlap s.mbase (mapPages s.npages) (e * extentPages) extentPages
  let ks := (m.sess.sess.filter fun s => s.2.st ≠ .free && s.2.st ≠ .destroying && inSess s.2).map (·.1)
  let m := m.each ks fun m k => m.releaseSess k
  let m := m.clearPages (e * extentPages) extentPages
  let m := m.each (List.range (regions m.fam)) fun m r =>
    m.when ((m.region r).lostCharge.any fun c => c.1 = e) fun m =>
      m.onRegion r fun g => { g with lostCharge := g.lostCharge.filter fun c => c.1 ≠ e }
  let m := m.each (List.range (regions m.fam)) fun m r => m.freeRun r e
  let m := m.onExtent e fun _ => { cause := x.cause }
  let m := m.log 0x0002 x.pitch 0 0 [(32, e), (8, x.cause), (32, x.forced), (32, x.poisoned)]
  m.each (maskFns x.grant.toNat) fun m f => m.leaseSettle f

/-- Meaning of RELEASE_CLEAR (R183 steps 4 and 5, R184, R185). -/
def execReleaseClear (e : Nat) (s : State) : Host.Outcome State Fault Refusal :=
  s.app ((Instr.releaseClear e).wf s.m.fam) <| Mach.dataRun fun m =>
    if (m.extent e).st = .releasing && m.recalled e then m.clearExtent e else m

end Sys2Proof.Machine
end

