-- ==== Sys2Proof/Machine/Leases.lean ====
section
/-! DEFINITION. Leases (R186 to R188, R196, R200, R377): renewal, low and expired leases, the timeouts that end one. -/

namespace Sys2Proof.Machine

/-! ## Renewal (R187) -/

/-- The lease has not expired: its expiry is not passed, or is deferred by a failover (R187, R377). -/
def Mach.leaseLive (m : Mach) (f : Nat) : Bool :=
  let x := m.fn f
  x.lease = .held && (decide (m.cycle ≤ x.leaseAt) || x.leaseDefer.isSome || m.sys.steward.isNone)

/-- A renewal: the expiry is one lease term from now (R187). -/
def Mach.renewLease (m : Mach) (f : Nat) : Mach :=
  if m.leaseLive f then
    m.onFn f fun x => { x with leaseAt := m.cycle + m.leaseTerm (m.pitchOf f), leaseDefer := none, leaseWasLow := false }
  else m

/-- Meaning of RENEW (R187): LEASECTL written with RENEW. -/
def execRenew (f : Nat) (v : BitVec 64) (s : State) : Host.Outcome State Fault Refusal :=
  s.app ((Instr.renew f v).wf s.m.fam) <| Mach.dataRun fun m => if m.barOpen f && v.getLsbD 0 then m.renewLease f else m

/-! ## LEASESTAT (Table 07.4) -/

/-- STATE of LEASESTAT. -/
def LeaseState.code : LeaseState → Nat
  | .none => 0 | .held => 1 | .ending => 2

/-- LEASESTAT of function `f`: the state, and while HELD the time to expiry in µs. -/
def Mach.leaseStat (m : Mach) (f : Nat) : Nat :=
  let x := m.fn f
  x.lease.code * 2 ^ 62 + (if x.lease = .held then min (2 ^ 32 - 1) ((x.leaseAt - m.cycle) / 2000) else 0)

/-- LEASETERM of function `f`, in ms. -/
def Mach.leaseTermReg (m : Mach) (f : Nat) : Nat := if m.pitchOf f = 0 then 0 else m.cfgN (0x3000 + m.pitchOf f) 0x13

/-- Meaning of LEASE_LOW (R247): the time to expiry has fallen below a quarter of the term; once for each renewal. -/
def execLeaseLow (f : Nat) (s : State) : Host.Outcome State Fault Refusal :=
  s.app ((Instr.leaseLow f).wf s.m.fam) <| Mach.dataRun fun m =>
    let x := m.fn f
    if x.lease = .held && !x.leaseWasLow && decide (4 * (x.leaseAt - m.cycle) < m.leaseTerm (m.pitchOf f)) then
      (m.onFn f fun x => { x with leaseWasLow := true, leaseBit := true }).latch (intKey f) 0x10
    else m

/-! ## The end of a lease (R188) -/

/-- Every queue of function `f` enters DELETING (R161, R188). -/
def Mach.deleteQueues (m : Mach) (f : Nat) : Mach :=
  m.each ((List.range 64).filter fun q => (m.queue f q).st ≠ .free) fun m q =>
    let m := m.onQueue f q fun x => { x with st := .deleting }
    (m.abortQueue f q).queueSettle f q

/-- What function `f`'s lease end does to one extent it holds (R188 step 3). -/
def Mach.leaveExtent (m : Mach) (f e : Nat) : Mach :=
  let x := m.extent e
  match x.st with
  | .active =>
    if x.grant = 1#128 <<< f then (m.onFn f fun y => { y with endReleased := y.endReleased + 1 }).releaseExtent e 3 (some f)
    else (m.onFn f fun y => { y with endLeft := y.endLeft + 1 }).ungrant f e
  | .releasing =>
    let m := m.onExtent e fun y => { y with endedBy := y.endedBy.orElse fun _ => some f }
    if x.coh = .tracked then m.settleEntries f e fun _ => true else m
  | _ => m

/-- The lease of function `f` ends: ENDING, its requests stray, its offers ended, its queues deleted, its extents given up, its
retirements discharged. -/
def Mach.leaseEnd (m : Mach) (f : Nat) : Mach :=
  if (m.fn f).lease ≠ .held then m
  else
    let m := m.onFn f fun x => { x with lease := .ending, leaseDefer := none, endReleased := 0, endLeft := 0, endPoisoned := 0 }
    let m := m.deleteQueues f
    let m := m.each ((m.ext.exts.filter fun x => x.2.offer.any fun o => o.1 = f).map (·.1)) fun m e => m.offerDrop e f
    let m := m.each (m.heldBy f) fun m e => m.leaveExtent f e
    (m.discharge f fun _ => true).flushIngress

/-- Meaning of LEASE_EXPIRE (R188, R377): function `f`'s lease has passed its expiry while a steward holds the role. -/
def execLeaseExpire (f : Nat) (s : State) : Host.Outcome State Fault Refusal :=
  s.app ((Instr.leaseExpire f).wf s.m.fam) <| Mach.dataRun fun m =>
    if m.sys.steward.isSome && (m.fn f).lease = .held && !m.leaseLive f then m.leaseEnd f else m

/-- Meaning of LEASE_DEFERRED_EXPIRE (R377): a lease that fell due in a failover and has not been renewed since expires 50 ms after
the new steward took the role. -/
def execLeaseDeferredExpire (f : Nat) (s : State) : Host.Outcome State Fault Refusal :=
  s.app ((Instr.leaseDeferredExpire f).wf s.m.fam) <| Mach.dataRun fun m =>
    match (m.fn f).leaseDefer with
    | some t => if m.sys.steward.isSome && decide (t < m.cycle) then m.leaseEnd f else m
    | none => m

/-- Meaning of LEASE_EXPIRED (R188 step 4): every extent has left the function. One that it accepted meanwhile begins its next
lease. -/
def execLeaseExpired (f : Nat) (s : State) : Host.Outcome State Fault Refusal :=
  s.app ((Instr.leaseExpired f).wf s.m.fam) <| Mach.dataRun fun m =>
    let x := m.fn f
    if x.lease ≠ .ending || (m.ext.exts.any fun e => e.2.st = .releasing && e.2.grant.getLsbD f) then m
    else
      let held := m.heldBy f
      let m := m.onFn f fun y =>
        if held.isEmpty then { y with lease := .none }
        else { y with lease := .held, leaseAt := m.cycle + m.leaseTerm (m.pitchOf f), leaseWasLow := false }
      m.log 0x0003 (m.pitchOf f) 4 f [(8, f), (32, x.endReleased), (32, x.endLeft), (32, x.endPoisoned)]

/-! ## Timeouts (R196, R200) -/

/-- Meaning of RECALL_TIMEOUT (R196): holder `f` has not answered within its pitch's lease term: it is forced out of the entry, an
owned line becomes poison, and its lease ends.
(DEDUCED, log entry 64.) -/
def execRecallTimeout (r line f : Nat) (s : State) : Host.Outcome State Fault Refusal :=
  s.app ((Instr.recallTimeout r line f).wf s.m.fam) <| Mach.dataRun fun m =>
    match m.ext.snoops.find? fun x => x.region = r && x.line = line && x.fn = f with
    | none => m
    | some sn =>
      if m.cycle ≤ sn.at_ + m.leaseTerm (m.pitchOf f) then m
      else
        let e := extOf (line / 64)
        let m :=
          match m.dirWay r line with
          | some w =>
            let d := m.dirAt r (dirSet line) w
            let owned : Bool := d.st = DirState.owned && d.owner = f
            let m := m.when (!owned && (m.extent e).st = ExtState.releasing) fun m => m.onExtent e fun y => { y with forced := y.forced + 1 }
            m.settleEntry f r (dirSet line) w
          | none => m.unsnoop r f line
        (m.log 0x0005 (m.pitchOf f) 4 f [(8, f), (64, line)]).leaseEnd f

/-- Meaning of BLOCK_SNOOP_TIMEOUT (R200): function `f` has left a block snoop of a retirement unanswered for the lease term: its
lease ends and it owes the retirement no more. -/
def execBlockSnoopTimeout (ticket f : Nat) (s : State) : Host.Outcome State Fault Refusal :=
  s.app ((Instr.blockSnoopTimeout ticket f).wf s.m.fam) <| Mach.dataRun fun m =>
    match m.ticketAt ticket with
    | none => m
    | some t =>
      let term := m.leaseTerm (if t.region.isSome then m.pitchOf f else t.pitch)
      match (t.sweeps.filter fun x => x.fn = f).findSome? fun x => x.sent.find? fun y => decide (y.2 + term < m.cycle) with
      | none => m
      | some (line, _) =>
        let m := m.log 0x0005 (m.pitchOf f) 4 f [(8, f), (64, line)]
        ((m.leaseEnd f).discharge f fun x => x.num = ticket).sendBlocks (f / 16) 64

end Sys2Proof.Machine
end

