-- ==== Sys2Proof/Machine/Complete.lean ====
section
/-! DEFINITION. Completions of device-initiated requests (R249 to R251, R255): data, errors, deadlines, quarantine. -/

namespace Sys2Proof.Machine

/-! ## Reads -/

/-- The words of a read by number, none where missing. -/
def RTag.word (t : RTag) (i : Nat) : Option RWord := tfind t.words i

/-- The data of a descriptor's input read reach the descriptor (R129, R171): missing words stay missing. Its next reads go out. -/
def Mach.giveInput (m : Mach) (t : RTag) (d i w : Nat) : Mach :=
  let m := m.onDtor d fun x => { x with inp := x.inp.modify i fun b =>
    { b with out := b.out - 1, words := t.words.foldl (fun ws e => tins ws (w + e.1) e.2) b.words } }
  m.issueInputs d 64

/-- A sector of a far frame reaches the region that reads it (R286): a missing word is flagged. -/
def Mach.giveSector (m : Mach) (t : RTag) (j s : Nat) : Mach :=
  let short : Bool := decide (t.words.length < t.n)
  let m := m.onJob j fun y =>
    { y with left := y.left - 1, missing := y.missing || short
             words := (List.range 16).foldl (fun ws i =>
               match t.word i with | some x => tins ws (16 * s + i) (ofPort x) | none => ws) y.words
             flagged := y.flagged ++ ((List.range 16).filter fun i =>
               match t.word i with | some x => x.poison | none => true).map fun i => 16 * s + i }
  (m.issueSectors j).frameIn j

/-- A read has ended: what came goes to the one who asked. -/
def Mach.readEnd (m : Mach) (t : RTag) : Mach :=
  match t.owner with
  | .fetch f q => m.fetched f q ((List.range t.n).map fun i => (t.word i).getD ⟨0, true⟩)
  | .input d i w => m.giveInput t d i w
  | .sector j s => m.giveSector t j s
  | .gone => m

/-- The deadline of a read: what is missing is poison, the tag is in quarantine (R250).
(DEDUCED, log entry 61.) -/
def Mach.readLate (m : Mach) (t : RTag) : Mach := (m.onTag t.port t.tag fun x => { x with quar := true }).readEnd t

/-- A completion finds the deadline of its read passed: the timeout comes first (R250). -/
def Mach.pastDeadline (m : Mach) (k tag : Nat) : Mach :=
  match m.tagAt k tag with
  | some t => if !t.quar && decide (t.deadline < m.cycle) then m.readLate t else m
  | none => m

/-- A tag freed: reads that waited for one are issued. -/
def Mach.tagBack (m : Mach) (k t : Nat) : Mach :=
  let m := m.freeTag k t
  let m := m.each ((m.mem.jobs.filter fun j => !j.todo.isEmpty).map (·.id)) fun m j => (m.issueSectors j)
  m.each ((m.svc.dtors.filter fun x => x.fn / 16 = k && x.inp.any fun i => !i.todo.isEmpty).map (·.id)) fun m d => m.issueInputs d 64

/-- A completion that belongs to no read or write of the port: counted, one event per port and millisecond (R250). -/
def Mach.strayCpl (m : Mach) (k tag : Nat) : Mach :=
  let m := (m.count (0x8200 + k) 6 1).aer k 0
  if (m.port k).unexpAt = some m.msec then m
  else (m.log 0x040B 0 3 k [(8, k), (16, tag)]).onPort k fun p => { p with unexpAt := some m.msec }

/-- Words `off`, `off + 1`, … of a read laid into those that came. -/
def layWords (t : Tab RWord) (n off : Nat) (ws : List RWord) : Tab RWord :=
  ws.zipIdx.foldl (fun t x => if off + x.2 < n then tins t (off + x.2) x.1 else t) t

/-- Meaning of READ_COMPLETION (R250): data in time, data for a quarantined tag, an error status, or a stray completion.
(DEDUCED, log entry 61.) (DESIGN CHOICE, log entry 75.) -/
def execReadCompletion (k tag : Nat) (st : CplStatus) (off : Nat) (words : List RWord) (s : State) :
    Host.Outcome State Fault Refusal :=
  s.app ((Instr.readCompletion k tag st off words).wf s.m.fam) <| Mach.dataRun fun m =>
    if !m.memOpen k then m
    else
      let m := m.pastDeadline k tag
      match m.tagAt k tag with
      | none => m.strayCpl k tag
      | some t =>
        let t' := { t with words := layWords t.words t.n off words }
        if t.quar then
          let m := (m.count (0x8200 + k) 3 1).onTag k tag fun _ => t'
          if st ≠ .success || t.n ≤ t'.words.length then m.tagBack k tag else m
        else
          match st with
          | .success =>
            if t.n ≤ t'.words.length then (m.freeTag k tag).readEnd t' |>.tagBack k tag else m.onTag k tag fun _ => t'
          | _ => (m.freeTag k tag).readEnd t |>.tagBack k tag

/-- Meaning of COMPLETION_TIMEOUT (R250): the deadline of a read has passed. -/
def execCompletionTimeout (k tag : Nat) (s : State) : Host.Outcome State Fault Refusal :=
  s.app ((Instr.completionTimeout k tag).wf s.m.fam) <| Mach.dataRun fun m =>
    match m.tagAt k tag with
    | some t => if t.quar || m.cycle ≤ t.deadline then m else (m.aer k 1).readLate t
    | none => m

/-- Meaning of TAG_QUARANTINE_END (R250): twice CPLTO has passed since the read was issued. -/
def execTagQuarantineEnd (k tag : Nat) (s : State) : Host.Outcome State Fault Refusal :=
  s.app ((Instr.tagQuarantineEnd k tag).wf s.m.fam) <| Mach.dataRun fun m =>
    match m.tagAt k tag with
    | some t => if t.quar && decide (t.issue + 2 * t.cplto ≤ m.cycle) && m.normal k then m.tagBack k tag else m
    | none => m

/-! ## Writes -/

/-- A write has ended, well or not: its owner's rule (R251). -/
def Mach.writeEnd (m : Mach) (k : Nat) (o : WrOwner) (ok : Bool) : Mach :=
  match o with
  | .cqe f q inc _ => if (m.queue f q).inc = inc then (m.when (!ok) fun m => m.errorIfActive f q 2).queueSettle f q else m
  | .data _ _ _ d i => (m.when (!ok) fun m => m.count (0x8200 + k) 4 1).dataAck d i ok
  | .descPage => m
  | .frame r v =>
    if ok then m.moveAck r v
    else match m.moveAt r v with | some x => m.abandon r x | none => m
  | .manifest d => m.manifestAck d ok

/-- A write leaves the port's table, and those that wait are issued. -/
def Mach.writeGone (m : Mach) (k id : Nat) : Mach :=
  m.onSvc fun s => { s with wrs := s.wrs.filter fun w => !(w.port = k && w.id = id) }

/-- Write `id` of port `k`. -/
def Mach.writeAt (m : Mach) (k id : Nat) : Option WTrk := m.svc.wrs.find? fun w => w.port = k && w.id = id

/-- Meaning of WRITE_COMPLETION (R251): a write is acknowledged, or fails; one that comes after its deadline is late. -/
def execWriteCompletion (k id : Nat) (st : CplStatus) (s : State) : Host.Outcome State Fault Refusal :=
  s.app ((Instr.writeCompletion k id st).wf s.m.fam) <| Mach.dataRun fun m =>
    if !m.memOpen k then m
    else
      match m.writeAt k id with
      | none => m.count (0x8200 + k) 3 1
      | some w =>
        if w.deadline < m.cycle then ((m.writeGone k id).writeEnd k w.owner false).drainWrites.count (0x8200 + k) 3 1
        else ((m.writeGone k id).writeEnd k w.owner (st = .success)).drainWrites

/-- Meaning of WRITE_TIMEOUT (R251): the deadline of a write has passed. -/
def execWriteTimeout (k id : Nat) (s : State) : Host.Outcome State Fault Refusal :=
  s.app ((Instr.writeTimeout k id).wf s.m.fam) <| Mach.dataRun fun m =>
    match m.writeAt k id with
    | some w => if m.cycle ≤ w.deadline then m else (((m.aer k 1).writeGone k id).writeEnd k w.owner false).drainWrites
    | none => m

end Sys2Proof.Machine
end

