-- ==== Sys2Proof/Machine/Ports.lean ====
section
/-! DEFINITION. Ports (chapter 09, R253, R258 to R260): light, training, flits, containment and release, latency tolerance. -/

namespace Sys2Proof.Machine

/-! ## Latency tolerance (R253) -/

/-- LTR Mechanism Enable is 1 in some function of the port. -/
def Mach.ltrOn (m : Mach) (k : Nat) : Bool := (List.range 16).any fun i => (m.fn (16 * k + i)).ltrEnable

/-- T: the smallest non-zero load or store target among the pitches bound to the port's functions. -/
def Mach.ltrTarget (m : Mach) (k : Nat) : Option Nat :=
  let ps := ((List.range 16).map fun i => m.pitchOf (16 * k + i)).filter (· ≠ 0)
  ((ps.flatMap fun p => [m.hubN k (0x3000 + p) 0x0D, m.hubN k (0x3000 + p) 0x0E]).filter (· ≠ 0)).foldl (fun (b : Option Nat) t =>
    match b with | none => some t | some u => some (min u t)) none

/-- The 16-bit latency field of a target: requirement bit, scale, value; zero without a target. -/
def ltrField : Option Nat → BitVec 16
  | none => 0
  | some t =>
    let s := ((List.range 6).find? fun s => decide (t / 32 ^ s ≤ 1023)).getD 5
    BitVec.ofNat 16 (2 ^ 15 + s * 2 ^ 10 + t / 32 ^ s)

/-- The port sends its LTR message, if any function enables it. -/
def Mach.sendLtr (m : Mach) (k : Nat) : Mach :=
  if m.ltrOn k then
    let v := ltrField (m.ltrTarget k)
    (m.send (.ltr k v)).onPort k fun p => { p with ltrSent := v, ltrDue := false }
  else m

/-- Meaning of LTR_SEND (R253): an LTR message is due after an entry to L0 or a commit that changed the target. -/
def execLtrSend (k : Nat) (s : State) : Host.Outcome State Fault Refusal :=
  s.app ((Instr.ltrSend k).wf s.m.fam) <| Mach.dataRun fun m => if m.linkUp k && (m.port k).ltrDue then m.sendLtr k else m

/-! ## Containment (R258, Table 10.12) -/

/-- Functions of a port. -/
def portFns (k : Nat) : List Nat := (List.range 16).map (16 * k + ·)

/-- Reads and writes of a port end as if their deadlines had passed; those not yet issued fail too.
(DEDUCED, log entry 41.) -/
def Mach.dropRequests (m : Mach) (k : Nat) : Mach :=
  let m := m.each (m.svc.tags.filter fun t => t.port = k && !t.quar) fun m t => m.readLate t
  let ws := m.svc.wrs.filter fun w => w.port = k
  let m := m.onSvc fun s => { s with wrs := s.wrs.filter fun w => w.port ≠ k }
  let m := m.each ws fun m w => m.writeEnd k w.owner false
  let q := m.svc.wrWait.filter fun w => w.port = k
  let m := m.onSvc fun s => { s with wrWait := s.wrWait.filter fun w => w.port ≠ k }
  m.each q fun m w => m.writeEnd k w.owner false

/-- A port enters containment with a cause; a port that is contained stays as it is.
(DEDUCED, log entry 41.) -/
def Mach.contain (m : Mach) (k cause : Nat) : Mach :=
  if (m.port k).contained then m
  else
    let m := m.onPort k fun p => { p with contained := true, ccause := cause, startup := false, ingress := []
                                          heldSnoops := p.heldSnoops.filter Out.isSnoop }
    let m := m.each (portFns k) fun m f => m.each (List.range 64) fun m q =>
      let st := (m.queue f q).st
      if st = .active || st = .draining || st = .drained then m.queueError f q 5 else m
    m.dropRequests k

/-- A held snoop that is still awaited and whose timeout has not passed (R259). -/
def Mach.snoopDue (m : Mach) : Out → Bool
  | .snoop f _ line => m.ext.snoops.any fun s => s.fn = f && s.line = line && decide (m.cycle ≤ s.at_ + m.leaseTerm (m.pitchOf f))
  | .snoopBlk f line => m.ext.tickets.any fun t => t.sweeps.any fun s => s.fn = f && s.sent.any fun x =>
      x.1 = line && decide (m.cycle ≤ x.2 + m.leaseTerm (if t.region.isSome then m.pitchOf f else t.pitch))
  | _ => true

/-- What a port holds goes out in order, once its link is in L0 and the streams it needs are there. -/
def Mach.flushHeld (m : Mach) (k : Nat) : Mach :=
  let p := m.port k
  if p.contained || p.lt ≠ .l0 then m
  else
    let go := p.heldSnoops.filter fun o => !o.needsIde || m.ideOpen k
    (m.onPort k fun p => { p with heldSnoops := p.heldSnoops.filter fun o => o.needsIde && !m.ideOpen k }).sendAll go

/-- A port leaves containment (R259). -/
def Mach.uncontain (m : Mach) (k : Nat) : Mach :=
  let m := m.onSvc fun s => { s with tags := s.tags.filter fun t => !(t.port = k && t.quar), wrs := s.wrs.filter fun w => w.port ≠ k }
  let m := m.onPort k fun p => { p with contained := false, startup := false, heldSnoops := p.heldSnoops.filter m.snoopDue }
  let m := m.flushHeld k
  let m := m.each (portFns k) fun m f =>
    (m.when (m.intLevel f) fun m => m.send (.intx f true)).onFn f fun x => { x with intsent := m.intLevel f }
  (m.sendLtr k).drainWrites

/-- RELEASE is admitted: CONTAINED, READY, no loss of light, no laser loss, and the hub has not failed (R259, R378). -/
def Mach.canRelease (m : Mach) (k : Nat) : Bool :=
  let p := m.port k
  p.contained && p.ready && p.rxlos = 0 && p.laslos = 0

/-- Meaning of STARTUP_CONTAINMENT_EXIT (R373): a port in start-up containment leaves it once memory-active has been reached and READY is
1. -/
def execStartupContainmentExit (k : Nat) (s : State) : Host.Outcome State Fault Refusal :=
  s.app ((Instr.startupContainmentExit k).wf s.m.fam) <| Mach.dataRun fun m =>
    let p := m.port k
    if p.contained && p.startup && p.ready && !(m.hub k).failed && !m.sys.bootDark then m.uncontain k else m

/-! ## Light (R224, R225) -/

/-- A list of readings of length `n` with those of the set bits at a new value. -/
def setReadings (n : Nat) (l : List Int) (mask : Nat) (v : Int) : List Int :=
  (List.range n).map fun i => if hasBit mask i then v else (l[i]?).getD 0

/-- The link is out: no lane trains and nothing is negotiated. -/
def Port.lose (p : Port) (st : LtState) : Port :=
  { p with lt := st, ready := false, rate := 0, width := 0, flit := false, replays := 0 }

/-- The 2 µs of the loss filters have run (R224, R225): in the very cycle of their end the loss is declared (R309). -/
def filtered (held : Nat) : Bool := decide (us 2 ≤ held)

/-- OPTEVT bit `b` is set (Table 09.4). -/
def Mach.optevt (m : Mach) (k b : Nat) : Mach :=
  (m.onPort k fun p => { p with optevt := p.optevt ||| BitVec.ofNat 4 (2 ^ b) }).latch (okey (0x5000 + k) 0x24) (2 ^ b)

/-- A link with light on every lane leaves DETECT and trains, where no retraining is waited for (R227). -/
def Port.settle (p : Port) : Port :=
  if p.lt = .detect && p.training && !p.down && p.rxlos = 0 && p.retrainAt.isNone then { p with lt := .polling } else p

/-- Meaning of LOSS_OF_LIGHT (R224, Table 09.6): lanes whose power has been below -16 dBm for 2 µs are in loss of light. -/
def execLossOfLight (k : Nat) (lanes : BitVec 16) (x : Reading) (s : State) : Host.Outcome State Fault Refusal :=
  s.app ((Instr.lossOfLight k lanes x).wf s.m.fam) <| Mach.aliveRun fun m =>
    let m := m.onPort k fun p => { p with rxIn := setReadings 16 p.rxIn lanes.toNat x.dbm }
    let p := m.port k
    if lanes &&& ~~~p.rxlos = 0 || !filtered x.held || decide (-1600 ≤ x.dbm) then m
    else
      let los := p.rxlos ||| lanes
      let m := (m.onPort k fun p => { p with rxlos := los }).optevt k 0
      let m := m.log 0x0403 0 3 k [(8, k), (16, los.toNat)]
      (m.contain k 2).onPort k fun p => if p.down then p else p.lose .detect

/-- Meaning of LIGHT_RESTORED (R224): above -13 dBm for 2 µs the lanes leave loss of light. -/
def execLightRestored (k : Nat) (lanes : BitVec 16) (x : Reading) (s : State) : Host.Outcome State Fault Refusal :=
  s.app ((Instr.lightRestored k lanes x).wf s.m.fam) <| Mach.aliveRun fun m =>
    m.onPort k fun p =>
      let p := { p with rxIn := setReadings 16 p.rxIn lanes.toNat x.dbm }
      if filtered x.held && decide (-1300 < x.dbm) then Port.settle { p with rxlos := p.rxlos &&& ~~~lanes } else p

/-- Meaning of LASER_LOSS_DECLARE (R225): wavelengths of laser input `i` below +12 dBm for 2 µs. -/
def execLaserLossDeclare (k i : Nat) (waves : BitVec 4) (x : Reading) (s : State) : Host.Outcome State Fault Refusal :=
  s.app ((Instr.laserLossDeclare k i waves x).wf s.m.fam) <| Mach.aliveRun fun m =>
    let bit : BitVec 8 := waves.setWidth 8 <<< (4 * i)
    let m := m.onPort k fun p => { p with lasIn := setReadings 8 p.lasIn bit.toNat x.dbm }
    let p := m.port k
    if bit &&& ~~~p.laslos = 0 || !filtered x.held || decide (1200 ≤ x.dbm) then m
    else
      let los := p.laslos ||| bit
      let m := (m.onPort k fun p => { p with laslos := los }).optevt k 1
      let m := m.log 0x0404 0 3 k [(8, k), (8, los.toNat)]
      (m.contain k 3).onPort k fun p => if p.down then p else p.lose .detect

/-- Meaning of LASER_RESTORED (R225): every wavelength of the input above +13 dBm for 2 µs. -/
def execLaserRestored (k i : Nat) (x : Reading) (s : State) : Host.Outcome State Fault Refusal :=
  s.app ((Instr.laserRestored k i x).wf s.m.fam) <| Mach.aliveRun fun m =>
    let bits : BitVec 8 := 15#8 <<< (4 * i)
    m.onPort k fun p =>
      let p := { p with lasIn := setReadings 8 p.lasIn bits.toNat x.dbm }
      if filtered x.held && decide (1300 < x.dbm) then { p with laslos := p.laslos &&& ~~~bits } else p

/-- RXPWR and LASPWR take the powers the engine finds, every 1 ms (R226). -/
def Port.sample (p : Port) : Port := { p with rxpwr := p.rxIn, laspwr := p.lasIn }

/-! ## Lanes (R219 to R221) -/

/-- The fibre of physical lane `l` under a lane map: l div 4 under MAP A, l mod 4 under MAP B. -/
def laneFibre (map l : Nat) : Nat := if map = 0 then l / 4 else l % 4

/-- The wavelength of physical lane `l`. -/
def laneWave (map l : Nat) : Nat := if map = 0 then l % 4 else l / 4

/-- The physical lane of logical lane `l`: 15 - l while the part applies the reversal (R220). -/
def Port.lane (p : Port) (l : Nat) : Nat := if p.rev then 15 - l else l

/-- The transmit lanes that laser input `i` feeds: those on fibres 2i and 2i + 1 (R221). -/
def laserLanes (map i : Nat) : BitVec 16 :=
  (List.range 16).foldl (fun a l => if laneFibre map l / 2 = i then a ||| (1#16 <<< l) else a) 0

/-- The transmit lanes a port can light: none of an input with a wavelength below its limit (R225). -/
def Port.lit (p : Port) : BitVec 16 :=
  (if p.laslos &&& 0x0F = 0 then laserLanes p.map 0 else 0) ||| (if p.laslos &&& 0xF0 = 0 then laserLanes p.map 1 else 0)

/-! ## Training (R220, R227, R232) -/

/-- The link enters L0: what was held goes out, an LTR message is due.
(DEDUCED, log entry 62.) -/
def Mach.enterL0 (m : Mach) (k : Nat) : Mach := (m.onPort k fun p => { p with lt := .l0, ltrDue := true, replays := 0 }).flushHeld k

/-- The partner's lane 0 arrives at physical lane 15 and the others in the opposite order to the part's (R220). -/
def trainRev (t : TrainIn) : Bool := t.lanes = (List.range 16).reverse

/-- The partner's lanes arrive in an order that is neither the part's nor its reverse (R220). -/
def trainBad (t : TrainIn) : Bool := t.lanes ≠ List.range 16 && !trainRev t

/-- A training that ends as the port needs it: x16 at 128 GT/s in flit mode with CXL.mem and port-based routing, the same map at both
ends, the lanes in order or reversed, both laser inputs lit. -/
def Mach.trained (m : Mach) (k map : Nat) (t : TrainIn) : Bool :=
  t.rate = 128 && t.width = 16 && t.flit && t.cxlMem && t.pbr && t.map = map && !trainBad t && (m.port k).laslos = 0

/-- Meaning of LINK_TRAINING (R227): a training attempt ends.
(DEDUCED, log entry 62.) -/
def execLinkTraining (k : Nat) (t : TrainIn) (s : State) : Host.Outcome State Fault Refusal :=
  s.app ((Instr.linkTraining k t).wf s.m.fam) <| Mach.aliveRun fun m =>
    let p := m.port k
    let map := m.hubN k (0x5000 + k) 0x20
    if !p.training || p.down || p.rxlos ≠ 0 || p.lt = .l0 || p.lt = .recovery || p.retrainAt.isSome then m
    else if m.trained k map t then
      (m.onPort k fun p => { p with rate := 128, width := 16, flit := true, ready := true, rev := trainRev t, map := map, pid := t.pid
                                    hotReset := false }).enterL0 k
    else
      let m := m.onPort k fun p => { (p.lose .detect) with map := map, retrainAt := some (m.cycle + ms 10), hotReset := false }
      let m :=
        if trainBad t then (m.log 0x0406 0 3 k [(8, k)]).optevt k 2
        else (m.log 0x0407 0 3 k [(8, k), (8, t.rate), (8, t.width)]).optevt k 3
      m.when p.hotReset fun m => m.contain k 5

/-- Meaning of RETRAIN_TIMER (R227): 10 ms after a failed training the link retrains; with a lane in loss of light it stays in DETECT. -/
def execRetrainTimer (k : Nat) (s : State) : Host.Outcome State Fault Refusal :=
  s.app ((Instr.retrainTimer k).wf s.m.fam) <| Mach.aliveRun fun m =>
    match (m.port k).retrainAt with
    | some t =>
      if decide (t ≤ m.cycle) && !(m.port k).down then m.onPort k fun p => Port.settle { p with retrainAt := none }
      else m
    | none => m

/-! ## Flits and link events (R228, R229) -/

/-- Meaning of FLIT_RECEIVE (R228): corrected symbols are counted in the port's bucket; a flit that fails its CRC is replayed.
(DEDUCED, log entry 62.) -/
def execFlitReceive (k corrected : Nat) (crcOk : Bool) (s : State) : Host.Outcome State Fault Refusal :=
  s.app ((Instr.flitReceive k corrected crcOk).wf s.m.fam) <| Mach.aliveRun fun m =>
    if (m.port k).lt ≠ .l0 then m
    else
      let m := m.fillOuter 2 k corrected
      if crcOk then m.onPort k fun p => { p with replays := 0 }
      else ((m.count (0x8200 + k) 5 1).onPort k fun p => { p with replays := p.replays + 1 }).aer k 0

/-- Meaning of LINK_RECOVERY_ENTRY (R229): a flit has failed, and four retries of it too. -/
def execLinkRecoveryEntry (k : Nat) (s : State) : Host.Outcome State Fault Refusal :=
  s.app ((Instr.linkRecoveryEntry k).wf s.m.fam) <| Mach.aliveRun fun m =>
    let p := m.port k
    if p.lt = .l0 && decide (5 ≤ p.replays) then
      ((m.onPort k fun p => { p with lt := .recovery, replays := 0 }).log 0x0401 0 3 k [(8, k)]).aer k 0
    else m

/-- The link has gone down: the port is contained with LINK_DOWN. -/
def Mach.linkDown (m : Mach) (k : Nat) (st : LtState) : Mach :=
  ((m.log 0x0402 0 3 k [(8, k)]).contain k 1).onPort k fun p => p.lose st

/-- Meaning of RECOVERY_EXIT (R229): back in L0 at x16 and 128 GT/s nothing is lost; otherwise the port is contained. -/
def execRecoveryExit (k rate width : Nat) (l0 : Bool) (s : State) : Host.Outcome State Fault Refusal :=
  s.app ((Instr.recoveryExit k rate width l0).wf s.m.fam) <| Mach.aliveRun fun m =>
    if (m.port k).lt ≠ .recovery then m
    else if l0 && rate = 128 && width = 16 then m.enterL0 k
    else m.linkDown k .detect

/-- Meaning of LINK_LEAVES_L0 (R229): the link leaves L0 for DETECT or DISABLED. -/
def execLinkLeavesL0 (k : Nat) (disabled : Bool) (s : State) : Host.Outcome State Fault Refusal :=
  s.app ((Instr.linkLeavesL0 k disabled).wf s.m.fam) <| Mach.aliveRun fun m =>
    if (m.port k).lt = .l0 then m.linkDown k (if disabled then .disabled else .detect) else m

/-- Every IDE stream of a port ends and its keys are erased (R234). -/
def Mach.endIde (m : Mach) (k : Nat) : Mach := m.onPort k fun p => { p with ideMem := {}, ideSel := {} }

/-- Meaning of IDE_INTEGRITY_FAIL (R234): stream 0 is CXL.mem's, 1 the selective one. -/
def execIdeIntegrityFail (k stream : Nat) (s : State) : Host.Outcome State Fault Refusal :=
  s.app ((Instr.ideIntegrityFail k stream).wf s.m.fam) <| Mach.aliveRun fun m =>
    let p := m.port k
    let up : Bool := (if stream = 0 then p.ideMem.active else p.ideSel.active).isSome
    if p.lt = .l0 && up then ((m.log 0x0405 0 3 k [(8, k), (8, stream)]).contain k 4).endIde k else m

/-! ## OPEN pins (R384) -/

/-- The level of OPEN_k.
(DEDUCED, log entry 56.) -/
def Mach.openPin (m : Mach) (k : Nat) : Bool :=
  m.up && (m.port k).ready && !(m.port k).contained && !(m.hub k).failed

/-! ## Function-level reset (R260) -/

/-- A queue of a function is lost: its descriptors end without completions, it is FREE (R260, R378). -/
def Mach.loseQueue (m : Mach) (f q : Nat) : Mach :=
  let ds := (m.svc.dtors.filter fun x => x.fn = f && x.q = q).map (·.id)
  let m := m.onSvc fun s => { s with wrWait := s.wrWait.filter fun w => !w.owner.isCqe f q }
  let m := m.onQueue f q fun x => { x with st := .free }
  let m := m.each ds fun m d => m.endEarly d stAborted
  let m := m.each ((m.svc.dtors.filter fun x => x.fn = f && x.q = q).map (·.id)) fun m d => m.forget d
  m.freeQueue f q

/-- A function-level reset: registers at their reset values, decoders uncommitted, queues FREE without completions, the lease
ended, the wire de-asserted.
(DEDUCED, log entry 83.) -/
def Mach.flr (m : Mach) (f : Nat) : Mach :=
  let m := m.each ((List.range 64).filter fun q => (m.queue f q).st ≠ .free) fun m q => m.loseQueue f q
  let m := m.leaseEnd f
  let m := m.when (m.fn f).intsent fun m => m.portSend (f / 16) (.intx f false)
  m.onFn f fun x =>
    { lease := x.lease, leaseAt := x.leaseAt, leaseWasLow := x.leaseWasLow, leaseDefer := x.leaseDefer, endReleased := x.endReleased
      endLeft := x.endLeft, endPoisoned := x.endPoisoned, dclog := x.dclog, flrAt := some m.cycle, strayAt := x.strayAt
      protAt := x.protAt }

/-- A part whose functions offer function-level reset: F2 and F4 (R260). -/
def hasFlr (f : Fam) : Bool := f = .f2 || f = .f4

/-- Meaning of HOT_RESET (R260): the link retrains and the port's IDE streams end; on F2 and F4 every function of the port is reset.
(DEDUCED, log entry 83.) -/
def execHotReset (k : Nat) (s : State) : Host.Outcome State Fault Refusal :=
  s.app ((Instr.hotReset k).wf s.m.fam) <| Mach.aliveRun fun m =>
    let p := m.port k
    if p.lt ≠ .l0 && p.lt ≠ .recovery then m
    else
      let m := (m.log 0x0408 0 3 k [(8, k)]).endIde k
      let m := if hasFlr m.fam then m.each (portFns k) fun m f => m.flr f else m
      m.onPort k fun p => { (p.lose .polling) with hotReset := true }

/-- Meaning of INITIATE_FLR (R260): nothing on F8 and F16. -/
def execInitiateFlr (f : Nat) (s : State) : Host.Outcome State Fault Refusal :=
  s.app ((Instr.initiateFlr f).wf s.m.fam) <| Mach.dataRun fun m => if hasFlr m.fam && m.cfgOpen f then m.flr f else m

/-- Meaning of FLR_READY (R260): the lease state is NONE, or 100 ms have passed since the reset. -/
def execFlrReady (f : Nat) (s : State) : Host.Outcome State Fault Refusal :=
  s.app ((Instr.flrReady f).wf s.m.fam) <| Mach.dataRun fun m =>
    match (m.fn f).flrAt with
    | some t =>
      if (m.fn f).lease = .none || decide (t + ms 100 ≤ m.cycle) then m.onFn f fun x => { x with flrAt := none } else m
    | none => m

/-- FUNCREADY of function `f` (R260, R373): memory-active reached, READY, no function-level reset under way. -/
def Mach.funcReady (m : Mach) (f : Nat) : Bool :=
  m.sys.phase = .active && (m.port (f / 16)).ready && (m.fn f).flrAt.isNone

end Sys2Proof.Machine
end

