-- ==== Sys2Proof/Machine/Clock.lean ====
section
/-! DEFINITION. What a hub cycle does when no command waits: the model's clock (log entry 1), the token buckets and the surplus pool
(R202, R203), the counters of hub and region cycles (R205, R217, R249), the block snoops of each microsecond (R200), clock gating (R306). -/

namespace Sys2Proof.Machine

/-! ## Buckets (R202, R203) -/

/-- A bucket gains a hub cycle's share of `rate` (units of 1/65,536 token per µs), up to `cap` units; what goes over the cap. -/
def Bucket.gain (b : Bucket) (rate cap : Nat) : Bucket × Nat :=
  let all := b.tok + (rate + b.rem) / 2000
  (⟨min cap all, (rate + b.rem) % 2000⟩, all - cap)

/-- The issue floor of pitch `p` at hub `h` after any scale-down, in units per µs (R202, R212). -/
def Mach.floorRate (m : Mach) (h p : Nat) : Nat :=
  let s := tget m.sys.sigmaH (1, 1) h
  m.hubN h (0x3000 + p) 9 * 65536 * s.1 / s.2

/-- The buckets of pitch `p` at hub `h` gain; a token over the guarantee bucket's depth goes into the pool. -/
def Mach.refillPitch (m : Mach) (h p : Nat) : Mach :=
  let cap := m.hubN h (0x3000 + p) 0x0B * oneTok
  let f := m.floorRate h p
  let g := m.hubN h (0x3000 + p) 0x0A * 65536
  m.onHub h fun x =>
    let a := (tget x.guar {} p).gain f cap
    { x with guar := tput x.guar {} p a.1, ceil := tput x.ceil {} p ((tget x.ceil {} p).gain g cap).1
             pool := { x.pool with tok := min (256 * oneTok) (x.pool.tok + a.2) } }

/-- A hub cycle of hub `h`: its pool gains C_h less the floors bound there, its buckets gain, the count of admissions starts anew. -/
def Mach.refillHub (m : Mach) (h : Nat) : Mach :=
  let ps := (m.hub h).bound
  let floors := (ps.map fun p => m.floorRate h p).foldl (· + ·) 0
  let m := m.onHub h fun x => { x with admitted := 0, pool := (x.pool.gain (3600 * 65536 * m.sys.phi.1 / m.sys.phi.2 - floors) (256 * oneTok)).1 }
  m.each ps fun m p => m.refillPitch h p

/-! ## Counters of hub cycles -/

/-- A read of port `k` waits for a tag, or a write for an entry of the write table (R249): a fetch or an input of a descriptor for the
service share, a far read for the tier share. -/
def Mach.tagWait (m : Mach) (k : Nat) : Bool :=
  (m.uioOpen k && m.tagsFree k true = 0 &&
    ((m.svc.dtors.any fun d => d.fn / 16 = k && d.inp.any fun i => !i.todo.isEmpty) || (m.hub k).bound.any fun p => (m.fetchNext k p).isSome))
  || (m.uioOpen k && decide (4096 ≤ m.writesUsed k) && m.svc.wrWait.any fun w =>
    w.port = k && (match w.fn with | some f => m.bme f | none => true))
  || (m.portReady k && m.tagsFree k false = 0 && m.mem.jobs.any fun j =>
    j.tier = 2 && !j.todo.isEmpty && (match j.src with
      | w :: _ => hasBit (winOf m.fam (m.region j.region).cfg.vals (m.ownerOf j.cref) w).ports k
      | [] => false))

/-- CREDITHELD and TAGWAIT of port `k`. -/
def Mach.countWaits (m : Mach) (k : Nat) : Mach :=
  let m := m.when (decide (2048 ≤ (m.port k).ingress.length)) fun m => m.count (0x8200 + k) 1 1
  m.when (m.tagWait k) fun m => m.count (0x8200 + k) 2 1

/-- FOLDBUSY of region `r` (Table 08.6): in each region cycle, the fold lanes that work. -/
def Mach.countFolds (m : Mach) (r : Nat) : Mach :=
  m.when (m.cycle % 2 = 0 && !(m.foldBusy r).isEmpty) fun m => m.count (0x8100 + r) 3 (m.foldBusy r).length

/-! ## Clock gating (Table 13.1, R306) -/

/-- Tally cells and fold and unfold lanes of region `r` are gated while idle. -/
def Mach.gateRegion (m : Mach) (r : Nat) : Mach :=
  m.onRegion r fun g =>
    { g with tallyGated := g.tallyBig.isEmpty && g.tallySmall.isEmpty && g.tallyQ.isEmpty
             lanesGated := !(m.mem.jobs.any fun j => j.region = r) && !(g.moves.any fun v => v.phase = .folding) }

/-! ## The hub cycle -/

/-- One hub cycle of 0.5 ns passes.
(DESIGN CHOICE, log entry 1.) (DESIGN CHOICE, log entry 76.) -/
def Mach.tick (m : Mach) : Mach :=
  let m := { m with cycle := m.cycle + 1 }
  if m.alive then
    let m := m.each (List.range (hubs m.fam)) fun m h => (m.refillHub h).countWaits h
    let m := m.each (List.range (regions m.fam)) fun m r => (m.countFolds r).gateRegion r
    let m := m.each (List.range (hubs m.fam)) fun m k => m.onPort k fun p => if m.cycle % ms 1 = 0 then p.settle.sample else p.settle
    m.when (m.cycle % us 1 = 0) fun m => m.each (List.range (hubs m.fam)) fun m k => m.sendBlocks k 64
  else m

end Sys2Proof.Machine
end

