-- ==== Sys2Proof/Machine/Fatal.lean ====
section
/-! DEFINITION. Chip fatal (R25, R374), the failure of a hub (R378), and the FENCE and ZEROIZE of a security alarm (R360 to R362). -/

namespace Sys2Proof.Machine

/-! ## Chip fatal (Table 17.3) -/

/-- ARCADE_HEADER -/
def fcArcadeHeader : Nat := 1
/-- HUB_STATE -/
def fcHubState : Nat := 2
/-- NO_HUB -/
def fcNoHub : Nat := 3
/-- SELFTEST -/
def fcSelftest : Nat := 4
/-- BOOT_IMAGE -/
def fcBootImage : Nat := 5
/-- NO_REGION -/
def fcNoRegion : Nat := 6

/-- A port's link goes to DISABLED and its transmit fibres go dark. -/
def Mach.darken (m : Mach) (k : Nat) : Mach :=
  m.onPort k fun p => { (p.lose .disabled) with down := true, hotReset := false, retrainAt := none }

/-- The part declares chip fatal: every port stops, the data path stops, the monitor takes the cause code; its event waits for the
RESET_n that follows (R25, Table 15.10). -/
def Mach.chipFatal (m : Mach) (cause : Nat) : Mach :=
  if m.sys.fatal then m
  else (m.onSys fun s => { s with fatal := true, fatalCause := cause, fatalReport := true }).each (List.range (hubs m.fam)) fun m k => m.darken k

/-- Meaning of HUB_INGRESS_ADMIT: a hub admits the waiting heads that have tokens, at most four in a hub cycle (R204). An
uncorrectable error in the transaction state it reads for this is chip fatal (R25).
(DESIGN CHOICE, log entry 37.) -/
def execHubIngressAdmit (t : HubTurn) (s : State) : Host.Outcome State Fault Refusal :=
  s.app ((Instr.hubIngressAdmit t).wf s.m.fam) <| Mach.dataRun fun m =>
    if t.stateBad && !(m.hub t.hub).failed then m.chipFatal fcHubState else m.admitHeads t.hub 4

/-! ## The failure of a hub (R378) -/

/-- The port of a failed hub holds the state of Table 10.12 with CCAUSE 1. -/
def Mach.failPort (m : Mach) (k : Nat) : Mach :=
  let m := m.log 0x0402 0 3 k [(8, k)]
  let m := m.contain k 1
  (m.onPort k fun p => { p with ccause := 1, startup := false }).darken k

/-- The queues of a hub's functions are lost without completions. -/
def Mach.loseQueues (m : Mach) (h : Nat) : Mach :=
  m.each (portFns h) fun m f => m.each ((List.range 64).filter fun q => (m.queue f q).st ≠ .free) fun m q => m.loseQueue f q

/-- The leases of a failed hub's functions end (R378). -/
def Mach.endLeases (m : Mach) (h : Nat) : Mach := m.each (portFns h) fun m f => m.leaseEnd f

/-- A hub that leaves an installation, a claim and the steward role. -/
def Mach.hubOut (m : Mach) (h : Nat) : Mach :=
  let m := m.onHub h fun x => { x with failed := true, live := false, claimAt := none, reloadAt := none, watchdogHeld := false }
  let m := m.onDict fun d => { d with inst := d.inst.map fun i => { i with hubs := i.hubs.filter (· ≠ h) } }
  m.when (m.sys.steward = some h) fun m => m.onSys fun s => { s with steward := none, roleAt := m.cycle }

/-- Hub `h` fails (R378): the loss of the last live hub is chip fatal with NO_HUB (R376).
(DEDUCED, log entry 62.) -/
def Mach.hubFail (m : Mach) (h : Nat) : Mach :=
  if (m.hub h).failed then m
  else
    let m := (m.hubOut h).loseQueues h
    let m := m.failPort h
    let m := m.when m.sys.steward.isSome fun m => m.endLeases h
    m.when (m.liveHubs.isEmpty) fun m => m.chipFatal fcNoHub

/-! ## FENCE and ZEROIZE (R360 to R362) -/

/-- The rank of SECSTATE: DEBUG above ZEROIZED above FENCED above NORMAL (R360). -/
def secRank (s : Nat) : Nat := match s with | 1 => 3 | 3 => 2 | 2 => 1 | _ => 0

/-- SECSTATE takes a value unless it holds a higher one. -/
def Mach.raiseSec (m : Mach) (v : Nat) : Mach := m.onSec fun s => { s with secstate := if secRank s.secstate < secRank v then v else s.secstate }

/-- One port under FENCE: the state of Table 10.12, its link in DISABLED; CCAUSE keeps its value. -/
def Mach.fencePort (m : Mach) (k : Nat) : Mach :=
  let m := m.when (m.normal k) fun m =>
    let m := m.onPort k fun p => { p with contained := true, startup := false, ingress := [], heldSnoops := p.heldSnoops.filter Out.isSnoop }
    m.each (portFns k) fun m f => m.each (List.range 64) fun m q =>
      let st := (m.queue f q).st
      if st = .active || st = .draining || st = .drained then m.queueError f q 5 else m
  m.darken k

/-- A roll ends where it stands: a reloading hub's watchdog runs again (R368). -/
def Mach.rollStop (m : Mach) : Mach :=
  let m := m.each (List.range (hubs m.fam)) fun m h =>
    m.onHub h fun x => if x.watchdogHeld then { x with watchdogHeld := false, watchdogAt := m.cycle, reloadAt := none } else x
  m.onSec fun s => { s with roll := none }

/-- FENCE (R361): every port stops, accepted requests are abandoned, the roll ends. -/
def Mach.applyFence (m : Mach) : Mach :=
  if m.sec.fenced then m.raiseSec 2
  else
    let m := m.each (List.range (hubs m.fam)) fun m k => m.fencePort k
    let m := m.onMem fun x => { x with waits := [] }
    let m := (m.onSec fun s => { s with fenced := true, applied := max s.applied 1 }).raiseSec 2
    m.rollStop

/-- Every key store and session secret is erased (R362): pitch keys, IDE keys, SPDM sessions, and with them their
clients, the identity private key. -/
def Mach.eraseSecrets (m : Mach) : Mach :=
  let m := m.onSec fun s => { s with keys := [], keystate := [], spdm := [], spdmNeg := [], idKey := none }
  let m := m.each (List.range (hubs m.fam)) fun m k => m.endIde k
  m.onDict fun d => { d with clients := (d.clients.filter fun c => !c.2.auth).map fun c => (c.1, { c.2 with spdm := 0 }) }

/-- ZEROIZE begins (R362). -/
def Mach.startZeroize (m : Mach) : Mach := m.onSec fun s => { s with zeroizing := true, applied := 2 }

/-- A policy of an alarm is applied unless a stronger action runs or is done (R360).
(DEDUCED, log entry 57.) -/
def Mach.applyPolicy (m : Mach) (pol : Nat) : Mach :=
  if pol ≤ m.sec.applied then m
  else match pol with
    | 1 => m.applyFence
    | 2 => m.startZeroize
    | _ => m

/-- The policy of an alarm class: that of the set installed at the steward's hub. -/
def Mach.policy (m : Mach) (c : Nat) : Nat := m.hubN (m.sys.steward.getD 0) 0x6010 c

/-- Alarms of classes 1 to 4 rise together (R360): the strongest policy among them applies once, each class sets its bit and logs its
event; while a stronger action runs or is done they only log.
(DESIGN CHOICE, log entry 77.) -/
def Mach.alarm (m : Mach) (classes : BitVec 4) : Mach :=
  let cs := (List.range 4).filter fun i => classes.getLsbD i
  let top := (cs.map fun i => m.policy (i + 1)).foldl max 0
  let pol := if top < m.sec.applied then 0 else top
  let m := m.onSys fun s => { s with monClasses := s.monClasses ||| classes }
  let m := (m.onSec fun s => { s with alarmstat := s.alarmstat ||| classes }).latch (okey 0x6010 5) classes.toNat
  let m := m.each cs fun m i => m.logSev 0x0601 (if pol = 0 then 2 else 4) 0 0 0 (packData [(8, i + 1), (8, pol)])
  m.applyPolicy pol

/-- Meaning of SECURITY_ALARM (R359, R360): sensors run from the fuse load on.
(DEDUCED, log entry 57.) -/
def execSecurityAlarm (classes : BitVec 4) (s : State) : Host.Outcome State Fault Refusal :=
  s.app ((Instr.securityAlarm classes).wf s.m.fam) <| Mach.aliveRun fun m => m.alarm classes

/-- Meaning of ZEROIZED (R362, R363): every store has been erased and reports done. -/
def execZeroized (s : State) : Host.Outcome State Fault Refusal :=
  s.app (Instr.zeroized.wf s.m.fam) <| Mach.aliveRun fun m =>
    if !m.sec.zeroizing then m
    else
      let m := (m.eraseSecrets.applyFence.raiseSec 3).log 0x0602 0 0 0 []
      m.onSec fun s => { s with zeroizing := false }

/-- Meaning of FUSE_RECHECK (R359): the fuse digests are checked again each second. -/
def execFuseRecheck (ok : Bool) (s : State) : Host.Outcome State Fault Refusal :=
  s.app ((Instr.fuseRecheck ok).wf s.m.fam) <| Mach.aliveRun fun m =>
    if m.cycle < m.sys.fuseAt + ms 1000 then m
    else
      let m := m.onSys fun s => { s with fuseAt := m.cycle }
      if ok then m else m.alarm 8

/-- Meaning of D2D_TAG_CHECK (R359): the running tag is checked every 1,024 arcade cycles, 1,280 hub cycles. -/
def execD2dTagCheck (ok : Bool) (s : State) : Host.Outcome State Fault Refusal :=
  s.app ((Instr.d2dTagCheck ok).wf s.m.fam) <| Mach.aliveRun fun m =>
    if m.cycle < m.sys.tagAt + 1280 then m
    else
      let m := m.onSys fun s => { s with tagAt := m.cycle }
      if ok then m else m.alarm 4

/-- Meaning of VDD_AON_LOSS (R25, R364, R393): the always-on security monitor loses what it keeps.
(DEDUCED, log entry 57.) -/
def execVddAonLoss (s : State) : Host.Outcome State Fault Refusal :=
  s.app (Instr.vddAonLoss.wf s.m.fam) fun m =>
    m.onSys fun x => { x with fatalCause := 0, fatalReport := false, debugLatch := false, monClasses := 0 }

end Sys2Proof.Machine
end

