-- ==== Sys2Proof/Machine/Arcade.lean ====
section
/-! DEFINITION. The arcade (R18 to R20, R404), the grants of a cell (R21), the leak of outer buckets (R294), wake requests (R306). -/

namespace Sys2Proof.Machine

/-! ## Flits -/

/-- Number of a virtual channel. -/
def VC.num : VC → Nat
  | .req => 0 | .rsp => 1 | .bi => 2 | .svc => 3

/-- Key of the credits for a channel from one stop to another. -/
def creditKey (src dst : Nat) (vc : VC) : Nat := (src * 64 + dst) * 4 + VC.num vc

/-- Credits in use. -/
def Mach.creditsUsed (m : Mach) (src dst : Nat) (vc : VC) : Nat := tget m.arc.used 0 (creditKey src dst vc)

/-- The segments a flit crosses, in order (R19, R404). -/
def segPath (f : Fam) (src dst : Nat) : List Nat :=
  let p := arcadePath f src dst
  ((src :: p).zip p).map fun x => segmentOf f x.1 x.2

/-- RSP and BI flits wait behind no REQ or SVC flit (R18). -/
def vcAhead : VC → Bool
  | .rsp => true | .bi => true | _ => false

/-- A flit on the ring is to cross segment `g` next and goes before an injection of channel `vc` there (R18). -/
def Mach.ringPasses (m : Mach) (g : Nat) (vc : VC) : Bool :=
  m.arc.flits.any fun x => x.path.head? = some g && (vcAhead x.vc || !vcAhead vc)

/-- A stop may inject onto segment `g`: no flit on the ring has precedence, or the stop's slot has come, one in every 8 cycles of the
1.6 GHz arcade (R18). -/
def Mach.mayInject (m : Mach) (vc : VC) : List Nat → Bool
  | [] => true
  | g :: _ => !m.ringPasses g vc || decide (tget m.arc.slotAt 0 g + 10 ≤ m.cycle)

/-- Meaning of ARCADE_FLIT_INJECT (R18): a stop that holds a credit injects a flit where the ring lets it.
(DESIGN CHOICE, log entry 70.) -/
def execArcadeFlitInject (src dst : Nat) (vc : VC) (pitch addr : Nat) (words : List CWord) (s : State) :
    Host.Outcome State Fault Refusal :=
  s.app ((Instr.arcadeFlitInject src dst vc pitch addr words).wf s.m.fam) <| Mach.aliveRun fun m =>
    let path := segPath m.fam src dst
    if m.arc.depth ≤ m.creditsUsed src dst vc || !m.mayInject vc path then m
    else
      let fl : Flit := ⟨m.nextId, src, dst, vc, path, pitch, addr, words⟩
      m.renumber.onArc fun a =>
        let a := { a with used := tput a.used 0 (creditKey src dst vc) (m.creditsUsed src dst vc + 1)
                          slotAt := match path.head? with | some g => tput a.slotAt 0 g m.cycle | none => a.slotAt }
        if fl.path.isEmpty then { a with arrived := a.arrived ++ [fl] } else { a with flits := a.flits ++ [fl] }

/-- A stored word with the bits of a mask flipped: data, then check field. -/
def flipMask (c : CWord) (x : BitVec 272) : CWord := ⟨c.data ^^^ x.setWidth 256, c.check ^^^ (x >>> 256).setWidth 16⟩

/-- Words upset on a segment. -/
def upset (ws : List CWord) (flips : List (Nat × BitVec 272)) : List CWord :=
  flips.foldl (fun ws x => ws.modify x.1 fun c => flipMask c x.2) ws

/-- A flit may move: no older flit of its path and channel is level with it or behind (R19). -/
def Mach.flitFree (m : Mach) (fl : Flit) : Bool :=
  m.arc.flits.all fun x =>
    !(decide (x.id < fl.id) && x.src = fl.src && x.dst = fl.dst && x.vc = fl.vc) || decide (x.path.length < fl.path.length)

/-- Meaning of ARCADE_FLIT_HOP (R20): the stop at the end of the flit's next segment checks each word; an uncorrectable header is chip
fatal, and so is a header word that arrives as the poison marker, which the word code does not call uncorrectable.
(DESIGN CHOICE, log entry 37.) (DESIGN CHOICE, log entry 93.) -/
def execArcadeFlitHop (id : Nat) (flips : List (Nat × BitVec 272)) (s : State) : Host.Outcome State Fault Refusal :=
  s.app ((Instr.arcadeFlitHop id flips).wf s.m.fam) <| Mach.aliveRun fun m =>
    match m.arc.flits.find? fun x => x.id = id with
    | none => m
    | some fl =>
      match fl.path, upset fl.words flips with
      | g :: rest, hd :: data =>
        if !m.flitFree fl then m
        else
          let (m, data) := m.injWords 4 0 (fun _ => g) fl.pitch fl.addr 0 data
          let m := (m.fillOuter 0 g ((hd :: data).filter isCorrected).length).countUe ((hd :: data).filter isFlagged).length
          if (readWord hd).isNone then m.chipFatal fcArcadeHeader
          else
            let fl := { fl with path := rest, words := passWord hd :: data.map passWord }
            m.onArc fun a =>
              if rest.isEmpty then { a with flits := a.flits.filter (fun x => x.id ≠ id), arrived := a.arrived ++ [fl] }
              else { a with flits := lmod a.flits (fun x => x.id = id) fun _ => fl }
      | _, _ => m

/-- Removes the first `n` elements that satisfy `p`. -/
def dropWhich {α : Type} (p : α → Bool) : Nat → List α → List α
  | 0, l => l
  | _, [] => []
  | n + 1, a :: t => if p a then dropWhich p n t else a :: dropWhich p (n + 1) t

/-- Meaning of ARCADE_CREDIT_RETURN (R18, R304): the destination has taken `n` flits out of its queue and their credits come back. -/
def execArcadeCreditReturn (src dst : Nat) (vc : VC) (n : Nat) (s : State) : Host.Outcome State Fault Refusal :=
  s.app ((Instr.arcadeCreditReturn src dst vc n).wf s.m.fam) <| Mach.aliveRun fun m =>
    let mine := fun x : Flit => x.src = src && x.dst = dst && x.vc = vc
    let k := min n (m.arc.arrived.filter mine).length
    m.onArc fun a => { a with used := tput a.used 0 (creditKey src dst vc) (m.creditsUsed src dst vc - k)
                              arrived := dropWhich mine k a.arrived }

/-! ## Cells (R21) -/

/-- Number of the present cycle of a cell's own clock: DRAM cells (512 to 519) run at 1.333 GHz, the others at 1 GHz.
(DEDUCED, log entry 71.) -/
def Mach.cellCycle (m : Mach) (cell : Nat) : Nat := if 512 ≤ cell ∧ cell < 520 then m.cycle * 2 / 3 else m.cycle / 2

/-- The first requesting port from `from_` on, in the order block crossbar, codec, Tally, migration. -/
def nextPort (reqs : BitVec 4) (from_ : Nat) : Option Nat :=
  ((List.range 4).map fun i => (from_ + i) % 4).find? fun p => reqs.getLsbD p

/-- Meaning of CELL_GRANT (R21): at most one grant in a cycle of the cell, to the first requesting port after the one granted last;
requests not granted stay. A word beyond repair that the granted port reads in the table block is settled (R292).
(DEDUCED, log entry 71.)
(DESIGN CHOICE, log entry 37.) -/
def execCellGrant (r cell : Nat) (t : CellTurn) (s : State) : Host.Outcome State Fault Refusal :=
  s.app ((Instr.cellGrant r cell t).wf s.m.fam) <| Mach.aliveRun fun m =>
    let g := m.region r
    if g.st = .fenced then m
    else
      let held := BitVec.ofNat 4 (tget g.cellReq 0 cell) ||| t.reqs
      let now := m.cellCycle cell + 1
      match if tget g.cellAt 0 cell = now then none else nextPort held (tget g.cellLast 0 cell) with
      | none => m.onRegion r fun g => { g with cellReq := tput g.cellReq 0 cell held.toNat }
      | some p =>
        let m := (m.onRegion r fun g =>
          { g with cellReq := tput g.cellReq 0 cell (held &&& ~~~(1#4 <<< p)).toNat
                   cellLast := tput g.cellLast 0 cell ((p + 1) % 4), cellAt := tput g.cellAt 0 cell now }).send (.cellGrant r cell p)
        match t.ue with
        | some w => if (m.region r).st = .serving && cell / 64 = (m.region r).tableBlock then m.tableFlagged r w else m
        | none => m

/-! ## Outer leaky buckets (R294) -/

/-- Kind, number and hub of an outer bucket: an arcade segment's settings are those of hub H0. -/
def outerKey : OuterBucket → Nat × Nat × Nat
  | .segment i => (0, i, 0)
  | .hubBuffer h => (1, h, h)
  | .portFec k => (2, k, k)

/-- The table of a kind of outer bucket, changed. -/
def Code.onOuter (c : Code) (kind : Nat) (f : Tab Nat → Tab Nat) : Code :=
  match kind with
  | 0 => { c with lbSeg := f c.lbSeg }
  | 1 => { c with lbHub := f c.lbHub }
  | _ => { c with lbPort := f c.lbPort }

/-- Meaning of LEAKY_BUCKET_LEAK (R294): once in each leak period the bucket falls by 1, and settings committed since apply from here.
(DEDUCED, log entry 31.) -/
def execLeakyBucketLeak (b : OuterBucket) (s : State) : Host.Outcome State Fault Refusal :=
  s.app ((Instr.leakyBucketLeak b).wf s.m.fam) <| Mach.aliveRun fun m =>
    let (kind, i, h) := outerKey b
    let set := tget m.code.lbOutSet {} (kind * 64 + i)
    let period := if set.period = 0 then 1000 else set.period
    if m.cycle < set.last + us period then m
    else
      m.onCode fun c =>
        { c.onOuter kind fun t => tput t 0 i (tget t 0 i - 1) with
            lbOutSet := tput c.lbOutSet {} (kind * 64 + i) ⟨m.hubN h 0x7100 1, m.hubN h 0x7100 3, m.cycle⟩ }

/-! ## Wake requests (R306) -/

/-- Meaning of WAKE_REQUEST (R306, Table 13.1): the clock of a gated domain starts. The domains of a fenced region, a memory controller
and a boot flash interface do not answer: their PLL is stopped or their own steward core starts them. -/
def execWakeRequest (d : Domain) (s : State) : Host.Outcome State Fault Refusal :=
  s.app ((Instr.wakeRequest d).wf s.m.fam) <| Mach.aliveRun fun m =>
    match d with
    | .tally r => if (m.region r).st = .fenced then m else m.onRegion r fun g => { g with tallyGated := false }
    | .lanes r => if (m.region r).st = .fenced then m else m.onRegion r fun g => { g with lanesGated := false }
    | .region _ => m
    | .memory _ _ => m
    | .flash _ => m

end Sys2Proof.Machine
end

