-- ==== Sys2Proof/Machine/Functions.lean ====
section
/-! DEFINITION. A function towards its host (R231, R235, R241 to R244, R248, R342, R410): command bits, HDM decoders, mailbox, DOE
discovery and CDAT, the FM-owned logical device. Payloads whose layout is the standards' are free values of the numbers the spec fixes
(log entry 8). -/

namespace Sys2Proof.Machine

/-! ## Command register (R248, R410) -/

/-- A bit of the Command register takes a value. -/
def Func.setCommand (x : Func) (i : Nat) (b : Bool) : Func :=
  { x with command := if b then x.command ||| (1#16 <<< i) else x.command &&& ~~~(1#16 <<< i) }

/-- Requests that Bus Master Enable held go out (R410). -/
def Mach.busOn (m : Mach) (f : Nat) : Mach :=
  let m := m.drainWrites
  m.each ((m.svc.dtors.filter fun x => x.fn = f).map (·.id)) fun m d => m.issueInputs d 64

/-- Meaning of BUS_MASTER_ENABLE (R410). -/
def execBusMasterEnable (f : Nat) (b : Bool) (s : State) : Host.Outcome State Fault Refusal :=
  s.app ((Instr.busMasterEnable f b).wf s.m.fam) <| Mach.dataRun fun m =>
    if m.cfgOpen f then (m.onFn f fun x => x.setCommand 2 b).when b fun m => m.busOn f else m

/-- Meaning of INTERRUPT_DISABLE (R248). -/
def execInterruptDisable (f : Nat) (b : Bool) (s : State) : Host.Outcome State Fault Refusal :=
  s.app ((Instr.interruptDisable f b).wf s.m.fam) <| Mach.dataRun fun m =>
    if m.cfgOpen f then m.onFn f fun x => x.setCommand 10 b else m

/-! ## HDM decoders (R241) -/

/-- A decoder setting the part accepts: one way, base and size multiples of 256 MiB. -/
def decoderOk (base size : BitVec 64) (ways : Nat) : Bool := ways = 1 && base.toNat % 2 ^ 28 = 0 && size.toNat % 2 ^ 28 = 0

/-- Meaning of HDM_DECODER_COMMIT (R241): other settings fail with the commit error bit.
(DEDUCED, log entry 73.) -/
def execHdmDecoderCommit (f i : Nat) (base size skip : BitVec 64) (ways : Nat) (s : State) : Host.Outcome State Fault Refusal :=
  s.app ((Instr.hdmDecoderCommit f i base size skip ways).wf s.m.fam) <| Mach.dataRun fun m =>
    if !m.barOpen f then m
    else
      let old := if i = 0 then (m.fn f).dec0 else (m.fn f).dec1
      let d : Decoder :=
        if decoderOk base size ways then ⟨true, false, base.toNat, size.toNat, skip.toNat⟩ else { old with committed := false, error := true }
      m.onFn f fun x => if i = 0 then { x with dec0 := d } else { x with dec1 := d }

/-! ## The memory-device mailbox (R242, R342) -/

/-- A mailbox command reaches function `f`'s mailbox. -/
def Mach.mboxOpen (m : Mach) (f : Nat) (g : Mach → Mach) : Mach := if m.barOpen f then g m else m

/-- Length of the dynamic-capacity region in blocks of 256 MiB: the configuration's extents. -/
def Mach.dcBlocks (m : Mach) : Nat := extentLimit m.fam

/-- Meaning of IDENTIFY (R242): total capacity in multiples of 256 MiB, all of it dynamic. -/
def execIdentify (f : Nat) (s : State) : Host.Outcome State Fault Refusal :=
  s.app ((Instr.identify f).wf s.m.fam) <| Mach.dataRun fun m =>
    m.mboxOpen f fun m => m.mbox f mbSuccess (Config.stdPayload 0x4000 [m.dcBlocks])

/-- Meaning of GET_SUPPORTED_LOGS (R242): one log, the Command Effects Log. -/
def execGetSupportedLogs (f : Nat) (s : State) : Host.Outcome State Fault Refusal :=
  s.app ((Instr.getSupportedLogs f).wf s.m.fam) <| Mach.dataRun fun m =>
    m.mboxOpen f fun m => m.mbox f mbSuccess (Config.stdPayload 0x0400 [1])

/-- Meaning of GET_LOG (R242): the Command Effects Log only.
(DEDUCED, log entry 74.) -/
def execGetLog (f : Nat) (cel : Bool) (s : State) : Host.Outcome State Fault Refusal :=
  s.app ((Instr.getLog f cel).wf s.m.fam) <| Mach.dataRun fun m =>
    m.mboxOpen f fun m => if cel then m.mbox f mbSuccess (Config.stdPayload 0x0401 []) else m.mbox f mbUnsupported []

/-- The numbers of a Dynamic Capacity event record: kind and extent. -/
def DcRec.nums : DcRec → List Nat
  | .add e => [0, e]
  | .forced e => [1, e]

/-- The numbers of an event record (Table 14.11). -/
def EvRec.nums (e : EvRec) : List Nat := [e.eseq, e.time, e.code, e.sev, e.cls, e.pitch, e.srcKind * 4096 + e.srcNum, e.data]

/-- Meaning of GET_EVENT_RECORDS (R242, R342): the Dynamic Capacity Event Log is 4; the pitch's event queue is the Vendor Specific Event
Log, 5; the other logs are empty. -/
def execGetEventRecords (f log : Nat) (s : State) : Host.Outcome State Fault Refusal :=
  s.app ((Instr.getEventRecords f log).wf s.m.fam) <| Mach.dataRun fun m =>
    m.mboxOpen f fun m =>
      let nums :=
        if log = 4 then ((m.fn f).dclog.map DcRec.nums).flatten
        else if log = 5 then ((tget m.ev.pq [] (m.pitchOf f)).map EvRec.nums).flatten
        else []
      m.mbox f mbSuccess (Config.stdPayload 0x0100 (log :: nums))

/-- Meaning of CLEAR_EVENT_RECORDS (R242, R342): the `n` oldest records leave the log. -/
def execClearEventRecords (f log n : Nat) (s : State) : Host.Outcome State Fault Refusal :=
  s.app ((Instr.clearEventRecords f log n).wf s.m.fam) <| Mach.dataRun fun m =>
    m.mboxOpen f fun m =>
      let p := m.pitchOf f
      let m :=
        if log = 4 then m.onFn f fun x => { x with dclog := x.dclog.drop n }
        else if log = 5 then m.onEv fun v => { v with pq := tput v.pq [] p ((tget v.pq [] p).drop n) }
        else m
      m.mbox f mbSuccess []

/-- Meaning of GET_EVENT_INTERRUPT_POLICY (R242): no interrupts for every log. -/
def execGetEventInterruptPolicy (f : Nat) (s : State) : Host.Outcome State Fault Refusal :=
  s.app ((Instr.getEventInterruptPolicy f).wf s.m.fam) <| Mach.dataRun fun m =>
    m.mboxOpen f fun m => m.mbox f mbSuccess (Config.stdPayload 0x0102 [0, 0, 0, 0, 0])

/-- Meaning of SET_EVENT_INTERRUPT_POLICY (R242): only "no interrupts" is accepted. -/
def execSetEventInterruptPolicy (f : Nat) (noInterrupts : Bool) (s : State) : Host.Outcome State Fault Refusal :=
  s.app ((Instr.setEventInterruptPolicy f noInterrupts).wf s.m.fam) <| Mach.dataRun fun m =>
    m.mboxOpen f fun m => m.mbox f (if noInterrupts then mbSuccess else mbInvalidInput) []

/-- Meaning of GET_DC_CONFIGURATION (R242): one region, base 0, length and decode length, block size 256 MiB. -/
def execGetDcConfiguration (f : Nat) (s : State) : Host.Outcome State Fault Refusal :=
  s.app ((Instr.getDcConfiguration f).wf s.m.fam) <| Mach.dataRun fun m =>
    m.mboxOpen f fun m => m.mbox f mbSuccess (Config.stdPayload 0x4800 [1, 0, m.dcBlocks * 2 ^ 28, m.dcBlocks * 2 ^ 28, 2 ^ 28])

/-- Meaning of GET_DC_EXTENT_LIST (R242): the extents the function holds, each by its DPA. -/
def execGetDcExtentList (f : Nat) (s : State) : Host.Outcome State Fault Refusal :=
  s.app ((Instr.getDcExtentList f).wf s.m.fam) <| Mach.dataRun fun m =>
    m.mboxOpen f fun m => m.mbox f mbSuccess (Config.stdPayload 0x4801 ((m.heldBy f).map fun e => e * 2 ^ 28))

/-- Meaning of UNSUPPORTED_MAILBOX_COMMAND (R242).
(DEDUCED, log entry 74.) -/
def execUnsupportedMailboxCommand (f opcode : Nat) (s : State) : Host.Outcome State Fault Refusal :=
  s.app ((Instr.unsupportedMailboxCommand f opcode).wf s.m.fam) <| Mach.dataRun fun m =>
    m.mboxOpen f fun m => m.mbox f mbUnsupported []

/-! ## The FM-owned logical device (R231) -/

/-- A mailbox answer of the FM-owned logical device of port `k`. -/
def Mach.fmBox (m : Mach) (k code : Nat) (payload : List Byte) : Mach := m.portSend k (.fmMbox k code payload)

/-- Meaning of GET_LD_INFO (R231): memory size and 16 logical devices. -/
def execGetLdInfo (k : Nat) (s : State) : Host.Outcome State Fault Refusal :=
  s.app ((Instr.getLdInfo k).wf s.m.fam) <| Mach.dataRun fun m =>
    if m.linkUp k then m.fmBox k mbSuccess (Config.stdPayload 0x5400 [m.dcBlocks * 2 ^ 28, 16]) else m

/-- Meaning of FM_IDENTIFY (R231). -/
def execFmIdentify (k : Nat) (s : State) : Host.Outcome State Fault Refusal :=
  s.app ((Instr.fmIdentify k).wf s.m.fam) <| Mach.dataRun fun m =>
    if m.linkUp k then m.fmBox k mbSuccess (Config.stdPayload 0x0001 [0x1F9C, (deviceId m.fam).toNat]) else m

/-- Meaning of GET_LD_ALLOCATIONS (R231): one allocation per logical device, of the extents it holds. -/
def execGetLdAllocations (k : Nat) (s : State) : Host.Outcome State Fault Refusal :=
  s.app ((Instr.getLdAllocations k).wf s.m.fam) <| Mach.dataRun fun m =>
    if m.linkUp k then m.fmBox k mbSuccess (Config.stdPayload 0x5401 ((portFns k).map fun f => (m.heldBy f).length)) else m

/-- Meaning of SET_LD_ALLOCATIONS (R231): Unsupported, since capacity moves only by extents. -/
def execSetLdAllocations (k : Nat) (s : State) : Host.Outcome State Fault Refusal :=
  s.app ((Instr.setLdAllocations k).wf s.m.fam) <| Mach.dataRun fun m =>
    if m.linkUp k then m.fmBox k mbUnsupported [] else m

/-! ## DOE mailboxes (R235, R244) -/

/-- The port of a DOE mailbox. -/
def mbxPort : Mbx → Nat
  | .fn f => f / 16
  | .fm k => k

/-- Requests reach the DOE mailbox. -/
def Mach.doeOpen (m : Mach) : Mbx → Bool
  | .fn f => m.cfgOpen f
  | .fm k => m.linkUp k

/-- The protocols a DOE mailbox serves, by discovery index: vendor 1 protocol 0 is DOE Discovery, 1 CMA/SPDM, 2 Secured CMA/SPDM;
vendor 0x1E98 protocol 2 is CDAT Table Access (the standards' numbers; log entry 8).
(PRESUMED, log entry 8.) -/
def doeProtocol : Nat → Option (Nat × Nat)
  | 0 => some (0x0001, 0)
  | 1 => some (0x0001, 1)
  | 2 => some (0x0001, 2)
  | 3 => some (0x1E98, 2)
  | _ => none

/-- The discovery answer: vendor, protocol, next index; the index after the last is 0. -/
def doeEntry (index : Nat) : List Byte :=
  match doeProtocol index with
  | some (v, p) => leBytes 2 v ++ leBytes 1 p ++ leBytes 1 (if index < 3 then index + 1 else 0)
  | none => leBytes 2 0xFFFF ++ leBytes 2 0

/-- Meaning of DOE_DISCOVERY (R235). -/
def execDoeDiscovery (mb : Mbx) (index : Nat) (s : State) : Host.Outcome State Fault Refusal :=
  s.app ((Instr.doeDiscovery mb index).wf s.m.fam) <| Mach.dataRun fun m =>
    if m.doeOpen mb then m.portSend (mbxPort mb) (.doe mb (doeEntry index)) else m

/-- The numbers of the CDAT (Table 10.4), structure after structure: DSMAS handle, non-volatile flag, DPA base, length; DSEMTS handle and
EFI memory type, 2 for specific purpose as the standard codes it; read and write latency in ns, read and write bandwidth in MB/s.
(PRESUMED, log entry 8.) -/
def cdatNums (f : Fam) : List Nat := [0, 0, 0, extentLimit f * 2 ^ 28, 0, 2, 339, 122, 237500, 237500]

/-- Meaning of CDAT_TABLE_ACCESS (R244). -/
def execCdatTableAccess (mb : Mbx) (s : State) : Host.Outcome State Fault Refusal :=
  s.app ((Instr.cdatTableAccess mb).wf s.m.fam) <| Mach.dataRun fun m =>
    if m.doeOpen mb then m.portSend (mbxPort mb) (.doe mb (Config.stdPayload 0x2 (cdatNums m.fam))) else m

end Sys2Proof.Machine
end

