-- ==== Sys2Proof/Machine/Security.lean ====
section
/-! DEFINITION. The SPDM responder (R350 to R352), IDE keys (R353), pitch keys (R354, R355), the debug port (R363, R364). Cryptographic
outcomes are the environment's or opaque (log entry 4); response codes are the standard's (log entry 8). -/

namespace Sys2Proof.Machine

/-! ## Identity (R347) -/

/-- The order of the SM2 curve.
(PRESUMED, log entry 8.) -/
def sm2Order : Nat := 0xFFFFFFFEFFFFFFFFFFFFFFFFFFFFFFFF7203DF6B21C6052B53BBF40939D54123

/-- The identity private key: 1 + (K mod (n - 1)), K derived from SEED (R347). -/
def identityKey : Nat := 1 + Config.sm3Kdf (leBytes 32 Config.seed.toNat ++ ascii "FNC-IDENTITY") % (sm2Order - 1)

/-! ## The SPDM responder -/

/-- What the responder knows of one conversation. -/
structure SpdmCtx where
  /-- 0 nothing, 1 version, 2 capabilities, 3 algorithms agreed -/
  level : Nat
  /-- a key exchange waits for its FINISH -/
  pending : Bool
  /-- a session is up -/
  up : Bool
  /-- a further session may be formed (Table 16.3) -/
  room : Bool
  /-- the identity key is held and the debug latch is clear (R364) -/
  signs : Bool
  deriving DecidableEq, Repr

/-- What an SPDM request does to the sessions. -/
inductive SpdmEff where
  | none | opened | finished | failed | ended
  deriving DecidableEq, Repr

/-- An ERROR response with an error code.
(PRESUMED, log entry 8.) -/
def spdmErr (c : Nat) : Nat := 0x7F * 256 + c
/-- InvalidRequest -/
def spdmInvalid : Nat := spdmErr 0x01
/-- UnexpectedRequest -/
def spdmUnexpected : Nat := spdmErr 0x04
/-- Unspecified -/
def spdmUnspecified : Nat := spdmErr 0x05
/-- DecryptError -/
def spdmDecrypt : Nat := spdmErr 0x06
/-- SessionLimitExceeded -/
def spdmLimit : Nat := spdmErr 0x0A

/-- The certificate chain of a slot is not empty. Slot 0 holds the chain written at manufacture (R347). -/
def Mach.certHeld (m : Mach) (slot : Nat) : Bool := slot = 0 || (slot < 8 && (cfgVal m.fam m.dict.cfg.vals 0x6020 (slot + 1)).len ≠ 0)

/-- The part has a measurement block (Table 16.4); 0 asks for their number and 255 for all. -/
def Mach.blockHeld (m : Mach) (b : Nat) : Bool :=
  b ≤ 5 || b = 255 || (0x10 ≤ b && decide (b - 0x10 < regions m.fam) && (m.region (b - 0x10)).st ≠ .fenced)

/-- A measurement block (Table 16.4): its DMTF value type and its content. -/
def Mach.measurement (m : Mach) (b : Nat) : Nat × List Byte :=
  let img := (m.hub (m.sys.steward.getD 0)).image
  match b with
  | 1 => (0x00, leBytes 32 Config.romDigest.toNat)
  | 2 => (0x01, leBytes 32 ((img.map (·.fwDigest)).getD 0))
  | 3 => (0x07, leBytes 2 m.sec.svnFloor ++ leBytes 2 ((img.map (·.svn)).getD 0))
  | 4 => (0x03, leBytes 8 m.dict.cfg.gen ++ leBytes 32 (cfgDigest m.fam m.dict.cfg.vals))
  | 5 => (0x05, [BitVec.ofNat 8 m.sec.secstate, if m.sec.dbgOpen then 1 else 0, if m.sys.debugLatch then 1 else 0, 0])
  | b => (0x01, leBytes 32 (m.region (b - 0x10)).ucodeDigest)

/-- The measurement blocks the part has, in index order. -/
def Mach.blocks (m : Mach) : List Nat := (List.range' 1 5) ++ ((List.range (regions m.fam)).map (0x10 + ·)).filter m.blockHeld

/-- The part signs: it holds the identity key and the debug latch is clear (R364). -/
def Mach.signs (m : Mach) : Bool := m.sec.idKey.isSome && !m.sys.debugLatch

/-- The version the responder speaks: 1.3 (R350). -/
def spdmVersion : Nat := 0x13

/-- The capability flags of Table 16.3: CERT, CHAL, MEAS with signature, ENCRYPT, MAC, MUT_AUTH, KEY_EX, KEY_UPD and CHUNK.
(PRESUMED, log entry 8.) -/
def spdmFlags : Nat := 2 ^ 1 + 2 ^ 2 + 2 ^ 4 + 2 ^ 6 + 2 ^ 7 + 2 ^ 8 + 2 ^ 9 + 2 ^ 14 + 2 ^ 17

/-- CTExponent of Table 16.3: 2^16 µs. -/
def spdmCtExponent : Nat := 16

/-- The algorithms of Table 16.3: BaseAsymAlgo and ReqBaseAsymAlg, BaseHashAlgo, MeasurementHashAlgo, DHE, AEAD.
(PRESUMED, log entry 8.) -/
def spdmAlgos : List Nat := [2 ^ 9, 2 ^ 9, 2 ^ 6, 2 ^ 7, 2 ^ 6, 2 ^ 3]

/-- DataTransferSize on a DOE mailbox (Table 16.3). -/
def doeTransfer : Nat := 4096

/-- DataTransferSize on dictionary messages (Table 16.3). -/
def dictTransfer : Nat := 1280

/-- The numbers an SPDM answer carries (R350, R351), `xfer` being the DataTransferSize of its transport: the version, the capabilities, the
algorithms, the slots that hold a chain, the chain of a slot, whether measurements are signed (R364), the number of blocks, and each block
asked for with its type and content; their layout is the standard's.
(PRESUMED, log entry 8.) -/
def Mach.spdmNums (m : Mach) (xfer : Nat) : SpdmReq → List Nat
  | .getVersion => [spdmVersion]
  | .getCapabilities => [spdmCtExponent, spdmFlags, xfer]
  | .negotiate _ => spdmAlgos
  | .getDigests => (List.range 8).map fun i => if m.certHeld i then 1 else 0
  | .getCertificate s =>
    if s = 0 then Config.cert0.map (·.toNat)
    else let v := cfgVal m.fam m.dict.cfg.vals 0x6020 (s + 1)
      (leBytes v.len v.n).map (·.toNat)
  | .getMeasurements b signed =>
    let bs := if b = 255 then m.blocks else if b = 0 then [] else [b]
    bit (signed && m.signs) :: m.blocks.length :: bs.flatMap fun b => b :: (m.measurement b).1 :: (m.measurement b).2.map (·.toNat)
  | _ => []

/-- The payload of the answer to an SPDM request: none of an error. -/
def Mach.spdmBody (m : Mach) (xfer : Nat) (q : SpdmReq) (code : Nat) : List Byte :=
  if code / 256 = 0x7F then [] else Config.stdPayload (0x10000 + code) (m.spdmNums xfer q)

/-- The answer to an SPDM request: new level, response code, effect on sessions (R350, R351, R364).
(DESIGN CHOICE, log entry 4.) -/
def Mach.spdmAnswer (m : Mach) (c : SpdmCtx) (q : SpdmReq) : Nat × Nat × SpdmEff :=
  match q with
  | .getVersion => (1, 0x04, .none)
  | .getCapabilities => if c.level < 1 then (c.level, spdmUnexpected, .none) else (max c.level 2, 0x61, .none)
  | .negotiate ok =>
    if c.level < 2 then (c.level, spdmUnexpected, .none) else if ok then (3, 0x63, .none) else (c.level, spdmInvalid, .none)
  | q =>
    if c.level < 3 then (c.level, spdmUnexpected, .none)
    else
      let (code, eff) : Nat × SpdmEff :=
        match q with
        | .getDigests => (0x01, .none)
        | .getCertificate s => (if m.certHeld s then 0x02 else spdmInvalid, .none)
        | .challenge s => (if !c.signs then spdmUnspecified else if m.certHeld s then 0x03 else spdmInvalid, .none)
        | .getMeasurements b _ => (if m.blockHeld b then 0x60 else spdmInvalid, .none)
        | .keyExchange s =>
          if !c.signs then (spdmUnspecified, .none)
          else if !m.certHeld s then (spdmInvalid, .none)
          else if c.pending || !c.room then (spdmLimit, .none)
          else (0x64, .opened)
        | .finish _ ok => if !c.pending then (spdmUnexpected, .none) else if ok then (0x65, .finished) else (spdmDecrypt, .failed)
        | .keyUpdate => (if c.up then 0x69 else spdmUnexpected, .none)
        | .endSession => if c.up then (0x6C, .ended) else (spdmUnexpected, .none)
        | _ => (spdmUnexpected, .none)
      (3, code, eff)

/-- SPDM sessions in the part: those of DOE mailboxes and of clients (Table 16.3). -/
def Mach.spdmCount (m : Mach) : Nat := m.sec.spdm.length + (m.dict.clients.filter fun c => decide (4 ≤ c.2.spdm)).length

/-- The conversation of a DOE mailbox: at most 2 sessions. -/
def Mach.mbxCtx (m : Mach) (mb : Mbx) : SpdmCtx :=
  let ss := m.sec.spdm.filter fun x => x.mb = mb
  ⟨((m.sec.spdmNeg.find? fun x => x.1 = mb).map (·.2)).getD 0, ss.any fun x => !x.up, ss.any (·.up),
    decide (ss.length < 2) && decide (m.spdmCount < 64), m.signs⟩

/-- Removes the first element that satisfies `p`. -/
def eraseFirst {α : Type} (p : α → Bool) : List α → List α
  | [] => []
  | a :: t => if p a then t else a :: eraseFirst p t

/-- A mailbox's sessions after an effect. -/
def spdmApply (mb : Mbx) (l : List SpdmSess) : SpdmEff → List SpdmSess
  | .none => l
  | .opened => l ++ [⟨mb, false⟩]
  | .finished => lmod l (fun x => x.mb = mb && !x.up) fun x => { x with up := true }
  | .failed => eraseFirst (fun x => x.mb = mb && !x.up) l
  | .ended => eraseFirst (fun x => x.mb = mb && x.up) l

/-- Bytes of the one request a DOE mailbox holds (R235). -/
def doeLimit : Nat := 4096

/-- Meaning of CMA_SPDM (R235, R350); the mailbox takes no request longer than its limit. A message that meets a contained port stays with
its sender until release.
(DESIGN CHOICE, log entry 104.)
(DEDUCED, log entry 41.) -/
def execCmaSpdm (mb : Mbx) (q : SpdmIn) (s : State) : Host.Outcome State Fault Refusal :=
  s.app ((Instr.cmaSpdm mb q).wf s.m.fam) <| Mach.dataRun fun m =>
    if !m.doeOpen mb || doeLimit < q.len then m
    else
      let a := m.spdmAnswer (m.mbxCtx mb) q.req
      (m.onSec fun s => { s with spdmNeg := (s.spdmNeg.filter fun x => x.1 ≠ mb) ++ [(mb, a.1)], spdm := spdmApply mb s.spdm a.2.2 }).portSend
        (mbxPort mb) (.spdm mb a.2.1 (m.spdmBody doeTransfer q.req a.2.1))

/-! ## IDE keys (R353) -/

/-- A key message reaches port `k`'s key manager: the mailbox of its FM-owned logical device, inside a secured session; none is
established while the debug latch is set (R364), none is loaded while ZEROIZE erases (R362). -/
def Mach.keysOpen (m : Mach) (k : Nat) : Bool :=
  m.linkUp k && (m.sec.spdm.any fun x => x.mb = .fm k && x.up) && !m.sys.debugLatch && !m.sec.zeroizing

/-- A key set of a stream. -/
def IdeStream.key (x : IdeStream) (set : Nat) : Option (BitVec 256) := if set = 0 then x.key0 else x.key1

/-- A key set programmed or erased. -/
def IdeStream.setKey (x : IdeStream) (set : Nat) (v : Option (BitVec 256)) : IdeStream :=
  if set = 0 then { x with key0 := v } else { x with key1 := v }

/-- The idle key set is programmed; the set in use keeps its key. -/
def IdeStream.prog (x : IdeStream) (set : Nat) (v : BitVec 256) : IdeStream := if x.active = some set then x else x.setKey set (some v)

/-- The stream switches to a programmed set. -/
def IdeStream.go (x : IdeStream) (set : Nat) : IdeStream := if (x.key set).isSome then { x with active := some set } else x

/-- A key set stops: it is erased, and the stream ends if it was in use. -/
def IdeStream.stop (x : IdeStream) (set : Nat) : IdeStream :=
  let x := x.setKey set none
  if x.active = some set then { x with active := none } else x

/-- A stream of a port changed: CXL.mem's or the selective one. -/
def Port.onIde (p : Port) (cxl : Bool) (f : IdeStream → IdeStream) : Port :=
  if cxl then { p with ideMem := f p.ideMem } else { p with ideSel := f p.ideSel }

/-- Meaning of KEY_PROG (R353): a key set of the selective stream. -/
def execKeyProg (k set : Nat) (key : BitVec 256) (s : State) : Host.Outcome State Fault Refusal :=
  s.app ((Instr.keyProg k set key).wf s.m.fam) <| Mach.dataRun fun m =>
    if m.keysOpen k then m.onPort k fun p => p.onIde false fun x => x.prog set key else m

/-- Meaning of CXL_IDE_KEY_PROG (R353): a key set of the CXL.mem stream. -/
def execCxlIdeKeyProg (k set : Nat) (key : BitVec 256) (s : State) : Host.Outcome State Fault Refusal :=
  s.app ((Instr.cxlIdeKeyProg k set key).wf s.m.fam) <| Mach.dataRun fun m =>
    if m.keysOpen k then m.onPort k fun p => p.onIde true fun x => x.prog set key else m

/-- Traffic that waited for the port's streams goes out. -/
def Mach.idePump (m : Mach) (k : Nat) : Mach := (portFns k).foldl (fun m f => m.busOn f) (m.flushHeld k)

/-- Meaning of K_SET_GO (R353): the stream switches to a programmed set at a flit boundary. -/
def execKSetGo (k : Nat) (cxl : Bool) (set : Nat) (s : State) : Host.Outcome State Fault Refusal :=
  s.app ((Instr.kSetGo k cxl set).wf s.m.fam) <| Mach.dataRun fun m =>
    if m.keysOpen k then (m.onPort k fun p => p.onIde cxl fun x => x.go set).idePump k else m

/-- While the port needs streams that are not established it admits nothing: requests that wait for a token are discarded, as in
containment (R234, Table 10.12). -/
def Mach.ideShut (m : Mach) (k : Nat) : Mach := m.when (!m.ideOpen k) fun m => m.onPort k fun p => { p with ingress := [] }

/-- Meaning of K_SET_STOP (R353, R234). -/
def execKSetStop (k : Nat) (cxl : Bool) (set : Nat) (s : State) : Host.Outcome State Fault Refusal :=
  s.app ((Instr.kSetStop k cxl set).wf s.m.fam) <| Mach.dataRun fun m =>
    if m.keysOpen k then (m.onPort k fun p => p.onIde cxl fun x => x.stop set).ideShut k else m

/-! ## Pitch keys (R354, R355) -/

/-- The pitch key of a wrapped value for pitch `p`, if it decrypts to a proper key record (Table 16.5).
(DESIGN CHOICE, log entry 4.) -/
def Mach.unwrap (m : Mach) (p : Nat) (v : OVal) : Option (BitVec 256) :=
  if v.len ≠ 145 || !m.signs then none
  else
    match Config.sm2Decrypt (m.sec.idKey.getD 0) v.n with
    | none => none
    | some x =>
      if bits x 7 0 = 1 && bits x 15 8 = p && bits x 63 16 = 0 && bits x 127 64 = Config.serial % 2 ^ 64 then some (BitVec.ofNat 256 (bits x 383 128))
      else none

/-- The pitch has data under its key: a T2 frame, a T2-homed run, a manifest, a claim (R355). -/
def Mach.keyInUse (m : Mach) (p : Nat) : Bool :=
  m.slotsClaimed p || m.usedSlots p ≠ [] || (m.ext.exts.any fun e => e.2.pitch = p && e.2.st ≠ .free && e.2.run.isSome)
    || (m.sess.sess.any fun s => s.2.pitch = p && s.2.st ≠ .free && s.2.pieces ≠ []) || (m.sess.detached.any fun d => d.pitch = p)

/-- A refused WRAPKEY: the key held stays; KEYSTATE is 3 with one, 2 without. -/
def Mach.wrapRefused (m : Mach) (p : Nat) : Mach :=
  m.onSec fun s => { s with keystate := tput s.keystate 0 p (if m.hasKey p then 3 else 2) }

/-- WRAPKEY for pitch `p`: the state after and the reason of a refusal, 0 when accepted (R355).
(DEDUCED, log entry 59.) -/
def Mach.wrapKey (m : Mach) (p : Nat) (v : OVal) : Mach × Nat :=
  if m.cfgN (0x3000 + p) 1 ≠ 1 || m.sec.zeroizing then (m.wrapRefused p, rsRefusedState)
  else
    match m.unwrap p v with
    | none => (m.wrapRefused p, rsBadValue)
    | some k =>
      if m.hasKey p && tget m.sec.keys none p ≠ some k && m.keyInUse p then (m.wrapRefused p, rsInUse)
      else (m.onSec fun s => { s with keys := tput s.keys none p (some k), keystate := tput s.keystate 0 p 1 }, 0)

/-! ## The debug port (R363) -/

/-- DBGOPEN: ZEROIZE with FENCE, the latch, the open port; nothing where it is open.
(DEDUCED, log entry 57.) -/
def Mach.dbgOpen (m : Mach) : Mach :=
  if m.sec.dbgOpen then m
  else
    let m := m.onSec fun s => { s with applied := 2 }
    let m := (m.eraseSecrets.applyFence.raiseSec 3).log 0x0602 0 0 0 []
    let m := (m.onSys fun s => { s with debugLatch := true }).onSec fun s => { s with dbgOpen := true, zeroizing := false }
    (m.raiseSec 1).log 0x0603 0 0 0 []

end Sys2Proof.Machine
end

