-- ==== Sys2Proof/Machine/Firmware.lean ====
section
/-! DEFINITION. Firmware images and their roll (R348, R365 to R368, R399, R400). -/

namespace Sys2Proof.Machine

/-! ## Images (R348, Table 16.2) -/

/-- Bytes `a` to `a + n - 1` of an image as a little-endian number. -/
def imgField (l : List Byte) (a n : Nat) : Nat := leNat ((l.drop a).take n)

/-- A component's digest matches: entry `i` of COMP. -/
def compOk (l : List Byte) (i : Nat) : Bool :=
  let b := 0x20 + 48 * i
  (Config.sm3 ((l.drop (imgField l (b + 4) 4)).take (imgField l (b + 8) 4))).toNat = imgField l (b + 16) 32

/-- The digest that COMP gives a component of type `t` (Table 16.2). -/
def compDigest (l : List Byte) (t : Nat) : Nat :=
  match (List.range (imgField l 0x14 1)).find? fun i => imgField l (0x20 + 48 * i) 4 = t with
  | some i => imgField l (0x20 + 48 * i + 16) 32
  | none => 0

/-- What a check of a whole image finds.
(DESIGN CHOICE, log entry 4.) -/
def imgOf (l : List Byte) : ImgIn :=
  ⟨BitVec.ofNat 32 (imgField l 0 4), BitVec.ofNat 8 (imgField l 6 1), BitVec.ofNat 8 (imgField l 7 1), imgField l 8 2,
    BitVec.ofNat 32 (imgField l 0x0C 4), BitVec.ofNat 32 (imgField l 0x10 4), (Config.sm3 (l.take 0x100)).toNat, compDigest l 1, compDigest l 2,
    (List.range (imgField l 0x14 1)).all (compOk l),
    Config.sm3 ((l.drop 0x80).take 64) = Config.fwKeyHash && Config.sm2Verify (ascii "PLEWEN-FW") (imgField l 0x80 64) (Config.sm3 (l.take 0xC0)).toNat (imgField l 0xC0 64)⟩

/-- The bit of CONFIGS for a configuration. -/
def configBit : Fam → Nat
  | .f2 => 0 | .f4 => 1 | .f8 => 2 | .f16 => 3

/-- An image passes the checks of R348 on this part. -/
def Mach.imgOk (m : Mach) (i : ImgIn) : Bool :=
  i.magic = 0x4D495746 && i.configs.getLsbD (configBit m.fam) && decide (m.sec.svnFloor ≤ i.svn) && i.digestsOk && i.sigOk

/-! ## Update (R365, R400) -/

/-- A roll runs or is being undone. -/
def Mach.rollBusy (m : Mach) : Bool := m.sec.fwstate = 3 || m.sec.roll.isSome

/-- A whole image has been written to FWIMAGE. -/
def Mach.fwReceive (m : Mach) (v : OVal) : Mach × Nat :=
  if m.rollBusy then (m, rsRefusedState)
  else (m.onSec fun s => { s with fwImage := leBytes v.len v.n, fwHdr := none, fwstate := 1 }, 0)

/-- FWCMD 1: the image received is checked. -/
def Mach.fwVerify (m : Mach) : Mach × Nat :=
  if m.rollBusy || m.sec.fwImage.isEmpty then (m, rsRefusedState)
  else
    let i := imgOf m.sec.fwImage
    (m.onSec fun s => if m.imgOk i then { s with fwstate := 2, fwHdr := some i } else { s with fwstate := 4, fwHdr := none }, 0)

/-- The slot that runs: that of the steward's hub. -/
def Mach.activeSlot (m : Mach) : Nat := (m.hub (m.sys.steward.getD 0)).slot

/-- FWCMD 2: the image and the marker are written to every hub's flash and the roll starts; with a failed hub, or a write that does
not read back, FWSTATE becomes 4 (R400). -/
def Mach.fwActivate (m : Mach) (flashOk : Bool) : Mach × Nat :=
  if m.rollBusy || m.sec.fwstate ≠ 2 then (m, rsRefusedState)
  else if m.liveHubs.length ≠ hubs m.fam || !flashOk then (m.onSec fun s => { s with fwstate := 4 }, 0)
  else
    let slot := 1 - m.activeSlot
    let m := m.each (List.range (hubs m.fam)) fun m h =>
      ((m.send (.flashWr h slot)).send (.flashWr h 2)).onHub h fun x => { x with markerPos := nextMarker x.markerPos }
    let old := (m.hub (m.sys.steward.getD 0)).image
    ((m.onSec fun s => { s with fwstate := 3, fwSlot := slot, fwOld := old, rolledHubs := [], rolledRegs := [] }).rollNext, 0)

/-- FWCMD 3: an image that has not begun to roll is discarded. -/
def Mach.fwDiscard (m : Mach) : Mach × Nat :=
  if m.rollBusy then (m, rsRefusedState) else (m.onSec fun s => { s with fwstate := 0, fwImage := [], fwHdr := none }, 0)

/-- FWCMD.
(DEDUCED, log entry 58.) -/
def Mach.fwCmd (m : Mach) (n : Nat) (flashOk : Bool) : Mach × Nat :=
  match n with
  | 1 => m.fwVerify
  | 2 => m.fwActivate flashOk
  | 3 => m.fwDiscard
  | _ => (m, rsBadValue)

/-! ## The roll (R366 to R368) -/

/-- The image and slot that the present unit of the roll loads. -/
def Mach.rollImage (m : Mach) : Option ImgIn × Nat :=
  if m.sec.roll = some .revert then (m.sec.fwOld, 1 - m.sec.fwSlot) else (m.sec.fwHdr, m.sec.fwSlot)

/-- Meaning of HUB_RELOAD_READY (R366, R375): the hub's watchdog runs again and the roll moves on. -/
def execHubReloadReady (hub : Nat) (s : State) : Host.Outcome State Fault Refusal :=
  s.app ((Instr.hubReloadReady hub).wf s.m.fam) <| Mach.aliveRun fun m =>
    if m.rollUnit ≠ some (.hub hub) then m
    else
      let img := m.rollImage
      let m := m.onHub hub fun x =>
        { x with reloadAt := none, watchdogHeld := false, watchdogAt := m.cycle, image := img.1, slot := img.2 }
      let m := m.when (hubs m.fam = 1) fun m => m.onSys fun s => { s with dictDownUntil := min s.dictDownUntil m.cycle }
      m.rollAdvance (.hub hub)

/-- Meaning of MICROCODE_ROLL_DONE (R367): the region has started the microcode; it resumes at its next bell. -/
def execMicrocodeRollDone (r : Nat) (s : State) : Host.Outcome State Fault Refusal :=
  s.app ((Instr.microcodeRollDone r).wf s.m.fam) <| Mach.dataRun fun m =>
    if m.rollUnit = some (.region r) && (m.region r).rolling then
      let img := m.rollImage.1
      m.onRegion r fun g =>
        { g with rolledIn := true, ucode := (img.map (·.ucodever)).getD g.ucode, ucodeDigest := (img.map (·.ucodeDigest)).getD g.ucodeDigest }
    else m

/-- A unit that failed to change joins those that go back to the active slot. -/
def Mach.joinRoll (m : Mach) (u : Roll) : Mach :=
  m.onSec fun s =>
    match u with
    | .hub h => { s with rolledHubs := s.rolledHubs ++ [h] }
    | .region r => { s with rolledRegs := s.rolledRegs ++ [r] }
    | .revert => s

/-- Meaning of ROLL_TIMEOUT (R368, R378, Table 17.4): a hub not ready within 200 ms or a region not resumed within 1 ms stops the roll;
a unit that does not reload the active image either fails, or is fenced with MICROCODE. A fenced region is skipped.
(DEDUCED, log entry 58.) -/
def execRollTimeout (s : State) : Host.Outcome State Fault Refusal :=
  s.app (Instr.rollTimeout.wf s.m.fam) <| Mach.aliveRun fun m =>
    match m.rollUnit with
    | none => m
    | some u =>
      let late (n : Nat) : Bool := decide (m.sec.rollAt + ms n < m.cycle)
      let undo : Bool := m.sec.roll = some .revert
      match u with
      | .hub h => if !late 200 then m else if undo then (m.hubFail h).rollAdvance u else (m.joinRoll u).rollRevert
      | .region r =>
        if (m.region r).st ≠ .serving then m.rollAdvance u
        else if !late 1 then m
        else if undo then (m.fence r 7).rollAdvance u
        else (m.joinRoll u).rollRevert
      | .revert => m

end Sys2Proof.Machine
end

