-- ==== Sys2Proof/Machine/Rom.lean ====
section
/-! DEFINITION. The capability ROM (R4, R245, R246, Tables 10.5 and 10.6): its entries, directory, length and CRC. -/

namespace Sys2Proof.Machine

/-- Entry 0x0001, the service ABI versions in ascending order, minor number first. -/
def romAbi : List Byte := BitVec.ofNat 8 spoken.length :: spoken.flatMap fun v => [BitVec.ofNat 8 v.2, BitVec.ofNat 8 v.1]

/-- Entry 0x0002, the dictionary protocol versions. -/
def romDict : List Byte := [3, 1, 2, 3]

/-- Entry 0x0003, the queue limits. -/
def romQueues : List Byte :=
  leBytes 2 4096 ++ leBytes 1 64 ++ leBytes 1 4 ++ leBytes 1 16 ++ leBytes 2 256 ++ leBytes 1 64 ++ leBytes 1 16

/-- The mask of the format versions of a codec that the part decodes (R86). -/
def cfvMask (codec : Nat) : Nat := ((List.range 16).map fun v => if cfvDecoded codec v then 2 ^ v else 0).foldl (· + ·) 0

/-- Entry 0x0004, the codec format versions: a record for each codec code, all zero for the reserved ones. -/
def romCodecs : List Byte :=
  (List.range 8).flatMap fun c => if c ≤ 4 then leBytes 2 (cfvMask c) ++ leBytes 1 (cfvWritten c) ++ leBytes 1 0 else leBytes 4 0

/-- Entry 0x0005, the exponent tables of each Damask version decoded (R76). -/
def romDamask : List Byte :=
  ((List.range 16).filter (cfvDecoded 2)).flatMap fun v =>
    leBytes 1 v ++ leBytes 3 0 ++ (List.range 16).flatMap fun t => (damaskTable v t).flatMap (leBytes 2)

/-- Entry 0x0006, the Tally limits. -/
def romTally : List Byte :=
  leBytes 1 0x1F ++ leBytes 2 0x007E ++ leBytes 1 16 ++ leBytes 1 64 ++ leBytes 2 1024 ++ leBytes 4 (2 ^ 24) ++ leBytes 2 4096
    ++ leBytes 2 256 ++ leBytes 1 16 ++ leBytes 4 (2 ^ 28) ++ leBytes 4 (2 ^ 24)

/-- Entry 0x0007, the layout records. -/
def romLayouts : List Byte := leBytes 2 0x0002 ++ leBytes 2 0x007E ++ leBytes 2 1023

/-- Entry 0x0008, the session limits. -/
def romSessions : List Byte := leBytes 2 16384 ++ leBytes 1 63 ++ leBytes 2 16384 ++ leBytes 4 1048576 ++ leBytes 2 4096

/-- The entries by TYPE. -/
def romEntries : List (Nat × List Byte) :=
  [(1, romAbi), (2, romDict), (3, romQueues), (4, romCodecs), (5, romDamask), (6, romTally), (7, romLayouts), (8, romSessions)]

/-- The directory of entries whose contents follow one another from `off` on, and those contents. Table 10.5 gives the places by the
directory alone: the contents stand in the order of their TYPEs, right after it.
(DESIGN CHOICE, log entry 105.) -/
def romDir : Nat → List (Nat × List Byte) → List Byte × List Byte
  | _, [] => ([], [])
  | off, (ty, bs) :: t =>
    let r := romDir (off + bs.length) t
    (leBytes 2 ty ++ leBytes 2 0 ++ leBytes 4 off ++ leBytes 4 bs.length ++ leBytes 4 0 ++ r.1, bs ++ r.2)

/-- The ROM's bytes in use with a value of the CRC field (Table 10.5). -/
def romWith (f : Fam) (crc : Nat) : List Byte :=
  let r := romDir (32 + 16 * romEntries.length) romEntries
  leBytes 4 0x52434E46 ++ leBytes 2 1 ++ leBytes 2 romEntries.length ++ leBytes 4 (32 + r.1.length + r.2.length) ++ leBytes 4 crc
    ++ leBytes 1 (configNum f) ++ List.replicate 15 0 ++ r.1 ++ r.2

/-- The ROM's bytes in use: CRC covers them with its own field as zero (R245). -/
def romImage (f : Fam) : List Byte := romWith f (crc32c 0xFFFFFFFF (romWith f 0)).toNat

/-- Byte `off` of the 64 KiB capability ROM; past LEN it reads as zero. -/
def romByte (f : Fam) (off : Nat) : Byte := (romImage f).getD off 0

end Sys2Proof.Machine
end

