-- ==== Sys2Proof/Machine/Records.lean ====
section
/-! DEFINITION. The values of the dictionary's objects as a read finds them (Tables 09.4, 09.5, 10.8, 11.5, 12.6, 12.8, 14.1, 14.10, 15.2
to 15.12), and the records that DBGDATA returns (R345). -/

namespace Sys2Proof.Machine

/-! ## Packing -/

/-- A signed number in `w` bits. -/
def signed (w : Nat) (x : Int) : Nat := (BitVec.ofInt w x).toNat

/-- A list of numbers of `n` bytes each, as one value. -/
def packList (n : Nat) (l : List Nat) : OVal := ⟨n * l.length, leNat (l.flatMap (leBytes n))⟩

/-- STATE of a session (Table 04.1). -/
def SState.code : SState → Nat
  | .free => 0 | .active => 1 | .freezing => 2 | .parking => 3 | .parked => 4 | .resuming => 5 | .destroying => 6 | .reattaching => 7

/-- A session control record (Table 04.1). -/
def Session.pack (s : Session) : Nat :=
  packHi [(4, s.st.code), (14, s.gen), (6, s.pitch), (1, bit s.pin), (1, bit s.damaged), (1, bit s.mvalid), (5, 0), (64, s.name.toNat),
    (64, s.readers.toNat), (32, s.nextver), (6, s.versions.length), (25, s.npages), (36, s.wbase), (36, s.mbase),
    (16, s.lease), (32, min (2 ^ 32 - 1) (s.idle / ms 1)), (32, s.dmgcount), (32, s.parent), (32, s.forkver), (21, s.mloc), (32, s.mgen),
    (276, 0), (256, s.layout.toNat)]

/-- STATE of an extent (Table 07.1). -/
def ExtState.code : ExtState → Nat
  | .free => 0 | .adding => 1 | .active => 2 | .releasing => 3

/-- COH of an extent. -/
def Coh.code : Coh → Nat
  | .tracked => 0 | .readShared => 1 | .uncached => 2

/-- An extent map entry (Table 07.1). -/
def Extent.pack (x : Extent) : Nat :=
  packHi [(128, x.grant.toNat), (3, x.st.code), (2, x.coh.code), (3, x.attr.codec), (2, x.attr.efmt), (1, x.attr.vel), (1, bit x.confined),
    (4, x.home), (6, x.pitch), (3, x.cause), (103, 0)]

/-- STATE of a directory entry (Table 07.6). -/
def DirState.code : DirState → Nat
  | .invalid => 0 | .shared => 1 | .owned => 2

/-- A directory entry (Table 07.6). -/
def DirEnt.pack (d : DirEnt) : Nat :=
  packHi [(2, d.st.code), (1, bit d.recalling), (6, d.pitch), (39, d.line), (1, 0), (7, d.owner), (4, d.rorder), (68, 0), (128, d.sharers.toNat)]

/-- An event record (Table 14.11). -/
def EvRec.pack (e : EvRec) : Nat :=
  packHi [(128, e.data), (4, e.srcKind), (12, e.srcNum), (8, 0), (8, e.pitch), (8, e.cls), (8, e.sev), (16, e.code), (64, e.time), (64, e.eseq)]

/-! ## Debug records (R345) -/

/-- A move of the content is in flight. -/
def Mach.lockedAt (m : Mach) (c : CRef) : Bool := (m.region (m.crefRegion c)).moves.any fun v => v.cref = c && v.phase ≠ .planned

/-- The record DBGSEL names, if it may be read: value and length. -/
def Mach.dbgRecord (m : Mach) (sel : BitVec 64) : Option OVal :=
  let kind := bits sel.toNat 63 56
  let r := bits sel.toNat 55 52
  let i := bits sel.toNat 51 0
  let live : Bool := decide (r < regions m.fam) && (m.region r).st ≠ .fenced
  match kind with
  | 1 =>
    if decide (extOf i < extentLimit m.fam) && (m.extent (extOf i)).st ≠ .free && (m.region (m.homeOf i)).st ≠ .fenced then
      some ⟨16, (m.desc i).pack (m.lockedAt (.slot i))⟩
    else none
  | 2 =>
    if live && decide (i < poolPerRegion) then
      some ⟨16, match m.poolEnt r i with | some e => e.c.pack (m.lockedAt (.pool r i)) | none => 0⟩
    else none
  | 3 => if live && decide (i < sessPerRegion) then some ⟨128, (m.session (r * 16384 + i)).pack⟩ else none
  | 4 => if i < extentLimit m.fam then some ⟨32, (m.extent i).pack⟩ else none
  | 5 => if live && decide (i < 32768) then some ⟨32, (tget m.ext.dir {} (r * 32768 + i)).pack⟩ else none
  | 6 => if live && decide (i < patsPerRegion) then some ⟨32, (m.patWord r i).data.toNat⟩ else none
  | _ => none

/-! ## Values of RO objects -/

/-- The ordering code (Table 18.9; the code without laser modules, log entry 9).
(DESIGN CHOICE, log entry 9.) -/
def partCode : Fam → List Byte
  | .f2 => [0x46, 0x4E, 0x43, 0x2D, 0x46, 0x32, 0x2D, 0x41, 0x31]
  | .f4 => [0x46, 0x4E, 0x43, 0x2D, 0x46, 0x34, 0x2D, 0x41, 0x31]
  | .f8 => [0x46, 0x4E, 0x43, 0x2D, 0x46, 0x38, 0x2D, 0x41, 0x31]
  | .f16 => [0x46, 0x4E, 0x43, 0x2D, 0x46, 0x31, 0x36, 0x2D, 0x41, 0x31]

/-- A byte string as a value. -/
def bytesVal (l : List Byte) : OVal := ⟨l.length, leNat l⟩

/-- The part's MAC address, first byte in [47:40] (R314). -/
def macAddr : Nat := 0x02504C * 2 ^ 24 + Config.serial % 2 ^ 24

/-- Identity values (Table 15.2). -/
def Mach.valIdentity (m : Mach) (s : Nat) : Option OVal :=
  match s with
  | 2 => some (bytesVal (partCode m.fam))
  | 4 => some ⟨8, Config.serial % 2 ^ 64⟩
  | 6 => some ⟨4, (((m.hub (m.sys.steward.getD 0)).image.map fun i => i.fwver.toNat)).getD 0⟩
  | 7 => some (packList 4 ((List.range (regions m.fam)).map fun r => (m.region r).ucode.toNat))
  | 8 => some (bytesVal romAbi)
  | 0x0A => some ⟨1, m.sys.steward.getD 0⟩
  | 0x0B => some ⟨8, m.usec⟩
  | _ => none

/-- Live clients on both paths. -/
def Mach.liveClients (m : Mach) : Nat := (m.dict.clients.filter fun c => c.2.live).length

/-- Field-port values (Table 14.1). -/
def Mach.valFieldPort (m : Mach) (s : Nat) : Option OVal :=
  match s with
  | 1 => some ⟨1, m.fp.nodeid⟩
  | 6 => some ⟨8, macAddr⟩
  | 7 => some ⟨4, bit m.fp.beacons + 2 * bit (m.fp.nodeid = 0) + 256 * m.liveClients⟩
  | 8 => some ⟨4, m.fp.fperr⟩
  | _ => none

/-- Chip values (Table 15.3). -/
def Mach.valChip (m : Mach) (s : Nat) : Option OVal :=
  match s with
  | 4 => some ⟨1, bit m.sys.deficit⟩
  | 5 =>
    some (packList 4 ((List.range (hubs m.fam)).map (fun h => sigmaFix (tget m.sys.sigmaH (1, 1) h))
      ++ (List.range (regions m.fam)).flatMap fun r => [sigmaFix (tget m.sys.sigmaT0 (1, 1) r), sigmaFix (tget m.sys.sigmaT1 (1, 1) r)]))
  | 6 => some ⟨4, m.sys.phi.1 * 65536 / m.sys.phi.2⟩
  | 7 => some ⟨4, m.sys.pc1 + m.sys.pc2 * 2 ^ 8 + m.sys.pc3 * 2 ^ 16⟩
  | 8 => some ⟨4, m.sys.pkgPwr⟩
  | _ => none

/-- The areas locked now. -/
def Mach.locks (m : Mach) : BitVec 16 := m.dict.clients.foldl (fun a c => a ||| ((c.2.edit.map (·.areas)).getD 0)) 0

/-- Generation values (Table 14.10). -/
def Mach.valGen (m : Mach) (i s : Nat) : Option OVal :=
  if i = 0x2100 then
    match s with
    | 1 => some ⟨8, m.dict.cfg.gen⟩
    | 2 => some ⟨32, cfgDigest m.fam m.dict.cfg.vals⟩
    | 3 => some ⟨8, m.dict.commitTime⟩
    | 4 => some ⟨2, m.locks.toNat⟩
    | 5 => some ⟨8, m.dict.resetId⟩
    | _ => none
  else
    let g := m.region (i - 0x2110)
    match s with
    | 1 => some ⟨8, g.cfg.gen⟩
    | 2 => some ⟨32, cfgDigest m.fam g.cfg.vals⟩
    | 3 => some ⟨1, if g.st = .fenced then 2 else g.rstate⟩
    | _ => none

/-- REGSTATE -/
def RegState.code : RegState → Nat
  | .bringup => 0 | .serving => 1 | .fenced => 2 | .restarting => 3

/-- CHSTATE codes (Table 11.3). -/
def ChState.code : ChState → Nat
  | .training => 0 | .serving => 1 | .retraining => 2 | .suspended => 3 | .failed => 4 | .fenced => 5

/-- Region values (Tables 15.4 and 11.5). -/
def Mach.valRegion (m : Mach) (r s : Nat) : Option OVal :=
  let g := m.region r
  match s with
  | 0x01 => some ⟨1, g.st.code⟩
  | 0x02 => some ⟨1, g.fenceCause⟩
  | 0x04 => some ⟨2, g.quar.toNat⟩
  | 0x05 => some ⟨1, g.tableBlock⟩
  | 0x06 => some ⟨4, m.t0Cap r⟩
  | 0x07 => some ⟨8, g.bells⟩
  | 0x40 => some (packList 1 [signed 8 (m.die r 0).temp, signed 8 (m.die r 1).temp])
  | 0x45 => some ⟨4, ((List.range 8).map fun c => (m.chan r c).st.code * 16 ^ c).foldl (· + ·) 0⟩
  | 0x46 =>
    some ⟨4, bit (m.die r 0).doubled * 2 ^ 16 + bit (m.die r 1).doubled * 2 ^ 17
      + 256 * bitsOf 8 fun c => (m.chan r c).st ≠ .failed && (m.chan r c).st ≠ .fenced && decide ((m.dieOf r c).limit < (m.chan r c).owed)⟩
  | 0x47 => some ⟨4, tget m.dram.g7evt 0 r⟩
  | 0x48 => some (packList 4 ((List.range 5).map fun i => ((tget m.dram.chloss [] r)[i]?).getD 0))
  | _ => none

/-- PSTATE (Table 15.5).
(DEDUCED, log entry 84.) -/
def Mach.pstate (m : Mach) (p : Nat) : Nat :=
  if !m.svc.drained.contains p then 0
  else if m.svc.queues.any fun x => x.2.pitch = p && x.2.st = .draining then 1 else 2

/-- Pitch values (Table 15.5). -/
def Mach.valPitch (m : Mach) (p s : Nat) : Option OVal :=
  match s with
  | 0x1C => some ⟨4, (m.extentsOf p).length⟩
  | 0x1D => some ⟨1, m.pstate p⟩
  | _ => none

/-- LTSTATE codes (Table 09.5). -/
def LtState.code : LtState → Nat
  | .detect => 0 | .polling => 1 | .config => 2 | .l0 => 3 | .recovery => 4 | .disabled => 5

/-- OPTSTAT (Table 09.5). A training attempt passes from POLLING to CONFIG at a moment the spec does not give: `config` says whether it
has.
(DESIGN CHOICE, log entry 103.) -/
def Port.optstat (p : Port) (config : Bool) : Nat :=
  packHi [(16, p.rxlos.toNat), (8, p.laslos.toNat), (1, bit p.rev), (1, p.map),
    (4, if p.lt = .polling && config then LtState.config.code else p.lt.code), (8, p.rate), (5, p.width), (1, bit p.flit),
    (1, bit p.ready), (19, 0)]

/-- Port values (Tables 15.7, 10.8, 09.4). -/
def Mach.valPort (m : Mach) (k s : Nat) : Option OVal :=
  let p := m.port k
  if 0x60 ≤ s ∧ s < 0x70 then some ⟨8, m.leaseStat (16 * k + (s - 0x60))⟩
  else
    match s with
    | 0x01 => some ⟨1, bit (m.openPin k)⟩
    | 0x02 => some ⟨2, bitsOf 16 fun i => m.funcReady (16 * k + i)⟩
    | 0x13 => some ⟨2, p.pid.toNat⟩
    | 0x14 => some ⟨2, p.ltrSent.toNat⟩
    | 0x15 => some ⟨8, p.wingen⟩
    | 0x21 => some ⟨8, p.optstat (m.drawn % 2 = 1)⟩
    | 0x22 => some (packList 2 ((List.range 16).map fun i => signed 16 ((p.rxpwr[i]?).getD 0)))
    | 0x23 => some (packList 2 ((List.range 8).map fun i => signed 16 ((p.laspwr[i]?).getD 0)))
    | 0x24 => some ⟨4, p.optevt.toNat⟩
    | 0x30 => some ⟨1, bit p.contained⟩
    | 0x31 => some ⟨1, p.ccause⟩
    | _ => none

/-- Security values (Table 15.8). Index 0x6050 is both the firmware objects' and pitch 16's: its subindex 2 reads as KEYSTATE, since FWCMD
is write-only (log entry 12).
(DESIGN CHOICE, log entry 4.) -/
def Mach.valSecurity (m : Mach) (i s : Nat) : Option OVal :=
  if i = 0x6000 then (if s = 1 then some ⟨64, (Config.sm2Pub identityKey).toNat⟩ else if s = 2 then some ⟨1, m.sec.secstate⟩ else none)
  else if i = 0x6010 then (if s = 5 then some ⟨4, m.sec.alarmstat.toNat⟩ else none)
  else if i = 0x6020 then (if s = 1 then some (bytesVal Config.cert0) else none)
  else if i = 0x6050 && s = 3 then some ⟨1, m.sec.fwstate⟩
  else if decide (0x6040 < i) && decide (i < 0x6080) && s = 2 then some ⟨1, tget m.sec.keystate 0 (i - 0x6040)⟩
  else none

/-- Records as a value. -/
def recsVal (l : List EvRec) : OVal := packList 40 (l.map EvRec.pack)

/-- LOGREAD: up to 32 records from LOGSEL, or from the oldest held. -/
def Mach.logRead (m : Mach) (c : Client) : List EvRec := (m.ev.log.filter fun e => decide (c.logsel ≤ e.eseq)).take 32

/-- Log values (Table 15.9). -/
def Mach.valEvents (m : Mach) (c : Client) (i s : Nat) : Option OVal :=
  if i = 0x7000 then
    match s with
    | 1 => some ⟨8, m.ev.eseq⟩
    | 2 => some ⟨8, ((m.ev.log.head?).map (·.eseq)).getD 0⟩
    | 3 => some ⟨8, c.logsel⟩
    | 4 => some (recsVal (m.logRead c))
    | 5 => some ⟨2, m.sys.fatalCause⟩
    | _ => none
  else if decide (0x7040 < i) && decide (i < 0x7080) then
    let q := tget m.ev.pq [] (i - 0x7040)
    if s = 1 then some (recsVal (q.take 32)) else if s = 2 then some ⟨2, q.length⟩ else none
  else if i = 0x7100 then
    match s with
    | 4 => some ⟨4, m.code.lbovf⟩
    | 5 => some ⟨4, m.code.uecount⟩
    | 6 => some ⟨4, m.code.pagebad⟩
    | _ => none
  else if decide (0x7110 ≤ i) && decide (i < 0x7120) then
    (if s = 1 then some (packList 2 ((List.range 563).map fun b => tget m.code.lbRegion 0 ((i - 0x7110) * 1024 + b))) else none)
  else if i = 0x7120 then
    (if s = 1 then some (packList 2 ((List.range (segments m.fam).length).map fun g => tget m.code.lbSeg 0 g))
     else if s = 2 then some (packList 2 ((List.range (hubs m.fam)).flatMap fun h => [tget m.code.lbHub 0 h, tget m.code.lbPort 0 h]))
     else none)
  else none

/-- Descriptors of region `r` that await conversion for PUBLISH (R101, R103): private slots of sessions that are FREEZING.
(DEDUCED, log entry 84.) -/
def Mach.convBacklog (m : Mach) (r : Nat) : Nat :=
  ((m.sess.sess.filter fun s => s.2.st = .freezing).map fun s =>
    (m.mem.descs.filter fun d =>
      inPages s.2.wbase s.2.npages d.1 && m.homeOf d.1 = r && (match d.2 with | .priv _ => true | _ => false)).length).foldl (· + ·) 0

/-- Counters and gauges (Table 15.11). -/
def Mach.valCounter (m : Mach) (i s : Nat) : Option OVal :=
  if decide (0x8100 ≤ i) && decide (i < 0x8200) && decide (4 ≤ s) then
    let r := i - 0x8100
    match s with
    | 4 => some ⟨8, (m.region r).tallyQ.length⟩
    | 5 => some ⟨8, m.convBacklog r⟩
    | 6 => some ⟨8, m.freeT0 r⟩
    | _ => none
  else some ⟨8, tget m.cnt 0 (okey i s)⟩

/-- Debug and injection values (Tables 15.12 and 12.8). -/
def Mach.valDebug (m : Mach) (c : Client) (i s : Nat) : Option OVal :=
  if i = 0x9000 then (if s = 2 then some ⟨1, bit m.sec.dbgOpen⟩ else none)
  else if i = 0x9001 then (if s = 1 then some ⟨8, c.dbgsel.toNat⟩ else if s = 2 then m.dbgRecord c.dbgsel else none)
  else
    match s with
    | 1 => some ⟨1, bit m.code.injArm⟩
    | 2 => some ⟨1, m.code.injKind⟩
    | 3 => some ⟨4, m.code.injTarget.toNat⟩
    | 4 => some ⟨4, m.code.injPos.toNat⟩
    | 5 => some ⟨1, m.code.injPitch⟩
    | 6 => some ⟨2, m.code.injCount⟩
    | 7 => some ⟨4, m.code.injFired⟩
    | _ => none

/-- The value of an object that is not RWS, as the part holds it; none where it holds none.
(DEDUCED, log entry 12.) (DEDUCED, log entry 84.) -/
def Mach.liveVal (m : Mach) (c : Client) (i s : Nat) : Option OVal :=
  match areaOf i with
  | 0 => m.valIdentity s
  | 1 => m.valFieldPort s
  | 2 => m.valChip s
  | 3 => m.valGen i s
  | 4 => m.valRegion (i - 0x2200) s
  | 5 => m.valPitch (i - 0x3000) s
  | 8 => m.valPort (i - 0x5000) s
  | 10 => m.valSecurity i s
  | 11 => m.valEvents c i s
  | 12 => m.valCounter i s
  | 13 => m.valDebug c i s
  | _ => none

/-- The value of an object for a client: an RWS object's staged or committed value, a constant, or what the part holds; an object that
holds nothing for the read (DBGDATA without a record) has none. -/
def Mach.valueOf (m : Mach) (c : Client) (staged : Bool) (i s : Nat) (o : Obj) : Option OVal :=
  let own := if staged then (c.edit.bind fun e => tfind e.vals (okey i s)) else none
  match o.acc with
  | .rws => some (own.getD (cfgVal m.fam m.dict.cfg.vals i s))
  | _ => if i = 0x9001 && s = 2 then m.dbgRecord c.dbgsel else some ((m.liveVal c i s).getD o.dflt)

end Sys2Proof.Machine
end

