-- ==== Sys2Proof/Machine/Orders.lean ====
section
/-! DEFINITION. The command objects of the dictionary (R123, R161, R179 to R182, R187, R259, R261, R323, R355, R363, R365, R383): what a
command does, and the reason of one that is refused. -/

namespace Sys2Proof.Machine

/-! ## DRAIN and CLEAR (R161, R261) -/

/-- Queues of pitch `p` that are not FREE, as function and queue. -/
def Mach.queuesOf (m : Mach) (p : Nat) : List (Nat × Nat) :=
  (m.svc.queues.filter fun x => x.2.st ≠ .free && x.2.pitch = p).map fun x => (x.1 / 64, x.1 % 64)

/-- DRAIN written as 1: every ACTIVE queue of the pitch enters DRAINING. -/
def Mach.drain (m : Mach) (p : Nat) : Mach :=
  let m := m.onSvc fun s => { s with drained := s.drained.filter (· ≠ p) ++ [p] }
  m.each (m.queuesOf p) fun m x =>
    if (m.queue x.1 x.2).st = .active then (m.onQueue x.1 x.2 fun q => { q with st := .draining }).queueSettle x.1 x.2 else m

/-- DRAIN written as 0: DRAINING and DRAINED queues of the pitch are ACTIVE again. -/
def Mach.undrain (m : Mach) (p : Nat) : Mach :=
  let m := m.onSvc fun s => { s with drained := s.drained.filter (· ≠ p) }
  m.each (m.queuesOf p) fun m x =>
    let st := (m.queue x.1 x.2).st
    if st = .draining || st = .drained then m.onQueue x.1 x.2 fun q => { q with st := .active } else m

/-- What CLEAR does to a function of the pitch: lease NONE, wire de-asserted, BAR0 registers at their reset values. -/
def Mach.clearFn (m : Mach) (f : Nat) : Mach :=
  let m := m.when (m.fn f).intsent fun m => m.portSend (f / 16) (.intx f false)
  m.onFn f fun x =>
    { command := x.command, bar0 := x.bar0, romBar := x.romBar, intLine := x.intLine, ltrEnable := x.ltrEnable, dclog := x.dclog
      flrAt := x.flrAt, strayAt := x.strayAt, protAt := x.protAt }

/-- CLEAR of pitch `p`: refused while a queue of the pitch is in a state other than DRAINED and FREE.
(DEDUCED, log entry 46.) -/
def Mach.clearPitch (m : Mach) (p : Nat) : Mach × Nat :=
  let qs := m.queuesOf p
  if qs.any fun x => (m.queue x.1 x.2).st ≠ .drained then (m, rsRefusedState)
  else
    let m := m.each ((m.extentsOf p).map (·.1)) fun m e => m.releaseExtent e 4 none
    let m := m.each qs fun m x => m.loseQueue x.1 x.2
    let m := m.each (m.boundFns p) fun m f => m.clearFn f
    (m.onSvc fun s => { s with drained := s.drained.filter (· ≠ p) }, 0)

/-! ## RELEASE (R259, R378) -/

/-- RELEASE of port `k`: refused with an event where R259 does not let it, and for a failed hub. -/
def Mach.releasePort (m : Mach) (k : Nat) : Mach × Nat :=
  if (m.hub k).failed then (m, rsRefusedState)
  else if m.canRelease k then (m.uncontain k, 0)
  else (m.log 0x0409 0 3 k [(8, k)], rsRefusedState)

/-! ## RESTART (R383, Table 17.4) -/

/-- Store blocks of region `r` that are not quarantined, lowest first. -/
def Region.goodBlocks (g : Region) : List Nat := (List.range 8).filter fun b => !g.quar.getLsbD b

/-- Table 17.4 allows a restart after the region's fence cause. -/
def Region.restarts (g : Region) : Bool :=
  match g.fenceCause with
  | 2 => decide (2 ≤ g.goodBlocks.length)
  | 4 => true
  | 6 => true
  | 7 => true
  | _ => false

/-- RESTART of region `r` is accepted: fenced, allowed by its cause, swept for, its retirement discharged. -/
def Mach.canRestart (m : Mach) (r : Nat) : Bool :=
  let g := m.region r
  g.st = .fenced && g.restarts && g.sweepLeft.isEmpty
    && (match g.fenceTicket with | some t => (m.ticketAt t).isNone | none => true)

/-- The region's side of its crossings is reset (R305): flits delivered to its stop and not yet taken are lost, and their credits are
back; its leaky buckets and the readings of its dies start anew (Table 13.1). -/
def Mach.flushRegion (m : Mach) (r : Nat) : Mach :=
  let lost := m.arc.arrived.filter fun x => x.dst = stopRegion r
  let m := m.onArc fun a =>
    { a with arrived := a.arrived.filter (fun x => x.dst ≠ stopRegion r)
             used := lost.foldl (fun u x => let k := creditKey x.src x.dst x.vc; tput u 0 k (tget u 0 k - 1)) a.used }
  let m := m.onCode fun c => { c with lbRegion := without c.lbRegion 1024 r }
  m.each [0, 1] fun m d => m.onDie r d fun _ => {}

/-- RESTART: the region is RESTARTING, and every channel that is not FAILED trains (R383 steps 1 and 4). -/
def Mach.restart (m : Mach) (r : Nat) : Mach × Nat :=
  if !m.canRestart r then (m, rsRefusedState)
  else
    let m := (m.onRegion r fun g => { g with st := .restarting, fencedAt := m.cycle, fenceTicket := none }).flushRegion r
    (m.each (List.range 8) fun m c => m.onChan r c fun x =>
      if x.st = .failed then x else { st := .training, since := m.cycle }, 0)

/-! ## One command -/

/-- The port command objects (Tables 15.7, 10.8).
(DEDUCED, log entry 46.) -/
def Mach.runPort (m : Mach) (k s n : Nat) : Mach × Nat :=
  if n = 0 then (m, 0)
  else if s = 0x32 then m.releasePort k
  else (m.renewLease (16 * k + (s - 0x50)), 0)

/-- The pitch command objects (Table 15.5).
(DEDUCED, log entry 46.) -/
def Mach.runPitch (m : Mach) (p s n : Nat) : Mach × Nat :=
  match s with
  | 0x16 => if n = 0 then (m, 0) else (m.each (List.range (regions m.fam)) fun m r => m.endReattach r p, 0)
  | 0x17 => if n = 0 then (m.undrain p, 0) else if n = 1 then (m.drain p, 0) else (m, rsBadValue)
  | 0x18 => if n = 0 then (m, 0) else m.clearPitch p
  | 0x19 => m.extAdd p n
  | 0x1A => m.extRel p n
  | _ => m.extGrant p n

/-- A command object is written (R323): the state after, and the reason of a refusal, 0 when accepted. Under FENCE every command but
DBGOPEN is refused (R361). `block` tells the two objects of index 0x6050, subindex 1, apart (log entry 12).
(DEDUCED, log entry 12.) (DEDUCED, log entry 46.) -/
def Mach.runCmd (m : Mach) (i s : Nat) (v : OVal) (block flashOk : Bool) : Mach × Nat :=
  if m.sec.fenced && i ≠ 0x9000 then (m, rsRefusedState)
  else if (match objAt m.fam i s with | some o => o.ty = 1 | none => false) && decide (1 < v.n) then (m, rsBadValue)
  else
    match areaOf i with
    | 4 => if v.n = 0 then (m, 0) else m.restart (i - 0x2200)
    | 5 => m.runPitch (i - 0x3000) s v.n
    | 8 => m.runPort (i - 0x5000) s v.n
    | 10 =>
      if i = 0x6050 && s = 2 then m.fwCmd v.n flashOk
      else if i = 0x6050 && block then m.fwReceive v
      else m.wrapKey (i - 0x6040) v
    | _ => (if v.n = 0 then m else m.dbgOpen, 0)

end Sys2Proof.Machine
end

