-- ==== Sys2Proof/Machine/Commit.lean ====
section
/-! DEFINITION. COMMIT (R329 to R331, R333): the rules applied to a staged edit, the installation of a set in hubs and regions, its
completion, and what a failover makes of it. -/

namespace Sys2Proof.Machine

/-! ## Ranges (Tables 14.1, 15.3 to 15.9, 09.4, 10.8, 11.5, 12.6, 08.1) -/

/-- A power of two from `lo` to `hi`. -/
def powIn (lo hi n : Nat) : Bool := decide (lo ≤ n) && decide (n ≤ hi) && (List.range 13).any fun i => n = 2 ^ i

/-- Pitch values. -/
def rangePitch (s n : Nat) : Bool :=
  let within (a b : Nat) : Bool := decide (a ≤ n) && decide (n ≤ b)
  match s with
  | 0x02 => within 0 1
  | 0x09 => within 1 3600
  | 0x0A => within 1 3600
  | 0x0B => within 1 4096
  | 0x0C => within 1 255
  | 0x0D => n = 0 || within 100 65535000
  | 0x0E => n = 0 || within 100 65535000
  | 0x0F => n = 0 || within 100 65535000
  | 0x10 => within 0 2
  | 0x11 => within 0 4
  | 0x13 => within 100 60000
  | 0x14 => within 0 64
  | 0x15 => within 1000 600000
  | _ => true

/-- Port values. -/
def rangePort (s n : Nat) : Bool :=
  let within (a b : Nat) : Bool := decide (a ≤ n) && decide (n ≤ b)
  match s with
  | 0x10 => within 256 16384
  | 0x12 => within 50 64000
  | 0x20 => within 0 1
  | 0x11 => true
  | _ => within 0 63

/-- A value keeps its object's own range.
(PRESUMED, log entry 50.) -/
def rangeOk (f : Fam) (i s : Nat) (v : OVal) : Bool :=
  let n := v.n
  let within (a b : Nat) : Bool := decide (a ≤ n) && decide (n ≤ b)
  if (match objAt f i s with | some o => o.ty = 1 | none => false) && decide (1 < n) then false
  else
    match areaOf i with
    | 1 => (match s with | 2 => within 1024 65535 | 3 => within 2 64 | 4 => within 1 600 | _ => within 1 3600)
    | 2 => (match s with | 1 => within 0 2 | 2 => within (capMin f) (tdp f) | _ => n = 0 || powIn 8 256 n)
    | 4 => (match s with | 0x41 => within 75 95 | 0x42 => within 2 10 | 0x43 => within 2048 32768 | _ => powIn 64 4096 n)
    | 5 => rangePitch s n
    | 6 => (match s with | 2 => within 0 254 | 3 => n = 0 || powIn 1 256 n | 4 => within 0 3 | 0x10 => within 64 4096 | _ => true)
    | 8 => rangePort s n
    | 10 => if i = 0x6010 then within 0 2 else if i = 0x6030 then v.len = 0 || v.len = 64 else true
    | 11 => (match s with | 1 => within 8 4096 | 2 => within 1 4096 | _ => within 10 1000000)
    | _ => true

/-! ## Rules on combined values and on the state they govern -/

/-- A refusal: reason, index, subindex. -/
abbrev Bad := Nat × Nat × Nat

/-- The machine with an edit's values laid over those in force (R329). -/
def Mach.overlay (m : Mach) (e : Edit) : Mach :=
  m.onDict fun d => { d with cfg := { d.cfg with vals := cfgOver m.fam d.cfg.vals e.vals } }

/-- FOLDCAP: every cap lies from 1 to the default version of its codec, caps of reserved codes are 0 (R87). -/
def foldcapOk (n : Nat) : Bool :=
  (List.range 8).all fun c =>
    let b := bits n (8 * c + 7) (8 * c)
    let top := ([1, 2, 2, 1, 1][c]?).getD 0
    if c < 5 then decide (1 ≤ b) && decide (b ≤ top) else b = 0

/-- Pitches (Table 15.5, R31, R42, R87): `m` in force, `n` with the edit laid over. -/
def Mach.pitchRules (m n : Mach) : Option Bad :=
  ((List.range 63).map (0x3001 + ·)).findSome? fun i =>
    let p := i - 0x3000
    let held : Bool := m.extentsOf p ≠ []
    if m.cfgN i 1 = 1 && n.cfgN i 1 = 0 &&
        (held || m.queuesOf p ≠ [] || (List.range (functions m.fam)).any fun f => n.boundPitch f = p) then some (rsInUse, i, 1)
    else if m.cfgN i 2 ≠ n.cfgN i 2 && held then some (rsInUse, i, 2)
    else if n.cfgN i 8 ≠ n.cfgN i 7 then some (rsBadValue, i, 8)
    else if !foldcapOk (n.cfgN i 0x12) then some (rsBadValue, i, 0x12)
    else none

/-- L < U, and a decay interval of at least 64 µs, for every configured pitch (R55, R340). -/
def Mach.tierRules (n : Mach) : Option Bad :=
  n.pitches.findSome? fun p =>
    let t := tierVal n.fam n.dict.cfg.vals p
    if t 1 ≤ t 2 then some (rsBadValue, 0x4000 + p, 2)
    else if t 3 * bellUs n.fam n.dict.cfg.vals < 64 then some (rsBadValue, 0x4000 + p, 3)
    else none

/-- Pitch `p` has a frame, a run, a manifest or a claim in its far window `w` (R256). -/
def Mach.winBusy (m : Mach) (p w : Nat) : Bool :=
  m.slotsClaimed p || (m.usedSlots p).any (fun x => x.1 = w) || (m.areaUsed p).any fun x => x.1 = w

/-- Far windows that are invalidated or moved while in use (R256). -/
def Mach.farRules (m n : Mach) (e : Edit) : Option Bad :=
  (e.vals.filter fun x => areaOf (x.1 / 256) = 7).findSome? fun x =>
    let p := x.1 / 256 - 0x4100
    let w := x.1 % 256 - 1
    let old := winOf m.fam m.dict.cfg.vals p w
    let new := winOf n.fam n.dict.cfg.vals p w
    if old.valid && (!new.valid || old.fbase ≠ new.fbase || old.dpid ≠ new.dpid) && m.winBusy p w then some (rsInUse, x.1 / 256, w + 1)
    else none

/-- SVCTAGS against TAGLIMIT (Table 10.8), and bindings (R341). -/
def Mach.portRules (m n : Mach) : Option Bad :=
  ((List.range (hubs m.fam)).map (0x5000 + ·)).findSome? fun i =>
    let t := n.cfgN i 0x11
    if t < 64 || n.cfgN i 0x10 < t + 64 then some (rsBadValue, i, 0x11)
    else
      (List.range 16).findSome? fun l =>
        let f := 16 * (i - 0x5000) + l
        let p := n.cfgN i (0x40 + l)
        if p ≠ 0 && n.cfgN (0x3000 + p) 1 = 0 then some (rsBadValue, i, 0x40 + l)
        else if p ≠ m.cfgN i (0x40 + l) &&
            (m.heldBy f ≠ [] || (m.fn f).lease ≠ .none || (List.range 64).any fun q => (m.queue f q).st ≠ .free) then
          some (rsInUse, i, 0x40 + l)
        else none

/-- Peer window `j`. -/
def Mach.peerAt (n : Mach) (j : Nat) : PeerWin := peerWin (n.cfgN (0x5100 + j) 1)

/-- BASE and TBASE are aligned to the window's size, valid or not (R254). -/
def PeerWin.aligned (w : PeerWin) : Bool := w.base * 4096 % 2 ^ w.log2 = 0 && w.tbase * 4096 % 2 ^ w.log2 = 0

/-- A window's own rules (Table 10.9, R254): size and pitch of one that is valid, alignment of any. -/
def PeerWin.ok (w : PeerWin) : Bool :=
  w.aligned && (!w.valid || (decide (12 ≤ w.log2) && decide (w.log2 ≤ 52) && decide (1 ≤ w.pitch)))

/-- Two windows share a pitch and a port bit and overlap. -/
def PeerWin.clash (v w : PeerWin) : Bool :=
  v.pitch = w.pitch && ((List.range 8).any fun k => hasBit v.ports k && hasBit w.ports k)
    && decide (v.base * 4096 < w.base * 4096 + 2 ^ w.log2) && decide (w.base * 4096 < v.base * 4096 + 2 ^ v.log2)

/-- Peer windows (R254). -/
def Mach.peerRules (n : Mach) : Option Bad :=
  let ws := (List.range 64).map fun j => (j, n.peerAt j)
  ws.findSome? fun x =>
    if !x.2.ok || (x.2.valid && ws.any fun y => y.2.valid && decide (y.1 < x.1) && y.2.clash x.2) then some (rsBadValue, 0x5100 + x.1, 1) else none

/-- R210 (OVERBOOKED). -/
def Mach.admitRules (n : Mach) : Option Bad := n.overbooked.map fun x => (rsOverbooked, x.1, x.2)

/-- The first rule that refuses an edit (R329 step 2): ranges in ascending order, then the rules of each area in ascending order, then
admission.
(DEDUCED, log entry 45.) -/
def Mach.commitBad (m : Mach) (e : Edit) : Option Bad :=
  let n := m.overlay e
  let range := e.vals.findSome? fun x => if rangeOk m.fam (x.1 / 256) (x.1 % 256) x.2 then none else some (rsBadValue, x.1 / 256, x.1 % 256)
  range <|> m.pitchRules n <|> n.tierRules <|> m.farRules n e <|> m.portRules n <|> n.peerRules <|> n.admitRules

/-! ## Installation (R330) -/

/-- A commit that passes its checks: the generation advances, the set goes out to every hub and every region in service; keys of pitches
whose CONFIGURED it clears are erased (R355).
(DEDUCED, log entry 45.) -/
def Mach.startCommit (m : Mach) (c seq : Nat) (e : Edit) : Mach :=
  let n := m.overlay e
  let gone := m.pitches.filter fun p => n.cfgN (0x3000 + p) 1 = 0
  let set : CfgSet := ⟨m.dict.cfg.gen + 1, n.dict.cfg.vals⟩
  let m := m.onSec fun s => { s with keys := gone.foldl tdel s.keys, keystate := gone.foldl tdel s.keystate }
  let m := m.onDict fun d =>
    { d with cfg := set, commitTime := m.usec
             inst := some ⟨m.liveHubs, m.serving, set, c, seq, m.cycle, d.cfg, d.commitTime⟩ }
  m.each m.serving fun m r => m.onRegion r fun g => { g with rstate := 1 }

/-- The buckets of the pitches bound at a hub under its installed set: those newly bound are full, none holds more than its burst depth
(R202).
(DEDUCED, log entry 72.) -/
def Hub.rebind (x : Hub) (ps : List Nat) (burst : Nat → Nat) : Hub :=
  let fill (t : Tab Bucket) : Tab Bucket :=
    ps.foldl (fun a p =>
      let b := if x.bound.contains p then tget t {} p else { tok := burst p * oneTok }
      tput a {} p { b with tok := min b.tok (burst p * oneTok) }) []
  { x with bound := ps, guar := fill x.guar, ceil := fill x.ceil }

/-- The pitches bound to functions of hub `h` under its installed set, in rising order. -/
def Mach.hubBound (m : Mach) (h : Nat) : List Nat :=
  (List.range 64).filter fun p => p ≠ 0 && (portFns h).any fun f => m.pitchOf f = p

/-- Hub `h` installs a set: bindings, windows and WINGEN (R257), a due LTR message (R253), what waited for IDEREQ (R234). -/
def Mach.installHub (m : Mach) (h : Nat) (set : CfgSet) : Mach :=
  let t := m.ltrTarget h
  let m := m.onHub h fun x => { x with cfg := set }
  let m := m.onHub h fun x => x.rebind (m.hubBound h) fun p => m.hubN h (0x3000 + p) 0x0B
  let due : Bool := m.ltrTarget h ≠ t
  let m := m.onPort h fun p => { p with wingen := set.gen, ltrDue := p.ltrDue || due }
  ((m.ideShut h).idePump h).flushIngress

/-- Credit counts stand when weights change (R206): the amounts below the caps follow. -/
def Mach.reweigh (m : Mach) (r : Nat) (set : CfgSet) : Mach :=
  let ps := ((List.range 63).map (· + 1)).filter fun p => m.regN r (0x3000 + p) 0x0C ≠ Machine.cfgN m.fam set.vals (0x3000 + p) 0x0C
  m.each ((List.range 12).flatMap fun b => ps.map fun p => (b, p)) fun m x =>
    let d : Int := 32 * (Machine.cfgN m.fam set.vals (0x3000 + x.2) 0x0C : Int) - 32 * (m.regN r (0x3000 + x.2) 0x0C : Int)
    m.onRegion r fun g => { g with spent := tput g.spent 0 (x.1 * 64 + x.2) (tget g.spent 0 (x.1 * 64 + x.2) + d) }

/-- The reattach periods that a set begins in region `r`: those of pitches with a first far window, from hub cycle `at_` (R123). -/
def Mach.beginReattach (m : Mach) (r at_ : Nat) : Mach :=
  let ps := ((List.range 63).map (· + 1)).filter fun p =>
    winsOf m.fam (m.region r).cfg.vals p ≠ [] && !(m.region r).reattachBegan.contains p
  m.onRegion r fun g =>
    { g with reattach := ps.foldl (fun t p => tput t none p (some at_)) g.reattach, reattachBegan := g.reattachBegan ++ ps }

/-- The averages whose target a set changes begin again at zero (R207). -/
def Mach.newTargets (m : Mach) (r : Nat) (set : CfgSet) : Mach :=
  let same (p c : Nat) : Bool := m.regN r (0x3000 + p) (tgtSub c) = Machine.cfgN m.fam set.vals (0x3000 + p) (tgtSub c)
  m.onRegion r fun g => { g with avg := g.avg.filter fun x => same (x.1 / 3) (x.1 % 3) }

/-- Region `r` installs a set. -/
def Mach.installRegion (m : Mach) (r : Nat) (set : CfgSet) (at_ : Nat) : Mach :=
  (((m.reweigh r set).newTargets r set).onRegion r fun g => { g with cfg := set, rstate := 0 }).beginReattach r at_

/-- Meaning of CONFIG_INSTALL (R330 step 3): a hub or a region that has still to install the set of the running commit does so. -/
def execConfigInstall (hub : Bool) (u : Nat) (s : State) : Host.Outcome State Fault Refusal :=
  s.app ((Instr.configInstall hub u).wf s.m.fam) <| Mach.aliveRun fun m =>
    match m.dict.inst with
    | none => m
    | some i =>
      if hub then
        (if i.hubs.contains u then
          (m.installHub u i.set).onDict fun d => { d with inst := some { i with hubs := i.hubs.filter (· ≠ u) } }
        else m)
      else if i.regions.contains u then
        (m.installRegion u i.set i.at_).onDict fun d => { d with inst := some { i with regions := i.regions.filter (· ≠ u) } }
      else m

/-- A commit has completed: its event, and every σ from the values committed (R212).
(DEDUCED, log entry 45.) -/
def Mach.committed (m : Mach) (gen : Nat) : Mach := (m.log 0x0701 0 0 0 [(64, gen)]).derate

/-- A commit that a new steward finds unfinished (R331): it completes whole when a live hub or a region in service holds the new generation,
and is lost otherwise. -/
def Mach.resolveInst (m : Mach) : Mach :=
  match m.dict.inst with
  | none => m
  | some i =>
    let m := m.onDict fun d => { d with inst := none }
    if (m.liveHubs.any fun h => (m.hub h).cfg.gen = i.set.gen) || m.serving.any fun r => (m.region r).cfg.gen = i.set.gen then
      let m := m.each (m.liveHubs.filter fun h => (m.hub h).cfg.gen ≠ i.set.gen) fun m h => m.installHub h i.set
      let m := m.each (m.serving.filter fun r => (m.region r).cfg.gen ≠ i.set.gen) fun m r => m.installRegion r i.set i.at_
      m.committed i.set.gen
    else
      let m := m.onDict fun d => { d with cfg := i.prev, commitTime := i.prevTime }
      m.each m.serving fun m r => m.onRegion r fun g => { g with rstate := 0 }

/-! ## Digests (R333) -/

/-- Meaning of DIGEST_RECHECK (R333): each second, and when the word code flags a word of the copy. A copy that differs, which only
a flagged word makes it do, is fetched again: the event, RSTATE 3 until the set in force is installed, then RSTATE 0.
(DEDUCED, log entry 82.) -/
def execDigestRecheck (r : Nat) (flagged : Bool) (s : State) : Host.Outcome State Fault Refusal :=
  s.app ((Instr.digestRecheck r flagged).wf s.m.fam) <| Mach.aliveRun fun m =>
    let g := m.region r
    if g.st ≠ .serving || (!flagged && decide (m.cycle < g.digestAt + ms 1000)) then m
    else
      let m := m.onRegion r fun g => { g with digestAt := m.cycle }
      let m := m.when flagged fun m => (m.log 0x0702 0 1 r [(8, r)]).onRegion r fun g => { g with rstate := 3 }
      if (m.region r).rstate ≠ 3 || m.sys.steward.isNone then m
      else
        match m.dict.inst with
        | some i => if i.regions.contains r then m else m.installRegion r i.set i.at_
        | none => m.installRegion r m.dict.cfg m.cycle

end Sys2Proof.Machine
end

