-- ==== Sys2Proof/Machine/Dict.lean ====
section
/-! DEFINITION. The dictionary protocol (R315 to R336): paths, clients, the checks of a request, reading, writing, block transfers, staged
edits, subscriptions, SPDM; and its message, timeout and in-band commands. -/

namespace Sys2Proof.Machine

/-! ## Status codes (Table 14.4) -/

/-- BAD_MESSAGE -/
def dsBadMessage : Nat := 0x01
/-- BAD_VERSION -/
def dsBadVersion : Nat := 0x02
/-- BAD_TYPE -/
def dsBadType : Nat := 0x03
/-- NO_CLIENT -/
def dsNoClient : Nat := 0x04
/-- FULL -/
def dsFull : Nat := 0x05
/-- NO_OBJECT -/
def dsNoObject : Nat := 0x06
/-- TYPE_MISMATCH -/
def dsTypeMismatch : Nat := 0x07
/-- ACCESS -/
def dsAccess : Nat := 0x08
/-- NOT_STAGED -/
def dsNotStaged : Nat := 0x09
/-- LOCKED -/
def dsLocked : Nat := 0x0A
/-- NO_EDIT -/
def dsNoEdit : Nat := 0x0B
/-- EDIT_FULL -/
def dsEditFull : Nat := 0x0C
/-- AUTH_REQUIRED -/
def dsAuthRequired : Nat := 0x0D
/-- REFUSED -/
def dsRefused : Nat := 0x0E
/-- NOT_SENT -/
def dsNotSent : Nat := 0x0F
/-- NOT_DONE -/
def dsNotDone : Nat := 0x10
/-- USE_BLOCK -/
def dsUseBlock : Nat := 0x11
/-- BAD_OFFSET -/
def dsBadOffset : Nat := 0x12

/-! ## Paths (R312, R314, R319, R336) -/

/-- The path of a sender carries messages: the field port with its address on a live H0, or a port's mailbox.
(DEDUCED, log entry 42.) -/
def Mach.pathOpen (m : Mach) : Src → Bool
  | .udp _ _ => m.fp.addrOk && !(m.hub 0).failed
  | .inband k => decide (k < hubs m.fam) && m.linkUp k

/-- The dictionary is in service: a steward holds the role and no handover is under way (R319).
(DEDUCED, log entry 42.) -/
def Mach.dictUp (m : Mach) : Bool := m.sys.phase = .active && m.sys.steward.isSome && decide (m.sys.dictDownUntil ≤ m.cycle)

/-- A reply goes to its sender. -/
def Mach.dictSend (m : Mach) (dst : Src) (r : DReply) : Mach :=
  match dst with
  | .udp _ _ => if m.pathOpen dst then m.send (.dict dst r) else m
  | .inband k => m.portSend k (.dict dst r)

/-- No reply: over a mailbox, success with an empty payload (R336). -/
def Mach.noReply (m : Mach) : Src → Mach
  | .udp _ _ => m
  | .inband k => m.fmBox k mbSuccess []

/-- A frame that the field port discards counts in FPERR, saturating (R313, R314). -/
def Mach.fpDrop (m : Mach) : Mach :=
  if (m.hub 0).failed then m else m.onFp fun p => { p with fperr := satAdd (2 ^ 32 - 1) p.fperr 1 }

/-- A request reaches the dictionary, or finds it out of service: no answer over the field port, Busy in a mailbox (R319). A field port
without its address discards datagrams (R314). -/
def Mach.atDict (m : Mach) (src : Src) (f : Mach → Mach) : Mach :=
  if !m.pathOpen src then (match src with | .udp _ _ => m.fpDrop | .inband _ => m)
  else if m.dictUp then f m
  else match src with
    | .udp _ _ => m
    | .inband k => m.fmBox k mbBusy []

/-! ## Clients (R316 to R318) -/

/-- TYPE of a message and the version it is defined from (Table 14.3). -/
def msgType : DMsg → Nat × Nat
  | .hello _ _ _ => (0x01, 1)
  | .read _ _ => (0x02, 1)
  | .write _ => (0x03, 1)
  | .readBlock _ _ _ _ _ => (0x04, 2)
  | .writeBlock _ _ _ _ _ _ _ => (0x05, 2)
  | .stage _ => (0x06, 1)
  | .commit _ => (0x07, 1)
  | .abort => (0x08, 1)
  | .subscribe _ _ _ => (0x09, 2)
  | .spdm _ => (0x0A, 3)
  | .bye => (0x0D, 1)

/-- The answer to a client's request: kept for a repeat of its SEQ, and sent, while the client lives. -/
def Mach.dictAnswer (m : Mach) (h : MHdr) (sec : Bool) (r : DReply) : Mach :=
  let c := m.client h.client
  if !c.live || c.src ≠ h.src then m
  else
    let r := { r with client := h.client, ver := c.v, seq := h.seq, secured := sec }
    (m.onClient h.client fun c => { c with reply := some r }).dictSend h.src r

/-- The answer to a command object, which goes out also where the command has ended its client: DBGOPEN erases every session
secret and is answered once the port is open (R362, R363).
(DEDUCED, log entry 57.) -/
def Mach.orderAnswer (m : Mach) (h : MHdr) (sec : Bool) (v : Nat) (r : DReply) : Mach :=
  if (m.client h.client).live then m.dictAnswer h sec r
  else m.dictSend h.src { r with client := h.client, ver := v, seq := h.seq, secured := sec }

/-- A client ends: its edit, locks, subscription, buffers and waiting requests go with it. -/
def Mach.endClient (m : Mach) (c : Nat) : Mach :=
  m.onDict fun d => { d with clients := tdel d.clients c, waiting := d.waiting.filter fun w => w.h.client ≠ c }

/-- A message of a client restarts its timeout and its edit's. -/
def Mach.touch (m : Mach) (c : Nat) : Mach :=
  m.onClient c fun x => { x with at_ := m.cycle, edit := x.edit.map fun e => { e with at_ := m.cycle } }

/-- HELLO (R316). -/
def Mach.helloMsg (m : Mach) (h : MHdr) (vmin vmax : Nat) (probe : Bool) : Mach :=
  let v := min vmax 3
  let r : DReply := { ty := 0x01, ver := h.ver, seq := h.seq }
  let body (v : Nat) : DBody :=
    .hello v m.fp.nodeid (configNum m.fam) 1280 (m.cfgN 0x1100 4) m.dict.resetId m.dict.cfg.gen (v = 1)
  if h.client ≠ 0 then m.dictSend h.src { r with status := dsBadMessage, client := h.client }
  else if v < 1 || v < vmin then m.dictSend h.src { r with status := dsBadVersion }
  else if probe then m.dictSend h.src { r with ver := v, body := body v }
  else if 16 ≤ m.liveClients then m.dictSend h.src { r with status := dsFull }
  else
    match pickFree (fun i => (m.client (i + 1)).live) 65535 m.dict.clients.length m.drawn with
    | none => m.dictSend h.src { r with status := dsFull }
    | some i =>
      let c := i + 1
      let r := { r with client := c, ver := v, body := body v }
      ((m.redraw).onClient c fun _ =>
        { live := true, src := h.src, v := v, lastSeq := some h.seq, reply := some r, at_ := m.cycle }).dictSend h.src r

/-! ## READ (R322) -/

/-- Bytes of a value padded to a multiple of 4. -/
def pad4 (n : Nat) : Nat := (n + 3) / 4 * 4

/-- A value of up to 64 bytes, or of a fixed-length type, is returned in an entry; a longer one answers USE_BLOCK with its length. -/
def Mach.readEntry (m : Mach) (c : Client) (staged : Bool) (i s : Nat) : REntry :=
  match objAt m.fam i s with
  | none => ⟨i, s, dsNoObject, 0, 0, ⟨0, 0⟩⟩
  | some o =>
    if o.acc = .cmd && !(i = 0x6050 && s = 2) then ⟨i, s, dsAccess, o.ty, 0, ⟨0, 0⟩⟩
    else
      match m.valueOf c staged i s o with
      | none => ⟨i, s, dsNoObject, o.ty, 0, ⟨0, 0⟩⟩
      | some v => if 64 < v.len then ⟨i, s, dsUseBlock, o.ty, v.len, ⟨0, 0⟩⟩ else ⟨i, s, 0, o.ty, v.len, v⟩

/-- EQREAD of a pitch. -/
def isEqread (i s : Nat) : Bool := decide (0x7040 < i) && decide (i < 0x7080) && s = 1

/-- Reading EQREAD removes the records it returns (R342).
(DEDUCED, log entry 47.) -/
def Mach.takeEvents (m : Mach) (i s : Nat) : Mach :=
  if isEqread i s then m.onEv fun v => { v with pq := tput v.pq [] (i - 0x7040) ((tget v.pq [] (i - 0x7040)).drop 32) } else m

/-- The entries of a READ reply, `used` bytes of it being filled. -/
def Mach.readAll (m : Mach) (c : Nat) (staged : Bool) : List (Nat × Nat) → Nat → Mach × List REntry
  | [], _ => (m, [])
  | (i, s) :: t, used =>
    let e := m.readEntry (m.client c) staged i s
    let n := 8 + pad4 e.val.len
    if 1280 < used + n + 8 * t.length then (m, ((i, s) :: t).map fun x => ⟨x.1, x.2, dsNotSent, 0, 0, ⟨0, 0⟩⟩)
    else
      let x := Mach.readAll (if e.status = 0 then m.takeEvents i s else m) c staged t (used + n)
      (x.1, e :: x.2)

/-! ## WRITE (R323, R327) -/

/-- A value's bytes as its length holds them. -/
def normVal (v : OVal) : OVal := ⟨v.len, v.n % 256 ^ v.len⟩

/-- A staged value without the reserved bits of its object, which are ignored and read zero (R11): [73:1] of a far window (Table 10.10),
[55:1] of a peer window (Table 10.9). -/
def stagedVal (i : Nat) (v : OVal) : OVal :=
  let v := normVal v
  if 0x4100 < i ∧ i < 0x4140 then ⟨v.len, v.n / 2 ^ 74 * 2 ^ 74 + v.n % 2⟩
  else if 0x5100 ≤ i ∧ i < 0x5140 then ⟨v.len, v.n / 2 ^ 56 * 2 ^ 56 + v.n % 2⟩
  else v

/-- A client may write an object of an area that needs authentication: authenticated, and a provisioning client the anchors only
(R320, R352). -/
def Client.mayWrite (c : Client) (i : Nat) : Bool := !authArea (areaOf i) || (c.auth && (!c.prov || i = 0x6030))

/-- The checks of one entry in order: existence, type and length, access, authentication, NOT_STAGED or LOCKED; 0 when all pass.
(DEDUCED, log entry 44.) -/
def Mach.writeCheck (m : Mach) (c : Client) (block : Bool) (e : WEntry) : Nat :=
  match objAt m.fam e.index e.sub with
  | none => dsNoObject
  | some o =>
    let hi := if e.index = 0x6050 && e.sub = 1 && !block then 256 else o.hi
    if e.ty ≠ o.ty || decide (e.val.len < o.lo) || decide (hi < e.val.len) then dsTypeMismatch
    else if o.acc = .ro || o.acc = .const then dsAccess
    else if !c.mayWrite e.index then dsAuthRequired
    else if o.acc = .rws then
      (match c.edit with
      | none => dsNotStaged
      | some d => if d.areas.getLsbD (areaOf e.index) then 0 else dsLocked)
    else 0

/-- Access of an entry's object. -/
def Mach.accOf (m : Mach) (e : WEntry) : Option Acc := (objAt m.fam e.index e.sub).map (·.acc)

/-- The edit with the staged entries of a WRITE. -/
def Mach.staged (m : Mach) (d : Edit) (es : List WEntry) : Edit :=
  { d with vals := es.foldl (fun t e => if m.accOf e = some .rws && e.index ≠ 0x3000 then tins t (okey e.index e.sub) (stagedVal e.index e.val) else t) d.vals }

/-- The edit's limits hold (R327): 8,192 values, 256 KiB of value bytes. -/
def Edit.fits (d : Edit) : Bool := decide (d.vals.length ≤ 8192) && decide ((d.vals.map (·.2.len)).foldl (· + ·) 0 ≤ 262144)

/-- A write of an injection object (Table 12.8, R296). -/
def Code.inject (c : Code) (s n : Nat) : Code :=
  match s with
  | 1 => { c with injArm := n = 1 && injMatches c.injKind (bits c.injTarget.toNat 31 28) }
  | 2 => { c with injKind := n }
  | 3 => { c with injTarget := BitVec.ofNat 32 n }
  | 4 => { c with injPos := BitVec.ofNat 32 n }
  | 5 => { c with injPitch := n }
  | _ => { c with injCount := n }

/-- An RW object takes a value at once. -/
def Mach.putRw (m : Mach) (c i s n : Nat) : Mach :=
  if i = 0x7000 then m.onClient c fun x => { x with logsel := n }
  else if i = 0x9001 then m.onClient c fun x => { x with dbgsel := BitVec.ofNat 64 n }
  else if i = 0x9010 then m.onCode fun x => x.inject s n
  else m.setCount i s n

/-- A W1C object: the bits written as one are cleared, but for those set in the same hub cycle (R310); DEFICIT only while no σ is below
1 (R213). -/
def Mach.clearW1c (m : Mach) (i s n : Nat) : Mach :=
  let n := (m.clearing (okey i s) (BitVec.ofNat 64 n)).toNat
  match areaOf i with
  | 2 =>
    if n % 2 = 1 && m.sys.sigmaH.isEmpty && m.sys.sigmaT0.isEmpty && m.sys.sigmaT1.isEmpty then m.onSys fun s => { s with deficit := false }
    else m
  | 4 => m.onDram fun d =>
      { d with g7evt := tput d.g7evt 0 (i - 0x2200) (BitVec.ofNat 32 (tget d.g7evt 0 (i - 0x2200)) &&& ~~~(BitVec.ofNat 32 n)).toNat }
  | 8 => m.onPort (i - 0x5000) fun p => { p with optevt := p.optevt &&& ~~~(BitVec.ofNat 4 n) }
  | 10 => m.onSec fun s => { s with alarmstat := s.alarmstat &&& ~~~(BitVec.ofNat 4 n) }
  | _ => m

/-- An RW or W1C entry is applied. -/
def Mach.applyEntry (m : Mach) (c : Nat) (e : WEntry) : Mach :=
  match m.accOf e with
  | some .rw => m.putRw c e.index e.sub (normVal e.val).n
  | some .w1c => m.clearW1c e.index e.sub (normVal e.val).n
  | _ => m

/-- The reply entry of a written object. -/
def entryReply (e : WEntry) (status : Nat) : REntry := ⟨e.index, e.sub, status, 0, 0, ⟨0, 0⟩⟩

/-- The reply of a WRITE: an entry for each, or none for a block. -/
def wReply (ty : Nat) (block : Bool) (status : Nat) (es : List REntry) : DReply :=
  { ty := ty, status := status, body := if block then .none else .entries es }

/-- Some entry of a WRITE is staged. -/
def Mach.stages (m : Mach) (es : List WEntry) : Bool := es.any fun e => m.accOf e = some .rws

/-- A WRITE without a command object, all of whose checks have passed. -/
def Mach.writePlain (m : Mach) (h : MHdr) (sec : Bool) (ty : Nat) (block : Bool) (es : List WEntry) : Mach :=
  let edit := (m.client h.client).edit.map fun d => m.staged d es
  if m.stages es && (match edit with | some d => !d.fits | none => false) then
    m.dictAnswer h sec (wReply ty block dsEditFull (es.map fun e => entryReply e (if m.accOf e = some .rws then dsEditFull else dsNotDone)))
  else
    let m := m.when (m.stages es) fun m => m.onClient h.client fun x => { x with edit := edit }
    (m.each es fun m e => m.applyEntry h.client e).dictAnswer h sec (wReply ty block 0 (es.map fun e => entryReply e 0))

/-- A WRITE of entries, or of the one value a WRITE_BLOCK completes: checked whole, then applied in order. The header status of a
failing WRITE is that of its first failing entry; every write to index 0x3000 is refused with BAD_VALUE.
(DEDUCED, log entry 44.) -/
def Mach.writeAll (m : Mach) (h : MHdr) (sec : Bool) (ty : Nat) (block flashOk : Bool) (es : List WEntry) : Mach :=
  let c := m.client h.client
  let sts := es.map (m.writeCheck c block)
  let ans (m : Mach) (r : DReply) : Mach := m.dictAnswer h sec r
  if es.any (fun e => m.accOf e = some .cmd) && es.length ≠ 1 then ans m { ty := ty, status := dsBadMessage }
  else
    match es.find? fun e => e.index = 0x3000 && m.accOf e ≠ none && m.accOf e ≠ some .ro with
    | some e => ans m { ty := ty, status := dsRefused, reason := rsBadValue, dindex := e.index, dsub := e.sub }
    | none =>
      match sts.find? (· ≠ 0) with
      | some st => ans m (wReply ty block st ((es.zip sts).map fun x => entryReply x.1 (if x.2 = 0 then dsNotDone else x.2)))
      | none =>
        match es with
        | [e] =>
          if m.accOf e = some .cmd then
            let x := m.runCmd e.index e.sub (normVal e.val) block flashOk
            if x.2 = 0 then x.1.orderAnswer h sec c.v (wReply ty block 0 [entryReply e 0])
            else x.1.orderAnswer h sec c.v { (wReply ty block dsRefused [entryReply e dsRefused]) with reason := x.2, dindex := e.index, dsub := e.sub }
          else m.writePlain h sec ty block es
        | es => m.writePlain h sec ty block es

/-! ## Block transfers (R324) -/

/-- READ_BLOCK.
(DEDUCED, log entry 47.) -/
def Mach.readBlock (m : Mach) (h : MHdr) (sec staged : Bool) (i s off cnt : Nat) : Mach :=
  let bad (m : Mach) (st : Nat) : Mach := m.dictAnswer h sec { ty := 0x04, status := st }
  if 1024 < cnt then bad m dsBadMessage
  else
    match objAt m.fam i s with
    | none => bad m dsNoObject
    | some o =>
      if o.acc = .cmd && !(i = 0x6050 && s = 2) then bad m dsAccess
      else if o.ty < 7 then bad m dsTypeMismatch
      else
        let c := m.client h.client
        let held := c.rblock.bind fun b => if b.1 = okey i s then some b.2.2 else none
        match (if off = 0 then m.valueOf c staged i s o else held) with
        | none => bad m (if off = 0 then dsNoObject else dsBadOffset)
        | some v =>
          if v.len < off then bad m dsBadOffset
          else
            let m := m.when (off = 0) fun m => m.takeEvents i s
            let n := min cnt (v.len - off)
            let more : Bool := decide (off + n < v.len)
            let m := m.onClient h.client fun x => { x with rblock := if more then some (okey i s, o.ty, v) else none }
            m.dictAnswer h sec
              { ty := 0x04, more := more, body := .block i s o.ty v.len off n ⟨n, v.n / 256 ^ off % 256 ^ n⟩ }

/-- WRITE_BLOCK: pieces in order from offset 0; the piece with MORE clear completes the value, which is written whole.
(DEDUCED, log entry 47.) -/
def Mach.writeBlock (m : Mach) (h : MHdr) (sec flashOk : Bool) (i s ty total off : Nat) (piece : List Byte) (more : Bool) : Mach :=
  let drop (m : Mach) : Mach := m.onClient h.client fun x => { x with wblock := none }
  if 1024 < piece.length then m.dictAnswer h sec { ty := 0x05, status := dsBadMessage }
  else if i = 0x6050 && s = 1 && m.rollBusy then
    (drop m).dictAnswer h sec { ty := 0x05, status := dsRefused, reason := rsRefusedState, dindex := i, dsub := s }
  else
    let got : Option (Nat × Nat) :=
      if off = 0 then some (0, 0)
      else (m.client h.client).wblock.bind fun b =>
        if b.1 = okey i s && b.2.1 = ty && b.2.2.1 = total && b.2.2.2.1 = off then some (off, b.2.2.2.2) else none
    match got with
    | none => (drop m).dictAnswer h sec { ty := 0x05, status := dsBadOffset }
    | some (_, n) =>
      let len := off + piece.length
      let n := n + leNat piece * 256 ^ off
      if total < len || (!more && len ≠ total) then (drop m).dictAnswer h sec { ty := 0x05, status := dsBadOffset }
      else if more then
        (m.onClient h.client fun x => { x with wblock := some (okey i s, ty, total, len, n) }).dictAnswer h sec { ty := 0x05 }
      else (drop m).writeAll h sec 0x05 true flashOk [⟨i, s, ty, ⟨total, n⟩⟩]

/-! ## Edits (R326 to R330) -/

/-- STAGE. A provisioning client may lock the Security area, not Debug (R352). -/
def Mach.stageMsg (m : Mach) (h : MHdr) (sec : Bool) (mask : BitVec 16) : Mach :=
  let c := m.client h.client
  let bad (st : Nat) : Mach := m.dictAnswer h sec { ty := 0x06, status := st }
  let others := (m.dict.clients.filter fun x => x.1 ≠ h.client).foldl (fun a x => a ||| ((x.2.edit.map (·.areas)).getD 0)) (0 : BitVec 16)
  if mask &&& ~~~lockable ≠ 0 then bad dsBadMessage
  else if (mask.getLsbD 10 && !c.auth) || (mask.getLsbD 13 && !(c.auth && !c.prov)) then bad dsAuthRequired
  else if mask &&& others ≠ 0 then bad dsLocked
  else
    let e := c.edit.getD {}
    (m.onClient h.client fun x => { x with edit := some { e with areas := e.areas ||| mask, at_ := m.cycle } }).dictAnswer h sec { ty := 0x06 }

/-- COMMIT (R329, R361): refused under FENCE, on another generation, or by a rule; an edit that holds nothing only releases its locks;
otherwise the reply waits for every acknowledgement.
(DEDUCED, log entry 45.) -/
def Mach.commitMsg (m : Mach) (h : MHdr) (sec : Bool) (expected : Nat) : Mach :=
  let c := m.client h.client
  let refuse (x : Bad) : Mach := m.dictAnswer h sec { ty := 0x07, status := dsRefused, reason := x.1, dindex := x.2.1, dsub := x.2.2 }
  if c.v < 3 && expected ≠ 0 then m.dictAnswer h sec { ty := 0x07, status := dsBadMessage }
  else
    match c.edit with
    | none => m.dictAnswer h sec { ty := 0x07, status := dsNoEdit }
    | some e =>
      if m.sec.fenced then refuse (rsRefusedState, 0, 0)
      else if expected ≠ 0 && expected ≠ m.dict.cfg.gen then refuse (rsStaleGen, 0, 0)
      else if e.vals.isEmpty then (m.onClient h.client fun x => { x with edit := none }).dictAnswer h sec { ty := 0x07 }
      else
        match m.commitBad e with
        | some x => refuse x
        | none => m.startCommit h.client h.seq e

/-- ABORT (R328). -/
def Mach.abortMsg (m : Mach) (h : MHdr) (sec : Bool) : Mach :=
  if (m.client h.client).edit.isNone then m.dictAnswer h sec { ty := 0x08, status := dsNoEdit }
  else (m.onClient h.client fun x => { x with edit := none }).dictAnswer h sec { ty := 0x08 }

/-- SUBSCRIBE (R334): a class mask of 0 ends the subscription. -/
def Mach.subscribeMsg (m : Mach) (h : MHdr) (sec : Bool) (classes : BitVec 32) (least : Nat) (pitches : BitVec 64) : Mach :=
  (m.onClient h.client fun x =>
    { x with sub := if classes = 0 then none else some (classes, least, pitches), evq := [], dropped := 0 }).dictAnswer h sec { ty := 0x09 }

/-! ## SPDM (R320, R350, R352) -/

/-- What a client's requester key makes it when its session forms: authenticated, provisioning.
(DEDUCED, log entry 49.) -/
def Mach.standing (m : Mach) (key : Nat) : Bool × Bool :=
  let anchors := (((List.range 4).map fun i => cfgVal m.fam m.dict.cfg.vals 0x6030 (i + 1)).filter fun v => v.len ≠ 0).map (·.n)
  if anchors.isEmpty then (true, true) else (anchors.contains key, false)

/-- An SPDM message of a client: one session for a client (Table 16.3); the end of the session ends the client.
(DEDUCED, log entry 49.) -/
def Mach.spdmMsg (m : Mach) (h : MHdr) (sec : Bool) (q : SpdmReq) : Mach :=
  let c := m.client h.client
  let ctx : SpdmCtx := ⟨min 3 c.spdm, c.spdm = 4, c.spdm = 5, c.spdm ≠ 5 && decide (m.spdmCount < 64), m.signs⟩
  let a := m.spdmAnswer ctx q
  let st := match q with | .finish key _ => m.standing key | _ => (false, false)
  let m := m.onClient h.client fun x =>
    match a.2.2 with
    | .none => { x with spdm := if 4 ≤ x.spdm then x.spdm else a.1 }
    | .opened => { x with spdm := 4 }
    | .finished => { x with spdm := 5, auth := st.1, prov := st.2 }
    | .failed => { x with spdm := 3 }
    | .ended => x
  let m := m.dictAnswer h sec { ty := 0x0A, body := .spdm a.2.1 (m.spdmBody dictTransfer q a.2.1) }
  m.when (a.2.2 = .ended) fun m => m.endClient h.client

/-! ## One request (R315 to R317) -/

/-- A request that meets the configuration of a completed commit only: a COMMIT or a command object (R323, R330). -/
def Mach.isOrder (m : Mach) : DMsg → Bool
  | .commit _ => true
  | .write es => es.any fun e => m.accOf e = some .cmd
  | .writeBlock i s _ _ _ _ more => !more && (objAt m.fam i s).map (·.acc) = some .cmd
  | _ => false

/-- A request whose header has passed is carried out. -/
def Mach.carryOut (m : Mach) (h : MHdr) (sec : Bool) (msg : DMsg) (flashOk : Bool) : Mach :=
  match msg with
  | .hello _ _ _ => m.dictAnswer h sec { ty := 0x01, status := dsBadMessage }
  | .read staged es =>
    if es.isEmpty || 64 < es.length then m.dictAnswer h sec { ty := 0x02, status := dsBadMessage }
    else
      let x := m.readAll h.client staged es 0
      x.1.dictAnswer h sec { ty := 0x02, body := .entries x.2 }
  | .write es =>
    if es.isEmpty || 64 < es.length then m.dictAnswer h sec { ty := 0x03, status := dsBadMessage }
    else m.writeAll h sec 0x03 false flashOk es
  | .readBlock staged i s off cnt => m.readBlock h sec staged i s off cnt
  | .writeBlock i s ty total off piece more => m.writeBlock h sec flashOk i s ty total off piece more
  | .stage mask => m.stageMsg h sec mask
  | .commit expected => m.commitMsg h sec expected
  | .abort => m.abortMsg h sec
  | .subscribe c l p => m.subscribeMsg h sec c l p
  | .spdm q => m.spdmMsg h sec q
  | .bye => (m.endClient h.client).noReply h.src

/-- A request is carried out, or waits for the commit in progress.
(DEDUCED, log entry 45.) -/
def Mach.admitMsg (m : Mach) (h : MHdr) (sec : Bool) (msg : DMsg) (flashOk : Bool) : Mach :=
  if m.dict.inst.isSome && m.isOrder msg then m.onDict fun d => { d with waiting := d.waiting ++ [⟨h, msg, flashOk⟩] }
  else m.carryOut h sec msg flashOk

/-- A request of a client (R316, R317, R320): NO_CLIENT; the repeat of the last SEQ; another while one is in progress; then VER, TYPE
and the secured session, in this order.
(DESIGN CHOICE, log entry 43.) -/
def Mach.request (m : Mach) (h : MHdr) (sec : Bool) (msg : DMsg) (flashOk : Bool) : Mach :=
  m.atDict h.src fun m =>
    match msg, sec with
    | .hello vmin vmax probe, false => m.helloMsg h vmin vmax probe
    | msg, _ =>
      let c := m.client h.client
      let ty := if sec then 0x0B else (msgType msg).1
      if !c.live || c.src ≠ h.src then m.dictSend h.src { ty := ty, status := dsNoClient, client := h.client, ver := h.ver, seq := h.seq }
      else
        let m := m.touch h.client
        if c.lastSeq = some h.seq then
          (match c.reply with | some r => m.dictSend h.src r | none => m.noReply h.src)
        else if c.lastSeq.isSome && c.reply.isNone then m.noReply h.src
        else
          let m := m.onClient h.client fun x => { x with lastSeq := some h.seq, reply := none }
          let bad (st : Nat) : Mach := m.dictAnswer h c.auth { ty := ty, status := st }
          if h.ver ≠ c.v then bad dsBadVersion
          else if c.v < (msgType msg).2 || (sec && decide (c.v < 3)) then bad dsBadType
          else if sec ≠ c.auth then bad dsBadMessage
          else m.admitMsg h sec msg flashOk

/-- A request whose row says nothing of its session: it comes as its client's standing demands (R320).
(DEDUCED, log entry 49.) -/
def Mach.requestAs (m : Mach) (h : MHdr) (msg : DMsg) (flashOk : Bool) : Mach := m.request h (m.client h.client).auth msg flashOk

/-! ## Message commands -/

/-- Meaning of HELLO (R316). -/
def execHello (h : MHdr) (vmin vmax : Nat) (probe : Bool) (s : State) : Host.Outcome State Fault Refusal :=
  s.app ((Instr.hello h vmin vmax probe).wf s.m.fam) <| Mach.aliveRun fun m => m.request h false (.hello vmin vmax probe) true

/-- Meaning of READ (R322). -/
def execRead (h : MHdr) (staged : Bool) (entries : List (Nat × Nat)) (s : State) : Host.Outcome State Fault Refusal :=
  s.app ((Instr.read h staged entries).wf s.m.fam) <| Mach.aliveRun fun m => m.request h false (.read staged entries) true

/-- Meaning of WRITE (R323). -/
def execWrite (h : MHdr) (entries : List WEntry) (s : State) : Host.Outcome State Fault Refusal :=
  s.app ((Instr.write h entries).wf s.m.fam) <| Mach.aliveRun fun m => m.request h false (.write entries) true

/-- Meaning of READ_BLOCK (R324). -/
def execReadBlock (h : MHdr) (staged : Bool) (index sub offset count : Nat) (s : State) : Host.Outcome State Fault Refusal :=
  s.app ((Instr.readBlock h staged index sub offset count).wf s.m.fam) <| Mach.aliveRun fun m =>
    m.request h false (.readBlock staged index sub offset count) true

/-- Meaning of WRITE_BLOCK (R324). -/
def execWriteBlock (h : MHdr) (index sub ty total offset : Nat) (piece : List Byte) (more : Bool) (s : State) :
    Host.Outcome State Fault Refusal :=
  s.app ((Instr.writeBlock h index sub ty total offset piece more).wf s.m.fam) <| Mach.aliveRun fun m =>
    m.request h false (.writeBlock index sub ty total offset piece more) true

/-- Meaning of STAGE (R326). -/
def execStage (h : MHdr) (mask : BitVec 16) (s : State) : Host.Outcome State Fault Refusal :=
  s.app ((Instr.stage h mask).wf s.m.fam) <| Mach.aliveRun fun m => m.request h false (.stage mask) true

/-- Meaning of COMMIT (R329). -/
def execCommit (h : MHdr) (expected : Nat) (s : State) : Host.Outcome State Fault Refusal :=
  s.app ((Instr.commit h expected).wf s.m.fam) <| Mach.aliveRun fun m => m.request h false (.commit expected) true

/-- Meaning of ABORT (R328). -/
def execAbort (h : MHdr) (s : State) : Host.Outcome State Fault Refusal :=
  s.app ((Instr.abort h).wf s.m.fam) <| Mach.aliveRun fun m => m.request h false .abort true

/-- Meaning of SUBSCRIBE (R334). -/
def execSubscribe (h : MHdr) (classes : BitVec 32) (least : Nat) (pitches : BitVec 64) (s : State) : Host.Outcome State Fault Refusal :=
  s.app ((Instr.subscribe h classes least pitches).wf s.m.fam) <| Mach.aliveRun fun m =>
    m.request h false (.subscribe classes least pitches) true

/-- Meaning of SPDM (R320). -/
def execSpdm (h : MHdr) (q : SpdmReq) (s : State) : Host.Outcome State Fault Refusal :=
  s.app ((Instr.spdm h q).wf s.m.fam) <| Mach.aliveRun fun m => m.request h false (.spdm q) true

/-- Meaning of SECURED (R320): the message inside a secured message. -/
def execSecured (h : MHdr) (inner : DMsg) (s : State) : Host.Outcome State Fault Refusal :=
  s.app ((Instr.secured h inner).wf s.m.fam) <| Mach.aliveRun fun m => m.request h true inner true

/-- Meaning of BYE (R318). -/
def execBye (h : MHdr) (s : State) : Host.Outcome State Fault Refusal :=
  s.app ((Instr.bye h).wf s.m.fam) <| Mach.aliveRun fun m => m.request h false .bye true

/-- Meaning of MALFORMED_DATAGRAM (R313 to R315): BAD_MESSAGE to a datagram with a whole header and the MAGIC; any other is discarded, and a
frame that is no datagram for the part counts in FPERR.
(DESIGN CHOICE, log entry 48.) -/
def execMalformedDatagram (src : Src) (why : DgramFault) (ty client seq : Nat) (s : State) : Host.Outcome State Fault Refusal :=
  s.app ((Instr.malformedDatagram src why ty client seq).wf s.m.fam) <| Mach.aliveRun fun m =>
    match why, src with
    | .header, src =>
      m.atDict src fun m => m.dictSend src { ty := ty, status := dsBadMessage, client := client, ver := (m.client client).v, seq := seq }
    | .frame, .udp _ _ => m.fpDrop
    | _, _ => m

/-! ## Commits that end -/

/-- The requests that waited for a commit are carried out in order. -/
def Mach.runWaiting (m : Mach) : Mach :=
  let ws := m.dict.waiting
  (m.onDict fun d => { d with waiting := [] }).each ws fun m w =>
    if (m.client w.h.client).live then m.admitMsg w.h (m.client w.h.client).auth w.msg w.flashOk else m

/-- Meaning of COMMIT_ACKNOWLEDGED (R330 step 4): every hub and every region in service holds the set: the locks are released, the reply
and the event follow. -/
def execCommitAcknowledged (s : State) : Host.Outcome State Fault Refusal :=
  s.app (Instr.commitAcknowledged.wf s.m.fam) <| Mach.aliveRun fun m =>
    match m.dict.inst with
    | none => m
    | some i =>
      if !(i.hubs.isEmpty && i.regions.isEmpty) || m.sys.steward.isNone then m
      else
        let c := m.client i.client
        let m := m.onDict fun d => { d with inst := none }
        let m := m.when (c.live && c.lastSeq = some i.seq) fun m =>
          (m.onClient i.client fun x => { x with edit := none }).dictAnswer ⟨c.src, c.v, i.client, i.seq⟩ c.auth
            { ty := 0x07, body := .committed i.set.gen (cfgDigest m.fam i.set.vals) }
        (m.committed i.set.gen).runWaiting

/-! ## Timeouts (R318, R327) -/

/-- Meaning of CLIENT_TIMEOUT (R318): CLIENTTO seconds without a message. -/
def execClientTimeout (client : Nat) (s : State) : Host.Outcome State Fault Refusal :=
  s.app ((Instr.clientTimeout client).wf s.m.fam) <| Mach.aliveRun fun m =>
    let c := m.client client
    if c.live && decide (c.at_ + ms 1000 * m.cfgN 0x1100 4 < m.cycle) then m.endClient client else m

/-- Meaning of EDIT_TIMEOUT (R327): EDITTO seconds without a message of the client. -/
def execEditTimeout (client : Nat) (s : State) : Host.Outcome State Fault Refusal :=
  s.app ((Instr.editTimeout client).wf s.m.fam) <| Mach.aliveRun fun m =>
    match (m.client client).edit with
    | some e => if e.at_ + ms 1000 * m.cfgN 0x1100 5 < m.cycle then m.onClient client fun x => { x with edit := none } else m
    | none => m

/-! ## Events out (R335, R336) -/

/-- A client's queue after `n` records have been sent. -/
def Client.sent (c : Client) (n : Nat) : Client := { c with evq := c.evq.drop n, dropped := 0 }

/-- Meaning of EVENT_SEND (R335): an EVENT message of up to 31 records to a field-port subscriber, at most one in 1 ms.
(DESIGN CHOICE, log entry 48.) -/
def execEventSend (client : Nat) (s : State) : Host.Outcome State Fault Refusal :=
  s.app ((Instr.eventSend client).wf s.m.fam) <| Mach.aliveRun fun m =>
    let c := m.client client
    match c.src with
    | .inband _ => m
    | .udp a p =>
      if !c.live || c.sub.isNone || c.evq.isEmpty || !m.dictUp || !m.pathOpen (.udp a p)
          || (match c.evAt with | some t => decide (m.cycle < t + ms 1) | none => false) then m
      else
        (m.onClient client fun x => { x.sent 31 with evSeq := (x.evSeq + 1) % 65536, evAt := some m.cycle }).send
          (.event c.src client ((c.evSeq + 1) % 65536) c.dropped (c.evq.take 31))

/-- The mailbox return code Invalid Payload Length (log entry 8). -/
def mbInvalidLength : Nat := 0x16

/-- Meaning of DICTIONARY_MESSAGE (R336): opcode 0xC001; `len` is the input payload's length. -/
def execDictionaryMessage (k : Nat) (h : MHdr) (msg : DMsg) (len : Nat) (s : State) : Host.Outcome State Fault Refusal :=
  s.app ((Instr.dictionaryMessage k h msg len).wf s.m.fam) <| Mach.aliveRun fun m =>
    if !m.linkUp k then m
    else if len < 16 || 1296 < len then m.fmBox k mbInvalidLength []
    else m.request { h with src := .inband k } false msg true

/-- The payload of an EVENT message (R335). -/
def eventPayload (dropped : Nat) (l : List EvRec) : List Byte :=
  leBytes 2 l.length ++ [0, 0] ++ leBytes 4 dropped ++ l.flatMap fun e => leBytes 40 e.pack

/-- Meaning of DICTIONARY_EVENTS (R336): opcode 0xC002, for the records of a client of this mailbox. -/
def execDictionaryEvents (k client n : Nat) (s : State) : Host.Outcome State Fault Refusal :=
  s.app ((Instr.dictionaryEvents k client n).wf s.m.fam) <| Mach.aliveRun fun m =>
    m.atDict (.inband k) fun m =>
      let c := m.client client
      if !c.live || c.src ≠ .inband k || n = 0 || 31 < n then m.fmBox k mbInvalidInput []
      else (m.onClient client fun x => x.sent n).fmBox k mbSuccess (eventPayload c.dropped (c.evq.take n))

/-! ## The field port (R312 to R314) -/

/-- The field port works: H0 is alive. -/
def Mach.fpUp (m : Mach) : Bool := !(m.hub 0).failed

/-- The part's IPv6 address: fe80::/64 with the modified EUI-64 identifier of its MAC address (R314). -/
def ownAddr : BitVec 128 :=
  BitVec.ofNat 128 (0xFE80 * 2 ^ 112 + (macAddr / 2 ^ 24 % 2 ^ 16) * 2 ^ 40 + 0xFFFE * 2 ^ 24 + macAddr % 2 ^ 24)

/-- Meaning of NEIGHBOUR_SOLICITATION (R314). -/
def execNeighbourSolicitation (target : BitVec 128) (fromAddr : Nat) (s : State) : Host.Outcome State Fault Refusal :=
  s.app ((Instr.neighbourSolicitation target fromAddr).wf s.m.fam) <| Mach.aliveRun fun m =>
    if m.fpUp && m.fp.addrOk && target = ownAddr then m.send (.neighbourAdvert fromAddr) else m.fpDrop

/-- Meaning of ICMPV6_ECHO (R314). -/
def execIcmpv6Echo (fromAddr id seq : Nat) (payload : List Byte) (s : State) : Host.Outcome State Fault Refusal :=
  s.app ((Instr.icmpv6Echo fromAddr id seq payload).wf s.m.fam) <| Mach.aliveRun fun m =>
    if m.fpUp && m.fp.addrOk then m.send (.echoReply fromAddr id seq payload) else m.fpDrop

/-- Meaning of DUPLICATE_ADDRESS_DETECTION (R314): it ends once after each RESET_n; an address in use is not taken, and FPERR counts
it. -/
def execDuplicateAddressDetection (inUse : Bool) (s : State) : Host.Outcome State Fault Refusal :=
  s.app ((Instr.duplicateAddressDetection inUse).wf s.m.fam) <| Mach.aliveRun fun m =>
    if !m.fpUp || m.fp.addrOk || m.fp.addrDup then m
    else if inUse then m.fpDrop.onFp fun p => { p with addrDup := true }
    else m.onFp fun p => { p with addrOk := true }

/-- Meaning of PLCA_BEACON (R313): the coordinator sends the beacon and counts PLCACOUNT opportunities; another node has one. -/
def execPlcaBeacon (s : State) : Host.Outcome State Fault Refusal :=
  s.app (Instr.plcaBeacon.wf s.m.fam) <| Mach.aliveRun fun m =>
    if !m.fpUp then m
    else if m.fp.nodeid = 0 then (m.onFp fun p => { p with beacons := true, slots := m.cfgN 0x1100 3 }).send .beacon
    else m.onFp fun p => { p with beacons := true, slots := 1 }

end Sys2Proof.Machine
end

