-- ==== Sys2Proof/Machine/Commands.lean ====
section
/-! DEFINITION. The commands that write one object (command objects, counters, write-one-to-clear flags, injection, EQREAD), each as the
dictionary message that carries it, and the writes of registers that have no row of their own (R10, R11, R240). -/

namespace Sys2Proof.Machine

/-! ## One object written -/

/-- A WRITE of one object of the type the catalogue gives it. -/
def Mach.put (m : Mach) (h : MHdr) (i s : Nat) (v : OVal) (flashOk : Bool) : Mach :=
  m.requestAs h (.write [⟨i, s, (objAt m.fam i s).elim 0 (·.ty), v⟩]) flashOk

/-- Meaning of REATTACHEND (R123). -/
def execReattachend (h : MHdr) (p : Nat) (v : OVal) (s : State) : Host.Outcome State Fault Refusal :=
  s.app ((Instr.reattachend h p v).wf s.m.fam) <| Mach.aliveRun fun m => m.put h (0x3000 + p) 0x16 v true

/-- Meaning of DRAIN (R261): DRAIN written as 1. -/
def execDrain (h : MHdr) (p : Nat) (v : OVal) (s : State) : Host.Outcome State Fault Refusal :=
  s.app ((Instr.drain h p v).wf s.m.fam) <| Mach.aliveRun fun m => m.put h (0x3000 + p) 0x17 v true

/-- Meaning of DRAIN_RELEASE (R161): DRAIN written as 0. -/
def execDrainRelease (h : MHdr) (p : Nat) (v : OVal) (s : State) : Host.Outcome State Fault Refusal :=
  s.app ((Instr.drainRelease h p v).wf s.m.fam) <| Mach.aliveRun fun m => m.put h (0x3000 + p) 0x17 v true

/-- Meaning of CLEAR (R261). -/
def execClear (h : MHdr) (p : Nat) (v : OVal) (s : State) : Host.Outcome State Fault Refusal :=
  s.app ((Instr.clear h p v).wf s.m.fam) <| Mach.aliveRun fun m => m.put h (0x3000 + p) 0x18 v true

/-- Meaning of EXTADD (R179, R339). -/
def execExtadd (h : MHdr) (p : Nat) (v : OVal) (s : State) : Host.Outcome State Fault Refusal :=
  s.app ((Instr.extadd h p v).wf s.m.fam) <| Mach.aliveRun fun m => m.put h (0x3000 + p) 0x19 v true

/-- Meaning of EXTREL (R182). -/
def execExtrel (h : MHdr) (p : Nat) (v : OVal) (s : State) : Host.Outcome State Fault Refusal :=
  s.app ((Instr.extrel h p v).wf s.m.fam) <| Mach.aliveRun fun m => m.put h (0x3000 + p) 0x1A v true

/-- Meaning of EXTGRANT (R180). -/
def execExtgrant (h : MHdr) (p : Nat) (v : OVal) (s : State) : Host.Outcome State Fault Refusal :=
  s.app ((Instr.extgrant h p v).wf s.m.fam) <| Mach.aliveRun fun m => m.put h (0x3000 + p) 0x1B v true

/-- Meaning of LEASERENEW (R187): logical device `ld` of port `k`. -/
def execLeaserenew (h : MHdr) (k ld : Nat) (v : OVal) (s : State) : Host.Outcome State Fault Refusal :=
  s.app ((Instr.leaserenew h k ld v).wf s.m.fam) <| Mach.aliveRun fun m => m.put h (0x5000 + k) (0x50 + ld) v true

/-- Meaning of RELEASE (R259). -/
def execRelease (h : MHdr) (k : Nat) (v : OVal) (s : State) : Host.Outcome State Fault Refusal :=
  s.app ((Instr.release h k v).wf s.m.fam) <| Mach.aliveRun fun m => m.put h (0x5000 + k) 0x32 v true

/-- Meaning of RESTART (R383). -/
def execRestart (h : MHdr) (r : Nat) (v : OVal) (s : State) : Host.Outcome State Fault Refusal :=
  s.app ((Instr.restart h r v).wf s.m.fam) <| Mach.aliveRun fun m => m.put h (0x2200 + r) 0x03 v true

/-- Meaning of WRAPKEY (R354, R355). Index 0x6050 written in one entry is pitch 16's (log entry 12). -/
def execWrapkey (h : MHdr) (p : Nat) (v : OVal) (s : State) : Host.Outcome State Fault Refusal :=
  s.app ((Instr.wrapkey h p v).wf s.m.fam) <| Mach.aliveRun fun m => m.put h (0x6040 + p) 0x01 v true

/-- Meaning of FWIMAGE (R365): a piece of the image. -/
def execFwimage (h : MHdr) (total offset : Nat) (piece : List Byte) (more : Bool) (s : State) : Host.Outcome State Fault Refusal :=
  s.app ((Instr.fwimage h total offset piece more).wf s.m.fam) <| Mach.aliveRun fun m =>
    m.requestAs h (.writeBlock 0x6050 0x01 8 total offset piece more) true

/-- Meaning of FW_VERIFY (R365): FWCMD 1. -/
def execFwVerify (h : MHdr) (s : State) : Host.Outcome State Fault Refusal :=
  s.app ((Instr.fwVerify h).wf s.m.fam) <| Mach.aliveRun fun m => m.put h 0x6050 0x02 ⟨1, 1⟩ true

/-- Meaning of FW_ACTIVATE (R365, R400): FWCMD 2. -/
def execFwActivate (h : MHdr) (flashOk : Bool) (s : State) : Host.Outcome State Fault Refusal :=
  s.app ((Instr.fwActivate h flashOk).wf s.m.fam) <| Mach.aliveRun fun m => m.put h 0x6050 0x02 ⟨1, 2⟩ flashOk

/-- Meaning of FW_DISCARD (R365): FWCMD 3. -/
def execFwDiscard (h : MHdr) (s : State) : Host.Outcome State Fault Refusal :=
  s.app ((Instr.fwDiscard h).wf s.m.fam) <| Mach.aliveRun fun m => m.put h 0x6050 0x02 ⟨1, 3⟩ true

/-- Meaning of DBGOPEN (R363). -/
def execDbgopen (h : MHdr) (v : OVal) (s : State) : Host.Outcome State Fault Refusal :=
  s.app ((Instr.dbgopen h v).wf s.m.fam) <| Mach.aliveRun fun m => m.put h 0x9000 0x01 v true

/-- Meaning of INJARM (R296). -/
def execInjarm (h : MHdr) (v : OVal) (s : State) : Host.Outcome State Fault Refusal :=
  s.app ((Instr.injarm h v).wf s.m.fam) <| Mach.aliveRun fun m => m.put h 0x9010 0x01 v true

/-- Meaning of COUNTER_WRITE (R344). -/
def execCounterWrite (h : MHdr) (index sub : Nat) (v : OVal) (s : State) : Host.Outcome State Fault Refusal :=
  s.app ((Instr.counterWrite h index sub v).wf s.m.fam) <| Mach.aliveRun fun m => m.put h index sub v true

/-- Meaning of DEFICIT_CLEAR (R213). -/
def execDeficitClear (h : MHdr) (v : OVal) (s : State) : Host.Outcome State Fault Refusal :=
  s.app ((Instr.deficitClear h v).wf s.m.fam) <| Mach.aliveRun fun m => m.put h 0x2000 0x04 v true

/-- Meaning of OPTEVT_CLEAR (Table 09.4). -/
def execOptevtClear (h : MHdr) (k : Nat) (v : OVal) (s : State) : Host.Outcome State Fault Refusal :=
  s.app ((Instr.optevtClear h k v).wf s.m.fam) <| Mach.aliveRun fun m => m.put h (0x5000 + k) 0x24 v true

/-- Meaning of G7EVT_CLEAR (Table 11.5). -/
def execG7evtClear (h : MHdr) (r : Nat) (v : OVal) (s : State) : Host.Outcome State Fault Refusal :=
  s.app ((Instr.g7evtClear h r v).wf s.m.fam) <| Mach.aliveRun fun m => m.put h (0x2200 + r) 0x47 v true

/-- Meaning of ALARMSTAT_CLEAR (Table 15.8). -/
def execAlarmstatClear (h : MHdr) (v : OVal) (s : State) : Host.Outcome State Fault Refusal :=
  s.app ((Instr.alarmstatClear h v).wf s.m.fam) <| Mach.aliveRun fun m => m.put h 0x6010 0x05 v true

/-- Meaning of EQREAD (R342): a READ for a client of version 1, a READ_BLOCK from offset 0 otherwise. -/
def execEqread (h : MHdr) (p : Nat) (s : State) : Host.Outcome State Fault Refusal :=
  s.app ((Instr.eqread h p).wf s.m.fam) <| Mach.aliveRun fun m =>
    m.requestAs h (if (m.client h.client).v = 1 then .read false [(0x7040 + p, 1)] else .readBlock false (0x7040 + p) 1 0 1024) true

/-! ## Registers of functions (Tables 06.1, 06.2, 07.4, 10.1, 10.7) -/

/-- The queue control page. -/
def Mach.writeQueuePage (m : Mach) (f off : Nat) (v : BitVec 64) : Mach :=
  match off with
  | 0x00 => m.onFn f fun x => { x with qsqbase := v &&& ~~~0xFFF#64 }
  | 0x08 => m.onFn f fun x => { x with qcqbase := v &&& ~~~0xFFF#64 }
  | 0x10 => m.onFn f fun x => { x with qparam := v &&& 0xFFFF1F3F#64 }
  | 0x18 =>
    if (m.fn f).qbusy.isSome then m
    else match v.toNat % 4 with
      | 1 => m.createQueue f
      | 2 => m.deleteQueue f
      | _ => m
  | _ => m

/-- The doorbell page of queue `q`: without effect on a FREE queue. -/
def Mach.writeDoorbell (m : Mach) (f q off : Nat) (v : BitVec 64) : Mach :=
  match off with
  | 0x00 => m.writeSqtail f q v.toNat
  | 0x08 => m.writeCqhead f q v.toNat
  | 0x10 =>
    if (m.queue f q).st = .free then m
    else (m.onQueue f q fun x => { x with ien := v.getLsbD 31, icount := bits v.toNat 15 8, idelay := bits v.toNat 7 0 }).intx f
  | _ => m

/-- The lease page. -/
def Mach.writeLeasePage (m : Mach) (f off : Nat) (v : BitVec 64) : Mach :=
  match off with
  | 0x00 => if v.getLsbD 0 then m.renewLease f else m
  | 0x18 => m.discharge f fun t => decide (t.num ≤ bits v.toNat 31 0)
  | _ => m

/-- The interrupt page. -/
def Mach.writeIntPage (m : Mach) (f off : Nat) (v : BitVec 64) : Mach :=
  match off with
  | 0x00 => m.writeIntstat f v
  | 0x08 => m.onFn f fun x => { x with inten := v.truncate 8 }
  | _ => m

/-- A write of an HDM decoder's control register that leaves its Commit bit clear uncommits the decoder (R241; the standard's layout,
log entry 8). A commit is HDM_DECODER_COMMIT's.
(PRESUMED, log entry 8.) -/
def Mach.writeHdm (m : Mach) (f off : Nat) (v : BitVec 64) : Mach :=
  if v.getLsbD 9 then m
  else
    match off with
    | 0x20 => m.onFn f fun x => { x with dec0 := { x.dec0 with committed := false, error := false } }
    | 0x40 => m.onFn f fun x => { x with dec1 := { x.dec1 with committed := false, error := false } }
    | _ => m

/-- An 8-byte write in BAR0 (R240, Table 10.3); other offsets have no effect. -/
def Mach.writeBar0 (m : Mach) (f off : Nat) (v : BitVec 64) : Mach :=
  if off < 0x20000 then (if 8 * Config.hdmCap ≤ off then m.writeHdm f (off - 8 * Config.hdmCap) v else m)
  else if off < 0x21000 then m.writeQueuePage f (off - 0x20000) v
  else if off < 0x61000 then m.writeDoorbell f ((off - 0x21000) / 0x1000) (off % 0x1000) v
  else if off < 0x62000 then m.writeLeasePage f (off - 0x61000) v
  else if off < 0x63000 then m.writeIntPage f (off - 0x62000) v
  else m

/-- A write in a function's configuration space (Table 10.1; the place of LTR Mechanism Enable is the standard's, log entry 8).
(PRESUMED, log entry 8.) (PRESUMED, log entry 50.) -/
def Mach.writeConfig (m : Mach) (f off : Nat) (v : BitVec 64) : Mach :=
  match off with
  | 0x04 => (m.onFn f fun x => { x with command := v.truncate 16 &&& 0x0406 }).when (v.getLsbD 2) fun m => m.busOn f
  | 0x10 => m.onFn f fun x => { x with bar0 := (x.bar0 &&& 0xFFFFFFFF00000000#64) ||| (v &&& 0xFFF00000#64) ||| 4 }
  | 0x14 => m.onFn f fun x => { x with bar0 := (x.bar0 &&& 0xFFFFFFFF#64) ||| (v <<< 32) }
  | 0x30 => m.onFn f fun x => { x with romBar := v.truncate 32 &&& 0xFFFF0001 }
  | 0x3C => m.onFn f fun x => { x with intLine := v.truncate 8 }
  | off =>
    if off = Config.pcieCap + 0x28 then m.onFn f fun x => { x with ltrEnable := v.getLsbD 10 }
    else if off = Config.pcieCap + 0x08 then m.onFn f fun x => { x with errEn := v.truncate 3 }
    else m

/-- Meaning of REGISTER_WRITE (R10, R11, R240): the register takes what its access code lets it take.
(DEDUCED, log entry 74.) -/
def execRegisterWrite (t : RegTarget) (v : BitVec 64) (s : State) : Host.Outcome State Fault Refusal :=
  s.app ((Instr.registerWrite t v).wf s.m.fam) <| Mach.aliveRun fun m =>
    match t with
    | .bar0 f off => if m.up && m.barOpen f then m.writeBar0 f off v else m
    | .config f off => if m.up && m.cfgOpen f then m.writeConfig f off v else m
    | .object h i s =>
      let n := (objAt m.fam i s).elim 0 (·.lo)
      m.put h i s ⟨n, v.toNat % 256 ^ n⟩ true

end Sys2Proof.Machine
end

