-- ==== Sys2Proof/Machine/Startup.lean ====
section
/-! DEFINITION. RESET_n and start-up (R369 to R373, R394, R397, R399, R400), the steward (R375 to R377), the end of a region's restart
(R383), die temperatures (R389) and the light of each port (Table 17.5). -/

namespace Sys2Proof.Machine

/-! ## RESET_n (R370, R394) -/

/-- The part with RESET_n low: only the always-on security monitor keeps what it holds (R25, R364), the fuses what is burnt into them. The
model's own time axis, counters and record of outputs go on. -/
def Mach.heldLow (m : Mach) : Mach :=
  { fam := m.fam, cycle := m.cycle, fresh := m.fresh, nextId := m.nextId, out := m.out
    sys := { fatalCause := m.sys.fatalCause, fatalReport := m.sys.fatalReport, debugLatch := m.sys.debugLatch
             monClasses := m.sys.monClasses, heldAt := m.cycle }
    sec := { svnFloor := m.sec.svnFloor } }

/-- Meaning of RESET_N_ASSERT (R370, R394): a low shorter than 50 ns is ignored; a low from 50 ns to 200 ns must not be driven, and resets
the part here as a longer one does.
(DEDUCED, log entry 52.) (DESIGN CHOICE, log entry 77.) -/
def execResetNAssert (ns : Nat) (s : State) : Host.Outcome State Fault Refusal :=
  s.app ((Instr.resetNAssert ns).wf s.m.fam) <| Mach.run fun m => if ns < 50 then m else m.heldLow

/-! ## Self-test (R295) -/

/-- SELFTEST_FAIL. -/
def Mach.selftestFail (m : Mach) (kind unit row : Nat) : Mach := m.log 0x0801 0 0 0 [(8, kind), (8, unit), (8, row)]

/-- A block of a region fails its self-test and is quarantined (R23); channels of a DRAM block become FAILED. -/
def Mach.blockFails (m : Mach) (r b row : Nat) : Mach :=
  if regions m.fam ≤ r || 12 ≤ b then m
  else
    let m := (m.selftestFail 1 r row).quarantine r b
    if b = 8 || b = 9 then
      (m.each (List.range 4) fun m i => m.channelFailed r ((b - 8) * 4 + i) [0, 0, 0, 0, 0]).fenceIfNoT1 r
    else m

/-- The table block of region `r` is its lowest passing store block; a region with fewer than two is fenced (R16). -/
def Mach.takeTable (m : Mach) (r : Nat) : Mach :=
  match (m.region r).goodBlocks with
  | [] => m.fence r 1
  | b :: bs =>
    let m := m.onRegion r fun g => { g with tableBlock := b }
    if bs.isEmpty then m.fence r 1 else m

/-! ## Boot flash (R348, R399, R400) -/

/-- A slot marker is valid: its CRC holds and its fields use defined values (Table 18.8). -/
def markerOk (x : BitVec 64) : Bool :=
  let n := x.toNat
  let act := bits n 7 0
  let pend := bits n 15 8
  bits n 63 32 = (crc32c 0xFFFFFFFF (leBytes 4 (bits n 31 0))).toNat && decide (act ≤ 1) && (decide (pend ≤ 1) || pend = 0xFF)

/-- The active slot named by the valid marker at the highest address. -/
def activeOf (l : List (BitVec 64)) : Option Nat := ((l.take 512).filter markerOk).getLast?.map fun x => bits x.toNat 7 0

/-- The position after the last that is not empty. -/
def markerEnd (l : List (BitVec 64)) : Nat :=
  (l.take 512).zipIdx.foldl (fun n x => if x.1 = BitVec.allOnes 64 then n else x.2 + 1) 0

/-- A slot's image, if it passes the checks. -/
def Mach.slotImg (m : Mach) (o : Option ImgIn) : Option ImgIn := o.filter m.imgOk

/-- The slot a hub boots and its image: the active slot, or the other one where it fails; without a valid marker the valid slot with the
higher SVN, then the higher FWVER, slot A on a tie. -/
def Mach.bootOf (m : Mach) (f : BootFlash) : Option (Nat × ImgIn) :=
  let a := (m.slotImg f.slotA).map fun i => (0, i)
  let b := (m.slotImg f.slotB).map fun i => (1, i)
  match activeOf f.markers with
  | some 0 => a <|> b
  | some _ => b <|> a
  | none =>
    match a, b with
    | some x, some y =>
      if x.2.svn < y.2.svn || (x.2.svn = y.2.svn && x.2.fwver.toNat < y.2.fwver.toNat) then some y else some x
    | _, _ => a <|> b

/-- What each hub boots, hubs in rising order. -/
def Mach.bootAll (m : Mach) (fs : List BootFlash) : List (Nat × Nat × ImgIn) :=
  (List.range (hubs m.fam)).filterMap fun h => ((fs.find? fun f => f.hub = h).bind m.bootOf).map fun x => (h, x.1, x.2)

/-- Hub `h` claims the steward role: its claim goes to every other live hub (R375). -/
def Mach.claim (m : Mach) (h : Nat) : Mach :=
  let d := ((m.hub h).image.map (·.hdrDigest)).getD 0
  (m.onHub h fun x => { x with claimAt := some m.cycle }).sendAll
    ((m.liveHubs.filter fun g => g ≠ h && (m.hub g).live).map fun g => .claim h g d)

/-- Hub `h` has its image and is live. -/
def Mach.hubLive (m : Mach) (h slot : Nat) (i : ImgIn) (mark : Nat) : Mach :=
  m.onHub h fun x =>
    { x with live := true, slot := slot, image := some i, markerPos := mark, watchdogAt := m.cycle, renewedAt := m.cycle }

/-- The hubs boot (steps 5 to 7 of Table 17.1): without an image anywhere the part is chip fatal; a hub without one, or with one whose
header differs from that of the lowest hub that has one, fails; the others claim.
(DESIGN CHOICE, log entry 51.) -/
def Mach.bootHubs (m : Mach) (fs : List BootFlash) : Mach :=
  match m.bootAll fs with
  | [] => m.chipFatal fcBootImage
  | (h0, s0, i0) :: rest =>
    let good := ((h0, s0, i0) :: rest).filter fun x => x.2.2.hdrDigest = i0.hdrDigest
    let m := m.each good fun m x => m.hubLive x.1 x.2.1 x.2.2 (((fs.find? fun f => f.hub = x.1).map fun f => markerEnd f.markers).getD 0)
    let m := m.each ((List.range (hubs m.fam)).filter fun h => !(good.any fun x => x.1 = h)) fun m h => m.hubFail h
    m.each (good.map (·.1)) fun m h => m.claim h

/-! ## The release of RESET_n (R369, R371, R372) -/

/-- Steps 1 to 3: the fuses, the debug latch and the identity key; a chip fatal of before is reported (Table 15.10).
(DESIGN CHOICE, log entry 51.) (DEDUCED, log entry 52.) -/
def Mach.monitorStart (m : Mach) (b : BootIn) : Mach :=
  let m := m.onSys fun s => { s with phase := .starting, resetAt := max m.cycle (s.heldAt + us 10), fuseAt := m.cycle, tagAt := m.cycle, pcAt := m.cycle }
  let m := (m.onFp fun x => { x with nodeid := b.strap.toNat }).onDict fun d => { d with resetId := m.drawn % 2 ^ 64 }
  let m := m.redraw
  let m := m.onSec fun s =>
    if m.sys.debugLatch then { s with dbgOpen := true, secstate := 1, idKey := none } else { s with idKey := some identityKey }
  let m := m.when m.sys.fatalReport fun m =>
    (m.log 0x0805 0 0 0 [(16, m.sys.fatalCause)]).onSys fun s => { s with fatalReport := false }
  m.when b.fuseBad fun m => (m.onSys fun s => { s with bootDark := true }).alarm 8

/-- Step 4: each port holds start-up containment and trains, unless the fuse failure keeps it dark. -/
def Mach.portStart (m : Mach) (k : Nat) : Mach :=
  m.onPort k fun p => if m.sys.bootDark then { p with down := true, lt := .disabled } else Port.settle { p with training := true }

/-- Meaning of RESET_N_RELEASE (R369, R371, R372, R397): the part starts; `b` says what its tests and reads find. A unit number the part
does not have stands for nothing.
(DESIGN CHOICE, log entry 51.) -/
def execResetNRelease (b : BootIn) (s : State) : Host.Outcome State Fault Refusal :=
  s.app ((Instr.resetNRelease b).wf s.m.fam) fun m =>
    if m.awake then m
    else
      let m := m.monitorStart b
      let m := m.each (List.range (hubs m.fam)) fun m k => m.portStart k
      let badHubs := b.hubBad.filter fun x => x.1 < hubs m.fam
      let badStops := b.stopBad.filter fun x => hasStop m.fam x.1
      let m := m.each badHubs fun m x => m.selftestFail 2 x.1 x.2
      let m := m.each badStops fun m x => m.selftestFail 0 x.1 x.2
      if !badHubs.isEmpty || !badStops.isEmpty then m.chipFatal fcSelftest
      else
        let m := m.each b.blockBad fun m x => m.blockFails x.1 x.2.1 x.2.2
        let m := m.each ((List.range (regions m.fam)).filter fun r => (m.region r).st ≠ .fenced) fun m r => m.takeTable r
        m.bootHubs b.flash

/-! ## The steward (R375 to R377) -/

/-- Meaning of STEWARD_CLAIM (R375): hub `h` sees the claim of hub `src`. -/
def execStewardClaim (h src : Nat) (s : State) : Host.Outcome State Fault Refusal :=
  s.app ((Instr.stewardClaim h src).wf s.m.fam) <| Mach.aliveRun fun m =>
    if (m.hub h).live && (m.hub src).live && (m.hub src).claimAt.isSome && decide (src < h) then
      m.onHub h fun x => { x with sawLower := true }
    else m

/-- Claims are settled: every timer runs anew. -/
def Mach.renew (m : Mach) : Mach :=
  m.each m.liveHubs fun m h => m.onHub h fun x => { x with renewedAt := m.cycle, claimAt := none, sawLower := false }

/-- The first steward of a start-up loads the microcode of its image into every region (step 8, R349). -/
def Mach.loadUcode (m : Mach) (h : Nat) : Mach :=
  let v := ((m.hub h).image.map (·.ucodever)).getD 0
  (m.onSys fun s => { s with ucodeLoaded := true }).each (List.range (regions m.fam)) fun m r =>
    m.onRegion r fun g => { g with ucode := v, ucodeDigest := ((m.hub h).image.map (·.ucodeDigest)).getD 0 }

/-- The leases that fell due while no steward held the role expire 50 ms from now (R377).
(DESIGN CHOICE, log entry 54.) -/
def Mach.deferLeases (m : Mach) (lost : Nat) : Mach :=
  m.each (List.range (functions m.fam)) fun m f =>
    m.onFn f fun x =>
      if x.lease = .held && decide (lost ≤ x.leaseAt) && decide (x.leaseAt < m.cycle) && x.leaseDefer.isNone then
        { x with leaseDefer := some (m.cycle + ms 50) }
      else x

/-- What a new steward does in a failover (R331, R376, R377, R378).
(DESIGN CHOICE, log entry 54.) -/
def Mach.failover (m : Mach) (h lost renewed : Nat) : Mach :=
  let m := m.log 0x0804 0 0 0 [(8, m.sys.lastSteward), (8, h), (8, 1)]
  let m := m.resolveInst.loseClients
  let m := m.onSys fun s => { s with dictDownUntil := renewed + ms 50 }
  let m := m.deferLeases lost
  m.each ((List.range (hubs m.fam)).filter fun k => (m.hub k).failed) fun m k => m.endLeases k

/-- Hub `h`, whose own claim dates from hub cycle `t`, has seen the claim of a lower-numbered hub that is live still: the arcade has
brought every claim made no later than its own, and a later one where STEWARD_CLAIM says so.
(DEDUCED, log entry 53.) -/
def Mach.lowerClaim (m : Mach) (h t : Nat) : Bool :=
  (List.range h).any fun g => (m.hub g).live && (match (m.hub g).claimAt with | some u => decide (u ≤ t) || (m.hub h).sawLower | none => false)

/-- Hub `h` takes the steward role: events that waited reach it first.
(DEDUCED, log entry 53.) -/
def Mach.takeRole (m : Mach) (h : Nat) : Mach :=
  let lost := m.sys.roleAt
  let renewed := (m.hub h).renewedAt
  let m := (m.onSys fun s => { s with steward := some h, roleAt := m.cycle }).renew
  let m := m.drainHeld
  let m := if m.sys.ucodeLoaded then m.failover h lost renewed else m.loadUcode h
  m.onSys fun s => { s with lastSteward := h }

/-- Meaning of STEWARD_ELECTION_WIN (R375, R376): 2 ms after its claim a live hub that has seen no lower one takes the role.
(DEDUCED, log entry 53.) -/
def execStewardElectionWin (h : Nat) (s : State) : Host.Outcome State Fault Refusal :=
  s.app ((Instr.stewardElectionWin h).wf s.m.fam) <| Mach.aliveRun fun m =>
    match (m.hub h).claimAt with
    | some t =>
      if (m.hub h).live && decide (t + ms 2 ≤ m.cycle) && !m.lowerClaim h t && m.sys.steward.isNone then m.takeRole h else m
    | none => m

/-- Meaning of STEWARD_RENEWAL (R375): the steward renews its lease in every hub. -/
def execStewardRenewal (s : State) : Host.Outcome State Fault Refusal :=
  s.app (Instr.stewardRenewal.wf s.m.fam) <| Mach.aliveRun fun m =>
    match m.sys.steward with
    | some h => if !(m.hub h).watchdogHeld && decide ((m.hub h).renewedAt + ms 1 ≤ m.cycle) then m.renew else m
    | none => m

/-- Meaning of STEWARD_LEASE_EXPIRE (R376): a live hub's 10 ms timer has run out. The role that was not renewed has lapsed, and the hub
claims it.
(DEDUCED, log entry 53.) -/
def execStewardLeaseExpire (h : Nat) (s : State) : Host.Outcome State Fault Refusal :=
  s.app ((Instr.stewardLeaseExpire h).wf s.m.fam) <| Mach.aliveRun fun m =>
    let x := m.hub h
    if x.live && !x.watchdogHeld && x.claimAt.isNone && decide (x.renewedAt + ms 10 < m.cycle) then
      (m.when m.sys.steward.isSome fun m => m.onSys fun s => { s with steward := none, roleAt := m.cycle }).claim h
    else m

/-- Meaning of WATCHDOG_EXPIRE (R375, R378): a watchdog that has not been serviced for 10 ms fails its hub. -/
def execWatchdogExpire (h : Nat) (s : State) : Host.Outcome State Fault Refusal :=
  s.app ((Instr.watchdogExpire h).wf s.m.fam) <| Mach.aliveRun fun m =>
    let x := m.hub h
    if x.live && !x.watchdogHeld && decide (x.watchdogAt + ms 10 < m.cycle) then m.hubFail h else m

/-- Meaning of WATCHDOG_SERVICE (R375): the count starts again. -/
def execWatchdogService (h : Nat) (s : State) : Host.Outcome State Fault Refusal :=
  s.app ((Instr.watchdogService h).wf s.m.fam) <| Mach.aliveRun fun m =>
    if (m.hub h).live && !(m.hub h).watchdogHeld then m.onHub h fun x => { x with watchdogAt := m.cycle } else m

/-! ## Memory-active (R371, R373) -/

/-- A region in service from now: its bell, its updates and its leaky buckets run (R60, R208, R294).
(DEDUCED, log entry 55.) -/
def Mach.regionServes (m : Mach) (r : Nat) : Mach :=
  let m := m.onRegion r fun g =>
    { g with st := .serving, bells := 0, lastBell := m.cycle, bellAt := m.cycle + us (bellUs m.fam g.cfg.vals), eff := g.cfg
             levelAt := m.cycle, digestAt := m.cycle, rstate := 0 }
  m.onCode fun c => { c with lbRegSet := tput c.lbRegSet {} r ⟨m.regN r 0x7100 1, m.regN r 0x7100 2, 0⟩ }

/-- The outer leaky buckets' first leak periods begin (R294). -/
def Mach.outerStart (m : Mach) : Mach :=
  let ks := ((List.range (segments m.fam).length).map fun i => (0, i, 0)) ++
    (List.range (hubs m.fam)).flatMap fun h => [(1, h, h), (2, h, h)]
  m.each ks fun m k => m.onCode fun c =>
    { c with lbOutSet := tput c.lbOutSet {} (k.1 * 64 + k.2.1) ⟨m.hubN k.2.2 0x7100 1, m.hubN k.2.2 0x7100 3, m.cycle⟩ }

/-- A channel of region `r` is training still. -/
def Mach.stillTraining (m : Mach) (r : Nat) : Bool := (List.range 8).any fun c => (m.chan r c).st = .training

/-- Meaning of MEMORY_ACTIVE (R371, R372, R373): start-up ends once a steward has loaded the microcode and every channel of the regions
that came up has trained or failed; with every region fenced it ends in chip fatal.
(DEDUCED, log entry 55.) -/
def execMemoryActive (s : State) : Host.Outcome State Fault Refusal :=
  s.app (Instr.memoryActive.wf s.m.fam) <| Mach.aliveRun fun m =>
    let rs := (List.range (regions m.fam)).filter fun r => (m.region r).st ≠ .fenced
    if m.sys.phase ≠ .starting || m.sys.steward.isNone || !m.sys.ucodeLoaded || rs.any m.stillTraining then m
    else if rs.isEmpty then m.chipFatal fcNoRegion
    else
      let m := (m.onSys fun s => { s with phase := .active }).each rs fun m r => m.regionServes r
      m.outerStart.log 0x0806 0 0 0 [(32, m.usec / 1000)]

/-! ## The end of a restart (R383) -/

/-- Meaning of REGION_RESTART_DONE (R383): every channel has trained or failed and the self-test has found the blocks `bad`, as
QUARANTINE bit and pattern row. A step that fails fences the region again with that step's cause.
(DEDUCED, log entry 55.) -/
def execRegionRestartDone (r : Nat) (bad : List (Nat × Nat)) (s : State) : Host.Outcome State Fault Refusal :=
  s.app ((Instr.regionRestartDone r bad).wf s.m.fam) <| Mach.dataRun fun m =>
    if (m.region r).st ≠ .restarting || m.stillTraining r || m.sys.steward.isNone then m
    else
      let m := m.each bad fun m x => if (m.region r).st = .restarting then m.blockFails r x.1 x.2 else m
      let m := m.when ((m.region r).st = .restarting) fun m => m.takeTable r
      if (m.region r).st ≠ .restarting then m
      else
        let v := ((m.hub (m.sys.steward.getD 0)).image.map (·.ucodever)).getD 0
        let m := m.onRegion r fun g =>
          { st := .restarting, quar := g.quar, tableBlock := g.tableBlock, fenceCause := g.fenceCause, fencedAt := g.fencedAt
            loans := g.loans, cfg := m.dict.cfg, ucode := v, ucodeDigest := ((m.hub (m.sys.steward.getD 0)).image.map (·.ucodeDigest)).getD 0, sT0 := g.sT0, sT1 := g.sT1 }
        let m := (m.beginReattach r m.cycle).regionServes r
        (m.log 0x0803 0 1 r [(8, r)]).derate

/-! ## Temperatures (R389) -/

/-- The threshold of a die, °C. -/
def dieLimit : DieId → Int
  | .gddr _ _ => 95
  | _ => 100

/-- The last readings with new ones in their place. -/
def newTemps (old new : List (DieId × Int)) : List (DieId × Int) :=
  old.filter (fun x => !(new.any fun y => y.1 = x.1)) ++ new

/-- Meaning of THERMAL_READING (R389): dies are read, every 100 µs; the pin goes low when one is at its threshold and is released when
every one reads at least 5 °C below.
(DEDUCED, log entry 56.) -/
def execThermalReading (temps : List (DieId × Int)) (s : State) : Host.Outcome State Fault Refusal :=
  s.app ((Instr.thermalReading temps).wf s.m.fam) <| Mach.run fun m =>
    if (match m.sys.thermAt with | some t => decide (m.cycle < t + us 100) | none => false) then m
    else
      m.onSys fun x =>
        let l := newTemps x.temps temps
        { x with temps := l, thermAt := some m.cycle
                 thermAlert := if l.any fun y => decide (dieLimit y.1 ≤ y.2) then true
                               else if l.all fun y => decide (y.2 + 5 ≤ dieLimit y.1) then false else x.thermAlert }

/-! ## Light (Table 17.5, R225) -/

/-- What the lit transmit lanes of a port carry. -/
inductive Light where
  | dark | training | data
  deriving DecidableEq, Repr

/-- The transmit light of port `k`, and the physical lanes that have it: those of a lost laser input are dark (R221, R225).
(DEDUCED, log entry 56.) -/
def Mach.light (m : Mach) (k : Nat) : Light × BitVec 16 :=
  let p := m.port k
  if !m.alive || m.sec.fenced || m.sys.bootDark || (m.hub k).failed || !p.training || p.lit = 0 then (.dark, 0)
  else if !p.contained && (p.lt = .l0 || p.lt = .recovery) then (.data, p.lit)
  else (.training, p.lit)

end Sys2Proof.Machine
end

