-- ==== Sys2Proof/Machine/Dispatch.lean ====
section
/-! DEFINITION. The dispatcher: one meaning per command. -/

namespace Sys2Proof.Machine

def exec (i : Instr) (s : State) : Host.Outcome State Fault Refusal :=
  match i with
  | .resetNAssert ns => Sys2Proof.Machine.execResetNAssert ns s
  | .resetNRelease b => Sys2Proof.Machine.execResetNRelease b s
  | .channelTrainingDone r c ok => Sys2Proof.Machine.execChannelTrainingDone r c ok s
  | .memoryActive => Sys2Proof.Machine.execMemoryActive s
  | .startupContainmentExit k => Sys2Proof.Machine.execStartupContainmentExit k s
  | .arcadeFlitInject src dst vc pitch addr words => Sys2Proof.Machine.execArcadeFlitInject src dst vc pitch addr words s
  | .arcadeFlitHop id flips => Sys2Proof.Machine.execArcadeFlitHop id flips s
  | .arcadeCreditReturn src dst vc n => Sys2Proof.Machine.execArcadeCreditReturn src dst vc n s
  | .cellGrant r cell t => Sys2Proof.Machine.execCellGrant r cell t s
  | .blockGrant r b t => Sys2Proof.Machine.execBlockGrant r b t s
  | .hubIngressAdmit t => Sys2Proof.Machine.execHubIngressAdmit t s
  | .memrd f mv hpa tag => Sys2Proof.Machine.execMemrd f mv hpa tag s
  | .memrddata f hpa tag => Sys2Proof.Machine.execMemrddata f hpa tag s
  | .meminv f mv hpa tag => Sys2Proof.Machine.execMeminv f mv hpa tag s
  | .memclnevct f hpa tag => Sys2Proof.Machine.execMemclnevct f hpa tag s
  | .memwr f mv hpa tag data poison => Sys2Proof.Machine.execMemwr f mv hpa tag data poison s
  | .memwrptl f mv hpa tag data be poison => Sys2Proof.Machine.execMemwrptl f mv hpa tag data be poison s
  | .memspecrd f hpa => Sys2Proof.Machine.execMemspecrd f hpa s
  | .biconflict f hpa tag => Sys2Proof.Machine.execBiconflict f hpa tag s
  | .birspi f line wb => Sys2Proof.Machine.execBirspi f line wb s
  | .birsps f line wb => Sys2Proof.Machine.execBirsps f line wb s
  | .birspe f line wb => Sys2Proof.Machine.execBirspe f line wb s
  | .birspiblk f line => Sys2Proof.Machine.execBirspiblk f line s
  | .unsupportedMemMessage f opcode isRead tag => Sys2Proof.Machine.execUnsupportedMemMessage f opcode isRead tag s
  | .recallTimeout r line f => Sys2Proof.Machine.execRecallTimeout r line f s
  | .t0PageGrant r => Sys2Proof.Machine.execT0PageGrant r s
  | .descriptorMissFill r l => Sys2Proof.Machine.execDescriptorMissFill r l s
  | .refForward req => Sys2Proof.Machine.execRefForward req s
  | .sectorAccess r c => Sys2Proof.Machine.execSectorAccess r c s
  | .unfoldDone r job => Sys2Proof.Machine.execUnfoldDone r job s
  | .foldDone r move => Sys2Proof.Machine.execFoldDone r move s
  | .bell r => Sys2Proof.Machine.execBell r s
  | .moveStart r => Sys2Proof.Machine.execMoveStart r s
  | .moveComplete r move => Sys2Proof.Machine.execMoveComplete r move s
  | .accessReport r handle => Sys2Proof.Machine.execAccessReport r handle s
  | .slotLoanRequest r p => Sys2Proof.Machine.execSlotLoanRequest r p s
  | .priorityLevelUpdate r => Sys2Proof.Machine.execPriorityLevelUpdate r s
  | .requestAgeEscalate r req => Sys2Proof.Machine.execRequestAgeEscalate r req s
  | .reattachPeriodEnd r p => Sys2Proof.Machine.execReattachPeriodEnd r p s
  | .reattachend h p v => Sys2Proof.Machine.execReattachend h p v s
  | .create d => Sys2Proof.Machine.execCreate d s
  | .destroy d => Sys2Proof.Machine.execDestroy d s
  | .setattr d => Sys2Proof.Machine.execSetattr d s
  | .publish d => Sys2Proof.Machine.execPublish d s
  | .publishConvert handle => Sys2Proof.Machine.execPublishConvert handle s
  | .drop d => Sys2Proof.Machine.execDrop d s
  | .openv d => Sys2Proof.Machine.execOpenv d s
  | .close d => Sys2Proof.Machine.execClose d s
  | .fork d => Sys2Proof.Machine.execFork d s
  | .park d => Sys2Proof.Machine.execPark d s
  | .manifestSeal handle => Sys2Proof.Machine.execManifestSeal handle s
  | .resume d => Sys2Proof.Machine.execResume d s
  | .expire d => Sys2Proof.Machine.execExpire d s
  | .reattach d hdr body => Sys2Proof.Machine.execReattach d hdr body s
  | .sessionOpResume handle => Sys2Proof.Machine.execSessionOpResume handle s
  | .detachHoldExpire p mloc => Sys2Proof.Machine.execDetachHoldExpire p mloc s
  | .nop d => Sys2Proof.Machine.execNop d s
  | .fence d => Sys2Proof.Machine.execFence d s
  | .attend d => Sys2Proof.Machine.execAttend d s
  | .merge d => Sys2Proof.Machine.execMerge d s
  | .sift d => Sys2Proof.Machine.execSift d s
  | .reduce d => Sys2Proof.Machine.execReduce d s
  | .compare d => Sys2Proof.Machine.execCompare d s
  | .fill d => Sys2Proof.Machine.execFill d s
  | .copy d => Sys2Proof.Machine.execCopy d s
  | .tallyDispatch r => Sys2Proof.Machine.execTallyDispatch r s
  | .tallyRegionResult r d => Sys2Proof.Machine.execTallyRegionResult r d s
  | .queueCreate f => Sys2Proof.Machine.execQueueCreate f s
  | .queueDelete f => Sys2Proof.Machine.execQueueDelete f s
  | .sqtail f q v => Sys2Proof.Machine.execSqtail f q v s
  | .cqhead f q v => Sys2Proof.Machine.execCqhead f q v s
  | .descriptorFetch h p => Sys2Proof.Machine.execDescriptorFetch h p s
  | .fetchComplete k tag words => Sys2Proof.Machine.execFetchComplete k tag words s
  | .irqDelayExpire f q => Sys2Proof.Machine.execIrqDelayExpire f q s
  | .deadlineExpire d => Sys2Proof.Machine.execDeadlineExpire d s
  | .extadd h p v => Sys2Proof.Machine.execExtadd h p v s
  | .extgrant h p v => Sys2Proof.Machine.execExtgrant h p v s
  | .extrel h p v => Sys2Proof.Machine.execExtrel h p v s
  | .addDynamicCapacityResponse f exts => Sys2Proof.Machine.execAddDynamicCapacityResponse f exts s
  | .releaseDynamicCapacity f e => Sys2Proof.Machine.execReleaseDynamicCapacity f e s
  | .offerTimeout e f => Sys2Proof.Machine.execOfferTimeout e f s
  | .releaseRecallStart r e => Sys2Proof.Machine.execReleaseRecallStart r e s
  | .releaseClear e => Sys2Proof.Machine.execReleaseClear e s
  | .renew f v => Sys2Proof.Machine.execRenew f v s
  | .leaserenew h k ld v => Sys2Proof.Machine.execLeaserenew h k ld v s
  | .leaseExpire f => Sys2Proof.Machine.execLeaseExpire f s
  | .leaseExpired f => Sys2Proof.Machine.execLeaseExpired f s
  | .leaseLow f => Sys2Proof.Machine.execLeaseLow f s
  | .retireack f v => Sys2Proof.Machine.execRetireack f v s
  | .retirementSweepStart ticket f => Sys2Proof.Machine.execRetirementSweepStart ticket f s
  | .blockSnoopTimeout ticket f => Sys2Proof.Machine.execBlockSnoopTimeout ticket f s
  | .derateApply => Sys2Proof.Machine.execDerateApply s
  | .powerCapWindow pwr => Sys2Proof.Machine.execPowerCapWindow pwr s
  | .lossOfLight k lanes x => Sys2Proof.Machine.execLossOfLight k lanes x s
  | .lightRestored k lanes x => Sys2Proof.Machine.execLightRestored k lanes x s
  | .laserLossDeclare k idx waves x => Sys2Proof.Machine.execLaserLossDeclare k idx waves x s
  | .laserRestored k idx x => Sys2Proof.Machine.execLaserRestored k idx x s
  | .linkTraining k t => Sys2Proof.Machine.execLinkTraining k t s
  | .retrainTimer k => Sys2Proof.Machine.execRetrainTimer k s
  | .flitReceive k corrected crcOk => Sys2Proof.Machine.execFlitReceive k corrected crcOk s
  | .linkRecoveryEntry k => Sys2Proof.Machine.execLinkRecoveryEntry k s
  | .recoveryExit k rate width l0 => Sys2Proof.Machine.execRecoveryExit k rate width l0 s
  | .ideIntegrityFail k stream => Sys2Proof.Machine.execIdeIntegrityFail k stream s
  | .hotReset k => Sys2Proof.Machine.execHotReset k s
  | .release h k v => Sys2Proof.Machine.execRelease h k v s
  | .doeDiscovery mb index => Sys2Proof.Machine.execDoeDiscovery mb index s
  | .cdatTableAccess mb => Sys2Proof.Machine.execCdatTableAccess mb s
  | .cmaSpdm mb q => Sys2Proof.Machine.execCmaSpdm mb q s
  | .keyProg k set key => Sys2Proof.Machine.execKeyProg k set key s
  | .kSetGo k cxl set => Sys2Proof.Machine.execKSetGo k cxl set s
  | .kSetStop k cxl set => Sys2Proof.Machine.execKSetStop k cxl set s
  | .cxlIdeKeyProg k set key => Sys2Proof.Machine.execCxlIdeKeyProg k set key s
  | .getLdInfo k => Sys2Proof.Machine.execGetLdInfo k s
  | .fmIdentify k => Sys2Proof.Machine.execFmIdentify k s
  | .getLdAllocations k => Sys2Proof.Machine.execGetLdAllocations k s
  | .setLdAllocations k => Sys2Proof.Machine.execSetLdAllocations k s
  | .identify f => Sys2Proof.Machine.execIdentify f s
  | .getSupportedLogs f => Sys2Proof.Machine.execGetSupportedLogs f s
  | .getLog f cel => Sys2Proof.Machine.execGetLog f cel s
  | .getEventRecords f log => Sys2Proof.Machine.execGetEventRecords f log s
  | .clearEventRecords f log n => Sys2Proof.Machine.execClearEventRecords f log n s
  | .getEventInterruptPolicy f => Sys2Proof.Machine.execGetEventInterruptPolicy f s
  | .setEventInterruptPolicy f noInterrupts => Sys2Proof.Machine.execSetEventInterruptPolicy f noInterrupts s
  | .getDcConfiguration f => Sys2Proof.Machine.execGetDcConfiguration f s
  | .getDcExtentList f => Sys2Proof.Machine.execGetDcExtentList f s
  | .unsupportedMailboxCommand f opcode => Sys2Proof.Machine.execUnsupportedMailboxCommand f opcode s
  | .dictionaryMessage k h msg len => Sys2Proof.Machine.execDictionaryMessage k h msg len s
  | .dictionaryEvents k client n => Sys2Proof.Machine.execDictionaryEvents k client n s
  | .busMasterEnable f b => Sys2Proof.Machine.execBusMasterEnable f b s
  | .interruptDisable f b => Sys2Proof.Machine.execInterruptDisable f b s
  | .initiateFlr f => Sys2Proof.Machine.execInitiateFlr f s
  | .flrReady f => Sys2Proof.Machine.execFlrReady f s
  | .hdmDecoderCommit f idx base size skip ways => Sys2Proof.Machine.execHdmDecoderCommit f idx base size skip ways s
  | .intxUpdate f => Sys2Proof.Machine.execIntxUpdate f s
  | .ltrSend k => Sys2Proof.Machine.execLtrSend k s
  | .intstatClear f v => Sys2Proof.Machine.execIntstatClear f v s
  | .registerWrite t v => Sys2Proof.Machine.execRegisterWrite t v s
  | .readCompletion k tag st off words => Sys2Proof.Machine.execReadCompletion k tag st off words s
  | .completionTimeout k tag => Sys2Proof.Machine.execCompletionTimeout k tag s
  | .tagQuarantineEnd k tag => Sys2Proof.Machine.execTagQuarantineEnd k tag s
  | .writeCompletion k id st => Sys2Proof.Machine.execWriteCompletion k id st s
  | .writeTimeout k id => Sys2Proof.Machine.execWriteTimeout k id s
  | .refreshTick r c => Sys2Proof.Machine.execRefreshTick r c s
  | .refreshIssue r c => Sys2Proof.Machine.execRefreshIssue r c s
  | .refreshWindowEnd r c => Sys2Proof.Machine.execRefreshWindowEnd r c s
  | .temperatureReading r die degC => Sys2Proof.Machine.execTemperatureReading r die degC s
  | .retrainDone r c ok => Sys2Proof.Machine.execRetrainDone r c ok s
  | .channelRetryDone r c ok => Sys2Proof.Machine.execChannelRetryDone r c ok s
  | .channelFailSettle r c => Sys2Proof.Machine.execChannelFailSettle r c s
  | .leakyBucketLeak b => Sys2Proof.Machine.execLeakyBucketLeak b s
  | .injarm h v => Sys2Proof.Machine.execInjarm h v s
  | .wakeRequest d => Sys2Proof.Machine.execWakeRequest d s
  | .hello h vmin vmax probe => Sys2Proof.Machine.execHello h vmin vmax probe s
  | .read h staged entries => Sys2Proof.Machine.execRead h staged entries s
  | .write h entries => Sys2Proof.Machine.execWrite h entries s
  | .readBlock h staged index sub offset count => Sys2Proof.Machine.execReadBlock h staged index sub offset count s
  | .writeBlock h index sub ty total offset piece more => Sys2Proof.Machine.execWriteBlock h index sub ty total offset piece more s
  | .stage h mask => Sys2Proof.Machine.execStage h mask s
  | .commit h expected => Sys2Proof.Machine.execCommit h expected s
  | .configInstall hub u => Sys2Proof.Machine.execConfigInstall hub u s
  | .commitAcknowledged => Sys2Proof.Machine.execCommitAcknowledged s
  | .abort h => Sys2Proof.Machine.execAbort h s
  | .subscribe h classes least pitches => Sys2Proof.Machine.execSubscribe h classes least pitches s
  | .spdm h q => Sys2Proof.Machine.execSpdm h q s
  | .secured h inner => Sys2Proof.Machine.execSecured h inner s
  | .bye h => Sys2Proof.Machine.execBye h s
  | .malformedDatagram src why ty client seq => Sys2Proof.Machine.execMalformedDatagram src why ty client seq s
  | .eventSend client => Sys2Proof.Machine.execEventSend client s
  | .neighbourSolicitation target fromAddr => Sys2Proof.Machine.execNeighbourSolicitation target fromAddr s
  | .icmpv6Echo fromAddr id seq payload => Sys2Proof.Machine.execIcmpv6Echo fromAddr id seq payload s
  | .duplicateAddressDetection inUse => Sys2Proof.Machine.execDuplicateAddressDetection inUse s
  | .clientTimeout client => Sys2Proof.Machine.execClientTimeout client s
  | .editTimeout client => Sys2Proof.Machine.execEditTimeout client s
  | .digestRecheck r flagged => Sys2Proof.Machine.execDigestRecheck r flagged s
  | .eqread h p => Sys2Proof.Machine.execEqread h p s
  | .counterWrite h index sub v => Sys2Proof.Machine.execCounterWrite h index sub v s
  | .deficitClear h v => Sys2Proof.Machine.execDeficitClear h v s
  | .optevtClear h k v => Sys2Proof.Machine.execOptevtClear h k v s
  | .g7evtClear h r v => Sys2Proof.Machine.execG7evtClear h r v s
  | .alarmstatClear h v => Sys2Proof.Machine.execAlarmstatClear h v s
  | .restart h r v => Sys2Proof.Machine.execRestart h r v s
  | .regionRestartDone r bad => Sys2Proof.Machine.execRegionRestartDone r bad s
  | .drain h p v => Sys2Proof.Machine.execDrain h p v s
  | .drainRelease h p v => Sys2Proof.Machine.execDrainRelease h p v s
  | .clear h p v => Sys2Proof.Machine.execClear h p v s
  | .wrapkey h p v => Sys2Proof.Machine.execWrapkey h p v s
  | .fwimage h total offset piece more => Sys2Proof.Machine.execFwimage h total offset piece more s
  | .fwVerify h => Sys2Proof.Machine.execFwVerify h s
  | .fwActivate h flashOk => Sys2Proof.Machine.execFwActivate h flashOk s
  | .fwDiscard h => Sys2Proof.Machine.execFwDiscard h s
  | .hubReloadReady hub => Sys2Proof.Machine.execHubReloadReady hub s
  | .microcodeRollDone r => Sys2Proof.Machine.execMicrocodeRollDone r s
  | .rollTimeout => Sys2Proof.Machine.execRollTimeout s
  | .dbgopen h v => Sys2Proof.Machine.execDbgopen h v s
  | .securityAlarm classes => Sys2Proof.Machine.execSecurityAlarm classes s
  | .zeroized => Sys2Proof.Machine.execZeroized s
  | .fuseRecheck ok => Sys2Proof.Machine.execFuseRecheck ok s
  | .d2dTagCheck ok => Sys2Proof.Machine.execD2dTagCheck ok s
  | .stewardClaim h src => Sys2Proof.Machine.execStewardClaim h src s
  | .stewardElectionWin h => Sys2Proof.Machine.execStewardElectionWin h s
  | .stewardRenewal => Sys2Proof.Machine.execStewardRenewal s
  | .stewardLeaseExpire h => Sys2Proof.Machine.execStewardLeaseExpire h s
  | .watchdogExpire h => Sys2Proof.Machine.execWatchdogExpire h s
  | .leaseDeferredExpire f => Sys2Proof.Machine.execLeaseDeferredExpire f s
  | .regionWatchdog r => Sys2Proof.Machine.execRegionWatchdog r s
  | .referenceSweepDone r fenced => Sys2Proof.Machine.execReferenceSweepDone r fenced s
  | .thermalReading temps => Sys2Proof.Machine.execThermalReading temps s
  | .vddAonLoss => Sys2Proof.Machine.execVddAonLoss s
  | .watchdogService h => Sys2Proof.Machine.execWatchdogService h s
  | .plcaBeacon => Sys2Proof.Machine.execPlcaBeacon s
  | .linkLeavesL0 k disabled => Sys2Proof.Machine.execLinkLeavesL0 k disabled s

end Sys2Proof.Machine
end

