-- ==== Sys2Proof/Machine/Step.lean ====
section
/-! DEFINITION. The step: the command at the front of the queue, or one hub cycle where none waits. -/

namespace Sys2Proof.Machine

/-- The command at the front acts on the machine with the queue's rest; on an empty queue one hub cycle passes.
(DESIGN CHOICE, log entry 1.) (DESIGN CHOICE, log entry 26.) -/
def step (s : State) : Host.Outcome State Fault Refusal :=
  match s.pending with
  | [] => .next { s with m := s.m.tick }
  | c :: rest => exec c { s with pending := rest }

/-- `s` with the command that a word spells at the front of its queue.
(DESIGN CHOICE, log entry 2.) (DESIGN CHOICE, log entry 26.) -/
def State.withFetchWord (s : State) (nbits w : Nat) : State :=
  match decodeTableWord nbits w with
  | some c => { s with pending := c :: s.pending }
  | none => s

end Sys2Proof.Machine
end

