-- ==== Sys2Proof/Safety.lean ====
section
/-! DEFINITION. What counts as a safe run, and the terms the statements use: what a command answers, and when the units it acts on
run. -/

namespace Sys2Proof

open Machine

/-- An outcome that is a next state. -/
def Goes (o : Host.Outcome State Fault Refusal) : Prop := ∃ t, o = .next t

/-- Every waiting command is well formed for the part's configuration. -/
def PendingWf (s : State) : Prop := ∀ c ∈ s.pending, c.wf s.m.fam = true

/-- The command answers a next state whose machine is `m` and whose waiting commands are those of `s`. -/
def Answers (c : Instr) (s : State) (m : Mach) : Prop := exec c s = .next { s with m := m }

/-- Every unit the command names exists, and the data path runs: memory-active has been reached, the part is not chip fatal and the
security monitor has not fenced it (R25, R361, R370). -/
def DataReady (c : Instr) (s : State) : Prop := c.wf s.m.fam = true ∧ s.m.up = true

/-- Every unit the command names exists, and the part is out of RESET_n and not chip fatal (R25, R370). -/
def UnitReady (c : Instr) (s : State) : Prop := c.wf s.m.fam = true ∧ s.m.alive = true

/-- The part of the machine a command acts on, and so what can stop it. -/
inductive Place where
  /-- the data path: hubs, regions, tiers, sessions, queues (R361, R371) -/
  | data
  /-- the units that run whenever the part is out of RESET_n and not chip fatal (R25, R370) -/
  | unit
  /-- reset and the temperature pin, which chip fatal leaves running (R25, R389) -/
  | awake
  /-- the always-on security monitor and the start itself (R364, R370) -/
  | always
  /-- nothing: a message that is discarded (R236) -/
  | none
  deriving DecidableEq, Repr

/-- Where each command acts. -/
def Instr.place : Instr → Place
  | .resetNAssert _ | .thermalReading _ => .awake
  | .resetNRelease _ | .vddAonLoss => .always
  | .channelTrainingDone _ _ _ | .memoryActive | .arcadeFlitInject _ _ _ _ _ _ | .arcadeFlitHop _ _ | .arcadeCreditReturn _ _ _ _
  | .cellGrant _ _ _ | .reattachend _ _ _ | .extadd _ _ _ | .extgrant _ _ _ | .extrel _ _ _ | .leaserenew _ _ _ _ | .powerCapWindow _
  | .lossOfLight _ _ _ | .lightRestored _ _ _ | .laserLossDeclare _ _ _ _ | .laserRestored _ _ _ | .linkTraining _ _ | .retrainTimer _
  | .flitReceive _ _ _ | .linkRecoveryEntry _ | .recoveryExit _ _ _ _ | .ideIntegrityFail _ _ | .hotReset _ | .release _ _ _
  | .dictionaryMessage _ _ _ _ | .dictionaryEvents _ _ _ | .registerWrite _ _ | .refreshTick _ _ | .refreshIssue _ _
  | .refreshWindowEnd _ _ | .leakyBucketLeak _ | .injarm _ _ | .wakeRequest _ | .hello _ _ _ _ | .read _ _ _ | .write _ _
  | .readBlock _ _ _ _ _ _ | .writeBlock _ _ _ _ _ _ _ _ | .stage _ _ | .commit _ _ | .configInstall _ _ | .commitAcknowledged
  | .abort _ | .subscribe _ _ _ _ | .spdm _ _ | .secured _ _ | .bye _ | .malformedDatagram _ _ _ _ _ | .eventSend _
  | .neighbourSolicitation _ _ | .icmpv6Echo _ _ _ _ | .duplicateAddressDetection _ | .clientTimeout _ | .editTimeout _
  | .digestRecheck _ _ | .eqread _ _ | .counterWrite _ _ _ _ | .deficitClear _ _ | .optevtClear _ _ _ | .g7evtClear _ _ _
  | .alarmstatClear _ _ | .restart _ _ _ | .drain _ _ _ | .drainRelease _ _ _ | .clear _ _ _ | .wrapkey _ _ _ | .fwimage _ _ _ _ _
  | .fwVerify _ | .fwActivate _ _ | .fwDiscard _ | .hubReloadReady _ | .rollTimeout | .dbgopen _ _ | .securityAlarm _ | .zeroized
  | .fuseRecheck _ | .d2dTagCheck _ | .stewardClaim _ _ | .stewardElectionWin _ | .stewardRenewal | .stewardLeaseExpire _
  | .watchdogExpire _ | .watchdogService _ | .plcaBeacon | .linkLeavesL0 _ _ => .unit
  | .startupContainmentExit _ | .blockGrant _ _ _ | .hubIngressAdmit _ | .memrd _ _ _ _ | .memrddata _ _ _ | .meminv _ _ _ _
  | .memclnevct _ _ _ | .memwr _ _ _ _ _ _ | .memwrptl _ _ _ _ _ _ _ | .biconflict _ _ _ | .birspi _ _ _ | .birsps _ _ _
  | .birspe _ _ _ | .birspiblk _ _ | .unsupportedMemMessage _ _ _ _ | .recallTimeout _ _ _ | .t0PageGrant _ | .descriptorMissFill _ _
  | .refForward _ | .sectorAccess _ _ | .unfoldDone _ _ | .foldDone _ _ | .bell _ | .moveStart _ | .moveComplete _ _
  | .accessReport _ _ | .slotLoanRequest _ _ | .priorityLevelUpdate _ | .requestAgeEscalate _ _ | .reattachPeriodEnd _ _ | .create _
  | .destroy _ | .setattr _ | .publish _ | .publishConvert _ | .drop _ | .openv _ | .close _ | .fork _ | .park _ | .manifestSeal _
  | .resume _ | .expire _ | .reattach _ _ _ | .sessionOpResume _ | .detachHoldExpire _ _ | .nop _ | .fence _ | .attend _ | .merge _
  | .sift _ | .reduce _ | .compare _ | .fill _ | .copy _ | .tallyDispatch _ | .tallyRegionResult _ _ | .queueCreate _ | .queueDelete _
  | .sqtail _ _ _ | .cqhead _ _ _ | .descriptorFetch _ _ | .fetchComplete _ _ _ | .irqDelayExpire _ _ | .deadlineExpire _
  | .addDynamicCapacityResponse _ _ | .releaseDynamicCapacity _ _ | .offerTimeout _ _ | .releaseRecallStart _ _ | .releaseClear _
  | .renew _ _ | .leaseExpire _ | .leaseExpired _ | .leaseLow _ | .retireack _ _ | .retirementSweepStart _ _ | .blockSnoopTimeout _ _
  | .derateApply | .doeDiscovery _ _ | .cdatTableAccess _ | .cmaSpdm _ _ | .keyProg _ _ _ | .kSetGo _ _ _ | .kSetStop _ _ _
  | .cxlIdeKeyProg _ _ _ | .getLdInfo _ | .fmIdentify _ | .getLdAllocations _ | .setLdAllocations _ | .identify _ | .getSupportedLogs _
  | .getLog _ _ | .getEventRecords _ _ | .clearEventRecords _ _ _ | .getEventInterruptPolicy _ | .setEventInterruptPolicy _ _
  | .getDcConfiguration _ | .getDcExtentList _ | .unsupportedMailboxCommand _ _ | .busMasterEnable _ _ | .interruptDisable _ _
  | .initiateFlr _ | .flrReady _ | .hdmDecoderCommit _ _ _ _ _ _ | .intxUpdate _ | .ltrSend _ | .intstatClear _ _
  | .readCompletion _ _ _ _ _ | .completionTimeout _ _ | .tagQuarantineEnd _ _ | .writeCompletion _ _ _ | .writeTimeout _ _
  | .temperatureReading _ _ _ | .retrainDone _ _ _ | .channelRetryDone _ _ _ | .channelFailSettle _ _ | .regionRestartDone _ _
  | .microcodeRollDone _ | .leaseDeferredExpire _ | .regionWatchdog _ | .referenceSweepDone _ _ => .data
  | .memspecrd _ _ => .none

/-- The request a CXL.mem command carries to the hub of its function: the function, the tag, the HPA and what is asked (Table 09.8). A
command that carries none answers `none`. -/
def Instr.memReq : Instr → Option (Nat × HostTag × Nat × ReqKind)
  | .memrd f .invalid hpa tag => some (f, tag, hpa.toNat, .rd .none)
  | .memrd f .shared hpa tag => some (f, tag, hpa.toNat, .rd .shared)
  | .memrd f .any hpa tag => some (f, tag, hpa.toNat, .rd .own)
  | .memrddata f hpa tag => some (f, tag, hpa.toNat, .rd .shared)
  | .meminv f .any hpa tag => some (f, tag, hpa.toNat, .inv)
  | .meminv f .invalid hpa tag => some (f, tag, hpa.toNat, .evict)
  | .memclnevct f hpa tag => some (f, tag, hpa.toNat, .evict)
  | .memwr f .any hpa tag d p => some (f, tag, hpa.toNat, .wr true d (BitVec.allOnes 64) p)
  | .memwr f .invalid hpa tag d p => some (f, tag, hpa.toNat, .wr false d (BitVec.allOnes 64) p)
  | .memwrptl f .any hpa tag d be p => some (f, tag, hpa.toNat, .wr true d be p)
  | .memwrptl f .invalid hpa tag d be p => some (f, tag, hpa.toNat, .wr false d be p)
  | _ => none

/-- Descriptor record `d`, which holds `x` with opcode `op`, may start, names session record `k`, which holds `s`, and the session lets it
run: none of its pages is in a RELEASING extent and its state settles the operation so (R95, R112, R184, Table 04.6). -/
def SessRuns (m : Mach) (d op k : Nat) (x : Dtor) (s : Session) : Prop :=
  m.startable d op = some x ∧ m.byHandle x.handle = some (k, s) ∧ m.sessReleasing s = false ∧ m.gate k s x = .runs

/-- An operation that reaches session `k` ends its idle time (R118). -/
def touched (m : Mach) (k : Nat) : Mach := m.onSession k fun s => { s with idle := 0 }

/-- The dictionary message a command carries to it, with its header, and whether it comes in a secured message (R315, R320, R336). HELLO,
which opens a client, and the commands that write one object are not among them. -/
def Instr.dictMsg : Instr → Option (MHdr × Bool × DMsg)
  | .read h st es => some (h, false, .read st es)
  | .write h es => some (h, false, .write es)
  | .readBlock h st i s off cnt => some (h, false, .readBlock st i s off cnt)
  | .writeBlock h i s ty total off piece more => some (h, false, .writeBlock i s ty total off piece more)
  | .stage h mask => some (h, false, .stage mask)
  | .commit h expected => some (h, false, .commit expected)
  | .abort h => some (h, false, .abort)
  | .subscribe h c l p => some (h, false, .subscribe c l p)
  | .spdm h q => some (h, false, .spdm q)
  | .bye h => some (h, false, .bye)
  | .secured h inner => some (h, true, inner)
  | .dictionaryMessage k h msg len => if 16 ≤ len ∧ len ≤ 1296 then some ({ h with src := .inband k }, false, msg) else none
  | _ => none

/-- The dictionary takes a client's message up: its path carries messages, the dictionary is in service and no commit is under way, the
client lives there and waits for no answer, SEQ is new, VER is the client's, its version defines the message's type, and the message is
secured where the client is authenticated (R315 to R320, R330). -/
def Serves (m : Mach) (h : MHdr) (sec : Bool) (msg : DMsg) : Prop :=
  m.pathOpen h.src = true ∧ m.dictUp = true ∧ m.dict.inst = none ∧ (m.client h.client).live = true ∧ (m.client h.client).src = h.src ∧
    (m.client h.client).lastSeq ≠ some h.seq ∧ ((m.client h.client).lastSeq = none ∨ (m.client h.client).reply ≠ none) ∧
    h.ver = (m.client h.client).v ∧ (msgType msg).2 ≤ (m.client h.client).v ∧ (sec = true → 3 ≤ (m.client h.client).v) ∧
    sec = (m.client h.client).auth

/-- The machine once it has taken up the message of header `h`: the client's timeouts run anew, its SEQ is noted and no answer to it
exists yet (R317, R318). -/
def heard (m : Mach) (h : MHdr) : Mach :=
  (m.touch h.client).onClient h.client fun x => { x with lastSeq := some h.seq, reply := none }

/-- The reply to a WRITE of one object that was carried out. -/
def wroteOne (i s : Nat) : DReply := { ty := 0x03, status := 0, body := .entries [⟨i, s, 0, 0, 0, ⟨0, 0⟩⟩] }

/-- RESET_n is low and every domain but the always-on security monitor, the fuses and the model's own counters holds its reset value
(R370, R364). -/
def InReset (m : Mach) : Prop :=
  m.sys = { fatalCause := m.sys.fatalCause, fatalReport := m.sys.fatalReport, debugLatch := m.sys.debugLatch
            monClasses := m.sys.monClasses, heldAt := m.sys.heldAt } ∧
  m.sec = { svnFloor := m.sec.svnFloor } ∧
  m.link = {} ∧ m.mem = {} ∧ m.store = {} ∧ m.ext = {} ∧ m.sess = {} ∧ m.svc = {} ∧ m.dict = {} ∧ m.ev = {} ∧ m.arc = {} ∧
  m.dram = {} ∧ m.code = {} ∧ m.cnt = [] ∧ m.fp = {} ∧ m.now = {}

/-- No rise of RESET_n waits. -/
def NoRelease (l : List Instr) : Prop := ∀ c ∈ l, ∀ b, c ≠ .resetNRelease b

/-- No fall of RESET_n waits. -/
def NoAssert (l : List Instr) : Prop := ∀ c ∈ l, ∀ ns, c ≠ .resetNAssert ns

/-- `m` is chip fatal out of RESET_n, and is `m0` but for the time, what the always-on security monitor keeps and the temperatures
(R25, R389). -/
def Frozen (m0 m : Mach) : Prop :=
  m.sys.phase ≠ .held ∧ m.sys.fatal = true ∧
    m = { m0 with
          cycle := m.cycle
          sys := { m0.sys with
                   fatalCause := m.sys.fatalCause, fatalReport := m.sys.fatalReport, debugLatch := m.sys.debugLatch
                   monClasses := m.sys.monClasses, thermAlert := m.sys.thermAlert, temps := m.sys.temps, thermAt := m.sys.thermAt } }

end Sys2Proof
end

