-- ==== Sys2Proof/Certificates/Slice0/Obligations.lean ====
section
/-! DEFINITION. What is claimed of the model: one statement for each rule or group of rules of the spec, for the provers. A statement of
a command's result says on which states and operands it answers a next state, and which. -/

open Sys2Proof Sys2Proof.Machine

/-! ## The whole machine -/

/-- The block takes its commands in order: with a command at the front of the queue a step is that command's effect with the queue's rest
as it was; with no command waiting one hub cycle passes (the second clause is the model's own: log entry 1). -/
def Obligations.StepRunsTheFrontCommand : Prop :=
  (∀ (c : Instr) (rest : List Instr) (s : State), step { s with pending := c :: rest } = exec c { s with pending := rest }) ∧
  (∀ s : State, s.pending = [] → step s = .next { s with m := s.m.tick })

/-- Every command whose units the configuration has answers a next state and leaves the waiting commands as they were; every other one
stops as a command that names no unit. No command is refused. -/
def Obligations.WellFormedCommandsGo : Prop :=
  ∀ (c : Instr) (s : State),
    (c.wf s.m.fam = true → ∃ m, Answers c s m) ∧ (c.wf s.m.fam = false → exec c s = .fault .noSuchUnit)

/-- What stops a command: the data path's commands change nothing before memory-active, under chip fatal and behind the security
monitor's FENCE; the other units' commands change nothing with RESET_n low and under chip fatal; the temperature pin and a further fall
of RESET_n change nothing with RESET_n low; and a discarded message changes nothing ever. -/
def Obligations.StoppedUnitsChangeNothing : Prop :=
  ∀ (c : Instr) (s : State), c.wf s.m.fam = true →
    (c.place = .data → s.m.sys.phase ≠ .active ∨ s.m.sys.fatal = true ∨ s.m.sec.fenced = true → exec c s = .next s) ∧
    (c.place = .unit → s.m.sys.phase = .held ∨ s.m.sys.fatal = true → exec c s = .next s) ∧
    (c.place = .awake → s.m.sys.phase = .held → exec c s = .next s) ∧
    (c.place = .none → exec c s = .next s)

/-- Where the two invariants begin: the machine right after reset is in reset, every domain but the security monitor at its reset value
and no command waiting; and chip fatal is a frozen state to begin with. -/
def Obligations.InvariantsBegin : Prop :=
  (InReset State.reset.m ∧ State.reset.pending = []) ∧ ∀ m : Mach, m.sys.phase ≠ .held → m.sys.fatal = true → Frozen m m

/-- While RESET_n is low the part stays in reset: whatever other commands come, in any order, every domain but the always-on security
monitor keeps its reset value, until RESET_n rises. -/
def Obligations.HeldPartStaysInReset : Prop :=
  ∀ s s' : State, InReset s.m ∧ NoRelease s.pending → step s = .next s' → InReset s'.m ∧ NoRelease s'.pending

/-- Chip fatal freezes the part: from a machine `m0` that is chip fatal, every step keeps all of `m0`'s state, stores, tables, links and
configuration, but the time, what the security monitor records and the temperature readings, until RESET_n falls. -/
def Obligations.ChipFatalFreezesThePart : Prop :=
  ∀ (m0 : Mach) (s s' : State), Frozen m0 s.m ∧ NoAssert s.pending → step s = .next s' → Frozen m0 s'.m ∧ NoAssert s'.pending

/-! ## Ports and links (chapter 09, R253, R258 to R260) -/

/-- Light and laser inputs (R224, R225, Table 09.6). A power that has held for 2 µs below -16 dBm on a lane, or below +12 dBm on a
wavelength of a laser input, that shows no loss yet sets its loss bits, latches OPTEVT, logs the event, contains the port and takes its
link to DETECT, unless the link is held down. One that has held for 2 µs above -13 dBm, or above +13 dBm, clears the loss bits; with
light on every lane a link that waits in DETECT trains. Any other power is taken and does nothing. Nothing else of the machine changes. -/
def Obligations.LightAndLaserReports : Prop :=
  (∀ (k : Nat) (lanes : BitVec 16) (dbm : Int) (held : Nat) (s : State),
    let read (m : Mach) : Mach := m.onPort k fun p => { p with rxIn := setReadings 16 p.rxIn lanes.toNat dbm }
    let los := (s.m.port k).rxlos ||| lanes
    (UnitReady (.lightRestored k lanes ⟨dbm, held⟩) s →
      (us 2 ≤ held → -1300 < dbm →
        Answers (.lightRestored k lanes ⟨dbm, held⟩) s
          (s.m.onPort k fun p =>
            Port.settle { p with rxIn := setReadings 16 p.rxIn lanes.toNat dbm, rxlos := p.rxlos &&& ~~~lanes })) ∧
      (held < us 2 ∨ dbm ≤ -1300 → Answers (.lightRestored k lanes ⟨dbm, held⟩) s (read s.m))) ∧
    (UnitReady (.lossOfLight k lanes ⟨dbm, held⟩) s →
      (us 2 ≤ held → dbm < -1600 → lanes &&& ~~~(s.m.port k).rxlos ≠ 0 →
        Answers (.lossOfLight k lanes ⟨dbm, held⟩) s
          ((((((read s.m).onPort k fun p => { p with rxlos := los }).optevt k 0).log 0x0403 0 3 k [(8, k), (16, los.toNat)]).contain
            k 2).onPort k fun p => if p.down then p else p.lose .detect)) ∧
      (held < us 2 ∨ -1600 ≤ dbm ∨ lanes &&& ~~~(s.m.port k).rxlos = 0 → Answers (.lossOfLight k lanes ⟨dbm, held⟩) s (read s.m)))) ∧
  (∀ (k i : Nat) (waves : BitVec 4) (dbm : Int) (held : Nat) (s : State),
    let read (bits : BitVec 8) (m : Mach) : Mach := m.onPort k fun p => { p with lasIn := setReadings 8 p.lasIn bits.toNat dbm }
    let bit : BitVec 8 := waves.setWidth 8 <<< (4 * i)
    let los := (s.m.port k).laslos ||| bit
    (UnitReady (.laserRestored k i ⟨dbm, held⟩) s →
      (us 2 ≤ held → 1300 < dbm →
        Answers (.laserRestored k i ⟨dbm, held⟩) s
          (s.m.onPort k fun p => { p with lasIn := setReadings 8 p.lasIn (15#8 <<< (4 * i)).toNat dbm
                                          laslos := p.laslos &&& ~~~(15#8 <<< (4 * i)) })) ∧
      (held < us 2 ∨ dbm ≤ 1300 → Answers (.laserRestored k i ⟨dbm, held⟩) s (read (15#8 <<< (4 * i)) s.m))) ∧
    (UnitReady (.laserLossDeclare k i waves ⟨dbm, held⟩) s →
      (us 2 ≤ held → dbm < 1200 → bit &&& ~~~(s.m.port k).laslos ≠ 0 →
        Answers (.laserLossDeclare k i waves ⟨dbm, held⟩) s
          ((((((read bit s.m).onPort k fun p => { p with laslos := los }).optevt k 1).log 0x0404 0 3 k [(8, k), (8, los.toNat)]).contain
            k 3).onPort k fun p => if p.down then p else p.lose .detect)) ∧
      (held < us 2 ∨ 1200 ≤ dbm ∨ bit &&& ~~~(s.m.port k).laslos = 0 → Answers (.laserLossDeclare k i waves ⟨dbm, held⟩) s (read bit s.m))))

/-- LINK_TRAINING and RETRAIN_TIMER (R220, R227). A link that may train, with light on every lane, and whose attempt reaches x16 at
128 GT/s in flit mode with CXL.mem and port-based routing, the same map at both ends, its lanes in order or reversed, with both lasers
lit, is READY and enters L0, renumbering its lanes if they came reversed. An attempt whose lanes come in any other order, or that does
not reach all of that, leaves the link in DETECT with a retraining due 10 ms later and its fault latched and logged, and
contains the port where a hot reset asked for the training. 10 ms after a failed training a link with light on every lane trains again,
and one with a lane in loss of light stays in DETECT. A training ends nothing where none runs: the link may not train, is down, is in loss
of light, is in L0 or RECOVERY, or waits to retrain. -/
def Obligations.LinkTrains : Prop :=
  (∀ (k : Nat) (t : TrainIn) (s : State), UnitReady (.linkTraining k t) s → (s.m.port k).training = true → (s.m.port k).down = false →
    (s.m.port k).rxlos = 0 → (s.m.port k).lt ≠ .l0 → (s.m.port k).lt ≠ .recovery → (s.m.port k).retrainAt = none →
    let map := s.m.hubN k (0x5000 + k) 0x20
    let inOrder := t.lanes = List.range 16
    let turned := t.lanes = (List.range 16).reverse
    let failed (m : Mach) : Mach := m.onPort k fun p =>
      { p.lose .detect with map := map, retrainAt := some (s.m.cycle + ms 10), hotReset := false }
    let ended (m : Mach) : Mach := if (s.m.port k).hotReset then m.contain k 5 else m
    (t.rate = 128 → t.width = 16 → t.flit = true → t.cxlMem = true → t.pbr = true → t.map = map → inOrder ∨ turned →
      (s.m.port k).laslos = 0 →
      Answers (.linkTraining k t) s
        ((s.m.onPort k fun p =>
          { p with rate := 128, width := 16, flit := true, ready := true, rev := decide turned, map := map, pid := t.pid
                   hotReset := false }).enterL0 k)) ∧
    (¬inOrder → ¬turned →
      Answers (.linkTraining k t) s (ended (((failed s.m).log 0x0406 0 3 k [(8, k)]).optevt k 2))) ∧
    (inOrder ∨ turned →
      t.width ≠ 16 ∨ t.rate ≠ 128 ∨ t.flit = false ∨ t.cxlMem = false ∨ t.pbr = false ∨ t.map ≠ map ∨ (s.m.port k).laslos ≠ 0 →
      Answers (.linkTraining k t) s (ended (((failed s.m).log 0x0407 0 3 k [(8, k), (8, t.rate), (8, t.width)]).optevt k 3)))) ∧
  (∀ (k : Nat) (t : TrainIn) (s : State), UnitReady (.linkTraining k t) s →
    (s.m.port k).training = false ∨ (s.m.port k).down = true ∨ (s.m.port k).rxlos ≠ 0 ∨ (s.m.port k).lt = .l0 ∨
      (s.m.port k).lt = .recovery ∨ (s.m.port k).retrainAt ≠ none →
    Answers (.linkTraining k t) s s.m) ∧
  (∀ (k due : Nat) (s : State), UnitReady (.retrainTimer k) s → (s.m.port k).retrainAt = some due → due ≤ s.m.cycle →
    (s.m.port k).down = false →
    ((s.m.port k).rxlos = 0 → (s.m.port k).training = true →
      Answers (.retrainTimer k) s
        (s.m.onPort k fun p => { p with retrainAt := none, lt := if p.lt = .detect then .polling else p.lt })) ∧
    ((s.m.port k).rxlos ≠ 0 →
      Answers (.retrainTimer k) s (s.m.onPort k fun p => { p with retrainAt := none })))

/-- Flits and the link's own events (R228, R229, R260). A good flit ends the count of failed replays and a bad one is counted as replayed
and reported as a correctable error; four failed retries of a flit take the link to RECOVERY and log it; a recovery that comes back x16 at
128 GT/s in L0 loses nothing and any other contains the port with LINK_DOWN; a link that leaves L0 contains its port with LINK_DOWN. -/
def Obligations.FlitsAndLinkEvents : Prop :=
  (∀ (k corrected : Nat) (s : State), UnitReady (.flitReceive k corrected true) s → (s.m.port k).lt = .l0 →
    Answers (.flitReceive k corrected true) s ((s.m.fillOuter 2 k corrected).onPort k fun p => { p with replays := 0 })) ∧
  (∀ (k corrected : Nat) (s : State), UnitReady (.flitReceive k corrected false) s → (s.m.port k).lt = .l0 →
    Answers (.flitReceive k corrected false) s
      ((((s.m.fillOuter 2 k corrected).count (0x8200 + k) 5 1).onPort k fun p => { p with replays := p.replays + 1 }).aer k 0)) ∧
  (∀ (k : Nat) (s : State), UnitReady (.linkRecoveryEntry k) s → (s.m.port k).lt = .l0 → 5 ≤ (s.m.port k).replays →
    Answers (.linkRecoveryEntry k) s
      (((s.m.onPort k fun p => { p with lt := .recovery, replays := 0 }).log 0x0401 0 3 k [(8, k)]).aer k 0)) ∧
  (∀ (k : Nat) (s : State), UnitReady (.recoveryExit k 128 16 true) s → (s.m.port k).lt = .recovery →
    Answers (.recoveryExit k 128 16 true) s (s.m.enterL0 k)) ∧
  (∀ (k rate width : Nat) (l0 : Bool) (s : State), UnitReady (.recoveryExit k rate width l0) s → (s.m.port k).lt = .recovery →
    l0 = false ∨ rate ≠ 128 ∨ width ≠ 16 →
    Answers (.recoveryExit k rate width l0) s
      (((s.m.log 0x0402 0 3 k [(8, k)]).contain k 1).onPort k fun p => p.lose .detect)) ∧
  (∀ (k : Nat) (disabled : Bool) (s : State), UnitReady (.linkLeavesL0 k disabled) s → (s.m.port k).lt = .l0 →
    Answers (.linkLeavesL0 k disabled) s
      (((s.m.log 0x0402 0 3 k [(8, k)]).contain k 1).onPort k fun p => p.lose (if disabled then .disabled else .detect)))

/-- IDE failures and hot resets (R234, R260). A failed integrity check of an established stream logs it, contains the port and ends both of
its streams with their keys; a hot reset logs it, ends the streams, resets every function of the port on F2 and F4 and takes the link
back to training. -/
def Obligations.IdeFailureAndHotReset : Prop :=
  (∀ (k : Nat) (s : State), UnitReady (.ideIntegrityFail k 0) s → (s.m.port k).lt = .l0 → (s.m.port k).ideMem.active.isSome = true →
    Answers (.ideIntegrityFail k 0) s
      (((s.m.log 0x0405 0 3 k [(8, k), (8, 0)]).contain k 4).onPort k fun p => { p with ideMem := {}, ideSel := {} })) ∧
  (∀ (k : Nat) (s : State), UnitReady (.ideIntegrityFail k 1) s → (s.m.port k).lt = .l0 → (s.m.port k).ideSel.active.isSome = true →
    Answers (.ideIntegrityFail k 1) s
      (((s.m.log 0x0405 0 3 k [(8, k), (8, 1)]).contain k 4).onPort k fun p => { p with ideMem := {}, ideSel := {} })) ∧
  (∀ (k : Nat) (s : State), UnitReady (.hotReset k) s → (s.m.port k).lt = .l0 ∨ (s.m.port k).lt = .recovery →
    (hasFlr s.m.fam = false →
      Answers (.hotReset k) s
        (((s.m.log 0x0408 0 3 k [(8, k)]).onPort k fun p => { p with ideMem := {}, ideSel := {} }).onPort k
          fun p => { p.lose .polling with hotReset := true })) ∧
    (hasFlr s.m.fam = true →
      Answers (.hotReset k) s
        ((((s.m.log 0x0408 0 3 k [(8, k)]).onPort k fun p => { p with ideMem := {}, ideSel := {} }).each (portFns k) fun m f => m.flr f).onPort
          k fun p => { p.lose .polling with hotReset := true })))

/-- Start-up containment, latency messages (R373, R253). A port in start-up containment whose link is READY and whose hub lives leaves
containment once memory-active has been reached; an LTR message that is due leaves in L0 with the target's latency, if a function of
the port enables it. -/
def Obligations.StartupContainmentAndLtr : Prop :=
  (∀ (k : Nat) (s : State), DataReady (.startupContainmentExit k) s → (s.m.port k).contained = true → (s.m.port k).startup = true →
    (s.m.port k).ready = true → (s.m.hub k).failed = false → s.m.sys.bootDark = false →
    Answers (.startupContainmentExit k) s (s.m.uncontain k)) ∧
  (∀ (k : Nat) (s : State), DataReady (.ltrSend k) s → s.m.linkUp k = true → (s.m.port k).ltrDue = true → s.m.ltrOn k = true →
    Answers (.ltrSend k) s
      ((s.m.send (.ltr k (ltrField (s.m.ltrTarget k)))).onPort k fun p => { p with ltrSent := ltrField (s.m.ltrTarget k), ltrDue := false }))

/-! ## Functions towards their hosts (R231, R235, R241 to R244, R247, R248, R260, R350, R353, R410) -/

/-- The memory-device mailbox (R242, R342). Each command of a function whose BAR is open is answered through the port with its return code
and payload, latches MBOX in this hub cycle, and changes nothing else; CLEAR_EVENT_RECORDS also takes the records named out of its log. -/
def Obligations.MailboxAnswers : Prop :=
  ∀ (f : Nat) (s : State), s.m.barOpen f = true →
    let answered (m : Mach) (code : Nat) (payload : List Byte) : Mach :=
      ((m.send (.mbox f code payload)).onFn f fun x => { x with mbox := true }).latch (intKey f) 0x40
    (DataReady (.identify f) s →
      Answers (.identify f) s (answered s.m mbSuccess (Config.stdPayload 0x4000 [extentLimit s.m.fam]))) ∧
    (DataReady (.getSupportedLogs f) s →
      Answers (.getSupportedLogs f) s (answered s.m mbSuccess (Config.stdPayload 0x0400 [1]))) ∧
    (DataReady (.getLog f true) s → Answers (.getLog f true) s (answered s.m mbSuccess (Config.stdPayload 0x0401 []))) ∧
    (DataReady (.getLog f false) s → Answers (.getLog f false) s (answered s.m mbUnsupported [])) ∧
    (DataReady (.getEventRecords f 4) s →
      Answers (.getEventRecords f 4) s
        (answered s.m mbSuccess (Config.stdPayload 0x0100 (4 :: ((s.m.fn f).dclog.map DcRec.nums).flatten)))) ∧
    (DataReady (.getEventRecords f 5) s →
      Answers (.getEventRecords f 5) s
        (answered s.m mbSuccess (Config.stdPayload 0x0100 (5 :: ((tget s.m.ev.pq [] (s.m.pitchOf f)).map EvRec.nums).flatten)))) ∧
    (∀ n, DataReady (.clearEventRecords f 4 n) s →
      Answers (.clearEventRecords f 4 n) s
        (answered (s.m.onFn f fun x => { x with dclog := x.dclog.drop n }) mbSuccess [])) ∧
    (∀ n, DataReady (.clearEventRecords f 5 n) s →
      Answers (.clearEventRecords f 5 n) s
        (answered (s.m.onEv fun v => { v with pq := tput v.pq [] (s.m.pitchOf f) ((tget v.pq [] (s.m.pitchOf f)).drop n) }) mbSuccess [])) ∧
    (DataReady (.getEventInterruptPolicy f) s →
      Answers (.getEventInterruptPolicy f) s (answered s.m mbSuccess (Config.stdPayload 0x0102 [0, 0, 0, 0, 0]))) ∧
    (∀ b, DataReady (.setEventInterruptPolicy f b) s →
      Answers (.setEventInterruptPolicy f b) s (answered s.m (if b then mbSuccess else mbInvalidInput) [])) ∧
    (DataReady (.getDcConfiguration f) s →
      Answers (.getDcConfiguration f) s
        (answered s.m mbSuccess
          (Config.stdPayload 0x4800 [1, 0, extentLimit s.m.fam * 2 ^ 28, extentLimit s.m.fam * 2 ^ 28, 2 ^ 28]))) ∧
    (DataReady (.getDcExtentList f) s →
      Answers (.getDcExtentList f) s (answered s.m mbSuccess (Config.stdPayload 0x4801 ((s.m.heldBy f).map fun e => e * 2 ^ 28)))) ∧
    (∀ opcode, DataReady (.unsupportedMailboxCommand f opcode) s →
      Answers (.unsupportedMailboxCommand f opcode) s (answered s.m mbUnsupported []))

/-- The FM-owned logical device and the DOE mailboxes (R231, R235, R244). With the port's link up every command is answered through the
port and changes nothing; SET_LD_ALLOCATIONS is answered Unsupported. -/
def Obligations.FabricManagerAndDoeAnswers : Prop :=
  (∀ (k : Nat) (s : State), s.m.linkUp k = true →
    (DataReady (.getLdInfo k) s →
      Answers (.getLdInfo k) s (s.m.send (.fmMbox k mbSuccess (Config.stdPayload 0x5400 [extentLimit s.m.fam * 2 ^ 28, 16])))) ∧
    (DataReady (.fmIdentify k) s →
      Answers (.fmIdentify k) s (s.m.send (.fmMbox k mbSuccess (Config.stdPayload 0x0001 [0x1F9C, (deviceId s.m.fam).toNat])))) ∧
    (DataReady (.getLdAllocations k) s →
      Answers (.getLdAllocations k) s
        (s.m.send (.fmMbox k mbSuccess (Config.stdPayload 0x5401 ((portFns k).map fun f => (s.m.heldBy f).length))))) ∧
    (DataReady (.setLdAllocations k) s → Answers (.setLdAllocations k) s (s.m.send (.fmMbox k mbUnsupported [])))) ∧
  (∀ (mb : Mbx) (s : State), s.m.doeOpen mb = true →
    (∀ index, DataReady (.doeDiscovery mb index) s → Answers (.doeDiscovery mb index) s (s.m.send (.doe mb (doeEntry index)))) ∧
    (DataReady (.cdatTableAccess mb) s →
      Answers (.cdatTableAccess mb) s (s.m.send (.doe mb (Config.stdPayload 0x2 (cdatNums s.m.fam))))))

/-- A DOE mailbox's SPDM conversation (R350): each request of at most 4 KiB that reaches it is answered with its response code and its
payload, and its conversation and sessions follow the answer; a longer one changes nothing (the model's choice: log entry 104). In
particular GET_VERSION is answered with a version response and begins the conversation, GET_CAPABILITIES after it with its capabilities, and
NEGOTIATE_ALGORITHMS after those with the algorithms when the requester offers those of Table 16.3. -/
def Obligations.SpdmMailboxConverses : Prop :=
  (∀ (mb : Mbx) (q : SpdmReq) (len : Nat) (s : State), DataReady (.cmaSpdm mb ⟨q, len⟩) s → s.m.doeOpen mb = true →
    (4096 < len → Answers (.cmaSpdm mb ⟨q, len⟩) s s.m) ∧
    (len ≤ 4096 → Answers (.cmaSpdm mb ⟨q, len⟩) s
      ((s.m.onSec fun x =>
        { x with spdmNeg := (x.spdmNeg.filter fun y => y.1 ≠ mb) ++ [(mb, (s.m.spdmAnswer (s.m.mbxCtx mb) q).1)]
                 spdm := spdmApply mb x.spdm (s.m.spdmAnswer (s.m.mbxCtx mb) q).2.2 }).send
        (.spdm mb (s.m.spdmAnswer (s.m.mbxCtx mb) q).2.1 (s.m.spdmBody doeTransfer q (s.m.spdmAnswer (s.m.mbxCtx mb) q).2.1))))) ∧
  (∀ (m : Mach) (c : SpdmCtx), m.spdmAnswer c .getVersion = (1, 0x04, .none)) ∧
  (∀ (m : Mach) (c : SpdmCtx), 1 ≤ c.level → (m.spdmAnswer c .getCapabilities).2.1 = 0x61) ∧
  (∀ (m : Mach) (c : SpdmCtx), 2 ≤ c.level → m.spdmAnswer c (.negotiate true) = (3, 0x63, .none)) ∧
  (∀ (m : Mach) (c : SpdmCtx) (slot : Nat), c.level = 3 → m.certHeld slot = true → c.pending = false → c.signs = true →
    (c.room = true → m.spdmAnswer c (.keyExchange slot) = (3, 0x64, .opened)) ∧
    (c.room = false → m.spdmAnswer c (.keyExchange slot) = (3, 0x7F0A, .none)))

/-- IDE keys (R353, R234). Inside a secured session of the port's key manager, KEY_PROG and CXL_IDE_KEY_PROG program the idle key set of
the selective and of the CXL.mem stream, K_SET_GO switches a stream to a programmed set and lets go what waited for it, and K_SET_STOP
erases a set, ending the stream that used it; where the port then lacks a stream it must have, the requests that wait there are
discarded. -/
def Obligations.IdeKeysAreSet : Prop :=
  ∀ (k set : Nat) (s : State), s.m.keysOpen k = true →
    (∀ key, DataReady (.keyProg k set key) s → (s.m.port k).ideSel.active ≠ some set →
      Answers (.keyProg k set key) s (s.m.onPort k fun p => { p with ideSel := p.ideSel.setKey set (some key) })) ∧
    (∀ key, DataReady (.cxlIdeKeyProg k set key) s → (s.m.port k).ideMem.active ≠ some set →
      Answers (.cxlIdeKeyProg k set key) s (s.m.onPort k fun p => { p with ideMem := p.ideMem.setKey set (some key) })) ∧
    (DataReady (.kSetGo k true set) s → ((s.m.port k).ideMem.key set).isSome = true →
      Answers (.kSetGo k true set) s ((s.m.onPort k fun p => { p with ideMem := { p.ideMem with active := some set } }).idePump k)) ∧
    (DataReady (.kSetGo k false set) s → ((s.m.port k).ideSel.key set).isSome = true →
      Answers (.kSetGo k false set) s ((s.m.onPort k fun p => { p with ideSel := { p.ideSel with active := some set } }).idePump k)) ∧
    (DataReady (.kSetStop k true set) s → (s.m.port k).ideMem.active = some set →
      Answers (.kSetStop k true set) s ((s.m.onPort k fun p => { p with ideMem := { p.ideMem.setKey set none with active := none } }).ideShut k)) ∧
    (DataReady (.kSetStop k false set) s → (s.m.port k).ideSel.active = some set →
      Answers (.kSetStop k false set) s ((s.m.onPort k fun p => { p with ideSel := { p.ideSel.setKey set none with active := none } }).ideShut k))

/-- Configuration space and HDM decoders (R241, R248, R410, Table 10.1). The Command bits take the value written, Bus Master Enable
letting go what it held; a decoder commit at one way with a base and a size that are multiples of 256 MiB commits the decoder, and any
other fails with the commit error bit; Interrupt Line and the BARs take what is written to them, the BAR's low bits staying as they
are. Nothing else changes. -/
def Obligations.FunctionRegistersTakeWrites : Prop :=
  (∀ (f : Nat) (s : State), s.m.cfgOpen f = true →
    (DataReady (.busMasterEnable f true) s →
      Answers (.busMasterEnable f true) s ((s.m.onFn f fun x => { x with command := x.command ||| 4#16 }).busOn f)) ∧
    (DataReady (.busMasterEnable f false) s →
      Answers (.busMasterEnable f false) s (s.m.onFn f fun x => { x with command := x.command &&& 0xFFFB#16 })) ∧
    (DataReady (.interruptDisable f true) s →
      Answers (.interruptDisable f true) s (s.m.onFn f fun x => { x with command := x.command ||| 0x400#16 })) ∧
    (DataReady (.interruptDisable f false) s →
      Answers (.interruptDisable f false) s (s.m.onFn f fun x => { x with command := x.command &&& 0xFBFF#16 })) ∧
    (∀ v : BitVec 64, DataReady (.registerWrite (.config f 0x3C) v) s →
      Answers (.registerWrite (.config f 0x3C) v) s (s.m.onFn f fun x => { x with intLine := v.truncate 8 })) ∧
    (∀ v : BitVec 64, DataReady (.registerWrite (.config f 0x10) v) s →
      Answers (.registerWrite (.config f 0x10) v) s
        (s.m.onFn f fun x => { x with bar0 := (x.bar0 &&& 0xFFFFFFFF00000000#64) ||| (v &&& 0xFFF00000#64) ||| 4 })) ∧
    (∀ v : BitVec 64, DataReady (.registerWrite (.config f 0x14) v) s →
      Answers (.registerWrite (.config f 0x14) v) s
        (s.m.onFn f fun x => { x with bar0 := (x.bar0 &&& 0xFFFFFFFF#64) ||| (v <<< 32) }))) ∧
  (∀ (f : Nat) (base size skip : BitVec 64) (ways : Nat) (s : State), s.m.barOpen f = true →
    (DataReady (.hdmDecoderCommit f 0 base size skip ways) s → ways = 1 → base.toNat % 2 ^ 28 = 0 → size.toNat % 2 ^ 28 = 0 →
      Answers (.hdmDecoderCommit f 0 base size skip ways) s
        (s.m.onFn f fun x => { x with dec0 := ⟨true, false, base.toNat, size.toNat, skip.toNat⟩ })) ∧
    (DataReady (.hdmDecoderCommit f 1 base size skip ways) s → ways = 1 → base.toNat % 2 ^ 28 = 0 → size.toNat % 2 ^ 28 = 0 →
      Answers (.hdmDecoderCommit f 1 base size skip ways) s
        (s.m.onFn f fun x => { x with dec1 := ⟨true, false, base.toNat, size.toNat, skip.toNat⟩ })) ∧
    (DataReady (.hdmDecoderCommit f 0 base size skip ways) s → ways ≠ 1 ∨ base.toNat % 2 ^ 28 ≠ 0 ∨ size.toNat % 2 ^ 28 ≠ 0 →
      Answers (.hdmDecoderCommit f 0 base size skip ways) s
        (s.m.onFn f fun x => { x with dec0 := { x.dec0 with committed := false, error := true } })))

/-- Interrupts and resets of a function (R165, R247, R248, R260). INTX_UPDATE and an expired delay of a pending queue send the function's
level when it differs from the one last sent; INTSTAT_CLEAR clears the latched bits written as 1, but for those set in
the same hub cycle, and no other; on F2 and F4 INITIATE_FLR
resets the function, and it is ready again once its lease is NONE or 100 ms have passed. -/
def Obligations.InterruptsAndFunctionReset : Prop :=
  (∀ (f : Nat) (s : State), DataReady (.intxUpdate f) s → s.m.linkUp (f / 16) = true → s.m.intLevel f ≠ (s.m.fn f).intsent →
    Answers (.intxUpdate f) s ((s.m.send (.intx f (s.m.intLevel f))).onFn f fun x => { x with intsent := s.m.intLevel f })) ∧
  (∀ (f : Nat) (s : State), DataReady (.intxUpdate f) s → s.m.intLevel f = (s.m.fn f).intsent → Answers (.intxUpdate f) s s.m) ∧
  (∀ (f q : Nat) (s : State), DataReady (.irqDelayExpire f q) s → s.m.qpend f q = true → s.m.linkUp (f / 16) = true →
    s.m.intLevel f ≠ (s.m.fn f).intsent →
    Answers (.irqDelayExpire f q) s ((s.m.send (.intx f (s.m.intLevel f))).onFn f fun x => { x with intsent := s.m.intLevel f })) ∧
  (∀ (f : Nat) (v : BitVec 64) (s : State), DataReady (.intstatClear f v) s → s.m.barOpen f = true →
    let c := v &&& ~~~(s.m.latched (intKey f))
    Answers (.intstatClear f v) s
      (s.m.onFn f fun x =>
        { x with ras := x.ras && !c.getLsbD 7, mbox := x.mbox && !c.getLsbD 6, leaseBit := x.leaseBit && !c.getLsbD 4 })) ∧
  (∀ (f : Nat) (s : State), DataReady (.initiateFlr f) s → hasFlr s.m.fam = true → s.m.cfgOpen f = true →
    Answers (.initiateFlr f) s (s.m.flr f)) ∧
  (∀ (f t : Nat) (s : State), DataReady (.flrReady f) s → (s.m.fn f).flrAt = some t →
    (s.m.fn f).lease = .none ∨ t + ms 100 ≤ s.m.cycle →
    Answers (.flrReady f) s (s.m.onFn f fun x => { x with flrAt := none }))

/-! ## CXL.mem (R24, R33, R37, R178, R183, R194, R196, R199, R200, R204, R207 to R209, R236, R237, R241) -/

/-- A CXL.mem request at its hub (R178, R183, R204, R236, R241, Table 09.8). On a port that carries CXL.mem, with room in the ingress
buffer: a request whose address decodes to memory granted to its function takes its place at the end of the buffer, and the hub admits
what it may; one to an extent under release completes at once, poison for a read; one outside every decoder, or to memory its function
does not hold, is a stray. A MetaValue the table does not name is discarded as an unsupported message. -/
def Obligations.RequestsReachTheHub : Prop :=
  (∀ (c : Instr) (f hpa : Nat) (tag : HostTag) (kind : ReqKind) (s : State), c.memReq = some (f, tag, hpa, kind) → DataReady c s →
    s.m.memOpen (f / 16) = true → (s.m.port (f / 16)).ingress.length < 2048 →
    let q (dpa : Nat) : Req := { id := s.m.nextId, fn := f, tag := tag, kind := kind, dpa := dpa, at_ := s.m.cycle }
    (∀ dpa, s.m.decodeHpa f hpa = some dpa → s.m.settleAt f dpa = .served →
      Answers c s ((s.m.renumber.onPort (f / 16) fun x => { x with ingress := x.ingress ++ [q (dpa / 64 * 64)] }).admitHeads (f / 16) 4)) ∧
    (∀ dpa, s.m.decodeHpa f hpa = some dpa → s.m.settleAt f dpa = .releasing →
      Answers c s (s.m.renumber.refuse (q (dpa / 64 * 64)))) ∧
    (∀ dpa, s.m.decodeHpa f hpa = some dpa → s.m.settleAt f dpa = .stray →
      Answers c s (s.m.renumber.stray (q (dpa / 64 * 64)))) ∧
    (s.m.decodeHpa f hpa = none → Answers c s (s.m.renumber.stray (q 0)))) ∧
  (∀ (f : Nat) (tag : HostTag) (hpa : BitVec 64) (d : Line) (be : BitVec 64) (p : Bool) (s : State),
    (DataReady (.meminv f .shared hpa tag) s → Answers (.meminv f .shared hpa tag) s (s.m.unsupported f 0 tag false)) ∧
    (DataReady (.memwr f .shared hpa tag d p) s → Answers (.memwr f .shared hpa tag d p) s (s.m.unsupported f 1 tag false)) ∧
    (DataReady (.memwrptl f .shared hpa tag d be p) s →
      Answers (.memwrptl f .shared hpa tag d be p) s (s.m.unsupported f 2 tag false)))

/-- What a stray request and a request under release get (R178, R183). On a port in L0 a read gets poisoned data and then a completion
without state, any other request that completion alone; a stray besides counts in its function's counter and takes one of its hub's
admissions, and is logged when its function has logged none in this millisecond. -/
def Obligations.StraysAreAnswered : Prop :=
  ∀ (m : Mach) (q : Req), m.memOpen (q.fn / 16) = true → q.internal = false →
    (∀ k, q.kind = .rd k → m.refuse q = (m.send (.rsp q.fn q.tag (.memData 0 true))).send (.rsp q.fn q.tag .cmp)) ∧
    ((∀ k, q.kind ≠ .rd k) → m.refuse q = m.send (.rsp q.fn q.tag .cmp)) ∧
    ((m.fn q.fn).strayAt = some m.msec →
      m.stray q = ((m.count (0x8300 + q.fn) 1 1).onHub (q.fn / 16) fun h => { h with admitted := h.admitted + 1 }).refuse q)

/-- The other messages of Table 09.8 (R236, R237): MemSpecRd is discarded without an answer; BIConflict is acknowledged; a message the
part does not support is counted and, when its function has logged one in this millisecond, nothing more, a read among them completing
with poison. -/
def Obligations.OtherMemMessages : Prop :=
  (∀ (f : Nat) (hpa : BitVec 64) (s : State), (Instr.memspecrd f hpa).wf s.m.fam = true → exec (.memspecrd f hpa) s = .next s) ∧
  (∀ (f : Nat) (tag : HostTag) (hpa : BitVec 64) (s : State), DataReady (.biconflict f hpa tag) s → s.m.memOpen (f / 16) = true →
    Answers (.biconflict f hpa tag) s (s.m.send (.rsp f tag .biConflictAck))) ∧
  (∀ (f opcode : Nat) (tag : HostTag) (isRead : Bool) (s : State), DataReady (.unsupportedMemMessage f opcode isRead tag) s →
    s.m.memOpen (f / 16) = true → (s.m.fn f).protAt = some s.m.msec →
    Answers (.unsupportedMemMessage f opcode isRead tag) s
      (if isRead then ((s.m.count (0x8200 + f / 16) 7 1).send (.rsp f tag (.memData 0 true))).send (.rsp f tag .cmp)
       else s.m.count (0x8200 + f / 16) 7 1))

/-- Answers to snoops (R194, R196, R236). A holder's answer ends its snoop and changes the directory entry of the line by Table 09.8: BIRspI
takes the holder out, which leaves the entry INVALID after the last sharer's or the owner's, BIRspS leaves the owner a sharer, BIRspE to
BISnpCur leaves the entry as it is; a recall of the entry goes on to every holder that no snoop is out to. Data written back is written to
the line. Once no snoop of the line is left, the requests that wait for the line or for a way are served. -/
def Obligations.SnoopAnswersSettle : Prop :=
  (∀ (f line w : Nat) (a : BiAns) (wb : Option Line) (sn : Snoop) (s : State),
    let c : Instr := match a with | .i => .birspi f line wb | .s => .birsps f line wb | .e => .birspe f line wb
    DataReady c s → s.m.memOpen (f / 16) = true → (s.m.ext.snoops.find? fun x => x.fn = f && x.line = line) = some sn →
    (s.m.unsnoop sn.region f line).dirWay sn.region line = some w →
    let left := s.m.unsnoop sn.region f line
    let settled :=
      (left.dirPut sn.region (dirSet line) w ((left.dirAt sn.region (dirSet line) w).answered f sn.kind a)).recallRest sn.region line
    (wb = none → settled.snooping sn.region line = true → Answers c s settled) ∧
    (wb = none → settled.snooping sn.region line = false →
      Answers c s (settled.pump none sn.region fun x => x.why = .line || x.why = .way)) ∧
    (∀ d, wb = some d →
      let written := settled.renumber.serve none
        { id := settled.nextId, fn := f, tag := {}, kind := .wr false d (BitVec.allOnes 64) false, dpa := line * 64, at_ := settled.cycle
          ord := settled.nextId, internal := true, wb := true }
      (written.snooping sn.region line = true → Answers c s written) ∧
      (written.snooping sn.region line = false →
        Answers c s (written.pump none sn.region fun x => x.why = .line || x.why = .way)))) ∧
  (∀ (e : DirEnt) (f : Nat) (k : SnpKind),
    (e.st = .owned → e.owner = f → (e.answered f k .i).st = .invalid) ∧
    (e.st = .shared → e.sharers &&& ~~~(1#128 <<< f) = 0 → (e.answered f k .i).st = .invalid) ∧
    (e.st = .shared → e.sharers &&& ~~~(1#128 <<< f) ≠ 0 →
      e.answered f k .i = { e with sharers := e.sharers &&& ~~~(1#128 <<< f) }) ∧
    (e.st = .owned → e.owner = f → k ≠ .inv →
      e.answered f k .s = { e with st := .shared, sharers := 1#128 <<< f, owner := 0 }) ∧
    (e.answered f .cur .e = e))

/-- Recalls and block snoops (R196, R199, R200). A holder that has not answered a recall within its pitch's lease term is forced out of the
entry, the event is logged and its lease ends; where it is a sharer of a line of an extent under release, the forced-out count of the
release rises. An answer to a block snoop ends it and lets its port's next go out in ticket order; the last one discharges the retirement.
-/
def Obligations.RecallsAndBlockSnoopsEnd : Prop :=
  (∀ (r line f w : Nat) (sn : Snoop) (s : State), DataReady (.recallTimeout r line f) s →
    (s.m.ext.snoops.find? fun x => x.region = r && x.line = line && x.fn = f) = some sn →
    sn.at_ + s.m.leaseTerm (s.m.pitchOf f) < s.m.cycle → s.m.dirWay r line = some w →
    let owned : Prop := (s.m.dirAt r (dirSet line) w).st = .owned ∧ (s.m.dirAt r (dirSet line) w).owner = f
    let ended (m : Mach) : Mach :=
      let forced := m.settleEntry f r (dirSet line) w
      (forced.log 0x0005 (forced.pitchOf f) 4 f [(8, f), (64, line)]).leaseEnd f
    (owned ∨ (s.m.extent (extOf (line / 64))).st ≠ .releasing → Answers (.recallTimeout r line f) s (ended s.m)) ∧
    (¬owned → (s.m.extent (extOf (line / 64))).st = .releasing →
      Answers (.recallTimeout r line f) s
        (ended (s.m.onExtent (extOf (line / 64)) fun x => { x with forced := x.forced + 1 })))) ∧
  (∀ (f line : Nat) (t t' : Ticket) (s : State), DataReady (.birspiblk f line) s → s.m.memOpen (f / 16) = true →
    (s.m.ext.tickets.find? fun t => t.sweeps.any fun x => x.fn = f && x.sent.any fun y => y.1 = line) = some t →
    let m := (s.m.onTicket t.num fun t =>
      { t with sweeps := lmod t.sweeps (fun x => x.fn = f) fun x => { x with sent := x.sent.filter fun y => y.1 ≠ line } }).sendBlocks (f / 16) 64
    m.ticketAt t.num = some t' →
    ((t'.sweeps.any fun x => x.fn = f && x.sent.isEmpty && (m.ticketBlock t' x.next).isNone) = false → Answers (.birspiblk f line) s m) ∧
    ((t'.sweeps.any fun x => x.fn = f && x.sent.isEmpty && (m.ticketBlock t' x.next).isNone) = true →
      Answers (.birspiblk f line) s ((m.discharge f fun x => x.num = t.num).sendBlocks (f / 16) 64)))

/-- The hub admits (R204, R25). With its port NORMAL and its streams up and fewer than four admissions made in this hub cycle, the pitch
with a guaranteed token that is next in round-robin order has its head admitted: its token of both buckets is taken, the request leaves
the buffer, is counted and is served by its region. A pitch with no guaranteed token that smooth weighted round-robin takes has its head
admitted with a token of the pool. With four admissions made nothing is admitted. An uncorrectable error in the transaction state of a
hub that has not failed is chip fatal. -/
def Obligations.HubAdmitsByGuarantee : Prop :=
  let none_ : FetchOffer := ⟨0, 0, 0, 0⟩
  (∀ (h p : Nat) (q : Req) (s : State), DataReady (.hubIngressAdmit ⟨h, false⟩) s → (s.m.hub h).admitted < 4 → s.m.normal h = true →
    s.m.ideOpen h = true →
    ((after (s.m.hub h).rrPitch (s.m.waitingPitches h none_)).find? fun p => s.m.tokenStep h p = some 1) = some p →
    s.m.headOf h p = some q →
    Answers (.hubIngressAdmit ⟨h, false⟩) s ((s.m.admitReq h p 1 q).admitHeads h 3)) ∧
  (∀ (h p : Nat) (q : Req) (counts : Tab Int) (s : State), DataReady (.hubIngressAdmit ⟨h, false⟩) s → (s.m.hub h).admitted < 4 →
    s.m.normal h = true → s.m.ideOpen h = true →
    ((after (s.m.hub h).rrPitch (s.m.waitingPitches h none_)).find? fun p => s.m.tokenStep h p = some 1) = none →
    wrrPick (s.m.weightAt h) (s.m.hub h).wrr ((s.m.waitingPitches h none_).filter fun p => s.m.tokenStep h p = some 2)
      = some (p, counts) →
    (s.m.onHub h fun x => { x with wrr := counts }).headOf h p = some q →
    Answers (.hubIngressAdmit ⟨h, false⟩) s
      (((s.m.onHub h fun x => { x with wrr := counts }).admitReq h p 2 q).admitHeads h 3)) ∧
  (∀ (h : Nat) (s : State), DataReady (.hubIngressAdmit ⟨h, false⟩) s → 4 ≤ (s.m.hub h).admitted →
    Answers (.hubIngressAdmit ⟨h, false⟩) s s.m) ∧
  (∀ (h : Nat) (s : State), DataReady (.hubIngressAdmit ⟨h, true⟩) s → (s.m.hub h).failed = false →
    Answers (.hubIngressAdmit ⟨h, true⟩) s (s.m.chipFatal fcHubState)) ∧
  (∀ (m : Mach) (h p : Nat) (q : Req),
    let taken :=
      (((m.onPort h fun x => { x with ingress := x.ingress.filter fun y => y.id ≠ q.id }).takeToken h p 1).onHub h fun x =>
        { x with rrFn := tput x.rrFn 0 p (q.fn + 1) }).count (0x8400 + p) (if q.isWr then 4 else 3) 1
    m.admitReq h p 1 q = taken.renumber.serve none { q with at_ := m.cycle, ord := m.nextId }) ∧
  (∀ (m : Mach) (h p : Nat),
    (tget ((m.takeToken h p 1).hub h).ceil {} p).tok = (tget (m.hub h).ceil {} p).tok - oneTok ∧
    (tget ((m.takeToken h p 1).hub h).guar {} p).tok = (tget (m.hub h).guar {} p).tok - oneTok ∧
    ((m.takeToken h p 1).hub h).admitted = (m.hub h).admitted + 1 ∧
    (tget ((m.takeToken h p 2).hub h).ceil {} p).tok = (tget (m.hub h).ceil {} p).tok - oneTok ∧
    ((m.takeToken h p 2).hub h).pool.tok = (m.hub h).pool.tok - oneTok ∧
    ((m.takeToken h p 2).hub h).admitted = (m.hub h).admitted + 1)

/-- The region's own events on waiting requests (R27, R33, R37, R49, R292): a granted T0 page serves the requests that wait for one and
lets unfolded pages land that are to be kept; a line of descriptors that requests wait for and whose descriptor page is at hand in T1
enters the page-map cache, and what missed it is served, in whichever region it waits; a line whose page is still to come is asked for
again; a request to a REF slot goes on in the region of its pool entry. -/
def Obligations.WaitingRequestsGoOn : Prop :=
  (∀ (r : Nat) (s : State), DataReady (.t0PageGrant r) s →
    Answers (.t0PageGrant r) s ((s.m.pump none r fun w => w.why = .t0).landKeeps r)) ∧
  (∀ (r line : Nat) (bad : BitVec 2) (s : State), DataReady (.descriptorMissFill r ⟨line, bad⟩) s → (s.m.region r).st = .serving →
    (s.m.mem.waits.any fun w => w.why = .miss && s.m.missAt w.req = (r, line)) = true →
    (s.m.lineAtHand r line = false → Answers (.descriptorMissFill r ⟨line, bad⟩) s (s.m.fetchLine r line)) ∧
    (s.m.lineAtHand r line = true → bad = 0 ∨ (s.m.lineSector r line).isSome = false →
      let ids := (s.m.mem.waits.filter fun w => w.why = .miss && s.m.missAt w.req = (r, line)).map (·.req.id)
      let rs := ((s.m.mem.waits.filter fun w => ids.contains w.req.id).map (·.region)).eraseDups
      Answers (.descriptorMissFill r ⟨line, bad⟩) s
        ((s.m.pmInstall r line).each rs fun m q => m.pump none q fun w => ids.contains w.req.id)) ∧
    (s.m.lineAtHand r line = true → bad ≠ 0 → (s.m.lineSector r line).isSome = true →
      Answers (.descriptorMissFill r ⟨line, bad⟩) s (s.m.lineFlagged r line bad))) ∧
  (∀ (req : Nat) (w : Wait) (s : State), DataReady (.refForward req) s →
    (s.m.mem.waits.find? fun w => w.req.id = req && w.why = .fwd) = some w →
    Answers (.refForward req) s (s.m.serve none { w.req with forwarded := true, at_ := s.m.cycle }))

/-- Priority (R208, R209). Every 256 region cycles the level of each pitch and class becomes that of its average against its target, and
nothing of the region but the levels and their time changes; a request that has waited 64 µs is marked to be served as level 7. The level
is 0 below half the target, 7 from the target on. -/
def Obligations.PriorityLevels : Prop :=
  (∀ (r : Nat) (s : State), DataReady (.priorityLevelUpdate r) s → (s.m.region r).st = .serving →
    (s.m.region r).levelAt + 512 ≤ s.m.cycle →
    ∃ m, Answers (.priorityLevelUpdate r) s m ∧
      (∀ p c, 1 ≤ p → p < 64 → c < 3 →
        tget (m.region r).level 0 (p * 3 + c)
          = levelFor (tget (s.m.region r).avg 0 (p * 3 + c)) (s.m.regN r (0x3000 + p) (tgtSub c))) ∧
      m.region r = { s.m.region r with
        level := (m.region r).level, levelAt := (s.m.region r).levelAt + 512 * ((s.m.cycle - (s.m.region r).levelAt) / 512) } ∧
      (∀ q, q ≠ r → m.region q = s.m.region q) ∧ m = { s.m with mem := { s.m.mem with regions := m.mem.regions } }) ∧
  (∀ (r req : Nat) (w : Wait) (s : State), DataReady (.requestAgeEscalate r req) s →
    (s.m.mem.waits.find? fun w => w.req.id = req && w.region = r) = some w → w.req.at_ + us 64 ≤ s.m.cycle →
    Answers (.requestAgeEscalate r req) s (s.m.onMem fun x =>
      { x with waits := lmod x.waits (fun y => y.req.id = req) fun y => { y with req := { y.req with aged := true } } })) ∧
  (∀ (m : Mach) (w : Wait), w.req.aged = true → m.levelOf w = 7) ∧
  (∀ a t, 2 * a < t * 65536 → levelFor a t = 0) ∧
  (∀ a t, 0 < t → t * 65536 ≤ a → levelFor a t = 7)

/-- What a read gets (R27, R28, Table 02.2, Table 09.8). In a serving region, with no request waiting and no work of the house pitch on the
page, the page's descriptor line in the page-map cache and the page in an extent the directory does not track and in no session's map area:
a read of an unwritten page is answered with poison, of a constant page with its pattern's word in both halves of the line, and of a page
with a T0 copy whose two words check clean with those words; each with the completion of its extent's coherence attribute after the data. -/
def Obligations.ReadsAreAnswered : Prop :=
  ∀ (m : Mach) (q : Req) (k : Keep), q.kind = .rd k → q.internal = false → m.mem.waits = [] → (m.mem.house.any fun h => h.pn = q.page) = false → m.memOpen (q.fn / 16) = true →
    (m.region (m.homeOf q.page)).st = .serving → (m.extent (extOf q.page)).coh ≠ .tracked → m.sessMap q.page = none →
    m.pmHit (m.homeOf q.page) (m.pmLine q.page) = true →
    let answered (w0 w1 : CWord) : List Out :=
      m.out ++ [.rsp q.fn q.tag (.memData (lineOf2 w0 w1).1 (lineOf2 w0 w1).2)
                , .rsp q.fn q.tag (cmpOf (m.extent (extOf q.page)).coh q.kind)]
    (m.desc q.page = .unwritten → (m.serve none q).out = answered .poison .poison) ∧
    (∀ p f i, m.desc q.page = .const p f i →
      (m.serve none q).out = answered (m.patWord (m.homeOf q.page) i) (m.patWord (m.homeOf q.page) i)) ∧
    (∀ d, m.desc q.page = .priv d → d.t0 = true →
      checkWord (m.t0Word (m.homeOf q.page) d.t0slot (2 * q.lineIx)) = .clean →
      checkWord (m.t0Word (m.homeOf q.page) d.t0slot (2 * q.lineIx + 1)) = .clean →
      (m.serve none q).out
        = answered (m.t0Word (m.homeOf q.page) d.t0slot (2 * q.lineIx)) (m.t0Word (m.homeOf q.page) d.t0slot (2 * q.lineIx + 1)))

/-! ## The arcade, the grants, and power (R18 to R21, R206, R209 to R213, R216, R294, R304, R306) -/

/-- The arcade (R18 to R20, R304). A stop that holds a credit, and that no flit on the ring has precedence over or whose slot has
come, injects its flit, at once in the destination's queue when no segment lies between; one credit more is in use and the slot of the
segment starts anew; otherwise nothing is injected. A hop of words that check clean, which no injection is
armed for, takes the flit over its next segment, out of the rings when it was the last, and leaves every bucket as it is; a header that
cannot be corrected is chip fatal. Flits taken out of a destination's queue give their credits back. -/
def Obligations.ArcadeCarriesFlits : Prop :=
  (∀ (src dst pitch addr : Nat) (vc : VC) (words : List CWord) (s : State),
    let c : Instr := .arcadeFlitInject src dst vc pitch addr words
    let fl : Flit := ⟨s.m.nextId, src, dst, vc, segPath s.m.fam src dst, pitch, addr, words⟩
    let used := tput s.m.arc.used 0 (creditKey src dst vc) (s.m.creditsUsed src dst vc + 1)
    UnitReady c s →
    (∀ g rest, s.m.creditsUsed src dst vc < s.m.arc.depth → s.m.mayInject vc fl.path = true → fl.path = g :: rest →
      Answers c s (s.m.renumber.onArc fun a =>
        { a with used := used, slotAt := tput a.slotAt 0 g s.m.cycle, flits := a.flits ++ [fl] })) ∧
    (s.m.creditsUsed src dst vc < s.m.arc.depth → fl.path = [] →
      Answers c s (s.m.renumber.onArc fun a => { a with used := used, arrived := a.arrived ++ [fl] })) ∧
    (s.m.arc.depth ≤ s.m.creditsUsed src dst vc ∨ s.m.mayInject vc fl.path = false → Answers c s s.m)) ∧
  (∀ (id g : Nat) (rest : List Nat) (hd : CWord) (data : List CWord) (fl : Flit) (s : State), UnitReady (.arcadeFlitHop id []) s →
    (s.m.arc.flits.find? fun x => x.id = id) = some fl → fl.path = g :: rest → fl.words = hd :: data → s.m.flitFree fl = true →
    (∀ p, s.m.injAt 4 0 0 g p = false) →
    ((∀ w ∈ fl.words, checkWord w = .clean) →
      ∃ m, Answers (.arcadeFlitHop id []) s m ∧
        (rest = [] → m.arc = { s.m.arc with
          flits := s.m.arc.flits.filter fun x => x.id ≠ id
          arrived := s.m.arc.arrived ++ [{ fl with path := [], words := fl.words.map passWord }] }) ∧
        (rest ≠ [] → m.arc = { s.m.arc with
          flits := lmod s.m.arc.flits (fun x => x.id = id) fun _ => { fl with path := rest, words := fl.words.map passWord } }) ∧
        (∀ i, tget m.code.lbSeg 0 i = tget s.m.code.lbSeg 0 i) ∧ m = { s.m with arc := m.arc, code := m.code }) ∧
    (readWord hd = none → ∃ m, Answers (.arcadeFlitHop id []) s m ∧ m.sys.fatal = true)) ∧
  (∀ (src dst n : Nat) (vc : VC) (s : State), UnitReady (.arcadeCreditReturn src dst vc n) s →
    let mine : Flit → Bool := fun x => x.src = src && x.dst = dst && x.vc = vc
    n ≤ (s.m.arc.arrived.filter mine).length →
    Answers (.arcadeCreditReturn src dst vc n) s (s.m.onArc fun a =>
      { a with used := tput a.used 0 (creditKey src dst vc) (s.m.creditsUsed src dst vc - n), arrived := dropWhich mine n a.arrived }))

/-- How a block grants (Table 01.5, R23, R206, R207). A serving block that is not quarantined grants, of the requests that wait for it,
the one of the highest level, then the highest credit, then the lowest pitch, at the cost of its units, after a refill when no
requesting pitch holds a positive count; one whose crossbar finds a request header uncorrectable is quarantined. -/
def Obligations.BlocksGrantByPriority : Prop :=
  let prio : Nat × Nat × Nat → Nat × Nat := fun x => (x.1, x.2.1)
  (∀ (r b : Nat) (x : Nat × Nat × Nat) (reqs : List (Nat × Nat × Nat)) (s : State), DataReady (.blockGrant r b ⟨reqs, false⟩) s →
    (s.m.region r).st = .serving → (s.m.region r).quar.getLsbD b = false → (∀ y ∈ reqs, y.1 < 64) →
    ((∃ y ∈ reqs, 0 < s.m.credit r b y.1) → s.m.pickBy r b prio reqs = some x →
      Answers (.blockGrant r b ⟨reqs, false⟩) s
        ((s.m.setCredit r b x.1 (s.m.credit r b x.1 - x.2.2)).send (.blockGrant r b x.1))) ∧
    ((∀ y ∈ reqs, s.m.credit r b y.1 ≤ 0) → reqs ≠ [] → (s.m.refillBlock r b).pickBy r b prio reqs = some x →
      Answers (.blockGrant r b ⟨reqs, false⟩) s
        (((s.m.refillBlock r b).setCredit r b x.1 ((s.m.refillBlock r b).credit r b x.1 - x.2.2)).send (.blockGrant r b x.1)))) ∧
  (∀ (r b : Nat) (reqs : List (Nat × Nat × Nat)) (s : State), DataReady (.blockGrant r b ⟨reqs, true⟩) s →
    (s.m.region r).st = .serving → (s.m.region r).quar.getLsbD b = false →
    Answers (.blockGrant r b ⟨reqs, true⟩) s (s.m.quarantine r b)) ∧
  (∀ (m : Mach) (r b : Nat) (x : Nat × Nat × Nat) (reqs : List (Nat × Nat × Nat)), m.pickBy r b prio reqs = some x →
    x ∈ reqs ∧ ∀ y ∈ reqs, y.2.1 < x.2.1 ∨ (y.2.1 = x.2.1 ∧
      (m.credit r b y.1 < m.credit r b x.1 ∨ (m.credit r b y.1 = m.credit r b x.1 ∧ x.1 ≤ y.1))))

/-- Gating, buckets, derating and the power cap (R210 to R213, R216, R294, R306). A wake request opens a gated unit of a region that is not
fenced; an outer bucket loses one count when its period has passed; the steward applies what has been lost; a power window over the cap
tightens the first stage that is not at its limit, one below 98% of the cap releases the last that is tightened, and one between leaves
the stages. -/
def Obligations.GatingBucketsAndPower : Prop :=
  (∀ (r : Nat) (s : State), (s.m.region r).st ≠ .fenced →
    (UnitReady (.wakeRequest (.tally r)) s →
      Answers (.wakeRequest (.tally r)) s (s.m.onRegion r fun g => { g with tallyGated := false })) ∧
    (UnitReady (.wakeRequest (.lanes r)) s →
      Answers (.wakeRequest (.lanes r)) s (s.m.onRegion r fun g => { g with lanesGated := false }))) ∧
  (∀ (b : OuterBucket) (s : State), UnitReady (.leakyBucketLeak b) s →
    let kind := (outerKey b).1
    let i := (outerKey b).2.1
    let set := tget s.m.code.lbOutSet {} (kind * 64 + i)
    set.last + us (if set.period = 0 then 1000 else set.period) ≤ s.m.cycle →
    Answers (.leakyBucketLeak b) s (s.m.onCode fun c =>
      { c.onOuter kind fun t => tput t 0 i (tget t 0 i - 1) with
          lbOutSet := tput c.lbOutSet {} (kind * 64 + i)
            ⟨s.m.hubN (outerKey b).2.2 0x7100 1, s.m.hubN (outerKey b).2.2 0x7100 3, s.m.cycle⟩ })) ∧
  (∀ s : State, DataReady .derateApply s → s.m.sys.steward.isSome = true → Answers .derateApply s s.m.derate) ∧
  (∀ (pwr : Nat) (s : State), UnitReady (.powerCapWindow pwr) s → s.m.sys.pcAt + ms 1 ≤ s.m.cycle →
    let cap := 10 * s.m.cfgN 0x2000 2
    let read := s.m.onSys fun x => { x with pkgPwr := pwr, pcAt := x.pcAt + ms 1 * ((s.m.cycle - x.pcAt) / ms 1) }
    (cap < pwr → s.m.sys.atLimit = false → Answers (.powerCapWindow pwr) s (read.onSys Sys.tighten)) ∧
    (cap < pwr → s.m.sys.atLimit = true → s.m.sys.powerLimitAt = none →
      Answers (.powerCapWindow pwr) s ((read.log 0x0503 0 0 0 [(32, pwr)]).onSys fun x => { x with powerLimitAt := some s.m.cycle })) ∧
    (pwr ≤ cap → pwr * 100 < cap * 98 → Answers (.powerCapWindow pwr) s (read.onSys Sys.release)) ∧
    (pwr ≤ cap → cap * 98 ≤ pwr * 100 → Answers (.powerCapWindow pwr) s read))

/-! ## Memory controllers (R262 to R272, R274 to R278, R286, R372) -/

/-- A channel's training, retraining and retries (R274 to R276, R372). Start-up training that succeeds puts the channel into service and
starts its refresh ticks; a first failure trains again; a second makes it FAILED and logs it, and the region goes on while some channel
has not failed. A retraining that succeeds returns the channel to service; one that fails suspends it, logged. A retry that succeeds
returns it to service, one of the first three that fail waits for the next, and the fourth makes it FAILED with its loss to settle. -/
def Obligations.ChannelsTrainAndRetry : Prop :=
  (∀ (r c : Nat) (s : State), (s.m.chan r c).st = .training → (s.m.region r).st ≠ .fenced → s.m.sys.ucodeLoaded = true →
    (UnitReady (.channelTrainingDone r c true) s →
      Answers (.channelTrainingDone r c true) s
        (s.m.onChan r c fun x => x.served s.m.cycle (s.m.dieOf r c).interval (s.m.dieOf r c).temp)) ∧
    (UnitReady (.channelTrainingDone r c false) s → (s.m.chan r c).tries = 0 →
      Answers (.channelTrainingDone r c false) s (s.m.onChan r c fun x => { x with tries := 1, since := s.m.cycle })) ∧
    (UnitReady (.channelTrainingDone r c false) s → (s.m.chan r c).tries ≠ 0 →
      let m := (s.m.onChan r c fun x => { x with st := .failed, tries := 2 }).channelFailed r c [0, 0, 0, 0, 0]
      ((List.range 8).all fun c => (m.chan r c).st = .failed) = false → Answers (.channelTrainingDone r c false) s m)) ∧
  (∀ (r c : Nat) (s : State), (s.m.chan r c).st = .retraining → (s.m.chan r c).since ≤ s.m.cycle →
    (DataReady (.retrainDone r c true) s →
      Answers (.retrainDone r c true) s (s.m.onChan r c fun x => { x with st := .serving, trainTemp := (s.m.dieOf r c).temp })) ∧
    (DataReady (.retrainDone r c false) s →
      Answers (.retrainDone r c false) s
        (((s.m.onChan r c fun x => { x with st := .suspended, retries := 0, wantRetrain := false }).log 0x0308 0 1 r [(8, r), (8, c)]).g7
          r 2))) ∧
  (∀ (r c : Nat) (s : State), (s.m.chan r c).st = .suspended → (s.m.chan r c).wantRetrain = true →
    (DataReady (.channelRetryDone r c true) s →
      Answers (.channelRetryDone r c true) s (s.m.onChan r c fun x =>
        { x with st := .serving, wantRetrain := false, retries := 0, sinceTrain := 0, trainTemp := (s.m.dieOf r c).temp })) ∧
    (DataReady (.channelRetryDone r c false) s → (s.m.chan r c).retries < 3 →
      Answers (.channelRetryDone r c false) s (s.m.onChan r c fun x => { x with wantRetrain := false, retries := x.retries + 1 })) ∧
    (DataReady (.channelRetryDone r c false) s → 3 ≤ (s.m.chan r c).retries →
      Answers (.channelRetryDone r c false) s
        (s.m.onChan r c fun x => { x with st := .failed, wantRetrain := false, retries := 4, lossDue := true })))

/-- The loss of a FAILED channel is settled (R277, R278). When no frame, no write under way and no descriptor page lay on it, the pool
entries of its die go, the descriptor pages of the die are placed anew, the channel's queue and owed refreshes go, and the loss is logged
with zero counts; the region goes on while some channel has not failed. -/
def Obligations.ChannelLossSettles : Prop :=
  ∀ (r c : Nat) (s : State), DataReady (.channelFailSettle r c) s → (s.m.chan r c).st = .failed → (s.m.chan r c).lossDue = true →
    (s.m.region r).st = .serving → (∀ x ∈ s.m.contents r, (x.2.t1len ≠ 0 && s.m.hits r c x.2.t1addr x.2.t1len) = false) →
    (∀ v ∈ (s.m.region r).moves, (v.phase = .writing && v.dst = 1 && s.m.hits r c v.addr v.len) = false) →
    s.m.lostPages r (c / 4) = [] →
    let m := ((((s.m.losePool r (c / 4)).moveOffDie r (c / 4)).onChan r c fun x =>
        { x with lossDue := false, queue := [], owed := 0 }).channelFailed r c [0, 0, 0, 0, 0]).repay r
    ((List.range 8).all fun c => (m.chan r c).st = .failed) = false → Answers (.channelFailSettle r c) s m

/-- Refresh (R269, R271, R275). A due tick is counted at the die's interval; an idle channel that owes a refresh issues it, is busy for
100 ns, and goes into the retraining that waited once it was the last owed; the 8,192nd tick ends the window: the rows counted on the
channel and the pitches throttled on it go. -/
def Obligations.RefreshKeepsUp : Prop :=
  (∀ (r c : Nat) (s : State), UnitReady (.refreshTick r c) s → (s.m.chan r c).ticks = true → (s.m.chan r c).nextTick ≤ s.m.cycle →
    Answers (.refreshTick r c) s (s.m.onChan r c fun x => x.tick (s.m.dieOf r c).interval)) ∧
  (∀ (r c : Nat) (s : State), UnitReady (.refreshIssue r c) s → (s.m.chan r c).st = .serving ∨ (s.m.chan r c).st = .suspended →
    1 ≤ (s.m.chan r c).owed → (s.m.chan r c).quiet s.m.cycle = true →
    ((s.m.dieOf r c).limit ≤ (s.m.chan r c).owed ∨ (s.m.chan r c).queue = [] ∨ (s.m.chan r c).draining = true) →
    ((s.m.chan r c).draining = false →
      Answers (.refreshIssue r c) s ((s.m.send (.refresh r c)).onChan r c fun y =>
        { y with owed := y.owed - 1, busyUntil := s.m.cycle + ns 100 })) ∧
    ((s.m.chan r c).draining = true → (s.m.chan r c).owed = 1 →
      Answers (.refreshIssue r c) s ((s.m.send (.refresh r c)).onChan r c fun y =>
        { y with owed := 0, busyUntil := s.m.cycle + ns 100, st := .retraining, wantRetrain := false, sinceTrain := 0
                 since := s.m.cycle + ns 100 }))) ∧
  (∀ (r c : Nat) (s : State), UnitReady (.refreshWindowEnd r c) s → 8192 ≤ (s.m.chan r c).winTicks →
    Answers (.refreshWindowEnd r c) s
      (((s.m.onDram fun d => { d with rows := d.rows.filter fun x => x.1 / (16 * 8192) ≠ r * 8 + c }).onDie r (c / 4) fun d =>
        { d with throttled := d.throttled.filter fun t => t.2 ≠ c }).onChan r c fun x => { x with winTicks := x.winTicks - 8192 })) ∧
  (∀ (r c : Nat) (s : State), UnitReady (.refreshWindowEnd r c) s → (s.m.chan r c).winTicks < 8192 →
    Answers (.refreshWindowEnd r c) s s.m)

/-- A die's temperature (R268, R275). The first reading is the one its channels were trained at; a later one that neither changes the
refresh rate nor drifts by 10 °C from a serving channel's training is recorded and nothing more; one that drifts plans the die's
channels to retrain at the next four bells. -/
def Obligations.TemperatureReadings : Prop :=
  ∀ (r die : Nat) (t : Int) (s : State), DataReady (.temperatureReading r die t) s → (s.m.region r).st = .serving →
    let old := s.m.die r die
    let thr : Int := s.m.effN r (0x2200 + r) 0x41
    let hys : Int := s.m.effN r (0x2200 + r) 0x42
    let read := s.m.onDie r die fun _ => { old with temp := t, at_ := some s.m.cycle }
    let drift := (dieChans die).any fun c => (s.m.chan r c).st = .serving && decide (10 ≤ (t - (s.m.chan r c).trainTemp).natAbs)
    old.doubled = (if old.doubled then decide (thr - hys < t) else decide (thr < t)) →
    (old.at_ = none →
      Answers (.temperatureReading r die t) s (read.each (dieChans die) fun m c => m.onChan r c fun x => { x with trainTemp := t })) ∧
    (∀ a, old.at_ = some a → a + us 100 ≤ s.m.cycle → drift = false → Answers (.temperatureReading r die t) s read) ∧
    (∀ a, old.at_ = some a → a + us 100 ≤ s.m.cycle → drift = true →
      ((dieChans die).any fun c => (s.m.chan r c).tempRetrain.isSome) = false →
      Answers (.temperatureReading r die t) s
        (read.each (List.range 4) fun m i => m.onChan r (die * 4 + i) fun x => { x with tempRetrain := some i }))

/-- A sector access (R206, R209, R262 to R267, R271, R272, R286). A channel that may start one chooses among the queued accesses whose
bank is ready, which no throttle withholds and before which no access to the same sector waits; it starts the one its block grants, by
level, credit, pitch and age, after a refill when no pitch that waits at the block holds a positive count. The access costs its pitch
one credit; its bank is taken for 60 ns by a write and 48 ns by a read, the activate is sent and counted, and the sector is written or
read. -/
def Obligations.SectorAccesses : Prop :=
  (∀ (r c n : Nat) (a : Access) (s : State), DataReady (.sectorAccess r c) s → s.m.chanOpen r c = true →
    let t := s.m.cycle / us 1
    let ok (a : Access) : Bool :=
      decide (tget (s.m.chan r c).bankReady 0 (secBank a.sector) ≤ s.m.cycle) && !(s.m.dieOf r c).held a.pitch t
    let l := startable ok 0 [] (s.m.chan r c).queue
    let m := s.m.refillFor r (8 + c / 4) (s.m.diePitches r (c / 4))
    m.pickBy r (8 + c / 4) (fun y => (m.accPitch y.2, m.accLevel r y.2)) l = some (n, a) →
    let m := (m.charge r (8 + c / 4) (m.accPitch a) 1).closeWindow r c
    let m := m.onChan r c fun y =>
      { y with
        queue := y.queue.eraseIdx n, lastStart := some m.cycle
        bankReady := tput y.bankReady 0 (secBank a.sector) (m.cycle + (if a.write then ns 60 else ns 48)) }
    let m := ((m.onDie r (c / 4) fun d => d.act a.pitch (m.cycle / us 1)).send
      (.activate r c (secBank a.sector) (secRow a.sector) a.write)).activateRow r c (secBank a.sector) (secRow a.sector) a.pitch
    (a.write = true → Answers (.sectorAccess r c) s (m.sectorWrite r c a)) ∧
    (a.write = false → Answers (.sectorAccess r c) s (m.sectorRead r c a))) ∧
  (∀ (ok : Access → Bool) (l : List Access) (n : Nat) (a : Access),
    (n, a) ∈ startable ok 0 [] l ↔
      l[n]? = some a ∧ ok a = true ∧ ∀ (j : Nat) (y : Access), j < n → l[j]? = some y → y.sector ≠ a.sector)

/-! ## Moves, unfolds and the bell (R45, R50, R51, R57 to R61, R118, R405, R406) -/

/-- The bell (R57, R60, R61, R406). At its time a serving region's bell puts the settings committed since into effect, ends the moves of the
last plan, decays footfalls, grants and plans anew; before its time it does nothing. Of a plan the first move that its lanes allow starts; a
move whose frame stands takes effect: its descriptor follows, its LOCK clears, and what waited for its content or for a T0 page goes on.
Once a lane has been granted to it a fold's or an unfold's result is what the folding or unfolding of its words gives: the page reaches its
readers, a page changed meanwhile is read again, and a stale or malformed frame is lost. -/
def Obligations.BellsAndMoves : Prop :=
  (∀ (r : Nat) (s : State), DataReady (.bell r) s → (s.m.region r).st = .serving → (s.m.region r).bellAt ≤ s.m.cycle →
    let len := us (bellUs s.m.fam (s.m.region r).eff.vals)
    let granted := ((((((s.m.applySettings r).endPlan r).rollBell r).decay r).idleBell r len).grantPending r)
    (((granted.region r).rolling = false → Answers (.bell r) s (((granted.newPlan r).bellChans r).leakRegion r)) ∧
     ((granted.region r).rolling = true → Answers (.bell r) s ((granted.bellChans r).leakRegion r)))) ∧
  (∀ (r : Nat) (s : State), DataReady (.bell r) s → s.m.cycle < (s.m.region r).bellAt → Answers (.bell r) s s.m) ∧
  (∀ (r : Nat) (v : Move) (s : State), DataReady (.moveStart r) s → (s.m.region r).st = .serving →
    (s.m.region r).rolling = false → ((s.m.plannedMoves r).find? fun v => s.m.mayStart r v) = some v →
    Answers (.moveStart r) s ((s.m.startMove r v).grantLanes r)) ∧
  (∀ (r id : Nat) (v : Move) (d : Priv) (s : State), DataReady (.moveComplete r id) s → s.m.moveAt r id = some v → v.phase = .ready →
    (s.m.region r).rolling = false → s.m.priv v.cref = some d →
    Answers (.moveComplete r id) s
      (((((((((s.m.moveEffect r v d).onRegion r fun g => { g with moves := g.moves.filter fun x => x.id ≠ v.id }).onPriv v.cref
        fun d => { d with lock := false }).parkCount v).repay r).pumpCref none v.cref)).pumpFor r .t0).landKeeps r)) ∧
  (∀ (r id : Nat) (v : Move) (d : Priv) (s : State), DataReady (.foldDone r id) s →
    let m := s.m.grantLanes r
    m.moveAt r id = some v → v.phase = .folding → (m.region r).rolling = false →
    (v.kind.folds = true → (m.foldBusy r).contains id = true) → m.priv v.cref = some d →
    Answers (.foldDone r id) s ((m.folded r v d).grantLanes r)) ∧
  (∀ (r job : Nat) (j : Job) (s : State), DataReady (.unfoldDone r job) s →
    let m := s.m.grantLanes r
    m.jobAt job = some j → j.region = r → j.left = 0 → (m.region r).rolling = false → j.frame ≠ [] →
    (m.unfoldBusy r).contains job = true → Answers (.unfoldDone r job) s ((m.unfoldJob j).grantLanes r)) ∧
  (∀ (m : Mach) (j : Job) (d : Priv), (∀ q pg, j.cref ≠ .desc q pg) → m.priv j.cref = some d →
    let result := unfoldFrame j.codec j.len j.pver (m.ownerOf j.cref) j.frame
    let same := d.pver = j.pver ∧ ¬(d.t0 = true ∧ d.dirty = true)
    (∀ ws, result = .page ws → same → m.unfoldJob j = m.unfolded j ws) ∧
    (∀ ws, result = .page ws → ¬same → m.unfoldJob j = m.readAgain j) ∧
    (result = .stale ∨ result = .malformed → m.unfoldJob j = m.frameLost j false))

/-- Reports and loans (R118, R405). A region's report of an access reaches the session's home, whose IDLE count becomes 0, and is taken off
the reports under way; a region that wants a slot gets one from the lowest other region that may lend, both noting the loan. -/
def Obligations.ReportsAndLoans : Prop :=
  (∀ (r handle k : Nat) (x : Session) (s : State), DataReady (.accessReport r handle) s → (s.m.region r).st = .serving →
    handle ∈ (s.m.region r).reportsOut → s.m.byHandle handle = some (k, x) →
    Answers (.accessReport r handle) s
      ((s.m.onRegion r fun g => { g with reportsOut := g.reportsOut.filter (· ≠ handle) }).onSession k fun y => { y with idle := 0 })) ∧
  (∀ (r p q w t : Nat) (s : State), DataReady (.slotLoanRequest r p) s → (s.m.region r).st = .serving →
    p ∈ (s.m.region r).wantLoan →
    (((s.m.serving).filter (· ≠ r)).findSome? fun q => (s.m.lendSlot q p).map fun x => (q, x)) = some (q, w, t) →
    Answers (.slotLoanRequest r p) s
      ((s.m.onRegion q fun g => { g with loans := g.loans ++ [(p, w, t, r)] }).onRegion r fun g =>
        { g with wantLoan := g.wantLoan.filter (· ≠ p), loans := g.loans ++ [(p, w, t, r)] }))

/-! ## Sessions, versions and views (R93 to R126, R184, R185, R197, R199, R407) -/

/-- CREATE, DESTROY, SETATTR and EXPIRE (R93 to R97, R118 to R120). CREATE with its operands in range, a layout the part accepts, a free
record and no line of its map area cached takes the record, clears the map area, writes the version page and completes with the handle.
DESTROY by the owner, with none of the session's lines cached, destroys it and completes; with some cached it recalls them first.
SETATTR by the owner of a session that is not PARKED sets what its mask names and completes. EXPIRE destroys every session of its pitch
whose idle time has run out, and completes with their number. -/
def Obligations.SessionsComeAndGo : Prop :=
  (∀ (d k : Nat) (x : Dtor) (w : Word) (s : State), DataReady (.create d) s → s.m.startable d 0x10 = some x →
    let p := s.m.dtorPitch x
    let n := x.opf 2 24 0
    let pages := mapPages n
    1 ≤ n → n ≤ 2 ^ 24 → s.m.layIn x (x.op 4) = .word w → s.m.rangesOk p (x.pn 2) n (x.pn 3) = true → layoutOk w n = true →
    s.m.freeSess (s.m.sessHome p (x.pn 2)) = some k → s.m.pagesCached (x.pn 3) pages = false →
    let made := (s.m.redraw.clearPages (x.pn 3) pages).onSession k fun _ =>
      { st := .active, pitch := p, pin := x.opf 3 27 27 = 1, name := BitVec.ofNat 64 (x.op 0), nextver := 1
        readers := BitVec.ofNat 64 (x.op 1), npages := n, wbase := x.pn 2, mbase := x.pn 3, lease := x.opf 3 15 0, layout := w
        gen := (s.m.session k).gen }
    Answers (.create d) s ((made.writeVersionPage k (some d)).opDone d stOk (made.handle k))) ∧
  (∀ (d k : Nat) (x : Dtor) (v : Session) (s : State), DataReady (.destroy d) s → SessRuns s.m d 0x11 k x v →
    v.pitch = s.m.dtorPitch x →
    (s.m.sessCached v = false →
      Answers (.destroy d) s (((((touched s.m k).destroySess k).opDone x.id stOk 0).dropWaiters k).pumpAll .session)) ∧
    (s.m.sessCached v = true → Answers (.destroy d) s (((touched s.m k).hold k x.id).sessRecall v))) ∧
  (∀ (d k : Nat) (x : Dtor) (v : Session) (s : State), DataReady (.setattr d) s → SessRuns s.m d 0x12 k x v →
    v.pitch = s.m.dtorPitch x → v.st ≠ .parked →
    let has (i : Nat) : Bool := hasBit (x.opf 5 4 0) i
    let set (w : Word) : Mach := ((touched s.m k).onSession k fun y =>
      { y with name := if has 0 then BitVec.ofNat 64 (x.op 0) else y.name
               readers := if has 1 then BitVec.ofNat 64 (x.op 1) else y.readers
               lease := if has 2 then x.opf 3 15 0 else y.lease, pin := if has 3 then x.opf 3 27 27 = 1 else y.pin
               layout := if has 4 then w else y.layout }).opDone x.id stOk 0
    (has 4 = false → Answers (.setattr d) s (set 0)) ∧
    (∀ w, has 4 = true → (touched s.m k).layIn x (x.op 4) = .word w → layoutOk w v.npages = true → Answers (.setattr d) s (set w))) ∧
  (∀ (d : Nat) (x : Dtor) (s : State), DataReady (.expire d) s → s.m.startable d 0x1A = some x →
    let l := s.m.sess.sess.filter fun e => s.m.expires (s.m.dtorPitch x) e.2
    (l.any fun e => s.m.sessCached e.2) = false →
    let gone := s.m.each l fun m e =>
      ((m.destroySess e.1).dropWaiters e.1).log 0x0102 e.2.pitch 1 (e.1 / 16384) [(32, handleOf e.2.gen e.1), (64, e.2.name.toNat)]
    Answers (.expire d) s ((gone.opDone d stOk l.length).pumpAll .session))

/-- PUBLISH, its conversion, DROP and FORK (R100 to R105, R111). PUBLISH by the owner of a session with room for a version freezes it and
recalls its lines. Once none is cached, and with room for the new pool entries and none of its references at its limit, the conversion
gives every page of the working range its map entry and seals the version; without room the session is ACTIVE again and the PUBLISH
fails. DROP of a version with views open makes it retire; of one without drops it. FORK of a version, with
its ranges free and uncached, room for its patterns and no reference to copy, makes a session whose slots refer to the version's
contents. -/
def Obligations.VersionsArePublished : Prop :=
  (∀ (d k : Nat) (x : Dtor) (v : Session) (s : State), DataReady (.publish d) s → SessRuns s.m d 0x13 k x v →
    v.pitch = s.m.dtorPitch x → v.busy ≠ some d → v.npub < 63 → v.nextver ≠ 0 →
    Answers (.publish d) s ((((touched s.m k).hold k d).onSession k fun y => { y with st := .freezing }).sessRecall v)) ∧
  (∀ (handle k d : Nat) (v : Session) (s : State), DataReady (.publishConvert handle) s → s.m.byHandle handle = some (k, v) →
    v.busy = some d → v.st = .freezing → s.m.publishCached v = false →
    (pageRange v.wbase v.npages).filterMap s.m.newRef = [] →
    let room := s.m.roomFor v.pitch fun r =>
      (((pageRange v.wbase v.npages).filter s.m.newEntry).filter fun pn => s.m.homeOf pn = r).length
    (∀ m l, room = none → s.m.convertAll d v.pitch v.wbase v.npages = .ok (m, l) →
      Answers (.publishConvert handle) s (m.sealVersion k d l)) ∧
    (∀ st, room = some st → Answers (.publishConvert handle) s ((s.m.leaveState k .active).opDone d st 0))) ∧
  (∀ (d k : Nat) (x : Dtor) (v : Session) (w : Version) (s : State), DataReady (.drop d) s → SessRuns s.m d 0x14 k x v →
    v.pitch = s.m.dtorPitch x → v.ver x.version = some w →
    (w.views ≠ 0 →
      Answers (.drop d) s
        ((((touched s.m k).onVersion k w.vnum fun y => { y with retiring := true }).writeEntry k w.idx (some d)).opDone d stOk 0)) ∧
    (w.views = 0 → Answers (.drop d) s (((touched s.m k).dropVersion k w.vnum (some d)).opDone d stOk 0))) ∧
  (∀ (d k k' : Nat) (x : Dtor) (v : Session) (w : Version) (m : Mach) (s : State), DataReady (.fork d) s → SessRuns s.m d 0x17 k x v →
    v.pitch = s.m.dtorPitch x → v.ver x.version = some w → w.retiring = false →
    let t := touched s.m k
    t.rangesOk v.pitch (x.pn 2) w.vpages (x.pn 3) = true → t.freeSess (t.sessHome v.pitch (x.pn 2)) = some k' →
    t.patRoom (t.patNeeds (x.pn 2) w.map) = true → t.pagesCached (x.pn 2) w.vpages = false →
    t.pagesCached (x.pn 3) (mapPages w.vpages) = false → t.copyRefs w.map = [] →
    (t.clearPages (x.pn 2) w.vpages).forkSlots d v.pitch (x.pn 2) w.map = .ok m →
    Answers (.fork d) s ((m.onSession k fun y => { y with side := none }).createSess d k'
      { st := .active, pitch := v.pitch, pin := x.opf 3 27 27 = 1, name := BitVec.ofNat 64 (x.op 0), nextver := 1
        readers := BitVec.ofNat 64 (x.op 1), npages := w.vpages, wbase := x.pn 2, mbase := x.pn 3, lease := x.opf 3 15 0
        parent := m.handle k, forkver := w.vnum, layout := w.layout }))

/-- OPEN and CLOSE (R107, R110, R199). OPEN of a version that is not retiring, over a free READ-SHARED range, by the owner or a reader,
with a free view and room for its patterns, fills the range's slots from the version's map, counts the view and completes with its
handle. CLOSE by the view's pitch, with room for a retirement, closes the view, retires its range and completes. -/
def Obligations.ViewsOpenAndClose : Prop :=
  (∀ (d k vk : Nat) (x : Dtor) (v : Session) (w : Version) (s : State), DataReady (.openv d) s → SessRuns s.m d 0x15 k x v →
    v.ver x.version = some w → w.retiring = false → w.views < 65535 →
    let t := touched s.m k
    let p := t.dtorPitch x
    t.rangeIn p (x.pn 2) w.vpages (fun e => e.coh = .readShared) = true → t.rangeTaken (x.pn 2) w.vpages = false →
    v.pitch = p ∨ v.readers.getLsbD p = true → t.freeView (k / 16384) = some vk → t.patRoom (t.patNeeds (x.pn 2) w.map) = true →
    let filled := (t.redraw.clearPages (x.pn 2) w.vpages).each w.map.zipIdx fun m e => m.slotFrom (x.pn 2 + e.2) p e.1
    let opened := filled.onView vk fun _ =>
      { live := true, gen := (filled.view vk).gen, pitch := p, base := x.pn 2, pages := w.vpages, sess := filled.handle k, vnum := w.vnum }
    Answers (.openv d) s
      (((opened.onVersion k w.vnum fun y => { y with views := y.views + 1 }).writeEntry k w.idx (some d)).opDone d stOk (handleOf (filled.view vk).gen vk))) ∧
  (∀ (d vk : Nat) (x : Dtor) (v : View) (s : State), DataReady (.close d) s → s.m.startable d 0x16 = some x →
    s.m.viewByHandle x.handle = some (vk, v) → v.pitch = s.m.dtorPitch x → s.m.ticketsFull = false →
    (s.m.byHandle v.sess = none →
      Answers (.close d) s (((s.m.closeView vk (some d)).retire v.base v.pages v.pitch).opDone d stOk 0)) ∧
    (∀ k y, s.m.byHandle v.sess = some (k, y) →
      Answers (.close d) s ((((touched s.m k).closeView vk (some d)).retire v.base v.pages v.pitch).opDone d stOk 0)))

/-- PARK, its manifest, RESUME, REATTACH and the claims of detached sessions (R112 to R117, R121 to R126, R185). PARK by the owner of a
session that is not PARKED, with the pitch's key and room for the manifest, takes the room and recalls the lines; of a PARKED one it
completes at once. When every content is where it is to stay the manifest is written, and with its writes acknowledged the session is
sealed. RESUME without a copy fetches the contents it lists; REATTACH past its checks takes a record and rebuilds the session; an
operation that waited is settled again; claims whose time has run out go. -/
def Obligations.SessionsParkAndReturn : Prop :=
  (∀ (d k : Nat) (x : Dtor) (v : Session) (s : State), DataReady (.park d) s → SessRuns s.m d 0x18 k x v →
    v.pitch = s.m.dtorPitch x → v.busy ≠ some d →
    (v.st = .parked → Answers (.park d) s ((touched s.m k).opDone d stOk (parkResult v.mloc 0 0))) ∧
    (∀ l, v.st ≠ .parked → s.m.hasKey v.pitch = true → (touched s.m k).manifestSpace v.pitch ((touched s.m k).manifestSize v) = some l →
      let held := (((touched s.m k).hold k d).onSession k fun y =>
        { y with st := .parking, pieces := l, mloc := mlocOf l, absent := [], sealAcks := none }).sessRecall v
      (held.sessCached v = true → Answers (.park d) s held) ∧
      (held.sessCached v = false → Answers (.park d) s (held.startPark k (held.session k))))) ∧
  (∀ (handle k d : Nat) (v : Session) (s : State), DataReady (.manifestSeal handle) s → s.m.byHandle handle = some (k, v) →
    v.busy = some d → v.st = .parking → s.m.sessCached v = false →
    (v.sealAcks = some 0 → Answers (.manifestSeal handle) s (s.m.sealPark k d v)) ∧
    (v.sealAcks = none → (s.m.parkSet v).all (s.m.parkedRef v) = true →
      Answers (.manifestSeal handle) s (s.m.writeManifest k d v))) ∧
  (∀ (d k : Nat) (x : Dtor) (v : Session) (m : Mach) (l : List Nat) (s : State), DataReady (.resume d) s → SessRuns s.m d 0x19 k x v →
    v.pitch = s.m.dtorPitch x → v.busy ≠ some d → x.version = 0 → v.ver 0 = none → x.opf 1 33 33 = 0 →
    (touched s.m k).listIn x v.npages = .spns m l →
    let refs := (l.filterMap fun i => match m.spnRef v none i with | .cont c => some c | _ => none).eraseDups
    let begun := if v.st = .parked then (m.hold k d).unseal k .resuming else (m.hold k d).onSession k fun y => { y with st := .resuming }
    Answers (.resume d) s ((begun.onDtor d fun y => { y with todo := refs.map fun c => (c, false), outs := [] }).resumeGo d k)) ∧
  (∀ (d k : Nat) (hdr : BitVec 4096) (body : List Byte) (x : Dtor) (s : State), DataReady (.reattach d hdr body) s →
    s.m.startable d 0x1B = some x →
    let p := s.m.dtorPitch x
    let f := manifestOf hdr.toNat body
    let plans := s.m.poolPlans f p (x.pn 2) (x.pn 3)
    let mloc := x.opf 0 20 0
    (s.m.sess.sess.find? fun y => y.2.st = .reattaching && y.2.busy = some d) = none → s.m.hasKey p = true →
    s.m.manifestBad p mloc hdr.toNat body = false → s.m.windowsBad p hdr.toNat = false →
    s.m.rangesOk p (x.pn 2) f.npages (x.pn 3) = true → s.m.freeSess (s.m.sessHome p (x.pn 2)) = some k →
    s.m.reattachRoom f p (x.pn 2) plans = none →
    let taken := (s.m.redraw.begin d).onSession k fun _ =>
      { f.sess with pitch := p, gen := (s.m.session k).gen, wbase := x.pn 2, mbase := x.pn 3, busy := some d, mloc := mloc }
    (taken.sessCached (taken.session k) = false → Answers (.reattach d hdr body) s (taken.rebuild d k p mloc f plans)) ∧
    (taken.sessCached (taken.session k) = true → Answers (.reattach d hdr body) s (taken.sessRecall (taken.session k)))) ∧
  (∀ (handle d : Nat) (s : State), DataReady (.sessionOpResume handle) s → s.m.firstWaiter (keyOfHandle handle) = some d →
    Answers (.sessionOpResume handle) s
      ((s.m.onDtor d fun x => if x.stage = .waiting then { x with stage := .dispatched } else x).sessionOp d)) ∧
  (∀ (p mloc : Nat) (s : State), DataReady (.detachHoldExpire p mloc) s →
    Answers (.detachHoldExpire p mloc) s (s.m.onSess fun x => { x with detached := x.detached.filter fun d =>
      !(d.pitch = p && d.mloc = mloc && (match d.since with | some t => decide (t + s.m.reattachHold p < s.m.cycle) | none => false)) })) ∧
  (∀ (r p t : Nat) (s : State), DataReady (.reattachPeriodEnd r p) s → tget (s.m.region r).reattach none p = some t →
    t + s.m.reattachHold p < s.m.cycle → s.m.inReattach r p = true →
    Answers (.reattachPeriodEnd r p) s ((s.m.onRegion r fun g => { g with reattach := tdel g.reattach p }).onSess fun x =>
      { x with detached := x.detached.filter fun d => !(d.pitch = p && d.region = some r) }))

/-! ## Services (R129 to R149, R166, R171 to R175) -/

/-- ATTEND and SIFT (R134 to R140, R142 to R144). On a session the descriptor's pitch may read, of a version that exists and has a layout,
with operands that pass their checks and engines in service: the inputs are asked for; once they have come, and with no bitmap among
them or one free of poison, the work goes to the engines of the regions that hold the tokens; until then the descriptor waits for them. -/
def Obligations.AttendAndSiftStart : Prop :=
  ∀ (d k op : Nat) (x : Dtor) (v : Session) (w : Word) (es : List Nat) (s : State),
    let c : Instr := if op = 0x20 then .attend d else .sift d
    op = 0x20 ∨ op = 0x22 → DataReady c s → SessRuns s.m d op k x v → x.stage ≠ .running →
    v.pitch = s.m.dtorPitch x ∨ v.readers.getLsbD (s.m.dtorPitch x) = true →
    (if x.version = 0 then some v.layout else (v.ver x.version).map (·.layout)) = some w → w ≠ 0 →
    let t := touched s.m k
    let l := layoutOf w
    t.attendCheck x l = none →
    let rs := ((x.tokenSpns l x.tokens).filterMap fun i => t.refRegion (t.tallyRef x i)).eraseDups
    let homes := if rs.isEmpty then [k / 16384] else rs
    t.engines homes = some es →
    let bs := (if x.maskKind = 3 then [(true, x.op 2, x.bitmapLen l)] else []) ++ [(false, x.op 0, 2 * l.d * x.nq)]
    let asked := t.askInputs d bs
    (asked.inputsReady d bs = false → Answers c s (asked.reading d)) ∧
    (∀ y, asked.inputsReady d bs = true → asked.dtorAt d = some y →
      (y.maskKind = 3 → (asked.bufClean y (y.op 2) (y.bitmapLen l)).isSome = true) →
      Answers c s (((asked.footInputs y bs).onDtor d fun y => { y with lay := w }).startWork d homes es))

/-- MERGE, REDUCE, COMPARE, FILL and COPY (R141, R145 to R148). With operands that pass their checks, in the order of the spec, and engines
in service: MERGE and REDUCE go on over their lists of sources, COMPARE and COPY over their inputs, and FILL over its pages; the work is
sent once the inputs have come. A list of sources that came whole, with every source in range, has the sources asked for and then the work
sent. -/
def Obligations.TallyOperationsStart : Prop :=
  (∀ (d : Nat) (x : Dtor) (s : State), DataReady (.merge d) s → s.m.startable d 0x21 = some x → x.stage ≠ .running →
    let n := x.mergeSrc
    let olen := x.mergeNq * recBytes x.mergeFinal x.mergeD
    x.opf 2 34 32 ≤ 4 → 2 ≤ n → n ≤ 256 → 1 ≤ x.mergeNq → x.mergeNq ≤ 1024 → s.m.bufFits x 8 (x.op 0) (8 * n) = true →
    s.m.bufFits x 64 (x.op 1) olen = true → s.m.bufResolve x (x.op 0) (8 * n) = none → s.m.bufResolve x (x.op 1) olen = none →
    Answers (.merge d) s (s.m.overSources x n (x.mergeNq * recBytes false x.mergeD) (fun _ => false) s.m.hubPick)) ∧
  (∀ (d : Nat) (x : Dtor) (s : State), DataReady (.reduce d) s → s.m.startable d 0x23 = some x → x.stage ≠ .running →
    let n := x.redSrc
    let len := x.redLen
    x.redOp ≠ 3 → 2 ≤ n → n ≤ 16 → 1 ≤ len → len ≤ 2 ^ 28 → len % 64 = 0 → s.m.bufFits x 8 (x.op 0) (8 * n) = true →
    s.m.bufFits x 64 (x.op 1) len = true → s.m.bufBarred x (x.op 1) len = false → s.m.bufResolve x (x.op 0) (8 * n) = none →
    s.m.bufResolve x (x.op 1) len = none →
    Answers (.reduce d) s
      (s.m.overSources x n len (fun as => as.any fun a => a ≠ x.op 1 && overlap a len (x.op 1) len) (s.m.bufRegions x (x.op 1) len))) ∧
  (∀ (m : Mach) (x y z : Dtor) (n len : Nat) (bad : List Nat → Bool) (rs es as : List Nat), m.engines rs = some es →
    rs ≠ [] ∨ m.serving ≠ [] →
    let bs := [(true, x.op 0, 8 * n)]
    let asked := m.askInputs x.id bs
    asked.inputsReady x.id bs = true → asked.dtorAt x.id = some y → asked.sources y n = some as → bad as = false →
    (∀ a ∈ as, asked.bufFits y 64 a len = true ∧ asked.bufResolve y a len = none) →
    let ins := as.eraseDups.map fun a => (false, a, len)
    let again := asked.askInputs x.id ins
    (again.inputsReady x.id ins = false → m.overSources x n len bad rs = again.reading x.id) ∧
    (again.inputsReady x.id ins = true → again.dtorAt x.id = some z →
      m.overSources x n len bad rs = (again.footInputs z (bs ++ ins)).startWork x.id rs es)) ∧
  (∀ (d : Nat) (x y : Dtor) (es : List Nat) (s : State), DataReady (.compare d) s → s.m.startable d 0x24 = some x → x.stage ≠ .running →
    let len := x.cmpLen
    1 ≤ len → s.m.bufFits x 1 (x.op 0) len = true → s.m.bufFits x 1 (x.op 1) len = true → s.m.bufResolve x (x.op 0) len = none →
    s.m.bufResolve x (x.op 1) len = none → let rs := s.m.bufRegions x (x.op 0) len
    s.m.engines rs = some es →
    let bs := [(false, x.op 0, len), (false, x.op 1, len)].eraseDups
    let asked := s.m.askInputs d bs
    asked.inputsReady d bs = true → asked.dtorAt d = some y →
    Answers (.compare d) s ((asked.footInputs y bs).startWork d rs es)) ∧
  (∀ (d : Nat) (x : Dtor) (es : List Nat) (s : State), DataReady (.fill d) s → s.m.startable d 0x25 = some x → x.stage ≠ .running →
    let n := x.opf 4 24 0
    let pns := pageRange (x.pn 4) n
    1 ≤ n → n ≤ 2 ^ 24 → (∀ pn ∈ pns, (s.m.extent (extOf pn)).st ≠ .free ∧ (s.m.extent (extOf pn)).pitch = s.m.dtorPitch x) →
    s.m.barred (x.pn 4) n = false →
    let rs := ((pns.map s.m.homeOf).eraseDups).filter fun r => (s.m.region r).st = .serving
    s.m.engines rs = some es →
    Answers (.fill d) s ((s.m.onDtor d fun y => { y with outs := pns.zipIdx.map fun e => (e.2, e.1) }).startWork d rs es)) ∧
  (∀ (d : Nat) (x y : Dtor) (es : List Nat) (s : State), DataReady (.copy d) s → s.m.startable d 0x26 = some x → x.stage ≠ .running →
    let n := x.opf 2 24 0
    let len := 4096 * n
    1 ≤ n → n ≤ 2 ^ 24 → s.m.bufFits x 4096 (x.op 0) len = true → s.m.bufFits x 4096 (x.op 1) len = true →
    s.m.bufBarred x (x.op 1) len = false → s.m.bufResolve x (x.op 0) len = none → s.m.bufResolve x (x.op 1) len = none →
    let rs := s.m.bufRegions x (x.op 1) len
    s.m.engines rs = some es →
    let bs := [(false, x.op 0, len)]
    let asked := s.m.askInputs d bs
    asked.inputsReady d bs = true → asked.dtorAt d = some y → asked.inPart y (x.op 0) = true →
    Answers (.copy d) s (((asked.footInputs y bs).onDtor d fun z =>
      { z with src := (asked.bufPages y (x.op 0) len).map (asked.pageVal d) }).startPages d (asked.outPages y (x.op 1) len) rs es))

/-- The Tally blocks, NOP and FENCE (R129, R166, R173, R206, R367). A block that is in service, does not change microcode and may start
work in this region cycle starts, of the waiting descriptors with a place free for their kind, the one that its level and its pitch's
credit pick, and with none such it starts none; only a waiting descriptor with a place is picked. A region that has done all its work
gives its result and the hub ends the descriptor; before that it goes on with its pages. NOP completes OK. FENCE completes OK once every
earlier descriptor of its queue has completed and every write of theirs has been acknowledged, and not before. -/
def Obligations.TallyBlocksAndFences : Prop :=
  (∀ (r : Nat) (s : State), DataReady (.tallyDispatch r) s → s.m.tallyOk r = true → (s.m.region r).rolling = false → s.m.tallyIssue = true →
    let xs := s.m.tallyReady r
    let m := s.m.refillFor r 10 (xs.map s.m.dtorPitch)
    (∀ x, m.pickBy r 10 (m.tallyPrio r) xs = some x →
      Answers (.tallyDispatch r) s ((m.onRegion r fun g =>
        { g with tallyQ := g.tallyQ.filter (· ≠ x.id), tallyGated := false, tallyAt := tins g.tallyAt x.id m.cycle
                 tallyBig := if x.isBig then g.tallyBig ++ [x.id] else g.tallyBig
                 tallySmall := if x.isBig then g.tallySmall else g.tallySmall ++ [x.id] }).workOn r x.id)) ∧
    (m.pickBy r 10 (m.tallyPrio r) xs = none → Answers (.tallyDispatch r) s m)) ∧
  (∀ (m n : Mach) (r : Nat) (f : Dtor → Nat × Nat) (x : Dtor), n.pickBy r 10 f (m.tallyReady r) = some x →
    (m.region r).placeFor x = true ∧ ∃ i ∈ (m.region r).tallyQ, m.dtorAt i = some x) ∧
  (∀ (r d : Nat) (s : State), DataReady (.tallyRegionResult r d) s →
    d ∈ (s.m.region r).tallyBig ∨ d ∈ (s.m.region r).tallySmall →
    let m := (s.m.tallyCharge r d).workOn r d
    (m.workDone r d = true → Answers (.tallyRegionResult r d) s ((m.regionDone r d).tallyEnd d)) ∧
    (m.workDone r d = false → Answers (.tallyRegionResult r d) s m)) ∧
  (∀ (d : Nat) (x : Dtor) (s : State), DataReady (.nop d) s → s.m.startable d 0x00 = some x →
    Answers (.nop d) s (s.m.opDone d stOk 0)) ∧
  (∀ (d : Nat) (x : Dtor) (s : State), DataReady (.fence d) s → s.m.dtorAt d = some x → x.isFence = true →
    (s.m.before x = [] → (∀ w ∈ s.m.svc.wrs, s.m.writesOut x w.owner = false) →
      (∀ w ∈ s.m.svc.wrWait, s.m.writesOut x w.owner = false) → Answers (.fence d) s (s.m.opDone d stOk 0)) ∧
    (s.m.before x ≠ [] → Answers (.fence d) s s.m) ∧
    ((∃ w ∈ s.m.svc.wrs, s.m.writesOut x w.owner = true) → Answers (.fence d) s s.m))

/-! ## Queues, reads and writes out of the part (R156 to R165, R174, R249 to R251) -/

/-- Queue registers and doorbells (R156 to R164). With BUSY 0, CREATE that passes its checks takes the queue and gives the granted version,
one that fails gives its status; DELETE of a queue that is neither FREE nor DELETING sets BUSY, ends its descriptors and settles it; of
another it gives BAD_STATE. A tail below the depth is taken; one of the depth or more puts an ACTIVE queue in ERROR with cause 4, and so
does a head past the completions written; any other head releases them. -/
def Obligations.QueueRegisters : Prop :=
  (∀ (f : Nat) (s : State), s.m.barOpen f = true → (s.m.fn f).qbusy = none →
    let q := bits (s.m.fn f).qparam.toNat 5 0
    (∀ y, DataReady (.queueCreate f) s → s.m.createCheck f = .ok y →
      Answers (.queueCreate f) s ((s.m.renumber.onQueue f q fun _ => { y with inc := s.m.nextId }).onFn f fun x =>
        { x with qresult := stOk, qverMaj := y.maj, qverMin := y.min })) ∧
    (∀ st, DataReady (.queueCreate f) s → s.m.createCheck f = .error st →
      Answers (.queueCreate f) s (s.m.onFn f fun x => { x with qresult := st })) ∧
    (DataReady (.queueDelete f) s → (s.m.queue f q).st ≠ .free → (s.m.queue f q).st ≠ .deleting →
      Answers (.queueDelete f) s
        (((((s.m.onQueue f q fun x => { x with st := .deleting }).onFn f fun x => { x with qbusy := some q })).abortQueue f q).queueSettle f q)) ∧
    (DataReady (.queueDelete f) s → (s.m.queue f q).st = .free ∨ (s.m.queue f q).st = .deleting →
      Answers (.queueDelete f) s (s.m.onFn f fun x => { x with qresult := stBadState }))) ∧
  (∀ (f q : Nat) (v : BitVec 64) (s : State), s.m.barOpen f = true → (s.m.queue f q).st ≠ .free →
    let t := bits v.toNat 15 0
    let depth := 2 ^ (s.m.queue f q).log2
    (DataReady (.sqtail f q v) s → t < depth → Answers (.sqtail f q v) s (s.m.onQueue f q fun x => { x with sqtail := t })) ∧
    (DataReady (.sqtail f q v) s → depth ≤ t → (s.m.queue f q).st = .active → Answers (.sqtail f q v) s (s.m.queueError f q 4)) ∧
    let n := (t + depth - (s.m.queue f q).cqhead) % depth
    (DataReady (.cqhead f q v) s → t < depth → n ≤ (s.m.queue f q).written.length →
      Answers (.cqhead f q v) s ((s.m.onQueue f q fun x => { x with cqhead := t, written := x.written.drop n }).intx f)) ∧
    (DataReady (.cqhead f q v) s → depth ≤ t ∨ (s.m.queue f q).written.length < n → (s.m.queue f q).st = .active →
      Answers (.cqhead f q v) s (s.m.queueError f q 4)))

/-- Fetches and deadlines (R162, R163, R166, R174, R201, R204). A hub whose port may send requests takes the next queue of the pitch in
turn; the data of a fetch, in time, free its tag and, for an ACTIVE queue, dispatch the descriptors that came whole, in ring order, and put
the queue in ERROR with cause 1 when one did not. A descriptor past its deadline that ends only before it starts ends LATE, before it has
started, with no result; an output whose writes await their acknowledgement ends LATE with the pages counted when they have come. -/
def Obligations.FetchesAndDeadlines : Prop :=
  (∀ (h p f q : Nat) (s : State), DataReady (.descriptorFetch h p) s → s.m.uioOpen h = true → s.m.fetchNext h p = some (f, q) →
    Answers (.descriptorFetch h p) s (s.m.fetch f q)) ∧
  (∀ (k tag f q head n : Nat) (words : List RWord) (t : RTag) (s : State), DataReady (.fetchComplete k tag words) s →
    s.m.tagAt k tag = some t → t.owner = .fetch f q → t.quar = false → s.m.cycle ≤ t.deadline →
    (s.m.queue f q).fetching = some (head, n) → (s.m.queue f q).st = .active →
    let got := ((s.m.freeTag k tag).onQueue f q fun x => { x with fetching := none }).each (wholeSlots n words) fun m raw => m.dispatch f q raw
    ((wholeSlots n words).length = n → Answers (.fetchComplete k tag words) s got) ∧
    ((wholeSlots n words).length < n → Answers (.fetchComplete k tag words) s (got.errorIfActive f q 1))) ∧
  (∀ (d t : Nat) (x : Dtor) (s : State), DataReady (.deadlineExpire d) s → s.m.dtorAt d = some x → x.deadline = some t → t < s.m.cycle →
    untilStart x.opcode = true → x.stage ≠ .writing →
    (x.stage ≠ .running → Answers (.deadlineExpire d) s (s.m.opDone d stLate 0)) ∧
    (x.stage = .running → Answers (.deadlineExpire d) s s.m)) ∧
  (∀ (d t : Nat) (x : Dtor) (s : State), DataReady (.deadlineExpire d) s → s.m.dtorAt d = some x → x.deadline = some t → t < s.m.cycle →
    x.stage = .writing → untilStart x.opcode = false → x.opcode ≠ 0x18 →
    Answers (.deadlineExpire d) s (s.m.onDtor d fun y => { y with done := some (stLate, y.n0) }))

/-- Completions of the part's own reads and writes (R249 to R251). Data in time that complete a read free its tag and go to the one who
asked, and reads that waited for a tag go on; data that do not complete it are kept. A read whose deadline passes puts its tag in
quarantine, is reported and gives what came; the quarantine ends at twice the timeout on a port that is NORMAL. A completion of a port that
names no read is counted and reported. A write that is acknowledged in time, or fails, or passes its deadline, leaves its table, its owner
is told which, and writes that waited go on; an acknowledgement that names no write is counted. -/
def Obligations.ReadsAndWritesComplete : Prop :=
  (∀ (k tag off : Nat) (words : List RWord) (t : RTag) (s : State), DataReady (.readCompletion k tag .success off words) s →
    s.m.memOpen k = true → s.m.tagAt k tag = some t → t.quar = false → s.m.cycle ≤ t.deadline →
    let t' := { t with words := layWords t.words t.n off words }
    (t.n ≤ t'.words.length →
      Answers (.readCompletion k tag .success off words) s (((s.m.freeTag k tag).readEnd t').tagBack k tag)) ∧
    (t'.words.length < t.n → Answers (.readCompletion k tag .success off words) s (s.m.onTag k tag fun _ => t'))) ∧
  (∀ (k tag off : Nat) (st : CplStatus) (words : List RWord) (s : State), DataReady (.readCompletion k tag st off words) s →
    s.m.memOpen k = true → s.m.tagAt k tag = none → (s.m.port k).unexpAt = some s.m.msec →
    Answers (.readCompletion k tag st off words) s ((s.m.count (0x8200 + k) 6 1).aer k 0)) ∧
  (∀ (k tag : Nat) (t : RTag) (s : State), s.m.tagAt k tag = some t →
    (DataReady (.completionTimeout k tag) s → t.quar = false → t.deadline < s.m.cycle →
      Answers (.completionTimeout k tag) s (((s.m.aer k 1).onTag t.port t.tag fun x => { x with quar := true }).readEnd t)) ∧
    (DataReady (.tagQuarantineEnd k tag) s → t.quar = true → t.issue + 2 * t.cplto ≤ s.m.cycle → s.m.normal k = true →
      Answers (.tagQuarantineEnd k tag) s (s.m.tagBack k tag))) ∧
  (∀ (k id : Nat) (w : WTrk) (s : State), s.m.writeAt k id = some w →
    (∀ st, DataReady (.writeCompletion k id st) s → s.m.memOpen k = true → s.m.cycle ≤ w.deadline →
      Answers (.writeCompletion k id st) s (((s.m.writeGone k id).writeEnd k w.owner (st = .success)).drainWrites)) ∧
    (DataReady (.writeTimeout k id) s → w.deadline < s.m.cycle →
      Answers (.writeTimeout k id) s ((((s.m.aer k 1).writeGone k id).writeEnd k w.owner false).drainWrites))) ∧
  (∀ (k id : Nat) (st : CplStatus) (s : State), DataReady (.writeCompletion k id st) s → s.m.memOpen k = true → s.m.writeAt k id = none →
    Answers (.writeCompletion k id st) s (s.m.count (0x8200 + k) 3 1))

/-! ## Extents, leases and retirements (R179 to R188, R196, R199, R200, R243, R247, R377) -/

/-- The life of an extent (R180, R182 to R185, R243). A response that names only extents offered to the function accepts each and
declines its other offers; one that names another is Invalid Input. An offer's term having passed, its function leaves it. Giving back
an ACTIVE extent releases it with cause 2 where the function is its sole holder, and only takes the function's grant otherwise. A region
with no request to a RELEASING extent begins its recalls, by entry for a TRACKED one, by retirement for a READ-SHARED one; when every
recall has ended, the extent is cleared. -/
def Obligations.ExtentsAreAcceptedAndReleased : Prop :=
  (∀ (f : Nat) (exts : List Nat) (s : State), DataReady (.addDynamicCapacityResponse f exts) s → s.m.barOpen f = true →
    let offered := (s.m.ext.exts.filter fun x => x.2.offer.any fun o => o.1 = f).map (·.1)
    (exts.all offered.contains = true →
      Answers (.addDynamicCapacityResponse f exts) s
        (((s.m.each exts.eraseDups fun m e => m.accept f e).each (offered.filter fun e => !exts.contains e) fun m e => m.offerDrop e f).mbox
          f mbSuccess [])) ∧
    (exts.all offered.contains = false → Answers (.addDynamicCapacityResponse f exts) s (s.m.mbox f mbInvalidInput []))) ∧
  (∀ (e f t : Nat) (s : State), DataReady (.offerTimeout e f) s → (f, t) ∈ (s.m.extent e).offer → t < s.m.cycle →
    Answers (.offerTimeout e f) s
      ((s.m.onExtent e fun x => { x with offer := x.offer.filter fun o => o.1 ≠ f }).offerSettle e)) ∧
  (∀ (f e : Nat) (s : State), DataReady (.releaseDynamicCapacity f e) s → s.m.barOpen f = true → s.m.granted f e = true →
    (s.m.extent e).st = .active →
    ((s.m.extent e).grant = 1#128 <<< f →
      Answers (.releaseDynamicCapacity f e) s ((s.m.releaseExtent e 2 none).mbox f mbSuccess [])) ∧
    ((s.m.extent e).grant ≠ 1#128 <<< f →
      Answers (.releaseDynamicCapacity f e) s (((s.m.ungrant f e).leaseSettle f).mbox f mbSuccess []))) ∧
  (∀ (r e : Nat) (s : State), DataReady (.releaseRecallStart r e) s → (s.m.extent e).st = .releasing →
    r ∈ (s.m.extent e).recalling → r ∉ (s.m.extent e).started →
    let m := s.m.closeViews e
    m.extentWaits r e = false →
    let begun := m.onExtent e fun y => { y with started := y.started ++ [r] }
    ((s.m.extent e).coh = .tracked → (s.m.extent e).endedBy = none →
      Answers (.releaseRecallStart r e) s (begun.recallLines r (lineOfExt e))) ∧
    (∀ f, (s.m.extent e).coh = .tracked → (s.m.extent e).endedBy = some f →
      Answers (.releaseRecallStart r e) s ((begun.settleEntries f e fun q => q = r).recallLines r (lineOfExt e))) ∧
    ((s.m.extent e).coh = .readShared → (s.m.extent e).ticket = none → m.ticketsFull = false →
      Answers (.releaseRecallStart r e) s
        ((begun.retire (e * extentPages) extentPages (s.m.extent e).pitch).onExtent e fun y =>
          { y with ticket := some (begun.retire (e * extentPages) extentPages (s.m.extent e).pitch).ext.lastTicket })) ∧
    ((s.m.extent e).coh = .uncached → Answers (.releaseRecallStart r e) s begun)) ∧
  (∀ (e : Nat) (s : State), DataReady (.releaseClear e) s → (s.m.extent e).st = .releasing → s.m.recalled e = true →
    Answers (.releaseClear e) s (s.m.clearExtent e))

/-- Leases and retirements (R186 to R188, R196, R200, R247, R377). RENEW of a live lease sets its expiry one term ahead; a lease below a
quarter of its term latches LEASE once; a lease past its expiry ends while a steward holds the role, a deferred one when its deferral has
passed; when no RELEASING extent is the function's any more, the ENDING lease is over and event 0003H says what it left. RETIREACK
discharges every retirement up to the number written; after 1 ms without it the function is swept by block snoops; one of them
unanswered for the lease term ends the lease and discharges the retirement. -/
def Obligations.LeasesAndRetirements : Prop :=
  (∀ (f : Nat) (v : BitVec 64) (s : State), DataReady (.renew f v) s → s.m.barOpen f = true → v.getLsbD 0 = true →
    s.m.leaseLive f = true →
    Answers (.renew f v) s (s.m.onFn f fun x =>
      { x with leaseAt := s.m.cycle + s.m.leaseTerm (s.m.pitchOf f), leaseDefer := none, leaseWasLow := false })) ∧
  (∀ (f : Nat) (s : State), DataReady (.leaseLow f) s → (s.m.fn f).lease = .held → (s.m.fn f).leaseWasLow = false →
    4 * ((s.m.fn f).leaseAt - s.m.cycle) < s.m.leaseTerm (s.m.pitchOf f) →
    Answers (.leaseLow f) s ((s.m.onFn f fun x => { x with leaseWasLow := true, leaseBit := true }).latch (intKey f) 0x10)) ∧
  (∀ (f : Nat) (s : State), DataReady (.leaseExpire f) s → s.m.sys.steward.isSome = true → (s.m.fn f).lease = .held →
    (s.m.fn f).leaseAt < s.m.cycle → (s.m.fn f).leaseDefer = none →
    Answers (.leaseExpire f) s (s.m.leaseEnd f)) ∧
  (∀ (f t : Nat) (s : State), DataReady (.leaseDeferredExpire f) s → s.m.sys.steward.isSome = true → (s.m.fn f).leaseDefer = some t →
    t < s.m.cycle → Answers (.leaseDeferredExpire f) s (s.m.leaseEnd f)) ∧
  (∀ (f : Nat) (s : State), DataReady (.leaseExpired f) s → (s.m.fn f).lease = .ending → s.m.heldBy f = [] →
    let x := s.m.fn f
    Answers (.leaseExpired f) s
      ((s.m.onFn f fun y => { y with lease := .none }).log 0x0003 (s.m.pitchOf f) 4 f
        [(8, f), (32, x.endReleased), (32, x.endLeft), (32, x.endPoisoned)])) ∧
  (∀ (f : Nat) (v : BitVec 64) (s : State), DataReady (.retireack f v) s → s.m.barOpen f = true →
    Answers (.retireack f v) s (s.m.discharge f fun t => decide (t.num ≤ bits v.toNat 31 0))) ∧
  (∀ (n f : Nat) (t : Ticket) (s : State), DataReady (.retirementSweepStart n f) s → s.m.ticketAt n = some t → f ∈ t.owed →
    (∀ w ∈ t.sweeps, w.fn ≠ f) → t.start + ms 1 < s.m.cycle →
    Answers (.retirementSweepStart n f) s ((s.m.onTicket n fun t => { t with sweeps := t.sweeps ++ [⟨f, 0, []⟩] }).sendBlocks (f / 16) 64)) ∧
  (∀ (n f line at_ : Nat) (t : Ticket) (s : State), DataReady (.blockSnoopTimeout n f) s → s.m.ticketAt n = some t →
    t.region = none →
    ((t.sweeps.filter fun x => x.fn = f).findSome? fun x => x.sent.find? fun y => decide (y.2 + s.m.leaseTerm t.pitch < s.m.cycle)) =
      some (line, at_) →
    Answers (.blockSnoopTimeout n f) s
      ((((s.m.log 0x0005 (s.m.pitchOf f) 4 f [(8, f), (64, line)]).leaseEnd f).discharge f fun x => x.num = n).sendBlocks (f / 16) 64))

/-! ## The dictionary (R123, R161, R179 to R182, R187, R213, R259, R261, R296, R310 to R345, R383) -/

/-- The dictionary's messages (R316 to R318, R322 to R324, R326 to R330, R334, R336), each in the clear, secured, or through a mailbox, as
its client's standing demands. HELLO answers with the version chosen and, when no probe, opens a client. READ answers its entries; a
WRITE none of whose entries fails a check is applied whole, staged values in the edit; block transfers go piece by piece; STAGE locks
areas, COMMIT hands a non-empty edit that no rule refuses to the installation as the next generation, ABORT drops it; SUBSCRIBE sets the
client's subscription; SPDM moves its session; BYE ends the client. -/
def Obligations.DictionaryRequests : Prop :=
  (∀ (h : MHdr) (vmin vmax : Nat) (probe : Bool) (s : State), UnitReady (.hello h vmin vmax probe) s → s.m.pathOpen h.src = true →
    s.m.dictUp = true → h.client = 0 → 1 ≤ vmax → vmin ≤ min vmax 3 →
    let v := min vmax 3
    let body : DBody := .hello v s.m.fp.nodeid (configNum s.m.fam) 1280 (s.m.cfgN 0x1100 4) s.m.dict.resetId s.m.dict.cfg.gen (v = 1)
    (probe = true → Answers (.hello h vmin vmax probe) s (s.m.dictSend h.src { ty := 0x01, seq := h.seq, ver := v, body := body })) ∧
    (∀ i, probe = false → s.m.liveClients < 16 →
      pickFree (fun i => (s.m.client (i + 1)).live) 65535 s.m.dict.clients.length s.m.drawn = some i →
      let r : DReply := { ty := 0x01, seq := h.seq, client := i + 1, ver := v, body := body }
      Answers (.hello h vmin vmax probe) s
        ((s.m.redraw.onClient (i + 1) fun _ =>
          { live := true, src := h.src, v := v, lastSeq := some h.seq, reply := some r, at_ := s.m.cycle }).dictSend h.src r))) ∧
  (∀ (m : Mach) (h : MHdr) (sec block : Bool) (ty : Nat) (fl : Bool) (es : List WEntry),
    (∀ e ∈ es, m.writeCheck (m.client h.client) block e = 0) → (∀ e ∈ es, m.accOf e ≠ some .cmd) → (∀ e ∈ es, e.index ≠ 0x3000) →
    let reply := wReply ty block 0 (es.map fun e => entryReply e 0)
    (m.stages es = false → m.writeAll h sec ty block fl es = (m.each es fun m e => m.applyEntry h.client e).dictAnswer h sec reply) ∧
    (∀ d, m.stages es = true → (m.client h.client).edit = some d → (m.staged d es).fits = true →
      m.writeAll h sec ty block fl es =
        ((m.onClient h.client fun x => { x with edit := some (m.staged d es) }).each es fun m e => m.applyEntry h.client e).dictAnswer
          h sec reply)) ∧
  (∀ (m : Mach) (c q : Nat) (e : Edit),
    (m.startCommit c q e).dict.cfg = ⟨m.dict.cfg.gen + 1, cfgOver m.fam m.dict.cfg.vals e.vals⟩ ∧
    (m.startCommit c q e).dict.commitTime = m.usec) ∧
  ∀ (c : Instr) (h : MHdr) (sec : Bool) (msg : DMsg) (s : State), UnitReady c s → c.dictMsg = some (h, sec, msg) → Serves s.m h sec msg →
    let m := heard s.m h
    let x := m.client h.client
    (∀ staged es, msg = .read staged es → es ≠ [] → es.length ≤ 64 →
      let a := m.readAll h.client staged es 0
      Answers c s (a.1.dictAnswer h sec { ty := 0x02, body := .entries a.2 })) ∧
    (∀ es, msg = .write es → es ≠ [] → es.length ≤ 64 → Answers c s (m.writeAll h sec 0x03 false true es)) ∧
    (∀ staged i sub off cnt o v, msg = .readBlock staged i sub off cnt → cnt ≤ 1024 → objAt m.fam i sub = some o →
      (o.acc = .cmd → i = 0x6050 ∧ sub = 2) → 7 ≤ o.ty → (off = 0 → m.valueOf x staged i sub o = some v) →
      (off ≠ 0 → ∃ t, x.rblock = some (okey i sub, t, v)) → off ≤ v.len →
      let taken := m.when (off = 0) fun m => m.takeEvents i sub
      let n := min cnt (v.len - off)
      let more : Bool := decide (off + n < v.len)
      Answers c s
        ((taken.onClient h.client fun y => { y with rblock := if more then some (okey i sub, o.ty, v) else none }).dictAnswer h sec
          { ty := 0x04, more := more, body := .block i sub o.ty v.len off n ⟨n, v.n / 256 ^ off % 256 ^ n⟩ })) ∧
    (∀ i sub ty total off piece more n, msg = .writeBlock i sub ty total off piece more → piece.length ≤ 1024 →
      (i = 0x6050 → sub = 1 → m.rollBusy = false) → (off = 0 → n = 0) →
      (off ≠ 0 → x.wblock = some (okey i sub, ty, total, off, n)) → off + piece.length ≤ total →
      (more = true →
        Answers c s ((m.onClient h.client fun y =>
          { y with wblock := some (okey i sub, ty, total, off + piece.length, n + leNat piece * 256 ^ off) }).dictAnswer h sec { ty := 0x05 })) ∧
      (more = false → off + piece.length = total →
        Answers c s ((m.onClient h.client fun y => { y with wblock := none }).writeAll h sec 0x05 true true
          [⟨i, sub, ty, ⟨total, n + leNat piece * 256 ^ off⟩⟩]))) ∧
    (∀ mask, msg = .stage mask → mask &&& ~~~lockable = 0 → (mask.getLsbD 10 = true → x.auth = true) →
      (mask.getLsbD 13 = true → x.auth = true ∧ x.prov = false) →
      (∀ y ∈ m.dict.clients, y.1 ≠ h.client → ∀ e, y.2.edit = some e → mask &&& e.areas = 0) →
      let e := x.edit.getD {}
      Answers c s ((m.onClient h.client fun y => { y with edit := some { e with areas := e.areas ||| mask, at_ := m.cycle } }).dictAnswer
        h sec { ty := 0x06 })) ∧
    (∀ expected e, msg = .commit expected → x.edit = some e → m.sec.fenced = false →
      expected = 0 ∨ (3 ≤ x.v ∧ expected = m.dict.cfg.gen) →
      (e.vals = [] → Answers c s ((m.onClient h.client fun y => { y with edit := none }).dictAnswer h sec { ty := 0x07 })) ∧
      (e.vals ≠ [] → m.commitBad e = none → Answers c s (m.startCommit h.client h.seq e))) ∧
    (∀ e, msg = .abort → x.edit = some e →
      Answers c s ((m.onClient h.client fun y => { y with edit := none }).dictAnswer h sec { ty := 0x08 })) ∧
    (∀ classes least pitches, msg = .subscribe classes least pitches →
      Answers c s ((m.onClient h.client fun y =>
        { y with sub := if classes = 0 then none else some (classes, least, pitches), evq := [], dropped := 0 }).dictAnswer
          h sec { ty := 0x09 })) ∧
    (∀ q l a, msg = .spdm q →
      (∀ end_, m.spdmAnswer ⟨min 3 x.spdm, x.spdm = 4, x.spdm = 5, x.spdm ≠ 5 && decide (m.spdmCount < 64), m.signs⟩ q = (l, a, end_) →
        let reply : DReply := { ty := 0x0A, body := .spdm a (m.spdmBody dictTransfer q a) }
        (end_ = .none →
          Answers c s ((m.onClient h.client fun y => { y with spdm := if 4 ≤ y.spdm then y.spdm else l }).dictAnswer h sec reply)) ∧
        (end_ = .opened → Answers c s ((m.onClient h.client fun y => { y with spdm := 4 }).dictAnswer h sec reply)) ∧
        (∀ key ok, q = .finish key ok → end_ = .finished →
          Answers c s ((m.onClient h.client fun y =>
            { y with spdm := 5, auth := (m.standing key).1, prov := (m.standing key).2 }).dictAnswer h sec reply)) ∧
        (end_ = .failed → Answers c s ((m.onClient h.client fun y => { y with spdm := 3 }).dictAnswer h sec reply)) ∧
        (end_ = .ended →
          Answers c s (((m.onClient h.client fun y => y).dictAnswer h sec reply).endClient h.client)))) ∧
    (msg = .bye → Answers c s ((m.endClient h.client).noReply h.src))

/-- Commits, timeouts and events of the dictionary (R318, R327, R330, R333, R335, R336). A unit that has still to install the set of the
running commit does so; when none is left the locks are released, the reply and the event go out, the deratings are drawn anew from the
new set, and the waiting requests follow. A flagged copy is fetched again. A client and an edit without a message for their timeouts end.
A subscriber's events go out, up to 31 at a time; a malformed datagram with a whole header and the MAGIC is answered BAD_MESSAGE, and a
frame that is no datagram for the part is discarded and counted. -/
def Obligations.CommitsComplete : Prop :=
  (∀ (u : Nat) (i : InCommit) (s : State), s.m.dict.inst = some i →
    (UnitReady (.configInstall true u) s → u ∈ i.hubs →
      Answers (.configInstall true u) s
        ((s.m.installHub u i.set).onDict fun d => { d with inst := some { i with hubs := i.hubs.filter (· ≠ u) } })) ∧
    (UnitReady (.configInstall false u) s → u ∈ i.regions →
      Answers (.configInstall false u) s
        ((s.m.installRegion u i.set i.at_).onDict fun d => { d with inst := some { i with regions := i.regions.filter (· ≠ u) } }))) ∧
  (∀ (i : InCommit) (s : State), UnitReady .commitAcknowledged s → s.m.dict.inst = some i → i.hubs = [] → i.regions = [] →
    s.m.sys.steward.isSome = true → (s.m.client i.client).live = true → (s.m.client i.client).lastSeq = some i.seq →
    let c := s.m.client i.client
    let done := ((s.m.onDict fun d => { d with inst := none }).onClient i.client fun x => { x with edit := none }).dictAnswer
      ⟨c.src, c.v, i.client, i.seq⟩ c.auth { ty := 0x07, body := .committed i.set.gen (cfgDigest s.m.fam i.set.vals) }
    Answers .commitAcknowledged s ((done.log 0x0701 0 0 0 [(64, i.set.gen)]).derate.runWaiting)) ∧
  (∀ (r : Nat) (s : State), (s.m.region r).st = .serving → s.m.sys.steward.isSome = true →
    (UnitReady (.digestRecheck r true) s → s.m.dict.inst = none →
      let flagged := ((s.m.onRegion r fun g => { g with digestAt := s.m.cycle }).log 0x0702 0 1 r [(8, r)]).onRegion r fun g =>
        { g with rstate := 3 }
      flagged.dict.inst = none → flagged.sys.steward.isSome = true →
      Answers (.digestRecheck r true) s (flagged.installRegion r flagged.dict.cfg flagged.cycle)) ∧
    (UnitReady (.digestRecheck r false) s → (s.m.region r).digestAt + ms 1000 ≤ s.m.cycle → (s.m.region r).rstate ≠ 3 →
      Answers (.digestRecheck r false) s (s.m.onRegion r fun g => { g with digestAt := s.m.cycle }))) ∧
  (∀ (c : Nat) (s : State), UnitReady (.clientTimeout c) s → (s.m.client c).live = true →
    (s.m.client c).at_ + ms 1000 * s.m.cfgN 0x1100 4 < s.m.cycle →
    Answers (.clientTimeout c) s (s.m.onDict fun d =>
      { d with clients := tdel d.clients c, waiting := d.waiting.filter fun w => w.h.client ≠ c })) ∧
  (∀ (c : Nat) (e : Edit) (s : State), UnitReady (.editTimeout c) s → (s.m.client c).edit = some e →
    e.at_ + ms 1000 * s.m.cfgN 0x1100 5 < s.m.cycle →
    Answers (.editTimeout c) s (s.m.onClient c fun x => { x with edit := none })) ∧
  (∀ (c a p : Nat) (s : State), UnitReady (.eventSend c) s → (s.m.client c).src = .udp a p → (s.m.client c).live = true →
    (s.m.client c).sub ≠ none → (s.m.client c).evq ≠ [] → s.m.dictUp = true → s.m.pathOpen (.udp a p) = true →
    (∀ t, (s.m.client c).evAt = some t → t + ms 1 ≤ s.m.cycle) →
    let x := s.m.client c
    Answers (.eventSend c) s
      ((s.m.onClient c fun y =>
        { y with evq := y.evq.drop 31, dropped := 0, evSeq := (y.evSeq + 1) % 65536, evAt := some s.m.cycle }).send
          (.event (.udp a p) c ((x.evSeq + 1) % 65536) x.dropped (x.evq.take 31)))) ∧
  (∀ (k c n : Nat) (s : State), UnitReady (.dictionaryEvents k c n) s → s.m.pathOpen (.inband k) = true → s.m.dictUp = true →
    (s.m.client c).live = true → (s.m.client c).src = .inband k → 1 ≤ n → n ≤ 31 →
    let x := s.m.client c
    Answers (.dictionaryEvents k c n) s
      ((s.m.onClient c fun y => { y with evq := y.evq.drop n, dropped := 0 }).fmBox k mbSuccess (eventPayload x.dropped (x.evq.take n)))) ∧
  (∀ (src : Src) (ty c q : Nat) (s : State), UnitReady (.malformedDatagram src .header ty c q) s → s.m.pathOpen src = true →
    s.m.dictUp = true →
    Answers (.malformedDatagram src .header ty c q) s
      (s.m.dictSend src { ty := ty, status := 0x01, client := c, ver := (s.m.client c).v, seq := q })) ∧
  (∀ (a p ty c q : Nat) (s : State), UnitReady (.malformedDatagram (.udp a p) .frame ty c q) s → (s.m.hub 0).failed = false →
    Answers (.malformedDatagram (.udp a p) .frame ty c q) s (s.m.onFp fun y => { y with fperr := satAdd (2 ^ 32 - 1) y.fperr 1 }))

/-- The field port's neighbours (R313, R314). With H0 alive and its address taken, a solicitation of the part's own address is answered
with an advertisement, an echo request with its reply; duplicate address detection, once, gives the address, or counts it as in use; at a
beacon the coordinator sends it and opens its cycle's slots, another node has one. -/
def Obligations.FieldPortAnswers : Prop :=
  ∀ (s : State), (s.m.hub 0).failed = false →
    (∀ a, UnitReady (.neighbourSolicitation ownAddr a) s → s.m.fp.addrOk = true →
      Answers (.neighbourSolicitation ownAddr a) s (s.m.send (.neighbourAdvert a))) ∧
    (∀ a i q l, UnitReady (.icmpv6Echo a i q l) s → s.m.fp.addrOk = true → Answers (.icmpv6Echo a i q l) s (s.m.send (.echoReply a i q l))) ∧
    (s.m.fp.addrOk = false → s.m.fp.addrDup = false →
      (UnitReady (.duplicateAddressDetection false) s →
        Answers (.duplicateAddressDetection false) s (s.m.onFp fun p => { p with addrOk := true })) ∧
      (UnitReady (.duplicateAddressDetection true) s →
        Answers (.duplicateAddressDetection true) s
          (s.m.onFp fun p => { p with addrDup := true, fperr := satAdd (2 ^ 32 - 1) p.fperr 1 }))) ∧
    (UnitReady .plcaBeacon s → s.m.fp.nodeid = 0 →
      Answers .plcaBeacon s ((s.m.onFp fun p => { p with beacons := true, slots := s.m.cfgN 0x1100 3 }).send .beacon)) ∧
    (UnitReady .plcaBeacon s → s.m.fp.nodeid ≠ 0 → Answers .plcaBeacon s (s.m.onFp fun p => { p with beacons := true, slots := 1 }))

/-- The dictionary's command objects (R123, R161, R180, R182, R187, R259, R261, R323, R383). Written by a client whose message the
dictionary takes up, out of FENCE, each does its work and is answered OK (to the client's address where the work ends the client):
REATTACHEND ends the pitch's reattach periods; DRAIN drains its queues, or releases them; CLEAR of a drained pitch releases its extents,
frees its queues and clears its functions; EXTADD that passes the checks offers the new extent, EXTGRANT an ACTIVE one, EXTREL releases one;
RELEASE frees a contained port; LEASERENEW renews a lease; RESTART restarts a fenced region, whose side of the
crossings is reset. A BOOL command written 0 does nothing. -/
def Obligations.CommandObjectsAct : Prop :=
  ∀ (h : MHdr) (s : State), Serves s.m h (s.m.client h.client).auth (.write []) → s.m.sec.fenced = false →
    let m := heard s.m h
    let ok (t : Mach) (i sub : Nat) : Mach := t.orderAnswer h (s.m.client h.client).auth (s.m.client h.client).v (wroteOne i sub)
    (∀ p, 1 ≤ p → p ≤ 63 →
      (UnitReady (.reattachend h p ⟨1, 1⟩) s →
        Answers (.reattachend h p ⟨1, 1⟩) s (ok (m.each (List.range (regions m.fam)) fun m r => m.endReattach r p) (0x3000 + p) 0x16)) ∧
      (UnitReady (.reattachend h p ⟨1, 0⟩) s → Answers (.reattachend h p ⟨1, 0⟩) s (ok m (0x3000 + p) 0x16)) ∧
      (UnitReady (.drain h p ⟨1, 1⟩) s → Answers (.drain h p ⟨1, 1⟩) s (ok (m.drain p) (0x3000 + p) 0x17)) ∧
      (UnitReady (.drainRelease h p ⟨1, 0⟩) s → Answers (.drainRelease h p ⟨1, 0⟩) s (ok (m.undrain p) (0x3000 + p) 0x17)) ∧
      (UnitReady (.clear h p ⟨1, 1⟩) s → (∀ x ∈ m.queuesOf p, (m.queue x.1 x.2).st = .drained) →
        let freed := (m.each ((m.extentsOf p).map (·.1)) fun m e => m.releaseExtent e 4 none).each (m.queuesOf p) fun m x =>
          m.loseQueue x.1 x.2
        Answers (.clear h p ⟨1, 1⟩) s
          (ok ((freed.each (freed.boundFns p) fun m f => m.clearFn f).onSvc fun v => { v with drained := v.drained.filter (· ≠ p) })
            (0x3000 + p) 0x18)) ∧
      (UnitReady (.clear h p ⟨1, 0⟩) s → Answers (.clear h p ⟨1, 0⟩) s (ok m (0x3000 + p) 0x18)) ∧
      (∀ n, UnitReady (.extadd h p ⟨28, n⟩) s → n < 256 ^ 28 →
        let e := bits n 31 0
        let codec := bits n 167 160
        let efmt := bits n 175 168
        let vel := bits n 183 176
        let coh := bits n 191 184
        let home := bits n 199 192
        let lossy : Bool := codec = 3 || codec = 4
        let confined : Bool := m.cfgN (0x3000 + p) 2 = 1
        e < extentLimit m.fam → (m.extent e).st = .free → m.grantsOk p (bits n 159 32) = true →
        codec ≤ 4 → efmt ≤ 3 → vel ≤ 1 → coh ≤ 2 → bits n 223 200 = 0 → (vel ≠ 0 → codec = 3) →
        (lossy = true → m.lossyOk p = true ∧ (efmt = 1 ∨ efmt = 2)) →
        (confined = true → regionOk m.fam home = true ∧ (m.region home).st ≠ .fenced) → (confined = false → home = 0) →
        let added := m.onExtent e fun _ =>
          { st := .adding, coh := cohOf coh, attr := ⟨codec, efmt, vel⟩, confined := confined, run := m.runPlace p, home := home
            pitch := p, cause := (m.extent e).cause, report := true }
        (List.range (regions m.fam)).all (added.floorOk p) = true → added.runsOk p = true → added.overbooked = none →
        Answers (.extadd h p ⟨28, n⟩) s (ok (added.offerTo e p (maskFns (bits n 159 32))) (0x3000 + p) 0x19)) ∧
      (∀ e, UnitReady (.extrel h p ⟨4, e⟩) s → e < 256 ^ 4 → (m.extent e).st = .active ∨ (m.extent e).st = .releasing →
        (m.extent e).pitch = p → Answers (.extrel h p ⟨4, e⟩) s (ok (m.releaseExtent e 1 none) (0x3000 + p) 0x1A)) ∧
      (∀ n, UnitReady (.extgrant h p ⟨20, n⟩) s → n < 256 ^ 20 → (m.extent (bits n 31 0)).st = .active →
        (m.extent (bits n 31 0)).pitch = p → m.grantsOk p (bits n 159 32) = true →
        Answers (.extgrant h p ⟨20, n⟩) s
          (ok (m.offerTo (bits n 31 0) p ((maskFns (bits n 159 32)).filter fun f => !m.granted f (bits n 31 0))) (0x3000 + p) 0x1B))) ∧
    (∀ k, k < hubs m.fam →
      (UnitReady (.release h k ⟨1, 1⟩) s → (m.hub k).failed = false → m.canRelease k = true →
        Answers (.release h k ⟨1, 1⟩) s (ok (m.uncontain k) (0x5000 + k) 0x32)) ∧
      (UnitReady (.release h k ⟨1, 0⟩) s → Answers (.release h k ⟨1, 0⟩) s (ok m (0x5000 + k) 0x32)) ∧
      (∀ ld, ld < 16 →
        (UnitReady (.leaserenew h k ld ⟨1, 1⟩) s → m.leaseLive (16 * k + ld) = true →
          Answers (.leaserenew h k ld ⟨1, 1⟩) s
            (ok (m.onFn (16 * k + ld) fun x =>
              { x with leaseAt := m.cycle + m.leaseTerm (m.pitchOf (16 * k + ld)), leaseDefer := none, leaseWasLow := false })
              (0x5000 + k) (0x50 + ld))) ∧
        (UnitReady (.leaserenew h k ld ⟨1, 0⟩) s → Answers (.leaserenew h k ld ⟨1, 0⟩) s (ok m (0x5000 + k) (0x50 + ld))))) ∧
    (∀ r, r < regions m.fam →
      (UnitReady (.restart h r ⟨1, 1⟩) s → m.canRestart r = true →
        Answers (.restart h r ⟨1, 1⟩) s
          (ok (((m.onRegion r fun g => { g with st := .restarting, fencedAt := m.cycle, fenceTicket := none }).flushRegion r).each (List.range 8)
            fun m c => m.onChan r c fun x => if x.st = .failed then x else { st := .training, since := m.cycle }) (0x2200 + r) 0x03)) ∧
      (UnitReady (.restart h r ⟨1, 0⟩) s → Answers (.restart h r ⟨1, 0⟩) s (ok m (0x2200 + r) 0x03)))

/-- Keys, firmware and the debug port (R354, R355, R363, R365, R400), for a client that may write the Security and Debug areas. WRAPKEY
that unwraps to a key, and displaces none in use, sets the pitch's key and KEYSTATE 1; one that does not unwrap, and one that would
displace a key in use, are refused, with KEYSTATE 3 where a key is held and 2 where none is. The last piece of FWIMAGE leaves the whole
image received, an earlier one is kept; FWCMD 1 checks the image, 2 writes it to every hub's flash and starts the roll, 3 discards it;
DBGOPEN erases the secrets, fences, latches and opens the port. -/
def Obligations.KeysFirmwareAndDebug : Prop :=
  ∀ (h : MHdr) (s : State), Serves s.m h (s.m.client h.client).auth (.writeBlock 0 0 0 0 0 [] false) →
    (s.m.client h.client).mayWrite 0x6050 = true →
    let m := heard s.m h
    let ok (t : Mach) (i sub : Nat) : Mach := t.orderAnswer h (s.m.client h.client).auth (s.m.client h.client).v (wroteOne i sub)
    (s.m.sec.fenced = false →
      (∀ p v, UnitReady (.wrapkey h p v) s → 1 ≤ p → p ≤ 63 → v.len ≤ 256 → v.n < 256 ^ v.len → m.cfgN (0x3000 + p) 1 = 1 →
        m.sec.zeroizing = false →
        let no (why : Nat) : Mach :=
          (m.onSec fun x => { x with keystate := tput x.keystate 0 p (if m.hasKey p then 3 else 2) }).orderAnswer h
            (s.m.client h.client).auth (s.m.client h.client).v
            { ty := 0x03, status := 0x0E, reason := why, dindex := 0x6040 + p, dsub := 0x01
              body := .entries [⟨0x6040 + p, 0x01, 0x0E, 0, 0, ⟨0, 0⟩⟩] }
        (∀ key, m.unwrap p v = some key → m.hasKey p = false ∨ tget m.sec.keys none p = some key ∨ m.keyInUse p = false →
          Answers (.wrapkey h p v) s
            (ok (m.onSec fun x => { x with keys := tput x.keys none p (some key), keystate := tput x.keystate 0 p 1 }) (0x6040 + p) 0x01)) ∧
        (m.unwrap p v = none → Answers (.wrapkey h p v) s (no 1)) ∧
        (∀ key, m.unwrap p v = some key → m.hasKey p = true → tget m.sec.keys none p ≠ some key → m.keyInUse p = true →
          Answers (.wrapkey h p v) s (no 3))) ∧
      (∀ total off piece more n, UnitReady (.fwimage h total off piece more) s → piece.length ≤ 1024 → m.rollBusy = false →
        (off = 0 → n = 0) → (off ≠ 0 → (m.client h.client).wblock = some (okey 0x6050 1, 8, total, off, n)) →
        off + piece.length ≤ total → total ≤ 16777216 →
        (more = true →
          Answers (.fwimage h total off piece more) s ((m.onClient h.client fun y =>
            { y with wblock := some (okey 0x6050 1, 8, total, off + piece.length, n + leNat piece * 256 ^ off) }).dictAnswer h
              (s.m.client h.client).auth { ty := 0x05 })) ∧
        (more = false → off + piece.length = total → n + leNat piece * 256 ^ off < 256 ^ total →
          Answers (.fwimage h total off piece more) s
            (((m.onClient h.client fun y => { y with wblock := none }).onSec fun x =>
              { x with fwImage := leBytes total (n + leNat piece * 256 ^ off), fwHdr := none, fwstate := 1 }).orderAnswer h
                (s.m.client h.client).auth (s.m.client h.client).v { ty := 0x05 }))) ∧
      (UnitReady (.fwVerify h) s → m.rollBusy = false → m.sec.fwImage ≠ [] →
        let i := imgOf m.sec.fwImage
        (m.imgOk i = true →
          Answers (.fwVerify h) s (ok (m.onSec fun x => { x with fwstate := 2, fwHdr := some i }) 0x6050 0x02)) ∧
        (m.imgOk i = false →
          Answers (.fwVerify h) s (ok (m.onSec fun x => { x with fwstate := 4, fwHdr := none }) 0x6050 0x02))) ∧
      (∀ f, UnitReady (.fwActivate h f) s → m.rollBusy = false → m.sec.fwstate = 2 →
        (f = true → m.liveHubs.length = hubs m.fam →
          let slot := 1 - m.activeSlot
          let written := m.each (List.range (hubs m.fam)) fun m k =>
            ((m.send (.flashWr k slot)).send (.flashWr k 2)).onHub k fun x => { x with markerPos := nextMarker x.markerPos }
          let old := (written.hub (written.sys.steward.getD 0)).image
          Answers (.fwActivate h f) s
            (ok ((written.onSec fun x =>
              { x with fwstate := 3, fwSlot := slot, fwOld := old, rolledHubs := [], rolledRegs := [] }).rollNext) 0x6050 0x02)) ∧
        (f = false ∨ m.liveHubs.length ≠ hubs m.fam →
          Answers (.fwActivate h f) s (ok (m.onSec fun x => { x with fwstate := 4 }) 0x6050 0x02))) ∧
      (UnitReady (.fwDiscard h) s → m.rollBusy = false →
        Answers (.fwDiscard h) s (ok (m.onSec fun x => { x with fwstate := 0, fwImage := [], fwHdr := none }) 0x6050 0x02))) ∧
    ((s.m.client h.client).mayWrite 0x9000 = true →
      (UnitReady (.dbgopen h ⟨1, 1⟩) s → m.sec.dbgOpen = false →
        let erased := (((m.onSec fun x => { x with applied := 2 }).eraseSecrets.applyFence.raiseSec 3).log 0x0602 0 0 0 [])
        let opened := (erased.onSys fun x => { x with debugLatch := true }).onSec fun x => { x with dbgOpen := true, zeroizing := false }
        Answers (.dbgopen h ⟨1, 1⟩) s (ok ((opened.raiseSec 1).log 0x0603 0 0 0 []) 0x9000 0x01)) ∧
      (UnitReady (.dbgopen h ⟨1, 0⟩) s → Answers (.dbgopen h ⟨1, 0⟩) s (ok m 0x9000 0x01)))

/-- Flags, counters, injection and event queues of the dictionary (R213, R296, R310, R342, R344). A bit written one to DEFICIT, OPTEVT,
G7EVT or ALARMSTAT is cleared unless it has been set in this hub cycle, DEFICIT only while no derating stands; a counter takes the value
written with what it has counted in this hub cycle on top; INJARM arms the injection whose kind and unit agree, or disarms it; EQREAD by a
client of version 2 or 3 returns up to 32 records and removes them. -/
def Obligations.FlagsAndCountersAreWritten : Prop :=
  ∀ (h : MHdr) (s : State), Serves s.m h (s.m.client h.client).auth (.write []) →
    let m := heard s.m h
    let ok (t : Mach) (i sub : Nat) : Mach := t.dictAnswer h (s.m.client h.client).auth (wroteOne i sub)
    let now (i sub n : Nat) : Nat := (m.clearing (okey i sub) (BitVec.ofNat 64 n)).toNat
    (UnitReady (.deficitClear h ⟨1, 1⟩) s → m.sys.sigmaH = [] → m.sys.sigmaT0 = [] → m.sys.sigmaT1 = [] →
      (m.clearing (okey 0x2000 0x04) 1).toNat % 2 = 1 →
      Answers (.deficitClear h ⟨1, 1⟩) s (ok (m.onSys fun x => { x with deficit := false }) 0x2000 0x04)) ∧
    (∀ k n, UnitReady (.optevtClear h k ⟨4, n⟩) s → k < hubs m.fam → n < 256 ^ 4 →
      Answers (.optevtClear h k ⟨4, n⟩) s
        (ok (m.onPort k fun p => { p with optevt := p.optevt &&& ~~~(BitVec.ofNat 4 (now (0x5000 + k) 0x24 n)) }) (0x5000 + k) 0x24)) ∧
    (∀ r n, UnitReady (.g7evtClear h r ⟨4, n⟩) s → r < regions m.fam → n < 256 ^ 4 →
      Answers (.g7evtClear h r ⟨4, n⟩) s
        (ok (m.onDram fun d =>
          { d with g7evt := tput d.g7evt 0 r (BitVec.ofNat 32 (tget d.g7evt 0 r) &&& ~~~(BitVec.ofNat 32 (now (0x2200 + r) 0x47 n))).toNat }) (0x2200 + r) 0x47)) ∧
    (∀ n, UnitReady (.alarmstatClear h ⟨4, n⟩) s → n < 256 ^ 4 → (s.m.client h.client).mayWrite 0x6010 = true →
      Answers (.alarmstatClear h ⟨4, n⟩) s
        (ok (m.onSec fun x => { x with alarmstat := x.alarmstat &&& ~~~(BitVec.ofNat 4 (now 0x6010 0x05 n)) }) 0x6010 0x05)) ∧
    (∀ i sub n o, UnitReady (.counterWrite h i sub ⟨8, n⟩) s → 0x8000 ≤ i → i < 0x9000 → objAt m.fam i sub = some o → o.acc = .rw →
      n < 256 ^ 8 → o.lo ≤ 8 → 8 ≤ o.hi →
      Answers (.counterWrite h i sub ⟨8, n⟩) s (ok { m with cnt := tput m.cnt 0 (okey i sub) (satAdd (2 ^ 64 - 1) n (tget m.nowOf.counts 0 (okey i sub))) } i sub)) ∧
    (∀ n, n ≤ 1 → UnitReady (.injarm h ⟨1, n⟩) s → (s.m.client h.client).mayWrite 0x9010 = true →
      Answers (.injarm h ⟨1, n⟩) s
        (ok (m.onCode fun c => { c with injArm := n = 1 && injMatches c.injKind (bits c.injTarget.toNat 31 28) }) 0x9010 0x01)) ∧
    (∀ p, UnitReady (.eqread h p) s → 1 ≤ p → p ≤ 63 → 2 ≤ (s.m.client h.client).v →
      let q := tget m.ev.pq [] p
      let v := recsVal (q.take 32)
      let n := min 1024 v.len
      let more : Bool := decide (n < v.len)
      Answers (.eqread h p) s
        (((m.onEv fun e => { e with pq := tput e.pq [] p ((tget e.pq [] p).drop 32) }).onClient h.client fun y =>
          { y with rblock := if more then some (okey (0x7040 + p) 1, 8, v) else none }).dictAnswer h (s.m.client h.client).auth
            { ty := 0x04, more := more, body := .block (0x7040 + p) 1 8 v.len 0 n ⟨n, v.n % 256 ^ n⟩ }))

/-- R328: an ABORT that the dictionary takes up, from a client that holds an edit, is answered; the edit's values and locks, which the edit
holds, are gone, and nothing in force changes: the machine differs in the answer sent and in that client's record alone. -/
def Obligations.AbortDiscardsTheEdit : Prop :=
  ∀ (c : Instr) (h : MHdr) (sec : Bool) (e : Edit) (s : State), UnitReady c s → c.dictMsg = some (h, sec, .abort) →
    Serves s.m h sec .abort → (s.m.client h.client).edit = some e →
    ∃ t, Answers c s t ∧ (t.client h.client).edit = none ∧ (∀ k, k ≠ h.client → t.client k = s.m.client k) ∧
      t = { s.m with dict := { s.m.dict with clients := t.dict.clients }, out := t.out }

/-- R79: a block of BF16 or FP16 elements that holds a NaN or an infinity, so one whose exponent is all ones, takes the scale byte FFH and
zero element codes under every element format, and each of its elements reads as the canonical NaN of its format; a line that is
such a block lands in T0 so. -/
def Obligations.NanBlocksReadAsCanonicalNan : Prop :=
  ∀ (src el : FlFmt) (codes : List Nat), src = fmtBF16 ∨ src = fmtFP16 → el = fmtE4M3 ∨ el = fmtE5M2 ∨ el = fmtE2M1 →
    (∃ c ∈ codes, c / 2 ^ src.mb % 2 ^ src.eb = 2 ^ src.eb - 1) →
    let nan : Nat := if src = fmtBF16 then 0x7FC0 else 0x7E00
    mxQuant src el codes = (0xFF, codes.map fun _ => 0) ∧
    mxDequant src el (mxQuant src el codes).1 (mxQuant src el codes).2 = (codes.map fun _ => nan) ∧
    ∀ w0 w1 : Word, codes = elems16 (wordBytes w0 ++ wordBytes w1) →
      landLine src el (some w0) (some w1) =
        (some (wordOfBytes (bytes16 (List.replicate 16 nan))), some (wordOfBytes (bytes16 (List.replicate 16 nan))))

/-- R21: a cell grants in turn. In a cycle in which it has granted nothing it grants the first requesting port after the one it granted
last, in the order block crossbar, codec, Tally, migration (ports 0 to 3), and that request alone leaves; a word beyond repair that it
reads in the table block is settled; in one in which it has granted it grants nothing more; and of four successive cycles whose reads find
no such word one grants a port whose request stands from the first of them. -/
def Obligations.CellsGrantInTurn : Prop :=
  (∀ (r cell : Nat) (reqs : BitVec 4) (ue : Option TableWord) (s : State), UnitReady (.cellGrant r cell ⟨reqs, ue⟩) s →
    (s.m.region r).st ≠ .fenced →
    let held := BitVec.ofNat 4 (tget (s.m.region r).cellReq 0 cell) ||| reqs
    let now := s.m.cellCycle cell + 1
    (∀ p, tget (s.m.region r).cellAt 0 cell ≠ now → nextPort held (tget (s.m.region r).cellLast 0 cell) = some p →
      let granted := (s.m.onRegion r fun g =>
        { g with cellReq := tput g.cellReq 0 cell (held &&& ~~~(1#4 <<< p)).toNat, cellLast := tput g.cellLast 0 cell ((p + 1) % 4)
                 cellAt := tput g.cellAt 0 cell now }).send (.cellGrant r cell p)
      (∀ w, ue = some w → (s.m.region r).st = .serving → cell / 64 = (s.m.region r).tableBlock →
        Answers (.cellGrant r cell ⟨reqs, ue⟩) s (granted.tableFlagged r w)) ∧
      (ue = none ∨ (s.m.region r).st ≠ .serving ∨ cell / 64 ≠ (s.m.region r).tableBlock →
        Answers (.cellGrant r cell ⟨reqs, ue⟩) s granted)) ∧
    (tget (s.m.region r).cellAt 0 cell = now ∨ held = 0 →
      Answers (.cellGrant r cell ⟨reqs, ue⟩) s (s.m.onRegion r fun g => { g with cellReq := tput g.cellReq 0 cell held.toNat }))) ∧
  (∀ (reqs : BitVec 4) (k : Nat), k < 4 → reqs ≠ 0 →
    ∃ p, nextPort reqs k = some p ∧ p < 4 ∧ reqs.getLsbD p = true ∧
      ∀ i, i < 4 → (k + i) % 4 = p → ∀ j, j < i → reqs.getLsbD ((k + j) % 4) = false) ∧
  (∀ (r cell p : Nat) (reqs : Nat → BitVec 4) (s : Nat → State), p < 4 → tget ((s 0).m.region r).cellLast 0 cell < 4 →
    (BitVec.ofNat 4 (tget ((s 0).m.region r).cellReq 0 cell) ||| reqs 0).getLsbD p = true →
    (∀ i, i < 4 → UnitReady (.cellGrant r cell ⟨reqs i, none⟩) (s i) ∧ ((s i).m.region r).st ≠ .fenced ∧
      tget ((s i).m.region r).cellAt 0 cell ≠ (s i).m.cellCycle cell + 1) →
    (∀ i, i < 3 → ∃ m, Answers (.cellGrant r cell ⟨reqs i, none⟩) (s i) m ∧
      tget ((s (i + 1)).m.region r).cellReq 0 cell = tget (m.region r).cellReq 0 cell ∧
      tget ((s (i + 1)).m.region r).cellLast 0 cell = tget (m.region r).cellLast 0 cell) →
    ∃ i, i < 4 ∧ ∃ m, Answers (.cellGrant r cell ⟨reqs i, none⟩) (s i) m ∧ m.out = (s i).m.out ++ [.cellGrant r cell p])

/-! ## The chip: reset, start-up, security, firmware, the steward (R25, R295, R359 to R389, R393, R394) -/

/-- RESET_n, start-up, a region's return, the monitor's supply and the temperatures (R25, R295, R369 to R373, R383, R389, R393, R394). A low
of at least 50 ns holds the part in reset, keeping the monitor, the fuses and the model's own axis; a shorter one is ignored. The release
starts the monitor and the ports, gives every region its table block and boots the hubs, when no hub, stop or block fails its self-test.
Start-up ends with the regions in service once a steward has loaded the microcode and no channel trains; a region restarts whole when
its channels have trained and its self-test finds nothing. A loss of the always-on supply clears the monitor; a reading sets THERM_ALERT
at a threshold and releases it 5 degrees below every one. -/
def Obligations.ResetStartUpAndTemperatures : Prop :=
  (∀ (ns : Nat) (s : State), (Instr.resetNAssert ns).wf s.m.fam = true → s.m.awake = true →
    (50 ≤ ns →
      Answers (.resetNAssert ns) s
        { fam := s.m.fam, cycle := s.m.cycle, fresh := s.m.fresh, nextId := s.m.nextId, out := s.m.out
          sys := { fatalCause := s.m.sys.fatalCause, fatalReport := s.m.sys.fatalReport, debugLatch := s.m.sys.debugLatch
                   monClasses := s.m.sys.monClasses, heldAt := s.m.cycle }
          sec := { svnFloor := s.m.sec.svnFloor } }) ∧
    (ns < 50 → Answers (.resetNAssert ns) s s.m)) ∧
  (∀ (b : BootIn) (s : State), (Instr.resetNRelease b).wf s.m.fam = true → s.m.awake = false → b.hubBad = [] → b.stopBad = [] →
    b.blockBad = [] →
    let m0 := s.m.monitorStart b
    let m := m0.each (List.range (hubs m0.fam)) fun m k => m.portStart k
    Answers (.resetNRelease b) s
      ((m.each ((List.range (regions m.fam)).filter fun r => (m.region r).st ≠ .fenced) fun m r => m.takeTable r).bootHubs b.flash)) ∧
  (∀ (s : State), UnitReady .memoryActive s → s.m.sys.phase = .starting → s.m.sys.steward.isSome = true → s.m.sys.ucodeLoaded = true →
    let rs := (List.range (regions s.m.fam)).filter fun r => (s.m.region r).st ≠ .fenced
    (∀ r ∈ rs, s.m.stillTraining r = false) →
    (rs ≠ [] →
      let up := ((s.m.onSys fun x => { x with phase := .active }).each rs fun m r => m.regionServes r).outerStart
      Answers .memoryActive s (up.log 0x0806 0 0 0 [(32, ((s.m.onSys fun x => { x with phase := .active }).each rs fun m r =>
        m.regionServes r).usec / 1000)])) ∧
    (rs = [] → Answers .memoryActive s (s.m.chipFatal 6))) ∧
  (∀ (r : Nat) (s : State), DataReady (.regionRestartDone r []) s → (s.m.region r).st = .restarting → s.m.stillTraining r = false →
    s.m.sys.steward.isSome = true →
    let m := s.m.takeTable r
    (m.region r).st = .restarting →
    let v := ((m.hub (m.sys.steward.getD 0)).image.map (·.ucodever)).getD 0
    let clean := m.onRegion r fun g =>
      { st := .restarting, quar := g.quar, tableBlock := g.tableBlock, fenceCause := g.fenceCause, fencedAt := g.fencedAt
        loans := g.loans, cfg := m.dict.cfg, ucode := v
        ucodeDigest := ((m.hub (m.sys.steward.getD 0)).image.map (·.ucodeDigest)).getD 0
        sT0 := g.sT0, sT1 := g.sT1 }
    Answers (.regionRestartDone r []) s ((((clean.beginReattach r clean.cycle).regionServes r).log 0x0803 0 1 r [(8, r)]).derate)) ∧
  (∀ (s : State), Instr.vddAonLoss.wf s.m.fam = true →
    Answers .vddAonLoss s (s.m.onSys fun x => { x with fatalCause := 0, fatalReport := false, debugLatch := false, monClasses := 0 })) ∧
  (∀ (l : List (DieId × Int)) (s : State), (Instr.thermalReading l).wf s.m.fam = true → s.m.awake = true →
    (∀ t, s.m.sys.thermAt = some t → t + us 100 ≤ s.m.cycle) →
    let read := newTemps s.m.sys.temps l
    let set (b : Bool) : Mach := s.m.onSys fun x => { x with temps := read, thermAt := some s.m.cycle, thermAlert := b }
    ((∃ y ∈ read, dieLimit y.1 ≤ y.2) → Answers (.thermalReading l) s (set true)) ∧
    ((∀ y ∈ read, y.2 + 5 ≤ dieLimit y.1) → Answers (.thermalReading l) s (set false)) ∧
    ((∀ y ∈ read, y.2 < dieLimit y.1) → (∃ y ∈ read, dieLimit y.1 < y.2 + 5) →
      Answers (.thermalReading l) s (set s.m.sys.thermAlert)))

/-- Alarms and rolls (R359 to R363, R366 to R368, R375, R378). Alarm classes set their bits and log; the strongest policy among them is
applied unless an action as strong runs. ZEROIZE, reported done, erases the secrets and fences. The fuses, each second, and the arcade's
running tag, every 1,280 cycles, raise their classes when they differ. A hub that is ready, and a region that has started its microcode,
run the image the roll loads; a unit late for its limit stops the roll, fails or is fenced in one that is undone, and a fenced region is
skipped. -/
def Obligations.AlarmsAndRolls : Prop :=
  (∀ (cl : BitVec 4) (s : State), UnitReady (.securityAlarm cl) s →
    let cs := (List.range 4).filter fun i => cl.getLsbD i
    let top := (cs.map fun i => s.m.hubN (s.m.sys.steward.getD 0) 0x6010 (i + 1)).foldl max 0
    let logged (pol : Nat) : Mach :=
      (((s.m.onSys fun x => { x with monClasses := x.monClasses ||| cl }).onSec fun x => { x with alarmstat := x.alarmstat ||| cl }).latch (okey 0x6010 5) cl.toNat).each cs
        fun m i => m.logSev 0x0601 (if pol = 0 then 2 else 4) 0 0 0 (packData [(8, i + 1), (8, pol)])
    (top < s.m.sec.applied → Answers (.securityAlarm cl) s (logged 0)) ∧
    (top = s.m.sec.applied → Answers (.securityAlarm cl) s (logged top)) ∧
    (s.m.sec.applied < top → top = 1 → Answers (.securityAlarm cl) s (logged 1).applyFence) ∧
    (s.m.sec.applied < top → top = 2 →
      Answers (.securityAlarm cl) s ((logged 2).onSec fun x => { x with zeroizing := true, applied := 2 }))) ∧
  (∀ (s : State), UnitReady .zeroized s → s.m.sec.zeroizing = true →
    Answers .zeroized s (((s.m.eraseSecrets.applyFence.raiseSec 3).log 0x0602 0 0 0 []).onSec fun x => { x with zeroizing := false })) ∧
  (∀ (ok : Bool) (s : State), UnitReady (.fuseRecheck ok) s → s.m.sys.fuseAt + ms 1000 ≤ s.m.cycle →
    let m := s.m.onSys fun x => { x with fuseAt := s.m.cycle }
    Answers (.fuseRecheck ok) s (if ok then m else m.alarm 8)) ∧
  (∀ (ok : Bool) (s : State), UnitReady (.d2dTagCheck ok) s → s.m.sys.tagAt + 1280 ≤ s.m.cycle →
    let m := s.m.onSys fun x => { x with tagAt := s.m.cycle }
    Answers (.d2dTagCheck ok) s (if ok then m else m.alarm 4)) ∧
  (∀ (k : Nat) (s : State), UnitReady (.hubReloadReady k) s → s.m.rollUnit = some (.hub k) →
    let m := s.m.onHub k fun x =>
      { x with reloadAt := none, watchdogHeld := false, watchdogAt := s.m.cycle, image := s.m.rollImage.1, slot := s.m.rollImage.2 }
    Answers (.hubReloadReady k) s
      ((m.when (hubs s.m.fam = 1) fun m => m.onSys fun x => { x with dictDownUntil := min x.dictDownUntil s.m.cycle }).rollAdvance (.hub k))) ∧
  (∀ (r : Nat) (i : ImgIn) (s : State), DataReady (.microcodeRollDone r) s → s.m.rollUnit = some (.region r) →
    (s.m.region r).rolling = true → s.m.rollImage.1 = some i →
    Answers (.microcodeRollDone r) s (s.m.onRegion r fun g => { g with rolledIn := true, ucode := i.ucodever, ucodeDigest := i.ucodeDigest })) ∧
  (∀ (s : State), UnitReady .rollTimeout s →
    (∀ k, s.m.rollUnit = some (.hub k) → s.m.sec.rollAt + ms 200 < s.m.cycle →
      (s.m.sec.roll = some .revert → Answers .rollTimeout s ((s.m.hubFail k).rollAdvance (.hub k))) ∧
      (s.m.sec.roll ≠ some .revert →
        Answers .rollTimeout s ((s.m.onSec fun x => { x with rolledHubs := x.rolledHubs ++ [k] }).rollRevert))) ∧
    (∀ r, s.m.rollUnit = some (.region r) → (s.m.region r).st ≠ .serving → Answers .rollTimeout s (s.m.rollAdvance (.region r))) ∧
    (∀ r, s.m.rollUnit = some (.region r) → (s.m.region r).st = .serving → s.m.sec.rollAt + ms 1 < s.m.cycle →
      (s.m.sec.roll = some .revert → Answers .rollTimeout s ((s.m.fence r 7).rollAdvance (.region r))) ∧
      (s.m.sec.roll ≠ some .revert →
        Answers .rollTimeout s ((s.m.onSec fun x => { x with rolledRegs := x.rolledRegs ++ [r] }).rollRevert))))

/-- The steward and the watchdogs (R375, R376, R378, R379, R381). A hub sees a lower live hub's claim; 2 ms after its own, with none lower
seen and the role free, it takes the role; the steward renews at least each ms, and every live hub's timer runs anew; a hub whose timer has
run out for 10 ms claims, and the role that was not renewed lapses. A watchdog serviced counts anew, one not serviced for 10 ms fails its
hub; a region controller that does not answer is fenced with cause 6; a region that has visited every run and map area leaves the sweep. -/
def Obligations.StewardAndWatchdogs : Prop :=
  (∀ (h src : Nat) (s : State), UnitReady (.stewardClaim h src) s → (s.m.hub h).live = true → (s.m.hub src).live = true →
    (s.m.hub src).claimAt ≠ none → src < h →
    Answers (.stewardClaim h src) s (s.m.onHub h fun x => { x with sawLower := true })) ∧
  (∀ (h t : Nat) (s : State), UnitReady (.stewardElectionWin h) s → (s.m.hub h).claimAt = some t → (s.m.hub h).live = true →
    t + ms 2 ≤ s.m.cycle → (∀ g < h, (s.m.hub g).live = true → (s.m.hub g).claimAt = none) → s.m.sys.steward = none →
    Answers (.stewardElectionWin h) s (s.m.takeRole h)) ∧
  (∀ (h : Nat) (s : State), UnitReady .stewardRenewal s → s.m.sys.steward = some h → (s.m.hub h).watchdogHeld = false →
    (s.m.hub h).renewedAt + ms 1 ≤ s.m.cycle →
    Answers .stewardRenewal s
      (s.m.each s.m.liveHubs fun m k => m.onHub k fun x => { x with renewedAt := m.cycle, claimAt := none, sawLower := false })) ∧
  (∀ (h : Nat) (s : State), UnitReady (.stewardLeaseExpire h) s → (s.m.hub h).live = true → (s.m.hub h).watchdogHeld = false →
    (s.m.hub h).claimAt = none → (s.m.hub h).renewedAt + ms 10 < s.m.cycle →
    (s.m.sys.steward ≠ none →
      Answers (.stewardLeaseExpire h) s ((s.m.onSys fun x => { x with steward := none, roleAt := s.m.cycle }).claim h)) ∧
    (s.m.sys.steward = none → Answers (.stewardLeaseExpire h) s (s.m.claim h))) ∧
  (∀ (h : Nat) (s : State), (s.m.hub h).live = true → (s.m.hub h).watchdogHeld = false →
    (UnitReady (.watchdogService h) s → Answers (.watchdogService h) s (s.m.onHub h fun x => { x with watchdogAt := s.m.cycle })) ∧
    (UnitReady (.watchdogExpire h) s → (s.m.hub h).watchdogAt + ms 10 < s.m.cycle → Answers (.watchdogExpire h) s (s.m.hubFail h))) ∧
  (∀ (r : Nat) (s : State), DataReady (.regionWatchdog r) s → (s.m.region r).st = .serving →
    Answers (.regionWatchdog r) s (s.m.fence r 6)) ∧
  (∀ (r q : Nat) (s : State), DataReady (.referenceSweepDone r q) s → r ∈ (s.m.region q).sweepLeft → (s.m.region r).st = .serving →
    Answers (.referenceSweepDone r q) s
      ((s.m.sweepRefs r q).onRegion q fun g => { g with sweepLeft := g.sweepLeft.filter (· ≠ r) }))
end

