-- ==== Sys2Proof/Laws/Tab.lean ====
section
/-! SUPPORT. Laws of sparse tables: a read after a write gives what was written, a write leaves every other key alone, and every
write keeps the canonical form. -/

namespace Sys2Proof.Machine

variable {α : Type}

/-! ## Reads after writes -/

@[simp] theorem tget_nil (d : α) (k : Nat) : tget [] d k = d := rfl

@[simp] theorem tfind_nil (k : Nat) : tfind ([] : Tab α) k = none := rfl

theorem tget_eq_tfind (t : Tab α) (d : α) (k : Nat) : tget t d k = (tfind t k).getD d := by
  induction t with
  | nil => rfl
  | cons e t ih => obtain ⟨j, v⟩ := e; simp only [tget, tfind]; split <;> simp [ih]

@[simp] theorem tfind_tins_same (t : Tab α) (k : Nat) (v : α) : tfind (tins t k v) k = some v := by
  induction t with
  | nil => simp [tins, tfind]
  | cons e t ih =>
    obtain ⟨j, w⟩ := e
    simp only [tins]
    split
    · simp [tfind]
    · split <;> simp_all [tfind]

theorem tfind_tins_other (t : Tab α) {k k' : Nat} (v : α) (h : k' ≠ k) : tfind (tins t k v) k' = tfind t k' := by
  induction t with
  | nil => simp [tins, tfind, h]
  | cons e t ih =>
    obtain ⟨j, w⟩ := e
    simp only [tins]
    split
    · simp [tfind, h]
    · split
      · rename_i h2; subst h2; simp [tfind, h]
      · simp [tfind, ih]

@[simp] theorem tfind_tdel_same (t : Tab α) (k : Nat) : tfind (tdel t k) k = none := by
  induction t with
  | nil => rfl
  | cons e t ih => obtain ⟨j, w⟩ := e; simp only [tdel]; split <;> simp_all [tfind]

theorem tfind_tdel_other (t : Tab α) {k k' : Nat} (h : k' ≠ k) : tfind (tdel t k) k' = tfind t k' := by
  induction t with
  | nil => rfl
  | cons e t ih =>
    obtain ⟨j, w⟩ := e
    simp only [tdel]
    split
    · rename_i h2; subst h2; simp [tfind, h, ih]
    · simp [tfind, ih]

@[simp] theorem tget_tput_same [DecidableEq α] (t : Tab α) (d : α) (k : Nat) (v : α) : tget (tput t d k v) d k = v := by
  rw [tget_eq_tfind, tput]
  split <;> simp_all

theorem tget_tput_other [DecidableEq α] (t : Tab α) (d : α) {k k' : Nat} (v : α) (h : k' ≠ k) :
    tget (tput t d k v) d k' = tget t d k' := by
  rw [tget_eq_tfind, tget_eq_tfind, tput]
  split
  · rw [tfind_tdel_other _ h]
  · rw [tfind_tins_other _ _ h]

/-! ## The canonical form -/

@[simp] theorem twf_nil [DecidableEq α] (d : α) : twf d ([] : Tab α) = true := rfl

theorem tabove_mono (t : Tab α) {a b : Nat} (h : a ≤ b) (hb : tabove t b = true) : tabove t a = true := by
  induction t with
  | nil => rfl
  | cons e t ih =>
    obtain ⟨j, w⟩ := e
    simp only [tabove, Bool.and_eq_true, decide_eq_true_eq] at hb ⊢
    exact ⟨by omega, ih hb.2⟩

theorem tabove_tins (t : Tab α) {a k : Nat} (v : α) (hk : a < k) (h : tabove t a = true) : tabove (tins t k v) a = true := by
  induction t with
  | nil => simp [tins, tabove, hk]
  | cons e t ih =>
    obtain ⟨j, w⟩ := e
    simp only [tabove, Bool.and_eq_true, decide_eq_true_eq] at h
    simp only [tins]
    split
    · simp [tabove, hk, h.1, h.2]
    · split
      · simp [tabove, hk, h.2]
      · simp [tabove, h.1, ih h.2]

theorem tabove_tdel (t : Tab α) {a : Nat} (k : Nat) (h : tabove t a = true) : tabove (tdel t k) a = true := by
  induction t with
  | nil => rfl
  | cons e t ih =>
    obtain ⟨j, w⟩ := e
    simp only [tabove, Bool.and_eq_true, decide_eq_true_eq] at h
    simp only [tdel]
    split
    · exact ih h.2
    · simp [tabove, h.1, ih h.2]

theorem twf_tins [DecidableEq α] (d : α) (t : Tab α) (k : Nat) (v : α) (hv : v ≠ d) (h : twf d t = true) : twf d (tins t k v) = true := by
  induction t with
  | nil => simp [tins, twf, tabove, hv]
  | cons e t ih =>
    obtain ⟨j, w⟩ := e
    simp only [twf, Bool.and_eq_true, decide_eq_true_eq] at h
    obtain ⟨⟨h1, h2⟩, h3⟩ := h
    simp only [tins]
    split
    · rename_i hkj
      simp [twf, tabove, hv, h2, h3, h1, hkj, tabove_mono t (Nat.le_of_lt hkj) h1]
    · split
      · rename_i _ hkj; subst hkj; simp [twf, hv, h1, h3]
      · rename_i h4 h5
        simp [twf, h2, ih h3, tabove_tins t v (by omega : j < k) h1]

theorem twf_tdel [DecidableEq α] (d : α) (t : Tab α) (k : Nat) (h : twf d t = true) : twf d (tdel t k) = true := by
  induction t with
  | nil => rfl
  | cons e t ih =>
    obtain ⟨j, w⟩ := e
    simp only [twf, Bool.and_eq_true, decide_eq_true_eq] at h
    obtain ⟨⟨h1, h2⟩, h3⟩ := h
    simp only [tdel]
    split
    · exact ih h3
    · simp [twf, h2, ih h3, tabove_tdel t k h1]

/-- Every write keeps the canonical form. -/
@[simp] theorem twf_tput [DecidableEq α] (d : α) (t : Tab α) (k : Nat) (v : α) (h : twf d t = true) : twf d (tput t d k v) = true := by
  rw [tput]
  split
  · exact twf_tdel d t k h
  · rename_i hv; exact twf_tins d t k v hv h

/-- Below every key of a table nothing is listed. -/
theorem tget_of_tabove (t : Tab α) (d : α) {a k : Nat} (h : tabove t a = true) (hk : k ≤ a) : tget t d k = d := by
  induction t with
  | nil => rfl
  | cons e t ih =>
    obtain ⟨j, w⟩ := e
    simp only [tabove, Bool.and_eq_true, decide_eq_true_eq] at h
    rw [tget, if_neg (by omega), ih h.2]

/-- Equal contents are equal tables: two canonical tables that read alike are the same data. -/
theorem twf_ext [DecidableEq α] (d : α) (t u : Tab α) (ht : twf d t = true) (hu : twf d u = true)
    (h : ∀ k, tget t d k = tget u d k) : t = u := by
  induction t generalizing u with
  | nil =>
    cases u with
    | nil => rfl
    | cons e u =>
      obtain ⟨j, w⟩ := e
      simp only [twf, Bool.and_eq_true, decide_eq_true_eq] at hu
      exact absurd (by simpa [tget] using (h j).symm) hu.1.2
  | cons e t ih =>
    obtain ⟨j, w⟩ := e
    simp only [twf, Bool.and_eq_true, decide_eq_true_eq] at ht
    cases u with
    | nil => exact absurd (by simpa [tget] using h j) ht.1.2
    | cons e' u =>
      obtain ⟨i, x⟩ := e'
      simp only [twf, Bool.and_eq_true, decide_eq_true_eq] at hu
      have hj := h j
      have hi := h i
      simp only [tget, if_true] at hj hi
      have hij : j = i := by
        by_cases hlt : j < i
        · rw [if_neg (by omega), tget_of_tabove u d hu.1.1 (by omega)] at hj; exact absurd hj ht.1.2
        · by_cases hgt : i < j
          · rw [if_neg (by omega), tget_of_tabove t d ht.1.1 (by omega)] at hi; exact absurd hi.symm hu.1.2
          · omega
      subst hij
      simp only [if_true] at hj
      subst hj
      congr 1
      refine ih u ht.2 hu.2 fun k => ?_
      by_cases hk : k ≤ j
      · rw [tget_of_tabove t d ht.1.1 hk, tget_of_tabove u d hu.1.1 hk]
      · have := h k; simpa only [tget, if_neg (by omega : ¬ k = j)] using this

end Sys2Proof.Machine
end

