-- ==== Sys2Proof/Laws/State.lean ====
section
/-! SUPPORT. What each named update of the machine leaves in each of its components, and what a table entry reads as after a write:
no later proof unfolds a record update. -/

namespace Sys2Proof.Machine

/-! ## Sys -/

@[simp] theorem onSys_fam (m : Mach) (f : Sys → Sys) : (m.onSys f).fam = m.fam := rfl
@[simp] theorem onSys_cycle (m : Mach) (f : Sys → Sys) : (m.onSys f).cycle = m.cycle := rfl
@[simp] theorem onSys_fresh (m : Mach) (f : Sys → Sys) : (m.onSys f).fresh = m.fresh := rfl
@[simp] theorem onSys_nextId (m : Mach) (f : Sys → Sys) : (m.onSys f).nextId = m.nextId := rfl
@[simp] theorem onSys_out (m : Mach) (f : Sys → Sys) : (m.onSys f).out = m.out := rfl
@[simp] theorem onSys_sys (m : Mach) (f : Sys → Sys) : (m.onSys f).sys = f m.sys := rfl
@[simp] theorem onSys_link (m : Mach) (f : Sys → Sys) : (m.onSys f).link = m.link := rfl
@[simp] theorem onSys_mem (m : Mach) (f : Sys → Sys) : (m.onSys f).mem = m.mem := rfl
@[simp] theorem onSys_store (m : Mach) (f : Sys → Sys) : (m.onSys f).store = m.store := rfl
@[simp] theorem onSys_ext (m : Mach) (f : Sys → Sys) : (m.onSys f).ext = m.ext := rfl
@[simp] theorem onSys_sess (m : Mach) (f : Sys → Sys) : (m.onSys f).sess = m.sess := rfl
@[simp] theorem onSys_svc (m : Mach) (f : Sys → Sys) : (m.onSys f).svc = m.svc := rfl
@[simp] theorem onSys_dict (m : Mach) (f : Sys → Sys) : (m.onSys f).dict = m.dict := rfl
@[simp] theorem onSys_ev (m : Mach) (f : Sys → Sys) : (m.onSys f).ev = m.ev := rfl
@[simp] theorem onSys_sec (m : Mach) (f : Sys → Sys) : (m.onSys f).sec = m.sec := rfl
@[simp] theorem onSys_arc (m : Mach) (f : Sys → Sys) : (m.onSys f).arc = m.arc := rfl
@[simp] theorem onSys_dram (m : Mach) (f : Sys → Sys) : (m.onSys f).dram = m.dram := rfl
@[simp] theorem onSys_code (m : Mach) (f : Sys → Sys) : (m.onSys f).code = m.code := rfl
@[simp] theorem onSys_cnt (m : Mach) (f : Sys → Sys) : (m.onSys f).cnt = m.cnt := rfl
@[simp] theorem onSys_fp (m : Mach) (f : Sys → Sys) : (m.onSys f).fp = m.fp := rfl
@[simp] theorem onSys_now (m : Mach) (f : Sys → Sys) : (m.onSys f).now = m.now := rfl

/-! ## Link -/

@[simp] theorem onLink_fam (m : Mach) (f : Link → Link) : (m.onLink f).fam = m.fam := rfl
@[simp] theorem onLink_cycle (m : Mach) (f : Link → Link) : (m.onLink f).cycle = m.cycle := rfl
@[simp] theorem onLink_fresh (m : Mach) (f : Link → Link) : (m.onLink f).fresh = m.fresh := rfl
@[simp] theorem onLink_nextId (m : Mach) (f : Link → Link) : (m.onLink f).nextId = m.nextId := rfl
@[simp] theorem onLink_out (m : Mach) (f : Link → Link) : (m.onLink f).out = m.out := rfl
@[simp] theorem onLink_sys (m : Mach) (f : Link → Link) : (m.onLink f).sys = m.sys := rfl
@[simp] theorem onLink_link (m : Mach) (f : Link → Link) : (m.onLink f).link = f m.link := rfl
@[simp] theorem onLink_mem (m : Mach) (f : Link → Link) : (m.onLink f).mem = m.mem := rfl
@[simp] theorem onLink_store (m : Mach) (f : Link → Link) : (m.onLink f).store = m.store := rfl
@[simp] theorem onLink_ext (m : Mach) (f : Link → Link) : (m.onLink f).ext = m.ext := rfl
@[simp] theorem onLink_sess (m : Mach) (f : Link → Link) : (m.onLink f).sess = m.sess := rfl
@[simp] theorem onLink_svc (m : Mach) (f : Link → Link) : (m.onLink f).svc = m.svc := rfl
@[simp] theorem onLink_dict (m : Mach) (f : Link → Link) : (m.onLink f).dict = m.dict := rfl
@[simp] theorem onLink_ev (m : Mach) (f : Link → Link) : (m.onLink f).ev = m.ev := rfl
@[simp] theorem onLink_sec (m : Mach) (f : Link → Link) : (m.onLink f).sec = m.sec := rfl
@[simp] theorem onLink_arc (m : Mach) (f : Link → Link) : (m.onLink f).arc = m.arc := rfl
@[simp] theorem onLink_dram (m : Mach) (f : Link → Link) : (m.onLink f).dram = m.dram := rfl
@[simp] theorem onLink_code (m : Mach) (f : Link → Link) : (m.onLink f).code = m.code := rfl
@[simp] theorem onLink_cnt (m : Mach) (f : Link → Link) : (m.onLink f).cnt = m.cnt := rfl
@[simp] theorem onLink_fp (m : Mach) (f : Link → Link) : (m.onLink f).fp = m.fp := rfl
@[simp] theorem onLink_now (m : Mach) (f : Link → Link) : (m.onLink f).now = m.now := rfl

/-! ## Mem -/

@[simp] theorem onMem_fam (m : Mach) (f : Mem → Mem) : (m.onMem f).fam = m.fam := rfl
@[simp] theorem onMem_cycle (m : Mach) (f : Mem → Mem) : (m.onMem f).cycle = m.cycle := rfl
@[simp] theorem onMem_fresh (m : Mach) (f : Mem → Mem) : (m.onMem f).fresh = m.fresh := rfl
@[simp] theorem onMem_nextId (m : Mach) (f : Mem → Mem) : (m.onMem f).nextId = m.nextId := rfl
@[simp] theorem onMem_out (m : Mach) (f : Mem → Mem) : (m.onMem f).out = m.out := rfl
@[simp] theorem onMem_sys (m : Mach) (f : Mem → Mem) : (m.onMem f).sys = m.sys := rfl
@[simp] theorem onMem_link (m : Mach) (f : Mem → Mem) : (m.onMem f).link = m.link := rfl
@[simp] theorem onMem_mem (m : Mach) (f : Mem → Mem) : (m.onMem f).mem = f m.mem := rfl
@[simp] theorem onMem_store (m : Mach) (f : Mem → Mem) : (m.onMem f).store = m.store := rfl
@[simp] theorem onMem_ext (m : Mach) (f : Mem → Mem) : (m.onMem f).ext = m.ext := rfl
@[simp] theorem onMem_sess (m : Mach) (f : Mem → Mem) : (m.onMem f).sess = m.sess := rfl
@[simp] theorem onMem_svc (m : Mach) (f : Mem → Mem) : (m.onMem f).svc = m.svc := rfl
@[simp] theorem onMem_dict (m : Mach) (f : Mem → Mem) : (m.onMem f).dict = m.dict := rfl
@[simp] theorem onMem_ev (m : Mach) (f : Mem → Mem) : (m.onMem f).ev = m.ev := rfl
@[simp] theorem onMem_sec (m : Mach) (f : Mem → Mem) : (m.onMem f).sec = m.sec := rfl
@[simp] theorem onMem_arc (m : Mach) (f : Mem → Mem) : (m.onMem f).arc = m.arc := rfl
@[simp] theorem onMem_dram (m : Mach) (f : Mem → Mem) : (m.onMem f).dram = m.dram := rfl
@[simp] theorem onMem_code (m : Mach) (f : Mem → Mem) : (m.onMem f).code = m.code := rfl
@[simp] theorem onMem_cnt (m : Mach) (f : Mem → Mem) : (m.onMem f).cnt = m.cnt := rfl
@[simp] theorem onMem_fp (m : Mach) (f : Mem → Mem) : (m.onMem f).fp = m.fp := rfl
@[simp] theorem onMem_now (m : Mach) (f : Mem → Mem) : (m.onMem f).now = m.now := rfl

/-! ## Store -/

@[simp] theorem onStore_fam (m : Mach) (f : Store → Store) : (m.onStore f).fam = m.fam := rfl
@[simp] theorem onStore_cycle (m : Mach) (f : Store → Store) : (m.onStore f).cycle = m.cycle := rfl
@[simp] theorem onStore_fresh (m : Mach) (f : Store → Store) : (m.onStore f).fresh = m.fresh := rfl
@[simp] theorem onStore_nextId (m : Mach) (f : Store → Store) : (m.onStore f).nextId = m.nextId := rfl
@[simp] theorem onStore_out (m : Mach) (f : Store → Store) : (m.onStore f).out = m.out := rfl
@[simp] theorem onStore_sys (m : Mach) (f : Store → Store) : (m.onStore f).sys = m.sys := rfl
@[simp] theorem onStore_link (m : Mach) (f : Store → Store) : (m.onStore f).link = m.link := rfl
@[simp] theorem onStore_mem (m : Mach) (f : Store → Store) : (m.onStore f).mem = m.mem := rfl
@[simp] theorem onStore_store (m : Mach) (f : Store → Store) : (m.onStore f).store = f m.store := rfl
@[simp] theorem onStore_ext (m : Mach) (f : Store → Store) : (m.onStore f).ext = m.ext := rfl
@[simp] theorem onStore_sess (m : Mach) (f : Store → Store) : (m.onStore f).sess = m.sess := rfl
@[simp] theorem onStore_svc (m : Mach) (f : Store → Store) : (m.onStore f).svc = m.svc := rfl
@[simp] theorem onStore_dict (m : Mach) (f : Store → Store) : (m.onStore f).dict = m.dict := rfl
@[simp] theorem onStore_ev (m : Mach) (f : Store → Store) : (m.onStore f).ev = m.ev := rfl
@[simp] theorem onStore_sec (m : Mach) (f : Store → Store) : (m.onStore f).sec = m.sec := rfl
@[simp] theorem onStore_arc (m : Mach) (f : Store → Store) : (m.onStore f).arc = m.arc := rfl
@[simp] theorem onStore_dram (m : Mach) (f : Store → Store) : (m.onStore f).dram = m.dram := rfl
@[simp] theorem onStore_code (m : Mach) (f : Store → Store) : (m.onStore f).code = m.code := rfl
@[simp] theorem onStore_cnt (m : Mach) (f : Store → Store) : (m.onStore f).cnt = m.cnt := rfl
@[simp] theorem onStore_fp (m : Mach) (f : Store → Store) : (m.onStore f).fp = m.fp := rfl
@[simp] theorem onStore_now (m : Mach) (f : Store → Store) : (m.onStore f).now = m.now := rfl

/-! ## Ext -/

@[simp] theorem onExt_fam (m : Mach) (f : Ext → Ext) : (m.onExt f).fam = m.fam := rfl
@[simp] theorem onExt_cycle (m : Mach) (f : Ext → Ext) : (m.onExt f).cycle = m.cycle := rfl
@[simp] theorem onExt_fresh (m : Mach) (f : Ext → Ext) : (m.onExt f).fresh = m.fresh := rfl
@[simp] theorem onExt_nextId (m : Mach) (f : Ext → Ext) : (m.onExt f).nextId = m.nextId := rfl
@[simp] theorem onExt_out (m : Mach) (f : Ext → Ext) : (m.onExt f).out = m.out := rfl
@[simp] theorem onExt_sys (m : Mach) (f : Ext → Ext) : (m.onExt f).sys = m.sys := rfl
@[simp] theorem onExt_link (m : Mach) (f : Ext → Ext) : (m.onExt f).link = m.link := rfl
@[simp] theorem onExt_mem (m : Mach) (f : Ext → Ext) : (m.onExt f).mem = m.mem := rfl
@[simp] theorem onExt_store (m : Mach) (f : Ext → Ext) : (m.onExt f).store = m.store := rfl
@[simp] theorem onExt_ext (m : Mach) (f : Ext → Ext) : (m.onExt f).ext = f m.ext := rfl
@[simp] theorem onExt_sess (m : Mach) (f : Ext → Ext) : (m.onExt f).sess = m.sess := rfl
@[simp] theorem onExt_svc (m : Mach) (f : Ext → Ext) : (m.onExt f).svc = m.svc := rfl
@[simp] theorem onExt_dict (m : Mach) (f : Ext → Ext) : (m.onExt f).dict = m.dict := rfl
@[simp] theorem onExt_ev (m : Mach) (f : Ext → Ext) : (m.onExt f).ev = m.ev := rfl
@[simp] theorem onExt_sec (m : Mach) (f : Ext → Ext) : (m.onExt f).sec = m.sec := rfl
@[simp] theorem onExt_arc (m : Mach) (f : Ext → Ext) : (m.onExt f).arc = m.arc := rfl
@[simp] theorem onExt_dram (m : Mach) (f : Ext → Ext) : (m.onExt f).dram = m.dram := rfl
@[simp] theorem onExt_code (m : Mach) (f : Ext → Ext) : (m.onExt f).code = m.code := rfl
@[simp] theorem onExt_cnt (m : Mach) (f : Ext → Ext) : (m.onExt f).cnt = m.cnt := rfl
@[simp] theorem onExt_fp (m : Mach) (f : Ext → Ext) : (m.onExt f).fp = m.fp := rfl
@[simp] theorem onExt_now (m : Mach) (f : Ext → Ext) : (m.onExt f).now = m.now := rfl

/-! ## Sess -/

@[simp] theorem onSess_fam (m : Mach) (f : Sess → Sess) : (m.onSess f).fam = m.fam := rfl
@[simp] theorem onSess_cycle (m : Mach) (f : Sess → Sess) : (m.onSess f).cycle = m.cycle := rfl
@[simp] theorem onSess_fresh (m : Mach) (f : Sess → Sess) : (m.onSess f).fresh = m.fresh := rfl
@[simp] theorem onSess_nextId (m : Mach) (f : Sess → Sess) : (m.onSess f).nextId = m.nextId := rfl
@[simp] theorem onSess_out (m : Mach) (f : Sess → Sess) : (m.onSess f).out = m.out := rfl
@[simp] theorem onSess_sys (m : Mach) (f : Sess → Sess) : (m.onSess f).sys = m.sys := rfl
@[simp] theorem onSess_link (m : Mach) (f : Sess → Sess) : (m.onSess f).link = m.link := rfl
@[simp] theorem onSess_mem (m : Mach) (f : Sess → Sess) : (m.onSess f).mem = m.mem := rfl
@[simp] theorem onSess_store (m : Mach) (f : Sess → Sess) : (m.onSess f).store = m.store := rfl
@[simp] theorem onSess_ext (m : Mach) (f : Sess → Sess) : (m.onSess f).ext = m.ext := rfl
@[simp] theorem onSess_sess (m : Mach) (f : Sess → Sess) : (m.onSess f).sess = f m.sess := rfl
@[simp] theorem onSess_svc (m : Mach) (f : Sess → Sess) : (m.onSess f).svc = m.svc := rfl
@[simp] theorem onSess_dict (m : Mach) (f : Sess → Sess) : (m.onSess f).dict = m.dict := rfl
@[simp] theorem onSess_ev (m : Mach) (f : Sess → Sess) : (m.onSess f).ev = m.ev := rfl
@[simp] theorem onSess_sec (m : Mach) (f : Sess → Sess) : (m.onSess f).sec = m.sec := rfl
@[simp] theorem onSess_arc (m : Mach) (f : Sess → Sess) : (m.onSess f).arc = m.arc := rfl
@[simp] theorem onSess_dram (m : Mach) (f : Sess → Sess) : (m.onSess f).dram = m.dram := rfl
@[simp] theorem onSess_code (m : Mach) (f : Sess → Sess) : (m.onSess f).code = m.code := rfl
@[simp] theorem onSess_cnt (m : Mach) (f : Sess → Sess) : (m.onSess f).cnt = m.cnt := rfl
@[simp] theorem onSess_fp (m : Mach) (f : Sess → Sess) : (m.onSess f).fp = m.fp := rfl
@[simp] theorem onSess_now (m : Mach) (f : Sess → Sess) : (m.onSess f).now = m.now := rfl

/-! ## Svc -/

@[simp] theorem onSvc_fam (m : Mach) (f : Svc → Svc) : (m.onSvc f).fam = m.fam := rfl
@[simp] theorem onSvc_cycle (m : Mach) (f : Svc → Svc) : (m.onSvc f).cycle = m.cycle := rfl
@[simp] theorem onSvc_fresh (m : Mach) (f : Svc → Svc) : (m.onSvc f).fresh = m.fresh := rfl
@[simp] theorem onSvc_nextId (m : Mach) (f : Svc → Svc) : (m.onSvc f).nextId = m.nextId := rfl
@[simp] theorem onSvc_out (m : Mach) (f : Svc → Svc) : (m.onSvc f).out = m.out := rfl
@[simp] theorem onSvc_sys (m : Mach) (f : Svc → Svc) : (m.onSvc f).sys = m.sys := rfl
@[simp] theorem onSvc_link (m : Mach) (f : Svc → Svc) : (m.onSvc f).link = m.link := rfl
@[simp] theorem onSvc_mem (m : Mach) (f : Svc → Svc) : (m.onSvc f).mem = m.mem := rfl
@[simp] theorem onSvc_store (m : Mach) (f : Svc → Svc) : (m.onSvc f).store = m.store := rfl
@[simp] theorem onSvc_ext (m : Mach) (f : Svc → Svc) : (m.onSvc f).ext = m.ext := rfl
@[simp] theorem onSvc_sess (m : Mach) (f : Svc → Svc) : (m.onSvc f).sess = m.sess := rfl
@[simp] theorem onSvc_svc (m : Mach) (f : Svc → Svc) : (m.onSvc f).svc = f m.svc := rfl
@[simp] theorem onSvc_dict (m : Mach) (f : Svc → Svc) : (m.onSvc f).dict = m.dict := rfl
@[simp] theorem onSvc_ev (m : Mach) (f : Svc → Svc) : (m.onSvc f).ev = m.ev := rfl
@[simp] theorem onSvc_sec (m : Mach) (f : Svc → Svc) : (m.onSvc f).sec = m.sec := rfl
@[simp] theorem onSvc_arc (m : Mach) (f : Svc → Svc) : (m.onSvc f).arc = m.arc := rfl
@[simp] theorem onSvc_dram (m : Mach) (f : Svc → Svc) : (m.onSvc f).dram = m.dram := rfl
@[simp] theorem onSvc_code (m : Mach) (f : Svc → Svc) : (m.onSvc f).code = m.code := rfl
@[simp] theorem onSvc_cnt (m : Mach) (f : Svc → Svc) : (m.onSvc f).cnt = m.cnt := rfl
@[simp] theorem onSvc_fp (m : Mach) (f : Svc → Svc) : (m.onSvc f).fp = m.fp := rfl
@[simp] theorem onSvc_now (m : Mach) (f : Svc → Svc) : (m.onSvc f).now = m.now := rfl

/-! ## Dict -/

@[simp] theorem onDict_fam (m : Mach) (f : Dict → Dict) : (m.onDict f).fam = m.fam := rfl
@[simp] theorem onDict_cycle (m : Mach) (f : Dict → Dict) : (m.onDict f).cycle = m.cycle := rfl
@[simp] theorem onDict_fresh (m : Mach) (f : Dict → Dict) : (m.onDict f).fresh = m.fresh := rfl
@[simp] theorem onDict_nextId (m : Mach) (f : Dict → Dict) : (m.onDict f).nextId = m.nextId := rfl
@[simp] theorem onDict_out (m : Mach) (f : Dict → Dict) : (m.onDict f).out = m.out := rfl
@[simp] theorem onDict_sys (m : Mach) (f : Dict → Dict) : (m.onDict f).sys = m.sys := rfl
@[simp] theorem onDict_link (m : Mach) (f : Dict → Dict) : (m.onDict f).link = m.link := rfl
@[simp] theorem onDict_mem (m : Mach) (f : Dict → Dict) : (m.onDict f).mem = m.mem := rfl
@[simp] theorem onDict_store (m : Mach) (f : Dict → Dict) : (m.onDict f).store = m.store := rfl
@[simp] theorem onDict_ext (m : Mach) (f : Dict → Dict) : (m.onDict f).ext = m.ext := rfl
@[simp] theorem onDict_sess (m : Mach) (f : Dict → Dict) : (m.onDict f).sess = m.sess := rfl
@[simp] theorem onDict_svc (m : Mach) (f : Dict → Dict) : (m.onDict f).svc = m.svc := rfl
@[simp] theorem onDict_dict (m : Mach) (f : Dict → Dict) : (m.onDict f).dict = f m.dict := rfl
@[simp] theorem onDict_ev (m : Mach) (f : Dict → Dict) : (m.onDict f).ev = m.ev := rfl
@[simp] theorem onDict_sec (m : Mach) (f : Dict → Dict) : (m.onDict f).sec = m.sec := rfl
@[simp] theorem onDict_arc (m : Mach) (f : Dict → Dict) : (m.onDict f).arc = m.arc := rfl
@[simp] theorem onDict_dram (m : Mach) (f : Dict → Dict) : (m.onDict f).dram = m.dram := rfl
@[simp] theorem onDict_code (m : Mach) (f : Dict → Dict) : (m.onDict f).code = m.code := rfl
@[simp] theorem onDict_cnt (m : Mach) (f : Dict → Dict) : (m.onDict f).cnt = m.cnt := rfl
@[simp] theorem onDict_fp (m : Mach) (f : Dict → Dict) : (m.onDict f).fp = m.fp := rfl
@[simp] theorem onDict_now (m : Mach) (f : Dict → Dict) : (m.onDict f).now = m.now := rfl

/-! ## Ev -/

@[simp] theorem onEv_fam (m : Mach) (f : Ev → Ev) : (m.onEv f).fam = m.fam := rfl
@[simp] theorem onEv_cycle (m : Mach) (f : Ev → Ev) : (m.onEv f).cycle = m.cycle := rfl
@[simp] theorem onEv_fresh (m : Mach) (f : Ev → Ev) : (m.onEv f).fresh = m.fresh := rfl
@[simp] theorem onEv_nextId (m : Mach) (f : Ev → Ev) : (m.onEv f).nextId = m.nextId := rfl
@[simp] theorem onEv_out (m : Mach) (f : Ev → Ev) : (m.onEv f).out = m.out := rfl
@[simp] theorem onEv_sys (m : Mach) (f : Ev → Ev) : (m.onEv f).sys = m.sys := rfl
@[simp] theorem onEv_link (m : Mach) (f : Ev → Ev) : (m.onEv f).link = m.link := rfl
@[simp] theorem onEv_mem (m : Mach) (f : Ev → Ev) : (m.onEv f).mem = m.mem := rfl
@[simp] theorem onEv_store (m : Mach) (f : Ev → Ev) : (m.onEv f).store = m.store := rfl
@[simp] theorem onEv_ext (m : Mach) (f : Ev → Ev) : (m.onEv f).ext = m.ext := rfl
@[simp] theorem onEv_sess (m : Mach) (f : Ev → Ev) : (m.onEv f).sess = m.sess := rfl
@[simp] theorem onEv_svc (m : Mach) (f : Ev → Ev) : (m.onEv f).svc = m.svc := rfl
@[simp] theorem onEv_dict (m : Mach) (f : Ev → Ev) : (m.onEv f).dict = m.dict := rfl
@[simp] theorem onEv_ev (m : Mach) (f : Ev → Ev) : (m.onEv f).ev = f m.ev := rfl
@[simp] theorem onEv_sec (m : Mach) (f : Ev → Ev) : (m.onEv f).sec = m.sec := rfl
@[simp] theorem onEv_arc (m : Mach) (f : Ev → Ev) : (m.onEv f).arc = m.arc := rfl
@[simp] theorem onEv_dram (m : Mach) (f : Ev → Ev) : (m.onEv f).dram = m.dram := rfl
@[simp] theorem onEv_code (m : Mach) (f : Ev → Ev) : (m.onEv f).code = m.code := rfl
@[simp] theorem onEv_cnt (m : Mach) (f : Ev → Ev) : (m.onEv f).cnt = m.cnt := rfl
@[simp] theorem onEv_fp (m : Mach) (f : Ev → Ev) : (m.onEv f).fp = m.fp := rfl
@[simp] theorem onEv_now (m : Mach) (f : Ev → Ev) : (m.onEv f).now = m.now := rfl

/-! ## Sec -/

@[simp] theorem onSec_fam (m : Mach) (f : Sec → Sec) : (m.onSec f).fam = m.fam := rfl
@[simp] theorem onSec_cycle (m : Mach) (f : Sec → Sec) : (m.onSec f).cycle = m.cycle := rfl
@[simp] theorem onSec_fresh (m : Mach) (f : Sec → Sec) : (m.onSec f).fresh = m.fresh := rfl
@[simp] theorem onSec_nextId (m : Mach) (f : Sec → Sec) : (m.onSec f).nextId = m.nextId := rfl
@[simp] theorem onSec_out (m : Mach) (f : Sec → Sec) : (m.onSec f).out = m.out := rfl
@[simp] theorem onSec_sys (m : Mach) (f : Sec → Sec) : (m.onSec f).sys = m.sys := rfl
@[simp] theorem onSec_link (m : Mach) (f : Sec → Sec) : (m.onSec f).link = m.link := rfl
@[simp] theorem onSec_mem (m : Mach) (f : Sec → Sec) : (m.onSec f).mem = m.mem := rfl
@[simp] theorem onSec_store (m : Mach) (f : Sec → Sec) : (m.onSec f).store = m.store := rfl
@[simp] theorem onSec_ext (m : Mach) (f : Sec → Sec) : (m.onSec f).ext = m.ext := rfl
@[simp] theorem onSec_sess (m : Mach) (f : Sec → Sec) : (m.onSec f).sess = m.sess := rfl
@[simp] theorem onSec_svc (m : Mach) (f : Sec → Sec) : (m.onSec f).svc = m.svc := rfl
@[simp] theorem onSec_dict (m : Mach) (f : Sec → Sec) : (m.onSec f).dict = m.dict := rfl
@[simp] theorem onSec_ev (m : Mach) (f : Sec → Sec) : (m.onSec f).ev = m.ev := rfl
@[simp] theorem onSec_sec (m : Mach) (f : Sec → Sec) : (m.onSec f).sec = f m.sec := rfl
@[simp] theorem onSec_arc (m : Mach) (f : Sec → Sec) : (m.onSec f).arc = m.arc := rfl
@[simp] theorem onSec_dram (m : Mach) (f : Sec → Sec) : (m.onSec f).dram = m.dram := rfl
@[simp] theorem onSec_code (m : Mach) (f : Sec → Sec) : (m.onSec f).code = m.code := rfl
@[simp] theorem onSec_cnt (m : Mach) (f : Sec → Sec) : (m.onSec f).cnt = m.cnt := rfl
@[simp] theorem onSec_fp (m : Mach) (f : Sec → Sec) : (m.onSec f).fp = m.fp := rfl
@[simp] theorem onSec_now (m : Mach) (f : Sec → Sec) : (m.onSec f).now = m.now := rfl

/-! ## Arc -/

@[simp] theorem onArc_fam (m : Mach) (f : Arc → Arc) : (m.onArc f).fam = m.fam := rfl
@[simp] theorem onArc_cycle (m : Mach) (f : Arc → Arc) : (m.onArc f).cycle = m.cycle := rfl
@[simp] theorem onArc_fresh (m : Mach) (f : Arc → Arc) : (m.onArc f).fresh = m.fresh := rfl
@[simp] theorem onArc_nextId (m : Mach) (f : Arc → Arc) : (m.onArc f).nextId = m.nextId := rfl
@[simp] theorem onArc_out (m : Mach) (f : Arc → Arc) : (m.onArc f).out = m.out := rfl
@[simp] theorem onArc_sys (m : Mach) (f : Arc → Arc) : (m.onArc f).sys = m.sys := rfl
@[simp] theorem onArc_link (m : Mach) (f : Arc → Arc) : (m.onArc f).link = m.link := rfl
@[simp] theorem onArc_mem (m : Mach) (f : Arc → Arc) : (m.onArc f).mem = m.mem := rfl
@[simp] theorem onArc_store (m : Mach) (f : Arc → Arc) : (m.onArc f).store = m.store := rfl
@[simp] theorem onArc_ext (m : Mach) (f : Arc → Arc) : (m.onArc f).ext = m.ext := rfl
@[simp] theorem onArc_sess (m : Mach) (f : Arc → Arc) : (m.onArc f).sess = m.sess := rfl
@[simp] theorem onArc_svc (m : Mach) (f : Arc → Arc) : (m.onArc f).svc = m.svc := rfl
@[simp] theorem onArc_dict (m : Mach) (f : Arc → Arc) : (m.onArc f).dict = m.dict := rfl
@[simp] theorem onArc_ev (m : Mach) (f : Arc → Arc) : (m.onArc f).ev = m.ev := rfl
@[simp] theorem onArc_sec (m : Mach) (f : Arc → Arc) : (m.onArc f).sec = m.sec := rfl
@[simp] theorem onArc_arc (m : Mach) (f : Arc → Arc) : (m.onArc f).arc = f m.arc := rfl
@[simp] theorem onArc_dram (m : Mach) (f : Arc → Arc) : (m.onArc f).dram = m.dram := rfl
@[simp] theorem onArc_code (m : Mach) (f : Arc → Arc) : (m.onArc f).code = m.code := rfl
@[simp] theorem onArc_cnt (m : Mach) (f : Arc → Arc) : (m.onArc f).cnt = m.cnt := rfl
@[simp] theorem onArc_fp (m : Mach) (f : Arc → Arc) : (m.onArc f).fp = m.fp := rfl
@[simp] theorem onArc_now (m : Mach) (f : Arc → Arc) : (m.onArc f).now = m.now := rfl

/-! ## Dram -/

@[simp] theorem onDram_fam (m : Mach) (f : Dram → Dram) : (m.onDram f).fam = m.fam := rfl
@[simp] theorem onDram_cycle (m : Mach) (f : Dram → Dram) : (m.onDram f).cycle = m.cycle := rfl
@[simp] theorem onDram_fresh (m : Mach) (f : Dram → Dram) : (m.onDram f).fresh = m.fresh := rfl
@[simp] theorem onDram_nextId (m : Mach) (f : Dram → Dram) : (m.onDram f).nextId = m.nextId := rfl
@[simp] theorem onDram_out (m : Mach) (f : Dram → Dram) : (m.onDram f).out = m.out := rfl
@[simp] theorem onDram_sys (m : Mach) (f : Dram → Dram) : (m.onDram f).sys = m.sys := rfl
@[simp] theorem onDram_link (m : Mach) (f : Dram → Dram) : (m.onDram f).link = m.link := rfl
@[simp] theorem onDram_mem (m : Mach) (f : Dram → Dram) : (m.onDram f).mem = m.mem := rfl
@[simp] theorem onDram_store (m : Mach) (f : Dram → Dram) : (m.onDram f).store = m.store := rfl
@[simp] theorem onDram_ext (m : Mach) (f : Dram → Dram) : (m.onDram f).ext = m.ext := rfl
@[simp] theorem onDram_sess (m : Mach) (f : Dram → Dram) : (m.onDram f).sess = m.sess := rfl
@[simp] theorem onDram_svc (m : Mach) (f : Dram → Dram) : (m.onDram f).svc = m.svc := rfl
@[simp] theorem onDram_dict (m : Mach) (f : Dram → Dram) : (m.onDram f).dict = m.dict := rfl
@[simp] theorem onDram_ev (m : Mach) (f : Dram → Dram) : (m.onDram f).ev = m.ev := rfl
@[simp] theorem onDram_sec (m : Mach) (f : Dram → Dram) : (m.onDram f).sec = m.sec := rfl
@[simp] theorem onDram_arc (m : Mach) (f : Dram → Dram) : (m.onDram f).arc = m.arc := rfl
@[simp] theorem onDram_dram (m : Mach) (f : Dram → Dram) : (m.onDram f).dram = f m.dram := rfl
@[simp] theorem onDram_code (m : Mach) (f : Dram → Dram) : (m.onDram f).code = m.code := rfl
@[simp] theorem onDram_cnt (m : Mach) (f : Dram → Dram) : (m.onDram f).cnt = m.cnt := rfl
@[simp] theorem onDram_fp (m : Mach) (f : Dram → Dram) : (m.onDram f).fp = m.fp := rfl
@[simp] theorem onDram_now (m : Mach) (f : Dram → Dram) : (m.onDram f).now = m.now := rfl

/-! ## Code -/

@[simp] theorem onCode_fam (m : Mach) (f : Code → Code) : (m.onCode f).fam = m.fam := rfl
@[simp] theorem onCode_cycle (m : Mach) (f : Code → Code) : (m.onCode f).cycle = m.cycle := rfl
@[simp] theorem onCode_fresh (m : Mach) (f : Code → Code) : (m.onCode f).fresh = m.fresh := rfl
@[simp] theorem onCode_nextId (m : Mach) (f : Code → Code) : (m.onCode f).nextId = m.nextId := rfl
@[simp] theorem onCode_out (m : Mach) (f : Code → Code) : (m.onCode f).out = m.out := rfl
@[simp] theorem onCode_sys (m : Mach) (f : Code → Code) : (m.onCode f).sys = m.sys := rfl
@[simp] theorem onCode_link (m : Mach) (f : Code → Code) : (m.onCode f).link = m.link := rfl
@[simp] theorem onCode_mem (m : Mach) (f : Code → Code) : (m.onCode f).mem = m.mem := rfl
@[simp] theorem onCode_store (m : Mach) (f : Code → Code) : (m.onCode f).store = m.store := rfl
@[simp] theorem onCode_ext (m : Mach) (f : Code → Code) : (m.onCode f).ext = m.ext := rfl
@[simp] theorem onCode_sess (m : Mach) (f : Code → Code) : (m.onCode f).sess = m.sess := rfl
@[simp] theorem onCode_svc (m : Mach) (f : Code → Code) : (m.onCode f).svc = m.svc := rfl
@[simp] theorem onCode_dict (m : Mach) (f : Code → Code) : (m.onCode f).dict = m.dict := rfl
@[simp] theorem onCode_ev (m : Mach) (f : Code → Code) : (m.onCode f).ev = m.ev := rfl
@[simp] theorem onCode_sec (m : Mach) (f : Code → Code) : (m.onCode f).sec = m.sec := rfl
@[simp] theorem onCode_arc (m : Mach) (f : Code → Code) : (m.onCode f).arc = m.arc := rfl
@[simp] theorem onCode_dram (m : Mach) (f : Code → Code) : (m.onCode f).dram = m.dram := rfl
@[simp] theorem onCode_code (m : Mach) (f : Code → Code) : (m.onCode f).code = f m.code := rfl
@[simp] theorem onCode_cnt (m : Mach) (f : Code → Code) : (m.onCode f).cnt = m.cnt := rfl
@[simp] theorem onCode_fp (m : Mach) (f : Code → Code) : (m.onCode f).fp = m.fp := rfl
@[simp] theorem onCode_now (m : Mach) (f : Code → Code) : (m.onCode f).now = m.now := rfl

/-! ## Fp -/

@[simp] theorem onFp_fam (m : Mach) (f : Fp → Fp) : (m.onFp f).fam = m.fam := rfl
@[simp] theorem onFp_cycle (m : Mach) (f : Fp → Fp) : (m.onFp f).cycle = m.cycle := rfl
@[simp] theorem onFp_fresh (m : Mach) (f : Fp → Fp) : (m.onFp f).fresh = m.fresh := rfl
@[simp] theorem onFp_nextId (m : Mach) (f : Fp → Fp) : (m.onFp f).nextId = m.nextId := rfl
@[simp] theorem onFp_out (m : Mach) (f : Fp → Fp) : (m.onFp f).out = m.out := rfl
@[simp] theorem onFp_sys (m : Mach) (f : Fp → Fp) : (m.onFp f).sys = m.sys := rfl
@[simp] theorem onFp_link (m : Mach) (f : Fp → Fp) : (m.onFp f).link = m.link := rfl
@[simp] theorem onFp_mem (m : Mach) (f : Fp → Fp) : (m.onFp f).mem = m.mem := rfl
@[simp] theorem onFp_store (m : Mach) (f : Fp → Fp) : (m.onFp f).store = m.store := rfl
@[simp] theorem onFp_ext (m : Mach) (f : Fp → Fp) : (m.onFp f).ext = m.ext := rfl
@[simp] theorem onFp_sess (m : Mach) (f : Fp → Fp) : (m.onFp f).sess = m.sess := rfl
@[simp] theorem onFp_svc (m : Mach) (f : Fp → Fp) : (m.onFp f).svc = m.svc := rfl
@[simp] theorem onFp_dict (m : Mach) (f : Fp → Fp) : (m.onFp f).dict = m.dict := rfl
@[simp] theorem onFp_ev (m : Mach) (f : Fp → Fp) : (m.onFp f).ev = m.ev := rfl
@[simp] theorem onFp_sec (m : Mach) (f : Fp → Fp) : (m.onFp f).sec = m.sec := rfl
@[simp] theorem onFp_arc (m : Mach) (f : Fp → Fp) : (m.onFp f).arc = m.arc := rfl
@[simp] theorem onFp_dram (m : Mach) (f : Fp → Fp) : (m.onFp f).dram = m.dram := rfl
@[simp] theorem onFp_code (m : Mach) (f : Fp → Fp) : (m.onFp f).code = m.code := rfl
@[simp] theorem onFp_cnt (m : Mach) (f : Fp → Fp) : (m.onFp f).cnt = m.cnt := rfl
@[simp] theorem onFp_fp (m : Mach) (f : Fp → Fp) : (m.onFp f).fp = f m.fp := rfl
@[simp] theorem onFp_now (m : Mach) (f : Fp → Fp) : (m.onFp f).now = m.now := rfl

/-! ## onRegion -/

@[simp] theorem onRegion_fam (m : Mach) (r : Nat) (g : Region → Region) : (m.onRegion r g).fam = m.fam := rfl
@[simp] theorem onRegion_cycle (m : Mach) (r : Nat) (g : Region → Region) : (m.onRegion r g).cycle = m.cycle := rfl
@[simp] theorem onRegion_fresh (m : Mach) (r : Nat) (g : Region → Region) : (m.onRegion r g).fresh = m.fresh := rfl
@[simp] theorem onRegion_nextId (m : Mach) (r : Nat) (g : Region → Region) : (m.onRegion r g).nextId = m.nextId := rfl
@[simp] theorem onRegion_out (m : Mach) (r : Nat) (g : Region → Region) : (m.onRegion r g).out = m.out := rfl
@[simp] theorem onRegion_sys (m : Mach) (r : Nat) (g : Region → Region) : (m.onRegion r g).sys = m.sys := rfl
@[simp] theorem onRegion_link (m : Mach) (r : Nat) (g : Region → Region) : (m.onRegion r g).link = m.link := rfl
@[simp] theorem onRegion_store (m : Mach) (r : Nat) (g : Region → Region) : (m.onRegion r g).store = m.store := rfl
@[simp] theorem onRegion_ext (m : Mach) (r : Nat) (g : Region → Region) : (m.onRegion r g).ext = m.ext := rfl
@[simp] theorem onRegion_sess (m : Mach) (r : Nat) (g : Region → Region) : (m.onRegion r g).sess = m.sess := rfl
@[simp] theorem onRegion_svc (m : Mach) (r : Nat) (g : Region → Region) : (m.onRegion r g).svc = m.svc := rfl
@[simp] theorem onRegion_dict (m : Mach) (r : Nat) (g : Region → Region) : (m.onRegion r g).dict = m.dict := rfl
@[simp] theorem onRegion_ev (m : Mach) (r : Nat) (g : Region → Region) : (m.onRegion r g).ev = m.ev := rfl
@[simp] theorem onRegion_sec (m : Mach) (r : Nat) (g : Region → Region) : (m.onRegion r g).sec = m.sec := rfl
@[simp] theorem onRegion_arc (m : Mach) (r : Nat) (g : Region → Region) : (m.onRegion r g).arc = m.arc := rfl
@[simp] theorem onRegion_dram (m : Mach) (r : Nat) (g : Region → Region) : (m.onRegion r g).dram = m.dram := rfl
@[simp] theorem onRegion_code (m : Mach) (r : Nat) (g : Region → Region) : (m.onRegion r g).code = m.code := rfl
@[simp] theorem onRegion_cnt (m : Mach) (r : Nat) (g : Region → Region) : (m.onRegion r g).cnt = m.cnt := rfl
@[simp] theorem onRegion_fp (m : Mach) (r : Nat) (g : Region → Region) : (m.onRegion r g).fp = m.fp := rfl
@[simp] theorem onRegion_now (m : Mach) (r : Nat) (g : Region → Region) : (m.onRegion r g).now = m.now := rfl

/-! ## onHub -/

@[simp] theorem onHub_fam (m : Mach) (h : Nat) (g : Hub → Hub) : (m.onHub h g).fam = m.fam := rfl
@[simp] theorem onHub_cycle (m : Mach) (h : Nat) (g : Hub → Hub) : (m.onHub h g).cycle = m.cycle := rfl
@[simp] theorem onHub_fresh (m : Mach) (h : Nat) (g : Hub → Hub) : (m.onHub h g).fresh = m.fresh := rfl
@[simp] theorem onHub_nextId (m : Mach) (h : Nat) (g : Hub → Hub) : (m.onHub h g).nextId = m.nextId := rfl
@[simp] theorem onHub_out (m : Mach) (h : Nat) (g : Hub → Hub) : (m.onHub h g).out = m.out := rfl
@[simp] theorem onHub_sys (m : Mach) (h : Nat) (g : Hub → Hub) : (m.onHub h g).sys = m.sys := rfl
@[simp] theorem onHub_mem (m : Mach) (h : Nat) (g : Hub → Hub) : (m.onHub h g).mem = m.mem := rfl
@[simp] theorem onHub_store (m : Mach) (h : Nat) (g : Hub → Hub) : (m.onHub h g).store = m.store := rfl
@[simp] theorem onHub_ext (m : Mach) (h : Nat) (g : Hub → Hub) : (m.onHub h g).ext = m.ext := rfl
@[simp] theorem onHub_sess (m : Mach) (h : Nat) (g : Hub → Hub) : (m.onHub h g).sess = m.sess := rfl
@[simp] theorem onHub_svc (m : Mach) (h : Nat) (g : Hub → Hub) : (m.onHub h g).svc = m.svc := rfl
@[simp] theorem onHub_dict (m : Mach) (h : Nat) (g : Hub → Hub) : (m.onHub h g).dict = m.dict := rfl
@[simp] theorem onHub_ev (m : Mach) (h : Nat) (g : Hub → Hub) : (m.onHub h g).ev = m.ev := rfl
@[simp] theorem onHub_sec (m : Mach) (h : Nat) (g : Hub → Hub) : (m.onHub h g).sec = m.sec := rfl
@[simp] theorem onHub_arc (m : Mach) (h : Nat) (g : Hub → Hub) : (m.onHub h g).arc = m.arc := rfl
@[simp] theorem onHub_dram (m : Mach) (h : Nat) (g : Hub → Hub) : (m.onHub h g).dram = m.dram := rfl
@[simp] theorem onHub_code (m : Mach) (h : Nat) (g : Hub → Hub) : (m.onHub h g).code = m.code := rfl
@[simp] theorem onHub_cnt (m : Mach) (h : Nat) (g : Hub → Hub) : (m.onHub h g).cnt = m.cnt := rfl
@[simp] theorem onHub_fp (m : Mach) (h : Nat) (g : Hub → Hub) : (m.onHub h g).fp = m.fp := rfl
@[simp] theorem onHub_now (m : Mach) (h : Nat) (g : Hub → Hub) : (m.onHub h g).now = m.now := rfl

/-! ## onPort -/

@[simp] theorem onPort_fam (m : Mach) (k : Nat) (g : Port → Port) : (m.onPort k g).fam = m.fam := rfl
@[simp] theorem onPort_cycle (m : Mach) (k : Nat) (g : Port → Port) : (m.onPort k g).cycle = m.cycle := rfl
@[simp] theorem onPort_fresh (m : Mach) (k : Nat) (g : Port → Port) : (m.onPort k g).fresh = m.fresh := rfl
@[simp] theorem onPort_nextId (m : Mach) (k : Nat) (g : Port → Port) : (m.onPort k g).nextId = m.nextId := rfl
@[simp] theorem onPort_out (m : Mach) (k : Nat) (g : Port → Port) : (m.onPort k g).out = m.out := rfl
@[simp] theorem onPort_sys (m : Mach) (k : Nat) (g : Port → Port) : (m.onPort k g).sys = m.sys := rfl
@[simp] theorem onPort_mem (m : Mach) (k : Nat) (g : Port → Port) : (m.onPort k g).mem = m.mem := rfl
@[simp] theorem onPort_store (m : Mach) (k : Nat) (g : Port → Port) : (m.onPort k g).store = m.store := rfl
@[simp] theorem onPort_ext (m : Mach) (k : Nat) (g : Port → Port) : (m.onPort k g).ext = m.ext := rfl
@[simp] theorem onPort_sess (m : Mach) (k : Nat) (g : Port → Port) : (m.onPort k g).sess = m.sess := rfl
@[simp] theorem onPort_svc (m : Mach) (k : Nat) (g : Port → Port) : (m.onPort k g).svc = m.svc := rfl
@[simp] theorem onPort_dict (m : Mach) (k : Nat) (g : Port → Port) : (m.onPort k g).dict = m.dict := rfl
@[simp] theorem onPort_ev (m : Mach) (k : Nat) (g : Port → Port) : (m.onPort k g).ev = m.ev := rfl
@[simp] theorem onPort_sec (m : Mach) (k : Nat) (g : Port → Port) : (m.onPort k g).sec = m.sec := rfl
@[simp] theorem onPort_arc (m : Mach) (k : Nat) (g : Port → Port) : (m.onPort k g).arc = m.arc := rfl
@[simp] theorem onPort_dram (m : Mach) (k : Nat) (g : Port → Port) : (m.onPort k g).dram = m.dram := rfl
@[simp] theorem onPort_code (m : Mach) (k : Nat) (g : Port → Port) : (m.onPort k g).code = m.code := rfl
@[simp] theorem onPort_cnt (m : Mach) (k : Nat) (g : Port → Port) : (m.onPort k g).cnt = m.cnt := rfl
@[simp] theorem onPort_fp (m : Mach) (k : Nat) (g : Port → Port) : (m.onPort k g).fp = m.fp := rfl
@[simp] theorem onPort_now (m : Mach) (k : Nat) (g : Port → Port) : (m.onPort k g).now = m.now := rfl

/-! ## onFn -/

@[simp] theorem onFn_fam (m : Mach) (n : Nat) (g : Func → Func) : (m.onFn n g).fam = m.fam := rfl
@[simp] theorem onFn_cycle (m : Mach) (n : Nat) (g : Func → Func) : (m.onFn n g).cycle = m.cycle := rfl
@[simp] theorem onFn_fresh (m : Mach) (n : Nat) (g : Func → Func) : (m.onFn n g).fresh = m.fresh := rfl
@[simp] theorem onFn_nextId (m : Mach) (n : Nat) (g : Func → Func) : (m.onFn n g).nextId = m.nextId := rfl
@[simp] theorem onFn_out (m : Mach) (n : Nat) (g : Func → Func) : (m.onFn n g).out = m.out := rfl
@[simp] theorem onFn_sys (m : Mach) (n : Nat) (g : Func → Func) : (m.onFn n g).sys = m.sys := rfl
@[simp] theorem onFn_mem (m : Mach) (n : Nat) (g : Func → Func) : (m.onFn n g).mem = m.mem := rfl
@[simp] theorem onFn_store (m : Mach) (n : Nat) (g : Func → Func) : (m.onFn n g).store = m.store := rfl
@[simp] theorem onFn_ext (m : Mach) (n : Nat) (g : Func → Func) : (m.onFn n g).ext = m.ext := rfl
@[simp] theorem onFn_sess (m : Mach) (n : Nat) (g : Func → Func) : (m.onFn n g).sess = m.sess := rfl
@[simp] theorem onFn_svc (m : Mach) (n : Nat) (g : Func → Func) : (m.onFn n g).svc = m.svc := rfl
@[simp] theorem onFn_dict (m : Mach) (n : Nat) (g : Func → Func) : (m.onFn n g).dict = m.dict := rfl
@[simp] theorem onFn_ev (m : Mach) (n : Nat) (g : Func → Func) : (m.onFn n g).ev = m.ev := rfl
@[simp] theorem onFn_sec (m : Mach) (n : Nat) (g : Func → Func) : (m.onFn n g).sec = m.sec := rfl
@[simp] theorem onFn_arc (m : Mach) (n : Nat) (g : Func → Func) : (m.onFn n g).arc = m.arc := rfl
@[simp] theorem onFn_dram (m : Mach) (n : Nat) (g : Func → Func) : (m.onFn n g).dram = m.dram := rfl
@[simp] theorem onFn_code (m : Mach) (n : Nat) (g : Func → Func) : (m.onFn n g).code = m.code := rfl
@[simp] theorem onFn_cnt (m : Mach) (n : Nat) (g : Func → Func) : (m.onFn n g).cnt = m.cnt := rfl
@[simp] theorem onFn_fp (m : Mach) (n : Nat) (g : Func → Func) : (m.onFn n g).fp = m.fp := rfl
@[simp] theorem onFn_now (m : Mach) (n : Nat) (g : Func → Func) : (m.onFn n g).now = m.now := rfl

/-! ## onExtent -/

@[simp] theorem onExtent_fam (m : Mach) (e : Nat) (g : Extent → Extent) : (m.onExtent e g).fam = m.fam := rfl
@[simp] theorem onExtent_cycle (m : Mach) (e : Nat) (g : Extent → Extent) : (m.onExtent e g).cycle = m.cycle := rfl
@[simp] theorem onExtent_fresh (m : Mach) (e : Nat) (g : Extent → Extent) : (m.onExtent e g).fresh = m.fresh := rfl
@[simp] theorem onExtent_nextId (m : Mach) (e : Nat) (g : Extent → Extent) : (m.onExtent e g).nextId = m.nextId := rfl
@[simp] theorem onExtent_out (m : Mach) (e : Nat) (g : Extent → Extent) : (m.onExtent e g).out = m.out := rfl
@[simp] theorem onExtent_sys (m : Mach) (e : Nat) (g : Extent → Extent) : (m.onExtent e g).sys = m.sys := rfl
@[simp] theorem onExtent_link (m : Mach) (e : Nat) (g : Extent → Extent) : (m.onExtent e g).link = m.link := rfl
@[simp] theorem onExtent_mem (m : Mach) (e : Nat) (g : Extent → Extent) : (m.onExtent e g).mem = m.mem := rfl
@[simp] theorem onExtent_store (m : Mach) (e : Nat) (g : Extent → Extent) : (m.onExtent e g).store = m.store := rfl
@[simp] theorem onExtent_sess (m : Mach) (e : Nat) (g : Extent → Extent) : (m.onExtent e g).sess = m.sess := rfl
@[simp] theorem onExtent_svc (m : Mach) (e : Nat) (g : Extent → Extent) : (m.onExtent e g).svc = m.svc := rfl
@[simp] theorem onExtent_dict (m : Mach) (e : Nat) (g : Extent → Extent) : (m.onExtent e g).dict = m.dict := rfl
@[simp] theorem onExtent_ev (m : Mach) (e : Nat) (g : Extent → Extent) : (m.onExtent e g).ev = m.ev := rfl
@[simp] theorem onExtent_sec (m : Mach) (e : Nat) (g : Extent → Extent) : (m.onExtent e g).sec = m.sec := rfl
@[simp] theorem onExtent_arc (m : Mach) (e : Nat) (g : Extent → Extent) : (m.onExtent e g).arc = m.arc := rfl
@[simp] theorem onExtent_dram (m : Mach) (e : Nat) (g : Extent → Extent) : (m.onExtent e g).dram = m.dram := rfl
@[simp] theorem onExtent_code (m : Mach) (e : Nat) (g : Extent → Extent) : (m.onExtent e g).code = m.code := rfl
@[simp] theorem onExtent_cnt (m : Mach) (e : Nat) (g : Extent → Extent) : (m.onExtent e g).cnt = m.cnt := rfl
@[simp] theorem onExtent_fp (m : Mach) (e : Nat) (g : Extent → Extent) : (m.onExtent e g).fp = m.fp := rfl
@[simp] theorem onExtent_now (m : Mach) (e : Nat) (g : Extent → Extent) : (m.onExtent e g).now = m.now := rfl

/-! ## onSession -/

@[simp] theorem onSession_fam (m : Mach) (k : Nat) (g : Session → Session) : (m.onSession k g).fam = m.fam := rfl
@[simp] theorem onSession_cycle (m : Mach) (k : Nat) (g : Session → Session) : (m.onSession k g).cycle = m.cycle := rfl
@[simp] theorem onSession_fresh (m : Mach) (k : Nat) (g : Session → Session) : (m.onSession k g).fresh = m.fresh := rfl
@[simp] theorem onSession_nextId (m : Mach) (k : Nat) (g : Session → Session) : (m.onSession k g).nextId = m.nextId := rfl
@[simp] theorem onSession_out (m : Mach) (k : Nat) (g : Session → Session) : (m.onSession k g).out = m.out := rfl
@[simp] theorem onSession_sys (m : Mach) (k : Nat) (g : Session → Session) : (m.onSession k g).sys = m.sys := rfl
@[simp] theorem onSession_link (m : Mach) (k : Nat) (g : Session → Session) : (m.onSession k g).link = m.link := rfl
@[simp] theorem onSession_mem (m : Mach) (k : Nat) (g : Session → Session) : (m.onSession k g).mem = m.mem := rfl
@[simp] theorem onSession_store (m : Mach) (k : Nat) (g : Session → Session) : (m.onSession k g).store = m.store := rfl
@[simp] theorem onSession_ext (m : Mach) (k : Nat) (g : Session → Session) : (m.onSession k g).ext = m.ext := rfl
@[simp] theorem onSession_svc (m : Mach) (k : Nat) (g : Session → Session) : (m.onSession k g).svc = m.svc := rfl
@[simp] theorem onSession_dict (m : Mach) (k : Nat) (g : Session → Session) : (m.onSession k g).dict = m.dict := rfl
@[simp] theorem onSession_ev (m : Mach) (k : Nat) (g : Session → Session) : (m.onSession k g).ev = m.ev := rfl
@[simp] theorem onSession_sec (m : Mach) (k : Nat) (g : Session → Session) : (m.onSession k g).sec = m.sec := rfl
@[simp] theorem onSession_arc (m : Mach) (k : Nat) (g : Session → Session) : (m.onSession k g).arc = m.arc := rfl
@[simp] theorem onSession_dram (m : Mach) (k : Nat) (g : Session → Session) : (m.onSession k g).dram = m.dram := rfl
@[simp] theorem onSession_code (m : Mach) (k : Nat) (g : Session → Session) : (m.onSession k g).code = m.code := rfl
@[simp] theorem onSession_cnt (m : Mach) (k : Nat) (g : Session → Session) : (m.onSession k g).cnt = m.cnt := rfl
@[simp] theorem onSession_fp (m : Mach) (k : Nat) (g : Session → Session) : (m.onSession k g).fp = m.fp := rfl
@[simp] theorem onSession_now (m : Mach) (k : Nat) (g : Session → Session) : (m.onSession k g).now = m.now := rfl

/-! ## onView -/

@[simp] theorem onView_fam (m : Mach) (k : Nat) (g : View → View) : (m.onView k g).fam = m.fam := rfl
@[simp] theorem onView_cycle (m : Mach) (k : Nat) (g : View → View) : (m.onView k g).cycle = m.cycle := rfl
@[simp] theorem onView_fresh (m : Mach) (k : Nat) (g : View → View) : (m.onView k g).fresh = m.fresh := rfl
@[simp] theorem onView_nextId (m : Mach) (k : Nat) (g : View → View) : (m.onView k g).nextId = m.nextId := rfl
@[simp] theorem onView_out (m : Mach) (k : Nat) (g : View → View) : (m.onView k g).out = m.out := rfl
@[simp] theorem onView_sys (m : Mach) (k : Nat) (g : View → View) : (m.onView k g).sys = m.sys := rfl
@[simp] theorem onView_link (m : Mach) (k : Nat) (g : View → View) : (m.onView k g).link = m.link := rfl
@[simp] theorem onView_mem (m : Mach) (k : Nat) (g : View → View) : (m.onView k g).mem = m.mem := rfl
@[simp] theorem onView_store (m : Mach) (k : Nat) (g : View → View) : (m.onView k g).store = m.store := rfl
@[simp] theorem onView_ext (m : Mach) (k : Nat) (g : View → View) : (m.onView k g).ext = m.ext := rfl
@[simp] theorem onView_svc (m : Mach) (k : Nat) (g : View → View) : (m.onView k g).svc = m.svc := rfl
@[simp] theorem onView_dict (m : Mach) (k : Nat) (g : View → View) : (m.onView k g).dict = m.dict := rfl
@[simp] theorem onView_ev (m : Mach) (k : Nat) (g : View → View) : (m.onView k g).ev = m.ev := rfl
@[simp] theorem onView_sec (m : Mach) (k : Nat) (g : View → View) : (m.onView k g).sec = m.sec := rfl
@[simp] theorem onView_arc (m : Mach) (k : Nat) (g : View → View) : (m.onView k g).arc = m.arc := rfl
@[simp] theorem onView_dram (m : Mach) (k : Nat) (g : View → View) : (m.onView k g).dram = m.dram := rfl
@[simp] theorem onView_code (m : Mach) (k : Nat) (g : View → View) : (m.onView k g).code = m.code := rfl
@[simp] theorem onView_cnt (m : Mach) (k : Nat) (g : View → View) : (m.onView k g).cnt = m.cnt := rfl
@[simp] theorem onView_fp (m : Mach) (k : Nat) (g : View → View) : (m.onView k g).fp = m.fp := rfl
@[simp] theorem onView_now (m : Mach) (k : Nat) (g : View → View) : (m.onView k g).now = m.now := rfl

/-! ## onQueue -/

@[simp] theorem onQueue_fam (m : Mach) (n q : Nat) (g : Queue → Queue) : (m.onQueue n q g).fam = m.fam := rfl
@[simp] theorem onQueue_cycle (m : Mach) (n q : Nat) (g : Queue → Queue) : (m.onQueue n q g).cycle = m.cycle := rfl
@[simp] theorem onQueue_fresh (m : Mach) (n q : Nat) (g : Queue → Queue) : (m.onQueue n q g).fresh = m.fresh := rfl
@[simp] theorem onQueue_nextId (m : Mach) (n q : Nat) (g : Queue → Queue) : (m.onQueue n q g).nextId = m.nextId := rfl
@[simp] theorem onQueue_out (m : Mach) (n q : Nat) (g : Queue → Queue) : (m.onQueue n q g).out = m.out := rfl
@[simp] theorem onQueue_sys (m : Mach) (n q : Nat) (g : Queue → Queue) : (m.onQueue n q g).sys = m.sys := rfl
@[simp] theorem onQueue_link (m : Mach) (n q : Nat) (g : Queue → Queue) : (m.onQueue n q g).link = m.link := rfl
@[simp] theorem onQueue_mem (m : Mach) (n q : Nat) (g : Queue → Queue) : (m.onQueue n q g).mem = m.mem := rfl
@[simp] theorem onQueue_store (m : Mach) (n q : Nat) (g : Queue → Queue) : (m.onQueue n q g).store = m.store := rfl
@[simp] theorem onQueue_ext (m : Mach) (n q : Nat) (g : Queue → Queue) : (m.onQueue n q g).ext = m.ext := rfl
@[simp] theorem onQueue_sess (m : Mach) (n q : Nat) (g : Queue → Queue) : (m.onQueue n q g).sess = m.sess := rfl
@[simp] theorem onQueue_dict (m : Mach) (n q : Nat) (g : Queue → Queue) : (m.onQueue n q g).dict = m.dict := rfl
@[simp] theorem onQueue_ev (m : Mach) (n q : Nat) (g : Queue → Queue) : (m.onQueue n q g).ev = m.ev := rfl
@[simp] theorem onQueue_sec (m : Mach) (n q : Nat) (g : Queue → Queue) : (m.onQueue n q g).sec = m.sec := rfl
@[simp] theorem onQueue_arc (m : Mach) (n q : Nat) (g : Queue → Queue) : (m.onQueue n q g).arc = m.arc := rfl
@[simp] theorem onQueue_dram (m : Mach) (n q : Nat) (g : Queue → Queue) : (m.onQueue n q g).dram = m.dram := rfl
@[simp] theorem onQueue_code (m : Mach) (n q : Nat) (g : Queue → Queue) : (m.onQueue n q g).code = m.code := rfl
@[simp] theorem onQueue_cnt (m : Mach) (n q : Nat) (g : Queue → Queue) : (m.onQueue n q g).cnt = m.cnt := rfl
@[simp] theorem onQueue_fp (m : Mach) (n q : Nat) (g : Queue → Queue) : (m.onQueue n q g).fp = m.fp := rfl
@[simp] theorem onQueue_now (m : Mach) (n q : Nat) (g : Queue → Queue) : (m.onQueue n q g).now = m.now := rfl

/-! ## onChan -/

@[simp] theorem onChan_fam (m : Mach) (r c : Nat) (g : Chan → Chan) : (m.onChan r c g).fam = m.fam := rfl
@[simp] theorem onChan_cycle (m : Mach) (r c : Nat) (g : Chan → Chan) : (m.onChan r c g).cycle = m.cycle := rfl
@[simp] theorem onChan_fresh (m : Mach) (r c : Nat) (g : Chan → Chan) : (m.onChan r c g).fresh = m.fresh := rfl
@[simp] theorem onChan_nextId (m : Mach) (r c : Nat) (g : Chan → Chan) : (m.onChan r c g).nextId = m.nextId := rfl
@[simp] theorem onChan_out (m : Mach) (r c : Nat) (g : Chan → Chan) : (m.onChan r c g).out = m.out := rfl
@[simp] theorem onChan_sys (m : Mach) (r c : Nat) (g : Chan → Chan) : (m.onChan r c g).sys = m.sys := rfl
@[simp] theorem onChan_link (m : Mach) (r c : Nat) (g : Chan → Chan) : (m.onChan r c g).link = m.link := rfl
@[simp] theorem onChan_mem (m : Mach) (r c : Nat) (g : Chan → Chan) : (m.onChan r c g).mem = m.mem := rfl
@[simp] theorem onChan_store (m : Mach) (r c : Nat) (g : Chan → Chan) : (m.onChan r c g).store = m.store := rfl
@[simp] theorem onChan_ext (m : Mach) (r c : Nat) (g : Chan → Chan) : (m.onChan r c g).ext = m.ext := rfl
@[simp] theorem onChan_sess (m : Mach) (r c : Nat) (g : Chan → Chan) : (m.onChan r c g).sess = m.sess := rfl
@[simp] theorem onChan_svc (m : Mach) (r c : Nat) (g : Chan → Chan) : (m.onChan r c g).svc = m.svc := rfl
@[simp] theorem onChan_dict (m : Mach) (r c : Nat) (g : Chan → Chan) : (m.onChan r c g).dict = m.dict := rfl
@[simp] theorem onChan_ev (m : Mach) (r c : Nat) (g : Chan → Chan) : (m.onChan r c g).ev = m.ev := rfl
@[simp] theorem onChan_sec (m : Mach) (r c : Nat) (g : Chan → Chan) : (m.onChan r c g).sec = m.sec := rfl
@[simp] theorem onChan_arc (m : Mach) (r c : Nat) (g : Chan → Chan) : (m.onChan r c g).arc = m.arc := rfl
@[simp] theorem onChan_code (m : Mach) (r c : Nat) (g : Chan → Chan) : (m.onChan r c g).code = m.code := rfl
@[simp] theorem onChan_cnt (m : Mach) (r c : Nat) (g : Chan → Chan) : (m.onChan r c g).cnt = m.cnt := rfl
@[simp] theorem onChan_fp (m : Mach) (r c : Nat) (g : Chan → Chan) : (m.onChan r c g).fp = m.fp := rfl
@[simp] theorem onChan_now (m : Mach) (r c : Nat) (g : Chan → Chan) : (m.onChan r c g).now = m.now := rfl

/-! ## onDie -/

@[simp] theorem onDie_fam (m : Mach) (r d : Nat) (g : Die → Die) : (m.onDie r d g).fam = m.fam := rfl
@[simp] theorem onDie_cycle (m : Mach) (r d : Nat) (g : Die → Die) : (m.onDie r d g).cycle = m.cycle := rfl
@[simp] theorem onDie_fresh (m : Mach) (r d : Nat) (g : Die → Die) : (m.onDie r d g).fresh = m.fresh := rfl
@[simp] theorem onDie_nextId (m : Mach) (r d : Nat) (g : Die → Die) : (m.onDie r d g).nextId = m.nextId := rfl
@[simp] theorem onDie_out (m : Mach) (r d : Nat) (g : Die → Die) : (m.onDie r d g).out = m.out := rfl
@[simp] theorem onDie_sys (m : Mach) (r d : Nat) (g : Die → Die) : (m.onDie r d g).sys = m.sys := rfl
@[simp] theorem onDie_link (m : Mach) (r d : Nat) (g : Die → Die) : (m.onDie r d g).link = m.link := rfl
@[simp] theorem onDie_mem (m : Mach) (r d : Nat) (g : Die → Die) : (m.onDie r d g).mem = m.mem := rfl
@[simp] theorem onDie_store (m : Mach) (r d : Nat) (g : Die → Die) : (m.onDie r d g).store = m.store := rfl
@[simp] theorem onDie_ext (m : Mach) (r d : Nat) (g : Die → Die) : (m.onDie r d g).ext = m.ext := rfl
@[simp] theorem onDie_sess (m : Mach) (r d : Nat) (g : Die → Die) : (m.onDie r d g).sess = m.sess := rfl
@[simp] theorem onDie_svc (m : Mach) (r d : Nat) (g : Die → Die) : (m.onDie r d g).svc = m.svc := rfl
@[simp] theorem onDie_dict (m : Mach) (r d : Nat) (g : Die → Die) : (m.onDie r d g).dict = m.dict := rfl
@[simp] theorem onDie_ev (m : Mach) (r d : Nat) (g : Die → Die) : (m.onDie r d g).ev = m.ev := rfl
@[simp] theorem onDie_sec (m : Mach) (r d : Nat) (g : Die → Die) : (m.onDie r d g).sec = m.sec := rfl
@[simp] theorem onDie_arc (m : Mach) (r d : Nat) (g : Die → Die) : (m.onDie r d g).arc = m.arc := rfl
@[simp] theorem onDie_code (m : Mach) (r d : Nat) (g : Die → Die) : (m.onDie r d g).code = m.code := rfl
@[simp] theorem onDie_cnt (m : Mach) (r d : Nat) (g : Die → Die) : (m.onDie r d g).cnt = m.cnt := rfl
@[simp] theorem onDie_fp (m : Mach) (r d : Nat) (g : Die → Die) : (m.onDie r d g).fp = m.fp := rfl
@[simp] theorem onDie_now (m : Mach) (r d : Nat) (g : Die → Die) : (m.onDie r d g).now = m.now := rfl

/-! ## onClient -/

@[simp] theorem onClient_fam (m : Mach) (c : Nat) (g : Client → Client) : (m.onClient c g).fam = m.fam := rfl
@[simp] theorem onClient_cycle (m : Mach) (c : Nat) (g : Client → Client) : (m.onClient c g).cycle = m.cycle := rfl
@[simp] theorem onClient_fresh (m : Mach) (c : Nat) (g : Client → Client) : (m.onClient c g).fresh = m.fresh := rfl
@[simp] theorem onClient_nextId (m : Mach) (c : Nat) (g : Client → Client) : (m.onClient c g).nextId = m.nextId := rfl
@[simp] theorem onClient_out (m : Mach) (c : Nat) (g : Client → Client) : (m.onClient c g).out = m.out := rfl
@[simp] theorem onClient_sys (m : Mach) (c : Nat) (g : Client → Client) : (m.onClient c g).sys = m.sys := rfl
@[simp] theorem onClient_link (m : Mach) (c : Nat) (g : Client → Client) : (m.onClient c g).link = m.link := rfl
@[simp] theorem onClient_mem (m : Mach) (c : Nat) (g : Client → Client) : (m.onClient c g).mem = m.mem := rfl
@[simp] theorem onClient_store (m : Mach) (c : Nat) (g : Client → Client) : (m.onClient c g).store = m.store := rfl
@[simp] theorem onClient_ext (m : Mach) (c : Nat) (g : Client → Client) : (m.onClient c g).ext = m.ext := rfl
@[simp] theorem onClient_sess (m : Mach) (c : Nat) (g : Client → Client) : (m.onClient c g).sess = m.sess := rfl
@[simp] theorem onClient_svc (m : Mach) (c : Nat) (g : Client → Client) : (m.onClient c g).svc = m.svc := rfl
@[simp] theorem onClient_ev (m : Mach) (c : Nat) (g : Client → Client) : (m.onClient c g).ev = m.ev := rfl
@[simp] theorem onClient_sec (m : Mach) (c : Nat) (g : Client → Client) : (m.onClient c g).sec = m.sec := rfl
@[simp] theorem onClient_arc (m : Mach) (c : Nat) (g : Client → Client) : (m.onClient c g).arc = m.arc := rfl
@[simp] theorem onClient_dram (m : Mach) (c : Nat) (g : Client → Client) : (m.onClient c g).dram = m.dram := rfl
@[simp] theorem onClient_code (m : Mach) (c : Nat) (g : Client → Client) : (m.onClient c g).code = m.code := rfl
@[simp] theorem onClient_cnt (m : Mach) (c : Nat) (g : Client → Client) : (m.onClient c g).cnt = m.cnt := rfl
@[simp] theorem onClient_fp (m : Mach) (c : Nat) (g : Client → Client) : (m.onClient c g).fp = m.fp := rfl
@[simp] theorem onClient_now (m : Mach) (c : Nat) (g : Client → Client) : (m.onClient c g).now = m.now := rfl

/-! ## setDesc -/

@[simp] theorem setDesc_fam (m : Mach) (pn : Nat) (d : Desc) : (m.setDesc pn d).fam = m.fam := rfl
@[simp] theorem setDesc_cycle (m : Mach) (pn : Nat) (d : Desc) : (m.setDesc pn d).cycle = m.cycle := rfl
@[simp] theorem setDesc_fresh (m : Mach) (pn : Nat) (d : Desc) : (m.setDesc pn d).fresh = m.fresh := rfl
@[simp] theorem setDesc_nextId (m : Mach) (pn : Nat) (d : Desc) : (m.setDesc pn d).nextId = m.nextId := rfl
@[simp] theorem setDesc_out (m : Mach) (pn : Nat) (d : Desc) : (m.setDesc pn d).out = m.out := rfl
@[simp] theorem setDesc_sys (m : Mach) (pn : Nat) (d : Desc) : (m.setDesc pn d).sys = m.sys := rfl
@[simp] theorem setDesc_link (m : Mach) (pn : Nat) (d : Desc) : (m.setDesc pn d).link = m.link := rfl
@[simp] theorem setDesc_store (m : Mach) (pn : Nat) (d : Desc) : (m.setDesc pn d).store = m.store := rfl
@[simp] theorem setDesc_ext (m : Mach) (pn : Nat) (d : Desc) : (m.setDesc pn d).ext = m.ext := rfl
@[simp] theorem setDesc_sess (m : Mach) (pn : Nat) (d : Desc) : (m.setDesc pn d).sess = m.sess := rfl
@[simp] theorem setDesc_svc (m : Mach) (pn : Nat) (d : Desc) : (m.setDesc pn d).svc = m.svc := rfl
@[simp] theorem setDesc_dict (m : Mach) (pn : Nat) (d : Desc) : (m.setDesc pn d).dict = m.dict := rfl
@[simp] theorem setDesc_ev (m : Mach) (pn : Nat) (d : Desc) : (m.setDesc pn d).ev = m.ev := rfl
@[simp] theorem setDesc_sec (m : Mach) (pn : Nat) (d : Desc) : (m.setDesc pn d).sec = m.sec := rfl
@[simp] theorem setDesc_arc (m : Mach) (pn : Nat) (d : Desc) : (m.setDesc pn d).arc = m.arc := rfl
@[simp] theorem setDesc_dram (m : Mach) (pn : Nat) (d : Desc) : (m.setDesc pn d).dram = m.dram := rfl
@[simp] theorem setDesc_code (m : Mach) (pn : Nat) (d : Desc) : (m.setDesc pn d).code = m.code := rfl
@[simp] theorem setDesc_cnt (m : Mach) (pn : Nat) (d : Desc) : (m.setDesc pn d).cnt = m.cnt := rfl
@[simp] theorem setDesc_fp (m : Mach) (pn : Nat) (d : Desc) : (m.setDesc pn d).fp = m.fp := rfl
@[simp] theorem setDesc_now (m : Mach) (pn : Nat) (d : Desc) : (m.setDesc pn d).now = m.now := rfl

/-! ## redraw -/

@[simp] theorem redraw_fam (m : Mach)  : (m.redraw ).fam = m.fam := rfl
@[simp] theorem redraw_cycle (m : Mach)  : (m.redraw ).cycle = m.cycle := rfl
@[simp] theorem redraw_nextId (m : Mach)  : (m.redraw ).nextId = m.nextId := rfl
@[simp] theorem redraw_out (m : Mach)  : (m.redraw ).out = m.out := rfl
@[simp] theorem redraw_sys (m : Mach)  : (m.redraw ).sys = m.sys := rfl
@[simp] theorem redraw_link (m : Mach)  : (m.redraw ).link = m.link := rfl
@[simp] theorem redraw_mem (m : Mach)  : (m.redraw ).mem = m.mem := rfl
@[simp] theorem redraw_store (m : Mach)  : (m.redraw ).store = m.store := rfl
@[simp] theorem redraw_ext (m : Mach)  : (m.redraw ).ext = m.ext := rfl
@[simp] theorem redraw_sess (m : Mach)  : (m.redraw ).sess = m.sess := rfl
@[simp] theorem redraw_svc (m : Mach)  : (m.redraw ).svc = m.svc := rfl
@[simp] theorem redraw_dict (m : Mach)  : (m.redraw ).dict = m.dict := rfl
@[simp] theorem redraw_ev (m : Mach)  : (m.redraw ).ev = m.ev := rfl
@[simp] theorem redraw_sec (m : Mach)  : (m.redraw ).sec = m.sec := rfl
@[simp] theorem redraw_arc (m : Mach)  : (m.redraw ).arc = m.arc := rfl
@[simp] theorem redraw_dram (m : Mach)  : (m.redraw ).dram = m.dram := rfl
@[simp] theorem redraw_code (m : Mach)  : (m.redraw ).code = m.code := rfl
@[simp] theorem redraw_cnt (m : Mach)  : (m.redraw ).cnt = m.cnt := rfl
@[simp] theorem redraw_fp (m : Mach)  : (m.redraw ).fp = m.fp := rfl
@[simp] theorem redraw_now (m : Mach)  : (m.redraw ).now = m.now := rfl

/-! ## renumber -/

@[simp] theorem renumber_fam (m : Mach)  : (m.renumber ).fam = m.fam := rfl
@[simp] theorem renumber_cycle (m : Mach)  : (m.renumber ).cycle = m.cycle := rfl
@[simp] theorem renumber_fresh (m : Mach)  : (m.renumber ).fresh = m.fresh := rfl
@[simp] theorem renumber_out (m : Mach)  : (m.renumber ).out = m.out := rfl
@[simp] theorem renumber_sys (m : Mach)  : (m.renumber ).sys = m.sys := rfl
@[simp] theorem renumber_link (m : Mach)  : (m.renumber ).link = m.link := rfl
@[simp] theorem renumber_mem (m : Mach)  : (m.renumber ).mem = m.mem := rfl
@[simp] theorem renumber_store (m : Mach)  : (m.renumber ).store = m.store := rfl
@[simp] theorem renumber_ext (m : Mach)  : (m.renumber ).ext = m.ext := rfl
@[simp] theorem renumber_sess (m : Mach)  : (m.renumber ).sess = m.sess := rfl
@[simp] theorem renumber_svc (m : Mach)  : (m.renumber ).svc = m.svc := rfl
@[simp] theorem renumber_dict (m : Mach)  : (m.renumber ).dict = m.dict := rfl
@[simp] theorem renumber_ev (m : Mach)  : (m.renumber ).ev = m.ev := rfl
@[simp] theorem renumber_sec (m : Mach)  : (m.renumber ).sec = m.sec := rfl
@[simp] theorem renumber_arc (m : Mach)  : (m.renumber ).arc = m.arc := rfl
@[simp] theorem renumber_dram (m : Mach)  : (m.renumber ).dram = m.dram := rfl
@[simp] theorem renumber_code (m : Mach)  : (m.renumber ).code = m.code := rfl
@[simp] theorem renumber_cnt (m : Mach)  : (m.renumber ).cnt = m.cnt := rfl
@[simp] theorem renumber_fp (m : Mach)  : (m.renumber ).fp = m.fp := rfl
@[simp] theorem renumber_now (m : Mach)  : (m.renumber ).now = m.now := rfl

/-! ## send -/

@[simp] theorem send_fam (m : Mach) (o : Out) : (m.send o).fam = m.fam := rfl
@[simp] theorem send_cycle (m : Mach) (o : Out) : (m.send o).cycle = m.cycle := rfl
@[simp] theorem send_fresh (m : Mach) (o : Out) : (m.send o).fresh = m.fresh := rfl
@[simp] theorem send_nextId (m : Mach) (o : Out) : (m.send o).nextId = m.nextId := rfl
@[simp] theorem send_sys (m : Mach) (o : Out) : (m.send o).sys = m.sys := rfl
@[simp] theorem send_link (m : Mach) (o : Out) : (m.send o).link = m.link := rfl
@[simp] theorem send_mem (m : Mach) (o : Out) : (m.send o).mem = m.mem := rfl
@[simp] theorem send_store (m : Mach) (o : Out) : (m.send o).store = m.store := rfl
@[simp] theorem send_ext (m : Mach) (o : Out) : (m.send o).ext = m.ext := rfl
@[simp] theorem send_sess (m : Mach) (o : Out) : (m.send o).sess = m.sess := rfl
@[simp] theorem send_svc (m : Mach) (o : Out) : (m.send o).svc = m.svc := rfl
@[simp] theorem send_dict (m : Mach) (o : Out) : (m.send o).dict = m.dict := rfl
@[simp] theorem send_ev (m : Mach) (o : Out) : (m.send o).ev = m.ev := rfl
@[simp] theorem send_sec (m : Mach) (o : Out) : (m.send o).sec = m.sec := rfl
@[simp] theorem send_arc (m : Mach) (o : Out) : (m.send o).arc = m.arc := rfl
@[simp] theorem send_dram (m : Mach) (o : Out) : (m.send o).dram = m.dram := rfl
@[simp] theorem send_code (m : Mach) (o : Out) : (m.send o).code = m.code := rfl
@[simp] theorem send_cnt (m : Mach) (o : Out) : (m.send o).cnt = m.cnt := rfl
@[simp] theorem send_fp (m : Mach) (o : Out) : (m.send o).fp = m.fp := rfl
@[simp] theorem send_now (m : Mach) (o : Out) : (m.send o).now = m.now := rfl

/-! ## count -/

@[simp] theorem count_fam (m : Mach) (i s n : Nat) : (m.count i s n).fam = m.fam := rfl
@[simp] theorem count_cycle (m : Mach) (i s n : Nat) : (m.count i s n).cycle = m.cycle := rfl
@[simp] theorem count_fresh (m : Mach) (i s n : Nat) : (m.count i s n).fresh = m.fresh := rfl
@[simp] theorem count_nextId (m : Mach) (i s n : Nat) : (m.count i s n).nextId = m.nextId := rfl
@[simp] theorem count_out (m : Mach) (i s n : Nat) : (m.count i s n).out = m.out := rfl
@[simp] theorem count_sys (m : Mach) (i s n : Nat) : (m.count i s n).sys = m.sys := rfl
@[simp] theorem count_link (m : Mach) (i s n : Nat) : (m.count i s n).link = m.link := rfl
@[simp] theorem count_mem (m : Mach) (i s n : Nat) : (m.count i s n).mem = m.mem := rfl
@[simp] theorem count_store (m : Mach) (i s n : Nat) : (m.count i s n).store = m.store := rfl
@[simp] theorem count_ext (m : Mach) (i s n : Nat) : (m.count i s n).ext = m.ext := rfl
@[simp] theorem count_sess (m : Mach) (i s n : Nat) : (m.count i s n).sess = m.sess := rfl
@[simp] theorem count_svc (m : Mach) (i s n : Nat) : (m.count i s n).svc = m.svc := rfl
@[simp] theorem count_dict (m : Mach) (i s n : Nat) : (m.count i s n).dict = m.dict := rfl
@[simp] theorem count_ev (m : Mach) (i s n : Nat) : (m.count i s n).ev = m.ev := rfl
@[simp] theorem count_sec (m : Mach) (i s n : Nat) : (m.count i s n).sec = m.sec := rfl
@[simp] theorem count_arc (m : Mach) (i s n : Nat) : (m.count i s n).arc = m.arc := rfl
@[simp] theorem count_dram (m : Mach) (i s n : Nat) : (m.count i s n).dram = m.dram := rfl
@[simp] theorem count_code (m : Mach) (i s n : Nat) : (m.count i s n).code = m.code := rfl
@[simp] theorem count_fp (m : Mach) (i s n : Nat) : (m.count i s n).fp = m.fp := rfl

/-! ## latch -/

@[simp] theorem latch_fam (m : Mach) (k b : Nat) : (m.latch k b).fam = m.fam := rfl
@[simp] theorem latch_cycle (m : Mach) (k b : Nat) : (m.latch k b).cycle = m.cycle := rfl
@[simp] theorem latch_fresh (m : Mach) (k b : Nat) : (m.latch k b).fresh = m.fresh := rfl
@[simp] theorem latch_nextId (m : Mach) (k b : Nat) : (m.latch k b).nextId = m.nextId := rfl
@[simp] theorem latch_out (m : Mach) (k b : Nat) : (m.latch k b).out = m.out := rfl
@[simp] theorem latch_sys (m : Mach) (k b : Nat) : (m.latch k b).sys = m.sys := rfl
@[simp] theorem latch_link (m : Mach) (k b : Nat) : (m.latch k b).link = m.link := rfl
@[simp] theorem latch_mem (m : Mach) (k b : Nat) : (m.latch k b).mem = m.mem := rfl
@[simp] theorem latch_store (m : Mach) (k b : Nat) : (m.latch k b).store = m.store := rfl
@[simp] theorem latch_ext (m : Mach) (k b : Nat) : (m.latch k b).ext = m.ext := rfl
@[simp] theorem latch_sess (m : Mach) (k b : Nat) : (m.latch k b).sess = m.sess := rfl
@[simp] theorem latch_svc (m : Mach) (k b : Nat) : (m.latch k b).svc = m.svc := rfl
@[simp] theorem latch_dict (m : Mach) (k b : Nat) : (m.latch k b).dict = m.dict := rfl
@[simp] theorem latch_ev (m : Mach) (k b : Nat) : (m.latch k b).ev = m.ev := rfl
@[simp] theorem latch_sec (m : Mach) (k b : Nat) : (m.latch k b).sec = m.sec := rfl
@[simp] theorem latch_arc (m : Mach) (k b : Nat) : (m.latch k b).arc = m.arc := rfl
@[simp] theorem latch_dram (m : Mach) (k b : Nat) : (m.latch k b).dram = m.dram := rfl
@[simp] theorem latch_code (m : Mach) (k b : Nat) : (m.latch k b).code = m.code := rfl
@[simp] theorem latch_cnt (m : Mach) (k b : Nat) : (m.latch k b).cnt = m.cnt := rfl
@[simp] theorem latch_fp (m : Mach) (k b : Nat) : (m.latch k b).fp = m.fp := rfl

/-! ## Table entries after a write -/

@[simp] theorem onRegion_same (m : Mach) (r : Nat) (g : Region → Region) : (m.onRegion r g).region r = g (m.region r) := by
  simp [Mach.onRegion, Mach.region]

theorem onRegion_other (m : Mach) {q r : Nat} (g : Region → Region) (h : q ≠ r) : (m.onRegion r g).region q = m.region q := by
  simp [Mach.onRegion, Mach.region, tget_tput_other _ _ _ h]

@[simp] theorem onHub_same (m : Mach) (r : Nat) (g : Hub → Hub) : (m.onHub r g).hub r = g (m.hub r) := by
  simp [Mach.onHub, Mach.hub]

theorem onHub_other (m : Mach) {q r : Nat} (g : Hub → Hub) (h : q ≠ r) : (m.onHub r g).hub q = m.hub q := by
  simp [Mach.onHub, Mach.hub, tget_tput_other _ _ _ h]

@[simp] theorem onPort_same (m : Mach) (r : Nat) (g : Port → Port) : (m.onPort r g).port r = g (m.port r) := by
  simp [Mach.onPort, Mach.port]

theorem onPort_other (m : Mach) {q r : Nat} (g : Port → Port) (h : q ≠ r) : (m.onPort r g).port q = m.port q := by
  simp [Mach.onPort, Mach.port, tget_tput_other _ _ _ h]

@[simp] theorem onFn_same (m : Mach) (r : Nat) (g : Func → Func) : (m.onFn r g).fn r = g (m.fn r) := by
  simp [Mach.onFn, Mach.fn]

theorem onFn_other (m : Mach) {q r : Nat} (g : Func → Func) (h : q ≠ r) : (m.onFn r g).fn q = m.fn q := by
  simp [Mach.onFn, Mach.fn, tget_tput_other _ _ _ h]

@[simp] theorem onExtent_same (m : Mach) (r : Nat) (g : Extent → Extent) : (m.onExtent r g).extent r = g (m.extent r) := by
  simp [Mach.onExtent, Mach.extent]

theorem onExtent_other (m : Mach) {q r : Nat} (g : Extent → Extent) (h : q ≠ r) : (m.onExtent r g).extent q = m.extent q := by
  simp [Mach.onExtent, Mach.extent, tget_tput_other _ _ _ h]

@[simp] theorem onSession_same (m : Mach) (r : Nat) (g : Session → Session) : (m.onSession r g).session r = g (m.session r) := by
  simp [Mach.onSession, Mach.session]

theorem onSession_other (m : Mach) {q r : Nat} (g : Session → Session) (h : q ≠ r) : (m.onSession r g).session q = m.session q := by
  simp [Mach.onSession, Mach.session, tget_tput_other _ _ _ h]

@[simp] theorem onView_same (m : Mach) (r : Nat) (g : View → View) : (m.onView r g).view r = g (m.view r) := by
  simp [Mach.onView, Mach.view]

theorem onView_other (m : Mach) {q r : Nat} (g : View → View) (h : q ≠ r) : (m.onView r g).view q = m.view q := by
  simp [Mach.onView, Mach.view, tget_tput_other _ _ _ h]

@[simp] theorem onClient_same (m : Mach) (r : Nat) (g : Client → Client) : (m.onClient r g).client r = g (m.client r) := by
  simp [Mach.onClient, Mach.client]

theorem onClient_other (m : Mach) {q r : Nat} (g : Client → Client) (h : q ≠ r) : (m.onClient r g).client q = m.client q := by
  simp [Mach.onClient, Mach.client, tget_tput_other _ _ _ h]

@[simp] theorem onQueue_same (m : Mach) (a b : Nat) (g : Queue → Queue) : (m.onQueue a b g).queue a b = g (m.queue a b) := by
  simp [Mach.onQueue, Mach.queue]

theorem onQueue_other (m : Mach) {a b a' b' : Nat} (g : Queue → Queue) (h : a' * 64 + b' ≠ a * 64 + b) :
    (m.onQueue a b g).queue a' b' = m.queue a' b' := by
  simp [Mach.onQueue, Mach.queue, tget_tput_other _ _ _ h]

@[simp] theorem onChan_same (m : Mach) (a b : Nat) (g : Chan → Chan) : (m.onChan a b g).chan a b = g (m.chan a b) := by
  simp [Mach.onChan, Mach.chan]

theorem onChan_other (m : Mach) {a b a' b' : Nat} (g : Chan → Chan) (h : a' * 8 + b' ≠ a * 8 + b) :
    (m.onChan a b g).chan a' b' = m.chan a' b' := by
  simp [Mach.onChan, Mach.chan, tget_tput_other _ _ _ h]

@[simp] theorem onDie_same (m : Mach) (a b : Nat) (g : Die → Die) : (m.onDie a b g).die a b = g (m.die a b) := by
  simp [Mach.onDie, Mach.die]

theorem onDie_other (m : Mach) {a b a' b' : Nat} (g : Die → Die) (h : a' * 2 + b' ≠ a * 2 + b) :
    (m.onDie a b g).die a' b' = m.die a' b' := by
  simp [Mach.onDie, Mach.die, tget_tput_other _ _ _ h]

@[simp] theorem setDesc_same (m : Mach) (pn : Nat) (d : Desc) : (m.setDesc pn d).desc pn = d := by
  simp [Mach.setDesc, Mach.desc]

theorem setDesc_other (m : Mach) {pn qn : Nat} (d : Desc) (h : qn ≠ pn) : (m.setDesc pn d).desc qn = m.desc qn := by
  simp [Mach.setDesc, Mach.desc, tget_tput_other _ _ _ h]

/-! ## Two changes of an entry that agree on what the entry is -/

theorem onRegion_congr (m : Mach) {r : Nat} {f g : Region → Region} (h : f (m.region r) = g (m.region r)) : m.onRegion r f = m.onRegion r g := by
  simp only [Mach.onRegion, h]

theorem onHub_congr (m : Mach) {r : Nat} {f g : Hub → Hub} (h : f (m.hub r) = g (m.hub r)) : m.onHub r f = m.onHub r g := by
  simp only [Mach.onHub, h]

theorem onPort_congr (m : Mach) {r : Nat} {f g : Port → Port} (h : f (m.port r) = g (m.port r)) : m.onPort r f = m.onPort r g := by
  simp only [Mach.onPort, h]

theorem onFn_congr (m : Mach) {r : Nat} {f g : Func → Func} (h : f (m.fn r) = g (m.fn r)) : m.onFn r f = m.onFn r g := by
  simp only [Mach.onFn, h]

theorem onSession_congr (m : Mach) {r : Nat} {f g : Session → Session} (h : f (m.session r) = g (m.session r)) : m.onSession r f = m.onSession r g := by
  simp only [Mach.onSession, h]

theorem onChan_congr (m : Mach) {r c : Nat} {f g : Chan → Chan} (h : f (m.chan r c) = g (m.chan r c)) : m.onChan r c f = m.onChan r c g := by
  simp only [Mach.onChan, h]

theorem onDie_congr (m : Mach) {r c : Nat} {f g : Die → Die} (h : f (m.die r c) = g (m.die r c)) : m.onDie r c f = m.onDie r c g := by
  simp only [Mach.onDie, h]

theorem onQueue_congr (m : Mach) {r c : Nat} {f g : Queue → Queue} (h : f (m.queue r c) = g (m.queue r c)) : m.onQueue r c f = m.onQueue r c g := by
  simp only [Mach.onQueue, h]

theorem onClient_congr (m : Mach) {r : Nat} {f g : Client → Client} (h : f (m.client r) = g (m.client r)) : m.onClient r f = m.onClient r g := by
  simp only [Mach.onClient, h]

theorem onExtent_congr (m : Mach) {r : Nat} {f g : Extent → Extent} (h : f (m.extent r) = g (m.extent r)) : m.onExtent r f = m.onExtent r g := by
  simp only [Mach.onExtent, h]

end Sys2Proof.Machine
end

