-- ==== Sys2Proof/Laws/Exec.lean ====
section
/-! SUPPORT. How a command acts on the state: the three gates of Machine/Ops.lean, once each. -/

namespace Sys2Proof.Machine

variable {s : State} {f : Mach → Mach} {ok : Bool}

theorem app_bad (h : ok = false) : s.app ok f = .fault .noSuchUnit := by simp [State.app, h]

theorem app_ok (h : ok = true) : s.app ok f = .next { s with m := f s.m } := by simp [State.app, h]

theorem app_data (h : ok = true) (hu : s.m.up = true) : s.app ok (Mach.dataRun f) = .next { s with m := f s.m } := by
  simp [State.app, h, Mach.dataRun, hu]

theorem app_unit (h : ok = true) (hu : s.m.alive = true) : s.app ok (Mach.aliveRun f) = .next { s with m := f s.m } := by
  simp [State.app, h, Mach.aliveRun, hu]

theorem app_awake (h : ok = true) (hu : s.m.awake = true) : s.app ok (Mach.run f) = .next { s with m := f s.m } := by
  simp [State.app, h, Mach.run, hu]

theorem app_data_stopped (h : ok = true) (hu : s.m.up = false) : s.app ok (Mach.dataRun f) = .next s := by
  simp [State.app, h, Mach.dataRun, hu]

theorem app_unit_stopped (h : ok = true) (hu : s.m.alive = false) : s.app ok (Mach.aliveRun f) = .next s := by
  simp [State.app, h, Mach.aliveRun, hu]

theorem app_awake_stopped (h : ok = true) (hu : s.m.awake = false) : s.app ok (Mach.run f) = .next s := by
  simp [State.app, h, Mach.run, hu]

theorem up_awake (m : Mach) (h : m.up = true) : m.awake = true := by
  simp only [Mach.up, Mach.awake, Bool.and_eq_true, decide_eq_true_eq] at h ⊢
  simp [h.1.1]

theorem up_alive (m : Mach) (h : m.up = true) : m.alive = true := by
  have ha := up_awake m h
  simp only [Mach.up, Mach.alive, Bool.and_eq_true] at h ⊢
  exact ⟨ha, h.1.2⟩


/-! ## The dispatcher, one constructor at a time -/

@[simp] theorem exec_resetNAssert (ns : Nat) (s : State) : exec (.resetNAssert ns) s = execResetNAssert ns s := rfl
@[simp] theorem exec_resetNRelease (b : BootIn) (s : State) : exec (.resetNRelease b) s = execResetNRelease b s := rfl
@[simp] theorem exec_channelTrainingDone (r c : Nat) (ok : Bool) (s : State) : exec (.channelTrainingDone r c ok) s = execChannelTrainingDone r c ok s := rfl
@[simp] theorem exec_memoryActive (s : State) : exec (.memoryActive) s = execMemoryActive s := rfl
@[simp] theorem exec_startupContainmentExit (k : Nat) (s : State) : exec (.startupContainmentExit k) s = execStartupContainmentExit k s := rfl
@[simp] theorem exec_arcadeFlitInject (src dst : Nat) (vc : VC) (pitch addr : Nat) (words : List CWord) (s : State) : exec (.arcadeFlitInject src dst vc pitch addr words) s = execArcadeFlitInject src dst vc pitch addr words s := rfl
@[simp] theorem exec_arcadeFlitHop (id : Nat) (flips : List (Nat × BitVec 272)) (s : State) : exec (.arcadeFlitHop id flips) s = execArcadeFlitHop id flips s := rfl
@[simp] theorem exec_arcadeCreditReturn (src dst : Nat) (vc : VC) (n : Nat) (s : State) : exec (.arcadeCreditReturn src dst vc n) s = execArcadeCreditReturn src dst vc n s := rfl
@[simp] theorem exec_cellGrant (r cell : Nat) (t : CellTurn) (s : State) : exec (.cellGrant r cell t) s = execCellGrant r cell t s := rfl
@[simp] theorem exec_blockGrant (r b : Nat) (t : BlockTurn) (s : State) : exec (.blockGrant r b t) s = execBlockGrant r b t s := rfl
@[simp] theorem exec_hubIngressAdmit (t : HubTurn) (s : State) : exec (.hubIngressAdmit t) s = execHubIngressAdmit t s := rfl
@[simp] theorem exec_memrd (f : Nat) (mv : MetaVal) (hpa : BitVec 64) (tag : HostTag) (s : State) : exec (.memrd f mv hpa tag) s = execMemrd f mv hpa tag s := rfl
@[simp] theorem exec_memrddata (f : Nat) (hpa : BitVec 64) (tag : HostTag) (s : State) : exec (.memrddata f hpa tag) s = execMemrddata f hpa tag s := rfl
@[simp] theorem exec_meminv (f : Nat) (mv : MetaVal) (hpa : BitVec 64) (tag : HostTag) (s : State) : exec (.meminv f mv hpa tag) s = execMeminv f mv hpa tag s := rfl
@[simp] theorem exec_memclnevct (f : Nat) (hpa : BitVec 64) (tag : HostTag) (s : State) : exec (.memclnevct f hpa tag) s = execMemclnevct f hpa tag s := rfl
@[simp] theorem exec_memwr (f : Nat) (mv : MetaVal) (hpa : BitVec 64) (tag : HostTag) (data : Line) (poison : Bool) (s : State) : exec (.memwr f mv hpa tag data poison) s = execMemwr f mv hpa tag data poison s := rfl
@[simp] theorem exec_memwrptl (f : Nat) (mv : MetaVal) (hpa : BitVec 64) (tag : HostTag) (data : Line) (be : BitVec 64) (poison : Bool) (s : State) : exec (.memwrptl f mv hpa tag data be poison) s = execMemwrptl f mv hpa tag data be poison s := rfl
@[simp] theorem exec_memspecrd (f : Nat) (hpa : BitVec 64) (s : State) : exec (.memspecrd f hpa) s = execMemspecrd f hpa s := rfl
@[simp] theorem exec_biconflict (f : Nat) (hpa : BitVec 64) (tag : HostTag) (s : State) : exec (.biconflict f hpa tag) s = execBiconflict f hpa tag s := rfl
@[simp] theorem exec_birspi (f line : Nat) (wb : Option Line) (s : State) : exec (.birspi f line wb) s = execBirspi f line wb s := rfl
@[simp] theorem exec_birsps (f line : Nat) (wb : Option Line) (s : State) : exec (.birsps f line wb) s = execBirsps f line wb s := rfl
@[simp] theorem exec_birspe (f line : Nat) (wb : Option Line) (s : State) : exec (.birspe f line wb) s = execBirspe f line wb s := rfl
@[simp] theorem exec_birspiblk (f line : Nat) (s : State) : exec (.birspiblk f line) s = execBirspiblk f line s := rfl
@[simp] theorem exec_unsupportedMemMessage (f opcode : Nat) (isRead : Bool) (tag : HostTag) (s : State) : exec (.unsupportedMemMessage f opcode isRead tag) s = execUnsupportedMemMessage f opcode isRead tag s := rfl
@[simp] theorem exec_recallTimeout (r line f : Nat) (s : State) : exec (.recallTimeout r line f) s = execRecallTimeout r line f s := rfl
@[simp] theorem exec_t0PageGrant (r : Nat) (s : State) : exec (.t0PageGrant r) s = execT0PageGrant r s := rfl
@[simp] theorem exec_descriptorMissFill (r : Nat) (l : LineRead) (s : State) : exec (.descriptorMissFill r l) s = execDescriptorMissFill r l s := rfl
@[simp] theorem exec_refForward (req : Nat) (s : State) : exec (.refForward req) s = execRefForward req s := rfl
@[simp] theorem exec_sectorAccess (r c : Nat) (s : State) : exec (.sectorAccess r c) s = execSectorAccess r c s := rfl
@[simp] theorem exec_unfoldDone (r job : Nat) (s : State) : exec (.unfoldDone r job) s = execUnfoldDone r job s := rfl
@[simp] theorem exec_foldDone (r move : Nat) (s : State) : exec (.foldDone r move) s = execFoldDone r move s := rfl
@[simp] theorem exec_bell (r : Nat) (s : State) : exec (.bell r) s = execBell r s := rfl
@[simp] theorem exec_moveStart (r : Nat) (s : State) : exec (.moveStart r) s = execMoveStart r s := rfl
@[simp] theorem exec_moveComplete (r move : Nat) (s : State) : exec (.moveComplete r move) s = execMoveComplete r move s := rfl
@[simp] theorem exec_accessReport (r handle : Nat) (s : State) : exec (.accessReport r handle) s = execAccessReport r handle s := rfl
@[simp] theorem exec_slotLoanRequest (r p : Nat) (s : State) : exec (.slotLoanRequest r p) s = execSlotLoanRequest r p s := rfl
@[simp] theorem exec_priorityLevelUpdate (r : Nat) (s : State) : exec (.priorityLevelUpdate r) s = execPriorityLevelUpdate r s := rfl
@[simp] theorem exec_requestAgeEscalate (r req : Nat) (s : State) : exec (.requestAgeEscalate r req) s = execRequestAgeEscalate r req s := rfl
@[simp] theorem exec_reattachPeriodEnd (r p : Nat) (s : State) : exec (.reattachPeriodEnd r p) s = execReattachPeriodEnd r p s := rfl
@[simp] theorem exec_reattachend (h : MHdr) (p : Nat) (v : OVal) (s : State) : exec (.reattachend h p v) s = execReattachend h p v s := rfl
@[simp] theorem exec_create (d : Nat) (s : State) : exec (.create d) s = execCreate d s := rfl
@[simp] theorem exec_destroy (d : Nat) (s : State) : exec (.destroy d) s = execDestroy d s := rfl
@[simp] theorem exec_setattr (d : Nat) (s : State) : exec (.setattr d) s = execSetattr d s := rfl
@[simp] theorem exec_publish (d : Nat) (s : State) : exec (.publish d) s = execPublish d s := rfl
@[simp] theorem exec_publishConvert (handle : Nat) (s : State) : exec (.publishConvert handle) s = execPublishConvert handle s := rfl
@[simp] theorem exec_drop (d : Nat) (s : State) : exec (.drop d) s = execDrop d s := rfl
@[simp] theorem exec_openv (d : Nat) (s : State) : exec (.openv d) s = execOpenv d s := rfl
@[simp] theorem exec_close (d : Nat) (s : State) : exec (.close d) s = execClose d s := rfl
@[simp] theorem exec_fork (d : Nat) (s : State) : exec (.fork d) s = execFork d s := rfl
@[simp] theorem exec_park (d : Nat) (s : State) : exec (.park d) s = execPark d s := rfl
@[simp] theorem exec_manifestSeal (handle : Nat) (s : State) : exec (.manifestSeal handle) s = execManifestSeal handle s := rfl
@[simp] theorem exec_resume (d : Nat) (s : State) : exec (.resume d) s = execResume d s := rfl
@[simp] theorem exec_expire (d : Nat) (s : State) : exec (.expire d) s = execExpire d s := rfl
@[simp] theorem exec_reattach (d : Nat) (hdr : BitVec 4096) (body : List Byte) (s : State) : exec (.reattach d hdr body) s = execReattach d hdr body s := rfl
@[simp] theorem exec_sessionOpResume (handle : Nat) (s : State) : exec (.sessionOpResume handle) s = execSessionOpResume handle s := rfl
@[simp] theorem exec_detachHoldExpire (p mloc : Nat) (s : State) : exec (.detachHoldExpire p mloc) s = execDetachHoldExpire p mloc s := rfl
@[simp] theorem exec_nop (d : Nat) (s : State) : exec (.nop d) s = execNop d s := rfl
@[simp] theorem exec_fence (d : Nat) (s : State) : exec (.fence d) s = execFence d s := rfl
@[simp] theorem exec_attend (d : Nat) (s : State) : exec (.attend d) s = execAttend d s := rfl
@[simp] theorem exec_merge (d : Nat) (s : State) : exec (.merge d) s = execMerge d s := rfl
@[simp] theorem exec_sift (d : Nat) (s : State) : exec (.sift d) s = execSift d s := rfl
@[simp] theorem exec_reduce (d : Nat) (s : State) : exec (.reduce d) s = execReduce d s := rfl
@[simp] theorem exec_compare (d : Nat) (s : State) : exec (.compare d) s = execCompare d s := rfl
@[simp] theorem exec_fill (d : Nat) (s : State) : exec (.fill d) s = execFill d s := rfl
@[simp] theorem exec_copy (d : Nat) (s : State) : exec (.copy d) s = execCopy d s := rfl
@[simp] theorem exec_tallyDispatch (r : Nat) (s : State) : exec (.tallyDispatch r) s = execTallyDispatch r s := rfl
@[simp] theorem exec_tallyRegionResult (r d : Nat) (s : State) : exec (.tallyRegionResult r d) s = execTallyRegionResult r d s := rfl
@[simp] theorem exec_queueCreate (f : Nat) (s : State) : exec (.queueCreate f) s = execQueueCreate f s := rfl
@[simp] theorem exec_queueDelete (f : Nat) (s : State) : exec (.queueDelete f) s = execQueueDelete f s := rfl
@[simp] theorem exec_sqtail (f q : Nat) (v : BitVec 64) (s : State) : exec (.sqtail f q v) s = execSqtail f q v s := rfl
@[simp] theorem exec_cqhead (f q : Nat) (v : BitVec 64) (s : State) : exec (.cqhead f q v) s = execCqhead f q v s := rfl
@[simp] theorem exec_descriptorFetch (h p : Nat) (s : State) : exec (.descriptorFetch h p) s = execDescriptorFetch h p s := rfl
@[simp] theorem exec_fetchComplete (k tag : Nat) (words : List RWord) (s : State) : exec (.fetchComplete k tag words) s = execFetchComplete k tag words s := rfl
@[simp] theorem exec_irqDelayExpire (f q : Nat) (s : State) : exec (.irqDelayExpire f q) s = execIrqDelayExpire f q s := rfl
@[simp] theorem exec_deadlineExpire (d : Nat) (s : State) : exec (.deadlineExpire d) s = execDeadlineExpire d s := rfl
@[simp] theorem exec_extadd (h : MHdr) (p : Nat) (v : OVal) (s : State) : exec (.extadd h p v) s = execExtadd h p v s := rfl
@[simp] theorem exec_extgrant (h : MHdr) (p : Nat) (v : OVal) (s : State) : exec (.extgrant h p v) s = execExtgrant h p v s := rfl
@[simp] theorem exec_extrel (h : MHdr) (p : Nat) (v : OVal) (s : State) : exec (.extrel h p v) s = execExtrel h p v s := rfl
@[simp] theorem exec_addDynamicCapacityResponse (f : Nat) (exts : List Nat) (s : State) : exec (.addDynamicCapacityResponse f exts) s = execAddDynamicCapacityResponse f exts s := rfl
@[simp] theorem exec_releaseDynamicCapacity (f e : Nat) (s : State) : exec (.releaseDynamicCapacity f e) s = execReleaseDynamicCapacity f e s := rfl
@[simp] theorem exec_offerTimeout (e f : Nat) (s : State) : exec (.offerTimeout e f) s = execOfferTimeout e f s := rfl
@[simp] theorem exec_releaseRecallStart (r e : Nat) (s : State) : exec (.releaseRecallStart r e) s = execReleaseRecallStart r e s := rfl
@[simp] theorem exec_releaseClear (e : Nat) (s : State) : exec (.releaseClear e) s = execReleaseClear e s := rfl
@[simp] theorem exec_renew (f : Nat) (v : BitVec 64) (s : State) : exec (.renew f v) s = execRenew f v s := rfl
@[simp] theorem exec_leaserenew (h : MHdr) (k ld : Nat) (v : OVal) (s : State) : exec (.leaserenew h k ld v) s = execLeaserenew h k ld v s := rfl
@[simp] theorem exec_leaseExpire (f : Nat) (s : State) : exec (.leaseExpire f) s = execLeaseExpire f s := rfl
@[simp] theorem exec_leaseExpired (f : Nat) (s : State) : exec (.leaseExpired f) s = execLeaseExpired f s := rfl
@[simp] theorem exec_leaseLow (f : Nat) (s : State) : exec (.leaseLow f) s = execLeaseLow f s := rfl
@[simp] theorem exec_retireack (f : Nat) (v : BitVec 64) (s : State) : exec (.retireack f v) s = execRetireack f v s := rfl
@[simp] theorem exec_retirementSweepStart (ticket f : Nat) (s : State) : exec (.retirementSweepStart ticket f) s = execRetirementSweepStart ticket f s := rfl
@[simp] theorem exec_blockSnoopTimeout (ticket f : Nat) (s : State) : exec (.blockSnoopTimeout ticket f) s = execBlockSnoopTimeout ticket f s := rfl
@[simp] theorem exec_derateApply (s : State) : exec (.derateApply) s = execDerateApply s := rfl
@[simp] theorem exec_powerCapWindow (pwr : Nat) (s : State) : exec (.powerCapWindow pwr) s = execPowerCapWindow pwr s := rfl
@[simp] theorem exec_lossOfLight (k : Nat) (lanes : BitVec 16) (x : Reading) (s : State) : exec (.lossOfLight k lanes x) s = execLossOfLight k lanes x s := rfl
@[simp] theorem exec_lightRestored (k : Nat) (lanes : BitVec 16) (x : Reading) (s : State) : exec (.lightRestored k lanes x) s = execLightRestored k lanes x s := rfl
@[simp] theorem exec_laserLossDeclare (k i : Nat) (waves : BitVec 4) (x : Reading) (s : State) : exec (.laserLossDeclare k i waves x) s = execLaserLossDeclare k i waves x s := rfl
@[simp] theorem exec_laserRestored (k i : Nat) (x : Reading) (s : State) : exec (.laserRestored k i x) s = execLaserRestored k i x s := rfl
@[simp] theorem exec_linkTraining (k : Nat) (t : TrainIn) (s : State) : exec (.linkTraining k t) s = execLinkTraining k t s := rfl
@[simp] theorem exec_retrainTimer (k : Nat) (s : State) : exec (.retrainTimer k) s = execRetrainTimer k s := rfl
@[simp] theorem exec_flitReceive (k corrected : Nat) (crcOk : Bool) (s : State) : exec (.flitReceive k corrected crcOk) s = execFlitReceive k corrected crcOk s := rfl
@[simp] theorem exec_linkRecoveryEntry (k : Nat) (s : State) : exec (.linkRecoveryEntry k) s = execLinkRecoveryEntry k s := rfl
@[simp] theorem exec_recoveryExit (k rate width : Nat) (l0 : Bool) (s : State) : exec (.recoveryExit k rate width l0) s = execRecoveryExit k rate width l0 s := rfl
@[simp] theorem exec_ideIntegrityFail (k stream : Nat) (s : State) : exec (.ideIntegrityFail k stream) s = execIdeIntegrityFail k stream s := rfl
@[simp] theorem exec_hotReset (k : Nat) (s : State) : exec (.hotReset k) s = execHotReset k s := rfl
@[simp] theorem exec_release (h : MHdr) (k : Nat) (v : OVal) (s : State) : exec (.release h k v) s = execRelease h k v s := rfl
@[simp] theorem exec_doeDiscovery (mb : Mbx) (index : Nat) (s : State) : exec (.doeDiscovery mb index) s = execDoeDiscovery mb index s := rfl
@[simp] theorem exec_cdatTableAccess (mb : Mbx) (s : State) : exec (.cdatTableAccess mb) s = execCdatTableAccess mb s := rfl
@[simp] theorem exec_cmaSpdm (mb : Mbx) (q : SpdmIn) (s : State) : exec (.cmaSpdm mb q) s = execCmaSpdm mb q s := rfl
@[simp] theorem exec_keyProg (k set : Nat) (key : BitVec 256) (s : State) : exec (.keyProg k set key) s = execKeyProg k set key s := rfl
@[simp] theorem exec_kSetGo (k : Nat) (cxl : Bool) (set : Nat) (s : State) : exec (.kSetGo k cxl set) s = execKSetGo k cxl set s := rfl
@[simp] theorem exec_kSetStop (k : Nat) (cxl : Bool) (set : Nat) (s : State) : exec (.kSetStop k cxl set) s = execKSetStop k cxl set s := rfl
@[simp] theorem exec_cxlIdeKeyProg (k set : Nat) (key : BitVec 256) (s : State) : exec (.cxlIdeKeyProg k set key) s = execCxlIdeKeyProg k set key s := rfl
@[simp] theorem exec_getLdInfo (k : Nat) (s : State) : exec (.getLdInfo k) s = execGetLdInfo k s := rfl
@[simp] theorem exec_fmIdentify (k : Nat) (s : State) : exec (.fmIdentify k) s = execFmIdentify k s := rfl
@[simp] theorem exec_getLdAllocations (k : Nat) (s : State) : exec (.getLdAllocations k) s = execGetLdAllocations k s := rfl
@[simp] theorem exec_setLdAllocations (k : Nat) (s : State) : exec (.setLdAllocations k) s = execSetLdAllocations k s := rfl
@[simp] theorem exec_identify (f : Nat) (s : State) : exec (.identify f) s = execIdentify f s := rfl
@[simp] theorem exec_getSupportedLogs (f : Nat) (s : State) : exec (.getSupportedLogs f) s = execGetSupportedLogs f s := rfl
@[simp] theorem exec_getLog (f : Nat) (cel : Bool) (s : State) : exec (.getLog f cel) s = execGetLog f cel s := rfl
@[simp] theorem exec_getEventRecords (f log : Nat) (s : State) : exec (.getEventRecords f log) s = execGetEventRecords f log s := rfl
@[simp] theorem exec_clearEventRecords (f log n : Nat) (s : State) : exec (.clearEventRecords f log n) s = execClearEventRecords f log n s := rfl
@[simp] theorem exec_getEventInterruptPolicy (f : Nat) (s : State) : exec (.getEventInterruptPolicy f) s = execGetEventInterruptPolicy f s := rfl
@[simp] theorem exec_setEventInterruptPolicy (f : Nat) (noInterrupts : Bool) (s : State) : exec (.setEventInterruptPolicy f noInterrupts) s = execSetEventInterruptPolicy f noInterrupts s := rfl
@[simp] theorem exec_getDcConfiguration (f : Nat) (s : State) : exec (.getDcConfiguration f) s = execGetDcConfiguration f s := rfl
@[simp] theorem exec_getDcExtentList (f : Nat) (s : State) : exec (.getDcExtentList f) s = execGetDcExtentList f s := rfl
@[simp] theorem exec_unsupportedMailboxCommand (f opcode : Nat) (s : State) : exec (.unsupportedMailboxCommand f opcode) s = execUnsupportedMailboxCommand f opcode s := rfl
@[simp] theorem exec_dictionaryMessage (k : Nat) (h : MHdr) (msg : DMsg) (len : Nat) (s : State) : exec (.dictionaryMessage k h msg len) s = execDictionaryMessage k h msg len s := rfl
@[simp] theorem exec_dictionaryEvents (k client n : Nat) (s : State) : exec (.dictionaryEvents k client n) s = execDictionaryEvents k client n s := rfl
@[simp] theorem exec_busMasterEnable (f : Nat) (b : Bool) (s : State) : exec (.busMasterEnable f b) s = execBusMasterEnable f b s := rfl
@[simp] theorem exec_interruptDisable (f : Nat) (b : Bool) (s : State) : exec (.interruptDisable f b) s = execInterruptDisable f b s := rfl
@[simp] theorem exec_initiateFlr (f : Nat) (s : State) : exec (.initiateFlr f) s = execInitiateFlr f s := rfl
@[simp] theorem exec_flrReady (f : Nat) (s : State) : exec (.flrReady f) s = execFlrReady f s := rfl
@[simp] theorem exec_hdmDecoderCommit (f i : Nat) (base size skip : BitVec 64) (ways : Nat) (s : State) : exec (.hdmDecoderCommit f i base size skip ways) s = execHdmDecoderCommit f i base size skip ways s := rfl
@[simp] theorem exec_intxUpdate (f : Nat) (s : State) : exec (.intxUpdate f) s = execIntxUpdate f s := rfl
@[simp] theorem exec_ltrSend (k : Nat) (s : State) : exec (.ltrSend k) s = execLtrSend k s := rfl
@[simp] theorem exec_intstatClear (f : Nat) (v : BitVec 64) (s : State) : exec (.intstatClear f v) s = execIntstatClear f v s := rfl
@[simp] theorem exec_registerWrite (t : RegTarget) (v : BitVec 64) (s : State) : exec (.registerWrite t v) s = execRegisterWrite t v s := rfl
@[simp] theorem exec_readCompletion (k tag : Nat) (st : CplStatus) (off : Nat) (words : List RWord) (s : State) : exec (.readCompletion k tag st off words) s = execReadCompletion k tag st off words s := rfl
@[simp] theorem exec_completionTimeout (k tag : Nat) (s : State) : exec (.completionTimeout k tag) s = execCompletionTimeout k tag s := rfl
@[simp] theorem exec_tagQuarantineEnd (k tag : Nat) (s : State) : exec (.tagQuarantineEnd k tag) s = execTagQuarantineEnd k tag s := rfl
@[simp] theorem exec_writeCompletion (k id : Nat) (st : CplStatus) (s : State) : exec (.writeCompletion k id st) s = execWriteCompletion k id st s := rfl
@[simp] theorem exec_writeTimeout (k id : Nat) (s : State) : exec (.writeTimeout k id) s = execWriteTimeout k id s := rfl
@[simp] theorem exec_refreshTick (r c : Nat) (s : State) : exec (.refreshTick r c) s = execRefreshTick r c s := rfl
@[simp] theorem exec_refreshIssue (r c : Nat) (s : State) : exec (.refreshIssue r c) s = execRefreshIssue r c s := rfl
@[simp] theorem exec_refreshWindowEnd (r c : Nat) (s : State) : exec (.refreshWindowEnd r c) s = execRefreshWindowEnd r c s := rfl
@[simp] theorem exec_temperatureReading (r die : Nat) (degC : Int) (s : State) : exec (.temperatureReading r die degC) s = execTemperatureReading r die degC s := rfl
@[simp] theorem exec_retrainDone (r c : Nat) (ok : Bool) (s : State) : exec (.retrainDone r c ok) s = execRetrainDone r c ok s := rfl
@[simp] theorem exec_channelRetryDone (r c : Nat) (ok : Bool) (s : State) : exec (.channelRetryDone r c ok) s = execChannelRetryDone r c ok s := rfl
@[simp] theorem exec_channelFailSettle (r c : Nat) (s : State) : exec (.channelFailSettle r c) s = execChannelFailSettle r c s := rfl
@[simp] theorem exec_leakyBucketLeak (b : OuterBucket) (s : State) : exec (.leakyBucketLeak b) s = execLeakyBucketLeak b s := rfl
@[simp] theorem exec_injarm (h : MHdr) (v : OVal) (s : State) : exec (.injarm h v) s = execInjarm h v s := rfl
@[simp] theorem exec_wakeRequest (d : Domain) (s : State) : exec (.wakeRequest d) s = execWakeRequest d s := rfl
@[simp] theorem exec_hello (h : MHdr) (vmin vmax : Nat) (probe : Bool) (s : State) : exec (.hello h vmin vmax probe) s = execHello h vmin vmax probe s := rfl
@[simp] theorem exec_read (h : MHdr) (staged : Bool) (entries : List (Nat × Nat)) (s : State) : exec (.read h staged entries) s = execRead h staged entries s := rfl
@[simp] theorem exec_write (h : MHdr) (entries : List WEntry) (s : State) : exec (.write h entries) s = execWrite h entries s := rfl
@[simp] theorem exec_readBlock (h : MHdr) (staged : Bool) (index sub offset count : Nat) (s : State) : exec (.readBlock h staged index sub offset count) s = execReadBlock h staged index sub offset count s := rfl
@[simp] theorem exec_writeBlock (h : MHdr) (index sub ty total offset : Nat) (piece : List Byte) (more : Bool) (s : State) : exec (.writeBlock h index sub ty total offset piece more) s = execWriteBlock h index sub ty total offset piece more s := rfl
@[simp] theorem exec_stage (h : MHdr) (mask : BitVec 16) (s : State) : exec (.stage h mask) s = execStage h mask s := rfl
@[simp] theorem exec_commit (h : MHdr) (expected : Nat) (s : State) : exec (.commit h expected) s = execCommit h expected s := rfl
@[simp] theorem exec_configInstall (hub : Bool) (u : Nat) (s : State) : exec (.configInstall hub u) s = execConfigInstall hub u s := rfl
@[simp] theorem exec_commitAcknowledged (s : State) : exec (.commitAcknowledged) s = execCommitAcknowledged s := rfl
@[simp] theorem exec_abort (h : MHdr) (s : State) : exec (.abort h) s = execAbort h s := rfl
@[simp] theorem exec_subscribe (h : MHdr) (classes : BitVec 32) (least : Nat) (pitches : BitVec 64) (s : State) : exec (.subscribe h classes least pitches) s = execSubscribe h classes least pitches s := rfl
@[simp] theorem exec_spdm (h : MHdr) (q : SpdmReq) (s : State) : exec (.spdm h q) s = execSpdm h q s := rfl
@[simp] theorem exec_secured (h : MHdr) (inner : DMsg) (s : State) : exec (.secured h inner) s = execSecured h inner s := rfl
@[simp] theorem exec_bye (h : MHdr) (s : State) : exec (.bye h) s = execBye h s := rfl
@[simp] theorem exec_malformedDatagram (src : Src) (why : DgramFault) (ty client seq : Nat) (s : State) : exec (.malformedDatagram src why ty client seq) s = execMalformedDatagram src why ty client seq s := rfl
@[simp] theorem exec_eventSend (client : Nat) (s : State) : exec (.eventSend client) s = execEventSend client s := rfl
@[simp] theorem exec_neighbourSolicitation (target : BitVec 128) (fromAddr : Nat) (s : State) : exec (.neighbourSolicitation target fromAddr) s = execNeighbourSolicitation target fromAddr s := rfl
@[simp] theorem exec_icmpv6Echo (fromAddr id seq : Nat) (payload : List Byte) (s : State) : exec (.icmpv6Echo fromAddr id seq payload) s = execIcmpv6Echo fromAddr id seq payload s := rfl
@[simp] theorem exec_duplicateAddressDetection (inUse : Bool) (s : State) : exec (.duplicateAddressDetection inUse) s = execDuplicateAddressDetection inUse s := rfl
@[simp] theorem exec_clientTimeout (client : Nat) (s : State) : exec (.clientTimeout client) s = execClientTimeout client s := rfl
@[simp] theorem exec_editTimeout (client : Nat) (s : State) : exec (.editTimeout client) s = execEditTimeout client s := rfl
@[simp] theorem exec_digestRecheck (r : Nat) (flagged : Bool) (s : State) : exec (.digestRecheck r flagged) s = execDigestRecheck r flagged s := rfl
@[simp] theorem exec_eqread (h : MHdr) (p : Nat) (s : State) : exec (.eqread h p) s = execEqread h p s := rfl
@[simp] theorem exec_counterWrite (h : MHdr) (index sub : Nat) (v : OVal) (s : State) : exec (.counterWrite h index sub v) s = execCounterWrite h index sub v s := rfl
@[simp] theorem exec_deficitClear (h : MHdr) (v : OVal) (s : State) : exec (.deficitClear h v) s = execDeficitClear h v s := rfl
@[simp] theorem exec_optevtClear (h : MHdr) (k : Nat) (v : OVal) (s : State) : exec (.optevtClear h k v) s = execOptevtClear h k v s := rfl
@[simp] theorem exec_g7evtClear (h : MHdr) (r : Nat) (v : OVal) (s : State) : exec (.g7evtClear h r v) s = execG7evtClear h r v s := rfl
@[simp] theorem exec_alarmstatClear (h : MHdr) (v : OVal) (s : State) : exec (.alarmstatClear h v) s = execAlarmstatClear h v s := rfl
@[simp] theorem exec_restart (h : MHdr) (r : Nat) (v : OVal) (s : State) : exec (.restart h r v) s = execRestart h r v s := rfl
@[simp] theorem exec_regionRestartDone (r : Nat) (bad : List (Nat × Nat)) (s : State) : exec (.regionRestartDone r bad) s = execRegionRestartDone r bad s := rfl
@[simp] theorem exec_drain (h : MHdr) (p : Nat) (v : OVal) (s : State) : exec (.drain h p v) s = execDrain h p v s := rfl
@[simp] theorem exec_drainRelease (h : MHdr) (p : Nat) (v : OVal) (s : State) : exec (.drainRelease h p v) s = execDrainRelease h p v s := rfl
@[simp] theorem exec_clear (h : MHdr) (p : Nat) (v : OVal) (s : State) : exec (.clear h p v) s = execClear h p v s := rfl
@[simp] theorem exec_wrapkey (h : MHdr) (p : Nat) (v : OVal) (s : State) : exec (.wrapkey h p v) s = execWrapkey h p v s := rfl
@[simp] theorem exec_fwimage (h : MHdr) (total offset : Nat) (piece : List Byte) (more : Bool) (s : State) : exec (.fwimage h total offset piece more) s = execFwimage h total offset piece more s := rfl
@[simp] theorem exec_fwVerify (h : MHdr) (s : State) : exec (.fwVerify h) s = execFwVerify h s := rfl
@[simp] theorem exec_fwActivate (h : MHdr) (flashOk : Bool) (s : State) : exec (.fwActivate h flashOk) s = execFwActivate h flashOk s := rfl
@[simp] theorem exec_fwDiscard (h : MHdr) (s : State) : exec (.fwDiscard h) s = execFwDiscard h s := rfl
@[simp] theorem exec_hubReloadReady (hub : Nat) (s : State) : exec (.hubReloadReady hub) s = execHubReloadReady hub s := rfl
@[simp] theorem exec_microcodeRollDone (r : Nat) (s : State) : exec (.microcodeRollDone r) s = execMicrocodeRollDone r s := rfl
@[simp] theorem exec_rollTimeout (s : State) : exec (.rollTimeout) s = execRollTimeout s := rfl
@[simp] theorem exec_dbgopen (h : MHdr) (v : OVal) (s : State) : exec (.dbgopen h v) s = execDbgopen h v s := rfl
@[simp] theorem exec_securityAlarm (classes : BitVec 4) (s : State) : exec (.securityAlarm classes) s = execSecurityAlarm classes s := rfl
@[simp] theorem exec_zeroized (s : State) : exec (.zeroized) s = execZeroized s := rfl
@[simp] theorem exec_fuseRecheck (ok : Bool) (s : State) : exec (.fuseRecheck ok) s = execFuseRecheck ok s := rfl
@[simp] theorem exec_d2dTagCheck (ok : Bool) (s : State) : exec (.d2dTagCheck ok) s = execD2dTagCheck ok s := rfl
@[simp] theorem exec_stewardClaim (h src : Nat) (s : State) : exec (.stewardClaim h src) s = execStewardClaim h src s := rfl
@[simp] theorem exec_stewardElectionWin (h : Nat) (s : State) : exec (.stewardElectionWin h) s = execStewardElectionWin h s := rfl
@[simp] theorem exec_stewardRenewal (s : State) : exec (.stewardRenewal) s = execStewardRenewal s := rfl
@[simp] theorem exec_stewardLeaseExpire (h : Nat) (s : State) : exec (.stewardLeaseExpire h) s = execStewardLeaseExpire h s := rfl
@[simp] theorem exec_watchdogExpire (h : Nat) (s : State) : exec (.watchdogExpire h) s = execWatchdogExpire h s := rfl
@[simp] theorem exec_leaseDeferredExpire (f : Nat) (s : State) : exec (.leaseDeferredExpire f) s = execLeaseDeferredExpire f s := rfl
@[simp] theorem exec_regionWatchdog (r : Nat) (s : State) : exec (.regionWatchdog r) s = execRegionWatchdog r s := rfl
@[simp] theorem exec_referenceSweepDone (r fenced : Nat) (s : State) : exec (.referenceSweepDone r fenced) s = execReferenceSweepDone r fenced s := rfl
@[simp] theorem exec_thermalReading (temps : List (DieId × Int)) (s : State) : exec (.thermalReading temps) s = execThermalReading temps s := rfl
@[simp] theorem exec_vddAonLoss (s : State) : exec (.vddAonLoss) s = execVddAonLoss s := rfl
@[simp] theorem exec_watchdogService (h : Nat) (s : State) : exec (.watchdogService h) s = execWatchdogService h s := rfl
@[simp] theorem exec_plcaBeacon (s : State) : exec (.plcaBeacon) s = execPlcaBeacon s := rfl
@[simp] theorem exec_linkLeavesL0 (k : Nat) (disabled : Bool) (s : State) : exec (.linkLeavesL0 k disabled) s = execLinkLeavesL0 k disabled s := rfl

end Sys2Proof.Machine
end

