-- ==== Sys2Proof/Laws/Gates.lean ====
section
/-! SUPPORT. How a command acts on the state: the three gates of Machine/Ops.lean, once each; and that every command goes through the
gate of its place, so that no later proof looks into the dispatcher for it. -/

namespace Sys2Proof.Machine

/-- The gate of a place. -/
def placeGate : Place → (Mach → Mach) → Mach → Mach
  | .data, f => Mach.dataRun f
  | .unit, f => Mach.aliveRun f
  | .awake, f => Mach.run f
  | .always, f => f
  | .none, _ => id

/-- The command is an effect behind the gate of its place, where it is well formed. -/
def Gated (c : Instr) : Prop := ∃ f : Mach → Mach, ∀ s, exec c s = s.app (c.wf s.m.fam) (placeGate c.place f)

theorem gated_data {c : Instr} (f : Mach → Mach) (h : ∀ s, exec c s = s.app (c.wf s.m.fam) (Mach.dataRun f)) (hp : c.place = .data) :
    Gated c := ⟨f, by rw [hp]; exact h⟩

theorem gated_unit {c : Instr} (f : Mach → Mach) (h : ∀ s, exec c s = s.app (c.wf s.m.fam) (Mach.aliveRun f)) (hp : c.place = .unit) :
    Gated c := ⟨f, by rw [hp]; exact h⟩

theorem gated_awake {c : Instr} (f : Mach → Mach) (h : ∀ s, exec c s = s.app (c.wf s.m.fam) (Mach.run f)) (hp : c.place = .awake) :
    Gated c := ⟨f, by rw [hp]; exact h⟩

theorem gated_always {c : Instr} (f : Mach → Mach) (h : ∀ s, exec c s = s.app (c.wf s.m.fam) f) (hp : c.place = .always) :
    Gated c := ⟨f, by rw [hp]; exact h⟩

theorem gated_none {c : Instr} (h : ∀ s, exec c s = s.app (c.wf s.m.fam) id) (hp : c.place = .none) : Gated c :=
  ⟨id, by rw [hp]; exact h⟩

/-- Every command goes through the gate of its place. -/
theorem exec_gated (c : Instr) : Gated c := by
  cases c
  case resetNRelease => exact gated_always _ (fun s => by rw [exec_resetNRelease, execResetNRelease]) rfl
  case vddAonLoss => exact gated_always _ (fun s => by rw [exec_vddAonLoss, execVddAonLoss]) rfl
  case memspecrd => exact gated_none (fun _ => rfl) rfl
  case resetNAssert | thermalReading => exact gated_awake _ (fun _ => rfl) rfl
  all_goals first
    | exact gated_data _ (fun _ => rfl) rfl
    | exact gated_unit _ (fun _ => rfl) rfl

/-- A fold that takes the element or keeps what it holds answers an element of the list, or what it held. -/
theorem pick_mem {α : Type} (f : Option α → α → Option α) (hf : ∀ b x, f b x = some x ∨ f b x = b) {x : α} :
    ∀ (l : List α) (b : Option α), l.foldl f b = some x → x ∈ l ∨ b = some x
  | [], _, h => .inr h
  | a :: l, b, h => by
    rcases pick_mem f hf l (f b a) h with h | h
    · exact .inl (List.mem_cons_of_mem a h)
    · rcases hf b a with e | e <;> rw [e] at h
      · cases h; exact .inl List.mem_cons_self
      · exact .inr h

/-- A block's choice is one of the requests it chose among. -/
theorem pickBy_mem {α : Type} {m : Mach} {r b : Nat} {prio : α → Nat × Nat} {l : List α} {x : α} (h : m.pickBy r b prio l = some x) : x ∈ l := by
  refine (pick_mem _ (fun b x => ?_) l none h).resolve_right (by simp)
  cases b with
  | none => exact .inl rfl
  | some y =>
    dsimp only
    split
    · exact .inl rfl
    · exact .inr rfl

end Sys2Proof.Machine
end

