-- ==== Sys2Proof/Laws/Ports.lean ====
section
/-! SUPPORT. What a port that may send does with a message. -/

namespace Sys2Proof.Machine

theorem linkUp_port {m : Mach} {k : Nat} (h : m.linkUp k = true) : (m.port k).contained = false ∧ (m.port k).lt = .l0 := by
  simp only [Mach.linkUp, Mach.normal, Bool.and_eq_true, Bool.not_eq_true', decide_eq_true_eq] at h
  exact h.1

theorem memOpen_linkUp {m : Mach} {k : Nat} (h : m.memOpen k = true) : m.linkUp k = true := by
  simp only [Mach.memOpen, Bool.and_eq_true] at h; exact h.1

theorem memOpen_ideOpen {m : Mach} {k : Nat} (h : m.memOpen k = true) : m.ideOpen k = true := by
  simp only [Mach.memOpen, Bool.and_eq_true] at h; exact h.2

theorem barOpen_linkUp {m : Mach} {f : Nat} (h : m.barOpen f = true) : m.linkUp (f / 16) = true := by
  simp only [Mach.barOpen, Mach.cfgOpen, Bool.and_eq_true] at h; exact h.1.1

/-- A message that needs no IDE stream leaves at once through a port whose link is up. -/
theorem portSend_up {m : Mach} {k : Nat} (o : Out) (h : m.linkUp k = true) (ho : o.needsIde = false) : m.portSend k o = m.send o := by
  have := linkUp_port h
  simp [Mach.portSend, this, ho]

/-- Any message leaves at once through a port that carries CXL.mem. -/
theorem portSend_mem {m : Mach} {k : Nat} (o : Out) (h : m.memOpen k = true) : m.portSend k o = m.send o := by
  have := linkUp_port (memOpen_linkUp h)
  simp [Mach.portSend, this, memOpen_ideOpen h]

/-- Error messages leave at once through a port whose link is up. -/
theorem aer_up {m : Mach} {k : Nat} (sev : Nat) (h : m.linkUp k = true) : m.aer k sev =
    m.sendAll (((List.range 16).filter fun i => (m.fn (16 * k + i)).errEn.getLsbD sev).map fun i => .err (16 * k + i) sev) := by
  have key (l : List Nat) (n : Mach) (hn : n.linkUp k = true) :
      n.each l (fun n i => n.portSend k (.err (16 * k + i) sev)) = n.sendAll (l.map fun i => .err (16 * k + i) sev) := by
    induction l generalizing n with
    | nil => simp [Mach.each, Mach.sendAll]
    | cons i l ih =>
      have := ih (n.send (.err (16 * k + i) sev)) hn
      simp only [Mach.each, List.foldl_cons, portSend_up (.err (16 * k + i) sev) hn rfl] at this ⊢
      rw [this]; simp [Mach.sendAll, Mach.send]
  exact key _ m h

/-- What an SPDM answer carries does not depend on the clients. -/
theorem spdmBody_onClient (m : Mach) (c : Nat) (f : Client → Client) (xfer : Nat) (q : SpdmReq) (code : Nat) :
    (m.onClient c f).spdmBody xfer q code = m.spdmBody xfer q code := by cases q <;> rfl

theorem send_memOpen (m : Mach) (o : Out) (k : Nat) : (m.send o).memOpen k = m.memOpen k := rfl
theorem count_memOpen (m : Mach) (i j n k : Nat) : (m.count i j n).memOpen k = m.memOpen k := rfl
theorem renumber_memOpen (m : Mach) (k : Nat) : m.renumber.memOpen k = m.memOpen k := rfl
theorem send_linkUp (m : Mach) (o : Out) (k : Nat) : (m.send o).linkUp k = m.linkUp k := rfl
theorem count_linkUp (m : Mach) (i j n k : Nat) : (m.count i j n).linkUp k = m.linkUp k := rfl

end Sys2Proof.Machine
end

