-- ==== Sys2Proof/Laws/Store.lean ====
section
/-! SUPPORT. The stores keep their canonical form under each of the four operations that write them: a T0 page's words as they stand, a
T0 page's words with a write's injection, a sector's words, and the loss of a region. -/

namespace Sys2Proof.Machine

theorem reset_store_wf : Memory.wf State.reset.m.store = true := rfl

theorem tabove_filter {α : Type} (p : Nat × α → Bool) (t : Tab α) (k : Nat) (h : tabove t k = true) : tabove (t.filter p) k = true := by
  induction t with
  | nil => rfl
  | cons e t ih =>
    simp only [tabove, Bool.and_eq_true] at h
    cases hp : p e <;> simp [hp, tabove, ih h.2]
    exact of_decide_eq_true h.1

theorem twf_filter {α : Type} [DecidableEq α] (d : α) (p : Nat × α → Bool) (t : Tab α) (h : twf d t = true) :
    twf d (t.filter p) = true := by
  induction t with
  | nil => rfl
  | cons e t ih =>
    simp only [twf, Bool.and_eq_true] at h
    cases hp : p e <;> simp [hp, twf, ih h.2, tabove_filter p t _ h.1.1]
    exact of_decide_eq_true h.1.2

@[simp] theorem putT0_store_wf (m : Mach) (r t w : Nat) (l : List CWord) (h : Memory.wf m.store = true) :
    Memory.wf (m.putT0 r t w l).store = true := by
  induction l generalizing m w with
  | nil => exact h
  | cons x l ih =>
    refine ih _ _ ?_
    simp only [Memory.wf, Bool.and_eq_true] at h ⊢
    exact ⟨twf_tput _ _ _ _ h.1, h.2⟩

@[simp] theorem record_store (m : Mach) (e : EvRec) : (m.record e).store = m.store := by
  have hw (n : Mach) (b : Bool) (i j k : Nat) : (n.when b fun m => m.count i j k).store = n.store := by cases b <;> rfl
  simp only [Mach.record]
  generalize hn : (m.count 0x8000 1 _).when _ _ = n
  have : n.store = m.store := by rw [← hn]; exact hw _ _ _ _ _
  exact this

@[simp] theorem logSev_store (m : Mach) (code sev pitch kind num data : Nat) :
    (m.logSev code sev pitch kind num data).store = m.store := by
  simp only [Mach.logSev]
  repeat' split
  all_goals first | exact record_store _ _ | rfl

@[simp] theorem injW_store (m : Mach) (t r b i p a : Nat) (x : CWord) : (m.injW t r b i p a x).1.store = m.store := by
  simp only [Mach.injW]
  split
  · simp only [Mach.injFire, Mach.log, logSev_store]; rfl
  · rfl

theorem when_store (m : Mach) (b : Bool) (f : Mach → Mach) (h : (f m).store = m.store) : (m.when b f).store = m.store := by
  cases b with
  | true => exact h
  | false => rfl

theorem each_store {α : Type} (l : List α) (f : Mach → α → Mach) (h : ∀ m a, (f m a).store = m.store) (m : Mach) :
    (m.each l f).store = m.store := by
  induction l generalizing m with
  | nil => rfl
  | cons a l ih => exact (ih _).trans (h m a)

@[simp] theorem refillBlock_store (m : Mach) (r b : Nat) : (m.refillBlock r b).store = m.store := by
  refine each_store _ _ (fun m p => ?_) m
  simp only [Mach.setCredit, onRegion_store]

@[simp] theorem chargeT0_store (m : Mach) (r t p n : Nat) : (m.chargeT0 r t p n).store = m.store := by
  simp only [Mach.chargeT0, Mach.chargeAlone, Mach.charge, Mach.setCredit, onRegion_store, Mach.refillFor]
  exact when_store _ _ _ (refillBlock_store _ _ _)

@[simp] theorem storeWords_store_wf (m : Mach) (r t p a w : Nat) (l : List CWord) (h : Memory.wf m.store = true) :
    Memory.wf (m.storeWords r t p a w l).store = true := by
  induction l generalizing m w with
  | nil => exact h
  | cons x l ih =>
    refine ih _ _ ?_
    rw [← injW_store m 0 r (t0Block (m.region r).tableBlock t) (t0Cell t) p (a + 32 * w) x] at h
    obtain ⟨h0, h1⟩ := (Bool.and_eq_true _ _).mp h
    exact (Bool.and_eq_true _ _).mpr ⟨twf_tput _ _ _ _ h0, h1⟩

@[simp] theorem storeT0_store_wf (m : Mach) (r t p a w : Nat) (l : List CWord) (h : Memory.wf m.store = true) :
    Memory.wf (m.storeT0 r t p a w l).store = true :=
  storeWords_store_wf _ _ _ _ _ _ _ (by rw [chargeT0_store]; exact h)

/-- The words of a sector write, before its move is told. -/
theorem sectorWords_store_wf (m : Mach) (r c q b : Nat) (a : Access) (l : List (Nat × CWord)) (h : Memory.wf m.store = true) :
    Memory.wf (m.each l fun m w =>
      let x := m.injW 1 r 0 c q b w.2
      x.1.onStore fun st => { st with t1 := tput st.t1 .poison (t1Key r a.sector w.1) x.2 }).store = true := by
  induction l generalizing m with
  | nil => exact h
  | cons w l ih =>
    refine ih _ ?_
    rw [← injW_store m 1 r 0 c q b w.2] at h
    obtain ⟨h0, h1⟩ := (Bool.and_eq_true _ _).mp h
    exact (Bool.and_eq_true _ _).mpr ⟨h0, twf_tput _ _ _ _ h1⟩

@[simp] theorem moveAck_store (m : Mach) (r v : Nat) : (m.moveAck r v).store = m.store := by
  simp only [Mach.moveAck]; repeat' split
  all_goals rfl

@[simp] theorem sectorWrite_store_wf (m : Mach) (r c : Nat) (a : Access) (h : Memory.wf m.store = true) :
    Memory.wf (m.sectorWrite r c a).store = true := by
  unfold Mach.sectorWrite
  cases a.move with
  | none => exact sectorWords_store_wf m r c _ _ a a.words h
  | some v => dsimp only; rw [moveAck_store]; exact sectorWords_store_wf m r c _ _ a a.words h

@[simp] theorem loseRegion_store_wf (m : Mach) (r : Nat) (h : Memory.wf m.store = true) : Memory.wf (m.loseRegion r).store = true := by
  simp only [Memory.wf, Bool.and_eq_true] at h ⊢
  exact ⟨twf_filter _ _ _ h.1, twf_filter _ _ _ h.2⟩

end Sys2Proof.Machine
end

