-- ==== Sys2Proof/Machine/RegView.lean ====
section
/-! DEFINITION. What a function's registers read as (R238 to R241, R245, R247): the configuration header, the capabilities, BAR0, the
Expansion ROM. No row of the table is a register read: these are functions of the state. -/

namespace Sys2Proof.Machine

/-! ## Configuration space -/

/-- Status (Table 10.1): Capabilities List, and Interrupt Status as R248 gives it. -/
def Mach.cfgStatus (m : Mach) (f : Nat) : Nat := 0x0010 + if m.intPending f then 8 else 0

/-- The header as (offset, bytes, value), offsets rising (R238, Table 10.1). -/
def Mach.cfgHeader (m : Mach) (f : Nat) : List (Nat × Nat × Nat) :=
  let x := m.fn f
  [(0x00, 2, 0x1F9C), (0x02, 2, (deviceId m.fam).toNat), (0x04, 2, x.command.toNat), (0x06, 2, m.cfgStatus f), (0x08, 1, 0x11),
    (0x09, 3, 0x050210), (0x0E, 1, 0), (0x10, 8, x.bar0.toNat), (0x18, 16, 0), (0x2C, 2, 0x1F9C), (0x2E, 2, f), (0x30, 4, x.romBar.toNat),
    (0x3C, 1, x.intLine.toNat), (0x3D, 1, 0x01)]

/-- A capability or DVSEC with what the spec says of it (Table 10.2). -/
inductive Capab where
  /-- D0 only -/
  | powerManagement
  /-- FLR capable, LTR supported, 10-bit and 14-bit tags as requester, Completion Timeout Ranges Supported -/
  | pciExpress (flr ltr tag10 tag14 : Bool) (ranges : Nat)
  | advancedErrors
  | dataLinkFeature
  /-- a physical-layer capability of a rate in GT/s -/
  | physicalLayer (rate : Nat)
  | latencyTolerance
  | dataObjectExchange
  | integrityEncryption
  /-- DVSEC 0; Memory_Active reads 1 from memory-active on (R373) -/
  | cxlDevices (hdmCount memHwInit : Nat) (mem cache viral memActive : Bool)
  /-- DVSEC 7 -/
  | flexBus (io mem mld flit256 pbr : Bool)
  /-- DVSEC 8: offsets in BAR0 of the component, device and vendor-specific blocks -/
  | registerLocator (component device vendor : Nat)
  /-- DVSEC of vendor 0x1F9C, ID 0x0001, revision 1 -/
  | plewen (port ld pitch gen : Nat) (ready : Bool)
  deriving DecidableEq, Repr

/-- The capabilities of function `f`, and no others (R239, Table 10.2). -/
def Mach.capabilities (m : Mach) (f : Nat) : List Capab :=
  [.powerManagement, .pciExpress (hasFlr m.fam) true true true 0, .advancedErrors, .dataLinkFeature, .physicalLayer 16,
    .physicalLayer 32, .physicalLayer 64, .physicalLayer 128, .latencyTolerance, .dataObjectExchange, .integrityEncryption,
    .cxlDevices 2 0 true false false (m.sys.phase = .active), .flexBus true true true true true, .registerLocator 0 0x10000 0x20000,
    .plewen (f / 16) (f % 16) (m.pitchOf f) ((m.hub (f / 16)).cfg.gen % 2 ^ 32) (m.funcReady f)]

/-- The Plewen function DVSEC's fields as (offset, bytes, value) (Table 10.2). -/
def Mach.plewenFields (m : Mach) (f : Nat) : List (Nat × Nat × Nat) :=
  [(0x0C, 2, f / 16 * 256 + f % 16), (0x0E, 2, m.pitchOf f), (0x10, 4, (m.hub (f / 16)).cfg.gen % 2 ^ 32), (0x14, 4, bit (m.funcReady f))]

/-! ## BAR0 (Table 10.3) -/

/-- The HDM decoder registers from `off` within their capability on (R241; the standard's layout, log entry 8): for decoder i its base
at 0x10, its size at 0x18, its control and the low part of its DPA skip at 0x20, the rest of the skip at 0x28, 0x20 bytes to each.
(PRESUMED, log entry 8.) -/
def Mach.hdmRead (m : Mach) (f off : Nat) : Nat :=
  let d := if off < 0x30 then (m.fn f).dec0 else (m.fn f).dec1
  match (off - 0x10) % 0x20 with
  | 0x00 => d.base
  | 0x08 => d.size
  | 0x10 => bit d.committed * 2 ^ 10 + bit d.error * 2 ^ 11 + d.skip % 2 ^ 32 * 2 ^ 32
  | _ => 0

/-- The control page and doorbell pages (Tables 06.1 and 06.2). -/
def Mach.queueRead (m : Mach) (f off : Nat) : Nat :=
  let x := m.fn f
  if off < 0x1000 then
    match off with
    | 0x00 => x.qsqbase.toNat
    | 0x08 => x.qcqbase.toNat
    | 0x10 => x.qparam.toNat
    | 0x20 => x.qstat
    | 0x28 => m.qpendReg f
    | 0x30 => m.qlive f
    | _ => 0
  else
    let q := off / 0x1000 - 1
    let y := m.queue f q
    match off % 0x1000 with
    | 0x00 => y.sqtail
    | 0x08 => y.cqhead
    | 0x10 => bit y.ien * 2 ^ 31 + y.icount * 2 ^ 8 + y.idelay
    | 0x18 => m.qinfo f q
    | _ => 0

/-- The lease page (Table 07.4). -/
def Mach.leaseRead (m : Mach) (f off : Nat) : Nat :=
  match off with
  | 0x08 => m.leaseStat f
  | 0x10 => m.leaseTermReg f
  | 0x20 => m.retirePend f
  | _ => 0

/-- The interrupt page (Table 10.7). -/
def Mach.intRead (m : Mach) (f off : Nat) : Nat :=
  match off with
  | 0x00 => (m.intstat f).toNat
  | 0x08 => (m.fn f).inten.toNat
  | 0x10 => bit (m.fn f).intsent
  | _ => 0

/-- An aligned 8-byte read of BAR0: reserved offsets, and write-only registers, read zero (R10, R240). The component and device blocks
beside the decoders hold the standards' registers, at places and with values they give (log entry 8).
(PRESUMED, log entry 8.) -/
def Mach.bar0Read (m : Mach) (f off : Nat) : Nat :=
  let h := 8 * Config.hdmCap
  if off < 0x20000 then (if h + 0x10 ≤ off ∧ off < h + 0x50 then m.hdmRead f (off - h) else Config.stdReg off)
  else if off < 0x61000 then m.queueRead f (off - 0x20000)
  else if off < 0x62000 then m.leaseRead f (off - 0x61000)
  else if off < 0x63000 then m.intRead f (off - 0x62000)
  else 0

/-- A byte of the Expansion ROM, read through its BAR (R245). -/
def Mach.romRead (m : Mach) (off : Nat) : Byte := if off < 65536 then romByte m.fam off else 0

end Sys2Proof.Machine
end

