-- ==== Sys2Proof/Tests/Slice0.lean ====
section
/-! SUPPORT. Tests: ill-formed commands stop; the spec's worked examples; for each statement, states and operands that meet its
hypotheses; and single steps of commands. -/

set_option Elab.async false

namespace Sys2Proof.Tests

open Sys2Proof.Machine

/-! ## Small machines -/

/-- No command waits. -/
def st (m : Mach) : State := ⟨[], m⟩

/-- A port that runs: lit, trained, out of containment, with both IDE streams established. -/
def livePort : Port :=
  { contained := false, startup := false, rxlos := 0, laslos := 0, lt := .l0, rate := 128, width := 16, flit := true, ready := true
    training := true, ideMem := { key0 := some 1, active := some 0 }, ideSel := { key0 := some 1, active := some 0 } }

/-- An F16 one second after its start, memory-active, H0 its live steward, P0 running, functions 0 and 1 with Memory Space and Bus Master
Enable set, region 0 serving. -/
def up : Mach :=
  { cycle := 2000000000
    sys := { phase := .active, steward := some 0, ucodeLoaded := true }
    link := { hubs := [(0, { live := true })], ports := [(0, livePort)], fns := [(0, { command := 6 }), (1, { command := 6 })] }
    mem := { regions := [(0, { st := .serving })] }
    fp := { addrOk := true } }

/-- `up` with port 0 changed. -/
def upPort (f : Port → Port) : State := st (up.onPort 0 f)
/-- `up` with function 0 changed. -/
def upFn (f : Func → Func) : State := st (up.onFn 0 f)
/-- `up` with region 0 changed. -/
def upReg (f : Region → Region) : State := st (up.onRegion 0 f)
/-- `up` with its chip-wide unit changed. -/
def upSys (f : Sys → Sys) : State := st (up.onSys f)

/-! ## The hypotheses of the statements hold somewhere -/

theorem witness_StepRunsTheFrontCommand : State.reset.pending = [] := rfl

theorem witness_WellFormedCommandsGo : (Instr.bell 15).wf up.fam = true ∧ (Instr.bell 16).wf up.fam = false := by decide

theorem witness_StoppedUnitsChangeNothing :
    ((Instr.bell 0).wf .f16 = true ∧ (Instr.bell 0).place = .data ∧ State.reset.m.sys.phase ≠ .active ∧
      (upSys fun x => { x with fatal := true }).m.sys.fatal = true ∧ (up.onSec fun x => { x with fenced := true }).sec.fenced = true) ∧
    ((Instr.rollTimeout).wf .f16 = true ∧ Instr.rollTimeout.place = .unit ∧ State.reset.m.sys.phase = .held) ∧
    ((Instr.thermalReading []).wf .f16 = true ∧ (Instr.thermalReading []).place = .awake) ∧
    ((Instr.memspecrd 0 0).wf .f16 = true ∧ (Instr.memspecrd 0 0).place = .none) := by decide

theorem witness_InvariantsBegin : (upSys fun x => { x with fatal := true }).m.sys.phase ≠ .held ∧
    (upSys fun x => { x with fatal := true }).m.sys.fatal = true := by decide

theorem witness_HeldPartStaysInReset : ∃ s', (InReset State.reset.m ∧ NoRelease State.reset.pending) ∧ step State.reset = .next s' :=
  ⟨_, ⟨by unfold InReset; decide, by simp [NoRelease, State.reset]⟩, rfl⟩

theorem witness_ChipFatalFreezesThePart :
    ∃ s', (Frozen (upSys fun x => { x with fatal := true }).m (upSys fun x => { x with fatal := true }).m ∧ NoAssert []) ∧
      step (upSys fun x => { x with fatal := true }) = .next s' :=
  ⟨_, ⟨⟨by decide, by decide, rfl⟩, by simp [NoAssert]⟩, rfl⟩

theorem witness_LightAndLaserReports :
    (UnitReady (.lightRestored 0 1 ⟨-1299, 4000⟩) (st up) ∧ us 2 ≤ 4000 ∧ UnitReady (.lightRestored 0 1 ⟨-1299, 3999⟩) (st up) ∧ 3999 < us 2 ∧
      UnitReady (.lightRestored 0 1 ⟨-1300, 4000⟩) (st up)) ∧
    (UnitReady (.laserRestored 7 1 ⟨1301, 4000⟩) (st up) ∧ UnitReady (.laserRestored 7 1 ⟨1301, 3999⟩) (st up) ∧
      UnitReady (.laserRestored 7 1 ⟨1300, 4000⟩) (st up)) ∧
    (UnitReady (.lossOfLight 0 1 ⟨-1601, 4000⟩) (st up) ∧ 1#16 &&& ~~~((st up).m.port 0).rxlos ≠ 0 ∧
      UnitReady (.lossOfLight 0 1 ⟨-1601, 3999⟩) (st up) ∧ UnitReady (.lossOfLight 0 1 ⟨-1600, 4000⟩) (st up) ∧
      1#16 &&& ~~~((upPort fun p => { p with rxlos := 1 }).m.port 0).rxlos = 0) ∧
    (UnitReady (.laserLossDeclare 0 1 8 ⟨1199, 4000⟩) (st up) ∧ ((8#4).setWidth 8 <<< (4 * 1)) &&& ~~~((st up).m.port 0).laslos ≠ 0 ∧
      UnitReady (.laserLossDeclare 0 1 8 ⟨1199, 3999⟩) (st up) ∧ UnitReady (.laserLossDeclare 0 1 8 ⟨1200, 4000⟩) (st up) ∧
      ((8#4).setWidth 8 <<< (4 * 1)) &&& ~~~((upPort fun p => { p with laslos := 128 }).m.port 0).laslos = 0) := by
  simp only [UnitReady]; decide

/-- A lit port that trains, and an attempt that reaches what the part needs. -/
def training : State := upPort fun p => { p with lt := .polling, ready := false }
/-- That attempt. -/
def goodTrain : TrainIn :=
  { rate := 128, width := 16, flit := true, cxlMem := true, pbr := true, map := 0, lanes := List.range 16, pid := 5 }

theorem witness_LinkTrains :
    (UnitReady (.linkTraining 0 goodTrain) training ∧ (training.m.port 0).training = true ∧ (training.m.port 0).down = false ∧
      (training.m.port 0).rxlos = 0 ∧ (training.m.port 0).lt ≠ .l0 ∧ (training.m.port 0).lt ≠ .recovery ∧
      (training.m.port 0).retrainAt = none ∧ goodTrain.map = training.m.hubN 0 0x5000 0x20 ∧ (training.m.port 0).laslos = 0 ∧
      (training.m.port 0).hotReset = false) ∧
    (UnitReady (.linkTraining 0 { goodTrain with lanes := (List.range 16).reverse }) training ∧
      (List.range 16).reverse ≠ List.range 16) ∧
    (UnitReady (.linkTraining 0 { goodTrain with lanes := [1, 0] ++ (List.range 14).map (· + 2) }) training ∧
      [1, 0] ++ (List.range 14).map (· + 2) ≠ List.range 16 ∧ [1, 0] ++ (List.range 14).map (· + 2) ≠ (List.range 16).reverse) ∧
    (UnitReady (.linkTraining 0 { goodTrain with width := 8 }) training ∧ ({ goodTrain with width := 8 } : TrainIn).width ≠ 16 ∧
      UnitReady (.linkTraining 0 { goodTrain with map := 1 }) training ∧ 1 ≠ training.m.hubN 0 0x5000 0x20) ∧
    (∀ m ∈ [up.onPort 0 fun p => { p with lt := .detect, rxlos := 1 }, up],
      UnitReady (.linkTraining 0 goodTrain) (st m) ∧ ((m.port 0).rxlos ≠ 0 ∨ (m.port 0).lt = .l0)) ∧
    (UnitReady (.retrainTimer 0) (upPort fun p => { p with retrainAt := some 2000000000 }) ∧
      (up.onPort 0 fun p => { p with retrainAt := some 2000000000 }).port 0 = { livePort with retrainAt := some 2000000000 } ∧
      livePort.rxlos = 0 ∧ livePort.training = true ∧ livePort.down = false) ∧
    (UnitReady (.retrainTimer 0) (upPort fun p => { p with retrainAt := some 2000000000, rxlos := 1 }) ∧
      ((upPort fun p => { p with retrainAt := some 2000000000, rxlos := 1 }).m.port 0).rxlos ≠ 0) := by
  simp only [UnitReady]; decide

theorem witness_FlitsAndLinkEvents :
    UnitReady (.flitReceive 0 3 true) (st up) ∧ UnitReady (.flitReceive 0 3 false) (st up) ∧ (up.port 0).lt = .l0 ∧
    (UnitReady (.linkRecoveryEntry 0) (upPort fun p => { p with replays := 5 }) ∧
      ((upPort fun p => { p with replays := 5 }).m.port 0).replays = 5 ∧ ((upPort fun p => { p with replays := 5 }).m.port 0).lt = .l0) ∧
    (UnitReady (.recoveryExit 0 128 16 true) (upPort fun p => { p with lt := .recovery }) ∧
      UnitReady (.recoveryExit 0 64 16 true) (upPort fun p => { p with lt := .recovery }) ∧
      ((upPort fun p => { p with lt := .recovery }).m.port 0).lt = .recovery) ∧
    UnitReady (.linkLeavesL0 0 true) (st up) := by simp only [UnitReady]; decide

theorem witness_IdeFailureAndHotReset :
    UnitReady (.ideIntegrityFail 0 0) (st up) ∧ UnitReady (.ideIntegrityFail 0 1) (st up) ∧ (up.port 0).lt = .l0 ∧
    (up.port 0).ideMem.active.isSome = true ∧ (up.port 0).ideSel.active.isSome = true ∧
    (UnitReady (.hotReset 0) (st up) ∧ hasFlr up.fam = false) ∧
    (UnitReady (.hotReset 0) (st { up with fam := .f2 }) ∧ hasFlr .f2 = true ∧ (({ up with fam := .f2 } : Mach).port 0).lt = .l0) := by
  simp only [UnitReady]; decide

/-- P0 in start-up containment. -/
def contained : State := upPort fun p => { p with contained := true, startup := true }
/-- An LTR message due on P0, for a function bound to pitch 1. -/
def ltrDue : State := st ((up.onPort 0 fun p => { p with ltrDue := true }).onFn 0 fun x => { x with ltrEnable := true })

theorem witness_StartupContainmentAndLtr :
    (DataReady (.startupContainmentExit 0) contained ∧ (contained.m.port 0).contained = true ∧ (contained.m.port 0).startup = true ∧
      (contained.m.port 0).ready = true ∧ (contained.m.hub 0).failed = false ∧ contained.m.sys.bootDark = false) ∧
    (DataReady (.ltrSend 0) ltrDue ∧ ltrDue.m.linkUp 0 = true ∧ (ltrDue.m.port 0).ltrDue = true ∧ ltrDue.m.ltrOn 0 = true) := by
  simp only [DataReady]; decide

theorem witness_MailboxAnswers :
    up.barOpen 0 = true ∧ DataReady (.identify 0) (st up) ∧ DataReady (.getSupportedLogs 0) (st up) ∧ DataReady (.getLog 0 true) (st up) ∧
    DataReady (.getLog 0 false) (st up) ∧ DataReady (.getEventRecords 0 4) (st up) ∧ DataReady (.getEventRecords 0 5) (st up) ∧
    DataReady (.clearEventRecords 0 4 1) (st up) ∧ DataReady (.clearEventRecords 0 5 1) (st up) ∧
    DataReady (.getEventInterruptPolicy 0) (st up) ∧ DataReady (.setEventInterruptPolicy 0 true) (st up) ∧
    DataReady (.getDcConfiguration 0) (st up) ∧ DataReady (.getDcExtentList 0) (st up) ∧
    DataReady (.unsupportedMailboxCommand 0 0x4600) (st up) := by simp only [DataReady]; decide

theorem witness_FabricManagerAndDoeAnswers :
    up.linkUp 0 = true ∧ DataReady (.getLdInfo 0) (st up) ∧ DataReady (.fmIdentify 0) (st up) ∧ DataReady (.getLdAllocations 0) (st up) ∧
    DataReady (.setLdAllocations 0) (st up) ∧ up.doeOpen (.fn 0) = true ∧ up.doeOpen (.fm 0) = true ∧
    DataReady (.doeDiscovery (.fn 0) 3) (st up) ∧ DataReady (.cdatTableAccess (.fm 0)) (st up) := by simp only [DataReady]; decide

theorem witness_SpdmMailboxConverses :
    (DataReady (.cmaSpdm (.fn 0) ⟨.getVersion, 4096⟩) (st up) ∧ DataReady (.cmaSpdm (.fn 0) ⟨.getVersion, 4097⟩) (st up) ∧
      up.doeOpen (.fn 0) = true) ∧
    (∃ c : SpdmCtx, c.level = 3 ∧ up.certHeld 0 = true ∧ c.pending = false ∧ c.signs = true ∧ c.room = true) ∧
    (∃ c : SpdmCtx, c.level = 3 ∧ c.pending = false ∧ c.signs = true ∧ c.room = false) := by
  refine ⟨by simp only [DataReady]; decide, ⟨⟨3, false, false, true, true⟩, by decide⟩, ⟨⟨3, false, false, false, true⟩, by decide⟩⟩

/-- The key manager of P0 holds a secured session. -/
def keyed : State := st (up.onSec fun x => { x with spdm := [⟨.fm 0, true⟩] })

theorem witness_IdeKeysAreSet :
    keyed.m.keysOpen 0 = true ∧ (DataReady (.keyProg 0 1 7) keyed ∧ (keyed.m.port 0).ideSel.active ≠ some 1) ∧
    (DataReady (.cxlIdeKeyProg 0 1 7) keyed ∧ (keyed.m.port 0).ideMem.active ≠ some 1) ∧
    (DataReady (.kSetGo 0 true 0) keyed ∧ ((keyed.m.port 0).ideMem.key 0).isSome = true) ∧
    (DataReady (.kSetGo 0 false 0) keyed ∧ ((keyed.m.port 0).ideSel.key 0).isSome = true) ∧
    (DataReady (.kSetStop 0 true 0) keyed ∧ (keyed.m.port 0).ideMem.active = some 0) ∧
    (DataReady (.kSetStop 0 false 0) keyed ∧ (keyed.m.port 0).ideSel.active = some 0) := by simp only [DataReady]; decide

theorem witness_FunctionRegistersTakeWrites :
    up.cfgOpen 0 = true ∧ up.barOpen 0 = true ∧ DataReady (.busMasterEnable 0 true) (st up) ∧ DataReady (.interruptDisable 0 true) (st up) ∧
    DataReady (.registerWrite (.config 0 0x3C) 5) (st up) ∧ DataReady (.registerWrite (.config 0 0x10) 5) (st up) ∧
    DataReady (.registerWrite (.config 0 0x14) 5) (st up) ∧ DataReady (.hdmDecoderCommit 0 0 0x10000000 0x20000000 0 1) (st up) ∧
    DataReady (.hdmDecoderCommit 0 1 0x10000000 0x20000000 0 1) (st up) ∧
    (0x10000000#64).toNat % 2 ^ 28 = 0 ∧ (0x20000000#64).toNat % 2 ^ 28 = 0 ∧
    (DataReady (.hdmDecoderCommit 0 0 0x10000001 0x20000000 0 1) (st up) ∧ (0x10000001#64).toNat % 2 ^ 28 ≠ 0) := by
  simp only [DataReady]; decide

theorem witness_InterruptsAndFunctionReset :
    (DataReady (.intxUpdate 0) (upFn fun x => { x with ras := true, inten := 0x80 }) ∧
      (upFn fun x => { x with ras := true, inten := 0x80 }).m.linkUp 0 = true ∧
      (upFn fun x => { x with ras := true, inten := 0x80 }).m.intLevel 0 ≠
        ((upFn fun x => { x with ras := true, inten := 0x80 }).m.fn 0).intsent) ∧
    (DataReady (.intxUpdate 0) (st up) ∧ up.intLevel 0 = (up.fn 0).intsent) ∧
    (let s := st ((up.onQueue 0 3 fun q => { q with st := .active, ien := true, icount := 1, written := [5] }).onFn 0 fun x =>
        { x with inten := 1 });
      DataReady (.irqDelayExpire 0 3) s ∧ s.m.qpend 0 3 = true ∧ s.m.linkUp 0 = true ∧ s.m.intLevel 0 ≠ (s.m.fn 0).intsent) ∧
    DataReady (.intstatClear 0 0xD0) (st up) ∧ up.barOpen 0 = true ∧
    (DataReady (.initiateFlr 0) (st { up with fam := .f4 }) ∧ hasFlr .f4 = true ∧ ({ up with fam := .f4 } : Mach).cfgOpen 0 = true) ∧
    (DataReady (.flrReady 0) (upFn fun x => { x with flrAt := some 0 }) ∧
      ((upFn fun x => { x with flrAt := some 0 }).m.fn 0).lease = .none) := by simp only [DataReady]; decide
/-- The configuration that binds function 0 to pitch 1 on P0 and puts pitch 1 to use. -/
def bindSet : CfgSet := { gen := 1, vals := [(0x300101, ⟨1, 1⟩), (0x500040, ⟨1, 1⟩)] }

/-- `up` with that configuration everywhere, HDM decoder 0 of function 0 committed at 256 MiB, and extent 0, granted to it, mapped there. -/
def bound : Mach :=
  { (((up.onHub 0 fun x => { x with cfg := bindSet, bound := [1] }).onRegion 0 fun g => { g with cfg := bindSet, eff := bindSet }).onDict
      fun d => { d with cfg := bindSet }).onFn 0 fun x => { x with dec0 := ⟨true, false, 0x10000000, 0x20000000, 0⟩ } with
    ext := { exts := [(0, { st := .active, grant := 1, pitch := 1, coh := .uncached, confined := true })] } }

/-- `bound` with extent 0 changed. -/
def boundExt (f : Extent → Extent) : Mach := bound.onExtent 0 f

theorem witness_RequestsReachTheHub :
    ((Instr.memrd 0 .any 0x10000040 ⟨3, 7⟩).memReq = some (0, ⟨3, 7⟩, 0x10000040, .rd .own) ∧
      DataReady (.memrd 0 .any 0x10000040 ⟨3, 7⟩) (st bound) ∧
      bound.memOpen 0 = true ∧ (bound.port 0).ingress.length < 2048 ∧ bound.decodeHpa 0 0x10000040 = some 0x40 ∧
      bound.settleAt 0 0x40 = .served) ∧
    ((boundExt fun e => { e with st := .releasing }).decodeHpa 0 0x10000000 = some 0 ∧
      (boundExt fun e => { e with st := .releasing }).settleAt 0 0 = .releasing) ∧
    (bound.decodeHpa 0 0x20000000 = some 0x10000000 ∧ bound.settleAt 0 0x10000000 = .stray) ∧
    bound.decodeHpa 0 0xFFFFFFF = none ∧
    (DataReady (.meminv 0 .shared 0 ⟨3, 1⟩) (st bound) ∧ DataReady (.memwr 0 .shared 0 ⟨3, 1⟩ 0 false) (st bound) ∧
      DataReady (.memwrptl 0 .shared 0 ⟨3, 1⟩ 0 0 false) (st bound)) := by simp only [DataReady]; decide

/-- A read of function 0 by its tag. -/
def rdReq : Req := { id := 0, fn := 0, tag := ⟨3, 7⟩, kind := .rd .none, dpa := 0x40, at_ := 0 }

theorem witness_StraysAreAnswered :
    up.memOpen (rdReq.fn / 16) = true ∧ rdReq.internal = false ∧ rdReq.kind = .rd .none ∧
    (∀ k, ({ rdReq with kind := .inv } : Req).kind ≠ .rd k) ∧
    ((up.onFn 0 fun x => { x with strayAt := some up.msec }).fn 0).strayAt = some (up.onFn 0 fun x => { x with strayAt := some up.msec }).msec := by
  refine ⟨by decide, by decide, by decide, by simp, by decide⟩

theorem witness_OtherMemMessages :
    (Instr.memspecrd 0 0).wf up.fam = true ∧ (DataReady (.biconflict 0 0 ⟨3, 5⟩) (st up) ∧ up.memOpen 0 = true) ∧
    (DataReady (.unsupportedMemMessage 0 9 true ⟨3, 5⟩) (upFn fun x => { x with protAt := some up.msec }) ∧
      ((upFn fun x => { x with protAt := some up.msec }).m.fn 0).protAt = some (upFn fun x => { x with protAt := some up.msec }).m.msec) := by
  simp only [DataReady]; decide

/-- A snoop of line 64 to function 0, which owns the line by way 0 of its set in region 0. -/
def snooped : Mach :=
  up.onExt fun x => { x with snoops := [⟨0, 64, 0, .inv, 0⟩], dir := [(dirKey 0 (dirSet 64) 0, { st := .owned, line := 64, owner := 0 })] }
/-- A second function is snooped for the line too. -/
def snooped2 : Mach := snooped.onExt fun x => { x with snoops := x.snoops ++ [⟨0, 64, 1, .inv, 0⟩] }

theorem witness_SnoopAnswersSettle :
    (DataReady (.birspi 0 64 none) (st snooped) ∧ DataReady (.birspi 0 64 (some 5)) (st snooped) ∧ snooped.memOpen 0 = true ∧
      (snooped.ext.snoops.find? fun x => x.fn = 0 && x.line = 64) = some ⟨0, 64, 0, .inv, 0⟩ ∧
      (snooped.unsnoop 0 0 64).dirWay 0 64 = some 0 ∧
      (((snooped.unsnoop 0 0 64).dirPut 0 (dirSet 64) 0 {}).recallRest 0 64).snooping 0 64 = false) ∧
    (DataReady (.birspe 0 64 none) (st snooped2) ∧ (snooped2.unsnoop 0 0 64).dirWay 0 64 = some 0 ∧
      (((snooped2.unsnoop 0 0 64).dirPut 0 (dirSet 64) 0 {}).recallRest 0 64).snooping 0 64 = true) ∧
    (let e : DirEnt := { st := .owned, owner := 5 }; e.st = .owned ∧ e.owner = 5) ∧
    (let e : DirEnt := { st := .shared, sharers := 32 }; e.st = .shared ∧ e.sharers &&& ~~~(1#128 <<< 5) = 0) ∧
    (let e : DirEnt := { st := .shared, sharers := 33 }; e.st = .shared ∧ e.sharers &&& ~~~(1#128 <<< 5) ≠ 0) := by
  simp only [DataReady]; decide

/-- A sweep of function 0 has blocks of its retirement outstanding: one of two, or the only one. -/
def swept (pages next : Nat) : Mach :=
  up.onExt fun x =>
    { x with tickets := [{ num := 3, base := 0, pages := pages, pitch := 1, owed := [0], start := 0, sweeps := [⟨0, next, [(8, 5)]⟩] }] }

theorem witness_RecallsAndBlockSnoopsEnd :
    (DataReady (.recallTimeout 0 64 0) (st snooped) ∧
      (snooped.ext.snoops.find? fun x => x.region = 0 && x.line = 64 && x.fn = 0) = some ⟨0, 64, 0, .inv, 0⟩ ∧
      0 + snooped.leaseTerm (snooped.pitchOf 0) < snooped.cycle ∧ snooped.dirWay 0 64 = some 0 ∧
      (snooped.dirAt 0 (dirSet 64) 0).st = .owned ∧ (snooped.dirAt 0 (dirSet 64) 0).owner = 0) ∧
    (let m := (snooped.dirPut 0 (dirSet 64) 0 { st := .shared, line := 64, sharers := 3 }).onExtent 0 fun e => { e with st := .releasing };
      DataReady (.recallTimeout 0 64 0) (st m) ∧ m.dirWay 0 64 = some 0 ∧ (m.dirAt 0 (dirSet 64) 0).st ≠ .owned ∧
      (m.extent (extOf (64 / 64))).st = .releasing ∧ 0 + m.leaseTerm (m.pitchOf 0) < m.cycle) ∧
    (DataReady (.birspiblk 0 8) (st (swept 1 16)) ∧ (swept 1 16).memOpen 0 = true ∧
      ((swept 1 16).ext.tickets.find? fun t => t.sweeps.any fun x => x.fn = 0 && x.sent.any fun y => y.1 = 8).isSome = true ∧
      (let m := ((swept 1 16).onTicket 3 fun t =>
        { t with sweeps := lmod t.sweeps (fun x => x.fn = 0) fun x => { x with sent := x.sent.filter fun y => y.1 ≠ 8 } }).sendBlocks 0 64;
        ∃ t' ∈ m.ticketAt 3, (t'.sweeps.any fun x => x.fn = 0 && x.sent.isEmpty && (m.ticketBlock t' x.next).isNone) = true)) ∧
    (DataReady (.birspiblk 0 8) (st (swept 1 15)) ∧
      (let m := ((swept 1 15).onTicket 3 fun t =>
        { t with sweeps := lmod t.sweeps (fun x => x.fn = 0) fun x => { x with sent := x.sent.filter fun y => y.1 ≠ 8 } }).sendBlocks 0 64;
        ∃ t' ∈ m.ticketAt 3, (t'.sweeps.any fun x => x.fn = 0 && x.sent.isEmpty && (m.ticketBlock t' x.next).isNone) = false)) := by
  simp only [DataReady]
  refine ⟨by decide, by decide, ⟨by decide, by decide, by decide, ⟨_, rfl, by decide⟩⟩, by decide, ⟨_, rfl, by decide⟩⟩

/-- A read of function 0 waits at H0 for pitch 1, which has tokens. -/
def queued : Mach :=
  (bound.onPort 0 fun x => { x with ingress := [rdReq] }).onHub 0 fun x =>
    { x with guar := [(1, ⟨131072, 0⟩)], ceil := [(1, ⟨131072, 0⟩)] }

theorem witness_HubAdmitsByGuarantee :
    (DataReady (.hubIngressAdmit ⟨0, false⟩) (st queued) ∧ (queued.hub 0).admitted < 4 ∧ queued.normal 0 = true ∧ queued.ideOpen 0 = true ∧
      ((after (queued.hub 0).rrPitch (queued.waitingPitches 0 ⟨0, 0, 0, 0⟩)).find? fun p => queued.tokenStep 0 p = some 1) = some 1 ∧
      queued.headOf 0 1 = some rdReq) ∧
    (let m := queued.onHub 0 fun x => { x with guar := [], pool := ⟨131072, 0⟩ };
      DataReady (.hubIngressAdmit ⟨0, false⟩) (st m) ∧ (m.hub 0).admitted < 4 ∧ m.normal 0 = true ∧ m.ideOpen 0 = true ∧
      ((after (m.hub 0).rrPitch (m.waitingPitches 0 ⟨0, 0, 0, 0⟩)).find? fun p => m.tokenStep 0 p = some 1) = none ∧
      ∃ counts, wrrPick (m.weightAt 0) (m.hub 0).wrr ((m.waitingPitches 0 ⟨0, 0, 0, 0⟩).filter fun p => m.tokenStep 0 p = some 2)
          = some (1, counts) ∧ (m.onHub 0 fun x => { x with wrr := counts }).headOf 0 1 = some rdReq) ∧
    (DataReady (.hubIngressAdmit ⟨0, true⟩) (st queued) ∧ (queued.hub 0).failed = false) ∧
    (DataReady (.hubIngressAdmit ⟨0, false⟩) (st (queued.onHub 0 fun x => { x with admitted := 4 })) ∧
      ((queued.onHub 0 fun x => { x with admitted := 4 }).hub 0).admitted = 4) := by
  simp only [DataReady]
  exact ⟨by decide, ⟨by decide, by decide, by decide, by decide, by decide, _, rfl, by decide⟩, by decide, by decide⟩

/-- A read waits in region 0. -/
def waiting (why : Why) : Mach := bound.onMem fun x => { x with waits := [⟨rdReq, 0, why⟩] }

theorem witness_WaitingRequestsGoOn :
    DataReady (.t0PageGrant 0) (st (waiting .t0)) ∧
    (DataReady (.descriptorMissFill 0 ⟨0, 0⟩) (st (waiting .miss)) ∧ ((waiting .miss).region 0).st = .serving ∧
      ((waiting .miss).mem.waits.any fun w => w.why = .miss && (waiting .miss).missAt w.req = (0, 0)) = true ∧
      (waiting .miss).lineAtHand 0 0 = true) ∧
    (let m := (waiting .miss).onRegion 0 fun g => { g with dplace := [(0, 0)] };
      DataReady (.descriptorMissFill 0 ⟨0, 3⟩) (st m) ∧ (m.region 0).st = .serving ∧
      (m.mem.waits.any fun w => w.why = .miss && m.missAt w.req = (0, 0)) = true ∧ m.lineAtHand 0 0 = true ∧
      (m.lineSector 0 0).isSome = true) ∧
    (let m := ((waiting .miss).onRegion 0 fun g => { g with dplace := [(0, 0)] }).onChan 0 0 fun x => { x with queue := [descAccess 0 false] };
      DataReady (.descriptorMissFill 0 ⟨0, 0⟩) (st m) ∧ (m.mem.waits.any fun w => w.why = .miss && m.missAt w.req = (0, 0)) = true ∧
      m.lineAtHand 0 0 = false) ∧
    (DataReady (.refForward 0) (st (waiting .fwd)) ∧
      ((waiting .fwd).mem.waits.find? fun w => w.req.id = 0 && w.why = .fwd) = some ⟨rdReq, 0, .fwd⟩) := by simp only [DataReady]; decide

theorem witness_PriorityLevels :
    (DataReady (.priorityLevelUpdate 0) (st up) ∧ (up.region 0).st = .serving ∧ (up.region 0).levelAt + 512 ≤ up.cycle) ∧
    (DataReady (.requestAgeEscalate 0 0) (st (waiting .line)) ∧
      ((waiting .line).mem.waits.find? fun w => w.req.id = 0 && w.region = 0) = some ⟨rdReq, 0, .line⟩ ∧
      rdReq.at_ + us 64 ≤ (waiting .line).cycle) ∧
    ({ rdReq with aged := true } : Req).aged = true ∧ 2 * 0 < 1 * 65536 ∧ (0 < 1 ∧ 1 * 65536 ≤ 65536) := by simp only [DataReady]; decide

/-- `bound` with the line of page 0's descriptor in the page-map cache and that descriptor as given. -/
def paged (d : Desc) : Mach := (bound.onRegion 0 fun g => { g with pmc := [{ id := 0 }] }).setDesc 0 d

theorem witness_ReadsAreAnswered :
    rdReq.kind = .rd .none ∧ rdReq.internal = false ∧ (paged .unwritten).mem.waits = [] ∧ (paged .unwritten).mem.house = [] ∧ (paged .unwritten).memOpen 0 = true ∧
    ((paged .unwritten).region ((paged .unwritten).homeOf rdReq.page)).st = .serving ∧
    ((paged .unwritten).extent (extOf rdReq.page)).coh ≠ .tracked ∧ (paged .unwritten).sessMap rdReq.page = none ∧
    (paged .unwritten).pmHit ((paged .unwritten).homeOf rdReq.page) ((paged .unwritten).pmLine rdReq.page) = true ∧
    (paged .unwritten).desc rdReq.page = .unwritten ∧
    ((paged (.const 1 0 0)).desc rdReq.page = .const 1 0 0 ∧ (paged (.const 1 0 0)).pmHit 0 0 = true) ∧
    (let m := ((paged (.priv { t0 := true, t0slot := 5 })).putT0 0 5 2 [encWord 1, encWord 2]);
      m.desc rdReq.page = .priv { t0 := true, t0slot := 5 } ∧ m.pmHit (m.homeOf rdReq.page) (m.pmLine rdReq.page) = true ∧
      checkWord (m.t0Word 0 5 (2 * rdReq.lineIx)) = .clean ∧ checkWord (m.t0Word 0 5 (2 * rdReq.lineIx + 1)) = .clean) := by decide

/-- A flit with a clean header on segment 12 of the arcade, its last or its last but one. -/
def flying (path : List Nat) (w : CWord) : Mach :=
  up.onArc fun a => { a with flits := [⟨9, 8, 16, .rsp, path, 1, 0, [w]⟩] }

theorem witness_ArcadeCarriesFlits :
    (UnitReady (.arcadeFlitInject 16 0 .rsp 1 0 [encWord 5]) (st up) ∧ up.creditsUsed 16 0 .rsp < up.arc.depth ∧
      up.mayInject .rsp (segPath .f16 16 0) = true ∧ segPath .f16 16 0 ≠ []) ∧
    (let m := up.onArc fun a =>
        { a with flits := [⟨9, 8, 16, .rsp, segPath .f16 16 0, 1, 0, [encWord 3]⟩]
                 slotAt := [((segPath .f16 16 0).headD 0, 2000000000 - 9)] };
      UnitReady (.arcadeFlitInject 16 0 .req 1 0 [encWord 5]) (st m) ∧ m.mayInject .req (segPath .f16 16 0) = false) ∧
    (UnitReady (.arcadeFlitInject 16 16 .rsp 1 0 [encWord 5]) (st up) ∧ segPath .f16 16 16 = []) ∧
    (let m := up.onArc fun a => { a with used := [(creditKey 16 0 .rsp, 16)] }; m.arc.depth ≤ m.creditsUsed 16 0 .rsp) ∧
    (∀ path ∈ [[12], [12, 13]], let m := flying path (encWord 3);
      UnitReady (.arcadeFlitHop 9 []) (st m) ∧ (m.arc.flits.find? fun x => x.id = 9) = some ⟨9, 8, 16, .rsp, path, 1, 0, [encWord 3]⟩ ∧
      m.flitFree ⟨9, 8, 16, .rsp, path, 1, 0, [encWord 3]⟩ = true ∧ (∀ p, m.injAt 4 0 0 12 p = false) ∧
      (∀ w ∈ [encWord 3], checkWord w = .clean)) ∧
    (readWord .poison = none ∧ (flying [12] .poison).flitFree ⟨9, 8, 16, .rsp, [12], 1, 0, [.poison]⟩ = true) ∧
    (let m := up.onArc fun a => { a with arrived := [⟨9, 8, 16, .rsp, [], 1, 0, [encWord 3]⟩] };
      UnitReady (.arcadeCreditReturn 8 16 .rsp 1) (st m) ∧
      1 ≤ (m.arc.arrived.filter fun x => x.src = 8 && x.dst = 16 && x.vc = .rsp).length) := by
  simp only [UnitReady]
  refine ⟨by decide, by decide, by decide, by decide, ?_, by decide, by decide⟩
  simp only [List.forall_mem_cons, List.not_mem_nil, false_implies, implies_true, and_true]
  exact ⟨⟨by decide, by decide, by decide, fun _ => rfl, by decide⟩, ⟨by decide, by decide, by decide, fun _ => rfl, by decide⟩⟩

theorem witness_BlocksGrantByPriority :
    (DataReady (.blockGrant 0 0 ⟨[(1, 3, 2)], false⟩) (st up) ∧ (up.region 0).st = .serving ∧ (up.region 0).quar.getLsbD 0 = false ∧
      (∀ y ∈ [((1 : Nat), (3 : Nat), (2 : Nat))], y.1 < 64) ∧ 0 < up.credit 0 0 1 ∧
      up.pickBy 0 0 (fun x => (x.1, x.2.1)) [((1 : Nat), (3 : Nat), (2 : Nat))] = some (1, 3, 2)) ∧
    (let m := up.setCredit 0 0 1 (-1);
      DataReady (.blockGrant 0 0 ⟨[(1, 3, 2)], false⟩) (st m) ∧ m.credit 0 0 1 ≤ 0 ∧
      (m.refillBlock 0 0).pickBy 0 0 (fun x => (x.1, x.2.1)) [((1 : Nat), (3 : Nat), (2 : Nat))] = some (1, 3, 2)) ∧
    DataReady (.blockGrant 0 0 ⟨[(1, 3, 2)], true⟩) (st up) := by
  simp only [DataReady]; decide

theorem witness_GatingBucketsAndPower :
    ((up.region 0).st ≠ .fenced ∧ UnitReady (.wakeRequest (.tally 0)) (st up) ∧ UnitReady (.wakeRequest (.lanes 0)) (st up)) ∧
    (UnitReady (.leakyBucketLeak (.portFec 0)) (st up) ∧
      (tget up.code.lbOutSet {} (2 * 64 + 0)).last + us 1000 ≤ up.cycle ∧ (tget up.code.lbOutSet {} (2 * 64 + 0)).period = 0) ∧
    (DataReady .derateApply (st up) ∧ up.sys.steward.isSome = true) ∧
    (UnitReady (.powerCapWindow 11001) (st up) ∧ up.sys.pcAt + ms 1 ≤ up.cycle ∧ 10 * up.cfgN 0x2000 2 = 11000 ∧ up.sys.atLimit = false) ∧
    (UnitReady (.powerCapWindow 11001) (upSys fun x => { x with pc1 := 15, pc2 := 6, pc3 := 8 }) ∧
      (upSys fun x => { x with pc1 := 15, pc2 := 6, pc3 := 8 }).m.sys.atLimit = true) ∧
    10779 * 100 < 11000 * 98 ∧ 11000 * 98 ≤ 10780 * 100 := by simp only [UnitReady, DataReady]; decide
/-- `up` with channel 0 of region 0 as given. -/
def chan (x : Chan) : State := st (up.onChan 0 0 fun _ => x)

theorem witness_ChannelsTrainAndRetry :
    (((chan {}).m.chan 0 0).st = .training ∧ ((chan {}).m.region 0).st ≠ .fenced ∧ (chan {}).m.sys.ucodeLoaded = true ∧
      UnitReady (.channelTrainingDone 0 0 true) (chan {}) ∧ UnitReady (.channelTrainingDone 0 0 false) (chan {}) ∧
      ((chan {}).m.chan 0 0).tries = 0) ∧
    (((chan { tries := 1 }).m.chan 0 0).tries ≠ 0 ∧
      (let m := ((chan { tries := 1 }).m.onChan 0 0 fun x => { x with st := .failed, tries := 2 }).channelFailed 0 0 [0, 0, 0, 0, 0];
        ((List.range 8).all fun c => (m.chan 0 c).st = .failed) = false)) ∧
    (((chan { st := .retraining, since := 2000000000 }).m.chan 0 0).since ≤ up.cycle ∧
      DataReady (.retrainDone 0 0 true) (chan { st := .retraining, since := 2000000000 }) ∧
      DataReady (.retrainDone 0 0 false) (chan { st := .retraining, since := 2000000000 })) ∧
    (DataReady (.channelRetryDone 0 0 true) (chan { st := .suspended, wantRetrain := true }) ∧
      DataReady (.channelRetryDone 0 0 false) (chan { st := .suspended, wantRetrain := true, retries := 2 }) ∧
      DataReady (.channelRetryDone 0 0 false) (chan { st := .suspended, wantRetrain := true, retries := 3 })) := by
  simp only [UnitReady, DataReady]; decide

theorem witness_ChannelLossSettles :
    let s := chan { st := .failed, lossDue := true }
    DataReady (.channelFailSettle 0 0) s ∧ (s.m.chan 0 0).st = .failed ∧ (s.m.chan 0 0).lossDue = true ∧ (s.m.region 0).st = .serving ∧
    (∀ x ∈ s.m.contents 0, (x.2.t1len ≠ 0 && s.m.hits 0 0 x.2.t1addr x.2.t1len) = false) ∧
    (∀ v ∈ (s.m.region 0).moves, (v.phase = .writing && v.dst = 1 && s.m.hits 0 0 v.addr v.len) = false) ∧
    s.m.lostPages 0 (0 / 4) = [] ∧
    (let m := ((((s.m.losePool 0 (0 / 4)).moveOffDie 0 (0 / 4)).onChan 0 0 fun x =>
        { x with lossDue := false, queue := [], owed := 0 }).channelFailed 0 0 [0, 0, 0, 0, 0]).repay 0;
      ((List.range 8).all fun c => (m.chan 0 c).st = .failed) = false) := by simp only [DataReady]; decide

theorem witness_RefreshKeepsUp :
    (let s := chan { st := .serving, nextTick := 2000000000 };
      UnitReady (.refreshTick 0 0) s ∧ (s.m.chan 0 0).ticks = true ∧ (s.m.chan 0 0).nextTick ≤ s.m.cycle) ∧
    (let s := chan { st := .serving, owed := 1 };
      UnitReady (.refreshIssue 0 0) s ∧ (s.m.chan 0 0).quiet s.m.cycle = true ∧ (s.m.chan 0 0).queue = [] ∧ (s.m.chan 0 0).draining = false) ∧
    (let s := chan { st := .serving, owed := 1, wantRetrain := true };
      UnitReady (.refreshIssue 0 0) s ∧ (s.m.chan 0 0).quiet s.m.cycle = true ∧ (s.m.chan 0 0).draining = true ∧ (s.m.chan 0 0).owed = 1) ∧
    (UnitReady (.refreshWindowEnd 0 0) (chan { winTicks := 8192 }) ∧ 8192 ≤ ((chan { winTicks := 8192 }).m.chan 0 0).winTicks) ∧
    (UnitReady (.refreshWindowEnd 0 0) (chan { winTicks := 8191 }) ∧ ((chan { winTicks := 8191 }).m.chan 0 0).winTicks < 8192) := by
  simp only [UnitReady]; decide

/-- `up` with die 0 of region 0 last read at 40 °C, 100 µs ago, and channel 0 trained at 40 °C. -/
def warm : State := st ((up.onDie 0 0 fun d => { d with temp := 40, at_ := some (2000000000 - 200000) }).onChan 0 0 fun _ =>
  { st := .serving, trainTemp := 40 })

theorem witness_TemperatureReadings :
    (DataReady (.temperatureReading 0 0 40) (st up) ∧ (up.region 0).st = .serving ∧ (up.die 0 0).at_ = none ∧
      (up.die 0 0).doubled = decide ((up.effN 0 0x2200 0x41 : Int) < 40)) ∧
    (DataReady (.temperatureReading 0 0 49) warm ∧ (2000000000 - 200000) + us 100 ≤ warm.m.cycle ∧
      (warm.m.die 0 0).doubled = decide ((warm.m.effN 0 0x2200 0x41 : Int) < 49) ∧
      ((dieChans 0).any fun c => (warm.m.chan 0 c).st = .serving && decide (10 ≤ ((49 : Int) - (warm.m.chan 0 c).trainTemp).natAbs)) = false) ∧
    (((dieChans 0).any fun c => (warm.m.chan 0 c).st = .serving && decide (10 ≤ ((50 : Int) - (warm.m.chan 0 c).trainTemp).natAbs)) = true ∧
      ((dieChans 0).any fun c => (warm.m.chan 0 c).tempRetrain.isSome) = false) := by simp only [DataReady]; decide

/-- A sector read and a sector write of one sector, queued in that order. -/
def acc (w : Bool) : Access := { sector := 0, write := w }
/-- The access that die 0's block of region 0 grants on channel 0. -/
def grants (s : State) : Option (Nat × Access) :=
  let m := s.m.refillFor 0 (8 + 0 / 4) (s.m.diePitches 0 (0 / 4))
  m.pickBy 0 (8 + 0 / 4) (fun y => (m.accPitch y.2, m.accLevel 0 y.2)) (startable (fun a =>
    decide (tget (s.m.chan 0 0).bankReady 0 (secBank a.sector) ≤ s.m.cycle) && !(s.m.dieOf 0 0).held a.pitch (s.m.cycle / us 1))
      0 [] (s.m.chan 0 0).queue)

theorem witness_SectorAccesses :
    (let s := chan { st := .serving, queue := [acc false, acc true] };
      DataReady (.sectorAccess 0 0) s ∧ s.m.chanOpen 0 0 = true ∧ grants s = some (0, acc false) ∧ (acc false).write = false) ∧
    (let s := chan { st := .serving, queue := [acc true] };
      DataReady (.sectorAccess 0 0) s ∧ s.m.chanOpen 0 0 = true ∧ grants s = some (0, acc true) ∧ (acc true).write = true) := by
  simp only [DataReady]; decide

/-- A promotion of page 0 into T0 at the phase given. -/
def mv (p : MovePhase) : Move := { id := 5, region := 0, cref := .slot 0, kind := .promT0, phase := p }
/-- `paged` with page 0 in T1, Plain, and that move. -/
def moving (p : MovePhase) : State :=
  st ((paged (.priv { t1len := 9, rec_ := .t1 })).onRegion 0 fun g => { g with moves := [mv p] })
/-- The header of a Plain frame of pitch 1 and version 0 of a page of zeros. -/
def zeroHdr : FHdr := ⟨0xC7, 0, 0, 9, 1, 0, 4096, 4096, 0, 1, 0, 0xFFFFFFFF, 0⟩
/-- That frame. -/
def zeroFrame : List Word := zeroHdr.word :: List.replicate 143 0#256

theorem zero_bytes (n : Nat) : wordsToBytes (List.replicate n 0#256) = List.replicate (n * 32) 0#8 := by
  rw [wordsToBytes, List.map_replicate, show wordBytes 0#256 = List.replicate 32 0#8 by decide, List.flatten_replicate_replicate]

theorem zero_words (n : Nat) : ∀ k, bytesToWords n (List.replicate k 0#8) = List.replicate n 0#256 := by
  have key (j : Nat) : leNat (List.replicate j 0#8) = 0 := by
    induction j with
    | zero => rfl
    | succ j ih => rw [List.replicate_succ, leNat, ih]; rfl
  induction n with
  | zero => intro k; rfl
  | succ n ih => intro k; rw [bytesToWords, List.drop_replicate, ih, wordOfBytes, List.take_replicate, key, List.replicate_succ]

theorem mask_none (l : List Word) : ∀ i, maskWords 0 i l = l := by
  induction l with
  | nil => intro i; rfl
  | cons w t ih => intro i; simp [maskWords, ih]

theorem crc_zero (n : Nat) : crc32c 0#32 (List.replicate n 0#8) = 0xFFFFFFFF#32 := by
  have : (List.replicate n 0#8).foldl crcByte 0#32 = 0#32 := by
    induction n with
    | zero => rfl
    | succ n ih => rw [List.replicate_succ, List.foldl_cons, show crcByte 0#32 0#8 = 0#32 by decide, ih]
  rw [crc32c, this]; decide

theorem unfold_zero (v : Nat) :
    unfoldFrame 0 9 v 1 zeroFrame = if 0 ≠ v then .stale else .page (restoreWords 0 0 (List.replicate 128 0#256)) := by
  have p : (wordsToBytes (zeroFrame.tail.take 128)).take 4096 = List.replicate 4096 0#8 := by
    rw [zeroFrame, List.tail_cons, List.take_replicate, zero_bytes, List.take_replicate]; rfl
  have q : bytesToWords 128 (List.replicate 4096 0#8) = List.replicate 128 0#256 := zero_words ..
  have c : crc32c 0#32 (wordsToBytes (List.replicate 128 0#256)) = 0xFFFFFFFF#32 := by rw [zero_bytes, crc_zero]
  have l : (List.replicate 4096 0#8).length = 4096 := List.length_replicate
  generalize List.replicate 4096 0#8 = bs at p q l
  generalize List.replicate 128 0#256 = ws at q c
  have e : FHdr.ofWord (zeroFrame.headD 0) = zeroHdr := by decide
  unfold unfoldFrame
  have f : zeroHdr.magic = 0xC7 ∧ zeroHdr.codec = 0 ∧ zeroHdr.pmask = 0 ∧ zeroHdr.len = 9 ∧ zeroHdr.cfv = 1 ∧ zeroHdr.pver = 0 ∧
      zeroHdr.ulen = 4096 ∧ zeroHdr.plen = 4096 ∧ zeroHdr.cparam = 0 ∧ zeroHdr.pitch = 1 ∧ zeroHdr.seed = 0 ∧ zeroHdr.ucrc = 0xFFFFFFFF ∧
      zeroHdr.rsvd = 0 := by decide
  generalize zeroHdr = h at e f
  obtain ⟨f1, f2, f3, f4, f5, f6, f7, f8, f9, f10, f11, f12, f13⟩ := f
  simp only [e]
  clear e
  simp [f1, f2, f3, f4, f5, f6, f7, f8, f9, f10, f11, f12, f13, p, unPayload, l, q, mask_none, c, cfvDecoded]

/-- A job that has read page 0's frame, whose words are all zero. -/
def job : Job :=
  { id := 6, region := 0, cref := .slot 0, tier := 1, len := 9, codec := 0, pver := 0, src := [], todo := [], left := 0, words := [], flagged := [], missing := false
    demand := true, users := [], moves := [], frame := zeroFrame }
theorem witness_BellsAndMoves :
    (DataReady (.bell 0) (st up) ∧ (up.region 0).st = .serving ∧ (up.region 0).bellAt ≤ up.cycle) ∧
    (DataReady (.bell 0) (upReg fun g => { g with bellAt := 2000000001 }) ∧ up.cycle < 2000000001) ∧
    (DataReady (.moveStart 0) (moving .planned) ∧ ((moving .planned).m.region 0).rolling = false ∧
      (((moving .planned).m.plannedMoves 0).find? fun v => (moving .planned).m.mayStart 0 v) = some (mv .planned)) ∧
    (DataReady (.moveComplete 0 5) (moving .ready) ∧ (moving .ready).m.moveAt 0 5 = some (mv .ready) ∧
      (moving .ready).m.priv (.slot 0) = some { t1len := 9, rec_ := .t1 }) ∧
    (let s := moving .folding; let m := s.m.grantLanes 0;
      DataReady (.foldDone 0 5) s ∧ m.moveAt 0 5 = some (mv .folding) ∧ (m.region 0).rolling = false ∧
      (mv .folding).kind.folds = false ∧ m.priv (.slot 0) = some { t1len := 9, rec_ := .t1 }) ∧
    (let s := st ((moving .planned).m.onRegion 0 fun g => { g with moves := [{ mv .folding with kind := .demote }] });
      let m := s.m.grantLanes 0;
      DataReady (.foldDone 0 5) s ∧ m.moveAt 0 5 = some { mv .folding with kind := .demote } ∧ (m.foldBusy 0).contains 5 = true) ∧
    (let s := st ((moving .planned).m.onMem fun x => { x with jobs := [job] }); let m := s.m.grantLanes 0;
      DataReady (.unfoldDone 0 6) s ∧ m.jobAt 6 = some job ∧ job.left = 0 ∧ job.frame ≠ [] ∧ (m.region 0).rolling = false ∧
      (m.unfoldBusy 0).contains 6 = true) ∧
    (let m := (moving .planned).m;
      (∃ d, m.priv job.cref = some d ∧ d.pver = job.pver ∧ ¬(d.t0 = true ∧ d.dirty = true)) ∧
      (m.setDesc 0 (.priv { t1len := 9, pver := 1 })).priv job.cref = some { t1len := 9, pver := 1 } ∧
      m.ownerOf job.cref = 1 ∧ (∀ q pg, job.cref ≠ .desc q pg)) ∧
    (∃ ws, unfoldFrame job.codec job.len job.pver 1 job.frame = .page ws) ∧ unfoldFrame job.codec job.len 1 1 job.frame = .stale ∧
    unfoldFrame 1 9 0 1 job.frame = .malformed := by
  simp only [DataReady]
  refine ⟨by decide, by decide, by decide, by decide, by decide, by decide, by decide,
    ⟨⟨_, rfl, by decide⟩, by decide, by decide, by simp [job]⟩, ⟨_, unfold_zero 0⟩, unfold_zero 1, by decide⟩

/-- Region 1 serves too, and pitch 1 has one far window of which both regions own slots. -/
def lender : Mach :=
  ((bound.onRegion 0 fun g => { g with wantLoan := [1] }).onRegion 1 fun g =>
    { g with st := .serving, cfg := { vals := [(0x410101, ⟨16, 1⟩)] } })

theorem witness_ReportsAndLoans :
    (let m := (up.onSession 0 fun _ => { st := .active, pitch := 1, idle := 9 }).onRegion 0 fun g => { g with reportsOut := [0] };
      DataReady (.accessReport 0 0) (st m) ∧ 0 ∈ (m.region 0).reportsOut ∧
      m.byHandle 0 = some (0, { st := .active, pitch := 1, idle := 9 })) ∧
    (DataReady (.slotLoanRequest 0 1) (st lender) ∧ 1 ∈ (lender.region 0).wantLoan ∧
      (((lender.serving).filter (· ≠ 0)).findSome? fun q => (lender.lendSlot q 1).map fun x => (q, x)) = some (1, 0, 1)) := by
  simp only [DataReady]; decide
/-! ### Sessions -/

/-- Descriptor 9 of queue 0 of function 0: opcode, HANDLE, VERSION and OP0 upward. -/
def dtor (op handle ver : Nat) (ops : List Nat) : Dtor :=
  { id := 9, fn := 0, q := 0, seq := 0, at_ := 0, deadline := none
    raw := BitVec.ofNat 512 (op + ver * 2 ^ 64 + handle * 2 ^ 96 + (ops.zipIdx.map fun x => x.1 * 2 ^ (64 * x.2 + 128)).foldl (· + ·) 0) }

/-- Pitch 1 is CONFINED, has far window 0, and its key. -/
def sessSet : CfgSet := { gen := 1, vals := [(0x300101, ⟨1, 1⟩), (0x300102, ⟨1, 1⟩), (0x410101, ⟨16, 1⟩), (0x500040, ⟨1, 1⟩)] }

/-- `bound` under that configuration, region 1 serving too, extent 1 READ-SHARED, with the sessions and the descriptor given. -/
def sess (l : Tab Session) (x : Dtor) : Mach :=
  { ((((bound.onDict fun d => { d with cfg := sessSet }).onHub 0 fun h => { h with cfg := sessSet }).onRegion 1 fun g =>
      { g with st := .serving }).onSec fun k => { k with keys := [(1, some 5)] }).onExtent 1 fun _ =>
      { st := .active, grant := 1, pitch := 1, coh := .readShared, confined := true } with
    sess := { sess := l }
    svc := { queues := [(0, { st := .active, pitch := 1 })], dtors := [x] } }

/-- An ACTIVE session of one page at page 0, with its map area at page 1,024. -/
def actSess : Session := { st := .active, pitch := 1, npages := 1, wbase := 0, mbase := 1024, nextver := 1 }
/-- It has published version 1, of an unwritten page; `n` views are open. -/
def verSess (n : Nat) : Session := { actSess with nextver := 2, versions := [{ idx := 0, vnum := 1, views := n, vpages := 1, map := [.unwritten] }] }

/-- Where no record of a region's table is taken, one is free. -/
theorem freeSess_some (m : Mach) (r : Nat) (h : ∀ k, k / 16384 = r → (m.session k).st = .free) : ∃ k, m.freeSess r = some k := by
  have hf : ∀ j, j < 16384 → (m.session (r * 16384 + j)).st = .free := fun j hj => h _ (by omega)
  simp only [Mach.freeSess, pickFree, sessPerRegion]
  generalize (m.sess.sess.filter _).length = c
  obtain ⟨n, hn⟩ : ∃ n, min 16384 (c + 1) = n + 1 := ⟨_, (Nat.succ_pred (by omega)).symm⟩
  simp [hn, scanFree, hf _ (Nat.mod_lt _ (by decide : 0 < 16384))]

/-- The same for views. -/
theorem freeView_some (m : Mach) (r : Nat) (h : ∀ k, k / 16384 = r → (m.view k).live = false) : ∃ k, m.freeView r = some k := by
  have hf : ∀ j, j < 16384 → (m.view (r * 16384 + j)).live = false := fun j hj => h _ (by omega)
  simp only [Mach.freeView, pickFree, sessPerRegion]
  generalize (m.sess.views.filter _).length = c
  obtain ⟨n, hn⟩ : ∃ n, min 16384 (c + 1) = n + 1 := ⟨_, (Nat.succ_pred (by omega)).symm⟩
  simp [hn, scanFree, hf _ (Nat.mod_lt _ (by decide : 0 < 16384))]

/-- CREATE of a session of one page at page 0. -/
def dCreate : Dtor := dtor 0x10 0 0 [5, 0, 1, 1024 * 2 ^ 28, 0]

theorem witness_SessionsComeAndGo_create :
    DataReady (.create 9) (st (sess [] dCreate)) ∧ (sess [] dCreate).startable 9 0x10 = some dCreate ∧ dCreate.opf 2 24 0 = 1 ∧
    (sess [] dCreate).layIn dCreate (dCreate.op 4) = .word 0 ∧
    (sess [] dCreate).rangesOk ((sess [] dCreate).dtorPitch dCreate) (dCreate.pn 2) 1 (dCreate.pn 3) = true ∧ layoutOk 0 1 = true ∧
    (∃ k, (sess [] dCreate).freeSess ((sess [] dCreate).sessHome 1 (dCreate.pn 2)) = some k) ∧
    (sess [] dCreate).pagesCached (dCreate.pn 3) (mapPages 1) = false := by
  simp only [DataReady]
  refine ⟨?_, ?_, ?_, by simp [Mach.layIn, show dCreate.op 4 = 0 by decide +kernel], ?_, ?_, freeSess_some _ _ fun _ _ => rfl, ?_⟩ <;> decide +kernel

/-- A line of page 0 is cached. -/
def cached (m : Mach) : Mach := m.onExt fun x => { x with dir := [(0, { st := .owned, line := 5 })] }

theorem witness_SessionsComeAndGo :
    (∀ op ∈ [0x11, 0x12], let x := dtor op 0 0 []; let m := sess [(0, actSess)] x;
      (m.startable 9 op = some x ∧ m.byHandle x.handle = some (0, actSess) ∧ m.sessReleasing actSess = false ∧
        m.gate 0 actSess x = .runs) ∧ actSess.pitch = m.dtorPitch x ∧ actSess.st ≠ .parked) ∧
    (let m := sess [(0, actSess)] (dtor 0x11 0 0 []);
      DataReady (.destroy 9) (st m) ∧ m.sessCached actSess = false ∧ (cached m).sessCached actSess = true) ∧
    (DataReady (.setattr 9) (st (sess [(0, actSess)] (dtor 0x12 0 0 [5, 6]))) ∧ hasBit ((dtor 0x12 0 0 [5, 6]).opf 5 4 0) 4 = false) ∧
    (let x := dtor 0x12 0 0 [0, 0, 0, 0, 0, 16]; let m := sess [(0, actSess)] x;
      hasBit (x.opf 5 4 0) 4 = true ∧ (touched m 0).layIn x (x.op 4) = .word 0 ∧ layoutOk 0 actSess.npages = true) ∧
    (let s := { actSess with lease := 1, idle := 2000000000 }; let m := sess [(0, s)] (dtor 0x1A 0 0 []);
      DataReady (.expire 9) (st m) ∧ m.startable 9 0x1A = some (dtor 0x1A 0 0 []) ∧
      (m.sess.sess.filter fun e => m.expires 1 e.2) = [(0, s)] ∧
      ((m.sess.sess.filter fun e => m.expires 1 e.2).any fun e => m.sessCached e.2) = false) := by
  simp only [DataReady]
  refine ⟨?_, ?_, ?_, ⟨?_, by simp [Mach.layIn, show (dtor 0x12 0 0 [0, 0, 0, 0, 0, 16]).op 4 = 0 by decide +kernel], ?_⟩, ?_⟩ <;> decide +kernel

theorem witness_VersionsArePublished_publish :
    (let x := dtor 0x13 0 0 []; let m := sess [(0, actSess)] x;
      DataReady (.publish 9) (st m) ∧ (m.startable 9 0x13 = some x ∧ m.byHandle x.handle = some (0, actSess) ∧
        m.sessReleasing actSess = false ∧ m.gate 0 actSess x = .runs) ∧ actSess.busy ≠ some 9 ∧ actSess.npub < 63 ∧ actSess.nextver ≠ 0) ∧
    (let s := { actSess with st := .freezing, busy := some 9 }; let m := sess [(0, s)] (dtor 0x13 0 0 []);
      DataReady (.publishConvert 0) (st m) ∧ m.byHandle 0 = some (0, s) ∧ m.publishCached s = false ∧
      (pageRange s.wbase s.npages).filterMap m.newRef = [] ∧
      (m.roomFor s.pitch fun r => (((pageRange s.wbase s.npages).filter m.newEntry).filter fun pn => m.homeOf pn = r).length) = none) ∧
    (let s := { actSess with st := .freezing, busy := some 9 }; let m := (sess [(0, s)] (dtor 0x13 0 0 [])).setDesc 0 (.priv {});
      (m.roomFor s.pitch fun r => (((pageRange s.wbase s.npages).filter m.newEntry).filter fun pn => m.homeOf pn = r).length)
        = some stNoSpace) := by simp only [DataReady]; decide +kernel

theorem witness_VersionsArePublished_convert : ∃ m l, (sess [] (dtor 0x13 0 0 [])).convertAll 9 1 0 1 = .ok (m, l) := ⟨_, _, rfl⟩

theorem witness_VersionsArePublished_drop :
    ∀ n ∈ [0, 5], let x := dtor 0x14 0 1 []; let v := verSess n; let m := sess [(0, v)] x;
      DataReady (.drop 9) (st m) ∧ (m.startable 9 0x14 = some x ∧ m.byHandle x.handle = some (0, v) ∧ m.sessReleasing v = false ∧
        m.gate 0 v x = .runs) ∧ v.pitch = m.dtorPitch x ∧
      v.ver x.version = some { idx := 0, vnum := 1, views := n, vpages := 1, map := [.unwritten] } ∧
      m.pagesCached (v.mbase + 1 + 0 * slotPages v.npages) (slotPages v.npages) = false ∧ m.pagesCached v.mbase 1 = false := by
  simp only [DataReady]; decide +kernel

/-- FORK of version 1 of the session of record 16,384 to page 16 with its map area at page 2,048. -/
def dFork : Dtor := dtor 0x17 16384 1 [0, 0, 16 * 2 ^ 28, 2048 * 2 ^ 28]
/-- That session is there. -/
def forked : Mach := sess [(16384, verSess 0)] dFork

theorem witness_VersionsArePublished_fork :
    DataReady (.fork 9) (st forked) ∧ (forked.startable 9 0x17 = some dFork ∧ forked.byHandle dFork.handle = some (16384, verSess 0) ∧
      forked.sessReleasing (verSess 0) = false ∧ forked.gate 16384 (verSess 0) dFork = .runs) ∧
    ((verSess 0).ver dFork.version).isSome = true ∧ (touched forked 16384).rangesOk 1 (dFork.pn 2) 1 (dFork.pn 3) = true ∧
    (∃ k, (touched forked 16384).freeSess ((touched forked 16384).sessHome 1 (dFork.pn 2)) = some k) ∧
    (touched forked 16384).patNeeds (dFork.pn 2) [.unwritten] = [] ∧ (touched forked 16384).patRoom [] = true ∧
    (touched forked 16384).pagesCached (dFork.pn 2) 1 = false ∧ (touched forked 16384).pagesCached (dFork.pn 3) (mapPages 1) = false ∧
    (touched forked 16384).copyRefs [.unwritten] = [] ∧
    (∃ m, ((touched forked 16384).clearPages (dFork.pn 2) 1).forkSlots 9 1 (dFork.pn 2) [.unwritten] = .ok m) := by
  simp only [DataReady]
  refine ⟨?_, ?_, ?_, ?_, freeSess_some _ _ fun k hk => ?free, ?_, ?_, ?_, ?_, ?_, ⟨_, rfl⟩⟩
  case free =>
    have hr : (touched forked 16384).sessHome 1 (dFork.pn 2) = 0 := by decide +kernel
    rw [hr] at hk
    have hs : (touched forked 16384).sess.sess = [(16384, verSess 0)] := by decide +kernel
    rw [Mach.session, hs, tget, if_neg (by omega)]; rfl
  all_goals decide +kernel

/-- OPEN of version 1 at page 65,536, in the READ-SHARED extent 1. -/
def dOpen : Dtor := dtor 0x15 0 1 [0, 0, 65536 * 2 ^ 28]
/-- The session of that version. -/
def opening : Mach := sess [(0, verSess 3)] dOpen

theorem witness_ViewsOpenAndClose_open :
    DataReady (.openv 9) (st opening) ∧ (opening.startable 9 0x15 = some dOpen ∧ opening.byHandle dOpen.handle = some (0, verSess 3) ∧
      opening.sessReleasing (verSess 3) = false ∧ opening.gate 0 (verSess 3) dOpen = .runs) ∧
    (verSess 3).ver dOpen.version = some { idx := 0, vnum := 1, views := 3, vpages := 1, map := [.unwritten] } ∧
    (touched opening 0).rangeIn 1 (dOpen.pn 2) 1 (fun e => e.coh = .readShared) = true ∧
    (touched opening 0).rangeTaken (dOpen.pn 2) 1 = false ∧ (verSess 3).pitch = (touched opening 0).dtorPitch dOpen ∧
    (∃ k, (touched opening 0).freeView (0 / 16384) = some k) ∧ (touched opening 0).patNeeds (dOpen.pn 2) [.unwritten] = [] ∧
    (touched opening 0).patRoom [] = true := by
  simp only [DataReady]
  refine ⟨?_, ?_, ?_, ?_, ?_, ?_, freeView_some _ _ fun _ _ => rfl, ?_, ?_⟩ <;> decide +kernel

theorem witness_ViewsOpenAndClose_close :
    ∀ l ∈ [([] : Tab Session), [(0, verSess 1)]],
      let m := (sess l (dtor 0x16 0 0 [])).onView 0 fun _ => { live := true, pitch := 1, base := 65536, pages := 1, sess := 0, vnum := 1 };
      DataReady (.close 9) (st m) ∧ m.startable 9 0x16 = some (dtor 0x16 0 0 []) ∧
      m.viewByHandle 0 = some (0, { live := true, pitch := 1, base := 65536, pages := 1, sess := 0, vnum := 1 }) ∧
      m.dtorPitch (dtor 0x16 0 0 []) = 1 ∧ m.ticketsFull = false ∧ (m.byHandle 0 = none ∨ m.byHandle 0 = some (0, verSess 1)) := by
  simp only [DataReady]; decide +kernel

/-- `sess` of one session. -/
def sess1 (s : Session) (x : Dtor) : Mach := sess [(0, s)] x

theorem witness_SessionsParkAndReturn_park :
    (∀ s ∈ [actSess, { actSess with st := .parked }], let x := dtor 0x18 0 0 []; let m := sess1 s x;
      DataReady (.park 9) (st m) ∧ (m.startable 9 0x18 = some x ∧ m.byHandle x.handle = some (0, s) ∧ m.sessReleasing s = false ∧
        m.gate 0 s x = .runs) ∧ s.busy ≠ some 9) ∧
    (let m := sess1 actSess (dtor 0x18 0 0 []);
      m.hasKey 1 = true ∧ ((touched m 0).manifestSpace 1 ((touched m 0).manifestSize actSess)).isSome = true ∧
      m.sessCached actSess = false ∧ (cached m).sessCached actSess = true) ∧
    (∀ a ∈ [none, some 0], let s := { actSess with st := .parking, busy := some 9, sealAcks := a }; let m := sess1 s (dtor 0x18 0 0 []);
      DataReady (.manifestSeal 0) (st m) ∧ m.byHandle 0 = some (0, s) ∧ m.sessCached s = false ∧
      (m.parkSet s).all (m.parkedRef s) = true) := by simp only [DataReady]; decide +kernel

theorem witness_SessionsParkAndReturn_resume :
    ∀ s ∈ [actSess, { actSess with st := .parked }], let x := dtor 0x19 0 0 []; let m := sess1 s x;
      DataReady (.resume 9) (st m) ∧ (m.startable 9 0x19 = some x ∧ m.byHandle x.handle = some (0, s) ∧ m.sessReleasing s = false ∧
        m.gate 0 s x = .runs) ∧ x.version = 0 ∧ s.ver 0 = none ∧ x.opf 1 33 33 = 0 ∧ x.opf 1 24 0 = 0 ∧
      (touched m 0).listIn x s.npages = .spns (touched m 0) (List.range 1) := by
  simp only [DataReady]
  intro s hs
  simp only [List.mem_cons, List.not_mem_nil, or_false] at hs
  have h : (dtor 0x19 0 0 []).opf 1 24 0 = 0 := by decide +kernel
  rcases hs with rfl | rfl <;>
    refine ⟨?_, ?_, ?_, ?_, ?_, ?_, by simp [Mach.listIn, h, actSess]⟩ <;> decide +kernel

theorem witness_SessionsParkAndReturn_rest :
    (let m := (sess1 actSess { dtor 0x11 0 0 [] with stage := .waiting }).onSess fun x => { x with waitOps := [(0, 9)] };
      DataReady (.sessionOpResume 0) (st m) ∧ m.firstWaiter (keyOfHandle 0) = some 9) ∧
    DataReady (.detachHoldExpire 1 5) (st bound) ∧
    (let m := bound.onRegion 0 fun g => { g with reattach := [(1, some 0)] };
      DataReady (.reattachPeriodEnd 0 1) (st { m with cycle := 10 ^ 15 }) ∧ tget (m.region 0).reattach none 1 = some 0 ∧
      0 + m.reattachHold 1 < 10 ^ 15 ∧ m.inReattach 0 1 = true) := by simp only [DataReady]; decide +kernel
/-- What a manifest header of one page in three sectors of window 0 holds above SEAL, and below it. -/
@[irreducible] def hdrHi : Nat := 3 * 2 ^ 539 + 2 ^ 487
/-- below it -/
@[irreducible] def hdrLo : Nat := 0x5E55 * 2 ^ 240 + 2 ^ 232 + 2 ^ 226 + 3 * 2 ^ 96
/-- Its body: every record NONE. -/
def manBody : List Byte := List.replicate 1024 0
/-- REATTACH of it at page 0. -/
def dReattach : Dtor := dtor 0x1B 0 0 [0, 0, 0, 1024 * 2 ^ 28]
/-- The machine that takes it. -/
def reattaching : Mach := sess [] dReattach
/-- A number of three fields, the lower two of width `p`. -/
def three (p a b c : Nat) : Nat := (a * p + b) * p + c

theorem three_hi {p a b c : Nat} (hp : 0 < p) (hb : b < p) (hc : c < p) : three p a b c / (p * p) = a := by
  rw [three, ← Nat.div_div_eq_div_mul, Nat.mul_comm _ p, Nat.mul_add_div hp, Nat.div_eq_of_lt hc, Nat.add_zero, Nat.mul_comm a p,
    Nat.mul_add_div hp, Nat.div_eq_of_lt hb, Nat.add_zero]

theorem three_mid {p a b c : Nat} (hp : 0 < p) (hb : b < p) (hc : c < p) : three p a b c / p % p = b := by
  rw [three, Nat.mul_comm _ p, Nat.mul_add_div hp, Nat.div_eq_of_lt hc, Nat.add_zero, Nat.mul_comm a p, Nat.mul_add_mod,
    Nat.mod_eq_of_lt hb]

theorem three_lo {p a b c : Nat} (hc : c < p) : three p a b c % p = c := by
  rw [three, Nat.mul_comm _ p, Nat.mul_add_mod, Nat.mod_eq_of_lt hc]

theorem three_sub (p a b c : Nat) : three p a b c - b * p = a * p * p + c := by
  rw [three, Nat.add_mul]; omega

theorem bits_hi {e a b c : Nat} (hb : b < 2 ^ e) (hc : c < 2 ^ e) (hi lo : Nat) (h : e + e ≤ lo) (hl : lo ≤ hi) :
    bits (three (2 ^ e) a b c) hi lo = bits a (hi - (e + e)) (lo - (e + e)) := by
  obtain ⟨j, rfl⟩ := Nat.exists_eq_add_of_le h
  rw [bits, bits, Nat.pow_add, Nat.pow_add, ← Nat.div_div_eq_div_mul, three_hi (Nat.two_pow_pos _) hb hc, Nat.add_sub_cancel_left]
  congr 2; omega

theorem bits_mid {e a b c : Nat} (hb : b < 2 ^ e) (hc : c < 2 ^ e) (he : 0 < e) : bits (three (2 ^ e) a b c) (e + e - 1) e = b := by
  rw [bits, show e + e - 1 + 1 - e = e by omega, three_mid (Nat.two_pow_pos _) hb hc]

theorem bits_lo {e a b c : Nat} (hc : c < 2 ^ e) (hi lo : Nat) (h : hi < e) (hl : lo ≤ hi) :
    bits (three (2 ^ e) a b c) hi lo = bits c hi lo := by
  have hm (x : Nat) : x / 2 ^ lo % 2 ^ (hi + 1 - lo) = x % 2 ^ e / 2 ^ lo % 2 ^ (hi + 1 - lo) := by
    have hp : (2 : Nat) ^ e = 2 ^ lo * 2 ^ (e - lo) := by rw [← Nat.pow_add]; congr 1; omega
    have hd : 2 ^ (hi + 1 - lo) ∣ 2 ^ (e - lo) := Nat.pow_dvd_pow _ (by omega)
    rw [hp, Nat.mod_mul_right_div_self, Nat.mod_mod_of_dvd _ hd]
  rw [bits, bits, hm, three_lo hc]

theorem three_lt {e k a b c : Nat} (ha : a < 2 ^ k) (hb : b < 2 ^ e) (hc : c < 2 ^ e) : three (2 ^ e) a b c < 2 ^ (k + e + e) := by
  rw [Nat.pow_add, Nat.pow_add, Nat.mul_assoc, ← Nat.div_lt_iff_lt_mul (Nat.mul_pos (Nat.two_pow_pos _) (Nat.two_pow_pos _)),
    three_hi (Nat.two_pow_pos _) hb hc]
  exact ha

theorem hdrLo_lt : hdrLo < 2 ^ 256 := by decide +kernel
theorem hdrHi_lt : hdrHi < 2 ^ 3584 := by decide +kernel

/-- The header with `x` in SEAL. -/
@[irreducible] def manHdr (x : Nat) : Nat := three (2 ^ 256) hdrHi x hdrLo

theorem hdr_hi {x : Nat} (hx : x < 2 ^ 256) (hi lo : Nat) (h : 512 ≤ lo) (hl : lo ≤ hi) :
    bits (manHdr x) hi lo = bits hdrHi (hi - 512) (lo - 512) := by unfold manHdr; exact bits_hi hx hdrLo_lt hi lo h hl

theorem hdr_lo (x hi lo : Nat) (h : hi < 256) (hl : lo ≤ hi) : bits (manHdr x) hi lo = bits hdrLo hi lo := by
  unfold manHdr; exact bits_lo hdrLo_lt hi lo h hl

theorem hdr_seal {x : Nat} (hx : x < 2 ^ 256) : bits (manHdr x) 511 256 = x := by unfold manHdr; exact bits_mid hx hdrLo_lt (by decide)

theorem hdr_pieces {x : Nat} (hx : x < 2 ^ 256) : hdrPieces (manHdr x) = [(0, 0, 3)] := by
  have h : hdrPieces (manHdr x) = ((List.range 48).map fun j => let x := bits hdrHi (64 * j + 575) (64 * j + 512)
      (bits x 63 58, bits x 57 43, bits x 42 27)).filter fun x => x.2.2 ≠ 0 := by
    rw [hdrPieces]
    congr 1
    refine List.map_congr_left fun j _ => ?_
    have he : 64 * j + 1087 + 1 - (64 * j + 1024) = 64 := by omega
    have h1 : 64 * j + 1087 - 512 = 64 * j + 575 := Nat.add_sub_cancel (n := 64 * j + 575) (m := 512)
    have h2 : 64 * j + 1024 - 512 = 64 * j + 512 := Nat.add_sub_cancel (n := 64 * j + 512) (m := 512)
    have hb := hdr_hi hx (64 * j + 1087) (64 * j + 1024) (by omega) (by omega)
    rw [h1, h2, bits, he] at hb
    simp only [hb]
  rw [h]; decide +kernel

theorem hdr_sub (x : Nat) : manHdr x - x * 2 ^ 256 = hdrHi * 2 ^ 256 * 2 ^ 256 + hdrLo := by unfold manHdr; rw [three_sub]

theorem hdr_lt {x : Nat} (hx : x < 2 ^ 256) : (BitVec.ofNat 4096 (manHdr x)).toNat = manHdr x := by
  rw [BitVec.toNat_ofNat, Nat.mod_eq_of_lt]
  unfold manHdr
  exact three_lt hdrHi_lt hx hdrLo_lt

theorem man_seal : ∃ x, x < 2 ^ 256 ∧
    reattaching.sealOf 1 (hdrHi * 2 ^ 256 * 2 ^ 256 + hdrLo) (reattaching.bodyCipher 1 [(0, 1), (0, 2)] manBody) = x :=
  ⟨_, BitVec.isLt _, rfl⟩

theorem witness_SessionsParkAndReturn_reattach :
    ∃ h : BitVec 4096, DataReady (.reattach 9 h manBody) (st reattaching) ∧
    reattaching.startable 9 0x1B = some dReattach ∧ reattaching.dtorPitch dReattach = 1 ∧ reattaching.hasKey 1 = true ∧
    (reattaching.sess.sess.find? fun y => y.2.st = .reattaching && y.2.busy = some 9) = none ∧
    reattaching.manifestBad 1 (dReattach.opf 0 20 0) h.toNat manBody = false ∧ reattaching.windowsBad 1 h.toNat = false ∧
    (manifestOf h.toNat manBody).npages = 1 ∧
    reattaching.reattachRoom (manifestOf h.toNat manBody) 1 (dReattach.pn 2)
      (reattaching.poolPlans (manifestOf h.toNat manBody) 1 (dReattach.pn 2) (dReattach.pn 3)) = none ∧ reattaching.rangesOk 1 (dReattach.pn 2) 1 (dReattach.pn 3) = true ∧
    (∃ k, reattaching.freeSess (reattaching.sessHome 1 (dReattach.pn 2)) = some k) := by
  obtain ⟨x, hx, hs⟩ := man_seal
  refine ⟨BitVec.ofNat 4096 (manHdr x), ⟨rfl, by decide +kernel⟩, by decide +kernel, by decide +kernel, by decide +kernel, rfl, ?_, ?_, ?_, ?_,
    by decide +kernel, freeSess_some _ _ fun _ _ => rfl⟩ <;> rw [hdr_lt hx]
  · have ho : dReattach.opf 0 20 0 = 0 := by decide +kernel
    have hv : (winOf reattaching.fam reattaching.dict.cfg.vals 1 0).valid = true := by decide +kernel
    have ht : manBody.take 1024 = manBody := by decide +kernel
    have hp : (pieceSectors [(0, 0, 3)]).tail = [(0, 1), (0, 2)] := by decide
    have hn : 512 * (([((0 : Nat), (0 : Nat), (3 : Nat))].map fun x => x.2.2).foldl (· + ·) 0 - 1) = 1024 := by decide
    simp only [Mach.manifestBad, hdr_pieces hx, hdr_seal hx, hdr_lo x 255 240 (by decide) (by decide),
      hdr_lo x 239 232 (by decide) (by decide), hdr_lo x 231 226 (by decide) (by decide), hdr_lo x 127 96 (by decide) (by decide),
      ho, hp, hn, ht, hdr_sub, hs]
    simp [hv, mlocOf, areaSectors]
    decide +kernel
  · simp only [Mach.windowsBad, hdr_hi hx 840 777 (by decide) (by decide), hdr_lo x 46 15 (by decide) (by decide)]
    decide +kernel
  all_goals
    simp (disch := decide) only [manifestOf, hdr_hi hx, hdr_lo x, hdr_pieces hx]
    decide +kernel
/-! ### Services -/

/-- Memory for the Tally: HPA 0 upward is extent 0, whose pages 0 to 3 hold zeros, their descriptor line cached; HPA 2^40 upward is a
peer window of pitch 1; the function may not issue reads yet. -/
def tallyMem (l : Tab Session) (x : Dtor) : Mach :=
  let m := (((sess l x).onFn 0 fun y => { y with command := 2, dec0 := ⟨true, false, 0, 0x20000000, 0⟩ }).onRegion 0 fun g =>
    { g with pmc := [{ id := 0 }] }).onHub 0 fun h =>
    { h with cfg := { vals := sessSet.vals ++ [(0x510001, ⟨24, 1 + 2 ^ 56 + 2 ^ 64 + 40 * 2 ^ 82 + 2 ^ 116⟩)] } }
  m.onMem fun y => { y with descs := [(0, .const 1 0 0), (1, .const 1 0 0), (2, .const 1 0 0), (3, .const 1 0 0)] }

/-- A layout: LVER 1, EFMT BF16, one layer, one KV head, one token a page, one token. -/
def lay1 : Word := BitVec.ofNat 256 (2 ^ 231 + 2 ^ 127 + 2 ^ 119 + 2 ^ 112 + 2 ^ 102 + 2 ^ 96)
/-- A session under that layout. -/
def laySess : Session := { actSess with npages := 2, wbase := 2, layout := lay1 }
/-- ATTEND (20H) or SIFT (22H) over its token, with queries at `q`, its output at page 1, and OP5 as given. -/
def attendD (op q bm op5 : Nat) : Dtor :=
  dtor op 0 0 [q, 4096, bm, 2 ^ 58 + 2 ^ 25, 2 ^ 57 + 2 ^ 50 + (if op = 0x22 then 2 ^ 25 else 0), op5]
/-- Its machine. -/
def attending (op q bm op5 : Nat) : Mach := tallyMem [(0, laySess)] (attendD op q bm op5)

/-- What the statement asks before the inputs. -/
def attendHyp (op q bm op5 : Nat) : Prop :=
  let x := attendD op q bm op5; let m := attending op q bm op5; let t := touched m 0
  (m.startable 9 op = some x ∧ m.byHandle x.handle = some (0, laySess) ∧ m.sessReleasing laySess = false ∧ m.gate 0 laySess x = .runs) ∧
  m.up = true ∧ x.stage ≠ .running ∧ laySess.pitch = m.dtorPitch x ∧ x.version = 0 ∧ lay1 ≠ 0 ∧ t.attendCheck x (layoutOf lay1) = none ∧
  t.engines (let rs := ((x.tokenSpns (layoutOf lay1) x.tokens).filterMap fun i => t.refRegion (t.tallyRef x i)).eraseDups;
    if rs.isEmpty then [0] else rs) = some [0]

theorem witness_AttendAndSiftStart :
    (attendHyp 0x20 0 0 0 ∧ attendHyp 0x22 0 0 1 ∧ attendHyp 0x22 (2 ^ 40) 0 1 ∧ attendHyp 0x20 0 128 (3 * 2 ^ 20)) ∧
    ((touched (attending 0x20 0 0 0) 0).askInputs 9 [(false, 0, 128)]).inputsReady 9 [(false, 0, 128)] = true ∧
    ((touched (attending 0x22 0 0 1) 0).askInputs 9 [(false, 0, 128)]).inputsReady 9 [(false, 0, 128)] = true ∧
    ((touched (attending 0x22 (2 ^ 40) 0 1) 0).askInputs 9 [(false, 2 ^ 40, 128)]).inputsReady 9 [(false, 2 ^ 40, 128)] = false ∧
    (let bs := [(true, 128, 1), (false, 0, 128)]; let m := (touched (attending 0x20 0 128 (3 * 2 ^ 20)) 0).askInputs 9 bs;
      m.inputsReady 9 bs = true ∧ ∃ y ∈ m.dtorAt 9, y.maskKind = 3 ∧ (m.bufClean y (y.op 2) 1).isSome = true) := by
  simp only [attendHyp]
  refine ⟨?_, ?_, ?_, ?_, ?_, ⟨_, rfl, ?_⟩⟩ <;> decide +kernel

/-- The descriptors of the other operations. -/
def dMerge : Dtor := dtor 0x21 0 0 [0, 4096, 2 + 2 ^ 16]
/-- REDUCE -/
def dReduce : Dtor := dtor 0x23 0 0 [0, 4096, 64 + 2 * 2 ^ 32]
/-- COMPARE -/
def dCompare : Dtor := dtor 0x24 0 0 [0, 4096, 1]
/-- FILL -/
def dFill : Dtor := dtor 0x25 0 0 [5, 0, 0, 0, 1]
/-- COPY -/
def dCopy : Dtor := dtor 0x26 0 0 [0, 4096, 1]

theorem witness_TallyOperationsStart_merge :
    (let m := tallyMem [] dMerge;
      DataReady (.merge 9) (st m) ∧ m.startable 9 0x21 = some dMerge ∧ dMerge.opf 2 34 32 ≤ 4 ∧ dMerge.mergeSrc = 2 ∧ dMerge.mergeNq = 1 ∧
      m.bufFits dMerge 8 (dMerge.op 0) 16 = true ∧
      m.bufFits dMerge 64 (dMerge.op 1) (recBytes dMerge.mergeFinal dMerge.mergeD) = true ∧ m.bufResolve dMerge (dMerge.op 0) 16 = none ∧
      m.bufResolve dMerge (dMerge.op 1) (recBytes dMerge.mergeFinal dMerge.mergeD) = none) ∧
    (let m := tallyMem [] dReduce;
      DataReady (.reduce 9) (st m) ∧ m.startable 9 0x23 = some dReduce ∧ dReduce.redOp ≠ 3 ∧ dReduce.redSrc = 2 ∧ dReduce.redLen = 64 ∧
      m.bufFits dReduce 8 (dReduce.op 0) 16 = true ∧ m.bufFits dReduce 64 (dReduce.op 1) 64 = true ∧
      m.bufBarred dReduce (dReduce.op 1) 64 = false ∧ m.bufResolve dReduce (dReduce.op 0) 16 = none ∧
      m.bufResolve dReduce (dReduce.op 1) 64 = none) := by simp only [DataReady]; decide +kernel

/-- The list of sources holds 2^40 twice: outside the part. -/
def farList : Mach := (tallyMem [] dMerge).onMem fun y =>
  { y with descs := [(0, .const 1 0 1), (1, .const 1 0 0)], pats := [(1, { word := BitVec.ofNat 256 (2 ^ 40 + 2 ^ 104) })] }

theorem witness_TallyOperationsStart_sources :
    (let m := tallyMem [] dMerge; let bs := [(true, 0, 16)]; let a := m.askInputs 9 bs; let ins := [(false, 0, 320)];
      m.engines m.hubPick = some [0] ∧ m.serving ≠ [] ∧ a.inputsReady 9 bs = true ∧
      (∃ y ∈ a.dtorAt 9, a.sources y 2 = some [0, 0] ∧ a.bufFits y 64 0 320 = true ∧ a.bufResolve y 0 320 = none) ∧
      (a.askInputs 9 ins).inputsReady 9 ins = true) ∧
    (let bs := [(true, 0, 16)]; let a := farList.askInputs 9 bs; let ins := [(false, 2 ^ 40, 320)];
      a.inputsReady 9 bs = true ∧
      (∃ y ∈ a.dtorAt 9, a.sources y 2 = some [2 ^ 40, 2 ^ 40] ∧ a.bufFits y 64 (2 ^ 40) 320 = true ∧ a.bufResolve y (2 ^ 40) 320 = none) ∧
      (a.askInputs 9 ins).inputsReady 9 ins = false) :=
  ⟨⟨by decide +kernel, by decide +kernel, by decide +kernel, ⟨_, rfl, by decide +kernel⟩, by decide +kernel⟩,
    by decide +kernel, ⟨_, rfl, by decide +kernel⟩, by decide +kernel⟩

theorem witness_TallyOperationsStart_rest :
    (let m := tallyMem [] dCompare; let bs := [(false, 0, 1), (false, 4096, 1)];
      DataReady (.compare 9) (st m) ∧ m.startable 9 0x24 = some dCompare ∧ dCompare.cmpLen = 1 ∧ m.bufFits dCompare 1 0 1 = true ∧
      m.bufFits dCompare 1 4096 1 = true ∧ m.bufResolve dCompare 0 1 = none ∧ m.bufResolve dCompare 4096 1 = none ∧
      m.engines (m.bufRegions dCompare 0 1) = some [0] ∧ (m.askInputs 9 bs).inputsReady 9 bs = true ∧
      ((m.askInputs 9 bs).dtorAt 9).isSome = true) ∧
    (let m := tallyMem [] dFill;
      DataReady (.fill 9) (st m) ∧ m.startable 9 0x25 = some dFill ∧ dFill.opf 4 24 0 = 1 ∧ dFill.pn 4 = 0 ∧
      (m.extent (extOf 0)).st ≠ .free ∧ (m.extent (extOf 0)).pitch = m.dtorPitch dFill ∧ m.barred 0 1 = false ∧
      m.engines ((([0].map m.homeOf).eraseDups).filter fun r => (m.region r).st = .serving) = some [0]) ∧
    (let m := tallyMem [] dCopy; let bs := [(false, 0, 4096)];
      DataReady (.copy 9) (st m) ∧ m.startable 9 0x26 = some dCopy ∧ dCopy.opf 2 24 0 = 1 ∧ m.bufFits dCopy 4096 0 4096 = true ∧
      m.bufFits dCopy 4096 4096 4096 = true ∧ m.bufBarred dCopy 4096 4096 = false ∧ m.bufResolve dCopy 0 4096 = none ∧
      m.bufResolve dCopy 4096 4096 = none ∧ m.engines (m.bufRegions dCopy 4096 4096) = some [0] ∧
      (m.askInputs 9 bs).inputsReady 9 bs = true ∧ ∃ y ∈ (m.askInputs 9 bs).dtorAt 9, (m.askInputs 9 bs).inPart y 0 = true) := by
  simp only [DataReady]
  refine ⟨by decide +kernel, by decide +kernel, ?_⟩
  refine ⟨?_, ?_, ?_, ?_, ?_, ?_, ?_, ?_, ?_, ?_, ⟨_, rfl, ?_⟩⟩ <;> decide +kernel

/-- Descriptor 9 waits for region 0's Tally block, or runs there. -/
def tallyQ (run : Bool) (m : Mach) : Mach :=
  m.onRegion 0 fun g => if run then { g with tallySmall := [9] } else { g with tallyQ := [9] }

theorem witness_TallyBlocksAndFences :
    (let m := tallyQ false (tallyMem [] dCompare);
      let n := m.refillFor 0 10 ((m.tallyReady 0).map m.dtorPitch);
      DataReady (.tallyDispatch 0) (st m) ∧ m.tallyOk 0 = true ∧ (m.region 0).rolling = false ∧ m.tallyIssue = true ∧
      n.pickBy 0 10 (n.tallyPrio 0) (m.tallyReady 0) = some dCompare) ∧
    (let m := tallyMem [] dCompare; let n := m.refillFor 0 10 [];
      DataReady (.tallyDispatch 0) (st m) ∧ m.tallyOk 0 = true ∧ m.tallyIssue = true ∧ m.tallyReady 0 = [] ∧
      n.pickBy 0 10 (n.tallyPrio 0) [] = none) ∧
    (let m := tallyQ true (tallyMem [] dCompare);
      DataReady (.tallyRegionResult 0 9) (st m) ∧ 9 ∈ (m.region 0).tallySmall ∧ ((m.tallyCharge 0 9).workOn 0 9).workDone 0 9 = true) ∧
    (let m := tallyQ true ((attending 0x20 0 0 0).onDtor 9 fun y => { y with lay := lay1 });
      let n := m.onMem fun y => { y with descs := [(2, .priv { t1len := 9, rec_ := .t1 }), (3, .priv { t1len := 9, rec_ := .t1 })] };
      DataReady (.tallyRegionResult 0 9) (st n) ∧ ((n.tallyCharge 0 9).workOn 0 9).workDone 0 9 = false) ∧
    (let m := tallyMem [] (dtor 0 0 0 []); DataReady (.nop 9) (st m) ∧ m.startable 9 0 = some (dtor 0 0 0 [])) ∧
    (let x := dtor 1 0 0 []; let m := tallyMem [] x;
      DataReady (.fence 9) (st m) ∧ m.dtorAt 9 = some x ∧ x.isFence = true ∧ m.before x = [] ∧ m.svc.wrs = [] ∧ m.svc.wrWait = []) ∧
    (let x := { dtor 1 0 0 [] with seq := 1 }; let m := (tallyMem [] x).onSvc fun v => { v with dtors := [{ dCompare with id := 8 }, x] };
      m.dtorAt 9 = some x ∧ m.before x ≠ []) ∧
    (let x := { dtor 1 0 0 [] with seq := 1 }; let w : WTrk := ⟨0, 6, 2000000000, .data 0 0 0 8 0⟩;
      let m := (tallyMem [] x).onSvc fun v => { v with wrs := [w] };
      DataReady (.fence 9) (st m) ∧ m.dtorAt 9 = some x ∧ x.isFence = true ∧ ∃ w ∈ m.svc.wrs, m.writesOut x w.owner = true) := by
  simp only [DataReady]; decide +kernel

/-- Function 0's queue 3 as given. -/
def queue3 (q : Queue) : Mach := bound.onQueue 0 3 fun _ => q
/-- QPARAM of a queue 3 of 16 slots created at version 2.1, its rings in the peer window. -/
def creating (v : BitVec 64) : Mach :=
  ((tallyMem [] (dtor 0 0 0 [])).onFn 0 fun x => { x with qsqbase := 0x10000000000, qcqbase := 0x10000001000, qparam := v })

theorem witness_QueueRegisters :
    (let m := creating 0x02010403; DataReady (.queueCreate 0) (st m) ∧ m.barOpen 0 = true ∧ (m.fn 0).qbusy = none ∧
      m.createCheck 0 = .ok { st := .active, sqbase := 2 ^ 40, cqbase := 2 ^ 40 + 4096, log2 := 4, maj := 2, min := 1, pitch := 1 }) ∧
    (creating 0x02010303).createCheck 0 = .error stBadOperand ∧
    (DataReady (.queueDelete 0) (st (queue3 { st := .active })) ∧
      (let m := (queue3 { st := .active }).onFn 0 fun x => { x with qparam := 3 };
        (m.queue 0 (bits (m.fn 0).qparam.toNat 5 0)).st = .active ∧ m.barOpen 0 = true ∧ (m.fn 0).qbusy = none)) ∧
    ((queue3 {}).queue 0 3).st = .free ∧
    (DataReady (.sqtail 0 3 15) (st (queue3 { st := .active })) ∧ bits (15#64).toNat 15 0 < 2 ^ ((queue3 { st := .active }).queue 0 3).log2) ∧
    2 ^ ((queue3 { st := .active }).queue 0 3).log2 ≤ bits (16#64).toNat 15 0 ∧
    (DataReady (.cqhead 0 3 1) (st (queue3 { st := .active, written := [7] })) ∧
      (1 + 16 - 0) % 16 ≤ ((queue3 { st := .active, written := [7] }).queue 0 3).written.length ∧
      ((queue3 { st := .active, written := [7] }).queue 0 3).written.length < (2 + 16 - 0) % 16) := by
  simp only [DataReady]
  exact ⟨⟨by decide +kernel, by decide +kernel, by decide +kernel, rfl⟩, rfl, by decide, by decide, by decide, by decide, by decide⟩

/-- A read tag of port 0. -/
def rtag (o : RdOwner) : RTag := { port := 0, tag := 4, svc := true, issue := 0, deadline := 2000000000, cplto := 1000000, n := 2, owner := o }
/-- `m` with that tag in use. -/
def tagged (o : RdOwner) (m : Mach) : Mach := m.onSvc fun v => { v with tags := [rtag o] }
/-- A fetch of one slot of queue 3 is out. -/
def fetching : Mach := tagged (.fetch 0 3) (queue3 { st := .active, pitch := 1, fetching := some (0, 1), sqtail := 1 })

theorem witness_FetchesAndDeadlines :
    (let m := queue3 { st := .active, pitch := 1, sqtail := 1 };
      DataReady (.descriptorFetch 0 1) (st m) ∧ m.uioOpen 0 = true ∧ m.fetchNext 0 1 = some (0, 3)) ∧
    (DataReady (.fetchComplete 0 4 [⟨0, false⟩, ⟨0, false⟩]) (st fetching) ∧ fetching.tagAt 0 4 = some (rtag (.fetch 0 3)) ∧
      fetching.cycle ≤ (rtag (.fetch 0 3)).deadline ∧ (fetching.queue 0 3).fetching = some (0, 1) ∧
      (wholeSlots 1 [⟨0, false⟩, ⟨0, false⟩]).length = 1 ∧ (wholeSlots 1 [⟨0, false⟩, ⟨0, true⟩]).length < 1) ∧
    (∀ g ∈ [DStage.dispatched, .running], let x := { dtor 0x10 0 0 [] with deadline := some 1999999999, stage := g }; let m := sess [] x;
      DataReady (.deadlineExpire 9) (st m) ∧ m.dtorAt 9 = some x ∧ 1999999999 < m.cycle ∧ untilStart x.opcode = true ∧ x.stage ≠ .writing) ∧
    (let x := { dtor 0x26 0 0 [] with deadline := some 1999999999, stage := .writing }; let m := sess [] x;
      DataReady (.deadlineExpire 9) (st m) ∧ m.dtorAt 9 = some x ∧ 1999999999 < m.cycle ∧ untilStart x.opcode = false) := by
  simp only [DataReady]; decide +kernel

theorem witness_ReadsAndWritesComplete :
    (let m := tagged .gone bound;
      DataReady (.readCompletion 0 4 .success 0 [⟨0, false⟩, ⟨0, false⟩]) (st m) ∧ m.memOpen 0 = true ∧ m.tagAt 0 4 = some (rtag .gone) ∧
      (rtag .gone).quar = false ∧ m.cycle ≤ (rtag .gone).deadline ∧
      (rtag .gone).n ≤ (layWords (rtag .gone).words 2 0 [⟨0, false⟩, ⟨0, false⟩]).length ∧
      (layWords (rtag .gone).words 2 1 [⟨0, false⟩]).length < (rtag .gone).n) ∧
    (let m := bound.onPort 0 fun p => { p with unexpAt := some bound.msec };
      DataReady (.readCompletion 0 4 .ur 0 []) (st m) ∧ m.memOpen 0 = true ∧ m.tagAt 0 4 = none ∧ (m.port 0).unexpAt = some m.msec) ∧
    (let m := { tagged .gone bound with cycle := 2000000001 };
      DataReady (.completionTimeout 0 4) (st m) ∧ m.tagAt 0 4 = some (rtag .gone) ∧ (rtag .gone).deadline < m.cycle) ∧
    (let t := { rtag .gone with quar := true }; let m := bound.onSvc fun v => { v with tags := [t] };
      DataReady (.tagQuarantineEnd 0 4) (st m) ∧ m.tagAt 0 4 = some t ∧ t.issue + 2 * t.cplto ≤ m.cycle ∧ m.normal 0 = true) ∧
    (let m := bound.onSvc fun v => { v with wrs := [⟨0, 6, 2000000000, .cqe 0 3 0 9⟩] };
      DataReady (.writeCompletion 0 6 .ca) (st m) ∧ m.memOpen 0 = true ∧ m.writeAt 0 6 = some ⟨0, 6, 2000000000, .cqe 0 3 0 9⟩ ∧
      m.cycle ≤ 2000000000 ∧ DataReady (.writeTimeout 0 6) (st { m with cycle := 2000000001 })) ∧
    (DataReady (.writeCompletion 0 6 .success) (st bound) ∧ bound.writeAt 0 6 = none) := by simp only [DataReady]; decide

/-- Extent 5 offered to function 0 until cycle `t`. -/
def offered (t : Nat) : Mach := bound.onExtent 5 fun _ => { st := .adding, pitch := 1, offer := [(0, t)] }
/-- Extent 0 RELEASING with its recalls still to start in region 0. -/
def releasing (c : Coh) : Mach := boundExt fun x => { x with st := .releasing, coh := c, recalling := [0] }

theorem witness_ExtentsAreAcceptedAndReleased :
    (DataReady (.addDynamicCapacityResponse 0 [5]) (st (offered 1999999999)) ∧ (offered 1999999999).barOpen 0 = true ∧
      [5].all (((offered 1999999999).ext.exts.filter fun x => x.2.offer.any fun o => o.1 = 0).map (·.1)).contains = true ∧
      [6].all (((offered 1999999999).ext.exts.filter fun x => x.2.offer.any fun o => o.1 = 0).map (·.1)).contains = false) ∧
    (DataReady (.offerTimeout 5 0) (st (offered 1999999999)) ∧ (0, 1999999999) ∈ ((offered 1999999999).extent 5).offer) ∧
    (DataReady (.releaseDynamicCapacity 0 0) (st bound) ∧ bound.granted 0 0 = true ∧ (bound.extent 0).st = .active ∧
      (bound.extent 0).grant = 1#128 <<< 0 ∧ ((boundExt fun x => { x with grant := 3 }).extent 0).grant ≠ 1#128 <<< 0) ∧
    (∀ c ∈ [Coh.tracked, .readShared, .uncached], DataReady (.releaseRecallStart 0 0) (st (releasing c)) ∧
      ((releasing c).extent 0).st = .releasing ∧ 0 ∈ ((releasing c).extent 0).recalling ∧ 0 ∉ ((releasing c).extent 0).started ∧
      ((releasing c).closeViews 0).extentWaits 0 0 = false ∧ ((releasing c).extent 0).endedBy = none ∧
      ((releasing c).extent 0).ticket = none ∧ ((releasing c).closeViews 0).ticketsFull = false) ∧
    ((releasing .tracked).onExtent 0 fun x => { x with endedBy := some 0 }).extent 0 =
      { (releasing .tracked).extent 0 with endedBy := some 0 } ∧
    (let m := (releasing .uncached).onExtent 0 fun x => { x with started := [0] };
      DataReady (.releaseClear 0) (st m) ∧ m.recalled 0 = true) := by simp only [DataReady]; decide

/-- `bound` with function 0's lease as given. -/
def leased (f : Func → Func) : State := st (bound.onFn 0 f)
/-- A retirement of pages 0 to 3 that function 0 owes. -/
def retiring (l : List Sweep) : Mach :=
  { (bound.onExt fun x => { x with tickets := [{ num := 3, base := 0, pages := 4, pitch := 1, owed := [0], start := 0, sweeps := l }] }) with
    cycle := 10 ^ 13 }

theorem witness_LeasesAndRetirements :
    (DataReady (.renew 0 1) (leased fun x => { x with lease := .held, leaseAt := 2000000000 }) ∧
      (leased fun x => { x with lease := .held, leaseAt := 2000000000 }).m.leaseLive 0 = true ∧ bound.barOpen 0 = true ∧
      (1#64).getLsbD 0 = true) ∧
    (DataReady (.leaseLow 0) (leased fun x => { x with lease := .held, leaseAt := 2000000000 }) ∧
      4 * (2000000000 - bound.cycle) < bound.leaseTerm (bound.pitchOf 0)) ∧
    (DataReady (.leaseExpire 0) (leased fun x => { x with lease := .held, leaseAt := 1999999999 }) ∧ bound.sys.steward.isSome = true ∧
      1999999999 < bound.cycle) ∧
    DataReady (.leaseDeferredExpire 0) (leased fun x => { x with leaseDefer := some 1999999999 }) ∧
    (let m := (boundExt fun x => { x with grant := 0 }).onFn 0 fun x => { x with lease := .ending };
      DataReady (.leaseExpired 0) (st m) ∧ (m.fn 0).lease = .ending ∧ m.heldBy 0 = []) ∧
    (DataReady (.retireack 0 3) (st (retiring [])) ∧ (retiring []).barOpen 0 = true) ∧
    (DataReady (.retirementSweepStart 3 0) (st (retiring [])) ∧
      ∃ t ∈ (retiring []).ticketAt 3, 0 ∈ t.owed ∧ (∀ w ∈ t.sweeps, w.fn ≠ 0) ∧ t.start + ms 1 < (retiring []).cycle) ∧
    (DataReady (.blockSnoopTimeout 3 0) (st (retiring [⟨0, 1, [(0, 5)]⟩])) ∧
      ∃ t ∈ (retiring [⟨0, 1, [(0, 5)]⟩]).ticketAt 3, t.region = none ∧
        ((t.sweeps.filter fun x => x.fn = 0).findSome? fun x => x.sent.find? fun y =>
          decide (y.2 + (retiring [⟨0, 1, [(0, 5)]⟩]).leaseTerm t.pitch < (retiring [⟨0, 1, [(0, 5)]⟩]).cycle)) = some (0, 5)) := by
  simp only [DataReady]
  exact ⟨by decide, by decide, by decide, by decide, by decide, by decide, ⟨by decide, ⟨_, rfl, by decide, by decide, by decide⟩⟩,
    ⟨by decide, ⟨_, rfl, by decide, by decide⟩⟩⟩

/-- A request of client 1 over the field port, version 3, SEQ 7. -/
def hdr : MHdr := ⟨.udp 1 2, 3, 1, 7⟩
/-- Client 1. -/
def c3 : Client := { live := true, src := .udp 1 2, v := 3 }
/-- Client 1, authenticated. -/
def c3a : Client := { c3 with auth := true, spdm := 5 }
/-- `bound` with that client. -/
def cl (c : Client) : Mach := bound.onClient 1 fun _ => c

theorem witness_DictionaryRequests_hello (probe : Bool) :
    let h : MHdr := ⟨.udp 1 2, 1, 0, 1⟩;
    UnitReady (.hello h 1 3 probe) (st bound) ∧ bound.pathOpen h.src = true ∧ bound.dictUp = true ∧ h.client = 0 ∧ 1 ≤ 3 ∧ 1 ≤ min 3 3 ∧
      bound.liveClients < 16 ∧
      ∃ i, pickFree (fun i => (bound.client (i + 1)).live) 65535 bound.dict.clients.length bound.drawn = some i := by
  simp only [UnitReady]
  refine ⟨⟨by cases probe <;> decide, by decide⟩, by decide, by decide, by decide, by decide, by decide, by decide, ?_⟩
  refine ⟨bound.drawn % 65535, ?_⟩
  have hc : bound.dict.clients = [] := by decide
  simp [pickFree, scanFree, Mach.client, hc]

/-- A power limit of 1,000 W, the standing object of index 2000H. -/
def capEntry : WEntry := ⟨0x2000, 2, 3, ⟨2, 1000⟩⟩

theorem witness_DictionaryRequests_write :
    (let m := cl { c3 with edit := some { areas := 0xFFFF } };
      (∀ e ∈ [capEntry], m.writeCheck (m.client hdr.client) false e = 0) ∧ (∀ e ∈ [capEntry], m.accOf e ≠ some .cmd) ∧
      (∀ e ∈ [capEntry], e.index ≠ 0x3000) ∧ m.stages [capEntry] = true ∧ (m.client hdr.client).edit = some { areas := 0xFFFF } ∧
      (m.staged { areas := 0xFFFF } [capEntry]).fits = true) ∧
    (let m := cl c3; let e : WEntry := ⟨0x8000, 1, 5, ⟨8, 0⟩⟩;
      (∀ x ∈ [e], m.writeCheck (m.client hdr.client) false x = 0) ∧ (∀ x ∈ [e], m.accOf x ≠ some .cmd) ∧ m.stages [e] = false) := by
  decide +kernel

/-- A request of a live client that waits for no answer is taken up. -/
theorem serves (m : Mach) (h : MHdr) (msg : DMsg) (hp : m.pathOpen h.src = true ∧ m.dictUp = true ∧ m.dict.inst = none)
    (hc : (m.client h.client).live = true ∧ (m.client h.client).src = h.src ∧ (m.client h.client).lastSeq = none ∧
      h.ver = (m.client h.client).v ∧ 3 ≤ (m.client h.client).v) (hm : (msgType msg).2 ≤ 3) : Serves m h (m.client h.client).auth msg := by
  obtain ⟨a, b, c⟩ := hp
  obtain ⟨d, e, f, g, i⟩ := hc
  exact ⟨a, b, c, d, e, by simp [f], .inl f, g, by omega, fun _ => i, rfl⟩

theorem witness_DictionaryRequests_read :
    (∀ c ∈ [Instr.read hdr false [(0x2000, 2)], .dictionaryMessage 0 hdr (.read false [(0x2000, 2)]) 24],
      let h := if c = .read hdr false [(0x2000, 2)] then hdr else { hdr with src := .inband 0 };
      let m := cl { c3 with src := h.src };
      UnitReady c (st m) ∧ c.dictMsg = some (h, false, .read false [(0x2000, 2)]) ∧ Serves m h false (.read false [(0x2000, 2)])) ∧
    (∀ off ∈ [0, 16], let v : OVal := ⟨32, 5⟩; let m := heard (cl { c3 with rblock := some (okey 0x2100 2, 8, v) }) hdr;
      objAt .f16 0x2100 2 = some ⟨8, .ro, 32, 32, ⟨32, 0⟩⟩ ∧ (∃ w, m.valueOf (m.client 1) false 0x2100 2 ⟨8, .ro, 32, 32, ⟨32, 0⟩⟩ = some w) ∧
        (m.client 1).rblock = some (okey 0x2100 2, 8, v) ∧ off ≤ v.len) := by
  refine ⟨?_, ?_⟩
  · intro c hc
    simp only [List.mem_cons, List.not_mem_nil, or_false] at hc
    rcases hc with rfl | rfl <;>
      exact ⟨⟨by decide, by decide⟩, by decide, serves _ _ _ (by decide) (by decide) (by decide)⟩
  · intro off ho v m
    exact ⟨by decide, ⟨_, rfl⟩, rfl, by
      simp only [List.mem_cons, List.not_mem_nil, or_false] at ho; rcases ho with rfl | rfl <;> decide⟩

/-- `cl` of client 1 with a T1 floor of 16 GiB for pitch 1. -/
def floored : Mach :=
  let cfg : CfgSet := { gen := 1, vals := [(0x300101, ⟨1, 1⟩), (0x300105, ⟨4, 16384⟩), (0x300106, ⟨4, 16384⟩), (0x500040, ⟨1, 1⟩)] }
  ((cl c3).onDict fun d => { d with cfg := cfg }).onRegion 0 fun g => { g with cfg := cfg, eff := cfg }

/-- Client 1 holding an edit of the power limit. -/
def c3e : Client := { c3 with edit := some { areas := 0xFFFF, vals := [(okey 0x2000 2, ⟨2, 1000⟩)] } }

theorem witness_DictionaryRequests_rest :
    (∀ x ∈ [(Instr.write hdr [capEntry], DMsg.write [capEntry]),
        (.writeBlock hdr 0x6020 2 8 3 0 [1, 2] true, .writeBlock 0x6020 2 8 3 0 [1, 2] true),
        (.writeBlock hdr 0x6020 2 8 3 2 [3] false, .writeBlock 0x6020 2 8 3 2 [3] false),
        (.stage hdr 2, .stage 2), (.commit hdr 0, .commit 0), (.commit hdr 1, .commit 1), (.abort hdr, .abort),
        (.subscribe hdr 1 0 0, .subscribe 1 0 0), (.subscribe hdr 0 0 0, .subscribe 0 0 0), (.spdm hdr .getVersion, .spdm .getVersion),
        (.bye hdr, .bye)],
      let m := cl { c3e with wblock := some (okey 0x6020 2, 8, 3, 2, 0x201) };
      UnitReady x.1 (st m) ∧ x.1.dictMsg = some (hdr, false, x.2) ∧ Serves m hdr false x.2 ∧
        (m.client 1).wblock = some (okey 0x6020 2, 8, 3, 2, 0x201) ∧ (m.client 1).edit = c3e.edit ∧ m.sec.fenced = false ∧
        (1 = m.dict.cfg.gen) ∧ m.dict.clients.map (·.1) = [1]) ∧
    (let m := floored; (m.commitBad { areas := 0xFFFF, vals := [(okey 0x2000 2, ⟨2, 1000⟩)] }) = none) ∧
    (2#16 &&& ~~~lockable = 0 ∧ (2#16).getLsbD 10 = false ∧ (2#16).getLsbD 13 = false ∧ 0x2400#16 &&& ~~~lockable = 0 ∧
      c3a.auth = true ∧ c3a.prov = false) ∧
    (∀ x ∈ [(Instr.secured hdr (.spdm .endSession), DMsg.spdm .endSession), (.secured hdr .bye, .bye)],
      let m := cl c3a; UnitReady x.1 (st m) ∧ x.1.dictMsg = some (hdr, true, x.2) ∧ Serves m hdr true x.2) := by
  have hs (c : Client) (msg : DMsg) (hp : (cl c).pathOpen (.udp 1 2) = true ∧ (cl c).dictUp = true ∧ (cl c).dict.inst = none)
      (hc : c.live = true ∧ c.src = .udp 1 2 ∧ c.lastSeq = none ∧ c.v = 3) (hm : (msgType msg).2 ≤ 3) : Serves (cl c) hdr c.auth msg := by
    have e : (cl c).client 1 = c := onClient_same bound 1 fun _ => c
    have h := serves (cl c) hdr msg hp (by
      show ((cl c).client 1).live = true ∧ ((cl c).client 1).src = .udp 1 2 ∧ ((cl c).client 1).lastSeq = none ∧
        3 = ((cl c).client 1).v ∧ 3 ≤ ((cl c).client 1).v
      rw [e]; exact ⟨hc.1, hc.2.1, hc.2.2.1, hc.2.2.2.symm, by omega⟩) hm
    rwa [show hdr.client = 1 from rfl, e] at h
  refine ⟨?_, by decide +kernel, by decide, ?_⟩
  · intro x hx
    simp only [List.mem_cons, List.not_mem_nil, or_false] at hx
    rcases hx with rfl | rfl | rfl | rfl | rfl | rfl | rfl | rfl | rfl | rfl | rfl <;>
      exact ⟨⟨by decide, by decide⟩, by decide, hs _ _ (by decide) (by decide) (by decide), by decide, by decide, by decide, by decide, by decide⟩
  · intro x hx
    simp only [List.mem_cons, List.not_mem_nil, or_false] at hx
    rcases hx with rfl | rfl <;>
      exact ⟨⟨by decide, by decide⟩, by decide, hs _ _ (by decide) (by decide) (by decide)⟩

theorem witness_DictionaryRequests_spdm :
    let m := { cl c3a with sec := { idKey := some 5 } };
    let ctx (l : Nat) : SpdmCtx := ⟨min 3 l, l = 4, l = 5, l ≠ 5 && decide (m.spdmCount < 64), m.signs⟩;
    (m.spdmAnswer (ctx 0) .getVersion).2.2 = .none ∧ (m.spdmAnswer (ctx 3) (.keyExchange 0)).2.2 = .opened ∧
      (m.spdmAnswer (ctx 4) (.finish 9 true)).2.2 = .finished ∧ (m.spdmAnswer (ctx 4) (.finish 9 false)).2.2 = .failed ∧
      (m.spdmAnswer (ctx 5) .endSession).2.2 = .ended := by decide +kernel

/-- A commit of client 1 that region 0 and hub 0 have still to install. -/
def committing (hs rs : List Nat) : Mach :=
  { cl { c3 with lastSeq := some 7 } with
    dict := { (cl { c3 with lastSeq := some 7 }).dict with inst := some ⟨hs, rs, bindSet, 1, 7, 1999999000, bindSet, 0⟩ } }
/-- The commit itself. -/
def inst0 (hs rs : List Nat) : InCommit := ⟨hs, rs, bindSet, 1, 7, 1999999000, bindSet, 0⟩

theorem witness_CommitsComplete :
    ((committing [0] []).dict.inst = some (inst0 [0] []) ∧ UnitReady (.configInstall true 0) (st (committing [0] [])) ∧
      0 ∈ (inst0 [0] []).hubs) ∧
    ((committing [] [0]).dict.inst = some (inst0 [] [0]) ∧ UnitReady (.configInstall false 0) (st (committing [] [0])) ∧
      0 ∈ (inst0 [] [0]).regions) ∧
    (let m := committing [] []; UnitReady .commitAcknowledged (st m) ∧ m.dict.inst = some (inst0 [] []) ∧
      m.sys.steward.isSome = true ∧ (m.client 1).live = true ∧ (m.client 1).lastSeq = some (inst0 [] []).seq) ∧
    ((up.region 0).st = .serving ∧ up.sys.steward.isSome = true ∧ UnitReady (.digestRecheck 0 true) (st up) ∧ up.dict.inst = none ∧
      (let f := ((up.onRegion 0 fun g => { g with digestAt := up.cycle }).log 0x0702 0 1 0 [(8, 0)]).onRegion 0 fun g => { g with rstate := 3 };
        f.dict.inst = none ∧ f.sys.steward.isSome = true) ∧
      UnitReady (.digestRecheck 0 false) (st up) ∧ (up.region 0).digestAt + ms 1000 ≤ up.cycle ∧ (up.region 0).rstate ≠ 3) ∧
    (let m := { cl c3 with cycle := 10 ^ 15 }; UnitReady (.clientTimeout 1) (st m) ∧ (m.client 1).live = true ∧
      (m.client 1).at_ + ms 1000 * m.cfgN 0x1100 4 < m.cycle) ∧
    (let m := { cl c3e with cycle := 10 ^ 15 }; UnitReady (.editTimeout 1) (st m) ∧ (m.client 1).edit = c3e.edit ∧
      0 + ms 1000 * m.cfgN 0x1100 5 < m.cycle) := by simp only [UnitReady]; decide +kernel

/-- A record for client 1. -/
def rec1 : EvRec := ⟨1, 5, 0x0701, 0, 6, 0, 0, 0, 0⟩

theorem witness_CommitsComplete_events :
    (let m := cl { c3 with sub := some (1, 0, 0), evq := [rec1] }; UnitReady (.eventSend 1) (st m) ∧ (m.client 1).src = .udp 1 2 ∧
      (m.client 1).live = true ∧ (m.client 1).sub ≠ none ∧ (m.client 1).evq ≠ [] ∧ m.dictUp = true ∧ m.pathOpen (.udp 1 2) = true ∧
      (m.client 1).evAt = none) ∧
    (∀ n ∈ [1, 31], let m := cl { c3 with src := .inband 0, sub := some (1, 0, 0), evq := [rec1] };
      UnitReady (.dictionaryEvents 0 1 n) (st m) ∧ m.pathOpen (.inband 0) = true ∧ m.dictUp = true ∧ (m.client 1).live = true ∧
        (m.client 1).src = .inband 0) ∧
    (∀ w ∈ [DgramFault.header, .frame], UnitReady (.malformedDatagram (.udp 1 2) w 3 1 7) (st up) ∧ up.pathOpen (.udp 1 2) = true ∧ up.dictUp = true) ∧
    (up.hub 0).failed = false := by
  simp only [UnitReady]; decide

theorem witness_FieldPortAnswers :
    ((up.hub 0).failed = false ∧ UnitReady (.neighbourSolicitation ownAddr 5) (st up) ∧ up.fp.addrOk = true ∧
      UnitReady (.icmpv6Echo 5 1 1 [8]) (st up)) ∧
    (∀ b ∈ [false, true], UnitReady (.duplicateAddressDetection b) (st { up with fp := {} })) ∧ ({ up with fp := {} }).fp.addrOk = false ∧
    ({ up with fp := {} }).fp.addrDup = false ∧ UnitReady .plcaBeacon (st up) ∧ up.fp.nodeid = 0 ∧
    (∀ n ∈ [1, 63], let m := { up with fp := { addrOk := true, nodeid := n } }; UnitReady .plcaBeacon (st m) ∧ m.fp.nodeid ≠ 0) := by
  simp only [UnitReady]; decide

/-- Client 1 is served whatever else stands in the machine. -/
def served (m : Mach) (h : MHdr) (msg : DMsg) : Bool :=
  decide (m.pathOpen h.src = true ∧ m.dictUp = true ∧ m.dict.inst = none) &&
    decide ((m.client h.client).live = true ∧ (m.client h.client).src = h.src ∧ (m.client h.client).lastSeq = none ∧
      h.ver = (m.client h.client).v ∧ 3 ≤ (m.client h.client).v) && decide ((msgType msg).2 ≤ 3)

theorem served_serves (m : Mach) (h : MHdr) (msg : DMsg) (hs : served m h msg = true) : Serves m h (m.client h.client).auth msg := by
  simp only [served, Bool.and_eq_true, decide_eq_true_eq] at hs
  exact serves m h msg hs.1.1 hs.1.2 hs.2

/-- `floored` with LOSSY 1 for pitch 1. -/
def lossy1 : Mach :=
  floored.onDict fun d => { d with cfg := { d.cfg with vals := [(0x300101, ⟨1, 1⟩), (0x300105, ⟨4, 16384⟩), (0x300106, ⟨4, 16384⟩),
    (0x300110, ⟨1, 1⟩), (0x500040, ⟨1, 1⟩)] } }

theorem witness_CommandObjectsAct :
    (∀ m ∈ [floored, lossy1], Serves m hdr (m.client hdr.client).auth (.write []) ∧ m.sec.fenced = false) ∧
    (∀ p ∈ [1, 63], ∀ c ∈ [Instr.reattachend hdr p ⟨1, 1⟩, .reattachend hdr p ⟨1, 0⟩, .drain hdr p ⟨1, 1⟩, .drainRelease hdr p ⟨1, 0⟩,
        .clear hdr p ⟨1, 1⟩, .clear hdr p ⟨1, 0⟩, .extrel hdr p ⟨4, 0⟩, .extgrant hdr p ⟨20, 2 ^ 32⟩, .extadd hdr p ⟨28, 2 ^ 32 + 1⟩,
        .release hdr 0 ⟨1, 1⟩, .release hdr 7 ⟨1, 0⟩, .leaserenew hdr 0 0 ⟨1, 1⟩, .leaserenew hdr 7 15 ⟨1, 0⟩, .restart hdr 0 ⟨1, 1⟩,
        .restart hdr 15 ⟨1, 0⟩], UnitReady c (st floored)) ∧
    (let m := heard (floored.onQueue 0 3 fun _ => { st := .drained, pitch := 1 }) hdr;
      m.queuesOf 1 = [(0, 3)] ∧ ∀ x ∈ m.queuesOf 1, (m.queue x.1 x.2).st = .drained) ∧
    (let m := heard floored hdr;
      (m.extent 0).st = .active ∧ (m.extent 0).pitch = 1 ∧ m.grantsOk 1 1 = true) ∧
    (let m := heard (floored.onPort 0 fun p => { p with contained := true }) hdr; (m.hub 0).failed = false ∧ m.canRelease 0 = true) ∧
    (heard (floored.onFn 0 fun x => { x with lease := .held, leaseAt := 2000000000 }) hdr).leaseLive 0 = true ∧
    (heard (floored.onRegion 0 fun g => { g with st := .fenced, fenceCause := 6 }) hdr).canRestart 0 = true := by
  refine ⟨?_, ?_⟩
  · intro m hm
    simp only [List.mem_cons, List.not_mem_nil, or_false] at hm
    rcases hm with rfl | rfl <;> exact ⟨served_serves _ _ _ (by decide), by decide⟩
  · simp only [UnitReady]; decide +kernel

/-- An EXTADD that passes every check, exact, and one of a lossy block-scaled format, confined and not. -/
theorem witness_CommandObjectsAct_extadd :
    ∀ x ∈ [(floored, 2 ^ 32 + 1), (lossy1, 2 ^ 32 + 1 + 3 * 2 ^ 160 + 2 ^ 168)],
      let m := heard x.1 hdr; let n := x.2; let e := bits n 31 0;
      let codec := bits n 167 160; let efmt := bits n 175 168; let vel := bits n 183 176; let coh := bits n 191 184;
      let home := bits n 199 192;
      n < 256 ^ 28 ∧ e < extentLimit m.fam ∧ (m.extent e).st = .free ∧ m.grantsOk 1 (bits n 159 32) = true ∧ codec ≤ 4 ∧ efmt ≤ 3 ∧ vel ≤ 1 ∧
        coh ≤ 2 ∧ bits n 223 200 = 0 ∧ vel = 0 ∧ (codec = 3 → m.lossyOk 1 = true ∧ efmt = 1) ∧ codec ≠ 4 ∧
        (m.cfgN 0x3001 2 = 1) = False ∧ home = 0 ∧
        (let added := m.onExtent e fun _ =>
          { st := .adding, coh := cohOf coh, attr := ⟨codec, efmt, vel⟩, confined := false, run := m.runPlace 1, home := home
            pitch := 1, cause := (m.extent e).cause, report := true };
        (List.range (regions m.fam)).all (added.floorOk 1) = true ∧ added.runsOk 1 = true ∧ added.overbooked = none) := by decide +kernel

/-- `cl` of an authenticated client 1. -/
def ca (f : Sec → Sec) : Mach := (cl c3a).onSec f

/-- Which values decrypt, and which images verify, is the part's cryptography, left open (log entry 4): the clauses on a value that unwraps
and on one that does not, on an image that is good and one that is not, leave none out. -/
theorem witness_KeysFirmwareAndDebug :
    (∀ h ∈ [hdr], Serves (ca id) h ((ca id).client h.client).auth (.writeBlock 0 0 0 0 0 [] false) ∧
      ((ca id).client h.client).mayWrite 0x6050 = true ∧ ((ca id).client h.client).mayWrite 0x9000 = true ∧ (ca id).sec.fenced = false) ∧
    (∀ p ∈ [1], ∀ v ∈ [(⟨145, 1⟩ : OVal), ⟨256, 0⟩], UnitReady (.wrapkey hdr p v) (st (ca id)) ∧ v.len ≤ 256 ∧ v.n < 256 ^ v.len ∧
      (heard (ca id) hdr).cfgN (0x3000 + p) 1 = 1 ∧ (ca id).sec.zeroizing = false ∧ (heard (ca id) hdr).hasKey p = false) ∧
    (heard (ca id) hdr).unwrap 1 ⟨256, 0⟩ = none ∧
    (UnitReady (.fwimage hdr 3 0 [1, 2] true) (st (ca id)) ∧ (heard (ca id) hdr).rollBusy = false ∧
      UnitReady (.fwimage hdr 3 2 [3] false) (st ((ca id).onClient 1 fun y => { y with wblock := some (okey 0x6050 1, 8, 3, 2, 0x201) })) ∧
      0x201 + leNat [3] * 256 ^ 2 < 256 ^ 3) ∧
    (let m := ca fun x => { x with fwImage := [1], fwstate := 1 }; UnitReady (.fwVerify hdr) (st m) ∧ (heard m hdr).rollBusy = false ∧
      (heard m hdr).sec.fwImage ≠ []) ∧
    (∀ f ∈ [true, false], let m := ca fun x => { x with fwstate := 2 }; UnitReady (.fwActivate hdr f) (st m) ∧ (heard m hdr).rollBusy = false ∧
      (heard m hdr).sec.fwstate = 2) ∧
    UnitReady (.fwDiscard hdr) (st (ca id)) ∧ UnitReady (.dbgopen hdr ⟨1, 1⟩) (st (ca id)) ∧ (heard (ca id) hdr).sec.dbgOpen = false ∧
    UnitReady (.dbgopen hdr ⟨1, 0⟩) (st (ca id)) := by
  refine ⟨?_, ?_⟩
  · intro h hh
    simp only [List.mem_cons, List.not_mem_nil, or_false] at hh
    subst hh
    exact ⟨served_serves _ _ _ (by decide), by decide, by decide, by decide⟩
  · simp only [UnitReady]; decide +kernel

/-- Every hub of the part live. -/
theorem witness_KeysFirmwareAndDebug_live :
    let m := heard { ca id with link := { (ca id).link with hubs := (List.range 8).map fun k => (k, { live := true }) } } hdr;
    m.liveHubs.length = hubs m.fam := by decide +kernel

theorem witness_FlagsAndCountersAreWritten :
    (Serves (ca id) hdr ((ca id).client hdr.client).auth (.write []) ∧ ((ca id).client hdr.client).mayWrite 0x6010 = true ∧
      ((ca id).client hdr.client).mayWrite 0x9010 = true ∧ 2 ≤ ((ca id).client hdr.client).v) ∧
    (∀ c ∈ [Instr.deficitClear hdr ⟨1, 1⟩, .optevtClear hdr 0 ⟨4, 1⟩, .optevtClear hdr 7 ⟨4, 256 ^ 4 - 1⟩, .g7evtClear hdr 0 ⟨4, 1⟩,
        .g7evtClear hdr 15 ⟨4, 256 ^ 4 - 1⟩, .alarmstatClear hdr ⟨4, 15⟩, .counterWrite hdr 0x8000 1 ⟨8, 5⟩, .counterWrite hdr 0x843F 7 ⟨8, 5⟩,
        .injarm hdr ⟨1, 0⟩, .injarm hdr ⟨1, 1⟩, .eqread hdr 1, .eqread hdr 63], UnitReady c (st (ca id))) ∧
    (ca id).sys.sigmaH = [] ∧ (ca id).sys.sigmaT0 = [] ∧ (ca id).sys.sigmaT1 = [] ∧
    ((heard (ca id) hdr).clearing (okey 0x2000 0x04) 1).toNat % 2 = 1 ∧
    (∀ x ∈ [(0x8000, 1), (0x843F, 7)], objAt .f16 x.1 x.2 = some ⟨5, .rw, 8, 8, ⟨8, 0⟩⟩) := by
  refine ⟨⟨served_serves _ _ _ (by decide), by decide, by decide, by decide⟩, ?_⟩
  simp only [UnitReady]; decide +kernel

theorem witness_AbortDiscardsTheEdit :
    ∃ e, UnitReady (.abort hdr) (st (cl c3e)) ∧ (Instr.abort hdr).dictMsg = some (hdr, false, .abort) ∧ Serves (cl c3e) hdr false .abort ∧
      ((cl c3e).client hdr.client).edit = some e ∧ e.vals ≠ [] ∧ e.areas ≠ 0 :=
  ⟨_, ⟨by decide, by decide⟩, rfl, served_serves _ _ _ (by decide), rfl, by decide, by decide⟩

theorem witness_NanBlocksReadAsCanonicalNan :
    (∃ c ∈ [0x3F80, 0x7F81], c / 2 ^ fmtBF16.mb % 2 ^ fmtBF16.eb = 2 ^ fmtBF16.eb - 1) ∧
    (∃ c ∈ [0x3C00, 0xFC00], c / 2 ^ fmtFP16.mb % 2 ^ fmtFP16.eb = 2 ^ fmtFP16.eb - 1) ∧
    (let w0 : Word := BitVec.ofNat 256 0x7F80; let codes := elems16 (wordBytes w0 ++ wordBytes 0);
      codes.length = 32 ∧ ∃ c ∈ codes, c / 2 ^ fmtBF16.mb % 2 ^ fmtBF16.eb = 2 ^ fmtBF16.eb - 1) := by decide +kernel

/-- An outcome is that next state. -/
def nextIs (o : Host.Outcome State Fault Refusal) (t : State) : Bool := match o with | .next u => decide (u = t) | _ => false
theorem nextIs_eq {o : Host.Outcome State Fault Refusal} {t : State} (h : nextIs o t = true) : o = .next t := by
  cases o <;> simp [nextIs] at h; rw [h]

/-- Four successive cycles of a cell all of whose ports request in each. -/
def turn (i : Nat) : State := st { up.onRegion 0 fun g =>
  { g with cellReq := tput [] 0 0 (if i = 0 then 0 else 15 - 2 ^ (i - 1)), cellLast := tput [] 0 0 i } with cycle := 2000000000 + 2 * i }

/-- The machine after cycle `i` of them: port `i` has its grant. -/
def granted (i : Nat) : Mach :=
  ((turn i).m.onRegion 0 fun g => { g with
    cellReq := tput g.cellReq 0 0 (15 - 2 ^ i), cellLast := tput g.cellLast 0 0 (i + 1), cellAt := tput g.cellAt 0 0 (1000000001 + i) }).send
      (.cellGrant 0 0 i)

theorem witness_CellsGrantInTurn :
    (UnitReady (.cellGrant 0 0 ⟨0b1010, none⟩) (st up) ∧ (up.region 0).st ≠ .fenced ∧ tget (up.region 0).cellAt 0 0 ≠ up.cellCycle 0 + 1 ∧
      nextPort 0b1010 0 = some 1 ∧ nextPort 0b1010 2 = some 3 ∧ nextPort 0b0001 3 = some 0) ∧
    (∀ w ∈ [TableWord.records, .pattern 0, .mapLine 0 1], UnitReady (.cellGrant 0 63 ⟨1, some w⟩) (st up) ∧ (up.region 0).st = .serving ∧
      63 / 64 = (up.region 0).tableBlock ∧ tget (up.region 0).cellAt 0 63 ≠ up.cellCycle 63 + 1) ∧
    (UnitReady (.cellGrant 0 64 ⟨1, some .records⟩) (st up) ∧ 64 / 64 ≠ (up.region 0).tableBlock) ∧
    (let m := up.onRegion 0 fun g => { g with cellAt := [(519, up.cellCycle 519 + 1)] };
      UnitReady (.cellGrant 0 519 ⟨0b1111, none⟩) (st m) ∧ (m.region 0).st ≠ .fenced ∧ tget (m.region 0).cellAt 0 519 = m.cellCycle 519 + 1) ∧
    UnitReady (.cellGrant 0 0 ⟨0, none⟩) (st up) ∧
    (∃ s : Nat → State, tget ((s 0).m.region 0).cellLast 0 0 < 4 ∧
      (BitVec.ofNat 4 (tget ((s 0).m.region 0).cellReq 0 0) ||| 15#4).getLsbD 3 = true ∧
      (∀ i, i < 4 → UnitReady (.cellGrant 0 0 ⟨15, none⟩) (s i) ∧ ((s i).m.region 0).st ≠ .fenced ∧
        tget ((s i).m.region 0).cellAt 0 0 ≠ (s i).m.cellCycle 0 + 1) ∧
      ∀ i, i < 3 → ∃ m, Answers (.cellGrant 0 0 ⟨15, none⟩) (s i) m ∧
        tget ((s (i + 1)).m.region 0).cellReq 0 0 = tget (m.region 0).cellReq 0 0 ∧
        tget ((s (i + 1)).m.region 0).cellLast 0 0 = tget (m.region 0).cellLast 0 0) := by
  simp only [UnitReady]
  refine ⟨by decide, by decide, by decide, by decide, by decide, ?_⟩
  have out (i : Nat) (hi : i < 3) : exec (.cellGrant 0 0 ⟨15, none⟩) (turn i) = .next { turn i with m := granted i } := by
    rcases (by omega : i = 0 ∨ i = 1 ∨ i = 2) with rfl | rfl | rfl <;> exact nextIs_eq (by decide +kernel)
  refine ⟨turn, by decide, by decide, ?_, ?_⟩
  · intro i hi
    rcases (by omega : i = 0 ∨ i = 1 ∨ i = 2 ∨ i = 3) with rfl | rfl | rfl | rfl <;> decide
  · intro i hi
    refine ⟨_, out i hi, ?_⟩
    rcases (by omega : i = 0 ∨ i = 1 ∨ i = 2) with rfl | rfl | rfl <;> decide

/-- `m` with every channel of region 0 trained. -/
def trained (m : Mach) : Mach := m.each (List.range 8) fun m c => m.onChan 0 c fun x => { x with st := .serving }

theorem witness_ResetStartUpAndTemperatures :
    (∀ ns ∈ [49, 50], (Instr.resetNAssert ns).wf .f16 = true) ∧ up.awake = true ∧
    (let b : BootIn := ⟨0, false, [], [], [], []⟩; (Instr.resetNRelease b).wf .f16 = true ∧ State.reset.m.awake = false) ∧
    (∀ st0 ∈ [RegState.serving, .fenced],
      let m := trained { up with sys := { up.sys with phase := .starting }
                                 mem := { regions := (List.range 16).map fun r => (r, { st := if r = 0 then st0 else .fenced }) } };
      let rs := (List.range (regions m.fam)).filter fun r => (m.region r).st ≠ .fenced;
      UnitReady .memoryActive (st m) ∧ m.sys.steward.isSome = true ∧ m.sys.ucodeLoaded = true ∧
        (∀ r ∈ rs, m.stillTraining r = false) ∧ (rs = [] ↔ st0 = .fenced)) ∧
    (let m := trained (up.onRegion 0 fun g => { g with st := .restarting });
      DataReady (.regionRestartDone 0 []) (st m) ∧ (m.region 0).st = .restarting ∧ m.stillTraining 0 = false ∧
        m.sys.steward.isSome = true ∧ ((m.takeTable 0).region 0).st = .restarting) ∧
    Instr.vddAonLoss.wf .f16 = true ∧
    (∀ l ∈ [[(DieId.region 0, (100 : Int))], [(.region 0, 95), (.gddr 0 1, 90)], [(.region 0, 96)]], (Instr.thermalReading l).wf .f16 = true) ∧
    up.sys.thermAt = none ∧
    (∃ y ∈ newTemps up.sys.temps [(.region 0, 100)], dieLimit y.1 ≤ y.2) ∧
    (∀ y ∈ newTemps up.sys.temps [(.region 0, 95), (.gddr 0 1, 90)], y.2 + 5 ≤ dieLimit y.1) ∧
    (∀ y ∈ newTemps up.sys.temps [(.region 0, 96)], y.2 < dieLimit y.1) ∧
    (∃ y ∈ newTemps up.sys.temps [(.region 0, 96)], dieLimit y.1 < y.2 + 5) := by
  simp only [UnitReady, DataReady]; decide +kernel

/-- A roll that runs unit `u`, begun when `up` was reset. -/
def rolling (u : Roll) : Mach :=
  (up.onSec fun x => { x with roll := some u, fwstate := 3, fwSlot := 1, fwHdr := some ⟨0x4D495746, 8, 0, 0, 1, 2, 0, 0, 0, true, true⟩ }).onRegion 0 fun g =>
    { g with rolling := true }
/-- A roll that is being undone at the units given. -/
def undoing (hs rs : List Nat) : Mach := (rolling .revert).onSec fun x => { x with rolledHubs := hs, rolledRegs := rs }

theorem witness_AlarmsAndRolls :
    (∀ x ∈ [(1#4, 1), (4#4, 2)], ∀ a ∈ [2, 1, 0], let m := up.onSec fun s => { s with applied := a };
      UnitReady (.securityAlarm x.1) (st m) ∧
        (((List.range 4).filter fun i => x.1.getLsbD i).map fun i => m.hubN (m.sys.steward.getD 0) 0x6010 (i + 1)).foldl max 0 = x.2) ∧
    UnitReady .zeroized (upSys id) ∧
    (∀ ok ∈ [false, true], UnitReady (.fuseRecheck ok) (st up) ∧ UnitReady (.d2dTagCheck ok) (st up)) ∧
    up.sys.fuseAt + ms 1000 ≤ up.cycle ∧ up.sys.tagAt + 1280 ≤ up.cycle ∧
    (UnitReady (.hubReloadReady 0) (st (rolling (.hub 0))) ∧ (rolling (.hub 0)).rollUnit = some (.hub 0)) ∧
    (DataReady (.microcodeRollDone 0) (st (rolling (.region 0))) ∧ (rolling (.region 0)).rollUnit = some (.region 0) ∧
      ((rolling (.region 0)).region 0).rolling = true ∧ (rolling (.region 0)).rollImage.1.isSome = true) ∧
    UnitReady .rollTimeout (st (rolling (.hub 0))) ∧ (rolling (.hub 0)).sec.rollAt + ms 200 < up.cycle ∧
    (rolling (.region 0)).sec.rollAt + ms 1 < up.cycle ∧ ((rolling (.region 0)).region 0).st = .serving ∧
    (rolling (.region 1)).rollUnit = some (.region 1) ∧ ((((rolling (.region 1)).onRegion 1 fun g => { g with st := .fenced }).region 1).st ≠ .serving) ∧
    (undoing [0] []).rollUnit = some (.hub 0) ∧ (undoing [] [0]).rollUnit = some (.region 0) ∧ (undoing [] [0]).sec.roll = some .revert := by
  simp only [UnitReady, DataReady]; decide +kernel

theorem witness_StewardAndWatchdogs :
    (let m := (up.onHub 1 fun x => { x with live := true }).onHub 0 fun x => { x with claimAt := some 1999999990 };
      UnitReady (.stewardClaim 1 0) (st m) ∧ (m.hub 1).live = true ∧ (m.hub 0).live = true ∧ (m.hub 0).claimAt ≠ none) ∧
    (let m := (up.onHub 0 fun x => { x with claimAt := some 1990000000 }).onSys fun x => { x with steward := none };
      UnitReady (.stewardElectionWin 0) (st m) ∧ (m.hub 0).claimAt = some 1990000000 ∧ (m.hub 0).live = true ∧
        1990000000 + ms 2 ≤ m.cycle ∧ m.sys.steward = none) ∧
    (UnitReady .stewardRenewal (st up) ∧ up.sys.steward = some 0 ∧ (up.hub 0).watchdogHeld = false ∧ (up.hub 0).renewedAt + ms 1 ≤ up.cycle) ∧
    (∀ w ∈ [none, some 0], let m := up.onSys fun x => { x with steward := w };
      UnitReady (.stewardLeaseExpire 0) (st m) ∧ (m.hub 0).live = true ∧ (m.hub 0).watchdogHeld = false ∧ (m.hub 0).claimAt = none ∧
        (m.hub 0).renewedAt + ms 10 < m.cycle) ∧
    (UnitReady (.watchdogService 0) (st up) ∧ UnitReady (.watchdogExpire 0) (st up) ∧ (up.hub 0).watchdogAt + ms 10 < up.cycle) ∧
    (DataReady (.regionWatchdog 0) (st up) ∧ (up.region 0).st = .serving) ∧
    (let m := up.onRegion 1 fun g => { g with st := .fenced, sweepLeft := [0] };
      DataReady (.referenceSweepDone 0 1) (st m) ∧ 0 ∈ (m.region 1).sweepLeft ∧ (m.region 0).st = .serving) := by
  simp only [UnitReady, DataReady]; decide +kernel

/-! ## Ill-formed commands -/

/-- A command naming a unit past the last one the configuration has is refused, one naming the last is not: a function, hub, port, region,
channel, region die, cell, block, queue, pitch, extent, key set, stream, laser, decoder, mailbox, bucket, clock domain, die, stop, number of
words, register's function. -/
theorem test_ill_formed_terms_are_refused :
    (∀ p ∈ [(Instr.memrd 128 .any 0 default, Instr.memrd 127 .any 0 default), (.hubIngressAdmit ⟨8, false⟩, .hubIngressAdmit ⟨7, false⟩), (.hotReset 8, .hotReset 7),
      (.bell 16, .bell 15), (.refreshTick 0 8, .refreshTick 0 7), (.temperatureReading 0 2 0, .temperatureReading 0 1 0),
      (.cellGrant 0 560 ⟨0, none⟩, .cellGrant 0 559 ⟨0, none⟩), (.blockGrant 0 12 ⟨[], false⟩, .blockGrant 0 11 ⟨[], false⟩), (.sqtail 0 64 0, .sqtail 0 63 0),
      (.slotLoanRequest 0 64, .slotLoanRequest 0 63), (.slotLoanRequest 0 0, .slotLoanRequest 0 1),
      (.releaseClear (extentLimit .f16), .releaseClear (extentLimit .f16 - 1)), (.keyProg 0 2 0, .keyProg 0 1 0),
      (.ideIntegrityFail 0 2, .ideIntegrityFail 0 1), (.laserLossDeclare 0 2 0 ⟨0, 0⟩, .laserLossDeclare 0 1 0 ⟨0, 0⟩),
      (.hdmDecoderCommit 0 2 0 0 0 0, .hdmDecoderCommit 0 1 0 0 0 0), (.cdatTableAccess (.fm 8), .cdatTableAccess (.fm 7)),
      (.leakyBucketLeak (.portFec 8), .leakyBucketLeak (.portFec 7)), (.wakeRequest (.memory 0 2), .wakeRequest (.memory 0 1)),
      (.thermalReading [(.gddr 0 2, 5)], .thermalReading [(.gddr 0 1, 5)]), (.configInstall true 8, .configInstall true 7),
      (.configInstall false 16, .configInstall false 15), (.stewardClaim 0 8, .stewardClaim 0 7),
      (.registerWrite (.bar0 128 0) 0, .registerWrite (.bar0 127 0) 0), (.arcadeFlitInject 0 1 .req 0 0 [], .arcadeFlitInject 0 1 .req 0 0 [⟨0, 0⟩])],
      p.1.wf .f16 = false ∧ p.2.wf .f16 = true) := by decide

/-- An ill-formed command faults by its name and nothing else does: on an F2, hub 2 does not exist. -/
theorem test_ill_formed_faults : exec (.hubIngressAdmit ⟨2, false⟩) (st { up with fam := .f2 }) = .fault .noSuchUnit := rfl

/-! ## Worked examples of the spec -/

/-- Locating a byte, finding a page: DPA 0x0004_2A0C_0040 lies in extent 66, slot 2,572 of RG00's run, region 0 (ch. 00, ch. 02). -/
theorem test_find_page :
    (let pn := 0x42A0C0040 / 4096; extOf pn = 66 ∧ pn % extentPages = 0xA0C0 ∧ stripe .f16 pn = 0 ∧ up.slotOf pn = 2572) := by decide

/-- One Tulle block (ch. 03): scale 7FH, codes 1, AH, 5, 6, 0, bytes A1H, 65H; read back and quantised again it is the same. -/
theorem test_tulle_block :
    (let l := [0x3EA0, 0xBF90, 0x4028, 0x4098, 0x3C80] ++ List.replicate 27 0;
      mxQuant fmtBF16 fmtE2M1 l = (0x7F, [0x1, 0xA, 0x5, 0x6, 0] ++ List.replicate 27 0)) := by decide +kernel
theorem test_tulle_read :
    (let l := [0x3F00, 0xBF80, 0x4040, 0x4080] ++ List.replicate 28 0;
      mxDequant fmtBF16 fmtE2M1 0x7F ([0x1, 0xA, 0x5, 0x6, 0] ++ List.replicate 27 0) = l ∧
      mxQuant fmtBF16 fmtE2M1 l = (0x7F, [0x1, 0xA, 0x5, 0x6, 0] ++ List.replicate 27 0) ∧
      (packNibs [0x1, 0xA, 0x5, 0x6, 0, 0]).map BitVec.toNat = [0xA1, 0x65, 0]) := by decide +kernel

/-- The quota example's roundings (R42): 12 GiB over 16 regions is 196,608 pages, 20 GiB 327,680. -/
theorem test_share_pages : sharePages .f16 12288 = 196608 ∧ sharePages .f16 20480 = 327680 := by decide

/-- Encoding an ATTEND (ch. 06): bits [63:0], VERSION and HANDLE, OP3 to OP5. -/
def attendRaw : BitVec 512 :=
  BitVec.ofNat 512 (0x0004004221000020 + 0x0004C123 * 2 ^ 96 + 0x2000010000000000 * 2 ^ 320 + 0x080400000000_7FFF * 2 ^ 384 +
    0x05140000 * 2 ^ 448)
theorem test_attend_fields :
    (let d : Dtor := { dtor 0x20 0 0 [] with raw := attendRaw };
      d.bells = 4 ∧ d.cid = 0x42 ∧ d.opcode = 0x20 ∧ d.version = 0 ∧ d.handle = 0x4C123 ∧ d.opf 3 63 58 = 8 ∧ d.opf 4 63 57 = 4 ∧
      d.opf 4 31 0 = 32767 ∧ d.opf 5 31 24 = 5 ∧ d.opf 5 23 20 = 1) := by decide +kernel
/-- The handle's parts (ch. 06): GEN 1, region 3, record 123H. -/
theorem test_handle : 0x4C123 / 2 ^ 18 = 1 ∧ keyOfHandle 0x4C123 / 16384 = 3 ∧ keyOfHandle 0x4C123 % 16384 = 0x123 := by decide
/-- Its completion's bits (ch. 06). -/
theorem test_completion_word : cqeWord true 0x11 0x42 0 0 = 0x840023 := by decide
/-- The versions CREATE grants (R160): 3.0 gets 2.1, 1.1 gets 1.1, 0.9 none. -/
theorem test_grant_version : grantVer (3, 0) = some (2, 1) ∧ grantVer (1, 1) = some (1, 1) ∧ grantVer (0, 9) = none := by decide

/-- Placing a frame (ch. 11): die 1, channel 1, bank 1, row 554, slot 13; the sectors after it on channels 2, 3, 0, 1. -/
theorem test_place_frame :
    (let n := 0x812345; secDie n = 1 ∧ secChan n = 5 ∧ secK n = 142033 ∧ secBank n = 1 ∧ secRow n = 554 ∧
      [1, 2, 3, 4].map (fun i => secChan (n + i) % 4) = [2, 3, 0, 1]) := by decide

/-- Checking one word (ch. 12): check field A0C2H; bit 2 of byte 5 is restored; bits 2 of bytes 0 and 5 together are flagged. -/
def exWord : Word := BitVec.ofNat 256 (0x41 + 0x03 * 2 ^ 40 + 0x80 * 2 ^ 248)
theorem test_check_field : checkOf exWord = 0xA0C2 := by decide
theorem test_check_corrects : checkWord ⟨flipBit exWord 42, 0xA0C2⟩ = .corrected exWord := by decide
theorem test_check_flags : checkWord ⟨flipBit (flipBit exWord 42) 2, 0xA0C2⟩ = .flagged := by decide

/-- A reversed link in MAP B (ch. 09): OPTSTAT reads REV 1, MAP 1, L0, RATE 128, WIDTH 16, FLIT 1, READY 1. -/
theorem test_reversed_link :
    (match exec (.linkTraining 4 { goodTrain with map := 1, lanes := (List.range 16).map (15 - ·) })
        (st ((up.onHub 4 fun x => { x with live := true, cfg := { gen := 1, vals := [(0x500420, ⟨1, 1⟩)] } }).onPort 4 fun _ =>
          { livePort with lt := .polling, rate := 0, width := 0, ready := false })) with
      | .next t => let p := t.m.port 4; p.rev && p.lt == .l0 && p.rate == 128 && p.width == 16 && p.ready && p.map == 1
      | _ => false) = true := by decide

/-- A refused commit and its correction (ch. 14): SVCTAGS, 1,024, lies above TAGLIMIT - 64, 936; with 512 the commit is accepted. -/
def staged1 (l : Tab OVal) : State :=
  st ((up.onDict fun d => { d with cfg := { gen := 41 } }).onClient 7 fun _ =>
    { live := true, src := .udp 1 2, v := 3, edit := some { areas := 0x0100, vals := (0x500210, ⟨2, 1000⟩) :: l } })
/-- The replies of a next state. -/
def answered (o : Host.Outcome State Fault Refusal) : List (Nat × Nat × Nat × Nat × Nat) :=
  match o with
  | .next t => t.m.out.filterMap fun x => match x with | .dict _ r => some (r.ty, r.status, r.reason, r.dindex, r.dsub) | _ => none
  | _ => []
theorem test_commit_refused : answered (exec (.commit ⟨.udp 1 2, 3, 7, 0x103⟩ 41) (staged1 [])) = [(0x07, 0x0E, 0x01, 0x5002, 0x11)] := by
  decide +kernel
theorem test_commit_accepted :
    (match exec (.commit ⟨.udp 1 2, 3, 7, 0x105⟩ 41) (staged1 [(0x500211, ⟨2, 512⟩)]) with
      | .next t => decide (t.m.dict.cfg.gen = 42) && t.m.dict.inst.isSome
      | _ => false) = true := by decide +kernel

/-- A DRAM block lost (ch. 08): the hubs' rate falls to 3,487.5, by 124/128; a share of 196,608 pages scales to 114,278. -/
theorem test_block_lost : scalePages 196608 (2976, 5120) = 114278 ∧ 3600 * 124 / 128 = 3487 := by decide
/-- An F16 whose G7-5.b has no channel in service. -/
def blockLost : Mach :=
  (List.range 8).foldl (fun m c => m.onChan 5 c fun x => { x with st := if c < 4 then .serving else .failed })
    { up with mem := { regions := (List.range 16).map fun r => (r, { st := .serving }) } }
theorem test_phi : blockLost.phiFrac.1 * 128 = blockLost.phiFrac.2 * 124 := by decide +kernel

/-- Adding an extent (ch. 15): the entry's 28 value bytes offer extent 66 of pitch 7 to functions 19 and 20. -/
def exAdd : OVal := ⟨28, leNat ([0x42, 0, 0, 0, 0, 0, 0x18, 0] ++ List.replicate 12 0 ++ [1, 1, 0, 0, 0, 0, 0, 0])⟩
def exAddState : State :=
  st ((up.onDict fun d => { d with cfg := { gen := 1, vals := [(0x300701, ⟨1, 1⟩), (0x300705, ⟨4, 16384⟩), (0x300706, ⟨4, 16384⟩),
    (0x500143, ⟨1, 7⟩), (0x500144, ⟨1, 7⟩)] } }).onClient 1 fun _ => c3)
theorem test_extadd :
    (match exec (.extadd hdr 7 exAdd) exAddState with
      | .next t => let e := t.m.extent 66;
        decide (e.st = .adding) && decide (e.offer.map (·.1) = [19, 20]) && e.attr == ⟨1, 1, 0⟩ && decide (e.coh = .tracked) && e.pitch == 7
      | _ => false) = true := by decide +kernel

/-- A die-to-die alarm under the default policy (ch. 16): class 3 sets ALARMSTAT bit 2 and logs SECURITY_ALARM (class 3, policy 2); ZEROIZE
runs. -/
theorem test_die_to_die_alarm :
    (match exec (.securityAlarm 4) (st up) with
      | .next t => decide (t.m.sec.alarmstat = 4) && t.m.sec.zeroizing && (t.m.ev.log.map fun e => (e.code, e.data % 65536)) == [(0x0601, 0x0203)]
      | _ => false) = true := by decide +kernel

end Sys2Proof.Tests
end

section
/-! PROOF. Which commands go and which stop: a corollary of the gate that each command passes. -/

namespace Sys2Proof.Machine

variable {c : Instr} {s : State}

/-- The gate of the command's place decides how the machine changes, not whether the command answers. -/
theorem answers_of_wf (h : c.wf s.m.fam = true) : ∃ m, Answers c s m := by
  obtain ⟨f, hf⟩ := exec_gated c
  exact ⟨placeGate c.place f s.m, (hf s).trans (app_ok h)⟩

/-- A command that names a unit the configuration does not have stops before any gate (log entry 27). -/
theorem exec_fault_of_not_wf (h : c.wf s.m.fam = false) : exec c s = .fault .noSuchUnit := by
  obtain ⟨f, hf⟩ := exec_gated c
  exact (hf s).trans (app_bad h)

/-- Settles O2: every command is an effect behind one gate (`exec_gated`), which is entered exactly when the command is well formed. -/
theorem wellFormedCommandsGo : Obligations.WellFormedCommandsGo := by
  unfold Obligations.WellFormedCommandsGo
  exact fun _ _ => ⟨answers_of_wf, exec_fault_of_not_wf⟩

end Sys2Proof.Machine
end

section
/-! PROOF. What stops a command, and the invariant of chip fatal: corollaries of the gate that each command passes. -/

namespace Sys2Proof.Machine

variable {c : Instr} {s : State} {m m0 : Mach}

/-! ## Commands of stopped units (R25, R361, R370, R371) -/

theorem up_eq_false_iff : m.up = false ↔ m.sys.phase ≠ .active ∨ m.sys.fatal = true ∨ m.sec.fenced = true := by
  simp only [Mach.up, Bool.and_eq_false_iff, Bool.not_eq_false', decide_eq_false_iff_not, or_assoc]

theorem awake_eq_false_iff : m.awake = false ↔ m.sys.phase = .held := by simp [Mach.awake]

theorem alive_eq_false_iff : m.alive = false ↔ m.sys.phase = .held ∨ m.sys.fatal = true := by
  simp only [Mach.alive, Bool.and_eq_false_iff, awake_eq_false_iff, Bool.not_eq_false']

/-- A command of a place acts behind that place's gate. -/
theorem exec_place {p : Place} (hp : c.place = p) : ∃ f : Mach → Mach, ∀ s, exec c s = s.app (c.wf s.m.fam) (placeGate p f) :=
  hp ▸ exec_gated c

theorem exec_data_stopped (hp : c.place = .data) (hw : c.wf s.m.fam = true) (hu : s.m.up = false) : exec c s = .next s :=
  (exec_place hp).elim fun _ hf => (hf s).trans (app_data_stopped hw hu)

theorem exec_unit_stopped (hp : c.place = .unit) (hw : c.wf s.m.fam = true) (hu : s.m.alive = false) : exec c s = .next s :=
  (exec_place hp).elim fun _ hf => (hf s).trans (app_unit_stopped hw hu)

theorem exec_awake_stopped (hp : c.place = .awake) (hw : c.wf s.m.fam = true) (hu : s.m.awake = false) : exec c s = .next s :=
  (exec_place hp).elim fun _ hf => (hf s).trans (app_awake_stopped hw hu)

theorem exec_discarded (hp : c.place = .none) (hw : c.wf s.m.fam = true) : exec c s = .next s :=
  (exec_place hp).elim fun _ hf => (hf s).trans (app_ok hw)

/-- Settles O3: each place's gate lets nothing through in the states named (which commands stand behind which gate is the reading of log
entries 23, 26 and 42). -/
theorem stoppedUnitsChangeNothing : Obligations.StoppedUnitsChangeNothing := by
  unfold Obligations.StoppedUnitsChangeNothing
  exact fun _ _ hw =>
    ⟨fun hp h => exec_data_stopped hp hw (up_eq_false_iff.mpr h), fun hp h => exec_unit_stopped hp hw (alive_eq_false_iff.mpr h),
      fun hp h => exec_awake_stopped hp hw (awake_eq_false_iff.mpr h), fun hp => exec_discarded hp hw⟩

/-! ## Where the invariants begin -/

theorem inReset_reset : InReset State.reset.m := by
  refine ⟨?_, ?_, ?_, ?_, ?_, ?_, ?_, ?_, ?_, ?_, ?_, ?_, ?_, ?_, ?_, ?_⟩ <;> rfl

theorem frozen_refl (hp : m.sys.phase ≠ .held) (hf : m.sys.fatal = true) : Frozen m m := ⟨hp, hf, rfl⟩

/-- Settles O4. -/
theorem invariantsBegin : Obligations.InvariantsBegin := by
  unfold Obligations.InvariantsBegin
  exact ⟨⟨inReset_reset, rfl⟩, fun _ => frozen_refl⟩

/-! ## Chip fatal (R25, R389) -/

theorem frozen_awake (h : Frozen m0 m) : m.awake = true := by
  obtain ⟨hp, -, -⟩ := h
  simp [Mach.awake, hp]

theorem frozen_alive (h : Frozen m0 m) : m.alive = false := by
  obtain ⟨-, hf, -⟩ := h
  exact alive_eq_false_iff.mpr (.inr hf)

theorem frozen_up (h : Frozen m0 m) : m.up = false := by
  obtain ⟨-, hf, -⟩ := h
  exact up_eq_false_iff.mpr (.inr (.inl hf))

/-- With nothing alive a hub cycle is the passing of time. -/
theorem frozen_tick (h : Frozen m0 m) : Frozen m0 m.tick := by
  have ht : m.tick = { m with cycle := m.cycle + 1 } := by
    have ha : Mach.alive { m with cycle := m.cycle + 1 } = false := (frozen_alive h : m.alive = false)
    simp [Mach.tick, ha]
  obtain ⟨hp, hf, he⟩ := h
  rw [ht]
  exact ⟨hp, hf, congrArg (fun n : Mach => { n with cycle := m.cycle + 1 }) he⟩

theorem frozen_reading (h : Frozen m0 m) (temps : List (DieId × Int)) (at_ : Option Nat) (alert : Bool) :
    Frozen m0 (m.onSys fun x => { x with temps := temps, thermAt := at_, thermAlert := alert }) := by
  obtain ⟨hp, hf, he⟩ := h
  exact ⟨hp, hf, congrArg (fun n : Mach => n.onSys fun x => { x with temps := temps, thermAt := at_, thermAlert := alert }) he⟩

theorem frozen_ite {p : Prop} [Decidable p] {a b : Mach} (ha : Frozen m0 a) (hb : Frozen m0 b) : Frozen m0 (if p then a else b) := by
  split
  · exact ha
  · exact hb

/-- What the security monitor keeps may change (R364). -/
theorem frozen_monitor (h : Frozen m0 m) (cause : Nat) (report latch : Bool) (classes : BitVec 4) :
    Frozen m0 (m.onSys fun x => { x with fatalCause := cause, fatalReport := report, debugLatch := latch, monClasses := classes }) := by
  obtain ⟨hp, hf, he⟩ := h
  exact ⟨hp, hf, congrArg (fun n : Mach =>
    n.onSys fun x => { x with fatalCause := cause, fatalReport := report, debugLatch := latch, monClasses := classes }) he⟩

/-- The only commands that a part out of reset takes under chip fatal. -/
theorem place_awake (hp : c.place = .awake) : (∃ ns, c = .resetNAssert ns) ∨ ∃ l, c = .thermalReading l := by
  cases c
  case resetNAssert ns => exact .inl ⟨ns, rfl⟩
  case thermalReading l => exact .inr ⟨l, rfl⟩
  all_goals cases hp

theorem place_always (hp : c.place = .always) : (∃ b, c = .resetNRelease b) ∨ c = .vddAonLoss := by
  cases c
  case resetNRelease b => exact .inl ⟨b, rfl⟩
  case vddAonLoss => exact .inr rfl
  all_goals cases hp

/-- Under chip fatal a command other than a fall of RESET_n keeps the part frozen. -/
theorem frozen_exec {t : State} (h : Frozen m0 s.m) (hc : ∀ ns, c ≠ .resetNAssert ns) (hw : c.wf s.m.fam = true)
    (hs : exec c s = .next t) : Frozen m0 t.m ∧ t.pending = s.pending := by
  have kept (he : exec c s = .next s) : Frozen m0 t.m ∧ t.pending = s.pending := by
    rw [he] at hs
    cases hs
    exact ⟨h, rfl⟩
  cases hp : c.place with
  | data => exact kept (exec_data_stopped hp hw (frozen_up h))
  | unit => exact kept (exec_unit_stopped hp hw (frozen_alive h))
  | none => exact kept (exec_discarded hp hw)
  | awake =>
    obtain ⟨ns, rfl⟩ | ⟨l, rfl⟩ := place_awake hp
    · exact absurd rfl (hc ns)
    · rw [exec_thermalReading, execThermalReading, app_awake hw (frozen_awake h)] at hs
      cases hs
      exact ⟨frozen_ite h (frozen_reading h ..), rfl⟩
  | always =>
    obtain ⟨b, rfl⟩ | rfl := place_always hp
    · refine kept ?_
      rw [exec_resetNRelease, execResetNRelease, app_ok hw, if_pos (frozen_awake h)]
    · rw [exec_vddAonLoss, execVddAonLoss, app_ok hw] at hs
      cases hs
      exact ⟨frozen_monitor h .., rfl⟩

/-- Settles O6: of the commands that chip fatal leaves running, the temperature pin and the monitor's supply change what `Frozen` leaves
open, and a rise of RESET_n finds the part out of reset. -/
theorem chipFatalFreezesThePart : Obligations.ChipFatalFreezesThePart := by
  unfold Obligations.ChipFatalFreezesThePart
  rintro m0 ⟨l, m⟩ t ⟨h, hn⟩ hs
  cases l with
  | nil =>
    cases hs
    exact ⟨(frozen_tick h), hn⟩
  | cons c l =>
    obtain ⟨hc, hl⟩ := List.forall_mem_cons.mp hn
    cases hw : c.wf m.fam with
    | false => cases (exec_fault_of_not_wf (s := ⟨l, m⟩) hw).symm.trans hs
    | true =>
      obtain ⟨hf, he⟩ := frozen_exec (s := ⟨l, m⟩) h hc hw hs
      rw [he]
      exact ⟨hf, hl⟩

end Sys2Proof.Machine
end

section
/-! PROOF. The region's own events on waiting requests, and what a read gets. -/

namespace Sys2Proof.Machine

variable {c : Instr} {s : State} {m m' : Mach} {f : Mach → Mach}

/-! ## What a command answers behind an open gate -/

theorem answers_data (h : DataReady c s) (he : exec c s = s.app (c.wf s.m.fam) (Mach.dataRun f)) (hf : f s.m = m) : Answers c s m := by
  obtain ⟨hw, hu⟩ := h
  rw [Answers, he, app_data hw hu, hf]

theorem answers_unit (h : UnitReady c s) (he : exec c s = s.app (c.wf s.m.fam) (Mach.aliveRun f)) (hf : f s.m = m) : Answers c s m := by
  obtain ⟨hw, hu⟩ := h
  rw [Answers, he, app_unit hw hu, hf]

theorem answers_awake (hw : c.wf s.m.fam = true) (hu : s.m.awake = true) (he : exec c s = s.app (c.wf s.m.fam) (Mach.run f))
    (hf : f s.m = m) : Answers c s m := by
  rw [Answers, he, app_awake hw hu, hf]

theorem answers_always (hw : c.wf s.m.fam = true) (he : exec c s = s.app (c.wf s.m.fam) f) (hf : f s.m = m) : Answers c s m := by
  rw [Answers, he, app_ok hw, hf]

/-! ## The region's events on waiting requests (R27, R33, R37, R49, R292) -/

/-- What DESCRIPTOR_MISS_FILL does in a serving region for a line that requests wait for. -/
theorem answers_missFill {r line : Nat} {bad : BitVec 2} (h : DataReady (.descriptorMissFill r ⟨line, bad⟩) s)
    (hst : (s.m.region r).st = .serving)
    (hw : (s.m.mem.waits.any fun w => w.why = .miss && s.m.missAt w.req = (r, line)) = true)
    (hm : (if !s.m.lineAtHand r line then s.m.fetchLine r line
      else if bad ≠ 0 && (s.m.lineSector r line).isSome then s.m.lineFlagged r line bad
      else s.m.lineFilled r line) = m) : Answers (.descriptorMissFill r ⟨line, bad⟩) s m :=
  answers_data h rfl ((if_neg (not_not_intro hst)).trans ((if_pos hw).trans hm))

/-- Settles O24. -/
theorem waitingRequestsGoOn : Obligations.WaitingRequestsGoOn := by
  unfold Obligations.WaitingRequestsGoOn
  refine ⟨fun r s h => answers_data h rfl rfl,
    fun r line bad s h hst hw => ⟨fun hat => ?_, fun hat hclean => ?_, fun hat hbad hsec => ?_⟩,
    fun req w s h hw => answers_data h rfl (by rw [hw])⟩
  · exact answers_missFill h hst hw (by simp [hat])
  · have hc : ¬ (bad ≠ 0 && (s.m.lineSector r line).isSome) = true := by
      rcases hclean with rfl | hn
      · simp
      · simp [hn]
    exact answers_missFill h hst hw (by rw [if_neg (by simp [hat]), if_neg hc, Mach.lineFilled])
  · exact answers_missFill h hst hw (by rw [if_neg (by simp [hat]), if_pos (by simpa [hsec] using hbad)])

end Sys2Proof.Machine
end

section
/-! PROOF. What a read gets: the request reaches its page's form, and the words and the completion leave its port. -/

namespace Sys2Proof.Machine

variable {m m' n : Mach} {q : Req} {r pn : Nat} {k : Keep}

/-! ## What a read changes on its way: registers of regions and page descriptors, never what it answers -/

/-- `m'` is `m` but for its regions and its page descriptors. -/
def SameButRegs (m m' : Mach) : Prop := ∃ g d, m' = m.onMem fun x => { x with regions := g, descs := d }

theorem SameButRegs.refl (m : Mach) : SameButRegs m m := ⟨_, _, rfl⟩

theorem SameButRegs.trans (h : SameButRegs m m') (h' : SameButRegs m' n) : SameButRegs m n := by
  obtain ⟨_, _, rfl⟩ := h
  obtain ⟨g, d, rfl⟩ := h'
  exact ⟨g, d, rfl⟩

theorem sameButRegs_onRegion (m : Mach) (r : Nat) (f : Region → Region) : SameButRegs m (m.onRegion r f) := ⟨_, _, rfl⟩

theorem sameButRegs_setDesc (m : Mach) (pn : Nat) (d : Desc) : SameButRegs m (m.setDesc pn d) := ⟨_, _, rfl⟩

theorem sameButRegs_each {α : Type} (l : List α) {f : Mach → α → Mach} (hf : ∀ m a, SameButRegs m (f m a)) (m : Mach) :
    SameButRegs m (m.each l f) := by
  induction l generalizing m with
  | nil => exact .refl m
  | cons a l ih => exact (hf m a).trans (ih (f m a))

theorem sameButRegs_when (b : Bool) {f : Mach → Mach} (hf : SameButRegs m (f m)) : SameButRegs m (m.when b f) := by
  cases b with
  | true => exact hf
  | false => exact .refl m

theorem sameButRegs_noteAccess (m : Mach) (r pn : Nat) : SameButRegs m (m.noteAccess r pn) := by
  unfold Mach.noteAccess
  split
  · exact sameButRegs_onRegion ..
  · exact .refl m

theorem sameButRegs_pmTouch (m : Mach) (r line : Nat) (dirty : Bool) : SameButRegs m (m.pmTouch r line dirty) :=
  sameButRegs_onRegion ..

theorem sameButRegs_measureReq (m : Mach) (r : Nat) (q : Req) : SameButRegs m (m.measureReq r q) := by
  unfold Mach.measureReq
  split
  · exact .refl m
  · exact sameButRegs_onRegion ..

theorem sameButRegs_footConst (m : Mach) (pn : Nat) : SameButRegs m (m.footConst pn) := by
  unfold Mach.footConst
  split
  · exact sameButRegs_setDesc ..
  · exact .refl m

/-- The block credits that a read of T0 costs are registers of its region. -/
theorem sameButRegs_chargeT0 (m : Mach) (r t p c : Nat) : SameButRegs m (m.chargeT0 r t p c) := by
  have refilled : SameButRegs m (m.refillFor r (t0Block (m.region r).tableBlock t) [p]) :=
    sameButRegs_when _ (sameButRegs_each _ (fun m _ => sameButRegs_onRegion m ..) m)
  unfold Mach.chargeT0 Mach.chargeAlone Mach.charge Mach.setCredit
  exact refilled.trans (sameButRegs_onRegion ..)

theorem SameButRegs.out (h : SameButRegs m m') : m'.out = m.out := by obtain ⟨_, _, rfl⟩ := h; rfl

theorem SameButRegs.memOpen (h : SameButRegs m m') (j : Nat) : m'.memOpen j = m.memOpen j := by obtain ⟨_, _, rfl⟩ := h; rfl

theorem SameButRegs.extent (h : SameButRegs m m') (e : Nat) : m'.extent e = m.extent e := by obtain ⟨_, _, rfl⟩ := h; rfl

theorem SameButRegs.sessMap (h : SameButRegs m m') (pn : Nat) : m'.sessMap pn = m.sessMap pn := by obtain ⟨_, _, rfl⟩ := h; rfl

theorem SameButRegs.pmLine (h : SameButRegs m m') (pn : Nat) : m'.pmLine pn = m.pmLine pn := by obtain ⟨_, _, rfl⟩ := h; rfl

theorem SameButRegs.t0Word (h : SameButRegs m m') (r t w : Nat) : m'.t0Word r t w = m.t0Word r t w := by obtain ⟨_, _, rfl⟩ := h; rfl

theorem SameButRegs.patWord (h : SameButRegs m m') (r i : Nat) : m'.patWord r i = m.patWord r i := by obtain ⟨_, _, rfl⟩ := h; rfl

/-! ## The descriptor and its line on the way -/

theorem noteAccess_desc (m : Mach) (r pn pn' : Nat) : (m.noteAccess r pn).desc pn' = m.desc pn' := by
  unfold Mach.noteAccess
  split <;> rfl

theorem pmTouch_desc (m : Mach) (r line pn : Nat) (dirty : Bool) : (m.pmTouch r line dirty).desc pn = m.desc pn := rfl

theorem noteAccess_pmHit (m : Mach) (r pn line : Nat) : (m.noteAccess r pn).pmHit r line = m.pmHit r line := by
  unfold Mach.noteAccess
  split
  · simp only [Mach.pmHit, onRegion_same]
    split <;> rfl
  · rfl

theorem priv_slot_of_desc {d : Priv} (h : m.desc pn = .priv d) : m.priv (.slot pn) = some d := by simp [Mach.priv, h]

/-- An access more to a page with content of its own is one more in its footfall, and no other change of its descriptor. -/
theorem foot_slot {d : Priv} (h : m.desc pn = .priv d) :
    m.foot (.slot pn) = m.setDesc pn (.priv { d with footfall := min 255 (d.footfall + 1) }) := by
  simp [Mach.foot, Mach.onPriv, priv_slot_of_desc h, Mach.setPriv]

theorem priv_setDesc (m : Mach) (pn : Nat) (d : Priv) : (m.setDesc pn (.priv d)).priv (.slot pn) = some d :=
  priv_slot_of_desc (by simp [Mach.desc, Mach.setDesc])

/-! ## The answer -/

/-- Where CXL.mem may leave, the line's data and the completion are the next two messages out. -/
theorem answer_out (h : m.memOpen (q.fn / 16) = true) (hi : q.internal = false) (r : Nat) (w0 w1 : CWord) :
    (m.answer r q w0 w1).out = m.out ++ [.rsp q.fn q.tag (.memData (lineOf2 w0 w1).1 (lineOf2 w0 w1).2),
      .rsp q.fn q.tag (cmpOf (m.extent (extOf q.page)).coh q.kind)] := by
  simp only [Mach.answer, (sameButRegs_measureReq ..).out, Mach.respond, hi, Bool.false_eq_true, if_false, portSend_mem _ h,
    portSend_mem _ ((send_memOpen ..).trans h)]
  simp [Mach.send, Mach.extent]

/-- `m'`, reached from `m` on a read's way, answers as `m` does. -/
theorem SameButRegs.answer_out (hs : SameButRegs m m') (h : m.memOpen (q.fn / 16) = true) (hi : q.internal = false) (r : Nat)
    (w0 w1 : CWord) : (m'.answer r q w0 w1).out = m.out ++ [.rsp q.fn q.tag (.memData (lineOf2 w0 w1).1 (lineOf2 w0 w1).2),
      .rsp q.fn q.tag (cmpOf (m.extent (extOf q.page)).coh q.kind)] := by
  rw [Machine.answer_out ((hs.memOpen _).trans h) hi, hs.out, hs.extent]

/-! ## The read reaches its page's form -/

theorem isWr_of_read (hk : q.kind = .rd k) : q.isWr = false := by simp [Req.isWr, hk]

theorem unwait_of_idle (h : m.mem.waits = []) (id : Nat) : m.unwait id = m := by
  have hf : (m.mem.waits.filter fun w => w.req.id ≠ id) = m.mem.waits := by simp [h]
  simp only [Mach.unwait, Mach.onMem, hf]

theorem not_blocked_of_idle (h : m.mem.waits = []) (hh : (m.mem.house.any fun x => x.pn = q.page) = false) : m.blocked q = false := by
  simp [Mach.blocked, h, hh]

theorem serveContent_read (hk : q.kind = .rd k) (hi : q.internal = false) (hs : m.sessMap q.page = none)
    (hp : m.pmHit r (m.pmLine q.page) = true) :
    m.serveContent none r q = ((m.noteAccess r q.page).pmTouch r (m.pmLine q.page) false).serveForm none r q := by
  have hn := sameButRegs_noteAccess m r q.page
  have hs' : (m.noteAccess r q.page).sessMap q.page = none := (hn.sessMap _).trans hs
  have hp' : (m.noteAccess r q.page).pmHit r (m.pmLine q.page) = true := (noteAccess_pmHit ..).trans hp
  simp [Mach.serveContent, Mach.when, hk, hi, isWr_of_read hk, hs', hn.pmLine, hp']

theorem withWb_self (q : Req) {w : Bool} (h : w = q.wb) : { q with wb := w } = q := by subst h; rfl

/-- A read that finds its region serving, nothing before it, no directory and no map area, and its descriptor's line at hand, is served
by its page's form. -/
theorem serve_read (hk : q.kind = .rd k) (hi : q.internal = false) (hw : m.mem.waits = [])
    (hh : (m.mem.house.any fun h => h.pn = q.page) = false) (hst : (m.region (m.homeOf q.page)).st = .serving)
    (hc : (m.extent (extOf q.page)).coh ≠ .tracked) (hs : m.sessMap q.page = none)
    (hp : m.pmHit (m.homeOf q.page) (m.pmLine q.page) = true) :
    ∃ m', SameButRegs m m' ∧ m'.desc q.page = m.desc q.page ∧ m.serve none q = m'.serveForm none (m.homeOf q.page) q := by
  refine ⟨_, (sameButRegs_noteAccess m (m.homeOf q.page) q.page).trans (sameButRegs_pmTouch _ (m.homeOf q.page) (m.pmLine q.page) false),
    (pmTouch_desc ..).trans (noteAccess_desc ..), ?_⟩
  have hg : m.sessionGate q = (m, false) := by simp [Mach.sessionGate, isWr_of_read hk]
  simp only [Mach.serve, unwait_of_idle hw]
  rw [withWb_self q (by simp [hi, hc]), if_neg (not_not_intro hst), not_blocked_of_idle hw hh, if_neg Bool.false_ne_true, hg]
  simp only [if_neg hc]
  exact serveContent_read hk hi hs hp

/-! ## The forms (Table 02.2) -/

theorem serveForm_unwritten (hk : q.kind = .rd k) (h : m.desc q.page = .unwritten) :
    m.serveForm none r q = m.answer r q .poison .poison := by
  simp [Mach.serveForm, h, isWr_of_read hk]

theorem serveForm_const {p f i : Nat} (hk : q.kind = .rd k) (h : m.desc q.page = .const p f i) :
    m.serveForm none r q = (m.footConst q.page).answer r q (m.patWord r i) (m.patWord r i) := by
  simp [Mach.serveForm, h, isWr_of_read hk]

/-- A read of two clean words of T0 gives them, costs its block's credits, and corrects nothing. -/
theorem readLine_clean {t p l : Nat} (h0 : checkWord (m.t0Word r t (2 * l)) = .clean)
    (h1 : checkWord (m.t0Word r t (2 * l + 1)) = .clean) :
    m.readLine r t p l = (m.chargeT0 r t p 1, m.t0Word r t (2 * l), m.t0Word r t (2 * l + 1)) := by
  simp [Mach.readLine, isCorrected, h0, h1, Mach.when]

theorem servePriv_clean {c : CRef} {d : Priv} (hk : q.kind = .rd k) (ht : d.t0 = true)
    (h0 : checkWord (m.t0Word r d.t0slot (2 * q.lineIx)) = .clean) (h1 : checkWord (m.t0Word r d.t0slot (2 * q.lineIx + 1)) = .clean) :
    m.servePriv none r q c d = (m.chargeT0 r d.t0slot (m.reqPitch q) 1).answer r q (m.t0Word r d.t0slot (2 * q.lineIx))
      (m.t0Word r d.t0slot (2 * q.lineIx + 1)) := by
  simp [Mach.servePriv, isWr_of_read hk, ht, readLine_clean h0 h1, isFlagged, h0, h1]

/-- A page of PRIVATE content is served from the places its descriptor gives, whatever its footfall. -/
theorem serveForm_priv {d : Priv} (h : m.desc q.page = .priv d) :
    ∃ m' d', SameButRegs m m' ∧ d'.t0 = d.t0 ∧ d'.t0slot = d.t0slot ∧
      m.serveForm none r q = m'.servePriv none r { q with counted := true } (.slot q.page) d' := by
  cases hf : !q.counted && !q.internal with
  | false => exact ⟨m, d, .refl m, rfl, rfl, by simp [Mach.serveForm, h, hf, Mach.when, priv_slot_of_desc h]⟩
  | true =>
    have hm := sameButRegs_setDesc m q.page (.priv { d with footfall := min 255 (d.footfall + 1) })
    exact ⟨_, { d with footfall := min 255 (d.footfall + 1) }, hm, rfl, rfl,
      by simp [Mach.serveForm, h, hf, Mach.when, foot_slot h, priv_setDesc]⟩

theorem serveForm_t0 {d : Priv} (hk : q.kind = .rd k) (h : m.desc q.page = .priv d) (ht : d.t0 = true)
    (h0 : checkWord (m.t0Word r d.t0slot (2 * q.lineIx)) = .clean) (h1 : checkWord (m.t0Word r d.t0slot (2 * q.lineIx + 1)) = .clean) :
    ∃ m', SameButRegs m m' ∧ m.serveForm none r q = m'.answer r { q with counted := true }
      (m.t0Word r d.t0slot (2 * q.lineIx)) (m.t0Word r d.t0slot (2 * q.lineIx + 1)) := by
  obtain ⟨m', d', hm, ht', hs', he⟩ := serveForm_priv (r := r) h
  rw [← hm.t0Word, ← hs'] at h0 h1
  rw [he, servePriv_clean (q := { q with counted := true }) hk (ht'.trans ht) h0 h1, ← hm.t0Word, ← hm.t0Word, ← hs']
  exact ⟨_, hm.trans (sameButRegs_chargeT0 ..), rfl⟩

/-- Settles O26: a read that nothing holds up reaches its page's form (`serve_read`), and on that way only registers of the region and
the page's footfall change, on which no answer depends. -/
theorem readsAreAnswered : Obligations.ReadsAreAnswered := by
  unfold Obligations.ReadsAreAnswered
  intro m q k hk hi hw hh ho hst hc hs hp
  obtain ⟨m', hm, hd, he⟩ := serve_read hk hi hw hh hst hc hs hp
  refine ⟨fun h => ?_, fun p f i h => ?_, fun d h ht h0 h1 => ?_⟩
  · rw [he, serveForm_unwritten hk (hd.trans h)]
    exact hm.answer_out ho hi ..
  · rw [he, serveForm_const hk (hd.trans h), hm.patWord]
    exact (hm.trans (sameButRegs_footConst ..)).answer_out ho hi ..
  · rw [← hm.t0Word] at h0 h1
    obtain ⟨m2, hm2, he2⟩ := serveForm_t0 hk (hd.trans h) ht h0 h1
    rw [he, he2, ← hm.t0Word, ← hm.t0Word]
    exact (hm.trans hm2).answer_out ho hi ..

end Sys2Proof.Machine
end

section
/-! PROOF. The grants of a cell (R21). -/

namespace Sys2Proof.Machine

variable {s : State} {m : Mach} {r cell p q last : Nat} {reqs held : BitVec 4} {ue : Option TableWord}

/-! ## The next port -/

/-- Of the ports from `last` on, the nearest one that requests is next. -/
theorem nextPort_nearest {last : Nat} (hl : last < 4) {held : BitVec 4} (h : held ≠ 0) :
    ∃ p, nextPort held last = some p ∧ p < 4 ∧ held.getLsbD p = true ∧
      ∀ i, i < 4 → (last + i) % 4 = p → ∀ j, j < i → held.getLsbD ((last + j) % 4) = false := by
  revert last held
  decide

theorem nextPort_zero (k : Nat) : nextPort 0 k = none := by simp [nextPort, List.find?_eq_none]

/-- How many ports are asked before port `p` when the turn is at `last`. -/
def portsBefore (last p : Nat) : Nat := (p + 4 - last) % 4

/-- A grant goes to port `p`, or port `p` requests still and fewer ports are asked before it. -/
theorem nextPort_closer {last : Nat} (hl : last < 4) {p : Nat} (hp : p < 4) {held : BitVec 4} (h : held.getLsbD p = true) :
    ∃ q, nextPort held last = some q ∧
      (q = p ∨ (held &&& ~~~(1#4 <<< q)).getLsbD p = true ∧ portsBefore ((q + 1) % 4) p < portsBefore last p) := by
  revert last p held
  decide

/-! ## One turn of a cell -/

/-- The requests of a cell: those that stand and those that come. -/
def Mach.cellHeld (m : Mach) (r cell : Nat) (reqs : BitVec 4) : BitVec 4 := BitVec.ofNat 4 (tget (m.region r).cellReq 0 cell) ||| reqs

/-- The cell after it has granted port `p` of the requests `held`. -/
def Mach.cellGranted (m : Mach) (r cell : Nat) (held : BitVec 4) (p : Nat) : Mach :=
  (m.onRegion r fun g =>
    { g with cellReq := tput g.cellReq 0 cell (held &&& ~~~(1#4 <<< p)).toNat, cellLast := tput g.cellLast 0 cell ((p + 1) % 4)
             cellAt := tput g.cellAt 0 cell (m.cellCycle cell + 1) }).send (.cellGrant r cell p)

theorem send_region (m : Mach) (o : Out) (r : Nat) : (m.send o).region r = m.region r := rfl

theorem cellGranted_region (m : Mach) (r cell : Nat) (held : BitVec 4) (p : Nat) :
    (m.cellGranted r cell held p).region r =
      { m.region r with
        cellReq := tput (m.region r).cellReq 0 cell (held &&& ~~~(1#4 <<< p)).toNat
        cellLast := tput (m.region r).cellLast 0 cell ((p + 1) % 4)
        cellAt := tput (m.region r).cellAt 0 cell (m.cellCycle cell + 1) } := by
  rw [Mach.cellGranted, send_region, onRegion_same]

theorem cellGranted_last (m : Mach) (r cell : Nat) (held : BitVec 4) (p : Nat) :
    tget ((m.cellGranted r cell held p).region r).cellLast 0 cell = (p + 1) % 4 := by
  rw [cellGranted_region, tget_tput_same]

/-- The requests that were not granted stand in the next turn. -/
theorem cellGranted_held (m : Mach) (r cell : Nat) (held reqs : BitVec 4) (p : Nat) :
    (m.cellGranted r cell held p).cellHeld r cell reqs = (held &&& ~~~(1#4 <<< p)) ||| reqs := by
  rw [Mach.cellHeld, cellGranted_region, tget_tput_same, BitVec.ofNat_toNat, BitVec.setWidth_eq]

/-- A word beyond repair that the granted port of a cell reads is settled where the cell lies in a serving region's table block (R292). -/
def Mach.tableRead (m : Mach) (r cell : Nat) : Option TableWord → Mach
  | some w => if (m.region r).st = .serving && cell / 64 = (m.region r).tableBlock then m.tableFlagged r w else m
  | none => m

theorem tableRead_flagged {w : TableWord} (hs : (m.region r).st = .serving) (ht : cell / 64 = (m.region r).tableBlock) :
    m.tableRead r cell (some w) = m.tableFlagged r w := by simp [Mach.tableRead, hs, ht]

theorem tableRead_other (h : ue = none ∨ (m.region r).st ≠ .serving ∨ cell / 64 ≠ (m.region r).tableBlock) :
    m.tableRead r cell ue = m := by
  cases ue with
  | none => rfl
  | some w =>
    have hn := h.resolve_left nofun
    refine if_neg ?_
    rw [Bool.and_eq_true, decide_eq_true_eq, decide_eq_true_eq]
    rintro ⟨hs, ht⟩
    exact hn.elim (fun h => h hs) fun h => h ht

theorem answers_cellGrant_granted (h : UnitReady (.cellGrant r cell ⟨reqs, ue⟩) s) (hst : (s.m.region r).st ≠ .fenced)
    (hat : tget (s.m.region r).cellAt 0 cell ≠ s.m.cellCycle cell + 1)
    (hp : nextPort (s.m.cellHeld r cell reqs) (tget (s.m.region r).cellLast 0 cell) = some p) :
    Answers (.cellGrant r cell ⟨reqs, ue⟩) s ((s.m.cellGranted r cell (s.m.cellHeld r cell reqs) p).tableRead r cell ue) := by
  refine answers_unit h rfl ?_
  rw [Mach.cellHeld] at hp
  simp only [if_neg hst, if_neg hat, hp]
  cases ue <;> rfl

theorem answers_cellGrant_kept (h : UnitReady (.cellGrant r cell ⟨reqs, ue⟩) s) (hst : (s.m.region r).st ≠ .fenced)
    (hn : tget (s.m.region r).cellAt 0 cell = s.m.cellCycle cell + 1 ∨ s.m.cellHeld r cell reqs = 0) :
    Answers (.cellGrant r cell ⟨reqs, ue⟩) s
      (s.m.onRegion r fun g => { g with cellReq := tput g.cellReq 0 cell (s.m.cellHeld r cell reqs).toNat }) := by
  refine answers_unit h rfl ?_
  have hnone : (if tget (s.m.region r).cellAt 0 cell = s.m.cellCycle cell + 1 then none else
      nextPort (BitVec.ofNat 4 (tget (s.m.region r).cellReq 0 cell) ||| reqs) (tget (s.m.region r).cellLast 0 cell)) = none := by
    rcases hn with hn | hn
    · exact if_pos hn
    · rw [Mach.cellHeld] at hn
      rw [hn, nextPort_zero, ite_self]
  simp only [if_neg hst, hnone]
  rfl

/-! ## Four turns of a cell -/

/-- What the third clause of R21 assumes of four successive cycles of cell `cell`: each is one in which the cell may grant, and each
begins with the requests and the turn that the one before it left. -/
structure CellTurns (r cell : Nat) (reqs : Nat → BitVec 4) (s : Nat → State) : Prop where
  ready : ∀ i, i < 4 → UnitReady (.cellGrant r cell ⟨reqs i, none⟩) (s i) ∧ ((s i).m.region r).st ≠ .fenced ∧
    tget ((s i).m.region r).cellAt 0 cell ≠ (s i).m.cellCycle cell + 1
  next : ∀ i, i < 3 → ∃ m, Answers (.cellGrant r cell ⟨reqs i, none⟩) (s i) m ∧
    tget ((s (i + 1)).m.region r).cellReq 0 cell = tget (m.region r).cellReq 0 cell ∧
    tget ((s (i + 1)).m.region r).cellLast 0 cell = tget (m.region r).cellLast 0 cell

theorem answers_unique {c : Instr} {s : State} {m m' : Mach} (h : Answers c s m) (h' : Answers c s m') : m = m' := by
  rw [Answers, h] at h'
  cases h'
  rfl

section
variable {reqs : Nat → BitVec 4} {s : Nat → State} {i : Nat} (h : CellTurns r cell reqs s)
include h

theorem CellTurns.grants (hi : i < 4)
    (hq : nextPort ((s i).m.cellHeld r cell (reqs i)) (tget ((s i).m.region r).cellLast 0 cell) = some q) :
    Answers (.cellGrant r cell ⟨reqs i, none⟩) (s i) ((s i).m.cellGranted r cell ((s i).m.cellHeld r cell (reqs i)) q) := by
  obtain ⟨hu, hst, hat⟩ := h.ready i hi
  exact answers_cellGrant_granted hu hst hat hq

/-- The next turn begins with the port after the one granted, and with every other request of this turn. -/
theorem CellTurns.handed_on (hi : i < 3)
    (hq : nextPort ((s i).m.cellHeld r cell (reqs i)) (tget ((s i).m.region r).cellLast 0 cell) = some q) :
    tget ((s (i + 1)).m.region r).cellLast 0 cell = (q + 1) % 4 ∧
      (s (i + 1)).m.cellHeld r cell (reqs (i + 1)) = ((s i).m.cellHeld r cell (reqs i) &&& ~~~(1#4 <<< q)) ||| reqs (i + 1) := by
  obtain ⟨m, hm, hreq, hlast⟩ := h.next i hi
  cases answers_unique hm (h.grants (by omega) hq)
  rw [cellGranted_last] at hlast
  rw [Mach.cellHeld, hreq, ← Mach.cellHeld, cellGranted_held]
  exact ⟨hlast, rfl⟩

/-- A port that requests is granted within as many further turns as ports are asked before it. -/
theorem CellTurns.granted_within (hp : p < 4) (d : Nat) : ∀ i, i + d < 4 → tget ((s i).m.region r).cellLast 0 cell < 4 →
    portsBefore (tget ((s i).m.region r).cellLast 0 cell) p ≤ d → ((s i).m.cellHeld r cell (reqs i)).getLsbD p = true →
    ∃ j, j < 4 ∧ ∃ m, Answers (.cellGrant r cell ⟨reqs j, none⟩) (s j) m ∧ m.out = (s j).m.out ++ [.cellGrant r cell p] := by
  induction d with
  | zero =>
    intro i hi hl hd hreq
    obtain ⟨q, hq, rfl | ⟨-, hlt⟩⟩ := nextPort_closer hl hp hreq
    · exact ⟨i, hi, _, h.grants hi hq, rfl⟩
    · omega
  | succ d ih =>
    intro i hi hl hd hreq
    obtain ⟨q, hq, rfl | ⟨hstands, hlt⟩⟩ := nextPort_closer hl hp hreq
    · exact ⟨i, by omega, _, h.grants (by omega) hq, rfl⟩
    · obtain ⟨hlast, hheld⟩ := h.handed_on (by omega) hq
      refine ih (i + 1) (by omega) (by omega) (by rw [hlast]; omega) ?_
      rw [hheld, BitVec.getLsbD_or, hstands, Bool.true_or]

end

/-- Settles O57: each turn is the gate's effect on the first port of `nextPort`; of four turns, every one that does not grant port `p`
leaves fewer ports before it. -/
theorem cellsGrantInTurn : Obligations.CellsGrantInTurn := by
  unfold Obligations.CellsGrantInTurn
  refine ⟨fun r cell reqs ue s hu hst =>
      ⟨fun p hat hp => ⟨fun w hw hs ht => ?_, fun hn => ?_⟩, fun hn => answers_cellGrant_kept hu hst hn⟩,
    fun reqs k hk hr => nextPort_nearest hk hr, fun r cell p reqs s hp hl hreq hready hnext => ?_⟩
  · have hg := answers_cellGrant_granted hu hst hat hp
    rwa [hw, tableRead_flagged (by rw [cellGranted_region, hs]) (by rw [cellGranted_region, ht]), ← hw] at hg
  · have hg := answers_cellGrant_granted hu hst hat hp
    rwa [tableRead_other (by rwa [cellGranted_region])] at hg
  · have h : CellTurns r cell reqs s := ⟨hready, hnext⟩
    exact h.granted_within hp 3 0 (by omega) hl (by rw [portsBefore]; omega) hreq

end Sys2Proof.Machine
end

section
/-! PROOF. The arcade: injection, hops and credits (R18 to R20, R304). -/

namespace Sys2Proof.Machine

variable {s : State} {m : Mach} {g : Nat}

/-! ## Injection (R18) -/

section
variable {src dst pitch addr : Nat} {vc : VC} {words : List CWord}

/-- The flit that ARCADE_FLIT_INJECT would put on the ring. -/
def Mach.newFlit (m : Mach) (src dst : Nat) (vc : VC) (pitch addr : Nat) (words : List CWord) : Flit :=
  ⟨m.nextId, src, dst, vc, segPath m.fam src dst, pitch, addr, words⟩

theorem answers_inject_ring {rest : List Nat} (h : UnitReady (.arcadeFlitInject src dst vc pitch addr words) s)
    (hc : s.m.creditsUsed src dst vc < s.m.arc.depth) (hi : s.m.mayInject vc (segPath s.m.fam src dst) = true)
    (hp : segPath s.m.fam src dst = g :: rest) :
    Answers (.arcadeFlitInject src dst vc pitch addr words) s (s.m.renumber.onArc fun a =>
      { a with used := tput a.used 0 (creditKey src dst vc) (s.m.creditsUsed src dst vc + 1), slotAt := tput a.slotAt 0 g s.m.cycle
               flits := a.flits ++ [s.m.newFlit src dst vc pitch addr words] }) := by
  rw [hp] at hi
  refine answers_unit h rfl ?_
  simp [Nat.not_le.mpr hc, hi, Mach.newFlit, hp]

/-- With no segment between the stops the flit is in the destination's queue at once. -/
theorem answers_inject_local (h : UnitReady (.arcadeFlitInject src dst vc pitch addr words) s)
    (hc : s.m.creditsUsed src dst vc < s.m.arc.depth) (hp : segPath s.m.fam src dst = []) :
    Answers (.arcadeFlitInject src dst vc pitch addr words) s (s.m.renumber.onArc fun a =>
      { a with used := tput a.used 0 (creditKey src dst vc) (s.m.creditsUsed src dst vc + 1)
               arrived := a.arrived ++ [s.m.newFlit src dst vc pitch addr words] }) := by
  refine answers_unit h rfl ?_
  simp [Nat.not_le.mpr hc, Mach.mayInject, Mach.newFlit, hp]

theorem answers_inject_refused (h : UnitReady (.arcadeFlitInject src dst vc pitch addr words) s)
    (hn : s.m.arc.depth ≤ s.m.creditsUsed src dst vc ∨ s.m.mayInject vc (segPath s.m.fam src dst) = false) :
    Answers (.arcadeFlitInject src dst vc pitch addr words) s s.m := by
  refine answers_unit h rfl (if_pos ?_)
  rw [Bool.or_eq_true, decide_eq_true_eq, Bool.not_eq_true']
  exact hn

end

/-! ## Hops (R20) -/

/-- Where no injection is armed, words pass a unit as they are. -/
theorem injWords_unarmed {unit r p a : Nat} {cell : Nat → Nat} (h : ∀ i, m.injAt unit r 0 (cell i) p = false) (ws : List CWord) :
    ∀ i, m.injWords unit r cell p a i ws = (m, ws) := by
  induction ws with
  | nil => exact fun _ => rfl
  | cons w ws ih =>
    intro i
    simp only [Mach.injWords, Mach.injW, h i, Bool.false_and, Bool.false_eq_true, if_false, ih]

/-- A hop without a correction changes no bucket's value. -/
theorem fillOuter_none (m : Mach) (g : Nat) :
    ∃ c, m.fillOuter 0 g 0 = m.onCode (fun _ => c) ∧ ∀ i, tget c.lbSeg 0 i = tget m.code.lbSeg 0 i := by
  refine ⟨{ m.code with lbSeg := tput m.code.lbSeg 0 g (tget m.code.lbSeg 0 g) }, rfl, fun i => ?_⟩
  by_cases hi : i = g
  · rw [hi]
    exact tget_tput_same ..
  · exact tget_tput_other _ _ _ hi

theorem isCorrected_of_clean {w : CWord} (h : checkWord w = .clean) : isCorrected w = false := by simp [isCorrected, h]

theorem isFlagged_of_clean {w : CWord} (h : checkWord w = .clean) : isFlagged w = false := by simp [isFlagged, h]

theorem readWord_of_clean {w : CWord} (h : checkWord w = .clean) : readWord w = some w.data := by simp [readWord, h, Verdict.data?]

theorem darken_fatal (m : Mach) (k : Nat) : (m.darken k).sys.fatal = m.sys.fatal := rfl

theorem each_fatal {α : Type} (l : List α) {f : Mach → α → Mach} (hf : ∀ m a, (f m a).sys.fatal = m.sys.fatal) (m : Mach) :
    (m.each l f).sys.fatal = m.sys.fatal := by
  induction l generalizing m with
  | nil => rfl
  | cons a l ih => exact (ih (f m a)).trans (hf m a)

theorem chipFatal_fatal (m : Mach) (cause : Nat) : (m.chipFatal cause).sys.fatal = true := by
  unfold Mach.chipFatal
  split
  · assumption
  · exact each_fatal _ darken_fatal _

section
variable {id : Nat} {rest : List Nat} {hd : CWord} {data : List CWord} {fl : Flit}

/-- The machine after the checkers of segment `g`'s stop have counted what they found in `words`. -/
def Mach.hopChecked (m : Mach) (g : Nat) (words : List CWord) : Mach :=
  (m.fillOuter 0 g (words.filter isCorrected).length).countUe (words.filter isFlagged).length

/-- A flit over its next segment. -/
def Arc.hop (a : Arc) (fl : Flit) (rest : List Nat) : Arc :=
  let fl := { fl with path := rest, words := fl.words.map passWord }
  if rest.isEmpty then { a with flits := a.flits.filter (fun x => x.id ≠ fl.id), arrived := a.arrived ++ [fl] }
  else { a with flits := lmod a.flits (fun x => x.id = fl.id) fun _ => fl }

theorem hop_last (a : Arc) (fl : Flit) : a.hop fl [] =
    { a with flits := a.flits.filter (fun x => x.id ≠ fl.id)
             arrived := a.arrived ++ [{ fl with path := [], words := fl.words.map passWord }] } := rfl

theorem hop_onward (a : Arc) (fl : Flit) (h : rest ≠ []) : a.hop fl rest =
    { a with flits := lmod a.flits (fun x => x.id = fl.id) fun _ => { fl with path := rest, words := fl.words.map passWord } } :=
  if_neg (by simpa using h)

/-- A hop that no injection is armed for and that upsets no bit. -/
theorem answers_hop (h : UnitReady (.arcadeFlitHop id []) s) (hf : (s.m.arc.flits.find? fun x => x.id = id) = some fl)
    (hp : fl.path = g :: rest) (hw : fl.words = hd :: data) (hfree : s.m.flitFree fl = true) (hi : ∀ p, s.m.injAt 4 0 0 g p = false) :
    Answers (.arcadeFlitHop id []) s (
      if (readWord hd).isNone then (s.m.hopChecked g fl.words).chipFatal fcArcadeHeader
      else (s.m.hopChecked g fl.words).onArc fun a => a.hop fl rest) := by
  refine answers_unit h rfl ?_
  have hid : fl.id = id := by simpa using List.find?_some hf
  have hu : upset fl.words [] = hd :: data := hw
  simp only [hf, hp, hu, hfree, Bool.not_true, Bool.false_eq_true, if_false, injWords_unarmed (fun _ => hi fl.pitch)]
  simp only [Mach.hopChecked, Arc.hop, hw, hid, List.map_cons]

theorem hopChecked_clean {ws : List CWord} (h : ∀ w ∈ ws, checkWord w = .clean) (m : Mach) (g : Nat) :
    ∃ c, m.hopChecked g ws = m.onCode (fun _ => c) ∧ ∀ i, tget c.lbSeg 0 i = tget m.code.lbSeg 0 i := by
  have hc : ws.filter isCorrected = [] := List.filter_eq_nil_iff.mpr fun w hw => by simp [isCorrected_of_clean (h w hw)]
  have hf : ws.filter isFlagged = [] := List.filter_eq_nil_iff.mpr fun w hw => by simp [isFlagged_of_clean (h w hw)]
  obtain ⟨c, he, hb⟩ := fillOuter_none m g
  rw [Mach.hopChecked, hc, hf, List.length_nil, he]
  exact ⟨{ c with uecount := satAdd (2 ^ 32 - 1) c.uecount 0 }, rfl, hb⟩

end

/-- Flits taken out of the queue give back as many credits (R304). -/
theorem answers_creditReturn {src dst n : Nat} {vc : VC} (h : UnitReady (.arcadeCreditReturn src dst vc n) s)
    (hn : n ≤ (s.m.arc.arrived.filter fun x => x.src = src && x.dst = dst && x.vc = vc).length) :
    Answers (.arcadeCreditReturn src dst vc n) s (s.m.onArc fun a =>
      { a with used := tput a.used 0 (creditKey src dst vc) (s.m.creditsUsed src dst vc - n)
               arrived := dropWhich (fun x => x.src = src && x.dst = dst && x.vc = vc) n a.arrived }) := by
  refine answers_unit h rfl ?_
  simp only [Nat.min_eq_left hn]

/-- Settles O27: a hop's checkers find nothing in clean words (`hopChecked_clean`), so its only effects are on the rings and on the
error counts; the poison marker as a header is chip fatal by log entry 93. -/
theorem arcadeCarriesFlits : Obligations.ArcadeCarriesFlits := by
  unfold Obligations.ArcadeCarriesFlits
  refine ⟨?_, ?_, ?_⟩
  · intro src dst pitch addr vc words s c fl used h
    exact ⟨fun g rest hc hi hp => answers_inject_ring h hc hi hp, fun hc hp => answers_inject_local h hc hp,
      fun hn => answers_inject_refused h hn⟩
  · intro id g rest hd data fl s h hf hp hw hfree hi
    have ha := answers_hop h hf hp hw hfree hi
    refine ⟨fun hclean => ?_, fun hnone => ⟨_, ha, ?_⟩⟩
    · have hid : fl.id = id := by simpa using List.find?_some hf
      obtain ⟨c, hm, hb⟩ := hopChecked_clean hclean s.m g
      rw [readWord_of_clean (hclean hd (by simp [hw])), Option.isNone_some, if_neg Bool.false_ne_true, hm] at ha
      subst hid
      exact ⟨_, ha, fun he => by rw [he]; exact hop_last .., fun he => hop_onward _ _ he, hb, rfl⟩
    · rw [hnone, Option.isNone_none, if_pos rfl]
      exact chipFatal_fatal ..
  · intro src dst n vc s h mine hn
    exact answers_creditReturn h hn

end Sys2Proof.Machine
end

section
/-! PROOF. RESET_n, start-up, a region's return, the monitor's supply and the temperatures. -/

namespace Sys2Proof.Machine

variable {s : State} {r : Nat}

theorem each_nil {α : Type} (m : Mach) (f : Mach → α → Mach) : m.each [] f = m := rfl

/-! ## RESET_n (R370, R394) -/

theorem answers_resetNAssert_long {ns : Nat} (hw : (Instr.resetNAssert ns).wf s.m.fam = true) (ha : s.m.awake = true) (hn : 50 ≤ ns) :
    Answers (.resetNAssert ns) s s.m.heldLow :=
  answers_awake hw ha rfl (if_neg (Nat.not_lt.mpr hn))

theorem answers_resetNAssert_short {ns : Nat} (hw : (Instr.resetNAssert ns).wf s.m.fam = true) (ha : s.m.awake = true) (hn : ns < 50) :
    Answers (.resetNAssert ns) s s.m :=
  answers_awake hw ha rfl (if_pos hn)

/-- The rise of RESET_n when every hub, stop and block passes its self-test (R369, R371). -/
theorem answers_resetNRelease {b : BootIn} (hw : (Instr.resetNRelease b).wf s.m.fam = true) (ha : s.m.awake = false)
    (hh : b.hubBad = []) (hs : b.stopBad = []) (hb : b.blockBad = []) :
    let m0 := s.m.monitorStart b
    let m := m0.each (List.range (hubs m0.fam)) fun m k => m.portStart k
    Answers (.resetNRelease b) s
      ((m.each ((List.range (regions m.fam)).filter fun r => (m.region r).st ≠ .fenced) fun m r => m.takeTable r).bootHubs b.flash) := by
  refine answers_always hw (exec_resetNRelease b s) ?_
  simp only [ha, hh, hs, hb, List.filter_nil, List.isEmpty_nil, Bool.not_true, Bool.or_self, Bool.false_eq_true, if_false, each_nil]

/-! ## The end of start-up (R371, R372, R373) -/

/-- MEMORY_ACTIVE once a steward has loaded the microcode and the regions that came up train no more. -/
theorem answers_memoryActive (h : UnitReady .memoryActive s) (hp : s.m.sys.phase = .starting) (hs : s.m.sys.steward.isSome = true)
    (hu : s.m.sys.ucodeLoaded = true) {rs : List Nat}
    (hrs : ((List.range (regions s.m.fam)).filter fun r => (s.m.region r).st ≠ .fenced) = rs)
    (ht : ∀ r ∈ rs, s.m.stillTraining r = false) :
    Answers .memoryActive s (
      if rs.isEmpty then s.m.chipFatal fcNoRegion
      else
        let m := (s.m.onSys fun x => { x with phase := .active }).each rs fun m r => m.regionServes r
        m.outerStart.log 0x0806 0 0 0 [(32, m.usec / 1000)]) := by
  have hany : rs.any s.m.stillTraining = false := List.any_eq_false.mpr fun r hr => by simp [ht r hr]
  have hnone : s.m.sys.steward.isNone = false := by simpa using hs
  refine answers_unit h rfl ?_
  simp only [hrs, hp, hnone, hu, hany, ne_eq, not_true_eq_false, decide_false, Bool.not_true, Bool.or_self, Bool.false_eq_true, if_false]

/-! ## The end of a restart (R383) -/

/-- Region `r` whole again, with its state rebuilt and the microcode and configuration in force. -/
def Mach.restarted (m : Mach) (r : Nat) : Mach :=
  let clean := m.onRegion r fun g =>
    { st := .restarting, quar := g.quar, tableBlock := g.tableBlock, fenceCause := g.fenceCause, fencedAt := g.fencedAt
      loans := g.loans, cfg := m.dict.cfg, ucode := ((m.hub (m.sys.steward.getD 0)).image.map (·.ucodever)).getD 0
      ucodeDigest := ((m.hub (m.sys.steward.getD 0)).image.map (·.ucodeDigest)).getD 0
      sT0 := g.sT0, sT1 := g.sT1 }
  (((clean.beginReattach r clean.cycle).regionServes r).log 0x0803 0 1 r [(8, r)]).derate

theorem answers_regionRestartDone (h : DataReady (.regionRestartDone r []) s) (hst : (s.m.region r).st = .restarting)
    (ht : s.m.stillTraining r = false) (hs : s.m.sys.steward.isSome = true) (htab : ((s.m.takeTable r).region r).st = .restarting) :
    Answers (.regionRestartDone r []) s ((s.m.takeTable r).restarted r) := by
  have hnone : s.m.sys.steward.isNone = false := by simpa using hs
  refine answers_data h rfl ?_
  simp only [hst, ht, hnone, ne_eq, not_true_eq_false, decide_false, decide_true, Bool.or_self, Bool.false_eq_true, if_false, each_nil,
    Mach.when, if_true, htab, Mach.restarted]

/-! ## Temperatures (R389) -/

/-- The pin after readings `l`, where it stood at `was`. -/
def alertAfter (l : List (DieId × Int)) (was : Bool) : Bool :=
  if l.any fun y => decide (dieLimit y.1 ≤ y.2) then true
  else if l.all fun y => decide (y.2 + 5 ≤ dieLimit y.1) then false else was

theorem answers_thermalReading {l : List (DieId × Int)} (hw : (Instr.thermalReading l).wf s.m.fam = true) (ha : s.m.awake = true)
    (hdue : ∀ t, s.m.sys.thermAt = some t → t + us 100 ≤ s.m.cycle) {b : Bool}
    (hb : alertAfter (newTemps s.m.sys.temps l) s.m.sys.thermAlert = b) :
    Answers (.thermalReading l) s (s.m.onSys fun x =>
      { x with temps := newTemps s.m.sys.temps l, thermAt := some s.m.cycle, thermAlert := b }) := by
  refine answers_awake hw ha rfl ?_
  rw [← hb]
  cases hat : s.m.sys.thermAt with
  | none => rfl
  | some t => exact if_neg (by simpa using hdue t hat)

theorem alertAfter_reached {l : List (DieId × Int)} (h : ∃ y ∈ l, dieLimit y.1 ≤ y.2) (was : Bool) : alertAfter l was = true :=
  if_pos (by simpa using h)

theorem alertAfter_released {l : List (DieId × Int)} (h : ∀ y ∈ l, y.2 + 5 ≤ dieLimit y.1) (was : Bool) :
    alertAfter l was = false := by
  have hbelow : ¬ (l.any fun y => decide (dieLimit y.1 ≤ y.2)) = true := by
    simp only [List.any_eq_true, decide_eq_true_eq, not_exists, not_and]
    intro y hy
    have := h y hy
    omega
  rw [alertAfter, if_neg hbelow]
  exact if_pos (by simpa using h)

theorem alertAfter_kept {l : List (DieId × Int)} (h : ∀ y ∈ l, y.2 < dieLimit y.1) (hn : ∃ y ∈ l, dieLimit y.1 < y.2 + 5)
    (was : Bool) : alertAfter l was = was := by
  obtain ⟨y, hy, hlt⟩ := hn
  rw [alertAfter, if_neg (by simpa using h), if_neg]
  simp only [List.all_eq_true, decide_eq_true_eq]
  exact fun hall => Int.not_le.mpr hlt (hall y hy)

/-- Settles O58. The 50 ns and the loads that memory-active waits for are the reading of log entries 52 and 55. -/
theorem resetStartUpAndTemperatures : Obligations.ResetStartUpAndTemperatures := by
  unfold Obligations.ResetStartUpAndTemperatures
  refine ⟨?reset, ?release, ?active, ?restart, ?supply, ?thermal⟩
  case reset => exact fun ns s hw ha => ⟨answers_resetNAssert_long hw ha, answers_resetNAssert_short hw ha⟩
  case release => exact fun b s hw ha hh hs hb => answers_resetNRelease hw ha hh hs hb
  case active =>
    intro s h hp hs hu rs ht
    have hm := answers_memoryActive h hp hs hu rfl ht
    refine ⟨fun hn => ?_, fun he => ?_⟩
    · rwa [if_neg (mt List.isEmpty_iff.mp hn)] at hm
    · rwa [if_pos (List.isEmpty_iff.mpr he)] at hm
  case restart =>
    intro r s h hst ht hs m htab v clean
    exact answers_regionRestartDone h hst ht hs htab
  case supply => exact fun s hw => answers_always hw (exec_vddAonLoss s) rfl
  case thermal =>
    intro l s hw ha hdue read set
    exact ⟨fun h => answers_thermalReading hw ha hdue (alertAfter_reached h _),
      fun h => answers_thermalReading hw ha hdue (alertAfter_released h _),
      fun h hn => answers_thermalReading hw ha hdue (alertAfter_kept h hn _)⟩

end Sys2Proof.Machine
end

section
/-! PROOF. The bell, the moves of its plan, and the ends of folds and unfolds. -/

namespace Sys2Proof.Machine

variable {s : State} {m : Mach} {r id : Nat} {v : Move} {d : Priv} {j : Job}

/-! ## The bell (R57, R60, R406) -/

theorem answers_bell_early (h : DataReady (.bell r) s) (ht : s.m.cycle < (s.m.region r).bellAt) : Answers (.bell r) s s.m :=
  answers_data h rfl (if_pos (by simp [ht]))

/-- The bell at its time: whether the region plans anew is read after the grants, for a firmware roll stops planning (R367). -/
theorem answers_bell_due (h : DataReady (.bell r) s) (hst : (s.m.region r).st = .serving) (ht : (s.m.region r).bellAt ≤ s.m.cycle)
    {granted planned : Mach} (hg : ((((((s.m.applySettings r).endPlan r).rollBell r).decay r).idleBell r
      (us (bellUs s.m.fam (s.m.region r).eff.vals))).grantPending r) = granted)
    (hp : (granted.when (!(granted.region r).rolling) fun m => m.newPlan r) = planned) :
    Answers (.bell r) s ((planned.bellChans r).leakRegion r) := by
  subst hg hp
  exact answers_data h rfl (if_neg (by simp [hst, ht]))

/-! ## Moves start and take effect (R45, R51, R58, R61) -/

theorem answers_moveStart (h : DataReady (.moveStart r) s) (hst : (s.m.region r).st = .serving) (hroll : (s.m.region r).rolling = false)
    (hv : ((s.m.plannedMoves r).find? fun v => s.m.mayStart r v) = some v) :
    Answers (.moveStart r) s ((s.m.startMove r v).grantLanes r) :=
  answers_data h rfl ((if_neg (by simp [hst, hroll])).trans (by rw [hv]))

theorem answers_moveComplete (h : DataReady (.moveComplete r id) s) (hv : s.m.moveAt r id = some v) (hp : v.phase = .ready)
    (hroll : (s.m.region r).rolling = false) (hd : s.m.priv v.cref = some d) :
    Answers (.moveComplete r id) s
      (((((((((s.m.moveEffect r v d).onRegion r fun g => { g with moves := g.moves.filter fun x => x.id ≠ v.id }).onPriv v.cref
        fun d => { d with lock := false }).parkCount v).repay r).pumpCref none v.cref)).pumpFor r .t0).landKeeps r) := by
  refine answers_data h rfl ?_
  simp only [hv]
  rw [if_neg (by simp [hp, hroll])]
  simp only [hd]

/-! ## A lane ends (R51, R65 to R71, R35, R68) -/

/-- A fold ends once a lane has been granted to it; a frame that moves unchanged has no lane to wait for. -/
theorem answers_foldDone (h : DataReady (.foldDone r id) s) (hm : s.m.grantLanes r = m) (hv : m.moveAt r id = some v)
    (hp : v.phase = .folding) (hroll : (m.region r).rolling = false)
    (hlane : v.kind.folds = true → (m.foldBusy r).contains id = true) (hd : m.priv v.cref = some d) :
    Answers (.foldDone r id) s ((m.folded r v d).grantLanes r) := by
  subst hm
  refine answers_data h rfl ?_
  simp only [hv]
  rw [if_neg (by simpa [hp, hroll] using hlane)]
  simp only [hd]

theorem answers_unfoldDone (h : DataReady (.unfoldDone r id) s) (hm : s.m.grantLanes r = m) (hj : m.jobAt id = some j)
    (hr : j.region = r) (hleft : j.left = 0) (hroll : (m.region r).rolling = false) (hframe : j.frame ≠ [])
    (hlane : (m.unfoldBusy r).contains id = true) : Answers (.unfoldDone r id) s ((m.unfoldJob j).grantLanes r) := by
  subst hm
  refine answers_data h rfl ?_
  simp only [hj]
  rw [if_neg (by simp [hr, hleft, hroll]), if_neg (by simpa using hframe), if_neg (by simpa using hlane)]

/-! ## What becomes of a page's frame (R35, R68, R289; log entry 36) -/

theorem unfoldJob_page {ws : List CWord} (hc : ∀ q pg, j.cref ≠ .desc q pg) (hd : m.priv j.cref = some d)
    (hu : unfoldFrame j.codec j.len j.pver (m.ownerOf j.cref) j.frame = .page ws) :
    m.unfoldJob j = if d.pver = j.pver && !(d.t0 && d.dirty) then m.unfolded j ws else m.readAgain j := by
  rw [Mach.unfoldJob, hd, hu]
  cases hcr : j.cref with
  | desc q pg => exact absurd hcr (hc q pg)
  | slot pn => rfl
  | pool p i => rfl

theorem unfoldJob_lost (hd : m.priv j.cref = some d)
    (hu : unfoldFrame j.codec j.len j.pver (m.ownerOf j.cref) j.frame = .stale ∨
      unfoldFrame j.codec j.len j.pver (m.ownerOf j.cref) j.frame = .malformed) :
    m.unfoldJob j = m.frameLost j false := by
  rcases hu with stale | malformed
  · rw [Mach.unfoldJob, hd, stale]
    cases j.cref <;> rfl
  · rw [Mach.unfoldJob, hd, malformed]
    cases j.cref <;> rfl

/-- Settles O35. When plans and moves take effect is log entry 68; a job whose page changed meanwhile is read again by log entry 36. -/
theorem bellsAndMoves : Obligations.BellsAndMoves := by
  unfold Obligations.BellsAndMoves
  refine ⟨?bell, ?early, ?start, ?complete, ?fold, ?unfold, ?frame⟩
  case bell =>
    intro r s h hst ht len granted
    exact ⟨fun hplans => answers_bell_due h hst ht rfl (if_pos (by rw [hplans]; rfl)),
      fun hrolls => answers_bell_due h hst ht rfl (if_neg (by rw [hrolls]; decide))⟩
  case early => exact fun r s h ht => answers_bell_early h ht
  case start => exact fun r v s h hst hroll hv => answers_moveStart h hst hroll hv
  case complete => exact fun r id v d s h hv hp hroll hd => answers_moveComplete h hv hp hroll hd
  case fold =>
    intro r id v d s h m hv hp hroll hlane hd
    exact answers_foldDone h rfl hv hp hroll hlane hd
  case unfold =>
    intro r job j s h m hj hr hleft hroll hframe hlane
    exact answers_unfoldDone h rfl hj hr hleft hroll hframe hlane
  case frame =>
    intro m j d hc hd result same
    have hsame : (d.pver = j.pver && !(d.t0 && d.dirty)) = true ↔ same := by
      rw [Bool.and_eq_true, decide_eq_true_eq, Bool.not_eq_true', ← Bool.not_eq_true, Bool.and_eq_true]
    exact ⟨fun ws hu hs => (unfoldJob_page hc hd hu).trans (if_pos (hsame.mpr hs)),
      fun ws hu hs => (unfoldJob_page hc hd hu).trans (if_neg (mt hsame.mp hs)), unfoldJob_lost hd⟩

end Sys2Proof.Machine
end

section
/-! PROOF. Blocks that hold a NaN or an infinity (R79). -/

namespace Sys2Proof.Machine

/-! ## Lines as two-byte elements -/

@[simp] theorem wordBytes_length (w : Word) : (wordBytes w).length = 32 := by simp [wordBytes]

theorem elems16_length : ∀ l : List Byte, (elems16 l).length = l.length / 2
  | [] => rfl
  | [_] => by simp [elems16]
  | _ :: _ :: t => by simp only [elems16, List.length_cons, elems16_length t]; omega

@[simp] theorem bytes16_length (l : List Nat) : (bytes16 l).length = 2 * l.length := by
  rw [bytes16, List.length_flatMap]
  simp only [List.length_cons, List.length_nil, List.map_const', List.sum_replicate_nat]
  exact Nat.mul_comm _ _

theorem bytes16_append (l k : List Nat) : bytes16 (l ++ k) = bytes16 l ++ bytes16 k := List.flatMap_append

/-- A word takes no more than its own 32 bytes. -/
theorem wordOfBytes_append {l : List Byte} (h : l.length = 32) (k : List Byte) : wordOfBytes (l ++ k) = wordOfBytes l := by
  rw [wordOfBytes, wordOfBytes, List.take_left' h, List.take_of_length_le (Nat.le_of_eq h)]

/-! ## Blocks that are not finite -/

variable {src el : FlFmt} {codes : List Nat}

/-- Where all ones is kept for NaN and infinity, such a code has no finite value. -/
theorem decode_ne_fin {c : Nat} (hs : src.special = 2) (hc : c / 2 ^ src.mb % 2 ^ src.eb = 2 ^ src.eb - 1) (n : Bool) (m : Nat) (e : Int) :
    src.decode c ≠ .fin n m e := by
  rw [FlFmt.decode, Nat.shiftRight_eq_div_pow c src.mb, if_pos ⟨hs, hc⟩]
  split
  · exact FVal.noConfusion
  · exact FVal.noConfusion

theorem mxQuant_of_not_fin (h : ∃ c ∈ codes, ∀ n m e, src.decode c ≠ .fin n m e) :
    mxQuant src el codes = (0xFF, codes.map fun _ => 0) := by
  obtain ⟨c, hc, hv⟩ := h
  refine if_pos (List.any_eq_true.mpr ⟨src.decode c, List.mem_map_of_mem hc, ?_⟩)
  split
  · next n m e heq => exact absurd heq (hv n m e)
  · rfl

theorem mxDequant_scale_ff : mxDequant src el 0xFF codes = codes.map fun _ => canonNaN src := if_pos rfl

/-- Both words of a line that reads as 32 times one element hold 16 of them. -/
theorem landLine_of_const {w0 w1 : Word} {v : Nat} (hline : codes = elems16 (wordBytes w0 ++ wordBytes w1))
    (h : mxDequant src el (mxQuant src el codes).1 (mxQuant src el codes).2 = codes.map fun _ => v) :
    landLine src el (some w0) (some w1) =
      (some (wordOfBytes (bytes16 (List.replicate 16 v))), some (wordOfBytes (bytes16 (List.replicate 16 v)))) := by
  have half : (bytes16 (List.replicate 16 v)).length = 32 := by simp
  have count : codes.length = 16 + 16 := by simp [hline, elems16_length]
  have out : bytes16 (codes.map fun _ => v) = bytes16 (List.replicate 16 v) ++ bytes16 (List.replicate 16 v) := by
    rw [List.map_const', count, ← List.replicate_append_replicate, bytes16_append]
  simp only [landLine, Option.getD_some, Option.map_some, ← hline, h, out, wordOfBytes_append half, List.drop_left' half]

/-- Settles O56: one code with all exponent bits set has no finite value (`decode_ne_fin`), which alone gives the block its scale byte FFH
(`mxQuant_of_not_fin`); under that byte every element reads as the canonical NaN (`mxDequant_scale_ff`). -/
theorem nanBlocksReadAsCanonicalNan : Obligations.NanBlocksReadAsCanonicalNan := by
  unfold Obligations.NanBlocksReadAsCanonicalNan
  intro src el codes hsrc _ ⟨c, hc, hones⟩ nan
  obtain ⟨special, canon⟩ : src.special = 2 ∧ canonNaN src = nan := by
    rcases hsrc with rfl | rfl
    · exact ⟨rfl, rfl⟩
    · exact ⟨rfl, rfl⟩
  have quant : mxQuant src el codes = (0xFF, codes.map fun _ => 0) := mxQuant_of_not_fin ⟨c, hc, decode_ne_fin special hones⟩
  have dequant : mxDequant src el (mxQuant src el codes).1 (mxQuant src el codes).2 = codes.map fun _ => nan := by
    rw [quant, mxDequant_scale_ff, canon, List.map_map]
    rfl
  exact ⟨quant, dequant, fun _ _ hline => landLine_of_const hline dequant⟩

end Sys2Proof.Machine
end

section
/-! PROOF. Access reports and slot loans (R118, R405). -/

namespace Sys2Proof.Machine

variable {s : State} {m : Mach} {r k p handle : Nat} {x : Session}

/-- A change of region `r` that keeps its state leaves every region's state. -/
theorem onRegion_keeps_st {f : Region → Region} (hf : (f (m.region r)).st = (m.region r).st) (q : Nat) :
    ((m.onRegion r f).region q).st = (m.region q).st := by
  by_cases h : q = r
  · rw [h, onRegion_same, hf]
  · rw [onRegion_other _ _ h]

/-- Which session a handle names depends on the sessions and on the states of the regions. -/
theorem byHandle_onRegion {f : Region → Region} (hf : (f (m.region r)).st = (m.region r).st) (handle : Nat) :
    (m.onRegion r f).byHandle handle = m.byHandle handle := by
  have hs (k : Nat) : (m.onRegion r f).session k = m.session k := rfl
  simp only [Mach.byHandle, onRegion_keeps_st hf, hs]

theorem answers_accessReport (h : DataReady (.accessReport r handle) s) (hst : (s.m.region r).st = .serving)
    (ho : handle ∈ (s.m.region r).reportsOut) (hb : s.m.byHandle handle = some (k, x)) :
    Answers (.accessReport r handle) s
      ((s.m.onRegion r fun g => { g with reportsOut := g.reportsOut.filter (· ≠ handle) }).onSession k fun y => { y with idle := 0 }) := by
  refine answers_data h rfl ((if_pos ?_).trans ?_)
  · simpa [hst] using ho
  · simp only [byHandle_onRegion, hb]

theorem answers_slotLoanRequest {q w t : Nat} (h : DataReady (.slotLoanRequest r p) s) (hst : (s.m.region r).st = .serving)
    (hw : p ∈ (s.m.region r).wantLoan)
    (hl : ((s.m.serving.filter (· ≠ r)).findSome? fun q => (s.m.lendSlot q p).map fun x => (q, x)) = some (q, w, t)) :
    Answers (.slotLoanRequest r p) s
      ((s.m.onRegion q fun g => { g with loans := g.loans ++ [(p, w, t, r)] }).onRegion r fun g =>
        { g with wantLoan := g.wantLoan.filter (· ≠ p), loans := g.loans ++ [(p, w, t, r)] }) := by
  refine answers_data h rfl ((if_neg ?_).trans ?_)
  · simpa [hst] using hw
  · simp only [hl]

/-- Settles O36. -/
theorem reportsAndLoans : Obligations.ReportsAndLoans := by
  unfold Obligations.ReportsAndLoans
  exact ⟨fun r handle k x s => answers_accessReport, fun r p q w t s => answers_slotLoanRequest⟩

end Sys2Proof.Machine
end

section
/-! PROOF. How a session takes an operation, and CREATE, DESTROY, SETATTR and EXPIRE. -/

namespace Sys2Proof.Machine

variable {c : Instr} {s : State} {m : Mach} {d op k : Nat} {x : Dtor} {v : Session}

/-! ## An operation that its session lets run (R95, R112, R172, R184) -/

/-- An operation that its session lets run has its effect on the session as it stood, its idle time ended. -/
theorem sessOp_runs {own : Bool} {body : Mach → Dtor → Nat → Session → Mach} (h : SessRuns m d op k x v)
    (hp : own = true → v.pitch = m.dtorPitch x) : m.sessOp d op own body = body (touched m k) x k v := by
  obtain ⟨hs, hb, hr, hg⟩ := h
  have howner : ¬ (own && decide (v.pitch ≠ (touched m k).dtorPitch x)) = true := by
    rw [Bool.and_eq_true, decide_eq_true_eq]
    exact fun ⟨ho, hne⟩ => hne (hp ho)
  have hrel : ¬ (decide (v.busy ≠ some d) && (touched m k).sessReleasing v) = true := by
    rw [show (touched m k).sessReleasing v = false from hr, Bool.and_false]
    exact Bool.false_ne_true
  have hgate : (touched m k).gate k v x = .runs := hg
  rw [touched] at howner hrel hgate ⊢
  simp only [Mach.sessOp, hs, hb, if_neg howner, if_neg hrel, hgate]

theorem answers_sessOp {own : Bool} {body : Mach → Dtor → Nat → Session → Mach} (h : DataReady c s)
    (he : exec c s = s.app (c.wf s.m.fam) (Mach.dataRun fun m => m.sessOp d op own body)) (hr : SessRuns s.m d op k x v)
    (hp : own = true → v.pitch = s.m.dtorPitch x) (hm : body (touched s.m k) x k v = m) : Answers c s m :=
  answers_data h he ((sessOp_runs hr hp).trans hm)

/-! ## CREATE (R93, R94) -/

theorem answers_create {w : Word} (h : DataReady (.create d) s) (hs : s.m.startable d 0x10 = some x) (h1 : 1 ≤ x.opf 2 24 0)
    (h2 : x.opf 2 24 0 ≤ 2 ^ 24) (hw : s.m.layIn x (x.op 4) = .word w)
    (hr : s.m.rangesOk (s.m.dtorPitch x) (x.pn 2) (x.opf 2 24 0) (x.pn 3) = true) (hl : layoutOk w (x.opf 2 24 0) = true)
    (hk : s.m.freeSess (s.m.sessHome (s.m.dtorPitch x) (x.pn 2)) = some k)
    (hc : s.m.pagesCached (x.pn 3) (mapPages (x.opf 2 24 0)) = false) :
    Answers (.create d) s (s.m.createSess d k
      { st := .active, pitch := s.m.dtorPitch x, pin := x.opf 3 27 27 = 1, name := BitVec.ofNat 64 (x.op 0), nextver := 1
        readers := BitVec.ofNat 64 (x.op 1), npages := x.opf 2 24 0, wbase := x.pn 2, mbase := x.pn 3, lease := x.opf 3 15 0
        layout := w }) := by
  refine answers_data h rfl ?_
  simp only [Mach.opCreate, hs, if_neg (Nat.one_le_iff_ne_zero.mp h1), if_neg (Nat.not_lt.mpr h2), hw, hr, hl, hk, hc, Bool.not_true,
    Bool.false_eq_true, if_false]

/-! ## SETATTR (R97) -/

/-- What SETATTR with mask `x.opf 5 4 0` makes of a session, `w` being the layout record its operand names. -/
def Session.setAttrs (y : Session) (x : Dtor) (w : Word) : Session :=
  let has (i : Nat) : Bool := hasBit (x.opf 5 4 0) i
  { y with name := if has 0 then BitVec.ofNat 64 (x.op 0) else y.name
           readers := if has 1 then BitVec.ofNat 64 (x.op 1) else y.readers
           lease := if has 2 then x.opf 3 15 0 else y.lease, pin := if has 3 then x.opf 3 27 27 = 1 else y.pin
           layout := if has 4 then w else y.layout }

theorem answers_setattr {w : Word} (h : DataReady (.setattr d) s) (hr : SessRuns s.m d 0x12 k x v) (hp : v.pitch = s.m.dtorPitch x)
    (hst : v.st ≠ .parked)
    (hw : if hasBit (x.opf 5 4 0) 4 then (touched s.m k).layIn x (x.op 4) = .word w ∧ layoutOk w v.npages = true else w = 0) :
    Answers (.setattr d) s (((touched s.m k).onSession k fun y => y.setAttrs x w).opDone x.id stOk 0) := by
  refine answers_sessOp h rfl hr (fun _ => hp) ?_
  cases h4 : hasBit (x.opf 5 4 0) 4 with
  | true =>
    rw [h4, if_pos rfl] at hw
    obtain ⟨hw, hl⟩ := hw
    simp [hw, hl, hst, Mach.when, Session.setAttrs, h4]
  | false =>
    rw [h4, if_neg Bool.false_ne_true] at hw
    simp [hst, Mach.when, Session.setAttrs, h4]

/-- Settles O37. That EXPIRE passes over a session with an operation in progress is log entry 98 (`Mach.expires`). -/
theorem sessionsComeAndGo : Obligations.SessionsComeAndGo := by
  unfold Obligations.SessionsComeAndGo
  refine ⟨?create, ?destroy, ?setattr, ?expire⟩
  case create =>
    intro d k x w s h hs p n pages h1 h2 hw hr hl hk hc made
    exact answers_create h hs h1 h2 hw hr hl hk hc
  case destroy =>
    intro d k x v s h hr hp
    exact ⟨fun hc => answers_sessOp h rfl hr (fun _ => hp) (if_neg (ne_true_of_eq_false hc)),
      fun hc => answers_sessOp h rfl hr (fun _ => hp) (if_pos hc)⟩
  case setattr =>
    intro d k x v s h hr hp hst has set
    refine ⟨fun h4 => ?_, fun w h4 hw hl => ?_⟩
    · exact answers_setattr h hr hp hst (if_neg (ne_true_of_eq_false h4) ▸ rfl)
    · exact answers_setattr h hr hp hst ((if_pos h4).mpr ⟨hw, hl⟩)
  case expire =>
    intro d x s h hs l hc gone
    refine answers_data h rfl ?_
    simp only [Mach.opExpire, hs]
    exact if_neg (ne_true_of_eq_false hc)

end Sys2Proof.Machine
end

section
/-! PROOF. PUBLISH, its conversion, DROP, FORK, OPEN and CLOSE. -/

namespace Sys2Proof.Machine

variable {s : State} {m : Mach} {d k k' vk : Nat} {x : Dtor} {v : Session} {w : Version} {y : View}

/-! ## PUBLISH and its conversion (R100 to R104) -/

theorem answers_publish (h : DataReady (.publish d) s) (hr : SessRuns s.m d 0x13 k x v) (hp : v.pitch = s.m.dtorPitch x)
    (hb : v.busy ≠ some d) (hn : v.npub < 63) (hv : v.nextver ≠ 0) :
    Answers (.publish d) s ((((touched s.m k).hold k d).onSession k fun y => { y with st := .freezing }).sessRecall v) := by
  refine answers_sessOp h rfl hr (fun _ => hp) ((if_neg hb).trans (if_neg ?_))
  simpa [hv] using hn

/-- The status of R102 items 2 and 3 for the conversion of `v`: none where there is room. -/
def Mach.convertRoom (m : Mach) (v : Session) : Option Nat :=
  m.roomFor v.pitch fun r => (((pageRange v.wbase v.npages).filter m.newEntry).filter fun pn => m.homeOf pn = r).length

/-- How PUBLISH `d` of session `k` ends when no content is to be copied: by the room there is for the new pool entries. -/
def Mach.convertEnd (m : Mach) (k d : Nat) (v : Session) : Option Nat → Mach
  | some st => (m.leaveState k .active).opDone d st 0
  | none =>
    match m.convertAll d v.pitch v.wbase v.npages with
    | .error r => (m.takeT0 r v.pitch).1
    | .ok (m, l) => m.sealVersion k d l

theorem convertEnd_ok {l : List MapEnt} (h : s.m.convertAll d v.pitch v.wbase v.npages = .ok (m, l)) :
    s.m.convertEnd k d v none = m.sealVersion k d l := by rw [Mach.convertEnd, h]

theorem answers_publishConvert {handle : Nat} (h : DataReady (.publishConvert handle) s) (hk : s.m.byHandle handle = some (k, v))
    (hb : v.busy = some d) (hst : v.st = .freezing) (hc : s.m.publishCached v = false)
    (hn : (pageRange v.wbase v.npages).filterMap s.m.newRef = []) :
    Answers (.publishConvert handle) s (s.m.convertEnd k d v (s.m.convertRoom v)) := by
  refine answers_data h rfl ?_
  simp only [hk, hb]
  refine (if_neg (by simp [hst, hc])).trans ?_
  generalize hroom : s.m.convertRoom v = room
  rw [Mach.convertRoom] at hroom
  simp only [hn, each_nil, List.any_nil, Bool.false_eq_true, if_false, hroom]
  cases room <;> rfl

/-! ## FORK (R111) -/

/-- FORK `x` of version `w` for pitch `p` finds what it needs: free ranges without cached lines, record `k'`, room for its patterns, and
no reference that must be copied. -/
structure ForkOk (m : Mach) (p k' : Nat) (x : Dtor) (w : Version) : Prop where
  notRetiring : w.retiring = false
  ranges : m.rangesOk p (x.pn 2) w.vpages (x.pn 3) = true
  record : m.freeSess (m.sessHome p (x.pn 2)) = some k'
  patterns : m.patRoom (m.patNeeds (x.pn 2) w.map) = true
  pagesUncached : m.pagesCached (x.pn 2) w.vpages = false
  mapUncached : m.pagesCached (x.pn 3) (mapPages w.vpages) = false
  noCopies : m.copyRefs w.map = []

theorem answers_fork (h : DataReady (.fork d) s) (hr : SessRuns s.m d 0x17 k x v) (hp : v.pitch = s.m.dtorPitch x)
    (hv : v.ver x.version = some w) (hok : ForkOk (touched s.m k) v.pitch k' x w)
    (hm : ((touched s.m k).clearPages (x.pn 2) w.vpages).forkSlots d v.pitch (x.pn 2) w.map = .ok m) :
    Answers (.fork d) s ((m.onSession k fun y => { y with side := none }).createSess d k'
      { st := .active, pitch := v.pitch, pin := x.opf 3 27 27 = 1, name := BitVec.ofNat 64 (x.op 0), nextver := 1
        readers := BitVec.ofNat 64 (x.op 1), npages := w.vpages, wbase := x.pn 2, mbase := x.pn 3, lease := x.opf 3 15 0
        parent := m.handle k, forkver := w.vnum, layout := w.layout }) := by
  refine answers_sessOp h rfl hr (fun _ => hp) ?_
  simp only [hv, hok.notRetiring, hok.ranges, hok.record, hok.patterns, hok.pagesUncached, hok.mapUncached, hok.noCopies, hm, each_nil,
    List.any_nil, Bool.not_true, Bool.or_self, Bool.false_eq_true, if_false]

/-! ## OPEN and CLOSE (R107, R110, R199) -/

/-- OPEN `x` of version `w` of session `v`, homed in region `r`, finds what it needs for pitch `p`: a free READ-SHARED range, the right to
read, view record `vk` and room for its patterns. -/
structure OpenOk (m : Mach) (p r vk : Nat) (x : Dtor) (v : Session) (w : Version) : Prop where
  notRetiring : w.retiring = false
  views : w.views < 65535
  readShared : m.rangeIn p (x.pn 2) w.vpages (fun e => e.coh = .readShared) = true
  untaken : m.rangeTaken (x.pn 2) w.vpages = false
  reader : v.pitch = p ∨ v.readers.getLsbD p = true
  record : m.freeView r = some vk
  patterns : m.patRoom (m.patNeeds (x.pn 2) w.map) = true

/-- The machine with the slots from `base` on cleared and filled for pitch `p` from version `w`'s map (R107). -/
def Mach.slotsFrom (m : Mach) (base p : Nat) (w : Version) : Mach :=
  (m.redraw.clearPages base w.vpages).each w.map.zipIdx fun m e => m.slotFrom (base + e.2) p e.1

theorem answers_openv {filled : Mach} (h : DataReady (.openv d) s) (hr : SessRuns s.m d 0x15 k x v) (hv : v.ver x.version = some w)
    (hok : OpenOk (touched s.m k) (s.m.dtorPitch x) (k / 16384) vk x v w)
    (hf : (touched s.m k).slotsFrom (x.pn 2) (s.m.dtorPitch x) w = filled) :
    Answers (.openv d) s
      ((((filled.onView vk fun _ =>
          { live := true, gen := (filled.view vk).gen, pitch := s.m.dtorPitch x, base := x.pn 2, pages := w.vpages
            sess := filled.handle k, vnum := w.vnum }).onVersion k w.vnum fun y =>
              { y with views := y.views + 1 }).writeEntry k w.idx (some d)).opDone d stOk (handleOf (filled.view vk).gen vk)) := by
  subst hf
  have hpitch : (touched s.m k).dtorPitch x = s.m.dtorPitch x := rfl
  have hdenied : ¬ (decide (v.pitch ≠ s.m.dtorPitch x) && !v.readers.getLsbD (s.m.dtorPitch x)) = true := by
    rcases hok.reader with howner | hreader
    · simp [howner]
    · simp [hreader]
  refine answers_sessOp h rfl hr nofun ?_
  simp only [hv, hpitch, hok.notRetiring, hok.readShared, hok.untaken, hok.record, hok.patterns, if_neg hdenied,
    if_neg (Nat.not_le.mpr hok.views), Bool.not_true, Bool.or_self, Bool.false_eq_true, if_false]
  rfl

/-- CLOSE ends the idle time of the view's session, where that still is (R118). -/
def Mach.touchedBy (m : Mach) (y : View) : Mach := match m.byHandle y.sess with | some (k, _) => touched m k | none => m

theorem touchedBy_gone (h : m.byHandle y.sess = none) : m.touchedBy y = m := by rw [Mach.touchedBy, h]

theorem touchedBy_live (h : m.byHandle y.sess = some (k, v)) : m.touchedBy y = touched m k := by rw [Mach.touchedBy, h]

theorem answers_close (h : DataReady (.close d) s) (hs : s.m.startable d 0x16 = some x)
    (hy : s.m.viewByHandle x.handle = some (vk, y)) (hp : y.pitch = s.m.dtorPitch x) (hf : s.m.ticketsFull = false) :
    Answers (.close d) s ((((s.m.touchedBy y).closeView vk (some d)).retire y.base y.pages y.pitch).opDone d stOk 0) := by
  have hp' : ¬ y.pitch ≠ (s.m.touchedBy y).dtorPitch x := by
    rw [Mach.touchedBy]
    split <;> exact not_not_intro hp
  have hf' : ¬ (s.m.touchedBy y).ticketsFull = true := by
    rw [Mach.touchedBy]
    split <;> exact ne_true_of_eq_false hf
  refine answers_data h rfl ?_
  simp only [Mach.opClose, hs, hy]
  exact (if_neg hp').trans (if_neg hf')

/-- Settles O38. -/
theorem versionsArePublished : Obligations.VersionsArePublished := by
  unfold Obligations.VersionsArePublished
  refine ⟨?publish, ?convert, ?drop, ?fork⟩
  case publish => exact fun d k x v s => answers_publish
  case convert =>
    intro handle k d v s h hk hb hst hc hn room
    have ha := answers_publishConvert h hk hb hst hc hn
    refine ⟨fun m l hroom hm => ?_, fun st hroom => ?_⟩
    · rwa [show s.m.convertRoom v = none from hroom, convertEnd_ok hm] at ha
    · rwa [show s.m.convertRoom v = some st from hroom] at ha
  case drop =>
    intro d k x v w s h hr hp hv
    refine ⟨fun hw => answers_sessOp h rfl hr (fun _ => hp) ?_, fun hw => answers_sessOp h rfl hr (fun _ => hp) ?_⟩
    · simp only [hv]
      exact if_pos hw
    · simp only [hv]
      exact if_neg (not_not_intro hw)
  case fork =>
    intro d k k' x v w m s h hr hp hv hret t hok hk hpat hwc hmc hcopy hm
    exact answers_fork h hr hp hv ⟨hret, hok, hk, hpat, hwc, hmc, hcopy⟩ hm

/-- Settles O39. -/
theorem viewsOpenAndClose : Obligations.ViewsOpenAndClose := by
  unfold Obligations.ViewsOpenAndClose
  refine ⟨?openv, ?close⟩
  case openv =>
    intro d k vk x v w s h hr hv hret hviews t p hin htaken hreader hvk hpat filled opened
    exact answers_openv h hr hv ⟨hret, hviews, hin, htaken, hreader, hvk, hpat⟩ rfl
  case close =>
    intro d vk x y s h hs hy hp hf
    have ha := answers_close h hs hy hp hf
    refine ⟨fun hgone => ?_, fun k v hlive => ?_⟩
    · rwa [touchedBy_gone hgone] at ha
    · rwa [touchedBy_live hlive] at ha

end Sys2Proof.Machine
end

section
/-! PROOF. PARK, its manifest, RESUME, REATTACH, and the claims of detached sessions. -/

namespace Sys2Proof.Machine

variable {s : State} {m : Mach} {d k : Nat} {x : Dtor} {v : Session} {l : List Nat}

/-! ## PARK and its manifest (R112, R113, R121, R122) -/

theorem answers_park_parked (h : DataReady (.park d) s) (hr : SessRuns s.m d 0x18 k x v) (hp : v.pitch = s.m.dtorPitch x)
    (hb : v.busy ≠ some d) (hst : v.st = .parked) :
    Answers (.park d) s ((touched s.m k).opDone d stOk (parkResult v.mloc 0 0)) :=
  answers_sessOp h rfl hr (fun _ => hp) ((if_neg hb).trans (if_pos hst))

/-- PARK with the pitch's key and room for the manifest: what is left to do hangs on the lines that the recalls found cached. -/
theorem answers_park_begins {l : List (Nat × Nat × Nat)} {held : Mach} (h : DataReady (.park d) s) (hr : SessRuns s.m d 0x18 k x v)
    (hp : v.pitch = s.m.dtorPitch x) (hb : v.busy ≠ some d) (hst : v.st ≠ .parked) (hkey : s.m.hasKey v.pitch = true)
    (hl : (touched s.m k).manifestSpace v.pitch ((touched s.m k).manifestSize v) = some l)
    (hheld : (((touched s.m k).hold k d).onSession k fun y =>
        { y with st := .parking, pieces := l, mloc := mlocOf l, absent := [], sealAcks := none }).sessRecall v = held)
    (hm : (if held.sessCached v then held else held.startPark k (held.session k)) = m) : Answers (.park d) s m := by
  subst hheld
  have hkey' : ¬ (!(touched s.m k).hasKey v.pitch) = true := by
    rw [show (touched s.m k).hasKey v.pitch = true from hkey]
    exact Bool.false_ne_true
  refine answers_sessOp h rfl hr (fun _ => hp) ((if_neg hb).trans ((if_neg hst).trans ((if_neg hkey').trans ?_)))
  simp only [hl]
  exact hm

/-- What MANIFEST_SEAL does next for PARK `d`: seal, wait for writes, write the manifest, or move what has still to settle. -/
def Mach.sealNext (m : Mach) (k d : Nat) (v : Session) : Mach :=
  match v.sealAcks with
  | some 0 => m.sealPark k d v
  | some _ => m
  | none => if (m.parkSet v).all (m.parkedRef v) then m.writeManifest k d v else m.planPark k v

theorem sealNext_acked (h : v.sealAcks = some 0) : m.sealNext k d v = m.sealPark k d v := by simp only [Mach.sealNext, h]

theorem sealNext_settled (h : v.sealAcks = none) (hall : (m.parkSet v).all (m.parkedRef v) = true) :
    m.sealNext k d v = m.writeManifest k d v := by
  rw [Mach.sealNext, h]
  exact if_pos hall

theorem answers_manifestSeal {handle : Nat} (h : DataReady (.manifestSeal handle) s) (hk : s.m.byHandle handle = some (k, v))
    (hb : v.busy = some d) (hst : v.st = .parking) (hc : s.m.sessCached v = false) :
    Answers (.manifestSeal handle) s (s.m.sealNext k d v) := by
  refine answers_data h rfl ?_
  simp only [hk, hb]
  exact if_neg (by simp [hst, hc])

/-! ## RESUME (R114 to R117) -/

/-- The contents that the SPNs `l` of the working version name, each once. -/
def Mach.workRefs (m : Mach) (v : Session) (l : List Nat) : List CRef :=
  (l.filterMap fun i => match m.spnRef v none i with | .cont c => some c | _ => none).eraseDups

/-- The session with a RESUME in progress. -/
def Mach.resumeHeld (m : Mach) (k d : Nat) (v : Session) : Mach :=
  if v.st = .parked then (m.hold k d).unseal k .resuming else (m.hold k d).onSession k fun y => { y with st := .resuming }

/-- A RESUME of the working version without a copy out goes on with the contents its list names. -/
theorem answers_resume (h : DataReady (.resume d) s) (hr : SessRuns s.m d 0x19 k x v) (hp : v.pitch = s.m.dtorPitch x)
    (hb : v.busy ≠ some d) (hv : x.version = 0) (hver : v.ver 0 = none) (hcopy : x.opf 1 33 33 = 0)
    (hl : (touched s.m k).listIn x v.npages = .spns m l) :
    Answers (.resume d) s
      (((m.resumeHeld k d v).onDtor d fun y => { y with todo := (m.workRefs v l).map fun c => (c, false), outs := [] }).resumeGo d k) := by
  refine answers_sessOp h rfl hr (fun _ => hp) ((if_neg hb).trans ?_)
  simp only [hv, hver, hcopy, hl]
  rfl

/-! ## REATTACH (R123 to R125) -/

/-- The session record that REATTACH `d` takes. -/
def Mach.reattachTaken (m : Mach) (d k : Nat) (x : Dtor) (f : Manifest) : Mach :=
  (m.redraw.begin d).onSession k fun _ =>
    { f.sess with pitch := m.dtorPitch x, gen := (m.session k).gen, wbase := x.pn 2, mbase := x.pn 3, busy := some d, mloc := x.opf 0 20 0 }

/-- REATTACH `x` of the manifest at hand passes its checks (R124), to take session record `k`. -/
structure ReattachOk (m : Mach) (d k : Nat) (x : Dtor) (hdr : BitVec 4096) (body : List Byte) : Prop where
  begins : (m.sess.sess.find? fun y => y.2.st = .reattaching && y.2.busy = some d) = none
  key : m.hasKey (m.dtorPitch x) = true
  manifest : m.manifestBad (m.dtorPitch x) (x.opf 0 20 0) hdr.toNat body = false
  windows : m.windowsBad (m.dtorPitch x) hdr.toNat = false
  ranges : m.rangesOk (m.dtorPitch x) (x.pn 2) (manifestOf hdr.toNat body).npages (x.pn 3) = true
  record : m.freeSess (m.sessHome (m.dtorPitch x) (x.pn 2)) = some k
  room : m.reattachRoom (manifestOf hdr.toNat body) (m.dtorPitch x) (x.pn 2)
    (m.poolPlans (manifestOf hdr.toNat body) (m.dtorPitch x) (x.pn 2) (x.pn 3)) = none

/-- REATTACH past its checks: the record is taken, and the session rebuilt once none of its lines is cached. -/
theorem answers_reattach {hdr : BitVec 4096} {body : List Byte} {taken : Mach} (h : DataReady (.reattach d hdr body) s)
    (hs : s.m.startable d 0x1B = some x) (hok : ReattachOk s.m d k x hdr body)
    (htaken : s.m.reattachTaken d k x (manifestOf hdr.toNat body) = taken)
    (hm : (if taken.sessCached (taken.session k) then taken.sessRecall (taken.session k)
      else taken.rebuild d k (s.m.dtorPitch x) (x.opf 0 20 0) (manifestOf hdr.toNat body)
        (s.m.poolPlans (manifestOf hdr.toNat body) (s.m.dtorPitch x) (x.pn 2) (x.pn 3))) = m) :
    Answers (.reattach d hdr body) s m := by
  subst htaken
  refine answers_data h rfl ?_
  simp only [Mach.opReattach, hs, hok.begins, hok.key, hok.manifest, hok.windows, hok.ranges, hok.record, hok.room, Bool.not_true,
    Bool.false_eq_true, if_false]
  exact hm

/-! ## Waiting operations and claims (R112, R123, R126, R185) -/

theorem answers_sessionOpResume {handle : Nat} (h : DataReady (.sessionOpResume handle) s)
    (hw : s.m.firstWaiter (keyOfHandle handle) = some d) :
    Answers (.sessionOpResume handle) s
      ((s.m.onDtor d fun x => if x.stage = .waiting then { x with stage := .dispatched } else x).sessionOp d) :=
  answers_data h rfl (by simp only [hw])

theorem answers_reattachPeriodEnd {r p t : Nat} (h : DataReady (.reattachPeriodEnd r p) s)
    (ht : tget (s.m.region r).reattach none p = some t) (hlt : t + s.m.reattachHold p < s.m.cycle) (hin : s.m.inReattach r p = true) :
    Answers (.reattachPeriodEnd r p) s ((s.m.onRegion r fun g => { g with reattach := tdel g.reattach p }).onSess fun x =>
      { x with detached := x.detached.filter fun d => !(d.pitch = p && d.region = some r) }) := by
  refine answers_data h rfl ?_
  simp only [ht]
  exact (if_pos hlt).trans (if_pos hin)

/-- Settles O40. REATTACH has the manifest it reads as its operands (log entry 21). -/
theorem sessionsParkAndReturn : Obligations.SessionsParkAndReturn := by
  unfold Obligations.SessionsParkAndReturn
  refine ⟨?park, ?manifest, ?resume, ?reattach, ?waiting, ?hold, ?period⟩
  case park =>
    intro d k x v s h hr hp hb
    refine ⟨answers_park_parked h hr hp hb, ?_⟩
    intro l hst hkey hl held
    exact ⟨fun hc => answers_park_begins h hr hp hb hst hkey hl rfl (if_pos hc),
      fun hc => answers_park_begins h hr hp hb hst hkey hl rfl (if_neg (ne_true_of_eq_false hc))⟩
  case manifest =>
    intro handle k d v s h hk hb hst hc
    have ha := answers_manifestSeal h hk hb hst hc
    exact ⟨fun hacks => by rwa [sealNext_acked hacks] at ha, fun hacks hall => by rwa [sealNext_settled hacks hall] at ha⟩
  case resume =>
    intro d k x v m l s h hr hp hb hv hver hcopy hl refs begun
    exact answers_resume h hr hp hb hv hver hcopy hl
  case reattach =>
    intro d k hdr body x s h hs p f plans mloc hnew hkey hman hwin hok hk hroom taken
    have hpass : ReattachOk s.m d k x hdr body := ⟨hnew, hkey, hman, hwin, hok, hk, hroom⟩
    exact ⟨fun hc => answers_reattach h hs hpass rfl (if_neg (ne_true_of_eq_false hc)),
      fun hc => answers_reattach h hs hpass rfl (if_pos hc)⟩
  case waiting => exact fun handle d s => answers_sessionOpResume
  case hold => exact fun p mloc s h => answers_data h rfl rfl
  case period => exact fun r p t s => answers_reattachPeriodEnd

end Sys2Proof.Machine
end

section
/-! PROOF. A message that the dictionary takes up, and its command objects (R323). -/

namespace Sys2Proof.Machine

variable {c : Instr} {s : State} {m t : Mach} {h : MHdr} {sec block flashOk : Bool} {msg : DMsg} {e : WEntry} {v : OVal}
  {p k r i sub n : Nat}

/-! ## A message that the dictionary takes up (R315 to R320) -/

theorem heard_fam (m : Mach) (h : MHdr) : (heard m h).fam = m.fam := rfl

theorem heard_inst (m : Mach) (h : MHdr) : (heard m h).dict.inst = m.dict.inst := rfl

theorem heard_client_v (m : Mach) (h : MHdr) : ((heard m h).client h.client).v = (m.client h.client).v := by
  simp [heard, Mach.touch]

/-- A message that the dictionary takes up is carried out once its client's timeouts and SEQ are noted. -/
theorem request_served (hs : Serves m h sec msg) (hm : ∀ a b p, msg ≠ .hello a b p) :
    m.request h sec msg flashOk = (heard m h).carryOut h sec msg flashOk := by
  obtain ⟨hpath, hup, hinst, hlive, hsrc, hseq, hanswered, hver, htype, hsecured, hauth⟩ := hs
  have hmine : ¬ (!(m.client h.client).live || decide ((m.client h.client).src ≠ h.src)) = true := by simp [hlive, hsrc]
  have hidle : ¬ ((m.client h.client).lastSeq.isSome && (m.client h.client).reply.isNone) = true := by
    rcases hanswered with hn | hn
    · simp [hn]
    · simp [hn]
  have htypes : ¬ (decide ((m.client h.client).v < (msgType msg).2) || (sec && decide ((m.client h.client).v < 3))) = true := by
    simpa using ⟨htype, hsecured⟩
  refine (if_neg (by simp [hpath])).trans ((if_pos hup).trans ?_)
  split
  · next a b p => exact absurd rfl (hm a b p)
  · simp only [if_neg hmine, if_neg hseq, if_neg hidle, if_neg (not_not_intro hver), if_neg htypes, if_neg (not_not_intro hauth)]
    rw [← heard, Mach.admitMsg, heard_inst, hinst, Option.isSome_none, Bool.false_and, if_neg Bool.false_ne_true]

/-! ## The write of a command object (R323) -/

theorem mayWrite_open (c : Client) (h : authArea (areaOf i) = false) : c.mayWrite i = true := by simp [Client.mayWrite, h]

theorem normVal_of_lt (h : v.n < 256 ^ v.len) : normVal v = v := by rw [normVal, Nat.mod_eq_of_lt h]

theorem normVal_bool (hn : n ≤ 1) : normVal ⟨1, n⟩ = ⟨1, n⟩ := normVal_of_lt (show n < 256 by omega)

/-- A command object, of a type and a length, in an area that any client may write. -/
structure OpenCmd (f : Fam) (i sub ty len : Nat) : Prop where
  found : ∃ d, objAt f i sub = some ⟨ty, .cmd, len, len, d⟩
  single : i ≠ 0x3000 ∧ i ≠ 0x6050
  openArea : authArea (areaOf i) = false

theorem OpenCmd.writeCheck {ty len : Nat} (ho : OpenCmd m.fam i sub ty len) (c : Client) (hv : v.len = len) :
    m.writeCheck c block ⟨i, sub, ty, v⟩ = 0 := by
  obtain ⟨⟨d, hd⟩, ⟨-, hi⟩, ha⟩ := ho
  simp [Mach.writeCheck, hd, hi, hv, mayWrite_open c ha]

/-- A WRITE of one command object that passes its checks runs the command. -/
theorem writeAll_cmd {ty : Nat} (hcmd : m.accOf e = some .cmd) (hi : e.index ≠ 0x3000)
    (hc : m.writeCheck (m.client h.client) block e = 0)
    (hrun : m.runCmd e.index e.sub (normVal e.val) block flashOk = (t, 0)) :
    m.writeAll h sec ty block flashOk [e] = t.orderAnswer h sec (m.client h.client).v (wReply ty block 0 [entryReply e 0]) := by
  simp [Mach.writeAll, hcmd, hi, hc, hrun]

/-- The write of a command object by a client whose message the dictionary takes up: the command runs and is answered OK. -/
theorem put_cmd {ty : Nat} (hs : Serves m h (m.client h.client).auth (.write [])) (ho : OpenCmd m.fam i sub ty v.len)
    (hrun : (heard m h).runCmd i sub (normVal v) false flashOk = (t, 0)) :
    m.put h i sub v flashOk = t.orderAnswer h (m.client h.client).auth (m.client h.client).v (wroteOne i sub) := by
  obtain ⟨d, hd⟩ := ho.found
  have hty : (objAt m.fam i sub).elim 0 (·.ty) = ty := by rw [hd, Option.elim_some]
  have hw : m.put h i sub v flashOk =
      (heard m h).writeAll h (m.client h.client).auth 0x03 false flashOk [⟨i, sub, ty, v⟩] := by
    rw [Mach.put, Mach.requestAs, hty]
    exact request_served (msg := .write _) hs nofun
  have hcmd : (heard m h).accOf ⟨i, sub, ty, v⟩ = some .cmd := by rw [Mach.accOf, heard_fam, hd, Option.map_some]
  rw [hw, writeAll_cmd hcmd ho.single.1 (OpenCmd.writeCheck (m := heard m h) ho _ rfl) hrun, heard_client_v]
  rfl

/-! ## The command objects of pitches, ports and regions (Tables 15.4, 15.5, 15.7) -/

theorem areaOf_pitch (hp : p ≤ 63) : areaOf (0x3000 + p) = 5 := by simp (disch := omega) only [areaOf, if_neg, if_pos]

theorem areaOf_port (hk : k < 0x100) : areaOf (0x5000 + k) = 8 := by simp (disch := omega) only [areaOf, if_neg, if_pos]

theorem areaOf_region (hr : r < 0x100) : areaOf (0x2200 + r) = 4 := by simp (disch := omega) only [areaOf, if_neg, if_pos]

theorem hubs_le (f : Fam) : hubs f ≤ 8 := by cases f <;> decide

theorem regions_le (f : Fam) : regions f ≤ 16 := by cases f <;> decide

theorem objAt_pitch (f : Fam) (hp1 : 1 ≤ p) (hp : p ≤ 63) : objAt f (0x3000 + p) sub = objPitch sub := by
  have := regions_le f
  simp (disch := omega) only [objAt, if_neg, if_pos]

theorem objAt_port {f : Fam} (hk : k < hubs f) : objAt f (0x5000 + k) sub = objPort sub := by
  have := regions_le f
  have := hubs_le f
  simp (disch := omega) only [objAt, if_neg, if_pos]

theorem objAt_region {f : Fam} (hr : r < regions f) : objAt f (0x2200 + r) sub = objRegion sub := by
  have := regions_le f
  simp (disch := omega) only [objAt, if_neg, if_pos]

theorem openCmd_pitch (f : Fam) {ty len : Nat} {d : OVal} (hp1 : 1 ≤ p) (hp : p ≤ 63)
    (ho : objPitch sub = some ⟨ty, .cmd, len, len, d⟩) : OpenCmd f (0x3000 + p) sub ty len where
  found := ⟨d, (objAt_pitch f hp1 hp).trans ho⟩
  single := by omega
  openArea := by rw [areaOf_pitch hp]; rfl

theorem openCmd_port {f : Fam} {ty len : Nat} {d : OVal} (hk : k < hubs f) (ho : objPort sub = some ⟨ty, .cmd, len, len, d⟩) :
    OpenCmd f (0x5000 + k) sub ty len where
  found := ⟨d, (objAt_port hk).trans ho⟩
  single := by have := hubs_le f; omega
  openArea := by rw [areaOf_port (by have := hubs_le f; omega)]; rfl

theorem openCmd_region {f : Fam} {ty len : Nat} {d : OVal} (hr : r < regions f)
    (ho : objRegion sub = some ⟨ty, .cmd, len, len, d⟩) : OpenCmd f (0x2200 + r) sub ty len where
  found := ⟨d, (objAt_region hr).trans ho⟩
  single := by have := regions_le f; omega
  openArea := by rw [areaOf_region (by have := regions_le f; omega)]; rfl

/-- Out of FENCE a command object runs by its area, a BOOL one with a value that BOOL has. -/
theorem OpenCmd.runCmd {ty len : Nat} (ho : OpenCmd m.fam i sub ty len) (hf : m.sec.fenced = false) (hbool : ty = 1 → v.n ≤ 1) :
    (areaOf i = 4 → m.runCmd i sub v block flashOk = if v.n = 0 then (m, 0) else m.restart (i - 0x2200)) ∧
    (areaOf i = 5 → m.runCmd i sub v block flashOk = m.runPitch (i - 0x3000) sub v.n) ∧
    (areaOf i = 8 → m.runCmd i sub v block flashOk = m.runPort (i - 0x5000) sub v.n) := by
  obtain ⟨d, hd⟩ := ho.found
  have hv : ¬ (decide (ty = 1) && decide (1 < v.n)) = true := by simpa using hbool
  refine ⟨fun ha => ?_, fun ha => ?_, fun ha => ?_⟩
  all_goals simp only [Mach.runCmd, hf, hd, ha, if_neg hv, Bool.false_and, Bool.false_eq_true, if_false]

/-! ## Each of them, written by a client that the dictionary serves -/

section
variable (hs : Serves s.m h (s.m.client h.client).auth (.write [])) (hf : s.m.sec.fenced = false)
include hs hf

/-- A pitch's command object. -/
theorem answers_pitchCmd {ty len : Nat} {d : OVal} (hp1 : 1 ≤ p) (hp : p ≤ 63) (hu : UnitReady c s)
    (he : exec c s = s.app (c.wf s.m.fam) (Mach.aliveRun fun m => m.put h (0x3000 + p) sub ⟨len, n⟩ flashOk))
    (ho : objPitch sub = some ⟨ty, .cmd, len, len, d⟩) (hbool : ty = 1 → n ≤ 1) (hn : n < 256 ^ len)
    (hrun : (heard s.m h).runPitch p sub n = (t, 0)) :
    Answers c s (t.orderAnswer h (s.m.client h.client).auth (s.m.client h.client).v (wroteOne (0x3000 + p) sub)) := by
  have hc : OpenCmd s.m.fam (0x3000 + p) sub ty len := openCmd_pitch _ hp1 hp ho
  refine answers_unit hu he (put_cmd hs hc ?_)
  obtain ⟨-, hpitch, -⟩ := OpenCmd.runCmd (m := heard s.m h) (v := ⟨len, n⟩) hc hf hbool
  rw [normVal_of_lt hn, hpitch (areaOf_pitch hp), Nat.add_sub_cancel_left, hrun]

/-- A port's command object. -/
theorem answers_portCmd {d : OVal} (hk : k < hubs s.m.fam) (hu : UnitReady c s)
    (he : exec c s = s.app (c.wf s.m.fam) (Mach.aliveRun fun m => m.put h (0x5000 + k) sub ⟨1, n⟩ flashOk))
    (ho : objPort sub = some ⟨1, .cmd, 1, 1, d⟩) (hn : n ≤ 1) (hrun : (heard s.m h).runPort k sub n = (t, 0)) :
    Answers c s (t.orderAnswer h (s.m.client h.client).auth (s.m.client h.client).v (wroteOne (0x5000 + k) sub)) := by
  have hc : OpenCmd s.m.fam (0x5000 + k) sub 1 1 := openCmd_port hk ho
  have := hubs_le s.m.fam
  obtain ⟨-, -, hport⟩ := OpenCmd.runCmd (m := heard s.m h) (v := ⟨1, n⟩) hc hf fun _ => hn
  refine answers_unit hu he (put_cmd hs hc ?_)
  rw [normVal_bool hn, hport (areaOf_port (by omega)), Nat.add_sub_cancel_left, hrun]

/-- RESTART, the command object of a region. -/
theorem answers_restart (hr : r < regions s.m.fam) (hu : UnitReady (.restart h r ⟨1, n⟩) s) (hn : n ≤ 1)
    (hrun : (if n = 0 then (heard s.m h, 0) else (heard s.m h).restart r) = (t, 0)) :
    Answers (.restart h r ⟨1, n⟩) s
      (t.orderAnswer h (s.m.client h.client).auth (s.m.client h.client).v (wroteOne (0x2200 + r) 0x03)) := by
  have hc : OpenCmd s.m.fam (0x2200 + r) 0x03 1 1 := openCmd_region hr rfl
  have := regions_le s.m.fam
  obtain ⟨hregion, -, -⟩ := OpenCmd.runCmd (m := heard s.m h) (v := ⟨1, n⟩) hc hf fun _ => hn
  refine answers_unit hu rfl (put_cmd hs hc ?_)
  rw [normVal_bool hn, hregion (areaOf_region (by omega)), Nat.add_sub_cancel_left, hrun]

end

/-! ## What the commands do (R161, R180, R182, R187, R259, R261, R383) -/

theorem clearPitch_drained {freed : Mach} (hq : ∀ x ∈ m.queuesOf p, (m.queue x.1 x.2).st = .drained)
    (hfreed : ((m.each ((m.extentsOf p).map (·.1)) fun m e => m.releaseExtent e 4 none).each (m.queuesOf p) fun m x =>
      m.loseQueue x.1 x.2) = freed) :
    m.clearPitch p =
      ((freed.each (freed.boundFns p) fun m f => m.clearFn f).onSvc fun v => { v with drained := v.drained.filter (· ≠ p) }, 0) := by
  subst hfreed
  refine if_neg ?_
  simpa using hq

/-- The machine with the extent that EXTADD of pitch `p` with operand `n` makes (Table 07.1). -/
def Mach.extAdded (m : Mach) (p n : Nat) : Mach :=
  m.onExtent (bits n 31 0) fun _ =>
    { st := .adding, coh := cohOf (bits n 191 184), attr := ⟨bits n 167 160, bits n 175 168, bits n 183 176⟩
      confined := decide (m.cfgN (0x3000 + p) 2 = 1), run := m.runPlace p, home := bits n 199 192, pitch := p
      cause := (m.extent (bits n 31 0)).cause, report := true }

/-- The attributes of operand `n` are defined, and lossy ones allowed to pitch `p` (check 3 of Table 07.2). -/
structure ExtAttrsOk (m : Mach) (p n : Nat) : Prop where
  codec : bits n 167 160 ≤ 4
  efmt : bits n 175 168 ≤ 3
  vel : bits n 183 176 ≤ 1
  coh : bits n 191 184 ≤ 2
  reserved : bits n 223 200 = 0
  velLossy : bits n 183 176 ≠ 0 → bits n 167 160 = 3
  lossy : (bits n 167 160 = 3 || bits n 167 160 = 4) = true → m.lossyOk p = true ∧ (bits n 175 168 = 1 ∨ bits n 175 168 = 2)

/-- EXTADD of pitch `p` with operand `n` passes every check of Table 07.2 and R210. -/
structure ExtAddOk (m : Mach) (p n : Nat) : Prop where
  limit : bits n 31 0 < extentLimit m.fam
  free : (m.extent (bits n 31 0)).st = .free
  grant : m.grantsOk p (bits n 159 32) = true
  attrs : ExtAttrsOk m p n
  confined : decide (m.cfgN (0x3000 + p) 2 = 1) = true →
    regionOk m.fam (bits n 199 192) = true ∧ (m.region (bits n 199 192)).st ≠ .fenced
  shared : decide (m.cfgN (0x3000 + p) 2 = 1) = false → bits n 199 192 = 0
  floor : (List.range (regions m.fam)).all ((m.extAdded p n).floorOk p) = true
  runs : (m.extAdded p n).runsOk p = true
  booked : (m.extAdded p n).overbooked = none

theorem ExtAttrsOk.lossy_refused_false (h : ExtAttrsOk m p n) :
    ((bits n 167 160 = 3 || bits n 167 160 = 4) && (!m.lossyOk p || (bits n 175 168 ≠ 1 && bits n 175 168 ≠ 2))) = false := by
  cases hl : (bits n 167 160 = 3 || bits n 167 160 = 4 : Bool) with
  | false => rfl
  | true =>
    obtain ⟨hok, hfmt⟩ := h.lossy hl
    rcases hfmt with hfmt | hfmt
    · simp [hok, hfmt]
    · simp [hok, hfmt]

theorem extAdd_offers (h : ExtAddOk m p n) :
    m.extAdd p n = ((m.extAdded p n).offerTo (bits n 31 0) p (maskFns (bits n 159 32)), 0) := by
  refine (if_neg ?extent).trans ((if_neg ?grant).trans ((if_neg ?attr).trans ((if_neg ?home).trans
    ((if_neg (ne_true_of_eq_false ?floor)).trans (if_neg (ne_true_of_eq_false ?book))))))
  case extent => simpa [h.free] using h.limit
  case grant => simpa using h.grant
  case attr =>
    rw [h.attrs.lossy_refused_false]
    simpa [h.attrs.codec, h.attrs.efmt, h.attrs.vel, h.attrs.coh, h.attrs.reserved] using h.attrs.velLossy
  case home =>
    cases hc : decide (m.cfgN (0x3000 + p) 2 = 1) with
    | true => simpa using h.confined hc
    | false => simpa using h.shared hc
  case floor =>
    have hroom : ((List.range (regions m.fam)).all ((m.extAdded p n).floorOk p) && (m.extAdded p n).runsOk p) = true := by
      rw [h.floor, h.runs, Bool.and_self]
    exact congrArg not hroom
  case book => exact congrArg Option.isSome h.booked

theorem extRel_begun {e : Nat} (hst : (m.extent e).st = .active ∨ (m.extent e).st = .releasing) (hp : (m.extent e).pitch = p) :
    m.extRel p e = (m.releaseExtent e 1 none, 0) := by
  rcases hst with hst | hst
  · simp [Mach.extRel, hst, hp]
  · simp [Mach.extRel, hst, hp]

theorem extGrant_offers {e : Nat} (he : bits n 31 0 = e) (hst : (m.extent e).st = .active) (hp : (m.extent e).pitch = p)
    (hgrant : m.grantsOk p (bits n 159 32) = true) :
    m.extGrant p n = (m.offerTo e p ((maskFns (bits n 159 32)).filter fun f => !m.granted f e), 0) := by
  subst he
  simp [Mach.extGrant, hst, hp, hgrant]

theorem releasePort_accepted (hf : (m.hub k).failed = false) (hc : m.canRelease k = true) : m.releasePort k = (m.uncontain k, 0) := by
  simp [Mach.releasePort, hf, hc]

theorem runPort_leaseRenew {ld : Nat} (hld : ld < 16) (hl : m.leaseLive (16 * k + ld) = true) :
    m.runPort k (0x50 + ld) 1 =
      (m.onFn (16 * k + ld) fun x =>
        { x with leaseAt := m.cycle + m.leaseTerm (m.pitchOf (16 * k + ld)), leaseDefer := none, leaseWasLow := false }, 0) := by
  rw [Mach.runPort, if_neg Nat.one_ne_zero, if_neg (by omega), Nat.add_sub_cancel_left, Mach.renewLease, if_pos hl]

theorem objPort_leaseRenew : ∀ ld < 16, objPort (0x50 + ld) = oNum 1 .cmd 0 := by decide

theorem restart_fenced (hr : m.canRestart r = true) :
    m.restart r =
      (((m.onRegion r fun g => { g with st := .restarting, fencedAt := m.cycle, fenceTicket := none }).flushRegion r).each (List.range 8)
        fun m c => m.onChan r c fun x => if x.st = .failed then x else { st := .training, since := m.cycle }, 0) :=
  if_neg (by simp [hr])

/-- Settles O52. That a BOOL command object written 0 does nothing, and that CLEAR takes all its steps at once, is log entry 46. -/
theorem commandObjectsAct : Obligations.CommandObjectsAct := by
  unfold Obligations.CommandObjectsAct
  intro h s hs hf m ok
  refine ⟨fun p hp1 hp => ?pitch, fun k hk => ?port, fun r hr => ?region⟩
  case region =>
    exact ⟨fun hu hc => answers_restart hs hf hr hu (Nat.le_refl 1) (restart_fenced hc),
      fun hu => answers_restart hs hf hr hu (Nat.zero_le 1) rfl⟩
  case port =>
    refine ⟨fun hu hlive hc => ?_, fun hu => answers_portCmd hs hf hk hu rfl rfl (Nat.zero_le 1) rfl, fun ld hld =>
      ⟨fun hu hl => ?_, fun hu => ?_⟩⟩
    · exact answers_portCmd hs hf hk hu rfl rfl (Nat.le_refl 1) (releasePort_accepted hlive hc)
    · exact answers_portCmd hs hf hk hu rfl (objPort_leaseRenew ld hld) (Nat.le_refl 1) (runPort_leaseRenew hld hl)
    · exact answers_portCmd hs hf hk hu rfl (objPort_leaseRenew ld hld) (Nat.zero_le 1) rfl
  case pitch =>
    refine ⟨?reattachend, ?reattachend0, ?drain, ?undrain, ?clear, ?clear0, ?extadd, ?extrel, ?extgrant⟩
    case reattachend => exact fun hu => answers_pitchCmd hs hf hp1 hp hu rfl rfl (fun _ => Nat.le_refl 1) (by decide) rfl
    case reattachend0 => exact fun hu => answers_pitchCmd hs hf hp1 hp hu rfl rfl (fun _ => Nat.zero_le 1) (by decide) rfl
    case drain => exact fun hu => answers_pitchCmd hs hf hp1 hp hu rfl rfl nofun (by decide) rfl
    case undrain => exact fun hu => answers_pitchCmd hs hf hp1 hp hu rfl rfl nofun (by decide) rfl
    case clear =>
      intro hu hq freed
      exact answers_pitchCmd hs hf hp1 hp hu rfl rfl (fun _ => Nat.le_refl 1) (by decide) (clearPitch_drained hq rfl)
    case clear0 => exact fun hu => answers_pitchCmd hs hf hp1 hp hu rfl rfl (fun _ => Nat.zero_le 1) (by decide) rfl
    case extadd =>
      intro n hu hn e codec efmt vel coh home lossy confined hlimit hfree hgrant hcodec hefmt hvel hcoh hrsvd hvelvet hlossy hconf
        hshared added hfloor hruns hbook
      exact answers_pitchCmd hs hf hp1 hp hu rfl rfl nofun hn (extAdd_offers
        ⟨hlimit, hfree, hgrant, ⟨hcodec, hefmt, hvel, hcoh, hrsvd, hvelvet, hlossy⟩, hconf, hshared, hfloor, hruns, hbook⟩)
    case extrel =>
      intro e hu hn hst hpitch
      exact answers_pitchCmd hs hf hp1 hp hu rfl rfl nofun hn (extRel_begun hst hpitch)
    case extgrant =>
      intro n hu hn hst hpitch hgrant
      exact answers_pitchCmd hs hf hp1 hp hu rfl rfl nofun hn (extGrant_offers rfl hst hpitch hgrant)

end Sys2Proof.Machine
end

section
/-! PROOF. Tally descriptors: how one is taken up, how it asks for its inputs, and where its work is sent. -/

namespace Sys2Proof.Machine

variable {c : Instr} {s : State} {m : Mach} {d k op n len : Nat} {x y : Dtor} {v : Session} {w : Word} {bs : List (Bool × Nat × Nat)}
  {rs es as : List Nat} {go : Mach → Dtor → Mach} {start : Mach → Dtor → Mach}

/-! ## Taking up a descriptor, and its inputs (R129, R171, R172) -/

/-- A descriptor whose work has not been sent is started. -/
theorem tallyOp_starts (hs : m.startable d op = some x) (hx : x.stage ≠ .running) : m.tallyOp d op start = start m x := by
  simp only [Mach.tallyOp, hs, if_neg hx]

theorem answers_tallyOp (h : DataReady c s) (he : exec c s = s.app (c.wf s.m.fam) (Mach.dataRun fun m => m.tallyOp d op start))
    (hs : s.m.startable d op = some x) (hx : x.stage ≠ .running) (hm : start s.m x = m) : Answers c s m :=
  answers_data h he ((tallyOp_starts hs hx).trans hm)

theorem withInputs_waits (h : (m.askInputs d bs).inputsReady d bs = false) : m.withInputs d bs go = (m.askInputs d bs).reading d :=
  if_pos (by rw [h, Bool.not_false])

theorem withInputs_goes (h : (m.askInputs d bs).inputsReady d bs = true) (hy : (m.askInputs d bs).dtorAt d = some y) :
    m.withInputs d bs go = go (m.askInputs d bs) y := by
  simp only [Mach.withInputs, h, hy, Bool.not_true, Bool.false_eq_true, if_false]

/-! ## ATTEND and SIFT (R134 to R140, R142 to R144) -/

/-- The inputs of ATTEND or SIFT `x` under layout `l`: its bitmap, where it has one, and its queries. -/
def Dtor.attendInputs (x : Dtor) (l : Layout) : List (Bool × Nat × Nat) :=
  (if x.maskKind = 3 then [(true, x.op 2, x.bitmapLen l)] else []) ++ [(false, x.op 0, 2 * l.d * x.nq)]

/-- The regions that hold the tokens of ATTEND or SIFT `x` of session `k`; the session's home where no page holds any. -/
def Mach.attendHomes (m : Mach) (x : Dtor) (l : Layout) (k : Nat) : List Nat :=
  let rs := ((x.tokenSpns l x.tokens).filterMap fun i => m.refRegion (m.tallyRef x i)).eraseDups
  if rs.isEmpty then [k / 16384] else rs

/-- ATTEND or SIFT `x` of session `k`, which holds `v`, passes its checks under layout record `w`, and blocks `es` can do its work. -/
structure AttendOk (m : Mach) (k : Nat) (x : Dtor) (v : Session) (w : Word) (es : List Nat) : Prop where
  reader : v.pitch = m.dtorPitch x ∨ v.readers.getLsbD (m.dtorPitch x) = true
  version : (if x.version = 0 then some v.layout else (v.ver x.version).map (·.layout)) = some w
  layout : w ≠ 0
  operands : (touched m k).attendCheck x (layoutOf w) = none
  engines : (touched m k).engines ((touched m k).attendHomes x (layoutOf w) k) = some es

/-- What ATTEND or SIFT does once its inputs have come: a bitmap has to be free of poison. -/
def Mach.attendGo (d : Nat) (w : Word) (bs : List (Bool × Nat × Nat)) (rs es : List Nat) (m : Mach) (y : Dtor) : Mach :=
  if y.maskKind = 3 && (m.bufClean y (y.op 2) (y.bitmapLen (layoutOf w))).isNone then m.opDone d stInputPoison 0
  else ((m.footInputs y bs).onDtor d fun z => { z with lay := w }).startWork d rs es

theorem attendGo_clean (h : y.maskKind = 3 → (m.bufClean y (y.op 2) (y.bitmapLen (layoutOf w))).isSome = true) :
    m.attendGo d w bs rs es y = ((m.footInputs y bs).onDtor d fun z => { z with lay := w }).startWork d rs es := by
  refine if_neg ?_
  rw [Bool.and_eq_true, decide_eq_true_eq, Option.isNone_iff_eq_none]
  rintro ⟨hmask, hnone⟩
  simpa [hnone] using h hmask

theorem opAttend_asks (hr : SessRuns m d op k x v) (hx : x.stage ≠ .running) (hok : AttendOk m k x v w es) :
    m.opAttend d op = (touched m k).withInputs d (x.attendInputs (layoutOf w))
      (Mach.attendGo d w (x.attendInputs (layoutOf w)) ((touched m k).attendHomes x (layoutOf w) k) es) := by
  have ⟨hs, hb, _, _⟩ := hr
  have hmay : ¬ (decide (v.pitch ≠ m.dtorPitch x) && !v.readers.getLsbD (m.dtorPitch x)) = true := by
    rcases hok.reader with howner | hreader
    · simp [howner]
    · simp [hreader]
  have heng := hok.engines
  rw [Mach.attendHomes] at heng
  refine (tallyOp_starts hs hx).trans ?_
  simp only [hb, if_neg hmay]
  refine (sessOp_runs (own := false) hr nofun).trans ?_
  simp only [hok.version, if_neg hok.layout, hok.operands, heng]
  rfl

theorem answers_attend (h : DataReady c s) (he : exec c s = s.app (c.wf s.m.fam) (Mach.dataRun fun m => m.opAttend d op))
    (hr : SessRuns s.m d op k x v) (hx : x.stage ≠ .running) (hok : AttendOk s.m k x v w es)
    (hm : (touched s.m k).withInputs d (x.attendInputs (layoutOf w))
      (Mach.attendGo d w (x.attendInputs (layoutOf w)) ((touched s.m k).attendHomes x (layoutOf w) k) es) = m) : Answers c s m :=
  answers_data h he ((opAttend_asks hr hx hok).trans hm)

/-- Settles O41. -/
theorem attendAndSiftStart : Obligations.AttendAndSiftStart := by
  unfold Obligations.AttendAndSiftStart
  intro d k op x v w es s c hop h hr hx hread hw hw0 t l hc rs homes he bs asked
  have hok : AttendOk s.m k x v w es := ⟨hread, hw, hw0, hc, he⟩
  have hexec : exec c s = s.app (c.wf s.m.fam) (Mach.dataRun fun m => m.opAttend d op) := by
    rcases hop with rfl | rfl <;> rfl
  exact ⟨fun hwait => answers_attend h hexec hr hx hok (withInputs_waits hwait),
    fun y hcome hy hclean => answers_attend h hexec hr hx hok ((withInputs_goes hcome hy).trans (attendGo_clean hclean))⟩

/-! ## MERGE and REDUCE over their lists of sources (R141, R145) -/

/-- MERGE `x` passes its checks (R141, R150). -/
structure MergeOk (m : Mach) (x : Dtor) : Prop where
  headDim : x.opf 2 34 32 ≤ 4
  sources : 2 ≤ x.mergeSrc ∧ x.mergeSrc ≤ 256
  queries : 1 ≤ x.mergeNq ∧ x.mergeNq ≤ 1024
  listFits : m.bufFits x 8 (x.op 0) (8 * x.mergeSrc) = true
  outFits : m.bufFits x 64 (x.op 1) (x.mergeNq * recBytes x.mergeFinal x.mergeD) = true
  listResolves : m.bufResolve x (x.op 0) (8 * x.mergeSrc) = none
  outResolves : m.bufResolve x (x.op 1) (x.mergeNq * recBytes x.mergeFinal x.mergeD) = none

theorem answers_merge (h : DataReady (.merge d) s) (hs : s.m.startable d 0x21 = some x) (hx : x.stage ≠ .running) (hok : MergeOk s.m x) :
    Answers (.merge d) s
      (s.m.overSources x x.mergeSrc (x.mergeNq * recBytes false x.mergeD) (fun _ => false) s.m.hubPick) := by
  obtain ⟨hd, ⟨hn2, hn⟩, ⟨hq1, hq⟩, hlf, hof, hlr, hor⟩ := hok
  refine answers_tallyOp h rfl hs hx ((if_neg ?operand).trans ((if_neg ?size).trans ((if_neg ?range).trans ?_)))
  case operand => simp only [Bool.or_eq_true, decide_eq_true_eq]; omega
  case size => simp only [Bool.or_eq_true, decide_eq_true_eq]; omega
  case range => simp [hlf, hof]
  simp only [hlr, hor, Option.or_none]

/-- REDUCE `x` passes its checks (R145, R149, R150). -/
structure ReduceOk (m : Mach) (x : Dtor) : Prop where
  operation : x.redOp ≠ 3
  sources : 2 ≤ x.redSrc ∧ x.redSrc ≤ 16
  length : 1 ≤ x.redLen ∧ x.redLen ≤ 2 ^ 28
  lines : x.redLen % 64 = 0
  listFits : m.bufFits x 8 (x.op 0) (8 * x.redSrc) = true
  outFits : m.bufFits x 64 (x.op 1) x.redLen = true
  outAllowed : m.bufBarred x (x.op 1) x.redLen = false
  listResolves : m.bufResolve x (x.op 0) (8 * x.redSrc) = none
  outResolves : m.bufResolve x (x.op 1) x.redLen = none

theorem answers_reduce (h : DataReady (.reduce d) s) (hs : s.m.startable d 0x23 = some x) (hx : x.stage ≠ .running) (hok : ReduceOk s.m x) :
    Answers (.reduce d) s
      (s.m.overSources x x.redSrc x.redLen (fun as => as.any fun a => a ≠ x.op 1 && overlap a x.redLen (x.op 1) x.redLen)
        (s.m.bufRegions x (x.op 1) x.redLen)) := by
  obtain ⟨hop, ⟨hn2, hn⟩, ⟨hl1, hl⟩, h64, hlf, hof, hbar, hlr, hor⟩ := hok
  refine answers_tallyOp h rfl hs hx ((if_neg ?operand).trans ((if_neg ?size).trans ((if_neg ?range).trans ?_)))
  case operand => simp only [Bool.or_eq_true, decide_eq_true_eq]; omega
  case size => simp only [Bool.or_eq_true, decide_eq_true_eq]; omega
  case range => simp [h64, hlf, hof, hbar]
  simp only [hlr, hor, Option.or_none]

/-- Sources `as` of `len` bytes each may be read: their addresses are not refused, and each lies where the descriptor may read. -/
structure SourcesOk (m : Mach) (x : Dtor) (len : Nat) (bad : List Nat → Bool) (as : List Nat) : Prop where
  allowed : bad as = false
  fits : ∀ a ∈ as, m.bufFits x 64 a len = true
  resolve : ∀ a ∈ as, m.bufResolve x a len = none

/-- The operation over a source list that has come whole asks for the sources, and sends its work once they have come. -/
theorem overSources_asks {bad : List Nat → Bool} (he : m.engines rs = some es) (hrs : rs ≠ [] ∨ m.serving ≠ [])
    (hr : (m.askInputs x.id [(true, x.op 0, 8 * n)]).inputsReady x.id [(true, x.op 0, 8 * n)] = true)
    (hy : (m.askInputs x.id [(true, x.op 0, 8 * n)]).dtorAt x.id = some y)
    (has : (m.askInputs x.id [(true, x.op 0, 8 * n)]).sources y n = some as)
    (hok : SourcesOk (m.askInputs x.id [(true, x.op 0, 8 * n)]) y len bad as) :
    m.overSources x n len bad rs = (m.askInputs x.id [(true, x.op 0, 8 * n)]).withInputs x.id (as.eraseDups.map fun a => (false, a, len))
      fun m z => (m.footInputs z ((true, x.op 0, 8 * n) :: as.eraseDups.map fun a => (false, a, len))).startWork x.id rs es := by
  have hplace : ¬ (rs.isEmpty && m.serving.isEmpty) = true := by
    rw [Bool.and_eq_true, List.isEmpty_iff, List.isEmpty_iff]
    exact fun ⟨h1, h2⟩ => hrs.elim (· h1) (· h2)
  have hrange : ¬ (bad as || as.any fun a => !(m.askInputs x.id [(true, x.op 0, 8 * n)]).bufFits y 64 a len) = true := by
    simpa [hok.allowed] using hok.fits
  have hresolve : (as.findSome? fun a => (m.askInputs x.id [(true, x.op 0, 8 * n)]).bufResolve y a len) = none :=
    List.findSome?_eq_none_iff.mpr hok.resolve
  simp only [Mach.overSources, he, if_neg hplace, withInputs_goes hr hy, has, if_neg hrange, hresolve]
  rfl

/-! ## COMPARE, FILL and COPY (R146 to R148) -/

/-- COMPARE `x` passes its checks, and blocks `es` can do its work (R146, R150). -/
structure CompareOk (m : Mach) (x : Dtor) (es : List Nat) : Prop where
  length : 1 ≤ x.cmpLen
  fits0 : m.bufFits x 1 (x.op 0) x.cmpLen = true
  fits1 : m.bufFits x 1 (x.op 1) x.cmpLen = true
  resolves0 : m.bufResolve x (x.op 0) x.cmpLen = none
  resolves1 : m.bufResolve x (x.op 1) x.cmpLen = none
  engines : m.engines (m.bufRegions x (x.op 0) x.cmpLen) = some es

theorem answers_compare (h : DataReady (.compare d) s) (hs : s.m.startable d 0x24 = some x) (hx : x.stage ≠ .running)
    (hok : CompareOk s.m x es) (hbs : [(false, x.op 0, x.cmpLen), (false, x.op 1, x.cmpLen)].eraseDups = bs)
    (hr : (s.m.askInputs d bs).inputsReady d bs = true) (hy : (s.m.askInputs d bs).dtorAt d = some y) :
    Answers (.compare d) s (((s.m.askInputs d bs).footInputs y bs).startWork d (s.m.bufRegions x (x.op 0) x.cmpLen) es) := by
  subst hbs
  refine answers_tallyOp h rfl hs hx ((if_neg (Nat.one_le_iff_ne_zero.mp hok.length)).trans ((if_neg ?range).trans ?_))
  case range => simp [hok.fits0, hok.fits1]
  simp only [hok.resolves0, hok.resolves1, Option.or_none, hok.engines, withInputs_goes hr hy]

/-- FILL `x` passes its checks, and blocks `es` can do its work (R147, R149, R150). -/
structure FillOk (m : Mach) (x : Dtor) (es : List Nat) : Prop where
  pages : 1 ≤ x.opf 4 24 0 ∧ x.opf 4 24 0 ≤ 2 ^ 24
  held : ∀ pn ∈ pageRange (x.pn 4) (x.opf 4 24 0), (m.extent (extOf pn)).st ≠ .free
  owned : ∀ pn ∈ pageRange (x.pn 4) (x.opf 4 24 0), (m.extent (extOf pn)).pitch = m.dtorPitch x
  allowed : m.barred (x.pn 4) (x.opf 4 24 0) = false
  engines : m.engines ((((pageRange (x.pn 4) (x.opf 4 24 0)).map m.homeOf).eraseDups).filter fun r => (m.region r).st = .serving) = some es

theorem answers_fill (h : DataReady (.fill d) s) (hs : s.m.startable d 0x25 = some x) (hx : x.stage ≠ .running) (hok : FillOk s.m x es) :
    Answers (.fill d) s (s.m.startPages d (pageRange (x.pn 4) (x.opf 4 24 0))
      ((((pageRange (x.pn 4) (x.opf 4 24 0)).map s.m.homeOf).eraseDups).filter fun r => (s.m.region r).st = .serving) es) := by
  obtain ⟨hn1, hn⟩ := hok.pages
  refine answers_tallyOp h rfl hs hx ((if_neg (Nat.one_le_iff_ne_zero.mp hn1)).trans ((if_neg (Nat.not_lt.mpr hn)).trans
    ((if_neg ?range).trans ((if_neg ?owner).trans ?_))))
  case range => simpa [hok.allowed] using hok.held
  case owner => simpa using hok.owned
  simp only [hok.engines]

/-- COPY `x` passes its checks, and blocks `es` can do its work (R148 to R150). -/
structure CopyOk (m : Mach) (x : Dtor) (es : List Nat) : Prop where
  pages : 1 ≤ x.opf 2 24 0 ∧ x.opf 2 24 0 ≤ 2 ^ 24
  srcFits : m.bufFits x 4096 (x.op 0) (4096 * x.opf 2 24 0) = true
  dstFits : m.bufFits x 4096 (x.op 1) (4096 * x.opf 2 24 0) = true
  dstAllowed : m.bufBarred x (x.op 1) (4096 * x.opf 2 24 0) = false
  srcResolves : m.bufResolve x (x.op 0) (4096 * x.opf 2 24 0) = none
  dstResolves : m.bufResolve x (x.op 1) (4096 * x.opf 2 24 0) = none
  engines : m.engines (m.bufRegions x (x.op 1) (4096 * x.opf 2 24 0)) = some es

/-- COPY of pages of the part starts on their forms and words as read. -/
theorem answers_copy (h : DataReady (.copy d) s) (hs : s.m.startable d 0x26 = some x) (hx : x.stage ≠ .running) (hok : CopyOk s.m x es)
    (hbs : [(false, x.op 0, 4096 * x.opf 2 24 0)] = bs) (hr : (s.m.askInputs d bs).inputsReady d bs = true)
    (hy : (s.m.askInputs d bs).dtorAt d = some y) (hin : (s.m.askInputs d bs).inPart y (x.op 0) = true) :
    Answers (.copy d) s ((((s.m.askInputs d bs).footInputs y bs).onDtor d fun z =>
      { z with src := ((s.m.askInputs d bs).bufPages y (x.op 0) (4096 * x.opf 2 24 0)).map ((s.m.askInputs d bs).pageVal d) }).startPages d
        ((s.m.askInputs d bs).outPages y (x.op 1) (4096 * x.opf 2 24 0)) (s.m.bufRegions x (x.op 1) (4096 * x.opf 2 24 0)) es) := by
  obtain ⟨hn1, hn⟩ := hok.pages
  subst hbs
  refine answers_tallyOp h rfl hs hx ((if_neg (Nat.one_le_iff_ne_zero.mp hn1)).trans ((if_neg (Nat.not_lt.mpr hn)).trans
    ((if_neg ?range).trans ?_)))
  case range => simp [hok.srcFits, hok.dstFits, hok.dstAllowed]
  simp only [hok.srcResolves, hok.dstResolves, Option.or_none, hok.engines, withInputs_goes hr hy, hin, if_true]

/-- Settles O42. -/
theorem tallyOperationsStart : Obligations.TallyOperationsStart := by
  unfold Obligations.TallyOperationsStart
  refine ⟨?merge, ?reduce, ?sources, ?compare, ?fill, ?copy⟩
  case merge =>
    intro d x s h hs hx n olen hd hn2 hn hq1 hq hlf hof hlr hor
    exact answers_merge h hs hx ⟨hd, ⟨hn2, hn⟩, ⟨hq1, hq⟩, hlf, hof, hlr, hor⟩
  case reduce =>
    intro d x s h hs hx n len hop hn2 hn hl1 hl h64 hlf hof hbar hlr hor
    exact answers_reduce h hs hx ⟨hop, ⟨hn2, hn⟩, ⟨hl1, hl⟩, h64, hlf, hof, hbar, hlr, hor⟩
  case sources =>
    intro m x y z n len bad rs es as he hrs bs asked hr hy has hbad hfit ins again
    have hasks := overSources_asks he hrs hr hy has ⟨hbad, fun a ha => (hfit a ha).1, fun a ha => (hfit a ha).2⟩
    exact ⟨fun hwait => hasks.trans (withInputs_waits hwait), fun hcome hz => hasks.trans (withInputs_goes hcome hz)⟩
  case compare =>
    intro d x y es s h hs hx len hl hf0 hf1 hr0 hr1 rs he bs asked hr hy
    exact answers_compare h hs hx ⟨hl, hf0, hf1, hr0, hr1, he⟩ rfl hr hy
  case fill =>
    intro d x es s h hs hx n pns hn1 hn hext hbar rs he
    exact answers_fill h hs hx ⟨⟨hn1, hn⟩, fun pn hpn => (hext pn hpn).1, fun pn hpn => (hext pn hpn).2, hbar, he⟩
  case copy =>
    intro d x y es s h hs hx n len hn1 hn hsf hdf hbar hsr hdr rs he bs asked hr hy hin
    exact answers_copy h hs hx ⟨⟨hn1, hn⟩, hsf, hdf, hbar, hsr, hdr, he⟩ rfl hr hy hin

end Sys2Proof.Machine
end

section
/-! PROOF. The Tally blocks, region results, NOP and FENCE. -/

namespace Sys2Proof.Machine

variable {s : State} {m n : Mach} {r d : Nat} {x : Dtor}

/-! ## The Tally blocks (R129, R206, R367) -/

/-- A block picks among the waiting descriptors that have a place (`Mach.tallyReady`; log entry 99). -/
theorem pickBy_tallyReady {prio : Dtor → Nat × Nat} (h : n.pickBy r 10 prio (m.tallyReady r) = some x) :
    (m.region r).placeFor x = true ∧ ∃ i ∈ (m.region r).tallyQ, m.dtorAt i = some x := by
  obtain ⟨hwaits, hplace⟩ := List.mem_filter.mp (pickBy_mem h)
  exact ⟨hplace, List.mem_filterMap.mp hwaits⟩

/-- What a block that may start work does with the descriptor it has picked. -/
def Mach.tallyStart (m : Mach) (r : Nat) : Option Dtor → Mach
  | none => m
  | some x => (m.onRegion r fun g =>
      { g with tallyQ := g.tallyQ.filter (· ≠ x.id), tallyGated := false, tallyAt := tins g.tallyAt x.id m.cycle
               tallyBig := if x.isBig then g.tallyBig ++ [x.id] else g.tallyBig
               tallySmall := if x.isBig then g.tallySmall else g.tallySmall ++ [x.id] }).workOn r x.id

theorem answers_tallyDispatch {picked : Option Dtor} (h : DataReady (.tallyDispatch r) s) (hok : s.m.tallyOk r = true)
    (hroll : (s.m.region r).rolling = false) (hissue : s.m.tallyIssue = true)
    (hm : s.m.refillFor r 10 ((s.m.tallyReady r).map s.m.dtorPitch) = m)
    (hp : m.pickBy r 10 (m.tallyPrio r) (s.m.tallyReady r) = picked) : Answers (.tallyDispatch r) s (m.tallyStart r picked) := by
  subst hm
  refine answers_data h rfl ((if_neg (by simp [hok, hroll, hissue])).trans ?_)
  simp only [hp]
  cases picked with
  | none => rfl
  | some x => rfl

/-! ## Region results (R130; the charge of a cell's periods is log entry 102) -/

theorem answers_tallyRegionResult (h : DataReady (.tallyRegionResult r d) s)
    (hd : d ∈ (s.m.region r).tallyBig ∨ d ∈ (s.m.region r).tallySmall) (hm : (s.m.tallyCharge r d).workOn r d = m) :
    Answers (.tallyRegionResult r d) s (if m.workDone r d then (m.regionDone r d).tallyEnd d else m) := by
  subst hm
  have hhere : ((s.m.region r).tallyBig.contains d || (s.m.region r).tallySmall.contains d) = true := by
    rw [Bool.or_eq_true, List.contains_iff_mem, List.contains_iff_mem]
    exact hd
  exact answers_data h rfl (if_neg (by rw [hhere, Bool.not_true]; exact Bool.false_ne_true))

/-! ## NOP and FENCE (R166, R173) -/

theorem answers_nop (h : DataReady (.nop d) s) (hs : s.m.startable d 0x00 = some x) : Answers (.nop d) s (s.m.opDone d stOk 0) :=
  answers_data h rfl (by simp only [hs])

/-- FENCE `x` has to wait: for an earlier descriptor of its queue, or for a write of one that is unacknowledged or not yet issued. -/
def Mach.fenceWaits (m : Mach) (x : Dtor) : Prop :=
  m.before x ≠ [] ∨ (∃ w ∈ m.svc.wrs, m.writesOut x w.owner = true) ∨ ∃ w ∈ m.svc.wrWait, m.writesOut x w.owner = true

theorem answers_fence_waits (h : DataReady (.fence d) s) (hx : s.m.dtorAt d = some x) (hf : x.isFence = true) (hw : s.m.fenceWaits x) :
    Answers (.fence d) s s.m := by
  refine answers_data h rfl ?_
  simp only [hx]
  by_cases hb : s.m.before x = []
  · refine (if_neg (by simp [hf, hb])).trans (if_pos ?_)
    rw [Bool.or_eq_true, List.any_eq_true, List.any_eq_true]
    exact hw.resolve_left (not_not_intro hb)
  · exact if_pos (by simp [hb])

theorem answers_fence_ends (h : DataReady (.fence d) s) (hx : s.m.dtorAt d = some x) (hf : x.isFence = true) (hw : ¬ s.m.fenceWaits x) :
    Answers (.fence d) s (s.m.opDone d stOk 0) := by
  rw [Mach.fenceWaits, not_or] at hw
  obtain ⟨hb, hwr⟩ := hw
  replace hb : s.m.before x = [] := Decidable.not_not.mp hb
  refine answers_data h rfl ?_
  simp only [hx]
  refine (if_neg (by simp [hf, hb])).trans (if_neg ?_)
  rwa [Bool.or_eq_true, List.any_eq_true, List.any_eq_true]

/-- Settles O43. Which waiting descriptors compete is log entry 99, the charge of a cell's periods log entry 102. -/
theorem tallyBlocksAndFences : Obligations.TallyBlocksAndFences := by
  unfold Obligations.TallyBlocksAndFences
  refine ⟨?dispatch, ?place, ?result, ?nop, ?fence⟩
  case dispatch =>
    intro r s h hok hroll hissue xs m
    exact ⟨fun x hx => answers_tallyDispatch h hok hroll hissue rfl hx, fun hn => answers_tallyDispatch h hok hroll hissue rfl hn⟩
  case place => exact fun m n r f x => pickBy_tallyReady
  case result =>
    intro r d s h hd m
    have ha := answers_tallyRegionResult h hd rfl
    exact ⟨fun hdone => by rwa [if_pos hdone] at ha, fun hmore => by rwa [if_neg (ne_true_of_eq_false hmore)] at ha⟩
  case nop => exact fun d x s => answers_nop
  case fence =>
    intro d x s h hx hf
    refine ⟨fun hb hwr hww => answers_fence_ends h hx hf ?_, fun hb => answers_fence_waits h hx hf (.inl hb),
      fun hwr => answers_fence_waits h hx hf (.inr (.inl hwr))⟩
    rw [Mach.fenceWaits, hb]
    simpa using ⟨hwr, hww⟩

end Sys2Proof.Machine
end

section
/-! PROOF. CREATE and DELETE of a queue, and its doorbells. -/

namespace Sys2Proof.Machine

variable {s : State} {m : Mach} {f q cause : Nat} {v : BitVec 64}

/-! ## CREATE and DELETE (R156, R158 to R161) -/

theorem answers_queueCreate (h : DataReady (.queueCreate f) s) (ho : s.m.barOpen f = true) (hb : (s.m.fn f).qbusy = none)
    (hm : s.m.createQueue f = m) : Answers (.queueCreate f) s m :=
  answers_data h rfl ((if_pos (by simp [ho, hb])).trans hm)

theorem answers_queueDelete (h : DataReady (.queueDelete f) s) (ho : s.m.barOpen f = true) (hb : (s.m.fn f).qbusy = none)
    (hm : s.m.deleteQueue f = m) : Answers (.queueDelete f) s m :=
  answers_data h rfl ((if_pos (by simp [ho, hb])).trans hm)

theorem createQueue_ok {y : Queue} (h : m.createCheck f = .ok y) :
    m.createQueue f = (m.renumber.onQueue f (bits (m.fn f).qparam.toNat 5 0) fun _ => { y with inc := m.nextId }).onFn f fun x =>
      { x with qresult := stOk, qverMaj := y.maj, qverMin := y.min } := by
  simp only [Mach.createQueue, h]

theorem createQueue_error {st : Nat} (h : m.createCheck f = .error st) : m.createQueue f = m.onFn f fun x => { x with qresult := st } := by
  simp only [Mach.createQueue, h]

theorem deleteQueue_live (hq : bits (m.fn f).qparam.toNat 5 0 = q) (hfree : (m.queue f q).st ≠ .free)
    (hdel : (m.queue f q).st ≠ .deleting) :
    m.deleteQueue f =
      ((((m.onQueue f q fun x => { x with st := .deleting }).onFn f fun x => { x with qbusy := some q })).abortQueue f q).queueSettle f q := by
  subst hq
  exact if_neg (by simp [hfree, hdel])

theorem deleteQueue_gone (hq : bits (m.fn f).qparam.toNat 5 0 = q) (h : (m.queue f q).st = .free ∨ (m.queue f q).st = .deleting) :
    m.deleteQueue f = m.onFn f fun x => { x with qresult := stBadState } := by
  subst hq
  exact if_pos (by simpa using h)

/-! ## Doorbells (R162 to R164) -/

theorem errorIfActive_active (h : (m.queue f q).st = .active) : m.errorIfActive f q cause = m.queueError f q cause :=
  if_pos (decide_eq_true h)

theorem answers_sqtail (h : DataReady (.sqtail f q v) s) (ho : s.m.barOpen f = true) (hst : (s.m.queue f q).st ≠ .free)
    (hm : (if 2 ^ (s.m.queue f q).log2 ≤ bits v.toNat 15 0 then s.m.errorIfActive f q 4
      else s.m.onQueue f q fun x => { x with sqtail := bits v.toNat 15 0 }) = m) : Answers (.sqtail f q v) s m :=
  answers_data h rfl ((if_pos ho).trans ((if_neg hst).trans hm))

/-- How many completions a CQHEAD of `t` releases. -/
def Queue.released (x : Queue) (t : Nat) : Nat := (t + 2 ^ x.log2 - x.cqhead) % 2 ^ x.log2

theorem answers_cqhead {t : Nat} (h : DataReady (.cqhead f q v) s) (ho : s.m.barOpen f = true) (hst : (s.m.queue f q).st ≠ .free)
    (ht : bits v.toNat 15 0 = t)
    (hm : (if 2 ^ (s.m.queue f q).log2 ≤ t ∨ (s.m.queue f q).written.length < (s.m.queue f q).released t then s.m.errorIfActive f q 4
      else (s.m.onQueue f q fun x => { x with cqhead := t, written := x.written.drop ((s.m.queue f q).released t) }).intx f) = m) :
    Answers (.cqhead f q v) s m := by
  subst ht hm
  refine answers_data h rfl ((if_pos ho).trans ((if_neg hst).trans ?_))
  simp only [Bool.or_eq_true, decide_eq_true_eq]
  rfl

/-- Settles O44. That the register keeps its old value when SQTAIL or CQHEAD puts the queue in ERROR is log entry 97. -/
theorem queueRegisters : Obligations.QueueRegisters := by
  unfold Obligations.QueueRegisters
  refine ⟨?commands, ?doorbells⟩
  case commands =>
    intro f s ho hb q
    exact ⟨fun y h hc => answers_queueCreate h ho hb (createQueue_ok hc), fun st h hc => answers_queueCreate h ho hb (createQueue_error hc),
      fun h hfree hdel => answers_queueDelete h ho hb (deleteQueue_live rfl hfree hdel),
      fun h hgone => answers_queueDelete h ho hb (deleteQueue_gone rfl hgone)⟩
  case doorbells =>
    intro f q v s ho hst t depth
    refine ⟨fun h ht => answers_sqtail h ho hst (if_neg (Nat.not_le.mpr ht)),
      fun h ht hact => answers_sqtail h ho hst ((if_pos ht).trans (errorIfActive_active hact)), ?_⟩
    intro n
    refine ⟨fun h ht hn => answers_cqhead h ho hst rfl (if_neg ?_),
      fun h hbad hact => answers_cqhead h ho hst rfl ((if_pos hbad).trans (errorIfActive_active hact))⟩
    exact not_or_intro (Nat.not_le.mpr ht) (Nat.not_lt.mpr hn)

end Sys2Proof.Machine
end

section
/-! PROOF. A function's interrupt level, the bits of INTSTAT, and function-level reset. -/

namespace Sys2Proof.Machine

variable {s : State} {m : Mach} {f t : Nat}

/-! ## The level and the message that follows it (R165, R248) -/

theorem intx_sends (hl : m.linkUp (f / 16) = true) (hne : m.intLevel f ≠ (m.fn f).intsent) :
    m.intx f = (m.send (.intx f (m.intLevel f))).onFn f fun x => { x with intsent := m.intLevel f } :=
  if_pos (by simp [hl, hne])

theorem intx_of_sent (h : m.intLevel f = (m.fn f).intsent) : m.intx f = m := if_neg (by simp [h])

/-! ## Function-level reset (R260) -/

theorem answers_flrReady (h : DataReady (.flrReady f) s) (ht : (s.m.fn f).flrAt = some t)
    (hend : (s.m.fn f).lease = .none ∨ t + ms 100 ≤ s.m.cycle) :
    Answers (.flrReady f) s (s.m.onFn f fun x => { x with flrAt := none }) := by
  refine answers_data h rfl ?_
  simp only [ht]
  exact if_pos (by simpa using hend)

/-- Settles O17. -/
theorem interruptsAndFunctionReset : Obligations.InterruptsAndFunctionReset := by
  unfold Obligations.InterruptsAndFunctionReset
  refine ⟨?update, ?same, ?delay, ?clear, ?reset, ?ready⟩
  case update => exact fun f s h hl hne => answers_data h rfl (intx_sends hl hne)
  case same => exact fun f s h hsent => answers_data h rfl (intx_of_sent hsent)
  case delay => exact fun f q s h hq hl hne => answers_data h rfl ((if_pos hq).trans (intx_sends hl hne))
  case clear => exact fun f v s h ho => answers_data h rfl (if_pos ho)
  case reset => exact fun f s h hfam ho => answers_data h rfl (if_pos (by simp [hfam, ho]))
  case ready => exact fun f t s => answers_flrReady

end Sys2Proof.Machine
end

section
/-! PROOF. The fetch of a queue's descriptors, and what a deadline ends. -/

namespace Sys2Proof.Machine

variable {s : State} {m : Mach} {k tag f q head n h p d t status : Nat} {words : List RWord} {x : Dtor}

/-! ## Fetches (R162, R166, R204; whose turn it is, and that SQHEAD moves at the dispatch, is log entry 60) -/

theorem answers_descriptorFetch (hr : DataReady (.descriptorFetch h p) s) (ho : s.m.uioOpen h = true) (hn : s.m.fetchNext h p = some (f, q)) :
    Answers (.descriptorFetch h p) s (s.m.fetch f q) :=
  answers_data hr rfl ((if_neg (by simp [ho])).trans (by rw [hn]))

/-- A tag that is freed leaves the queues as they are. -/
theorem queue_freeTag : (m.freeTag k tag).queue f q = m.queue f q := rfl

/-- The whole descriptors of a fetch of `n` slots are dispatched, and the queue may fetch again. -/
def Mach.dispatchWhole (m : Mach) (f q n : Nat) (words : List RWord) : Mach :=
  (m.onQueue f q fun x => { x with fetching := none }).each (wholeSlots n words) fun m raw => m.dispatch f q raw

theorem fetched_active (hf : (m.queue f q).fetching = some (head, n)) (ha : (m.queue f q).st = .active) :
    m.fetched f q words = if (wholeSlots n words).length < n then (m.dispatchWhole f q n words).errorIfActive f q 1
      else m.dispatchWhole f q n words := by
  simp only [Mach.fetched, hf]
  exact if_neg (not_not_intro ha)

/-- Data in time for a fetch under a tag that is not in quarantine are the queue's once the tag is free. -/
theorem answers_fetchComplete {r : RTag} (hr : DataReady (.fetchComplete k tag words) s) (ht : s.m.tagAt k tag = some r)
    (ho : r.owner = .fetch f q) (hq : r.quar = false) (hd : s.m.cycle ≤ r.deadline) (hm : (s.m.freeTag k tag).fetched f q words = m) :
    Answers (.fetchComplete k tag words) s m := by
  refine answers_data hr rfl ?_
  simp only [ht, ho]
  exact (if_neg (by simpa [hq] using hd)).trans hm

/-! ## Deadlines (R174, Table 06.9) -/

theorem endEarly_waiting (hx : m.dtorAt d = some x) (hop : untilStart x.opcode = true) (hw : x.stage ≠ .writing) (hr : x.stage ≠ .running) :
    m.endEarly d status = m.opDone d status 0 := by
  simp [Mach.endEarly, hx, hop, hw, hr]

theorem endEarly_started (hx : m.dtorAt d = some x) (hop : untilStart x.opcode = true) (hr : x.stage = .running) :
    m.endEarly d status = m := by
  simp [Mach.endEarly, hx, hop, hr]

theorem endEarly_writing (hx : m.dtorAt d = some x) (hw : x.stage = .writing) (hop : untilStart x.opcode = false) (h18 : x.opcode ≠ 0x18) :
    m.endEarly d status = m.onDtor d fun y => { y with done := some (status, y.n0) } := by
  simp [Mach.endEarly, hx, hw, hop, h18]

/-- A deadline that has passed ends its descriptor early, with LATE. -/
theorem answers_deadlineExpire (h : DataReady (.deadlineExpire d) s) (hx : s.m.dtorAt d = some x) (ht : x.deadline = some t)
    (hlt : t < s.m.cycle) (hm : s.m.endEarly d stLate = m) : Answers (.deadlineExpire d) s m := by
  refine answers_data h rfl ?_
  simp only [hx, ht]
  exact (if_pos hlt).trans hm

/-- Settles O45. That SQHEAD moves when a fetch's data come, and which queue's turn it is, is log entry 60. -/
theorem fetchesAndDeadlines : Obligations.FetchesAndDeadlines := by
  unfold Obligations.FetchesAndDeadlines
  refine ⟨?turn, ?data, ?start, ?writing⟩
  case turn => exact fun h p f q s => answers_descriptorFetch
  case data =>
    intro k tag f q head n words r s h ht ho hq hd hf ha got
    rw [← queue_freeTag (k := k) (tag := tag)] at hf ha
    have hgot := fetched_active (words := words) hf ha
    exact ⟨fun hall => answers_fetchComplete h ht ho hq hd (hgot.trans (if_neg (Nat.not_lt.mpr (Nat.le_of_eq hall.symm)))),
      fun hbroken => answers_fetchComplete h ht ho hq hd (hgot.trans (if_pos hbroken))⟩
  case start =>
    intro d t x s h hx ht hlt hop hw
    exact ⟨fun hr => answers_deadlineExpire h hx ht hlt (endEarly_waiting hx hop hw hr),
      fun hr => answers_deadlineExpire h hx ht hlt (endEarly_started hx hop hr)⟩
  case writing =>
    intro d t x s h hx ht hlt hw hop h18
    exact answers_deadlineExpire h hx ht hlt (endEarly_writing hx hw hop h18)

end Sys2Proof.Machine
end

section
/-! PROOF. A CXL.mem request at its hub, and what a stray request and a request under release get. -/

namespace Sys2Proof.Machine

variable {c : Instr} {s : State} {m : Mach} {f hpa dpa : Nat} {tag : HostTag} {kind : ReqKind} {q : Req} {k : RspKind}

/-! ## A request at its hub (R28, R178, R183, R204, R236, R241, Table 09.8) -/

/-- Every command that carries a request is the arrival of that request at its hub. -/
theorem exec_memReq (hc : c.memReq = some (f, tag, hpa, kind)) (s : State) :
    exec c s = s.app (c.wf s.m.fam) (Mach.dataRun fun m => m.arrive f tag hpa kind) := by
  cases c
  case memrddata | memclnevct => cases hc; rfl
  case memrd _ mv _ _ | meminv _ mv _ _ | memwr _ mv _ _ _ _ | memwrptl _ mv _ _ _ _ _ => cases mv <;> cases hc <;> rfl
  all_goals cases hc

/-- The request that arrives now, for the line of address `dpa`. -/
def Mach.arrival (m : Mach) (f : Nat) (tag : HostTag) (kind : ReqKind) (dpa : Nat) : Req :=
  { id := m.nextId, fn := f, tag := tag, kind := kind, dpa := dpa, at_ := m.cycle }

/-- What the hub does with a request by the way it settles it. -/
def Mach.settleReq (m : Mach) (q : Req) : Settle → Mach
  | .stray => m.stray q
  | .releasing => m.refuse q
  | .served => (m.onPort (q.fn / 16) fun x => { x with ingress := x.ingress ++ [q] }).admitHeads (q.fn / 16) 4

/-- Nothing turns a request away from an open port with room in its buffer (R205, R234). -/
theorem port_takes {k : Nat} (ho : m.memOpen k = true) (hl : (m.port k).ingress.length < 2048) :
    ¬ (!m.memOpen k || decide (2048 ≤ (m.port k).ingress.length)) = true := by
  simp [ho, hl]

/-- With room in the buffer of an open port the request of an address outside every decoder is a stray (DPA 0: log entry 65). -/
theorem arrive_outside (ho : m.memOpen (f / 16) = true) (hl : (m.port (f / 16)).ingress.length < 2048) (hd : m.decodeHpa f hpa = none) :
    m.arrive f tag hpa kind = m.renumber.stray (m.arrival f tag kind 0) := by
  have hd' : m.renumber.decodeHpa f hpa = none := hd
  simp only [Mach.arrive, if_neg (port_takes ho hl), hd']
  rfl

theorem arrive_decoded (ho : m.memOpen (f / 16) = true) (hl : (m.port (f / 16)).ingress.length < 2048)
    (hd : m.decodeHpa f hpa = some dpa) :
    m.arrive f tag hpa kind = m.renumber.settleReq (m.arrival f tag kind (dpa / 64 * 64)) (m.settleAt f dpa) := by
  have hd' : m.renumber.decodeHpa f hpa = some dpa := hd
  have hs : m.renumber.settleAt f dpa = m.settleAt f dpa := rfl
  simp only [Mach.arrive, if_neg (port_takes ho hl), hd', hs]
  cases m.settleAt f dpa <;> rfl

theorem answers_memReq {w : Settle} (hc : c.memReq = some (f, tag, hpa, kind)) (h : DataReady c s) (ho : s.m.memOpen (f / 16) = true)
    (hl : (s.m.port (f / 16)).ingress.length < 2048) (hd : s.m.decodeHpa f hpa = some dpa) (hw : s.m.settleAt f dpa = w) :
    Answers c s (s.m.renumber.settleReq (s.m.arrival f tag kind (dpa / 64 * 64)) w) :=
  hw ▸ answers_data h (exec_memReq hc s) (arrive_decoded ho hl hd)

/-- Settles O18. That a request outside every decoder is a stray with DPA 0 is log entry 65, the fourth MetaValue log entry 38. -/
theorem requestsReachTheHub : Obligations.RequestsReachTheHub := by
  unfold Obligations.RequestsReachTheHub
  refine ⟨?requests, ?reserved⟩
  case requests =>
    intro c f hpa tag kind s hc h ho hl q
    exact ⟨fun _ hd hw => answers_memReq hc h ho hl hd hw, fun _ hd hw => answers_memReq hc h ho hl hd hw,
      fun _ hd hw => answers_memReq hc h ho hl hd hw, fun hd => answers_data h (exec_memReq hc s) (arrive_outside ho hl hd)⟩
  case reserved =>
    exact fun f tag hpa d be p s => ⟨fun h => answers_data h rfl rfl, fun h => answers_data h rfl rfl, fun h => answers_data h rfl rfl⟩

/-! ## Strays and requests under release (R178, R183) -/

/-- A response to a host's request leaves at once through a port that carries CXL.mem. -/
theorem respond_sends (ho : m.memOpen (q.fn / 16) = true) (hi : q.internal = false) : m.respond q k = m.send (.rsp q.fn q.tag k) := by
  rw [Mach.respond, hi, if_neg Bool.false_ne_true, portSend_mem _ ho]

theorem refuse_read {keep : Keep} (ho : m.memOpen (q.fn / 16) = true) (hi : q.internal = false) (hk : q.kind = .rd keep) :
    m.refuse q = (m.send (.rsp q.fn q.tag (.memData 0 true))).send (.rsp q.fn q.tag .cmp) := by
  simp only [Mach.refuse, hk]
  rw [respond_sends ho hi, respond_sends ((send_memOpen ..).trans ho) hi]

theorem refuse_other (ho : m.memOpen (q.fn / 16) = true) (hi : q.internal = false) (hk : ∀ keep, q.kind ≠ .rd keep) :
    m.refuse q = m.send (.rsp q.fn q.tag .cmp) := by
  rw [← respond_sends ho hi]
  unfold Mach.refuse
  split
  next keep hrd => exact absurd hrd (hk keep)
  next => rfl

/-- A stray of a function that has logged one in this millisecond is counted, takes an admission and is answered, no more. -/
theorem stray_logged (hs : (m.fn q.fn).strayAt = some m.msec) :
    m.stray q = ((m.count (0x8300 + q.fn) 1 1).onHub (q.fn / 16) fun h => { h with admitted := h.admitted + 1 }).refuse q := by
  have hlogged : ¬ decide ((m.fn q.fn).strayAt ≠ some m.msec) = true := by simp [hs]
  exact congrArg (fun n : Mach => n.refuse q) (if_neg hlogged)

/-- Settles O19. That a stray MemInv or MemClnEvct gets the completion alone is log entry 65. -/
theorem straysAreAnswered : Obligations.StraysAreAnswered := by
  unfold Obligations.StraysAreAnswered
  exact fun m q ho hi => ⟨fun _ => refuse_read ho hi, refuse_other ho hi, stray_logged⟩

end Sys2Proof.Machine
end

section
/-! PROOF. Answers to line snoops: the directory entry, the data written back, and the requests that waited. -/

namespace Sys2Proof.Machine

variable {s : State} {m : Mach} {e : DirEnt} {k : SnpKind} {a : BiAns} {sn : Snoop} {f r line w : Nat} {wb : Option Line}

/-! ## The entry after an answer (Table 09.8) -/

theorem remove_owner (hst : e.st = .owned) (ho : e.owner = f) : e.remove f = e.clear := by simp [DirEnt.remove, hst, ho]

theorem remove_last_sharer (hst : e.st = .shared) (hs : e.sharers &&& ~~~(1#128 <<< f) = 0) : e.remove f = e.clear := by
  simp only [DirEnt.remove, hst]
  exact if_pos hs

theorem remove_sharer (hst : e.st = .shared) (hs : e.sharers &&& ~~~(1#128 <<< f) ≠ 0) :
    e.remove f = { e with sharers := e.sharers &&& ~~~(1#128 <<< f) } := by
  simp only [DirEnt.remove, hst]
  exact if_neg hs

/-- BIRspI takes the holder out of the entry, whatever it answers. -/
theorem answered_i : e.answered f k .i = e.remove f := by cases k <;> rfl

/-- BIRspS to a snoop that is no BISnpInv leaves the owner a sharer. -/
theorem answered_s_owner (hst : e.st = .owned) (ho : e.owner = f) (hk : k ≠ .inv) :
    e.answered f k .s = { e with st := .shared, sharers := 1#128 <<< f, owner := 0 } := by
  have hown : (decide (e.st = .owned) && decide (e.owner = f)) = true := by simp [hst, ho]
  cases k with
  | inv => exact absurd rfl hk
  | cur | data => exact if_pos hown

/-! ## An answer (R194, R196, R236) -/

/-- The snoop ended and the entry in way `w` as the answer leaves it, its recall gone on. -/
def Mach.settleAnswer (m : Mach) (sn : Snoop) (f line w : Nat) (a : BiAns) : Mach :=
  let left := m.unsnoop sn.region f line
  (left.dirPut sn.region (dirSet line) w ((left.dirAt sn.region (dirSet line) w).answered f sn.kind a)).recallRest sn.region line

/-- The data that came with an answer, if any, are written to the line. -/
def Mach.writeBack (m : Mach) (f line : Nat) : Option Line → Mach
  | none => m
  | some d => m.renumber.serve none
      { id := m.nextId, fn := f, tag := {}, kind := .wr false d (BitVec.allOnes 64) false, dpa := line * 64, at_ := m.cycle
        ord := m.nextId, internal := true, wb := true }

/-- What waited for the line or for a way goes on, once no snoop of the line is left. -/
def Mach.lineGoesOn (m : Mach) (r line : Nat) : Mach :=
  if m.snooping r line then m else m.pump none r fun w => w.why = .line || w.why = .way

theorem lineGoesOn_snooping (h : m.snooping r line = true) : m.lineGoesOn r line = m := if_pos h

theorem lineGoesOn_free (h : m.snooping r line = false) :
    m.lineGoesOn r line = m.pump none r fun w => w.why = .line || w.why = .way :=
  if_neg (ne_true_of_eq_false h)

theorem biRsp_settles (hf : (m.ext.snoops.find? fun x => x.fn = f && x.line = line) = some sn)
    (hw : (m.unsnoop sn.region f line).dirWay sn.region line = some w) :
    m.biRsp f line a wb = ((m.settleAnswer sn f line w a).writeBack f line wb).lineGoesOn sn.region line := by
  simp only [Mach.biRsp, hf, hw]
  cases wb <;> rfl

/-- The message of an answer: BIRspI, BIRspS or BIRspE. -/
def BiAns.instr (f line : Nat) (wb : Option Line) : BiAns → Instr
  | .i => .birspi f line wb
  | .s => .birsps f line wb
  | .e => .birspe f line wb

theorem answers_biRsp (h : DataReady (a.instr f line wb) s) (ho : s.m.memOpen (f / 16) = true) (hm : s.m.biRsp f line a wb = m) :
    Answers (a.instr f line wb) s m := by
  have hopen : (if s.m.memOpen (f / 16) then s.m.biRsp f line a wb else s.m) = m := (if_pos ho).trans hm
  cases a <;> exact answers_data h rfl hopen

theorem answers_snooped (h : DataReady (a.instr f line wb) s) (ho : s.m.memOpen (f / 16) = true)
    (hf : (s.m.ext.snoops.find? fun x => x.fn = f && x.line = line) = some sn)
    (hw : (s.m.unsnoop sn.region f line).dirWay sn.region line = some w)
    (hm : ((s.m.settleAnswer sn f line w a).writeBack f line wb).lineGoesOn sn.region line = m) : Answers (a.instr f line wb) s m :=
  answers_biRsp h ho ((biRsp_settles hf hw).trans hm)

/-- Settles O21. -/
theorem snoopAnswersSettle : Obligations.SnoopAnswersSettle := by
  unfold Obligations.SnoopAnswersSettle
  refine ⟨?answer, ?entry⟩
  case answer =>
    intro f line w a wb sn s c h ho hf hw left settled
    have hc : c = a.instr f line wb := by cases a <;> rfl
    rw [hc] at h ⊢
    refine ⟨?_, ?_, ?_⟩
    · rintro rfl hs
      exact answers_snooped h ho hf hw (lineGoesOn_snooping hs)
    · rintro rfl hs
      exact answers_snooped h ho hf hw (lineGoesOn_free hs)
    · rintro d rfl written
      exact ⟨fun hs => answers_snooped h ho hf hw (lineGoesOn_snooping hs), fun hs => answers_snooped h ho hf hw (lineGoesOn_free hs)⟩
  case entry =>
    intro e f k
    refine ⟨fun hst ho => ?_, fun hst hs => ?_, fun hst hs => ?_, answered_s_owner, rfl⟩
    · rw [answered_i, remove_owner hst ho]; rfl
    · rw [answered_i, remove_last_sharer hst hs]; rfl
    · rw [answered_i, remove_sharer hst hs]

end Sys2Proof.Machine
end

section
/-! PROOF. A recall that nobody answers, and the end of block snoops. -/

namespace Sys2Proof.Machine

variable {s : State} {m : Mach} {sn : Snoop} {t t' : Ticket} {r line f w : Nat}

/-! ## A recall without an answer (R196; outside a recall, log entry 64) -/

/-- Function `f` is out of the entry in way `w`, which is logged, and its lease has ended. -/
def Mach.forceOut (m : Mach) (r line f w : Nat) : Mach :=
  let forced := m.settleEntry f r (dirSet line) w
  (forced.log 0x0005 (forced.pitchOf f) 4 f [(8, f), (64, line)]).leaseEnd f

/-- Function `f` owns the line in way `w`. -/
def Mach.ownsWay (m : Mach) (r line f w : Nat) : Bool :=
  (m.dirAt r (dirSet line) w).st = .owned && (m.dirAt r (dirSet line) w).owner = f

/-- The forced-out count of a release under way rises for a sharer; an owner is counted as its entry is settled. -/
def Mach.countForced (m : Mach) (r line f w : Nat) : Mach :=
  m.when (!m.ownsWay r line f w && (m.extent (extOf (line / 64))).st = .releasing) fun m =>
    m.onExtent (extOf (line / 64)) fun x => { x with forced := x.forced + 1 }

theorem answers_recallTimeout (h : DataReady (.recallTimeout r line f) s)
    (hf : (s.m.ext.snoops.find? fun x => x.region = r && x.line = line && x.fn = f) = some sn)
    (ht : sn.at_ + s.m.leaseTerm (s.m.pitchOf f) < s.m.cycle) (hw : s.m.dirWay r line = some w) (hm : s.m.countForced r line f w = m) :
    Answers (.recallTimeout r line f) s (m.forceOut r line f w) := by
  subst hm
  refine answers_data h rfl ?_
  simp only [hf, if_neg (Nat.not_le.mpr ht), hw]
  rfl

theorem countForced_sharer (ho : m.ownsWay r line f w = false) (hr : (m.extent (extOf (line / 64))).st = .releasing) :
    m.countForced r line f w = m.onExtent (extOf (line / 64)) fun x => { x with forced := x.forced + 1 } :=
  if_pos (by simp [ho, hr])

theorem countForced_else (ho : m.ownsWay r line f w = true ∨ (m.extent (extOf (line / 64))).st ≠ .releasing) :
    m.countForced r line f w = m :=
  if_neg (by rcases ho with ho | ho <;> simp [ho])

theorem ownsWay_iff :
    m.ownsWay r line f w = true ↔ (m.dirAt r (dirSet line) w).st = .owned ∧ (m.dirAt r (dirSet line) w).owner = f := by
  simp [Mach.ownsWay]

/-! ## Answers to block snoops (R199, R200) -/

/-- The block snoop of function `f` for a line of ticket `n` has ended, and its port's next have gone out. -/
def Mach.blockEnds (m : Mach) (n f line : Nat) : Mach :=
  (m.onTicket n fun t =>
    { t with sweeps := lmod t.sweeps (fun x => x.fn = f) fun x => { x with sent := x.sent.filter fun y => y.1 ≠ line } }).sendBlocks
      (f / 16) 64

/-- Function `f`'s sweep for a ticket has sent every block and has every answer. -/
def Mach.sweepEnded (m : Mach) (t : Ticket) (f : Nat) : Bool :=
  t.sweeps.any fun x => x.fn = f && x.sent.isEmpty && (m.ticketBlock t x.next).isNone

theorem answers_birspiblk (h : DataReady (.birspiblk f line) s) (ho : s.m.memOpen (f / 16) = true)
    (hf : (s.m.ext.tickets.find? fun t => t.sweeps.any fun x => x.fn = f && x.sent.any fun y => y.1 = line) = some t)
    (ht : (s.m.blockEnds t.num f line).ticketAt t.num = some t')
    (hm : (if (s.m.blockEnds t.num f line).sweepEnded t' f then
        ((s.m.blockEnds t.num f line).discharge f fun x => x.num = t.num).sendBlocks (f / 16) 64
      else s.m.blockEnds t.num f line) = m) : Answers (.birspiblk f line) s m := by
  refine answers_data h rfl ?_
  rw [Mach.blockEnds] at ht
  simp only [ho, Bool.true_and, hf, ht]
  exact hm

/-- Settles O22. That a snoop outside a recall is timed out like one of a recall is log entry 64. -/
theorem recallsAndBlockSnoopsEnd : Obligations.RecallsAndBlockSnoopsEnd := by
  unfold Obligations.RecallsAndBlockSnoopsEnd
  refine ⟨?timeout, ?answer⟩
  case timeout =>
    intro r line f w sn s h hf ht hw owned ended
    refine ⟨fun ho => answers_recallTimeout h hf ht hw (countForced_else (ho.imp_left ownsWay_iff.mpr)), fun ho hr => ?_⟩
    exact answers_recallTimeout h hf ht hw (countForced_sharer (Bool.eq_false_iff.mpr (mt ownsWay_iff.mp ho)) hr)
  case answer =>
    intro f line t t' s h ho hf m ht
    exact ⟨fun hmore => answers_birspiblk h ho hf ht (if_neg (ne_true_of_eq_false hmore)),
      fun hlast => answers_birspiblk h ho hf ht (if_pos hlast)⟩

end Sys2Proof.Machine
end

section
/-! PROOF. Extents: answers to offers, what a host gives back, and the recalls of a release. -/

namespace Sys2Proof.Machine

variable {s : State} {m n : Mach} {f e t r : Nat} {exts : List Nat}

/-! ## Offers (R180, R243) -/

/-- The extents on offer to function `f`. -/
def Mach.offersTo (m : Mach) (f : Nat) : List Nat := (m.ext.exts.filter fun x => x.2.offer.any fun o => o.1 = f).map (·.1)

/-- A response is taken as a whole: every extent it names is accepted, or none. -/
theorem answers_dcResponse (h : DataReady (.addDynamicCapacityResponse f exts) s) (hb : s.m.barOpen f = true)
    (hm : (if exts.all (s.m.offersTo f).contains then
        ((s.m.each exts.eraseDups fun m e => m.accept f e).each ((s.m.offersTo f).filter fun e => !exts.contains e) fun m e =>
          m.offerDrop e f).mbox f mbSuccess []
      else s.m.mbox f mbInvalidInput []) = m) : Answers (.addDynamicCapacityResponse f exts) s m :=
  answers_data h rfl ((if_neg (by simp [hb])).trans hm)

theorem answers_offerTimeout (h : DataReady (.offerTimeout e f) s) (ho : (f, t) ∈ (s.m.extent e).offer) (ht : t < s.m.cycle) :
    Answers (.offerTimeout e f) s (s.m.offerDrop e f) := by
  have hdue : ((s.m.extent e).offer.any fun o => o.1 = f && decide (o.2 < s.m.cycle)) = true :=
    List.any_eq_true.mpr ⟨_, ho, by simp [ht]⟩
  exact answers_data h rfl (if_pos hdue)

/-! ## What a host gives back (R182, R243) -/

theorem answers_giveBack (h : DataReady (.releaseDynamicCapacity f e) s) (hb : s.m.barOpen f = true) (hg : s.m.granted f e = true)
    (ha : (s.m.extent e).st = .active)
    (hm : (if (s.m.extent e).grant = 1#128 <<< f then (s.m.releaseExtent e 2 none).mbox f mbSuccess []
      else ((s.m.ungrant f e).leaseSettle f).mbox f mbSuccess []) = m) : Answers (.releaseDynamicCapacity f e) s m :=
  answers_data h rfl
    ((if_neg (by simp [hb])).trans ((if_neg (by simp [hg, ha])).trans ((if_neg (by simp [ha])).trans hm)))

/-! ## The recalls of a release (R183, R184, R188, R199) -/

/-- Region `r` has begun its recalls of extent `e`. -/
def Mach.recallBegun (m : Mach) (r e : Nat) : Mach := m.onExtent e fun y => { y with started := y.started ++ [r] }

/-- How region `r` recalls extent `e`, whose entry was `x`, by its COH (Table 07.1). -/
def Mach.recallExtent (m : Mach) (r e : Nat) (x : Extent) : Mach :=
  match x.coh with
  | .tracked =>
    let n := match x.endedBy with
      | some f => (m.recallBegun r e).settleEntries f e fun q => q = r
      | none => m.recallBegun r e
    n.recallLines r (lineOfExt e)
  | .readShared =>
    if x.ticket.isSome then m.recallBegun r e
    else if m.ticketsFull then m
    else
      let n := (m.recallBegun r e).retire (e * extentPages) extentPages x.pitch
      n.onExtent e fun y => { y with ticket := some n.ext.lastTicket }
  | .uncached => m.recallBegun r e

theorem answers_recallStart (h : DataReady (.releaseRecallStart r e) s) (hst : (s.m.extent e).st = .releasing)
    (hr : r ∈ (s.m.extent e).recalling) (hs : r ∉ (s.m.extent e).started) (hw : (s.m.closeViews e).extentWaits r e = false)
    (hm : (s.m.closeViews e).recallExtent r e (s.m.extent e) = m) : Answers (.releaseRecallStart r e) s m := by
  have hclosed : (s.m.when ((s.m.extent e).st = .releasing) fun m => m.closeViews e) = s.m.closeViews e := if_pos (by simp [hst])
  refine answers_data h rfl ?_
  simp only [hclosed]
  exact (if_neg (by simp [hst, hr, hs, hw])).trans hm

theorem recallExtent_tracked {x : Extent} (hc : x.coh = .tracked) (he : x.endedBy = none) :
    m.recallExtent r e x = (m.recallBegun r e).recallLines r (lineOfExt e) := by
  simp only [Mach.recallExtent, hc, he]

theorem recallExtent_ended {x : Extent} (hc : x.coh = .tracked) (he : x.endedBy = some f) :
    m.recallExtent r e x = ((m.recallBegun r e).settleEntries f e fun q => q = r).recallLines r (lineOfExt e) := by
  simp only [Mach.recallExtent, hc, he]

theorem recallExtent_readShared {x : Extent} (hc : x.coh = .readShared) (ht : x.ticket = none) (hf : m.ticketsFull = false)
    (hn : (m.recallBegun r e).retire (e * extentPages) extentPages x.pitch = n) :
    m.recallExtent r e x = n.onExtent e fun y => { y with ticket := some n.ext.lastTicket } := by
  subst hn
  simp only [Mach.recallExtent, hc, ht, hf, Option.isSome_none, Bool.false_eq_true, if_false]

theorem recallExtent_uncached {x : Extent} (hc : x.coh = .uncached) : m.recallExtent r e x = m.recallBegun r e := by
  simp only [Mach.recallExtent, hc]

theorem answers_releaseClear (h : DataReady (.releaseClear e) s) (hst : (s.m.extent e).st = .releasing) (hr : s.m.recalled e = true) :
    Answers (.releaseClear e) s (s.m.clearExtent e) :=
  answers_data h rfl (if_pos (by simp [hst, hr]))

/-- Settles O47. -/
theorem extentsAreAcceptedAndReleased : Obligations.ExtentsAreAcceptedAndReleased := by
  unfold Obligations.ExtentsAreAcceptedAndReleased
  refine ⟨?response, ?term, ?back, ?start, fun e s => answers_releaseClear⟩
  case response =>
    intro f exts s h hb offered
    exact ⟨fun hall => answers_dcResponse h hb (if_pos hall), fun hsome => answers_dcResponse h hb (if_neg (ne_true_of_eq_false hsome))⟩
  case term => exact fun e f t s => answers_offerTimeout
  case back =>
    intro f e s h hb hg ha
    exact ⟨fun hsole => answers_giveBack h hb hg ha (if_pos hsole), fun hothers => answers_giveBack h hb hg ha (if_neg hothers)⟩
  case start =>
    intro r e s h hst hr hs m hw begun
    exact ⟨fun hc he => answers_recallStart h hst hr hs hw (recallExtent_tracked hc he),
      fun f hc he => answers_recallStart h hst hr hs hw (recallExtent_ended hc he),
      fun hc ht hf => answers_recallStart h hst hr hs hw (recallExtent_readShared hc ht hf rfl),
      fun hc => answers_recallStart h hst hr hs hw (recallExtent_uncached hc)⟩

end Sys2Proof.Machine
end

section
/-! PROOF. Leases run and end, and retirements are discharged. -/

namespace Sys2Proof.Machine

variable {s : State} {m : Mach} {f n t : Nat} {v : BitVec 64} {k : Ticket}

/-! ## Renewal and low leases (R187, R247) -/

theorem renewLease_live (hl : m.leaseLive f = true) :
    m.renewLease f = m.onFn f fun x =>
      { x with leaseAt := m.cycle + m.leaseTerm (m.pitchOf f), leaseDefer := none, leaseWasLow := false } :=
  if_pos hl

theorem answers_renew (h : DataReady (.renew f v) s) (hb : s.m.barOpen f = true) (hv : v.getLsbD 0 = true) :
    Answers (.renew f v) s (s.m.renewLease f) :=
  answers_data h rfl (if_pos (by simp [hb, hv]))

theorem answers_leaseLow (h : DataReady (.leaseLow f) s) (hh : (s.m.fn f).lease = .held) (hl : (s.m.fn f).leaseWasLow = false)
    (ht : 4 * ((s.m.fn f).leaseAt - s.m.cycle) < s.m.leaseTerm (s.m.pitchOf f)) :
    Answers (.leaseLow f) s ((s.m.onFn f fun x => { x with leaseWasLow := true, leaseBit := true }).latch (intKey f) 0x10) :=
  answers_data h rfl (if_pos (by simp [hh, hl, ht]))

/-! ## The end of a lease (R188, R377) -/

/-- Past its expiry, not deferred and with a steward in the role, a lease has expired. -/
theorem not_leaseLive_of_past (hs : m.sys.steward.isSome = true) (ht : (m.fn f).leaseAt < m.cycle) (hd : (m.fn f).leaseDefer = none) :
    m.leaseLive f = false := by
  simp [Mach.leaseLive, ht, hd, hs]

theorem answers_leaseExpire (h : DataReady (.leaseExpire f) s) (hs : s.m.sys.steward.isSome = true) (hh : (s.m.fn f).lease = .held)
    (hl : s.m.leaseLive f = false) : Answers (.leaseExpire f) s (s.m.leaseEnd f) :=
  answers_data h rfl (if_pos (by simp [hs, hh, hl]))

theorem answers_leaseDeferredExpire (h : DataReady (.leaseDeferredExpire f) s) (hs : s.m.sys.steward.isSome = true)
    (hd : (s.m.fn f).leaseDefer = some t) (ht : t < s.m.cycle) : Answers (.leaseDeferredExpire f) s (s.m.leaseEnd f) := by
  refine answers_data h rfl ?_
  simp only [hd]
  exact if_pos (by simp [hs, ht])

/-- A function that holds no extent holds none under release. -/
theorem releasing_of_heldBy_nil (hh : m.heldBy f = []) :
    (m.ext.exts.any fun e => e.2.st = .releasing && e.2.grant.getLsbD f) = false := by
  rw [Mach.heldBy, List.map_eq_nil_iff, List.filter_eq_nil_iff] at hh
  refine List.any_eq_false.mpr fun e he hr => hh e he ?_
  obtain ⟨hst, hg⟩ := (Bool.and_eq_true _ _).mp hr
  simp [of_decide_eq_true hst, hg]

theorem answers_leaseExpired (h : DataReady (.leaseExpired f) s) (he : (s.m.fn f).lease = .ending) (hh : s.m.heldBy f = []) :
    Answers (.leaseExpired f) s
      ((s.m.onFn f fun y => { y with lease := .none }).log 0x0003 (s.m.pitchOf f) 4 f
        [(8, f), (32, (s.m.fn f).endReleased), (32, (s.m.fn f).endLeft), (32, (s.m.fn f).endPoisoned)]) := by
  refine answers_data h rfl ((if_neg (by simp [he, releasing_of_heldBy_nil hh])).trans ?_)
  simp only [hh]
  rfl

/-! ## Retirements (R200) -/

theorem answers_retireack (h : DataReady (.retireack f v) s) (hb : s.m.barOpen f = true) :
    Answers (.retireack f v) s (s.m.discharge f fun t => decide (t.num ≤ bits v.toNat 31 0)) :=
  answers_data h rfl (if_pos hb)

theorem answers_sweepStart (h : DataReady (.retirementSweepStart n f) s) (hk : s.m.ticketAt n = some k) (ho : f ∈ k.owed)
    (hw : ∀ w ∈ k.sweeps, w.fn ≠ f) (ht : k.start + ms 1 < s.m.cycle) :
    Answers (.retirementSweepStart n f) s
      ((s.m.onTicket n fun t => { t with sweeps := t.sweeps ++ [⟨f, 0, []⟩] }).sendBlocks (f / 16) 64) := by
  have hfirst : (k.sweeps.any fun w => w.fn = f) = false := List.any_eq_false.mpr fun w hm => by simpa using hw w hm
  refine answers_data h rfl ?_
  simp only [hk, hfirst]
  exact if_neg (by simp [ho, ht])

theorem answers_blockSnoopTimeout {line at_ : Nat} (h : DataReady (.blockSnoopTimeout n f) s) (hk : s.m.ticketAt n = some k)
    (hr : k.region = none)
    (hl : ((k.sweeps.filter fun x => x.fn = f).findSome? fun x =>
      x.sent.find? fun y => decide (y.2 + s.m.leaseTerm k.pitch < s.m.cycle)) = some (line, at_)) :
    Answers (.blockSnoopTimeout n f) s
      ((((s.m.log 0x0005 (s.m.pitchOf f) 4 f [(8, f), (64, line)]).leaseEnd f).discharge f fun x => x.num = n).sendBlocks (f / 16) 64) := by
  refine answers_data h rfl ?_
  simp only [hk, hr, Option.isSome_none, Bool.false_eq_true, if_false, hl]

/-- Settles O48. -/
theorem leasesAndRetirements : Obligations.LeasesAndRetirements := by
  unfold Obligations.LeasesAndRetirements
  refine ⟨?renew, fun f s => answers_leaseLow, ?expire, fun f t s => answers_leaseDeferredExpire, fun f s => answers_leaseExpired,
    fun f v s => answers_retireack, fun n f t s => answers_sweepStart, fun n f line at_ t s => answers_blockSnoopTimeout⟩
  case renew =>
    intro f v s h hb hv hl
    exact renewLease_live hl ▸ answers_renew h hb hv
  case expire =>
    intro f s h hs hh ht hd
    exact answers_leaseExpire h hs hh (not_leaseLive_of_past hs ht hd)

end Sys2Proof.Machine
end

section
/-! PROOF. How a hub admits the heads that wait at it (R25, R202 to R204). -/

namespace Sys2Proof.Machine

variable {s : State} {m : Mach} {h p : Nat} {q : Req} {counts : Tab Int}

/-! ## One admission (R204) -/

/-- The fetch that stands for none offered, as `Mach.admitHeads` has it. -/
def FetchOffer.absent : FetchOffer := ⟨0, 0, 0, 0⟩

/-- With no fetch offered the head of a pitch is a request. -/
theorem headIsFetch_absent : m.headIsFetch h p .absent = false := by simp [Mach.headIsFetch, FetchOffer.for, FetchOffer.absent]

theorem admitHead_request {step : Nat} (hq : m.headOf h p = some q) :
    m.admitHead h p step .absent = some (m.admitReq h p step q, .absent) := by
  rw [Mach.admitHead, headIsFetch_absent, hq]
  rfl

/-- Nothing keeps hub `h` from an admission in this hub cycle. -/
structure MayAdmit (m : Mach) (h : Nat) : Prop where
  few : (m.hub h).admitted < 4
  normal : m.normal h = true
  ideOpen : m.ideOpen h = true

theorem MayAdmit.not_stopped (ha : MayAdmit m h) : ¬ (decide (4 ≤ (m.hub h).admitted) || !m.normal h || !m.ideOpen h) = true := by
  simp [ha.few, ha.normal, ha.ideOpen]

/-- Step 1: the next pitch in turn that has a guaranteed token. -/
theorem admitOne_guaranteed (ha : MayAdmit m h)
    (hp : ((after (m.hub h).rrPitch (m.waitingPitches h .absent)).find? fun p => m.tokenStep h p = some 1) = some p)
    (hq : m.headOf h p = some q) : m.admitOne h .absent = some (m.admitReq h p 1 q, .absent) := by
  rw [Mach.admitOne, if_neg ha.not_stopped]
  simp only [hp, admitHead_request hq]

/-- Step 2: no pitch has a guaranteed token, and the weighted turn takes one that a token of the pool admits. -/
theorem admitOne_pool (ha : MayAdmit m h)
    (hn : ((after (m.hub h).rrPitch (m.waitingPitches h .absent)).find? fun p => m.tokenStep h p = some 1) = none)
    (hw : wrrPick (m.weightAt h) (m.hub h).wrr ((m.waitingPitches h .absent).filter fun p => m.tokenStep h p = some 2) = some (p, counts))
    (hq : (m.onHub h fun x => { x with wrr := counts }).headOf h p = some q) :
    m.admitOne h .absent = some ((m.onHub h fun x => { x with wrr := counts }).admitReq h p 2 q, .absent) := by
  rw [Mach.admitOne, if_neg ha.not_stopped]
  simp only [hn, hw, admitHead_request hq]

theorem admitOne_full (hf : 4 ≤ (m.hub h).admitted) : m.admitOne h .absent = none := if_pos (by simp [hf])

/-! ## The admissions of a hub cycle -/

theorem admitHeads_some {n : Nat} {m' : Mach} (h1 : m.admitOne h .absent = some (m', .absent)) :
    m.admitHeads h (n + 1) = m'.admitHeads h n := by
  rw [FetchOffer.absent] at h1
  rw [Mach.admitHeads, Mach.admitWith, h1]
  rfl

theorem admitHeads_none {n : Nat} (h1 : m.admitOne h .absent = none) : m.admitHeads h (n + 1) = m := by
  rw [FetchOffer.absent] at h1
  rw [Mach.admitHeads, Mach.admitWith, h1]

theorem answers_admit {m' : Mach} (hr : DataReady (.hubIngressAdmit ⟨h, false⟩) s) (hm : s.m.admitHeads h 4 = m') :
    Answers (.hubIngressAdmit ⟨h, false⟩) s m' :=
  answers_data hr rfl hm

theorem answers_hubStateBad (hr : DataReady (.hubIngressAdmit ⟨h, true⟩) s) (hf : (s.m.hub h).failed = false) :
    Answers (.hubIngressAdmit ⟨h, true⟩) s (s.m.chipFatal fcHubState) :=
  answers_data hr rfl (if_pos (by simp [hf]))

/-! ## Tokens (R202, R203) -/

/-- What a token of step 1 takes: one of the pitch's ceiling, one of its guarantee. -/
theorem takeToken_guaranteed : (m.takeToken h p 1).hub h =
    { m.hub h with
      ceil := tput (m.hub h).ceil {} p (tget (m.hub h).ceil {} p).take, admitted := (m.hub h).admitted + 1
      guar := tput (m.hub h).guar {} p (tget (m.hub h).guar {} p).take, rrPitch := p } := by
  simp only [Mach.takeToken, onHub_same, if_true]

/-- What a token of step 2 takes: one of the pitch's ceiling, one of the pool. -/
theorem takeToken_pool : (m.takeToken h p 2).hub h =
    { m.hub h with
      ceil := tput (m.hub h).ceil {} p (tget (m.hub h).ceil {} p).take, admitted := (m.hub h).admitted + 1
      pool := (m.hub h).pool.take } := by
  simp only [Mach.takeToken, onHub_same, show ¬ 2 = 1 by decide, if_false]

theorem takeToken_cycle {step : Nat} : (m.takeToken h p step).cycle = m.cycle := rfl

theorem takeToken_nextId {step : Nat} : (m.takeToken h p step).nextId = m.nextId := rfl

/-- A request admitted under step 1 is served as of the cycle and with the number that its admission found. -/
theorem admitReq_guaranteed : m.admitReq h p 1 q =
    ((((m.onPort h fun x => { x with ingress := x.ingress.filter fun y => y.id ≠ q.id }).takeToken h p 1).onHub h fun x =>
      { x with rrFn := tput x.rrFn 0 p (q.fn + 1) }).count (0x8400 + p) (if q.isWr then 4 else 3) 1).renumber.serve none
        { q with at_ := m.cycle, ord := m.nextId } := by
  simp only [Mach.admitReq, count_cycle, count_nextId, onHub_cycle, onHub_nextId, takeToken_cycle, takeToken_nextId, onPort_cycle,
    onPort_nextId]

/-- Settles O23: with no fetch offered every head is a request, so each clause is one admission followed by the three left. -/
theorem hubAdmitsByGuarantee : Obligations.HubAdmitsByGuarantee := by
  unfold Obligations.HubAdmitsByGuarantee
  refine ⟨?guaranteed, ?pool, ?full, fun h s => answers_hubStateBad, fun m h p q => admitReq_guaranteed, ?tokens⟩
  case guaranteed =>
    intro h p q s hr hf hn hi hp hq
    exact answers_admit hr (admitHeads_some (admitOne_guaranteed ⟨hf, hn, hi⟩ hp hq))
  case pool =>
    intro h p q counts s hr hf hn hi hg hw hq
    exact answers_admit hr (admitHeads_some (admitOne_pool ⟨hf, hn, hi⟩ hg hw hq))
  case full =>
    intro h s hr hf
    exact answers_admit hr (admitHeads_none (admitOne_full hf))
  case tokens =>
    intro m h p
    simp only [takeToken_guaranteed, takeToken_pool, tget_tput_same, Bucket.take, and_self]

end Sys2Proof.Machine
end

section
/-! PROOF. Priority levels and aged requests (R208, R209). -/

namespace Sys2Proof.Machine

variable {s : State} {m m' m'' : Mach} {r req p c : Nat} {w : Wait}

/-! ## Levels (R208) -/

theorem levelFor_low {a t : Nat} (h : 2 * a < t * 65536) : levelFor a t = 0 :=
  (if_neg (by omega)).trans (if_pos h)

theorem levelFor_high {a t : Nat} (ht : 0 < t) (h : t * 65536 ≤ a) : levelFor a t = 7 :=
  (if_neg (by omega)).trans ((if_neg (by omega)).trans (if_neg (by omega)))

/-- The level that the average of pitch `p`'s class `c` in region `r` gives against its target. -/
def Mach.levelDue (m : Mach) (r p c : Nat) : Nat :=
  levelFor (tget (m.region r).avg 0 (p * 3 + c)) (m.regN r (0x3000 + p) (tgtSub c))

/-- `m'` is `m` but for the levels of region `r`. -/
structure SameButLevels (r : Nat) (m m' : Mach) : Prop where
  rest : m' = { m with mem := { m.mem with regions := m'.mem.regions } }
  here : m'.region r = { m.region r with level := (m'.region r).level }
  others : ∀ q, q ≠ r → m'.region q = m.region q

theorem SameButLevels.refl (r : Nat) (m : Mach) : SameButLevels r m m := ⟨rfl, rfl, fun _ _ => rfl⟩

theorem SameButLevels.trans (h : SameButLevels r m m') (h' : SameButLevels r m' m'') : SameButLevels r m m'' where
  rest := by rw [h'.rest, h.rest]
  here := by rw [h'.here, h.here]
  others q hq := (h'.others q hq).trans (h.others q hq)

theorem sameButLevels_setLevel : SameButLevels r m (m.setLevel r p c) where
  rest := rfl
  here := by simp [Mach.setLevel]
  others _ hq := onRegion_other _ _ hq

theorem sameButLevels_each {α : Type} {f : Mach → α → Mach} (hf : ∀ m a, SameButLevels r m (f m a)) (l : List α) :
    ∀ m : Mach, SameButLevels r m (m.each l f) := by
  induction l with
  | nil => exact SameButLevels.refl r
  | cons a l ih => exact fun m => (hf m a).trans (ih (f m a))

theorem SameButLevels.levelDue (h : SameButLevels r m m') : m'.levelDue r p c = m.levelDue r p c := by
  rw [Mach.levelDue, Mach.levelDue, Mach.regN, Mach.regN, h.here, h.rest]

/-! ## Every pitch and class has its level set -/

/-- Pitch `p`'s class `c` has the level due to it. -/
def Mach.levelSet (m : Mach) (r p c : Nat) : Prop := tget (m.region r).level 0 (p * 3 + c) = m.levelDue r p c

theorem levelSet_setLevel : (m.setLevel r p c).levelSet r p c := by
  rw [Mach.levelSet, sameButLevels_setLevel.levelDue, Mach.setLevel, onRegion_same]
  exact tget_tput_same ..

/-- A level that is set stays set when another is. -/
theorem levelSet_keeps {p' c' : Nat} (hc : c < 3) (hc' : c' < 3) (h : m.levelSet r p c) : (m.setLevel r p' c').levelSet r p c := by
  by_cases he : p = p' ∧ c = c'
  · obtain ⟨rfl, rfl⟩ := he
    exact levelSet_setLevel
  · rw [Mach.levelSet, sameButLevels_setLevel.levelDue, Mach.setLevel, onRegion_same]
    exact (tget_tput_other _ _ _ (by omega)).trans h

/-- What every turn of a loop keeps holds at its end. -/
theorem each_keeps {α : Type} {P : Mach → Prop} {l : List α} {f : Mach → α → Mach} (hf : ∀ m, ∀ a ∈ l, P m → P (f m a)) (h : P m) :
    P (m.each l f) :=
  List.foldlRecOn (motive := P) l f h fun m hm a ha => hf m a ha hm

/-- What each turn of a loop establishes for its own element and keeps for the others holds of every element at the end. -/
theorem each_establishes {α : Type} {P : Mach → α → Prop} {f : Mach → α → Mach} (l : List α) (hset : ∀ m, ∀ a ∈ l, P (f m a) a)
    (hkeep : ∀ m, ∀ a ∈ l, ∀ b ∈ l, P m b → P (f m a) b) : ∀ m : Mach, ∀ a ∈ l, P (m.each l f) a := by
  induction l with
  | nil => exact fun _ _ ha => absurd ha List.not_mem_nil
  | cons x l ih =>
    intro m a ha
    rcases List.mem_cons.mp ha with rfl | ha
    · exact each_keeps (P := fun n => P n a) (l := l) (fun n b hb => hkeep n b (List.mem_cons_of_mem a hb) a List.mem_cons_self)
        (hset m a List.mem_cons_self)
    · exact ih (fun n b hb => hset n b (List.mem_cons_of_mem x hb))
        (fun n b hb d hd => hkeep n b (List.mem_cons_of_mem x hb) d (List.mem_cons_of_mem x hd)) (f m x) a ha

theorem sameButLevels_setLevels (m : Mach) (r p : Nat) : SameButLevels r m (m.setLevels r p) :=
  sameButLevels_each (fun _ _ => sameButLevels_setLevel) _ m

theorem levelSet_setLevels (hc : c < 3) : (m.setLevels r p).levelSet r p c :=
  each_establishes (P := fun m c => m.levelSet r p c) (List.range 3) (fun _ _ _ => levelSet_setLevel)
    (fun _ _ ha _ hb => levelSet_keeps (List.mem_range.mp hb) (List.mem_range.mp ha)) m c (List.mem_range.mpr hc)

theorem levelSet_setLevels_keeps {p' : Nat} (hc : c < 3) (h : m.levelSet r p c) : (m.setLevels r p').levelSet r p c :=
  each_keeps (P := fun m => m.levelSet r p c) (fun _ _ ha => levelSet_keeps hc (List.mem_range.mp ha)) h

/-- The machine with the levels of every pitch and class of region `r` set. -/
def Mach.setAllLevels (m : Mach) (r : Nat) : Mach := m.each (List.range 63) fun m i => m.setLevels r (i + 1)

theorem sameButLevels_setAllLevels (m : Mach) (r : Nat) : SameButLevels r m (m.setAllLevels r) :=
  sameButLevels_each (fun m i => sameButLevels_setLevels m r (i + 1)) _ m

theorem levelSet_setAllLevels (hp1 : 1 ≤ p) (hp : p < 64) (hc : c < 3) : (m.setAllLevels r).levelSet r p c := by
  obtain ⟨i, rfl⟩ : ∃ i, p = i + 1 := ⟨p - 1, by omega⟩
  exact each_establishes (P := fun m i => m.levelSet r (i + 1) c) (List.range 63) (fun _ _ _ => levelSet_setLevels hc)
    (fun _ _ _ _ _ => levelSet_setLevels_keeps hc) m i (List.mem_range.mpr (by omega))

theorem answers_priorityLevelUpdate (h : DataReady (.priorityLevelUpdate r) s) (hst : (s.m.region r).st = .serving)
    (ht : (s.m.region r).levelAt + 512 ≤ s.m.cycle) :
    Answers (.priorityLevelUpdate r) s ((s.m.setAllLevels r).onRegion r fun g =>
      { g with levelAt := g.levelAt + 512 * ((s.m.cycle - g.levelAt) / 512) }) :=
  answers_data h rfl (if_neg (by simp [hst, ht]))

/-! ## Aged requests (R209) -/

theorem answers_requestAgeEscalate (h : DataReady (.requestAgeEscalate r req) s)
    (hw : (s.m.mem.waits.find? fun w => w.req.id = req && w.region = r) = some w) (ht : w.req.at_ + us 64 ≤ s.m.cycle) :
    Answers (.requestAgeEscalate r req) s (s.m.onMem fun x =>
      { x with waits := lmod x.waits (fun y => y.req.id = req) fun y => { y with req := { y.req with aged := true } } }) := by
  refine answers_data h rfl ?_
  simp only [hw]
  exact if_neg (Nat.not_lt.mpr ht)

theorem levelOf_aged (h : w.req.aged = true) : m.levelOf w = 7 := if_pos (by simp [h])

/-- Settles O25. -/
theorem priorityLevels : Obligations.PriorityLevels := by
  unfold Obligations.PriorityLevels
  refine ⟨?levels, fun r req w s => answers_requestAgeEscalate, fun m w => levelOf_aged, fun a t => levelFor_low, fun a t => levelFor_high⟩
  intro r s hr hst ht
  have hs := sameButLevels_setAllLevels s.m r
  refine ⟨_, answers_priorityLevelUpdate hr hst ht, fun p c hp1 hp hc => ?set, ?here, fun q hq => ?others, ?rest⟩
  case set =>
    have hset : (s.m.setAllLevels r).levelSet r p c := levelSet_setAllLevels hp1 hp hc
    simp only [Mach.levelSet, hs.levelDue] at hset
    simp only [onRegion_same, hset, Mach.levelDue]
  case here => rw [onRegion_same, hs.here]
  case others => exact (onRegion_other _ _ hq).trans (hs.others q hq)
  case rest =>
    have hrest := hs.rest
    generalize s.m.setAllLevels r = m at hrest ⊢
    rw [hrest]
    rfl

end Sys2Proof.Machine
end

section
/-! PROOF. How a block grants (R206, R207, Table 01.5). -/

namespace Sys2Proof.Machine

variable {s : State} {m : Mach} {r b : Nat} {x y : Nat × Nat × Nat} {reqs : List (Nat × Nat × Nat)}

/-! ## The order in which a block grants (R207) -/

/-- Pitch and level of a request at a block. -/
def pitchLevel (x : Nat × Nat × Nat) : Nat × Nat := (x.1, x.2.1)

/-- At block `b` a request with pitch and level `x` ranks no higher than one with `y`: by level, then by its pitch's credit, then by its
pitch, of which the lower goes first. -/
def Mach.ranksUpTo (m : Mach) (r b : Nat) (x y : Nat × Nat) : Prop :=
  x.2 < y.2 ∨ x.2 = y.2 ∧ (m.credit r b x.1 < m.credit r b y.1 ∨ m.credit r b x.1 = m.credit r b y.1 ∧ y.1 ≤ x.1)

theorem ranksUpTo_refl (x : Nat × Nat) : m.ranksUpTo r b x x := .inr ⟨rfl, .inr ⟨rfl, Nat.le_refl _⟩⟩

theorem ranksUpTo_trans {x y z : Nat × Nat} (h : m.ranksUpTo r b x y) (h' : m.ranksUpTo r b y z) : m.ranksUpTo r b x z := by
  simp only [Mach.ranksUpTo] at h h' ⊢
  omega

/-- A fold that holds the greater of what it holds and each element ends with the greatest of all. -/
theorem pick_greatest {α : Type} {f : Option α → α → Option α} {R : α → α → Prop} (hrefl : ∀ x, R x x)
    (htrans : ∀ x y z, R x y → R y z → R x z) (hnone : ∀ x, f none x = some x)
    (hsome : ∀ y x, f (some y) x = some x ∧ R y x ∨ f (some y) x = some y ∧ R x y) (l : List α) :
    ∀ b x, l.foldl f b = some x → (∀ y, b = some y → R y x) ∧ ∀ y ∈ l, R y x := by
  induction l with
  | nil =>
    intro b x h
    refine ⟨fun y hy => ?_, fun _ hy => absurd hy List.not_mem_nil⟩
    cases hy.symm.trans h
    exact hrefl _
  | cons a l ih =>
    intro b x h
    obtain ⟨hheld, hrest⟩ := ih (f b a) x h
    have hboth : (∀ y, b = some y → R y x) ∧ R a x := by
      cases b with
      | none => exact ⟨nofun, hheld a (hnone a)⟩
      | some y =>
        rcases hsome y a with ⟨hf, hle⟩ | ⟨hf, hle⟩
        · exact ⟨fun _ hy => Option.some.inj hy ▸ htrans y a x hle (hheld a hf), hheld a hf⟩
        · exact ⟨fun _ hy => Option.some.inj hy ▸ hheld y hf, htrans a y x hle (hheld y hf)⟩
    refine ⟨hboth.1, fun y hy => ?_⟩
    rcases List.mem_cons.mp hy with rfl | hy
    · exact hboth.2
    · exact hrest y hy

/-- No request ranks above the one a block chooses. -/
theorem pickBy_greatest {α : Type} {prio : α → Nat × Nat} {l : List α} {x y : α} (h : m.pickBy r b prio l = some x) (hy : y ∈ l) :
    m.ranksUpTo r b (prio y) (prio x) := by
  refine (pick_greatest (R := fun y x => m.ranksUpTo r b (prio y) (prio x)) (fun x => ranksUpTo_refl _)
    (fun _ _ _ => ranksUpTo_trans) (fun _ => rfl) (fun y x => ?_) l none x h).2 y hy
  dsimp only
  split
  next hc =>
    simp only [Bool.or_eq_true, Bool.and_eq_true, decide_eq_true_eq] at hc
    refine .inl ⟨rfl, ?_⟩
    simp only [Mach.ranksUpTo]
    omega
  next hc =>
    simp only [Bool.or_eq_true, Bool.and_eq_true, decide_eq_true_eq] at hc
    refine .inr ⟨rfl, ?_⟩
    simp only [Mach.ranksUpTo]
    omega

/-! ## Refills and grants (R206) -/

/-- A pitch that requests and holds credit keeps the block from a refill. -/
theorem refillFor_held {ps : List Nat} (h : ∃ p ∈ ps, 0 < m.credit r b p) : m.refillFor r b ps = m := by
  obtain ⟨p, hp, hc⟩ := h
  refine if_neg fun hall => ?_
  obtain ⟨-, hall⟩ := (Bool.and_eq_true _ _).mp hall
  exact Int.not_le.mpr hc (of_decide_eq_true (List.all_eq_true.mp hall p hp))

theorem refillFor_spent {ps : List Nat} (hne : ps ≠ []) (h : ∀ p ∈ ps, m.credit r b p ≤ 0) : m.refillFor r b ps = m.refillBlock r b :=
  if_pos (by simpa [hne] using h)

/-- Of requests of pitches that exist a block grants its choice, taken after the refill that is due. -/
theorem grantBlock_picked {n : Mach} (hp : ∀ y ∈ reqs, y.1 < 64) (hn : m.refillFor r b (reqs.map (·.1)) = n)
    (hx : n.pickBy r b pitchLevel reqs = some x) :
    m.grantBlock r b reqs = (n.setCredit r b x.1 (n.credit r b x.1 - x.2.2)).send (.blockGrant r b x.1) := by
  have hall : reqs.filter (fun x => decide (x.1 < 64)) = reqs := List.filter_eq_self.mpr fun y hy => decide_eq_true (hp y hy)
  subst hn
  rw [Mach.grantBlock, hall]
  have hx' : (m.refillFor r b (reqs.map (·.1))).pickBy r b (fun x => (x.1, x.2.1)) reqs = some x := hx
  simp only [hx']
  rfl

theorem answers_blockGrant {t : BlockTurn} (h : DataReady (.blockGrant r b t) s) (hst : (s.m.region r).st = .serving)
    (hq : (s.m.region r).quar.getLsbD b = false) :
    Answers (.blockGrant r b t) s (if t.hdrBad then s.m.quarantine r b else s.m.grantBlock r b t.reqs) :=
  answers_data h rfl (if_pos (by simp [hst, hq]))

/-- Settles O28: a block's choice is a request that none ranks above (`pickBy_greatest`). -/
theorem blocksGrantByPriority : Obligations.BlocksGrantByPriority := by
  unfold Obligations.BlocksGrantByPriority
  refine ⟨?grants, fun r b reqs s => answers_blockGrant, fun m r b x reqs hx =>
    ⟨pickBy_mem hx, fun y hy => pickBy_greatest hx hy⟩⟩
  intro r b x reqs s h hst hq hp
  refine ⟨fun hc hx => ?held, fun hc hne hx => ?spent⟩
  case held =>
    have hn : s.m.refillFor r b (reqs.map (·.1)) = s.m := refillFor_held (by simpa using hc)
    exact grantBlock_picked hp hn hx ▸ answers_blockGrant h hst hq
  case spent =>
    have hn : s.m.refillFor r b (reqs.map (·.1)) = s.m.refillBlock r b := refillFor_spent (by simpa using hne) (by simpa using hc)
    exact grantBlock_picked hp hn hx ▸ answers_blockGrant h hst hq

end Sys2Proof.Machine
end

section
/-! PROOF. Wake requests, the leaks of outer buckets, derating, and the power cap (R211 to R213, R216, R294, R306). -/

namespace Sys2Proof.Machine

variable {s : State} {r pwr : Nat}

/-! ## Wake requests (R306) and bucket leaks (R294) -/

theorem answers_wake_tally (hst : (s.m.region r).st ≠ .fenced) (h : UnitReady (.wakeRequest (.tally r)) s) :
    Answers (.wakeRequest (.tally r)) s (s.m.onRegion r fun g => { g with tallyGated := false }) :=
  answers_unit h rfl (if_neg hst)

theorem answers_wake_lanes (hst : (s.m.region r).st ≠ .fenced) (h : UnitReady (.wakeRequest (.lanes r)) s) :
    Answers (.wakeRequest (.lanes r)) s (s.m.onRegion r fun g => { g with lanesGated := false }) :=
  answers_unit h rfl (if_neg hst)

/-- The settings of an outer bucket since its last leak. -/
def Mach.outerSet (m : Mach) (b : OuterBucket) : LbSet := tget m.code.lbOutSet {} ((outerKey b).1 * 64 + (outerKey b).2.1)

theorem answers_leak {b : OuterBucket} (h : UnitReady (.leakyBucketLeak b) s)
    (ht : (s.m.outerSet b).last + us (if (s.m.outerSet b).period = 0 then 1000 else (s.m.outerSet b).period) ≤ s.m.cycle) :
    Answers (.leakyBucketLeak b) s (s.m.onCode fun c =>
      { c.onOuter (outerKey b).1 fun t => tput t 0 (outerKey b).2.1 (tget t 0 (outerKey b).2.1 - 1) with
          lbOutSet := tput c.lbOutSet {} ((outerKey b).1 * 64 + (outerKey b).2.1)
            ⟨s.m.hubN (outerKey b).2.2 0x7100 1, s.m.hubN (outerKey b).2.2 0x7100 3, s.m.cycle⟩ }) :=
  answers_unit h rfl (if_neg (Nat.not_lt.mpr ht))

/-! ## Derating (R211 to R213) -/

theorem answers_derateApply (h : DataReady .derateApply s) (hs : s.m.sys.steward.isSome = true) : Answers .derateApply s s.m.derate :=
  answers_data h rfl (if_pos hs)

/-! ## The power cap (R216) -/

/-- The cap in tenths of a watt. -/
def Mach.powerCap (m : Mach) : Nat := 10 * m.cfgN 0x2000 2

/-- The machine with the window that has ended noted, its power `pwr`. -/
def Mach.windowRead (m : Mach) (pwr : Nat) : Mach :=
  m.onSys fun x => { x with pkgPwr := pwr, pcAt := x.pcAt + ms 1 * ((m.cycle - x.pcAt) / ms 1) }

/-- What a window over the cap does once it is noted: the next stage is tightened, or, with none left, the event is logged at most once
a second. -/
def Mach.overCap (m : Mach) (pwr : Nat) : Mach :=
  if m.sys.atLimit then
    (if (match m.sys.powerLimitAt with | some t => decide (m.cycle < t + ms 1000) | none => false) then m
    else (m.log 0x0503 0 0 0 [(32, pwr)]).onSys fun x => { x with powerLimitAt := some m.cycle })
  else m.onSys Sys.tighten

theorem overCap_tightens {m : Mach} (hl : m.sys.atLimit = false) : m.overCap pwr = m.onSys Sys.tighten :=
  if_neg (ne_true_of_eq_false hl)

theorem overCap_logs {m : Mach} (hl : m.sys.atLimit = true) (hn : m.sys.powerLimitAt = none) :
    m.overCap pwr = (m.log 0x0503 0 0 0 [(32, pwr)]).onSys fun x => { x with powerLimitAt := some m.cycle } := by
  rw [Mach.overCap, if_pos hl, hn]
  exact if_neg Bool.false_ne_true

section
variable (h : UnitReady (.powerCapWindow pwr) s) (ht : s.m.sys.pcAt + ms 1 ≤ s.m.cycle)
include h ht

theorem answers_window_over {m : Mach} (ho : s.m.powerCap < pwr) (hm : (s.m.windowRead pwr).overCap pwr = m) :
    Answers (.powerCapWindow pwr) s m :=
  answers_unit h rfl ((if_neg (Nat.not_lt.mpr ht)).trans ((if_pos ho).trans hm))

theorem answers_window_low (hle : pwr ≤ s.m.powerCap) (hl : pwr * 100 < s.m.powerCap * 98) :
    Answers (.powerCapWindow pwr) s ((s.m.windowRead pwr).onSys Sys.release) :=
  answers_unit h rfl ((if_neg (Nat.not_lt.mpr ht)).trans ((if_neg (Nat.not_lt.mpr hle)).trans (if_pos hl)))

theorem answers_window_between (hle : pwr ≤ s.m.powerCap) (hm : s.m.powerCap * 98 ≤ pwr * 100) :
    Answers (.powerCapWindow pwr) s (s.m.windowRead pwr) :=
  answers_unit h rfl ((if_neg (Nat.not_lt.mpr ht)).trans ((if_neg (Nat.not_lt.mpr hle)).trans (if_neg (Nat.not_lt.mpr hm))))

end

/-- Settles O29. -/
theorem gatingBucketsAndPower : Obligations.GatingBucketsAndPower := by
  unfold Obligations.GatingBucketsAndPower
  refine ⟨fun r s hst => ⟨answers_wake_tally hst, answers_wake_lanes hst⟩, fun b s => answers_leak, fun s => answers_derateApply, ?power⟩
  intro pwr s h ht cap read
  exact ⟨fun ho hl => answers_window_over h ht ho (overCap_tightens hl),
    fun ho hl hn => answers_window_over h ht ho (overCap_logs hl hn), answers_window_low h ht, answers_window_between h ht⟩

end Sys2Proof.Machine
end

section
/-! PROOF. Writes of objects that take effect at once (RW and W1C), and EQREAD (R213, R296, R310, R311, R342, R344). -/

namespace Sys2Proof.Machine

variable {s : State} {m : Mach} {h : MHdr} {o : Obj} {v : OVal} {i sub n k r p : Nat} {flashOk : Bool}

/-! ## The write of one object that takes effect at once (R323) -/

/-- An object of access `acc`, RW or W1C, that client `c` may write a value of `len` bytes to. -/
structure PlainObj (f : Fam) (c : Client) (i sub len : Nat) (o : Obj) : Prop where
  found : objAt f i sub = some o
  plain : o.acc = .rw ∨ o.acc = .w1c
  fits : o.lo ≤ len ∧ len ≤ o.hi
  single : i ≠ 0x3000 ∧ i ≠ 0x6050
  mayWrite : c.mayWrite i = true

/-- Noting a message leaves what its client may write. -/
theorem heard_mayWrite (m : Mach) (h : MHdr) (i : Nat) :
    ((heard m h).client h.client).mayWrite i = (m.client h.client).mayWrite i := by
  simp [heard, Mach.touch, Client.mayWrite]

theorem PlainObj.writeCheck {c : Client} (ho : PlainObj m.fam c i sub v.len o) : m.writeCheck c false ⟨i, sub, o.ty, v⟩ = 0 := by
  obtain ⟨hfound, hacc, ⟨hlo, hhi⟩, ⟨-, hi⟩, hw⟩ := ho
  have htype : ¬ (decide (o.ty ≠ o.ty) || decide (v.len < o.lo) || decide (o.hi < v.len)) = true := by
    simp [Nat.not_lt.mpr hlo, Nat.not_lt.mpr hhi]
  have hblock : ¬ (decide (i = 0x6050) && decide (sub = 1) && !false) = true := by simp [hi]
  have hauth : ¬ (!c.mayWrite i) = true := by simp [hw]
  simp only [Mach.writeCheck, hfound, if_neg hblock, if_neg htype, if_neg hauth]
  rcases hacc with hacc | hacc
  · simp only [hacc, reduceCtorEq, decide_false, Bool.or_self, Bool.false_eq_true, if_false]
  · simp only [hacc, reduceCtorEq, decide_false, Bool.or_self, Bool.false_eq_true, if_false]

/-- A WRITE of one such object that passes its checks applies it and answers OK. -/
theorem writeAll_plain {ty : Nat} {sec : Bool} {e : WEntry} (hacc : m.accOf e = some .rw ∨ m.accOf e = some .w1c)
    (hi : e.index ≠ 0x3000) (hc : m.writeCheck (m.client h.client) false e = 0) :
    m.writeAll h sec ty false flashOk [e] = (m.applyEntry h.client e).dictAnswer h sec (wReply ty false 0 [entryReply e 0]) := by
  have hcmd : m.accOf e ≠ some .cmd := by rcases hacc with hacc | hacc <;> rw [hacc] <;> nofun
  have hrws : m.accOf e ≠ some .rws := by rcases hacc with hacc | hacc <;> rw [hacc] <;> nofun
  simp [Mach.writeAll, Mach.writePlain, Mach.stages, Mach.when, Mach.each, hcmd, hrws, hi, hc]

/-- The write of such an object by a client whose message the dictionary takes up. -/
theorem put_plain (hs : Serves m h (m.client h.client).auth (.write [])) (ho : PlainObj m.fam (m.client h.client) i sub v.len o) :
    m.put h i sub v flashOk =
      ((heard m h).applyEntry h.client ⟨i, sub, o.ty, v⟩).dictAnswer h (m.client h.client).auth (wroteOne i sub) := by
  have hw : m.put h i sub v flashOk =
      (heard m h).writeAll h (m.client h.client).auth 0x03 false flashOk [⟨i, sub, o.ty, v⟩] := by
    rw [Mach.put, Mach.requestAs, ho.found, Option.elim_some]
    exact request_served (msg := .write _) hs nofun
  have hacc : (heard m h).accOf ⟨i, sub, o.ty, v⟩ = some o.acc := by rw [Mach.accOf, heard_fam, ho.found, Option.map_some]
  have hheard : PlainObj (heard m h).fam ((heard m h).client h.client) i sub v.len o :=
    { ho with mayWrite := (heard_mayWrite m h i).trans ho.mayWrite }
  rw [hw, writeAll_plain (hacc ▸ ho.plain.imp (congrArg some) (congrArg some)) ho.single.1 hheard.writeCheck]
  rfl

section
variable {c : Instr} {t : Mach} {len : Nat} (hs : Serves s.m h (s.m.client h.client).auth (.write [])) (hu : UnitReady c s)
  (he : exec c s = s.app (c.wf s.m.fam) (Mach.aliveRun fun m => m.put h i sub ⟨len, n⟩ true))
  (ho : PlainObj s.m.fam (s.m.client h.client) i sub len o) (hn : n < 256 ^ len)
include hs hu he ho hn

theorem answers_rw (hacc : o.acc = .rw) (ht : (heard s.m h).putRw h.client i sub n = t) :
    Answers c s (t.dictAnswer h (s.m.client h.client).auth (wroteOne i sub)) := by
  subst ht
  refine answers_unit hu he ((put_plain hs ho).trans ?_)
  simp only [Mach.applyEntry, Mach.accOf, heard_fam, ho.found, Option.map_some, hacc, normVal_of_lt (v := ⟨len, n⟩) hn]

theorem answers_w1c (hacc : o.acc = .w1c) (ht : (heard s.m h).clearW1c i sub n = t) :
    Answers c s (t.dictAnswer h (s.m.client h.client).auth (wroteOne i sub)) := by
  subst ht
  refine answers_unit hu he ((put_plain hs ho).trans ?_)
  simp only [Mach.applyEntry, Mach.accOf, heard_fam, ho.found, Option.map_some, hacc, normVal_of_lt (v := ⟨len, n⟩) hn]

end

/-! ## The flags (R213, R310, Tables 09.4, 11.5 and 15.8) -/

/-- The bits of a write of `n` to flag object `i`, `sub` that were not set in this hub cycle. -/
def Mach.clears (m : Mach) (i sub n : Nat) : Nat := (m.clearing (okey i sub) (BitVec.ofNat 64 n)).toNat

/-- DEFICIT is cleared while no derating stands. -/
theorem clearW1c_deficit (h0 : m.sys.sigmaH = []) (h1 : m.sys.sigmaT0 = []) (h2 : m.sys.sigmaT1 = [])
    (hb : m.clears 0x2000 0x04 n % 2 = 1) :
    m.clearW1c 0x2000 0x04 n = m.onSys fun x => { x with deficit := false } :=
  if_pos (by simpa [h0, h1, h2, Mach.clears] using hb)

theorem clearW1c_optevt (hk : k < 0x100) : m.clearW1c (0x5000 + k) sub n =
    m.onPort k fun p => { p with optevt := p.optevt &&& ~~~(BitVec.ofNat 4 (m.clears (0x5000 + k) sub n)) } := by
  simp only [Mach.clearW1c, areaOf_port hk, Nat.add_sub_cancel_left, Mach.clears]

theorem clearW1c_g7evt (hr : r < 0x100) : m.clearW1c (0x2200 + r) sub n =
    m.onDram fun d =>
      { d with
        g7evt := tput d.g7evt 0 r
          (BitVec.ofNat 32 (tget d.g7evt 0 r) &&& ~~~(BitVec.ofNat 32 (m.clears (0x2200 + r) sub n))).toNat } := by
  simp only [Mach.clearW1c, areaOf_region hr, Nat.add_sub_cancel_left, Mach.clears]

theorem objAt_alarmstat (f : Fam) : objAt f 0x6010 0x05 = oNum 4 .w1c 0 := by
  have := regions_le f
  have := hubs_le f
  simp (disch := omega) only [objAt, if_neg, if_pos]
  rfl

theorem clearW1c_alarmstat : m.clearW1c 0x6010 0x05 n =
    m.onSec fun x => { x with alarmstat := x.alarmstat &&& ~~~(BitVec.ofNat 4 (m.clears 0x6010 0x05 n)) } := rfl

/-! ## Counters and the injection (R296, R311, R344) -/

theorem areaOf_counter (hi : 0x8000 ≤ i) (hi' : i < 0x9000) : areaOf i = 12 := by
  simp (disch := omega) only [areaOf, if_neg, if_pos]

theorem putRw_counter {c : Nat} (hi : 0x8000 ≤ i) (hi' : i < 0x9000) : m.putRw c i sub n = m.setCount i sub n := by
  simp (disch := omega) only [Mach.putRw, if_neg]

theorem objAt_injarm (f : Fam) : objAt f 0x9010 0x01 = oNum 1 .rw 0 := by
  have := regions_le f
  have := hubs_le f
  simp (disch := omega) only [objAt, if_neg, if_pos]
  rfl

theorem putRw_injarm {c : Nat} : m.putRw c 0x9010 0x01 n =
    m.onCode fun x => { x with injArm := n = 1 && injMatches x.injKind (bits x.injTarget.toNat 31 28) } := rfl

/-! ## EQREAD (R342) -/

theorem areaOf_eventQueue (hp : p ≤ 63) : areaOf (0x7040 + p) = 11 := by simp (disch := omega) only [areaOf, if_neg, if_pos]

theorem objAt_eqread (f : Fam) (hp1 : 1 ≤ p) (hp : p ≤ 63) : objAt f (0x7040 + p) 1 = oDom 8 .ro 0 1280 0 := by
  have := regions_le f
  have := hubs_le f
  simp (disch := omega) only [objAt, if_neg, if_pos, if_true]

/-- EQREAD reads as the oldest 32 records of the pitch's queue, whoever reads it. -/
theorem valueOf_eqread {c : Client} (hp1 : 1 ≤ p) (hp : p ≤ 63) (hacc : o.acc = .ro) :
    m.valueOf c false (0x7040 + p) 1 o = some (recsVal ((tget m.ev.pq [] p).take 32)) := by
  have hq : (decide (0x7040 < 0x7040 + p) && decide (0x7040 + p < 0x7080)) = true := by simp; omega
  have hval : m.valEvents c (0x7040 + p) 1 = some (recsVal ((tget m.ev.pq [] (0x7040 + p - 0x7040)).take 32)) :=
    (if_neg (by omega)).trans (if_pos hq)
  have hlive : m.liveVal c (0x7040 + p) 1 = m.valEvents c (0x7040 + p) 1 := by
    simp only [Mach.liveVal, areaOf_eventQueue hp]
  have hdbg : ¬ (decide (0x7040 + p = 0x9001) && decide (1 = 2)) = true := by simp
  simp only [Mach.valueOf, hacc, if_neg hdbg, hlive, hval, Option.getD_some, Nat.add_sub_cancel_left]

theorem takeEvents_eqread (hp1 : 1 ≤ p) (hp : p ≤ 63) :
    m.takeEvents (0x7040 + p) 1 = m.onEv fun e => { e with pq := tput e.pq [] p ((tget e.pq [] p).drop 32) } := by
  have hq : isEqread (0x7040 + p) 1 = true := by simp [isEqread]; omega
  rw [Mach.takeEvents, if_pos hq, Nat.add_sub_cancel_left]

/-- The machine after its client has read EQREAD of pitch `p` up to 1,024 bytes, the records' value being `v`. -/
def Mach.eventsRead (m : Mach) (h : MHdr) (sec : Bool) (p : Nat) (v : OVal) : Mach :=
  let n := min 1024 v.len
  let more : Bool := decide (n < v.len)
  ((m.onEv fun e => { e with pq := tput e.pq [] p ((tget e.pq [] p).drop 32) }).onClient h.client fun y =>
    { y with rblock := if more then some (okey (0x7040 + p) 1, 8, v) else none }).dictAnswer h sec
      { ty := 0x04, more := more, body := .block (0x7040 + p) 1 8 v.len 0 n ⟨n, v.n % 256 ^ n⟩ }

theorem readBlock_eqread {sec : Bool} (hp1 : 1 ≤ p) (hp : p ≤ 63) :
    m.readBlock h sec false (0x7040 + p) 1 0 1024 = m.eventsRead h sec p (recsVal ((tget m.ev.pq [] p).take 32)) := by
  simp only [Mach.readBlock, objAt_eqread m.fam hp1 hp, oDom, valueOf_eqread hp1 hp, takeEvents_eqread hp1 hp, Mach.when, Mach.eventsRead]
  simp

theorem answers_eqread (hs : Serves s.m h (s.m.client h.client).auth (.write [])) (hu : UnitReady (.eqread h p) s)
    (hp1 : 1 ≤ p) (hp : p ≤ 63) (hv : 2 ≤ (s.m.client h.client).v) : Answers (.eqread h p) s
      ((heard s.m h).eventsRead h (s.m.client h.client).auth p (recsVal ((tget s.m.ev.pq [] p).take 32))) := by
  obtain ⟨hpath, hup, hinst, hlive, hsrc, hseq, hanswered, hver, -, hsecured, hauth⟩ := hs
  have hs' : Serves s.m h (s.m.client h.client).auth (.readBlock false (0x7040 + p) 1 0 1024) :=
    ⟨hpath, hup, hinst, hlive, hsrc, hseq, hanswered, hver, hv, hsecured, hauth⟩
  have hv1 : ¬ (s.m.client h.client).v = 1 := by omega
  refine answers_unit hu rfl ?_
  rw [if_neg hv1, Mach.requestAs, request_served hs' nofun]
  exact readBlock_eqread hp1 hp

/-- Settles O54: each write is one of an object that takes effect at once (`put_plain`), EQREAD a READ_BLOCK from offset 0. -/
theorem flagsAndCountersAreWritten : Obligations.FlagsAndCountersAreWritten := by
  unfold Obligations.FlagsAndCountersAreWritten
  intro h s hs m ok now
  have hh := hubs_le s.m.fam
  have hg := regions_le s.m.fam
  refine ⟨?deficit, ?optevt, ?g7evt, ?alarmstat, ?counter, ?injarm, fun p hu hp1 hp hv => answers_eqread hs hu hp1 hp hv⟩
  case deficit =>
    intro hu h0 h1 h2 hb
    exact answers_w1c hs hu rfl ⟨rfl, .inr rfl, ⟨Nat.le_refl 1, Nat.le_refl 1⟩, by decide, mayWrite_open _ rfl⟩ (by decide) rfl
      (clearW1c_deficit h0 h1 h2 hb)
  case optevt =>
    intro k n hu hk hn
    have hk' : k < 0x100 := Nat.lt_of_lt_of_le hk (Nat.le_trans hh (by decide))
    exact answers_w1c hs hu rfl ⟨objAt_port hk, .inr rfl, ⟨Nat.le_refl 4, Nat.le_refl 4⟩, by omega,
      mayWrite_open _ (areaOf_port hk' ▸ rfl)⟩ hn rfl (clearW1c_optevt hk')
  case g7evt =>
    intro r n hu hr hn
    have hr' : r < 0x100 := Nat.lt_of_lt_of_le hr (Nat.le_trans hg (by decide))
    exact answers_w1c hs hu rfl ⟨objAt_region hr, .inr rfl, ⟨Nat.le_refl 4, Nat.le_refl 4⟩, by omega,
      mayWrite_open _ (areaOf_region hr' ▸ rfl)⟩ hn rfl (clearW1c_g7evt hr')
  case alarmstat =>
    intro n hu hn hw
    exact answers_w1c hs hu rfl ⟨objAt_alarmstat _, .inr rfl, ⟨Nat.le_refl 4, Nat.le_refl 4⟩, by decide, hw⟩ hn rfl clearW1c_alarmstat
  case counter =>
    intro i sub n o hu hi hi' ho hacc hn hlo hhi
    exact answers_rw hs hu rfl ⟨ho, .inl hacc, ⟨hlo, hhi⟩, by omega, mayWrite_open _ (areaOf_counter hi hi' ▸ rfl)⟩ hn hacc
      (putRw_counter hi hi')
  case injarm =>
    intro n hn hu hw
    exact answers_rw hs hu rfl ⟨objAt_injarm _, .inl rfl, ⟨Nat.le_refl 1, Nat.le_refl 1⟩, by decide, hw⟩ (by omega) rfl putRw_injarm

end Sys2Proof.Machine
end

section
/-! PROOF. MemSpecRd, BIConflict and the messages a port does not support (R236, R237). -/

namespace Sys2Proof.Machine

variable {s : State} {m : Mach} {f opcode : Nat} {hpa : BitVec 64} {tag : HostTag} {isRead : Bool}

/-- MemSpecRd asks nothing of the machine: it goes on wherever its function exists. -/
theorem exec_memspecrd_discarded (hw : (Instr.memspecrd f hpa).wf s.m.fam = true) : exec (.memspecrd f hpa) s = .next s :=
  app_ok hw

theorem answers_biconflict (h : DataReady (.biconflict f hpa tag) s) (ho : s.m.memOpen (f / 16) = true) :
    Answers (.biconflict f hpa tag) s (s.m.send (.rsp f tag .biConflictAck)) :=
  answers_data h rfl ((if_pos ho).trans (portSend_mem _ ho))

/-- A read that the port does not support completes with poisoned data through a port that carries CXL.mem. -/
theorem portSend_poisoned (ho : m.memOpen (f / 16) = true) :
    (m.portSend (f / 16) (.rsp f tag (.memData 0 true))).portSend (f / 16) (.rsp f tag .cmp) =
      (m.send (.rsp f tag (.memData 0 true))).send (.rsp f tag .cmp) := by
  rw [portSend_mem _ ho, portSend_mem _ ((send_memOpen ..).trans ho)]

/-- An unsupported message of a function that has logged one in this millisecond is counted, and completed where it is a read. -/
theorem unsupported_logged (ho : m.memOpen (f / 16) = true) (hp : (m.fn f).protAt = some m.msec) :
    m.unsupported f opcode tag isRead =
      if isRead then ((m.count (0x8200 + f / 16) 7 1).send (.rsp f tag (.memData 0 true))).send (.rsp f tag .cmp)
      else m.count (0x8200 + f / 16) 7 1 := by
  have hclosed : ¬ (!m.memOpen (f / 16)) = true := by simp [ho]
  have hnotLogged : ¬ decide ((m.fn f).protAt ≠ some m.msec) = true := by simp [hp]
  have hcounted : m.unsupported f opcode tag isRead = (m.count (0x8200 + f / 16) 7 1).when isRead fun m =>
      (m.portSend (f / 16) (.rsp f tag (.memData 0 true))).portSend (f / 16) (.rsp f tag .cmp) :=
    (if_neg hclosed).trans (congrArg (fun n : Mach => n.when isRead _) (if_neg hnotLogged))
  rw [hcounted, Mach.when, portSend_poisoned ((count_memOpen ..).trans ho)]

/-- Settles O20. -/
theorem otherMemMessages : Obligations.OtherMemMessages := by
  unfold Obligations.OtherMemMessages
  exact ⟨fun f hpa s => exec_memspecrd_discarded, fun f tag hpa s => answers_biconflict,
    fun f opcode tag isRead s h ho hp => answers_data h rfl (unsupported_logged ho hp)⟩

end Sys2Proof.Machine
end

section
/-! PROOF. The FM-owned logical device and the DOE mailboxes (R231, R235, R244). -/

namespace Sys2Proof.Machine

variable {s : State} {m : Mach} {k code : Nat} {payload : List Byte} {mb : Mbx}

/-- With the link up an answer of the FM-owned logical device leaves at once. -/
theorem fmBox_up (hl : m.linkUp k = true) : m.fmBox k code payload = m.send (.fmMbox k code payload) := portSend_up _ hl rfl

/-- Requests reach a DOE mailbox only through a port whose link is up. -/
theorem doeOpen_linkUp (ho : m.doeOpen mb = true) : m.linkUp (mbxPort mb) = true := by
  cases mb with
  | fn f => exact (Bool.and_eq_true_iff.mp ho).1
  | fm k => exact ho

theorem portSend_doe (ho : m.doeOpen mb = true) : m.portSend (mbxPort mb) (.doe mb payload) = m.send (.doe mb payload) :=
  portSend_up _ (doeOpen_linkUp ho) rfl

/-- Settles O13. The codes and the payloads' numbers are the standards' of log entry 8. -/
theorem fabricManagerAndDoeAnswers : Obligations.FabricManagerAndDoeAnswers := by
  unfold Obligations.FabricManagerAndDoeAnswers
  refine ⟨fun k s hl => ⟨?info, ?identify, ?allocations, ?setAllocations⟩, fun mb s ho => ⟨fun index => ?discovery, ?cdat⟩⟩
  case info | identify | allocations | setAllocations => exact fun h => answers_data h rfl ((if_pos hl).trans (fmBox_up hl))
  case discovery | cdat => exact fun h => answers_data h rfl ((if_pos ho).trans (portSend_doe ho))

end Sys2Proof.Machine
end

section
/-! PROOF. Light and laser inputs: the 2 µs filters, loss and return (R224, R225, Table 09.6). -/

namespace Sys2Proof.Machine

variable {s : State} {m : Mach} {k i held n : Nat} {dbm limit : Int} {bits los : BitVec n} {lanes : BitVec 16} {waves : BitVec 4}

/-! ## What the filters let through -/

theorem filtered_iff : filtered held = true ↔ us 2 ≤ held := decide_eq_true_iff

/-- A loss is declared for a power that has held below its limit for 2 µs, where some of its bits are new. -/
theorem loss_declared (ht : us 2 ≤ held) (hd : dbm < limit) (hb : bits &&& ~~~los ≠ 0) :
    ¬ (decide (bits &&& ~~~los = 0) || !filtered held || decide (limit ≤ dbm)) = true := by
  rw [decide_eq_false hb, filtered_iff.mpr ht, decide_eq_false (Int.not_le.mpr hd)]
  exact Bool.false_ne_true

theorem loss_passed_over (h : held < us 2 ∨ limit ≤ dbm ∨ bits &&& ~~~los = 0) :
    (decide (bits &&& ~~~los = 0) || !filtered held || decide (limit ≤ dbm)) = true := by
  rcases h with ht | hd | hb
  · have hf : filtered held = false := Bool.eq_false_iff.mpr (mt filtered_iff.mp (Nat.not_le.mpr ht))
    simp [hf]
  · simp [hd]
  · simp [hb]

/-- A loss ends with a power that has held above its limit for 2 µs. -/
theorem return_declared_iff : (filtered held && decide (limit < dbm)) = true ↔ us 2 ≤ held ∧ limit < dbm := by
  simp [filtered_iff]

theorem return_passed_over (h : held < us 2 ∨ dbm ≤ limit) : ¬ (filtered held && decide (limit < dbm)) = true := fun hr =>
  have ⟨ht, hd⟩ := return_declared_iff.mp hr
  h.elim (Nat.not_lt.mpr ht) (Int.not_le.mpr hd)

/-! ## Light (R224) -/

/-- The powers of the lanes are read. -/
def Mach.readLight (m : Mach) (k : Nat) (lanes : BitVec 16) (dbm : Int) : Mach :=
  m.onPort k fun p => { p with rxIn := setReadings 16 p.rxIn lanes.toNat dbm }

@[simp] theorem readLight_rxlos : ((m.readLight k lanes dbm).port k).rxlos = (m.port k).rxlos := by simp [Mach.readLight]

/-- The lanes in loss of light are `los`: the loss is latched and logged, the port contained and its link taken to DETECT, unless it is
held down. -/
def Mach.loseLight (m : Mach) (k : Nat) (los : BitVec 16) : Mach :=
  ((((m.onPort k fun p => { p with rxlos := los }).optevt k 0).log 0x0403 0 3 k [(8, k), (16, los.toNat)]).contain k 2).onPort k
    fun p => if p.down then p else p.lose .detect

theorem answers_lossOfLight (h : UnitReady (.lossOfLight k lanes ⟨dbm, held⟩) s)
    (hm : (if decide (lanes &&& ~~~(s.m.port k).rxlos = 0) || !filtered held || decide (-1600 ≤ dbm) then s.m.readLight k lanes dbm
      else (s.m.readLight k lanes dbm).loseLight k ((s.m.port k).rxlos ||| lanes)) = m) :
    Answers (.lossOfLight k lanes ⟨dbm, held⟩) s m := by
  rw [← readLight_rxlos (lanes := lanes) (dbm := dbm)] at hm
  exact answers_unit h rfl hm

/-! ## Lasers (R225) -/

/-- The powers of the wavelengths `bits` are read. -/
def Mach.readLasers (m : Mach) (k : Nat) (bits : BitVec 8) (dbm : Int) : Mach :=
  m.onPort k fun p => { p with lasIn := setReadings 8 p.lasIn bits.toNat dbm }

@[simp] theorem readLasers_laslos {bits : BitVec 8} : ((m.readLasers k bits dbm).port k).laslos = (m.port k).laslos := by
  simp [Mach.readLasers]

/-- The wavelengths in loss are `los`: the loss is latched and logged, the port contained and its link taken to DETECT, unless it is held
down. -/
def Mach.loseLasers (m : Mach) (k : Nat) (los : BitVec 8) : Mach :=
  ((((m.onPort k fun p => { p with laslos := los }).optevt k 1).log 0x0404 0 3 k [(8, k), (8, los.toNat)]).contain k 3).onPort k
    fun p => if p.down then p else p.lose .detect

/-- The wavelengths `waves` of laser input `i` among those of the port. -/
def waveBits (i : Nat) (waves : BitVec 4) : BitVec 8 := waves.setWidth 8 <<< (4 * i)

theorem answers_laserLossDeclare (h : UnitReady (.laserLossDeclare k i waves ⟨dbm, held⟩) s)
    (hm : (if decide (waveBits i waves &&& ~~~(s.m.port k).laslos = 0) || !filtered held || decide (1200 ≤ dbm) then
        s.m.readLasers k (waveBits i waves) dbm
      else (s.m.readLasers k (waveBits i waves) dbm).loseLasers k ((s.m.port k).laslos ||| waveBits i waves)) = m) :
    Answers (.laserLossDeclare k i waves ⟨dbm, held⟩) s m := by
  rw [← readLasers_laslos (bits := waveBits i waves) (dbm := dbm)] at hm
  exact answers_unit h rfl hm

/-- Settles O7. -/
theorem lightAndLaserReports : Obligations.LightAndLaserReports := by
  unfold Obligations.LightAndLaserReports
  refine ⟨?light, ?laser⟩
  case light =>
    intro k lanes dbm held s read los
    refine ⟨fun h => ⟨fun ht hd => ?back, fun hno => ?low⟩, fun h => ⟨fun ht hd hb => ?lost, fun hno => ?kept⟩⟩
    case back => exact answers_unit h rfl (onPort_congr _ (if_pos (return_declared_iff.mpr ⟨ht, hd⟩)))
    case low => exact answers_unit h rfl (onPort_congr _ (if_neg (return_passed_over hno)))
    case lost => exact answers_lossOfLight h (if_neg (loss_declared ht hd hb))
    case kept => exact answers_lossOfLight h (if_pos (loss_passed_over hno))
  case laser =>
    intro k i waves dbm held s read bit los
    refine ⟨fun h => ⟨fun ht hd => ?back, fun hno => ?low⟩, fun h => ⟨fun ht hd hb => ?lost, fun hno => ?kept⟩⟩
    case back => exact answers_unit h rfl (onPort_congr _ (if_pos (return_declared_iff.mpr ⟨ht, hd⟩)))
    case low => exact answers_unit h rfl (onPort_congr _ (if_neg (return_passed_over hno)))
    case lost => exact answers_laserLossDeclare h (if_neg (loss_declared ht hd hb))
    case kept => exact answers_laserLossDeclare h (if_pos (loss_passed_over hno))

end Sys2Proof.Machine
end

section
/-! PROOF. The outcome of a link training, and the retraining timer (R220, R227). -/

namespace Sys2Proof.Machine

variable {s : State} {m : Mach} {k map due : Nat} {t : TrainIn} {p : Port}

/-! ## When a training runs, and what it reaches -/

/-- No training runs: the link may not train, is down, is in loss of light, is in L0 or RECOVERY, or waits to retrain. -/
def Port.noTraining (p : Port) : Bool :=
  !p.training || p.down || p.rxlos ≠ 0 || p.lt = .l0 || p.lt = .recovery || p.retrainAt.isSome

theorem noTraining_iff : p.noTraining = true ↔
    p.training = false ∨ p.down = true ∨ p.rxlos ≠ 0 ∨ p.lt = .l0 ∨ p.lt = .recovery ∨ p.retrainAt ≠ none := by
  simp [Port.noTraining, or_assoc, Option.isSome_iff_ne_none]

theorem trainRev_iff : trainRev t = true ↔ t.lanes = (List.range 16).reverse := decide_eq_true_iff

/-- The lanes come in an order that training cannot use. -/
theorem trainBad_iff : trainBad t = true ↔ t.lanes ≠ List.range 16 ∧ t.lanes ≠ (List.range 16).reverse := by
  rw [trainBad, Bool.and_eq_true_iff, decide_eq_true_iff, Bool.not_eq_true', ← Bool.not_eq_true, trainRev_iff]

theorem not_trainBad_iff : ¬ trainBad t = true ↔ t.lanes = List.range 16 ∨ t.lanes = (List.range 16).reverse := by
  rw [trainBad_iff, Classical.not_and_iff_not_or_not, Classical.not_not, Classical.not_not]

/-- What an attempt must reach. -/
theorem trained_iff : m.trained k map t = true ↔
    t.rate = 128 ∧ t.width = 16 ∧ t.flit = true ∧ t.cxlMem = true ∧ t.pbr = true ∧ t.map = map ∧ trainBad t = false ∧
      (m.port k).laslos = 0 := by
  simp [Mach.trained, and_assoc]

/-! ## The outcomes (R227; that the loss of a laser fails the training, and that lanes in a bad order log that alone, is log entry 62) -/

/-- The link trained: it is READY and enters L0, its lanes renumbered if they came reversed. -/
def Mach.trainedUp (m : Mach) (k map : Nat) (t : TrainIn) : Mach :=
  (m.onPort k fun p =>
    { p with rate := 128, width := 16, flit := true, ready := true, rev := trainRev t, map := map, pid := t.pid
             hotReset := false }).enterL0 k

/-- The link waits in DETECT and retrains 10 ms later. -/
def Mach.trainFailed (m : Mach) (k map : Nat) : Mach :=
  m.onPort k fun p => { p.lose .detect with map := map, retrainAt := some (m.cycle + ms 10), hotReset := false }

/-- The fault of a failed training is logged and latched. -/
def Mach.trainFault (m : Mach) (k : Nat) (t : TrainIn) : Mach :=
  if trainBad t then (m.log 0x0406 0 3 k [(8, k)]).optevt k 2
  else (m.log 0x0407 0 3 k [(8, k), (8, t.rate), (8, t.width)]).optevt k 3

theorem answers_noTraining (h : UnitReady (.linkTraining k t) s) (hn : (s.m.port k).noTraining = true) :
    Answers (.linkTraining k t) s s.m :=
  answers_unit h rfl (if_pos hn)

theorem answers_trained (h : UnitReady (.linkTraining k t) s) (hn : ¬ (s.m.port k).noTraining = true)
    (ht : s.m.trained k (s.m.hubN k (0x5000 + k) 0x20) t = true) :
    Answers (.linkTraining k t) s (s.m.trainedUp k (s.m.hubN k (0x5000 + k) 0x20) t) :=
  answers_unit h rfl ((if_neg hn).trans (if_pos ht))

theorem answers_trainFailed (h : UnitReady (.linkTraining k t) s) (hn : ¬ (s.m.port k).noTraining = true)
    (ht : ¬ s.m.trained k (s.m.hubN k (0x5000 + k) 0x20) t = true)
    (hm : (s.m.trainFailed k (s.m.hubN k (0x5000 + k) 0x20)).trainFault k t = m) :
    Answers (.linkTraining k t) s (if (s.m.port k).hotReset then m.contain k 5 else m) :=
  hm ▸ answers_unit h rfl ((if_neg hn).trans (if_neg ht))

/-! ## The retraining timer (R227) -/

/-- A link that may train and has light on every lane trains once no retraining is waited for. -/
theorem settle_trains (hd : p.down = false) (hl : p.rxlos = 0) (ht : p.training = true) :
    Port.settle { p with retrainAt := none } = { p with retrainAt := none, lt := if p.lt = .detect then .polling else p.lt } := by
  by_cases hlt : p.lt = .detect <;> simp [Port.settle, hlt, hd, hl, ht]

theorem settle_dark (hl : p.rxlos ≠ 0) : p.settle = p := by
  refine if_neg fun h => ?_
  simp only [Bool.and_eq_true, decide_eq_true_eq] at h
  obtain ⟨⟨-, hlit⟩, -⟩ := h
  exact hl hlit

theorem answers_retrainTimer (h : UnitReady (.retrainTimer k) s) (hr : (s.m.port k).retrainAt = some due) (hdue : due ≤ s.m.cycle)
    (hd : (s.m.port k).down = false) {f : Port → Port} (hf : Port.settle { s.m.port k with retrainAt := none } = f (s.m.port k)) :
    Answers (.retrainTimer k) s (s.m.onPort k f) := by
  refine answers_unit h rfl ?_
  simp only [hr]
  exact (if_pos (by simp [hdue, hd])).trans (onPort_congr _ hf)

/-- Settles O8. That the loss of a laser fails the training, and that lanes in a bad order log LANE_ORDER alone, is log entry 62. -/
theorem linkTrains : Obligations.LinkTrains := by
  unfold Obligations.LinkTrains
  refine ⟨?trains, fun k t s h hn => answers_noTraining h (noTraining_iff.mpr hn), ?timer⟩
  case trains =>
    intro k t s h htr hdown hlos hl0 hrec hat map inOrder turned failed ended
    have hn : ¬ (s.m.port k).noTraining = true := by simp [noTraining_iff, htr, hdown, hlos, hl0, hrec, hat]
    refine ⟨?up, ?order, ?short⟩
    case up =>
      intro hrate hwidth hflit hmem hpbr hmap hlanes hlas
      have hbad : trainBad t = false := Bool.eq_false_iff.mpr (not_trainBad_iff.mpr hlanes)
      exact answers_trained h hn (trained_iff.mpr ⟨hrate, hwidth, hflit, hmem, hpbr, hmap, hbad, hlas⟩)
    case order =>
      intro ho hr
      have hbad : trainBad t = true := trainBad_iff.mpr ⟨ho, hr⟩
      exact answers_trainFailed h hn (by simp [trained_iff, hbad]) (if_pos hbad)
    case short =>
      intro hlanes hfault
      refine answers_trainFailed h hn (fun ht => ?_) (if_neg (not_trainBad_iff.mpr hlanes))
      obtain ⟨hrate, hwidth, hflit, hmem, hpbr, hmap, -, hlas⟩ := trained_iff.mp ht
      exact absurd hfault (by simp [hrate, hwidth, hflit, hmem, hpbr, show t.map = map from hmap, hlas])
  case timer =>
    intro k due s h hr hdue hd
    exact ⟨fun hl ht => answers_retrainTimer h hr hdue hd (settle_trains hd hl ht),
      fun hl => answers_retrainTimer h hr hdue hd (settle_dark hl)⟩

end Sys2Proof.Machine
end

section
/-! PROOF. Flits, recovery, a link that leaves L0, IDE failures and hot resets (R228, R229, R234, R260). -/

namespace Sys2Proof.Machine

variable {s : State} {m : Mach} {k corrected rate width stream : Nat} {crcOk l0 : Bool}

/-! ## Flits (R228; the severity of the report is log entry 8) -/

theorem answers_flitReceive (h : UnitReady (.flitReceive k corrected crcOk) s) (hl : (s.m.port k).lt = .l0)
    (hm : (if crcOk then (s.m.fillOuter 2 k corrected).onPort k fun p => { p with replays := 0 }
      else (((s.m.fillOuter 2 k corrected).count (0x8200 + k) 5 1).onPort k fun p => { p with replays := p.replays + 1 }).aer k 0) = m) :
    Answers (.flitReceive k corrected crcOk) s m :=
  answers_unit h rfl ((if_neg (not_not_intro hl)).trans hm)

/-! ## Recovery (R229; the count of five is log entry 62) -/

theorem answers_linkRecoveryEntry (h : UnitReady (.linkRecoveryEntry k) s) (hl : (s.m.port k).lt = .l0) (hr : 5 ≤ (s.m.port k).replays) :
    Answers (.linkRecoveryEntry k) s
      (((s.m.onPort k fun p => { p with lt := .recovery, replays := 0 }).log 0x0401 0 3 k [(8, k)]).aer k 0) :=
  answers_unit h rfl (if_pos (by simp [hl, hr]))

theorem answers_recoveryExit (h : UnitReady (.recoveryExit k rate width l0) s) (hl : (s.m.port k).lt = .recovery)
    (hm : (if l0 && decide (rate = 128) && decide (width = 16) then s.m.enterL0 k else s.m.linkDown k .detect) = m) :
    Answers (.recoveryExit k rate width l0) s m :=
  answers_unit h rfl ((if_neg (not_not_intro hl)).trans hm)

/-- Settles O9. The entry to RECOVERY at five counted replays is log entry 62, the reports' severity log entry 8. -/
theorem flitsAndLinkEvents : Obligations.FlitsAndLinkEvents := by
  unfold Obligations.FlitsAndLinkEvents
  refine ⟨?good, ?bad, fun k s => answers_linkRecoveryEntry, ?back, ?down, ?leaves⟩
  case good | bad => exact fun k corrected s h hl => answers_flitReceive h hl rfl
  case back => exact fun k s h hl => answers_recoveryExit h hl rfl
  case down =>
    intro k rate width l0 s h hl hno
    exact answers_recoveryExit h hl (if_neg (by rcases hno with hno | hno | hno <;> simp [hno]))
  case leaves => exact fun k disabled s h hl => answers_unit h rfl (if_pos hl)

/-! ## IDE failures (R234) -/

/-- The stream of number `stream` of a port is established: 0 is CXL.mem's, 1 the selective one. -/
def Port.ideUp (p : Port) (stream : Nat) : Bool := (if stream = 0 then p.ideMem.active else p.ideSel.active).isSome

theorem answers_ideIntegrityFail (h : UnitReady (.ideIntegrityFail k stream) s) (hl : (s.m.port k).lt = .l0)
    (hu : (s.m.port k).ideUp stream = true) :
    Answers (.ideIntegrityFail k stream) s
      (((s.m.log 0x0405 0 3 k [(8, k), (8, stream)]).contain k 4).onPort k fun p => { p with ideMem := {}, ideSel := {} }) :=
  answers_unit h rfl (if_pos (Bool.and_eq_true_iff.mpr ⟨decide_eq_true hl, hu⟩))

/-! ## Hot resets (R260) -/

/-- An event leaves the configuration as it is. -/
@[simp] theorem record_fam (m : Mach) (e : EvRec) : (m.record e).fam = m.fam := by
  simp only [Mach.record, Mach.when, onDict_fam, onEv_fam]
  split <;> rfl

@[simp] theorem log_fam (m : Mach) (code pitch kind num : Nat) (data : List (Nat × Nat)) :
    (m.log code pitch kind num data).fam = m.fam := by
  simp only [Mach.log, Mach.logSev]
  split
  · exact record_fam ..
  · split <;> rfl

/-- A hot reset has been logged, and the port's IDE streams have ended. -/
def Mach.hotResetNoted (m : Mach) (k : Nat) : Mach :=
  (m.log 0x0408 0 3 k [(8, k)]).onPort k fun p => { p with ideMem := {}, ideSel := {} }

theorem hotResetNoted_fam : (m.hotResetNoted k).fam = m.fam := log_fam ..

theorem answers_hotReset (h : UnitReady (.hotReset k) s) (hl : (s.m.port k).lt = .l0 ∨ (s.m.port k).lt = .recovery)
    (hm : (if hasFlr s.m.fam then (s.m.hotResetNoted k).each (portFns k) fun m f => m.flr f else s.m.hotResetNoted k) = m) :
    Answers (.hotReset k) s (m.onPort k fun p => { p.lose .polling with hotReset := true }) := by
  rw [← hotResetNoted_fam (m := s.m) (k := k)] at hm
  have hin : ¬ (decide ((s.m.port k).lt ≠ .l0) && decide ((s.m.port k).lt ≠ .recovery)) = true := by
    rcases hl with hl | hl <;> simp [hl]
  exact hm ▸ answers_unit h rfl (if_neg hin)

/-- Settles O10. -/
theorem ideFailureAndHotReset : Obligations.IdeFailureAndHotReset := by
  unfold Obligations.IdeFailureAndHotReset
  refine ⟨fun k s => answers_ideIntegrityFail, fun k s => answers_ideIntegrityFail, fun k s h hl => ?hot⟩
  case hot => exact ⟨fun hf => answers_hotReset h hl (if_neg (ne_true_of_eq_false hf)), fun hf => answers_hotReset h hl (if_pos hf)⟩

end Sys2Proof.Machine
end

section
/-! PROOF. The memory-device mailbox (R242, R342). -/

namespace Sys2Proof.Machine

variable {c : Instr} {s : State} {m : Mach} {f code : Nat} {payload : List Byte} {g : Mach → Mach}

/-- A mailbox answer has left, and MBOX is set and latched. -/
def Mach.mboxAnswered (m : Mach) (f code : Nat) (payload : List Byte) : Mach :=
  ((m.send (.mbox f code payload)).onFn f fun x => { x with mbox := true }).latch (intKey f) 0x40

/-- With the link up a mailbox answer leaves at once. -/
theorem mbox_up (hl : m.linkUp (f / 16) = true) : m.mbox f code payload = m.mboxAnswered f code payload := by
  rw [Mach.mbox, portSend_up _ hl rfl, Mach.mboxAnswered]

/-- A mailbox command of a function whose BAR is open changes the machine to `m`, the link as it was, and answers there. -/
theorem answers_mbox (h : DataReady c s) (ho : s.m.barOpen f = true)
    (he : exec c s = s.app (c.wf s.m.fam) (Mach.dataRun fun n => n.mboxOpen f g)) (hg : g s.m = m.mbox f code payload)
    (hl : m.linkUp (f / 16) = s.m.linkUp (f / 16)) : Answers c s (m.mboxAnswered f code payload) :=
  answers_data h he ((if_pos ho).trans (hg.trans (mbox_up (hl.trans (barOpen_linkUp ho)))))

/-- Settles O12. The return codes and payloads are log entry 8's; that only the Command Effects Log is answered, and every opcode without a
command of its own is Unsupported, is log entry 74. -/
theorem mailboxAnswers : Obligations.MailboxAnswers := by
  unfold Obligations.MailboxAnswers
  intro f s ho answered
  refine ⟨?identify, ?logs, ?effects, ?otherLog, ?capacity, ?vendor, ?clearCapacity, ?clearVendor, ?policy, ?setPolicy, ?region, ?extents,
    ?unsupported⟩
  case identify | logs | effects | otherLog | capacity | vendor | policy | region | extents => exact fun h => answers_mbox h ho rfl rfl rfl
  case clearCapacity | clearVendor => exact fun n h => answers_mbox h ho rfl rfl rfl
  case setPolicy | unsupported => exact fun v h => answers_mbox h ho rfl rfl rfl

end Sys2Proof.Machine
end

section
/-! PROOF. Command bits, HDM decoders, Interrupt Line and BARs (R241, R248, R410, Table 10.1). -/

namespace Sys2Proof.Machine

variable {s : State} {m : Mach} {f i ways : Nat} {b : Bool} {base size skip v : BitVec 64}

/-! ## Configuration space (R248, R410; the BARs' low bits are log entry 50) -/

theorem answers_busMasterEnable (h : DataReady (.busMasterEnable f b) s) (ho : s.m.cfgOpen f = true)
    (hm : ((s.m.onFn f fun x => x.setCommand 2 b).when b fun m => m.busOn f) = m) : Answers (.busMasterEnable f b) s m :=
  answers_data h rfl ((if_pos ho).trans hm)

theorem answers_interruptDisable (h : DataReady (.interruptDisable f b) s) (ho : s.m.cfgOpen f = true) :
    Answers (.interruptDisable f b) s (s.m.onFn f fun x => x.setCommand 10 b) :=
  answers_data h rfl (if_pos ho)

theorem answers_configWrite {off : Nat} (h : DataReady (.registerWrite (.config f off) v) s) (ho : s.m.cfgOpen f = true)
    (hm : s.m.writeConfig f off v = m) : Answers (.registerWrite (.config f off) v) s m := by
  obtain ⟨hw, hu⟩ := h
  exact answers_unit ⟨hw, up_alive _ hu⟩ rfl ((if_pos (by simp [hu, ho])).trans hm)

/-! ## HDM decoders (R241; a refused commit is log entry 73) -/

theorem decoderOk_iff : decoderOk base size ways = true ↔ ways = 1 ∧ base.toNat % 2 ^ 28 = 0 ∧ size.toNat % 2 ^ 28 = 0 := by
  simp [decoderOk, and_assoc]

theorem not_decoderOk_iff : ¬ decoderOk base size ways = true ↔ ways ≠ 1 ∨ base.toNat % 2 ^ 28 ≠ 0 ∨ size.toNat % 2 ^ 28 ≠ 0 := by
  rw [decoderOk_iff, Classical.not_and_iff_not_or_not, Classical.not_and_iff_not_or_not]

/-- What a commit leaves of the decoder `old`. -/
def Decoder.commit (old : Decoder) (base size skip : BitVec 64) (ways : Nat) : Decoder :=
  if decoderOk base size ways then ⟨true, false, base.toNat, size.toNat, skip.toNat⟩ else { old with committed := false, error := true }

theorem commit_accepted {old : Decoder} (hw : ways = 1) (hb : base.toNat % 2 ^ 28 = 0) (hs : size.toNat % 2 ^ 28 = 0) :
    old.commit base size skip ways = ⟨true, false, base.toNat, size.toNat, skip.toNat⟩ :=
  if_pos (decoderOk_iff.mpr ⟨hw, hb, hs⟩)

theorem commit_refused {old : Decoder} (h : ways ≠ 1 ∨ base.toNat % 2 ^ 28 ≠ 0 ∨ size.toNat % 2 ^ 28 ≠ 0) :
    old.commit base size skip ways = { old with committed := false, error := true } :=
  if_neg (not_decoderOk_iff.mpr h)

theorem answers_commit_dec0 (h : DataReady (.hdmDecoderCommit f 0 base size skip ways) s) (ho : s.m.barOpen f = true) :
    Answers (.hdmDecoderCommit f 0 base size skip ways) s (s.m.onFn f fun x => { x with dec0 := x.dec0.commit base size skip ways }) :=
  answers_data h rfl (if_neg (by simp [ho]))

theorem answers_commit_dec1 (h : DataReady (.hdmDecoderCommit f 1 base size skip ways) s) (ho : s.m.barOpen f = true) :
    Answers (.hdmDecoderCommit f 1 base size skip ways) s (s.m.onFn f fun x => { x with dec1 := x.dec1.commit base size skip ways }) :=
  answers_data h rfl (if_neg (by simp [ho]))

/-- Settles O16. That a refused commit leaves the decoder uncommitted is log entry 73, the BAR's low bits are log entry 50. -/
theorem functionRegistersTakeWrites : Obligations.FunctionRegistersTakeWrites := by
  unfold Obligations.FunctionRegistersTakeWrites
  refine ⟨fun f s ho => ⟨?busOn, ?busOff, ?disable, ?enable, ?line, ?low, ?high⟩,
    fun f base size skip ways s ho => ⟨?first, ?second, ?refused⟩⟩
  case busOn | busOff => exact fun h => answers_busMasterEnable h ho rfl
  case disable | enable => exact fun h => answers_interruptDisable h ho
  case line | low | high => exact fun v h => answers_configWrite h ho rfl
  case first =>
    intro h hw hb hs
    simpa only [commit_accepted hw hb hs] using answers_commit_dec0 h ho
  case second =>
    intro h hw hb hs
    simpa only [commit_accepted hw hb hs] using answers_commit_dec1 h ho
  case refused =>
    intro h hbad
    simpa only [commit_refused hbad] using answers_commit_dec0 h ho

end Sys2Proof.Machine
end

section
/-! PROOF. Completions, timeouts and tags of the part's own reads and writes (R249 to R251). -/

namespace Sys2Proof.Machine

variable {s : State} {m : Mach} {k tag off id : Nat} {st : CplStatus} {words : List RWord} {t : RTag} {w : WTrk}

/-! ## Completions of reads (R250) -/

theorem pastDeadline_inTime (ht : m.tagAt k tag = some t) (hd : m.cycle ≤ t.deadline) : m.pastDeadline k tag = m := by
  simp [Mach.pastDeadline, ht, Nat.not_lt.mpr hd]

theorem pastDeadline_free (ht : m.tagAt k tag = none) : m.pastDeadline k tag = m := by simp [Mach.pastDeadline, ht]

/-- A read with the words of one more completion. -/
def RTag.laid (t : RTag) (off : Nat) (words : List RWord) : RTag := { t with words := layWords t.words t.n off words }

theorem answers_readData (h : DataReady (.readCompletion k tag .success off words) s) (ho : s.m.memOpen k = true)
    (ht : s.m.tagAt k tag = some t) (hq : t.quar = false) (hd : s.m.cycle ≤ t.deadline)
    (hm : (if t.n ≤ (t.laid off words).words.length then ((s.m.freeTag k tag).readEnd (t.laid off words)).tagBack k tag
      else s.m.onTag k tag fun _ => t.laid off words) = m) : Answers (.readCompletion k tag .success off words) s m := by
  refine answers_data h rfl ((if_neg (by simp [ho])).trans ?_)
  simp only [pastDeadline_inTime ht hd, ht]
  exact (if_neg (ne_true_of_eq_false hq)).trans hm

/-- Reporting an error through a port whose link is up leaves the ports and the time as they are. -/
theorem port_aer (hl : m.linkUp k = true) (sev : Nat) : (m.aer k sev).port k = m.port k := by rw [aer_up sev hl]; rfl

theorem msec_aer (hl : m.linkUp k = true) (sev : Nat) : (m.aer k sev).msec = m.msec := by rw [aer_up sev hl]; rfl

/-- A completion that names no read is counted and reported, and not logged a second time within its millisecond. -/
theorem strayCpl_logged (hl : m.linkUp k = true) (hu : (m.port k).unexpAt = some m.msec) :
    m.strayCpl k tag = (m.count (0x8200 + k) 6 1).aer k 0 := by
  have hl' : (m.count (0x8200 + k) 6 1).linkUp k = true := (count_linkUp ..).trans hl
  refine if_pos ?_
  rw [port_aer hl', msec_aer hl']
  exact hu

theorem answers_strayCompletion (h : DataReady (.readCompletion k tag st off words) s) (ho : s.m.memOpen k = true)
    (ht : s.m.tagAt k tag = none) (hu : (s.m.port k).unexpAt = some s.m.msec) :
    Answers (.readCompletion k tag st off words) s ((s.m.count (0x8200 + k) 6 1).aer k 0) := by
  refine answers_data h rfl ((if_neg (by simp [ho])).trans ?_)
  simp only [pastDeadline_free ht, ht]
  exact strayCpl_logged (memOpen_linkUp ho) hu

/-! ## Timeouts and quarantines of reads (R250) -/

theorem answers_completionTimeout (h : DataReady (.completionTimeout k tag) s) (ht : s.m.tagAt k tag = some t) (hq : t.quar = false)
    (hd : t.deadline < s.m.cycle) : Answers (.completionTimeout k tag) s ((s.m.aer k 1).readLate t) := by
  refine answers_data h rfl ?_
  simp only [ht]
  exact if_neg (by simp [hq, hd])

theorem answers_tagQuarantineEnd (h : DataReady (.tagQuarantineEnd k tag) s) (ht : s.m.tagAt k tag = some t) (hq : t.quar = true)
    (hd : t.issue + 2 * t.cplto ≤ s.m.cycle) (hn : s.m.normal k = true) : Answers (.tagQuarantineEnd k tag) s (s.m.tagBack k tag) := by
  refine answers_data h rfl ?_
  simp only [ht]
  exact if_pos (by simp [hq, hd, hn])

/-! ## Writes (R251) -/

theorem answers_writeInTime (h : DataReady (.writeCompletion k id st) s) (ho : s.m.memOpen k = true) (hw : s.m.writeAt k id = some w)
    (hd : s.m.cycle ≤ w.deadline) :
    Answers (.writeCompletion k id st) s (((s.m.writeGone k id).writeEnd k w.owner (st = .success)).drainWrites) := by
  refine answers_data h rfl ((if_neg (by simp [ho])).trans ?_)
  simp only [hw]
  exact if_neg (Nat.not_lt.mpr hd)

theorem answers_writeTimeout (h : DataReady (.writeTimeout k id) s) (hw : s.m.writeAt k id = some w) (hd : w.deadline < s.m.cycle) :
    Answers (.writeTimeout k id) s ((((s.m.aer k 1).writeGone k id).writeEnd k w.owner false).drainWrites) := by
  refine answers_data h rfl ?_
  simp only [hw]
  exact if_neg (Nat.not_le.mpr hd)

theorem answers_strayWriteAck (h : DataReady (.writeCompletion k id st) s) (ho : s.m.memOpen k = true) (hw : s.m.writeAt k id = none) :
    Answers (.writeCompletion k id st) s (s.m.count (0x8200 + k) 3 1) := by
  refine answers_data h rfl ((if_neg (by simp [ho])).trans ?_)
  simp only [hw]

/-- Settles O46. The severities of the reports are log entry 8; what a read's deadline leaves is log entry 61. -/
theorem readsAndWritesComplete : Obligations.ReadsAndWritesComplete := by
  unfold Obligations.ReadsAndWritesComplete
  refine ⟨?data, fun k tag off st words s => answers_strayCompletion, ?late, ?write, fun k id st s => answers_strayWriteAck⟩
  case data =>
    intro k tag off words t s h ho ht hq hd t'
    exact ⟨fun hall => answers_readData h ho ht hq hd (if_pos hall),
      fun hpart => answers_readData h ho ht hq hd (if_neg (Nat.not_le.mpr hpart))⟩
  case late => exact fun k tag t s ht => ⟨fun h => answers_completionTimeout h ht, fun h => answers_tagQuarantineEnd h ht⟩
  case write => exact fun k id w s hw => ⟨fun st h ho => answers_writeInTime h ho hw, fun h => answers_writeTimeout h hw⟩

end Sys2Proof.Machine
end

section
/-! PROOF. The front command of a step, and the invariant of RESET_n: corollaries of the gate that each command passes. -/

namespace Sys2Proof.Machine

variable {c : Instr} {s : State} {m : Mach}

/-- Settles O1. -/
theorem stepRunsTheFrontCommand : Obligations.StepRunsTheFrontCommand := by
  unfold Obligations.StepRunsTheFrontCommand
  refine ⟨fun c rest s => rfl, fun s h => ?_⟩
  rw [step, h]

/-! ## RESET_n (R364, R370) -/

theorem inReset_held (h : InReset m) : m.sys.phase = .held := by
  obtain ⟨hsys, -⟩ := h
  rw [hsys]

theorem inReset_awake (h : InReset m) : m.awake = false := awake_eq_false_iff.mpr (inReset_held h)

theorem inReset_alive (h : InReset m) : m.alive = false := alive_eq_false_iff.mpr (.inl (inReset_held h))

theorem inReset_up (h : InReset m) : m.up = false := up_eq_false_iff.mpr (.inl (by simp [inReset_held h]))

/-- With nothing alive a hub cycle is the passing of time. -/
theorem tick_of_not_alive (h : m.alive = false) : m.tick = { m with cycle := m.cycle + 1 } := by
  have ha : ¬ Mach.alive { m with cycle := m.cycle + 1 } = true := ne_true_of_eq_false h
  exact if_neg ha

/-- Reset does not speak of the time. -/
theorem inReset_tick (h : InReset m) : InReset m.tick := by
  rw [tick_of_not_alive (inReset_alive h)]
  exact h

/-- What the security monitor keeps may change (R364). -/
theorem inReset_monitor (h : InReset m) (cause : Nat) (report latch : Bool) (classes : BitVec 4) :
    InReset (m.onSys fun x => { x with fatalCause := cause, fatalReport := report, debugLatch := latch, monClasses := classes }) := by
  obtain ⟨hsys, hrest⟩ := h
  exact ⟨congrArg (fun x : Sys =>
    { x with fatalCause := cause, fatalReport := report, debugLatch := latch, monClasses := classes }) hsys, hrest⟩

/-- With RESET_n low a command other than its rise keeps the part in reset. -/
theorem inReset_exec {t : State} (h : InReset s.m) (hc : ∀ b, c ≠ .resetNRelease b) (hw : c.wf s.m.fam = true)
    (hs : exec c s = .next t) : InReset t.m ∧ t.pending = s.pending := by
  have kept (he : exec c s = .next s) : InReset t.m ∧ t.pending = s.pending := by
    rw [he] at hs
    cases hs
    exact ⟨h, rfl⟩
  cases hp : c.place with
  | data => exact kept (exec_data_stopped hp hw (inReset_up h))
  | unit => exact kept (exec_unit_stopped hp hw (inReset_alive h))
  | awake => exact kept (exec_awake_stopped hp hw (inReset_awake h))
  | none => exact kept (exec_discarded hp hw)
  | always =>
    obtain ⟨b, rfl⟩ | rfl := place_always hp
    · exact absurd rfl (hc b)
    · rw [exec_vddAonLoss, execVddAonLoss, app_ok hw] at hs
      cases hs
      exact ⟨inReset_monitor h .., rfl⟩

/-- Settles O5: with RESET_n low the only command that acts is the loss of the monitor's supply, and it changes what `InReset` leaves
open. -/
theorem heldPartStaysInReset : Obligations.HeldPartStaysInReset := by
  unfold Obligations.HeldPartStaysInReset
  rintro ⟨l, m⟩ t ⟨h, hn⟩ hs
  cases l with
  | nil =>
    cases hs
    exact ⟨inReset_tick h, hn⟩
  | cons c l =>
    obtain ⟨hc, hl⟩ := List.forall_mem_cons.mp hn
    cases hw : c.wf m.fam with
    | false => cases (exec_fault_of_not_wf (s := ⟨l, m⟩) hw).symm.trans hs
    | true =>
      obtain ⟨hr, he⟩ := inReset_exec (s := ⟨l, m⟩) h hc hw hs
      rw [he]
      exact ⟨hr, hl⟩

end Sys2Proof.Machine
end

section
/-! PROOF. Memory controllers: training, refresh, temperature, sector accesses and the loss of a channel (R206, R209, R262 to R278). -/

namespace Sys2Proof.Machine

variable {s : State} {m : Mach} {r c : Nat} {ok : Bool}

/-! ## Training, retraining, retries (R274 to R276, R372) -/

/-- With some channel not failed a region goes on. -/
theorem fenceIfNoT1_goes_on (h : ((List.range 8).all fun c => (m.chan r c).st = .failed) = false) : m.fenceIfNoT1 r = m :=
  if_neg (ne_true_of_eq_false h)

theorem answers_channelTrainingDone (h : UnitReady (.channelTrainingDone r c ok) s) (ht : (s.m.chan r c).st = .training)
    (hf : (s.m.region r).st ≠ .fenced) (hu : s.m.sys.ucodeLoaded = true)
    (hm : (if ok then s.m.onChan r c fun x => x.served s.m.cycle (s.m.dieOf r c).interval (s.m.dieOf r c).temp
      else if (s.m.chan r c).tries = 0 then s.m.onChan r c fun x => { x with tries := 1, since := s.m.cycle }
      else ((s.m.onChan r c fun x => { x with st := .failed, tries := 2 }).channelFailed r c [0, 0, 0, 0, 0]).fenceIfNoT1 r) = m) :
    Answers (.channelTrainingDone r c ok) s m :=
  answers_unit h rfl ((if_neg (by simp [ht, hf, hu])).trans hm)

theorem answers_retrainDone (h : DataReady (.retrainDone r c ok) s) (ht : (s.m.chan r c).st = .retraining)
    (hd : (s.m.chan r c).since ≤ s.m.cycle)
    (hm : (if ok then s.m.onChan r c fun x => { x with st := .serving, trainTemp := (s.m.dieOf r c).temp }
      else ((s.m.onChan r c fun x => { x with st := .suspended, retries := 0, wantRetrain := false }).log 0x0308 0 1 r
        [(8, r), (8, c)]).g7 r 2) = m) : Answers (.retrainDone r c ok) s m :=
  answers_data h rfl ((if_neg (by simp [ht, hd])).trans hm)

theorem answers_channelRetryDone (h : DataReady (.channelRetryDone r c ok) s) (ht : (s.m.chan r c).st = .suspended)
    (hw : (s.m.chan r c).wantRetrain = true)
    (hm : (if ok then s.m.onChan r c fun x =>
        { x with st := .serving, wantRetrain := false, retries := 0, sinceTrain := 0, trainTemp := (s.m.dieOf r c).temp }
      else if (s.m.chan r c).retries + 1 < 4 then s.m.onChan r c fun x => { x with wantRetrain := false, retries := x.retries + 1 }
      else s.m.onChan r c fun x => { x with st := .failed, wantRetrain := false, retries := 4, lossDue := true }) = m) :
    Answers (.channelRetryDone r c ok) s m :=
  answers_data h rfl ((if_neg (by simp [ht, hw])).trans hm)

/-- Settles O30. -/
theorem channelsTrainAndRetry : Obligations.ChannelsTrainAndRetry := by
  unfold Obligations.ChannelsTrainAndRetry
  refine ⟨fun r c s ht hf hu => ⟨fun h => ?_, fun h hn => ?_, fun h hn => ?_⟩, fun r c s ht hd => ⟨fun h => ?_, fun h => ?_⟩,
    fun r c s ht hw => ⟨fun h => ?_, fun h hn => ?_, fun h hn => ?_⟩⟩
  · exact answers_channelTrainingDone h ht hf hu rfl
  · exact answers_channelTrainingDone h ht hf hu (if_pos hn)
  · intro m hall
    exact answers_channelTrainingDone h ht hf hu ((if_neg hn).trans (fenceIfNoT1_goes_on hall))
  · exact answers_retrainDone h ht hd rfl
  · exact answers_retrainDone h ht hd rfl
  · exact answers_channelRetryDone h ht hw rfl
  · exact answers_channelRetryDone h ht hw (if_pos (Nat.succ_lt_succ hn))
  · exact answers_channelRetryDone h ht hw (if_neg (Nat.not_lt.mpr (Nat.succ_le_succ hn)))

/-! ## The loss of a failed channel (R277, R278) -/

/-- A channel's loss with no frame, no write under way and no descriptor page on it. -/
theorem answers_channelFailSettle (h : DataReady (.channelFailSettle r c) s) (hf : (s.m.chan r c).st = .failed)
    (hl : (s.m.chan r c).lossDue = true) (hst : (s.m.region r).st = .serving)
    (hframes : ∀ x ∈ s.m.contents r, (x.2.t1len ≠ 0 && s.m.hits r c x.2.t1addr x.2.t1len) = false)
    (hwrites : ∀ v ∈ (s.m.region r).moves, (v.phase = .writing && v.dst = 1 && s.m.hits r c v.addr v.len) = false)
    (hpages : s.m.lostPages r (c / 4) = []) :
    Answers (.channelFailSettle r c) s
      (((((s.m.losePool r (c / 4)).moveOffDie r (c / 4)).onChan r c fun x =>
        { x with lossDue := false, queue := [], owed := 0 }).channelFailed r c [0, 0, 0, 0, 0]).repay r |>.fenceIfNoT1 r) := by
  have hlost : ((s.m.contents r).filter fun x => x.2.t1len ≠ 0 && s.m.hits r c x.2.t1addr x.2.t1len) = [] :=
    List.filter_eq_nil_iff.mpr fun x hx => ne_true_of_eq_false (hframes x hx)
  have hwriting : ((s.m.region r).moves.filter fun v => v.phase = .writing && v.dst = 1 && s.m.hits r c v.addr v.len) = [] :=
    List.filter_eq_nil_iff.mpr fun v hv => ne_true_of_eq_false (hwrites v hv)
  refine answers_data h rfl ((if_neg (by simp [hf, hl, hst])).trans ?_)
  simp only [hlost, hwriting, hpages, List.map_nil, List.filter_nil, List.append_nil, List.foldl_nil, each_nil]

/-- Settles O31. That the channel's queue goes and that the die's descriptor pages are placed anew is log entry 69. -/
theorem channelLossSettles : Obligations.ChannelLossSettles := by
  unfold Obligations.ChannelLossSettles
  intro r c s h hf hl hst hframes hwrites hpages m hall
  have ha := answers_channelFailSettle h hf hl hst hframes hwrites hpages
  rwa [fenceIfNoT1_goes_on hall] at ha

/-! ## Refresh (R269, R271, R275) -/

theorem answers_refreshTick (h : UnitReady (.refreshTick r c) s) (ht : (s.m.chan r c).ticks = true)
    (hd : (s.m.chan r c).nextTick ≤ s.m.cycle) :
    Answers (.refreshTick r c) s (s.m.onChan r c fun x => x.tick (s.m.dieOf r c).interval) :=
  answers_unit h rfl (if_pos (by simp [ht, hd]))

/-- A channel that has issued a refresh at `now`: with the last owed one a retraining that waited begins. -/
def Chan.refreshed (x : Chan) (now : Nat) : Chan :=
  let y := { x with owed := x.owed - 1, busyUntil := now + ns 100 }
  if x.draining && y.owed = 0 then
    { y with st := .retraining, wantRetrain := false, sinceTrain := 0, since := now + ns 100 }
  else y

theorem refreshed_not_draining {x : Chan} {now : Nat} (h : x.draining = false) :
    x.refreshed now = { x with owed := x.owed - 1, busyUntil := now + ns 100 } := by
  simp [Chan.refreshed, h]

theorem refreshed_last {x : Chan} {now : Nat} (h : x.draining = true) (ho : x.owed = 1) :
    x.refreshed now =
      { x with owed := 0, busyUntil := now + ns 100, st := .retraining, wantRetrain := false, sinceTrain := 0
               since := now + ns 100 } := by
  simp [Chan.refreshed, h, ho]

theorem answers_refreshIssue {g : Chan → Chan} (h : UnitReady (.refreshIssue r c) s)
    (hst : (s.m.chan r c).st = .serving ∨ (s.m.chan r c).st = .suspended) (ho : 1 ≤ (s.m.chan r c).owed)
    (hq : (s.m.chan r c).quiet s.m.cycle = true)
    (hw : (s.m.dieOf r c).limit ≤ (s.m.chan r c).owed ∨ (s.m.chan r c).queue = [] ∨ (s.m.chan r c).draining = true)
    (hg : (s.m.chan r c).refreshed s.m.cycle = g (s.m.chan r c)) :
    Answers (.refreshIssue r c) s ((s.m.send (.refresh r c)).onChan r c g) :=
  answers_unit h rfl ((if_pos (by simpa [ho, hq, or_assoc] using ⟨hst, hw⟩)).trans (onChan_congr (s.m.send (.refresh r c)) hg))

theorem closeWindow_ended (h : 8192 ≤ (m.chan r c).winTicks) : m.closeWindow r c =
    ((m.onDram fun d => { d with rows := d.rows.filter fun x => x.1 / (16 * 8192) ≠ r * 8 + c }).onDie r (c / 4) fun d =>
      { d with throttled := d.throttled.filter fun t => t.2 ≠ c }).onChan r c fun x => { x with winTicks := x.winTicks - 8192 } :=
  if_neg (Nat.not_lt.mpr h)

/-- Settles O32. -/
theorem refreshKeepsUp : Obligations.RefreshKeepsUp := by
  unfold Obligations.RefreshKeepsUp
  refine ⟨fun r c s => answers_refreshTick, fun r c s h hst ho hq hw => ?issue, fun r c s h hw => ?ended, fun r c s h hw => ?runs⟩
  case issue =>
    exact ⟨fun hd => answers_refreshIssue h hst ho hq hw (refreshed_not_draining hd),
      fun hd h1 => answers_refreshIssue h hst ho hq hw (refreshed_last hd h1)⟩
  case ended => exact answers_unit h rfl (closeWindow_ended hw)
  case runs => exact answers_unit h rfl (if_pos hw)

/-! ## Temperature (R268, R275) -/

/-- Die `die` of region `r` read at temperature `t` while its refresh rate stays. -/
def Mach.noteTemp (m : Mach) (r die : Nat) (t : Int) : Mach :=
  m.onDie r die fun _ => { m.die r die with temp := t, at_ := some m.cycle }

/-- A temperature of `t` lies 10 °C or more from some serving channel's training. -/
def Mach.drifted (m : Mach) (r die : Nat) (t : Int) : Bool :=
  (dieChans die).any fun c => (m.chan r c).st = .serving && decide (10 ≤ (t - (m.chan r c).trainTemp).natAbs)

/-- Some channel of the die has a retraining planned for its temperature. -/
def Mach.planned (m : Mach) (r die : Nat) : Bool := (dieChans die).any fun c => (m.chan r c).tempRetrain.isSome

/-- A reading, the first or one that is due, that leaves the refresh rate. -/
theorem answers_temperatureReading {die : Nat} {t : Int} (h : DataReady (.temperatureReading r die t) s)
    (hst : (s.m.region r).st = .serving)
    (hrate : (s.m.die r die).doubled =
      if (s.m.die r die).doubled then decide ((s.m.effN r (0x2200 + r) 0x41 : Int) - s.m.effN r (0x2200 + r) 0x42 < t)
      else decide ((s.m.effN r (0x2200 + r) 0x41 : Int) < t))
    (hdue : ∀ a, (s.m.die r die).at_ = some a → a + us 100 ≤ s.m.cycle)
    (hm : (if (s.m.die r die).at_ = none then
        (s.m.noteTemp r die t).each (dieChans die) fun m c => m.onChan r c fun x => { x with trainTemp := t }
      else if s.m.drifted r die t && !s.m.planned r die then
        (s.m.noteTemp r die t).each (List.range 4) fun m i => m.onChan r (die * 4 + i) fun x => { x with tempRetrain := some i }
      else s.m.noteTemp r die t) = m) : Answers (.temperatureReading r die t) s m := by
  have hgo : ¬ (decide ((s.m.region r).st ≠ .serving) ||
      !(match (s.m.die r die).at_ with | some a => decide (a + us 100 ≤ s.m.cycle) | none => true)) = true := by
    cases ha : (s.m.die r die).at_ with
    | none => simp [hst]
    | some a => simpa [hst] using hdue a ha
  refine answers_data h rfl ((if_neg hgo).trans ?_)
  simp only [← hrate, Bool.and_not_self, Bool.not_and_self, Mach.when, Bool.false_eq_true, if_false, ne_eq, not_true_eq_false,
    decide_false]
  exact hm

/-- Settles O33. That the first reading stands for the one of the channels' training is log entry 25. -/
theorem temperatureReadings : Obligations.TemperatureReadings := by
  unfold Obligations.TemperatureReadings
  intro r die t s h hst old thr hys read drift hrate
  refine ⟨fun ha => ?first, fun a ha hdue hdrift => ?steady, fun a ha hdue hdrift hplan => ?drifts⟩
  case first => exact answers_temperatureReading h hst hrate (fun a ha' => nomatch ha.symm.trans ha') (if_pos ha)
  all_goals
    have hnot : ¬ (s.m.die r die).at_ = none := fun hn => nomatch ha.symm.trans hn
    have hdue' : ∀ b, (s.m.die r die).at_ = some b → b + us 100 ≤ s.m.cycle := fun b hb => Option.some.inj (ha.symm.trans hb) ▸ hdue
  case steady =>
    have hd : s.m.drifted r die t = false := hdrift
    exact answers_temperatureReading h hst hrate hdue' ((if_neg hnot).trans (if_neg (by simp [hd])))
  case drifts =>
    have hd : s.m.drifted r die t = true := hdrift
    have hp : s.m.planned r die = false := hplan
    exact answers_temperatureReading h hst hrate hdue' ((if_neg hnot).trans (if_pos (by simp [hd, hp])))

/-! ## Sector accesses (R206, R209, R262 to R267, R271, R272, R286) -/

/-- Of a queue whose places count from `k`, behind accesses to the sectors `seen`, an access may start where it is admitted and neither
they nor an earlier one of the queue go to its sector. -/
theorem mem_startable {ok : Access → Bool} {n : Nat} {a : Access} {l : List Access} : ∀ {k : Nat} {seen : List Nat},
    (n, a) ∈ startable ok k seen l ↔ ∃ i, n = k + i ∧ l[i]? = some a ∧ ok a = true ∧ a.sector ∉ seen ∧
      ∀ j y, j < i → l[j]? = some y → y.sector ≠ a.sector := by
  induction l with
  | nil => simp [startable]
  | cons x l ih =>
    intro k seen
    rw [startable, List.mem_append, ih]
    constructor
    · rintro (hhead | ⟨i, rfl, hi, hok, hseen, hearlier⟩)
      · obtain ⟨⟨rfl, rfl⟩, hok, hseen⟩ : (n = k ∧ a = x) ∧ ok x = true ∧ x.sector ∉ seen := by
          split at hhead <;> simp_all
        exact ⟨0, rfl, rfl, hok, hseen, fun j y hj => absurd hj (Nat.not_lt_zero j)⟩
      · obtain ⟨hx, hseen⟩ := not_or.mp (mt List.mem_cons.mpr hseen)
        refine ⟨i + 1, by omega, hi, hok, hseen, fun j y hj hy => ?_⟩
        cases j with
        | zero => exact Option.some.inj hy ▸ Ne.symm hx
        | succ j => exact hearlier j y (Nat.lt_of_succ_lt_succ hj) hy
    · rintro ⟨i, rfl, hi, hok, hseen, hearlier⟩
      cases i with
      | zero =>
        obtain rfl : x = a := Option.some.inj hi
        exact .inl (by simp [hok, hseen])
      | succ i =>
        have hx : x.sector ≠ a.sector := hearlier 0 x (Nat.succ_pos i) rfl
        exact .inr ⟨i, by omega, hi, hok, by simp [Ne.symm hx, hseen], fun j y hj hy => hearlier (j + 1) y (Nat.succ_lt_succ hj) hy⟩

/-- A channel that may start an access starts the one its block grants. -/
theorem answers_sectorAccess {n : Nat} {a : Access} {l : List (Nat × Access)} (h : DataReady (.sectorAccess r c) s)
    (ho : s.m.chanOpen r c = true)
    (hl : startable (fun a => decide (tget (s.m.chan r c).bankReady 0 (secBank a.sector) ≤ s.m.cycle) &&
      !(s.m.dieOf r c).held a.pitch (s.m.cycle / us 1)) 0 [] (s.m.chan r c).queue = l)
    (hm : s.m.refillFor r (8 + c / 4) (s.m.diePitches r (c / 4)) = m)
    (hp : m.pickBy r (8 + c / 4) (fun y => (m.accPitch y.2, m.accLevel r y.2)) l = some (n, a)) :
    Answers (.sectorAccess r c) s (m.startAccess r c n a) := by
  subst hl hm
  have hne := List.ne_nil_of_mem (pickBy_mem hp)
  refine answers_data h rfl ((if_neg (by simpa [ho] using hne)).trans ?_)
  simp only [hp]

/-- Settles O34. That the highest level goes first, then the most credit, the lower pitch and the oldest, is log entry 87. -/
theorem sectorAccesses : Obligations.SectorAccesses := by
  unfold Obligations.SectorAccesses
  refine ⟨fun r c n a s h ho => ?starts, fun ok l n a => ?chosen⟩
  case starts =>
    intro t ok l m hp m1 m2 m3
    have hs := answers_sectorAccess h ho rfl rfl hp
    exact ⟨fun hw => by rwa [Mach.startAccess, if_pos hw] at hs, fun hw => by rwa [Mach.startAccess, if_neg (by simp [hw])] at hs⟩
  case chosen =>
    rw [mem_startable]
    simp
end Sys2Proof.Machine
end

section
/-! PROOF. The steward's election, renewal and lapse; watchdogs; the reference sweep (R375, R376, R378, R379, R381). -/

namespace Sys2Proof.Machine

variable {s : State} {m : Mach} {h src t r q : Nat}

/-! ## The steward (R375, R376) -/

theorem answers_stewardClaim (hu : UnitReady (.stewardClaim h src) s) (hl : (s.m.hub h).live = true) (hsrc : (s.m.hub src).live = true)
    (hc : (s.m.hub src).claimAt ≠ none) (hlt : src < h) :
    Answers (.stewardClaim h src) s (s.m.onHub h fun x => { x with sawLower := true }) :=
  answers_unit hu rfl (if_pos (by simp [hl, hsrc, Option.isSome_iff_ne_none.mpr hc, hlt]))

/-- Where no lower live hub has claimed, none is seen. -/
theorem lowerClaim_none (h0 : ∀ g < h, (m.hub g).live = true → (m.hub g).claimAt = none) : m.lowerClaim h t = false := by
  refine List.any_eq_false.mpr fun g hg => ?_
  cases hl : (m.hub g).live with
  | false => simp
  | true => simp [h0 g (List.mem_range.mp hg) hl]

theorem answers_stewardElectionWin (hu : UnitReady (.stewardElectionWin h) s) (hc : (s.m.hub h).claimAt = some t)
    (hl : (s.m.hub h).live = true) (ht : t + ms 2 ≤ s.m.cycle) (hlow : s.m.lowerClaim h t = false) (hs : s.m.sys.steward = none) :
    Answers (.stewardElectionWin h) s (s.m.takeRole h) := by
  refine answers_unit hu rfl ?_
  simp only [hc]
  exact if_pos (by simp [hl, ht, hlow, hs])

theorem answers_stewardRenewal (hu : UnitReady .stewardRenewal s) (hs : s.m.sys.steward = some h)
    (hw : (s.m.hub h).watchdogHeld = false) (ht : (s.m.hub h).renewedAt + ms 1 ≤ s.m.cycle) :
    Answers .stewardRenewal s s.m.renew := by
  refine answers_unit hu rfl ?_
  simp only [hs]
  exact if_pos (by simp [hw, ht])

theorem answers_stewardLeaseExpire (hu : UnitReady (.stewardLeaseExpire h) s) (hl : (s.m.hub h).live = true)
    (hw : (s.m.hub h).watchdogHeld = false) (hc : (s.m.hub h).claimAt = none) (ht : (s.m.hub h).renewedAt + ms 10 < s.m.cycle)
    (hm : (s.m.when s.m.sys.steward.isSome fun m => m.onSys fun x => { x with steward := none, roleAt := m.cycle }) = m) :
    Answers (.stewardLeaseExpire h) s (m.claim h) :=
  answers_unit hu rfl ((if_pos (by simp [hl, hw, hc, ht])).trans (congrArg (Mach.claim · h) hm))

/-! ## Watchdogs (R375, R378, R381) -/

theorem answers_watchdogService (hu : UnitReady (.watchdogService h) s) (hl : (s.m.hub h).live = true)
    (hw : (s.m.hub h).watchdogHeld = false) :
    Answers (.watchdogService h) s (s.m.onHub h fun x => { x with watchdogAt := s.m.cycle }) :=
  answers_unit hu rfl (if_pos (by simp [hl, hw]))

theorem answers_watchdogExpire (hu : UnitReady (.watchdogExpire h) s) (hl : (s.m.hub h).live = true)
    (hw : (s.m.hub h).watchdogHeld = false) (ht : (s.m.hub h).watchdogAt + ms 10 < s.m.cycle) :
    Answers (.watchdogExpire h) s (s.m.hubFail h) :=
  answers_unit hu rfl (if_pos (by simp [hl, hw, ht]))

theorem answers_regionWatchdog (hr : DataReady (.regionWatchdog r) s) (hst : (s.m.region r).st = .serving) :
    Answers (.regionWatchdog r) s (s.m.fence r 6) :=
  answers_data hr rfl (if_pos hst)

/-! ## The reference sweep (R379) -/

theorem answers_referenceSweepDone (hr : DataReady (.referenceSweepDone r q) s) (hleft : r ∈ (s.m.region q).sweepLeft)
    (hst : (s.m.region r).st = .serving) :
    Answers (.referenceSweepDone r q) s
      ((s.m.sweepRefs r q).onRegion q fun g => { g with sweepLeft := g.sweepLeft.filter (· ≠ r) }) :=
  answers_data hr rfl (if_pos (by simp [hleft, hst]))

/-- Settles O60. That a failed lower claimant no longer counts, and that the role lapses when one live hub's timer has run out, is log
entry 53. -/
theorem stewardAndWatchdogs : Obligations.StewardAndWatchdogs := by
  unfold Obligations.StewardAndWatchdogs
  refine ⟨fun h src s => answers_stewardClaim, fun h t s hu hc hl ht h0 hs => answers_stewardElectionWin hu hc hl ht (lowerClaim_none h0) hs,
    fun h s => answers_stewardRenewal, fun h s hu hl hw hc ht => ⟨fun hs => ?lapses, fun hs => ?free⟩,
    fun h s hl hw => ⟨fun hu => answers_watchdogService hu hl hw, fun hu => answers_watchdogExpire hu hl hw⟩,
    fun r s => answers_regionWatchdog, fun r q s => answers_referenceSweepDone⟩
  case lapses => exact answers_stewardLeaseExpire hu hl hw hc ht (if_pos (Option.isSome_iff_ne_none.mpr hs))
  case free => exact answers_stewardLeaseExpire hu hl hw hc ht (if_neg (by simp [hs]))

end Sys2Proof.Machine
end

section
/-! PROOF. Alarms, ZEROIZE, the checks of fuses and tags, and the roll of an image (R359 to R363, R366 to R368, R375, R378). -/

namespace Sys2Proof.Machine

variable {s : State} {m : Mach} {k r pol : Nat} {ok : Bool} {cl : BitVec 4}

/-! ## Alarms (R360) -/

theorem record_sec (m : Mach) (e : EvRec) : (m.record e).sec = m.sec := by
  simp only [Mach.record, Mach.when, onDict_sec, onEv_sec]
  split <;> rfl

theorem logSev_sec (m : Mach) (code sev pitch kind num data : Nat) : (m.logSev code sev pitch kind num data).sec = m.sec := by
  simp only [Mach.logSev]
  split
  · exact record_sec ..
  · split <;> rfl

theorem each_sec {α : Type} {f : Mach → α → Mach} (hf : ∀ m a, (f m a).sec = m.sec) (l : List α) (m : Mach) :
    (m.each l f).sec = m.sec := by
  induction l generalizing m with
  | nil => rfl
  | cons a l ih => exact (ih _).trans (hf m a)

/-- The classes of `cl`, from 0 on. -/
def alarmClasses (cl : BitVec 4) : List Nat := (List.range 4).filter fun i => cl.getLsbD i

/-- The strongest policy among the classes of `cl`. -/
def Mach.topPolicy (m : Mach) (cl : BitVec 4) : Nat := ((alarmClasses cl).map fun i => m.policy (i + 1)).foldl max 0

/-- The machine with the classes' bits set and their events logged, with policy `pol`. -/
def Mach.alarmed (m : Mach) (cl : BitVec 4) (pol : Nat) : Mach :=
  (((m.onSys fun x => { x with monClasses := x.monClasses ||| cl }).onSec fun x => { x with alarmstat := x.alarmstat ||| cl }).latch
    (okey 0x6010 5) cl.toNat).each (alarmClasses cl) fun m i =>
      m.logSev 0x0601 (if pol = 0 then 2 else 4) 0 0 0 (packData [(8, i + 1), (8, pol)])

/-- The policy of an alarm: the strongest, and none where a stronger action runs or is done. -/
def Mach.alarmPolicy (m : Mach) (cl : BitVec 4) : Nat := if m.topPolicy cl < m.sec.applied then 0 else m.topPolicy cl

theorem alarm_eq (m : Mach) (cl : BitVec 4) : m.alarm cl = (m.alarmed cl (m.alarmPolicy cl)).applyPolicy (m.alarmPolicy cl) := rfl

theorem alarmed_applied : (m.alarmed cl pol).sec.applied = m.sec.applied := by
  rw [Mach.alarmed, each_sec fun _ _ => logSev_sec ..]
  rfl

theorem alarm_outranked (h : m.topPolicy cl < m.sec.applied) : m.alarm cl = m.alarmed cl 0 := by
  have hpol : m.alarmPolicy cl = 0 := if_pos h
  rw [alarm_eq, hpol]
  exact if_pos (Nat.zero_le _)

/-- The strongest policy of an alarm is applied unless an action as strong runs. -/
theorem alarm_applies (h : m.sec.applied ≤ m.topPolicy cl) :
    m.alarm cl = (m.alarmed cl (m.topPolicy cl)).applyPolicy (m.topPolicy cl) := by
  have hpol : m.alarmPolicy cl = m.topPolicy cl := if_neg (Nat.not_lt.mpr h)
  rw [alarm_eq, hpol]

theorem alarm_held (h : m.topPolicy cl = m.sec.applied) : m.alarm cl = m.alarmed cl (m.topPolicy cl) :=
  (alarm_applies h.ge).trans (if_pos (by rw [alarmed_applied, h]))

theorem alarm_fences (h : m.sec.applied < m.topPolicy cl) (h1 : m.topPolicy cl = 1) : m.alarm cl = (m.alarmed cl 1).applyFence := by
  rw [alarm_applies h.le, h1]
  exact if_neg (by rw [alarmed_applied]; omega)

theorem alarm_zeroizes (h : m.sec.applied < m.topPolicy cl) (h2 : m.topPolicy cl = 2) : m.alarm cl = (m.alarmed cl 2).startZeroize := by
  rw [alarm_applies h.le, h2]
  exact if_neg (by rw [alarmed_applied]; omega)

theorem answers_securityAlarm (h : UnitReady (.securityAlarm cl) s) (hm : s.m.alarm cl = m) : Answers (.securityAlarm cl) s m :=
  answers_unit h rfl hm

/-! ## ZEROIZE and the periodic checks (R359, R362, R363) -/

theorem answers_zeroized (h : UnitReady .zeroized s) (hz : s.m.sec.zeroizing = true) :
    Answers .zeroized s
      (((s.m.eraseSecrets.applyFence.raiseSec 3).log 0x0602 0 0 0 []).onSec fun x => { x with zeroizing := false }) :=
  answers_unit h rfl (if_neg (by simp [hz]))

theorem answers_fuseRecheck (h : UnitReady (.fuseRecheck ok) s) (ht : s.m.sys.fuseAt + ms 1000 ≤ s.m.cycle)
    (hm : (s.m.onSys fun x => { x with fuseAt := s.m.cycle }) = m) : Answers (.fuseRecheck ok) s (if ok then m else m.alarm 8) :=
  hm ▸ answers_unit h rfl (if_neg (Nat.not_lt.mpr ht))

theorem answers_d2dTagCheck (h : UnitReady (.d2dTagCheck ok) s) (ht : s.m.sys.tagAt + 1280 ≤ s.m.cycle)
    (hm : (s.m.onSys fun x => { x with tagAt := s.m.cycle }) = m) : Answers (.d2dTagCheck ok) s (if ok then m else m.alarm 4) :=
  hm ▸ answers_unit h rfl (if_neg (Nat.not_lt.mpr ht))

/-! ## The roll (R366 to R368, R375, R378) -/

theorem answers_hubReloadReady (h : UnitReady (.hubReloadReady k) s) (hk : s.m.rollUnit = some (.hub k))
    (hm : (s.m.onHub k fun x =>
      { x with reloadAt := none, watchdogHeld := false, watchdogAt := s.m.cycle, image := s.m.rollImage.1
               slot := s.m.rollImage.2 }) = m) :
    Answers (.hubReloadReady k) s
      ((m.when (hubs m.fam = 1) fun n => n.onSys fun x => { x with dictDownUntil := min x.dictDownUntil m.cycle }).rollAdvance (.hub k)) :=
  hm ▸ answers_unit h rfl (if_neg (not_not_intro hk))

theorem answers_microcodeRollDone {i : ImgIn} (h : DataReady (.microcodeRollDone r) s) (hr : s.m.rollUnit = some (.region r))
    (hrun : (s.m.region r).rolling = true) (hi : s.m.rollImage.1 = some i) :
    Answers (.microcodeRollDone r) s
      (s.m.onRegion r fun g => { g with rolledIn := true, ucode := i.ucodever, ucodeDigest := i.ucodeDigest }) := by
  refine answers_data h rfl ((if_pos (by simp [hr, hrun])).trans ?_)
  simp only [hi, Option.map_some, Option.getD_some]

/-- What ROLL_TIMEOUT does to a roll whose present unit `u` is late for its limit: it stops the roll, and in a roll that is undone `out`
says how the unit goes out of service. -/
def Mach.lateInRoll (m : Mach) (u : Roll) (out : Mach) : Mach :=
  if m.sec.roll = some .revert then out.rollAdvance u else (m.joinRoll u).rollRevert

theorem answers_rollTimeout_hub (h : UnitReady .rollTimeout s) (hk : s.m.rollUnit = some (.hub k))
    (ht : s.m.sec.rollAt + ms 200 < s.m.cycle) : Answers .rollTimeout s (s.m.lateInRoll (.hub k) (s.m.hubFail k)) := by
  refine answers_unit h rfl ?_
  simp only [hk, ht, decide_true, Bool.not_true, Bool.false_eq_true, if_false, decide_eq_true_eq, Mach.lateInRoll]

theorem answers_rollTimeout_fenced (h : UnitReady .rollTimeout s) (hr : s.m.rollUnit = some (.region r))
    (hst : (s.m.region r).st ≠ .serving) : Answers .rollTimeout s (s.m.rollAdvance (.region r)) := by
  refine answers_unit h rfl ?_
  simp only [hr, if_pos hst]

theorem answers_rollTimeout_region (h : UnitReady .rollTimeout s) (hr : s.m.rollUnit = some (.region r))
    (hst : (s.m.region r).st = .serving) (ht : s.m.sec.rollAt + ms 1 < s.m.cycle) :
    Answers .rollTimeout s (s.m.lateInRoll (.region r) (s.m.fence r 7)) := by
  refine answers_unit h rfl ?_
  simp only [hr, if_neg (not_not_intro hst), ht, decide_true, Bool.not_true, Bool.false_eq_true, if_false, decide_eq_true_eq,
    Mach.lateInRoll]

/-- Settles O59. That an action as strong leaves an alarm to its log alone is log entry 57; that a late unit joins those to undo, and that
a fenced region is skipped here, is log entry 58. -/
theorem alarmsAndRolls : Obligations.AlarmsAndRolls := by
  unfold Obligations.AlarmsAndRolls
  refine ⟨fun cl s h => ?alarm, fun s => answers_zeroized, fun ok s h ht => answers_fuseRecheck h ht rfl,
    fun ok s h ht => answers_d2dTagCheck h ht rfl, fun k s h hk => answers_hubReloadReady h hk rfl,
    fun r i s => answers_microcodeRollDone, fun s h => ⟨fun k hk ht => ?hub, fun r => answers_rollTimeout_fenced h, fun r hr hst ht => ?region⟩⟩
  case alarm =>
    intro cs top logged
    exact ⟨fun ht => answers_securityAlarm h (alarm_outranked ht), fun ht => answers_securityAlarm h (alarm_held ht),
      fun ht h1 => answers_securityAlarm h (alarm_fences ht h1), fun ht h2 => answers_securityAlarm h (alarm_zeroizes ht h2)⟩
  case hub =>
    have ha := answers_rollTimeout_hub h hk ht
    exact ⟨fun hu => by rwa [Mach.lateInRoll, if_pos hu] at ha, fun hu => by rwa [Mach.lateInRoll, if_neg hu] at ha⟩
  case region =>
    have ha := answers_rollTimeout_region h hr hst ht
    exact ⟨fun hu => by rwa [Mach.lateInRoll, if_pos hu] at ha, fun hu => by rwa [Mach.lateInRoll, if_neg hu] at ha⟩

end Sys2Proof.Machine
end

section
/-! PROOF. Leaving start-up containment, latency messages (R253, R373), and the field port's neighbours (R313, R314). -/

namespace Sys2Proof.Machine

variable {s : State} {m : Mach} {k : Nat} {inUse : Bool}

theorem answers_startupContainmentExit (h : DataReady (.startupContainmentExit k) s) (hc : (s.m.port k).contained = true)
    (hs : (s.m.port k).startup = true) (hr : (s.m.port k).ready = true) (hf : (s.m.hub k).failed = false)
    (hb : s.m.sys.bootDark = false) : Answers (.startupContainmentExit k) s (s.m.uncontain k) :=
  answers_data h rfl (if_pos (by simp [hc, hs, hr, hf, hb]))

theorem answers_ltrSend (h : DataReady (.ltrSend k) s) (hl : s.m.linkUp k = true) (hd : (s.m.port k).ltrDue = true)
    (ho : s.m.ltrOn k = true) :
    Answers (.ltrSend k) s
      ((s.m.send (.ltr k (ltrField (s.m.ltrTarget k)))).onPort k fun p =>
        { p with ltrSent := ltrField (s.m.ltrTarget k), ltrDue := false }) :=
  answers_data h rfl ((if_pos (by simp [hl, hd])).trans (if_pos ho))

/-- Settles O11. -/
theorem startupContainmentAndLtr : Obligations.StartupContainmentAndLtr := by
  unfold Obligations.StartupContainmentAndLtr
  exact ⟨fun k s => answers_startupContainmentExit, fun k s => answers_ltrSend⟩

/-! ## The field port (R313, R314) -/

/-- A frame that the field port discards is counted while H0 lives. -/
theorem fpDrop_counted (hf : (m.hub 0).failed = false) :
    m.fpDrop = m.onFp fun p => { p with fperr := satAdd (2 ^ 32 - 1) p.fperr 1 } :=
  if_neg (ne_true_of_eq_false hf)

section
variable (hf : (s.m.hub 0).failed = false)
include hf

theorem fpUp_of_alive : s.m.fpUp = true := congrArg not hf

theorem answers_neighbourSolicitation {a : Nat} (h : UnitReady (.neighbourSolicitation ownAddr a) s) (ha : s.m.fp.addrOk = true) :
    Answers (.neighbourSolicitation ownAddr a) s (s.m.send (.neighbourAdvert a)) :=
  answers_unit h rfl (if_pos (by simp [fpUp_of_alive hf, ha]))

theorem answers_icmpv6Echo {a i q : Nat} {l : List Byte} (h : UnitReady (.icmpv6Echo a i q l) s) (ha : s.m.fp.addrOk = true) :
    Answers (.icmpv6Echo a i q l) s (s.m.send (.echoReply a i q l)) :=
  answers_unit h rfl (if_pos (by simp [fpUp_of_alive hf, ha]))

theorem answers_duplicateAddressDetection (h : UnitReady (.duplicateAddressDetection inUse) s) (ha : s.m.fp.addrOk = false)
    (hd : s.m.fp.addrDup = false) :
    Answers (.duplicateAddressDetection inUse) s
      (if inUse then s.m.fpDrop.onFp fun p => { p with addrDup := true } else s.m.onFp fun p => { p with addrOk := true }) :=
  answers_unit h rfl (if_neg (by simp [fpUp_of_alive hf, ha, hd]))

theorem answers_plcaBeacon (h : UnitReady .plcaBeacon s)
    (hm : (if s.m.fp.nodeid = 0 then (s.m.onFp fun p => { p with beacons := true, slots := s.m.cfgN 0x1100 3 }).send .beacon
      else s.m.onFp fun p => { p with beacons := true, slots := 1 }) = m) : Answers .plcaBeacon s m :=
  answers_unit h rfl ((if_neg (by simp [fpUp_of_alive hf])).trans hm)

end

/-- Settles O51. -/
theorem fieldPortAnswers : Obligations.FieldPortAnswers := by
  unfold Obligations.FieldPortAnswers
  intro s hf
  refine ⟨fun a h => answers_neighbourSolicitation hf h, fun a i q l h => answers_icmpv6Echo hf h, fun ha hd => ⟨fun h => ?_, fun h => ?_⟩,
    fun h hn => ?_, fun h hn => ?_⟩
  · exact answers_duplicateAddressDetection hf h ha hd
  · have hm := answers_duplicateAddressDetection hf h ha hd
    rwa [if_pos rfl, fpDrop_counted hf] at hm
  · exact answers_plcaBeacon hf h (if_pos hn)
  · exact answers_plcaBeacon hf h (if_neg hn)

end Sys2Proof.Machine
end

section
/-! PROOF. SPDM over DOE mailboxes (R350), and IDE keys (R353, R234). -/

namespace Sys2Proof.Machine

variable {s : State} {m : Mach} {k set : Nat} {mb : Mbx} {c : SpdmCtx}

/-! ## SPDM over DOE mailboxes (R350) -/

theorem answers_cmaSpdm_long {q : SpdmIn} (h : DataReady (.cmaSpdm mb q) s) (hl : 4096 < q.len) : Answers (.cmaSpdm mb q) s s.m :=
  answers_data h rfl (if_pos (by simp [doeLimit, hl]))

/-- The machine with mailbox `mb`'s conversation at the level, and its sessions after the effect, that an answer leaves. -/
def Mach.conversed (m : Mach) (mb : Mbx) (a : Nat × Nat × SpdmEff) : Mach :=
  m.onSec fun x => { x with spdmNeg := (x.spdmNeg.filter fun y => y.1 ≠ mb) ++ [(mb, a.1)], spdm := spdmApply mb x.spdm a.2.2 }

theorem answers_cmaSpdm {q : SpdmIn} (h : DataReady (.cmaSpdm mb q) s) (ho : s.m.doeOpen mb = true) (hl : q.len ≤ 4096) :
    Answers (.cmaSpdm mb q) s
      ((s.m.conversed mb (s.m.spdmAnswer (s.m.mbxCtx mb) q.req)).send
        (.spdm mb (s.m.spdmAnswer (s.m.mbxCtx mb) q.req).2.1
          (s.m.spdmBody doeTransfer q.req (s.m.spdmAnswer (s.m.mbxCtx mb) q.req).2.1))) := by
  have hup : (s.m.conversed mb (s.m.spdmAnswer (s.m.mbxCtx mb) q.req)).linkUp (mbxPort mb) = true := doeOpen_linkUp (m := s.m) ho
  exact answers_data h rfl ((if_neg (by simp [ho, doeLimit, Nat.not_lt.mpr hl])).trans (portSend_up _ hup rfl))

theorem spdmAnswer_getCapabilities (h : 1 ≤ c.level) : m.spdmAnswer c .getCapabilities = (max c.level 2, 0x61, .none) :=
  if_neg (Nat.not_lt.mpr h)

theorem spdmAnswer_negotiate (h : 2 ≤ c.level) : m.spdmAnswer c (.negotiate true) = (3, 0x63, .none) :=
  if_neg (Nat.not_lt.mpr h)

/-- KEY_EXCHANGE once the algorithms are agreed, by a part that signs, for a slot that holds a chain, with no handshake under way. -/
theorem spdmAnswer_keyExchange {slot : Nat} (hl : c.level = 3) (hc : m.certHeld slot = true) (hp : c.pending = false)
    (hs : c.signs = true) :
    m.spdmAnswer c (.keyExchange slot) = if c.room then (3, 0x64, .opened) else (3, 0x7F0A, .none) := by
  have hlim : spdmLimit = 0x7F0A := rfl
  cases hr : c.room with
  | true => simp [Mach.spdmAnswer, hl, hc, hp, hs, hr]
  | false => simp [Mach.spdmAnswer, hl, hc, hp, hs, hr, hlim]

/-- Settles O14. The codes are the standard's of log entry 8; that a long request changes nothing is log entry 104. -/
theorem spdmMailboxConverses : Obligations.SpdmMailboxConverses := by
  unfold Obligations.SpdmMailboxConverses
  refine ⟨fun mb q len s h ho => ⟨answers_cmaSpdm_long h, answers_cmaSpdm h ho⟩, fun m c => rfl,
    fun m c hl => by rw [spdmAnswer_getCapabilities hl], fun m c => spdmAnswer_negotiate, fun m c slot hl hc hp hs => ?keyExchange⟩
  have hk := spdmAnswer_keyExchange hl hc hp hs
  exact ⟨fun hr => hk.trans (if_pos hr), fun hr => hk.trans (if_neg (ne_true_of_eq_false hr))⟩

/-! ## IDE keys (R234, R353) -/

section
variable {x : IdeStream} {key : BitVec 256}

theorem prog_idle (h : x.active ≠ some set) : x.prog set key = x.setKey set (some key) := if_neg h

theorem go_programmed (h : (x.key set).isSome = true) : x.go set = { x with active := some set } := if_pos h

/-- Setting a key leaves which set is in use. -/
theorem setKey_active {v : Option (BitVec 256)} : (x.setKey set v).active = x.active := by
  simp only [IdeStream.setKey]
  split <;> rfl

theorem stop_active (h : x.active = some set) : x.stop set = { x.setKey set none with active := none } :=
  if_pos (setKey_active.trans h)

end

section
variable {cxl : Bool} {g : Port → Port} (ho : s.m.keysOpen k = true)
include ho

theorem answers_keyProg {key : BitVec 256} (h : DataReady (.keyProg k set key) s) (hi : (s.m.port k).ideSel.active ≠ some set) :
    Answers (.keyProg k set key) s (s.m.onPort k fun p => { p with ideSel := p.ideSel.setKey set (some key) }) :=
  answers_data h rfl ((if_pos ho).trans (onPort_congr s.m (congrArg (fun x => { s.m.port k with ideSel := x }) (prog_idle hi))))

theorem answers_cxlIdeKeyProg {key : BitVec 256} (h : DataReady (.cxlIdeKeyProg k set key) s)
    (hi : (s.m.port k).ideMem.active ≠ some set) :
    Answers (.cxlIdeKeyProg k set key) s (s.m.onPort k fun p => { p with ideMem := p.ideMem.setKey set (some key) }) :=
  answers_data h rfl ((if_pos ho).trans (onPort_congr s.m (congrArg (fun x => { s.m.port k with ideMem := x }) (prog_idle hi))))

theorem answers_kSetGo (h : DataReady (.kSetGo k cxl set) s)
    (hg : (s.m.port k).onIde cxl (fun x => x.go set) = g (s.m.port k)) :
    Answers (.kSetGo k cxl set) s ((s.m.onPort k g).idePump k) :=
  answers_data h rfl ((if_pos ho).trans (congrArg (Mach.idePump · k) (onPort_congr s.m hg)))

theorem answers_kSetStop (h : DataReady (.kSetStop k cxl set) s)
    (hg : (s.m.port k).onIde cxl (fun x => x.stop set) = g (s.m.port k)) :
    Answers (.kSetStop k cxl set) s ((s.m.onPort k g).ideShut k) :=
  answers_data h rfl ((if_pos ho).trans (congrArg (Mach.ideShut · k) (onPort_congr s.m hg)))

end

/-- Settles O15. -/
theorem ideKeysAreSet : Obligations.IdeKeysAreSet := by
  unfold Obligations.IdeKeysAreSet
  intro k set s ho
  refine ⟨fun key => answers_keyProg ho, fun key => answers_cxlIdeKeyProg ho, fun h hk => ?_, fun h hk => ?_, fun h hk => ?_, fun h hk => ?_⟩
  · exact answers_kSetGo ho h (congrArg (fun x => { s.m.port k with ideMem := x }) (go_programmed hk))
  · exact answers_kSetGo ho h (congrArg (fun x => { s.m.port k with ideSel := x }) (go_programmed hk))
  · exact answers_kSetStop ho h (congrArg (fun x => { s.m.port k with ideMem := x }) (stop_active hk))
  · exact answers_kSetStop ho h (congrArg (fun x => { s.m.port k with ideSel := x }) (stop_active hk))

end Sys2Proof.Machine
end

section
/-! PROOF. The dictionary's messages: how one is taken up and answered, HELLO, and ABORT (R315 to R320, R328). -/

namespace Sys2Proof.Machine

variable {c : Instr} {s : State} {m : Mach} {h : MHdr} {sec : Bool} {msg : DMsg} {r : DReply}

/-! ## Answers (R317, R319) -/

/-- A reply leaves at once on a path that carries messages. -/
theorem dictSend_open {dst : Src} (hp : m.pathOpen dst = true) : m.dictSend dst r = m.send (.dict dst r) := by
  cases dst with
  | udp a p => exact if_pos hp
  | inband k => exact portSend_up _ (Bool.and_eq_true_iff.mp hp).2 rfl

/-- The reply as client `h.client` gets it. -/
def DReply.addressed (r : DReply) (m : Mach) (h : MHdr) (sec : Bool) : DReply :=
  { r with client := h.client, ver := (m.client h.client).v, seq := h.seq, secured := sec }

/-- The answer to a client on its own path is kept for a repeat, and sent. -/
theorem dictAnswer_open (hl : (m.client h.client).live = true) (hs : (m.client h.client).src = h.src) (hp : m.pathOpen h.src = true) :
    m.dictAnswer h sec r =
      (m.onClient h.client fun x => { x with reply := some (r.addressed m h sec) }).send (.dict h.src (r.addressed m h sec)) :=
  (if_neg (by simp [hl, hs])).trans (dictSend_open (m := m.onClient h.client _) hp)

theorem atDict_open {f : Mach → Mach} (hp : m.pathOpen h.src = true) (hu : m.dictUp = true) : m.atDict h.src f = f m :=
  (if_neg (by simp [hp])).trans (if_pos hu)

/-! ## A client's message, by whichever command it comes (R315, R320, R336) -/

/-- A message that the dictionary takes up is carried out once its client's timeouts and SEQ are noted. -/
theorem answers_dictMsg {n : Mach} (hu : UnitReady c s) (hc : c.dictMsg = some (h, sec, msg)) (hs : Serves s.m h sec msg)
    (hm : ∀ a b p, msg ≠ .hello a b p) (hn : (heard s.m h).carryOut h sec msg true = n) : Answers c s n := by
  subst hn
  cases c
  case read | write | readBlock | writeBlock | stage | commit | abort | subscribe | spdm | bye | secured =>
    cases hc
    exact answers_unit hu rfl (request_served hs hm)
  case dictionaryMessage k hdr inner len =>
    rw [Instr.dictMsg] at hc
    split at hc
    next hlen =>
      cases hc
      have hlink : s.m.linkUp k = true := (Bool.and_eq_true_iff.mp hs.1).2
      have hbad : ¬ (decide (len < 16) || decide (1296 < len)) = true := by simpa using hlen
      exact answers_unit hu rfl ((if_neg (by simp [hlink])).trans ((if_neg hbad).trans (request_served hs hm)))
    next => cases hc
  all_goals cases hc

/-! ## HELLO (R316) -/

/-- What HELLO's answer says of the part to a client of version `v`. -/
def Mach.helloBody (m : Mach) (v : Nat) : DBody :=
  .hello v m.fp.nodeid (configNum m.fam) 1280 (m.cfgN 0x1100 4) m.dict.resetId m.dict.cfg.gen (v = 1)

section
variable {vmin vmax i : Nat} {probe : Bool} (h0 : h.client = 0) (hmax : 1 ≤ vmax) (hmin : vmin ≤ min vmax 3)
include h0 hmax hmin

/-- A HELLO to no client, of a version that the part has. -/
theorem helloMsg_versioned :
    m.helloMsg h vmin vmax probe =
      if probe then m.dictSend h.src { ty := 0x01, seq := h.seq, ver := min vmax 3, body := m.helloBody (min vmax 3) }
      else m.helloMsg h vmin vmax false := by
  have hv : ¬ (decide (min vmax 3 < 1) || decide (min vmax 3 < vmin)) = true := by
    simp only [Bool.or_eq_true, decide_eq_true_eq]
    omega
  cases probe with
  | false => rfl
  | true => exact (if_neg (not_not_intro h0)).trans ((if_neg hv).trans (if_pos rfl))

/-- A HELLO that is no probe opens the free client it picks. -/
theorem helloMsg_opens (hlive : m.liveClients < 16)
    (hi : pickFree (fun i => (m.client (i + 1)).live) 65535 m.dict.clients.length m.drawn = some i)
    (hr : { ty := 0x01, seq := h.seq, client := i + 1, ver := min vmax 3, body := m.helloBody (min vmax 3) } = r) :
    m.helloMsg h vmin vmax false =
      (m.redraw.onClient (i + 1) fun _ =>
        { live := true, src := h.src, v := min vmax 3, lastSeq := some h.seq, reply := some r, at_ := m.cycle }).dictSend h.src r := by
  have hv : ¬ (decide (min vmax 3 < 1) || decide (min vmax 3 < vmin)) = true := by
    simp only [Bool.or_eq_true, decide_eq_true_eq]
    omega
  subst hr
  refine (if_neg (not_not_intro h0)).trans ((if_neg hv).trans ((if_neg Bool.false_ne_true).trans ((if_neg (Nat.not_le.mpr hlive)).trans ?_)))
  simp only [hi]
  rfl

end

theorem answers_hello {vmin vmax : Nat} {probe : Bool} {n : Mach} (hu : UnitReady (.hello h vmin vmax probe) s)
    (hp : s.m.pathOpen h.src = true) (hd : s.m.dictUp = true) (hn : s.m.helloMsg h vmin vmax probe = n) :
    Answers (.hello h vmin vmax probe) s n :=
  answers_unit hu rfl ((atDict_open hp hd).trans hn)

/-! ## ABORT (R328) -/

theorem abortMsg_drops {e : Edit} (he : (m.client h.client).edit = some e) :
    m.abortMsg h sec = (m.onClient h.client fun x => { x with edit := none }).dictAnswer h sec { ty := 0x08 } :=
  if_neg (by simp [he])

/-- ABORT of a client on its own path: its record loses the edit and keeps the answer, which is sent. -/
theorem abortMsg_open {e : Edit} (he : (m.client h.client).edit = some e) (hl : (m.client h.client).live = true)
    (hs : (m.client h.client).src = h.src) (hp : m.pathOpen h.src = true) :
    ∃ r, m.abortMsg h sec =
      ((m.onClient h.client fun x => { x with edit := none }).onClient h.client fun x => { x with reply := some r }).send
        (.dict h.src r) :=
  ⟨_, (abortMsg_drops he).trans (dictAnswer_open (by rw [onClient_same, hl]) (by rw [onClient_same, hs]) hp)⟩

/-- A message that is taken up leaves its client's edit, but for its timeout. -/
theorem heard_edit (m : Mach) (h : MHdr) :
    ((heard m h).client h.client).edit = (m.client h.client).edit.map fun e => { e with at_ := m.cycle } := by
  simp [heard, Mach.touch]

theorem heard_live (m : Mach) (h : MHdr) : ((heard m h).client h.client).live = (m.client h.client).live := by
  simp [heard, Mach.touch]

theorem heard_src (m : Mach) (h : MHdr) : ((heard m h).client h.client).src = (m.client h.client).src := by
  simp [heard, Mach.touch]

theorem heard_other {k : Nat} (hk : k ≠ h.client) : (heard m h).client k = m.client k :=
  (onClient_other _ _ hk).trans (onClient_other _ _ hk)

theorem send_client (m : Mach) (o : Out) (k : Nat) : (m.send o).client k = m.client k := rfl

/-- `n` is `m` but for the clients' records and what has been sent. -/
def SameButClients (m n : Mach) : Prop := n = { m with dict := { m.dict with clients := n.dict.clients }, out := n.out }

theorem SameButClients.refl (m : Mach) : SameButClients m m := rfl

theorem SameButClients.onClient {n : Mach} (hn : SameButClients m n) (k : Nat) (g : Client → Client) : SameButClients m (n.onClient k g) := by
  have hk := congrArg (fun x : Mach => { x with dict := { x.dict with clients := (n.onClient k g).dict.clients } }) hn
  exact hk

theorem SameButClients.send {n : Mach} (hn : SameButClients m n) (o : Out) : SameButClients m (n.send o) := by
  have ho := congrArg (fun x : Mach => { x with out := n.out ++ [o] }) hn
  exact ho

theorem sameButClients_heard (m : Mach) (h : MHdr) : SameButClients m (heard m h) := ((SameButClients.refl m).onClient ..).onClient ..

/-- Settles O55: what ABORT does, noting the message, dropping the edit and keeping the answer, it does to the client's record, and it
sends that answer. -/
theorem abortDiscardsTheEdit : Obligations.AbortDiscardsTheEdit := by
  unfold Obligations.AbortDiscardsTheEdit
  intro c h sec e s hu hc hs he
  have ha {n : Mach} (hn : (heard s.m h).abortMsg h sec = n) : Answers c s n := answers_dictMsg hu hc hs nofun hn
  obtain ⟨hpath, -, -, hlive, hsrc, -⟩ := hs
  obtain ⟨r, hr⟩ := abortMsg_open (m := heard s.m h) (sec := sec) (by rw [heard_edit, he, Option.map_some])
    ((heard_live s.m h).trans hlive) ((heard_src s.m h).trans hsrc) hpath
  refine ⟨_, ha hr, ?dropped, fun k hk => ?others, (((sameButClients_heard s.m h).onClient ..).onClient ..).send _⟩
  case dropped => rw [send_client, onClient_same, onClient_same]
  case others => rw [send_client, onClient_other _ _ hk, onClient_other _ _ hk, heard_other hk]

end Sys2Proof.Machine
end

section
/-! PROOF. What each message of the dictionary does once it is taken up (R322 to R324, R326 to R330, R334, R350). -/

namespace Sys2Proof.Machine

variable {m : Mach} {h : MHdr} {sec block fl staged more : Bool} {ty i sub off cnt total n : Nat} {es : List WEntry} {e : Edit}

/-! ## READ and READ_BLOCK (R322, R324) -/

theorem carryOut_read {l : List (Nat × Nat)} (hne : l ≠ []) (hl : l.length ≤ 64) :
    m.carryOut h sec (.read staged l) fl =
      (m.readAll h.client staged l 0).1.dictAnswer h sec { ty := 0x02, body := .entries (m.readAll h.client staged l 0).2 } :=
  if_neg (by simp [hne, Nat.not_lt.mpr hl])

/-- A piece of a value that is at hand: from offset 0 the object's, later the copy that the client's first piece made. -/
theorem readBlock_piece {o : Obj} {v : OVal} (hcnt : cnt ≤ 1024) (ho : objAt m.fam i sub = some o)
    (hacc : o.acc = .cmd → i = 0x6050 ∧ sub = 2) (hty : 7 ≤ o.ty) (hfirst : off = 0 → m.valueOf (m.client h.client) staged i sub o = some v)
    (hlater : off ≠ 0 → ∃ t, (m.client h.client).rblock = some (okey i sub, t, v)) (hoff : off ≤ v.len) :
    m.readBlock h sec staged i sub off cnt =
      (((m.when (off = 0) fun m => m.takeEvents i sub).onClient h.client fun y =>
        { y with rblock := if decide (off + min cnt (v.len - off) < v.len) then some (okey i sub, o.ty, v) else none }).dictAnswer h sec
          { ty := 0x04, more := decide (off + min cnt (v.len - off) < v.len)
            body := .block i sub o.ty v.len off (min cnt (v.len - off))
              ⟨min cnt (v.len - off), v.n / 256 ^ off % 256 ^ min cnt (v.len - off)⟩ }) := by
  have hval : (if off = 0 then m.valueOf (m.client h.client) staged i sub o
      else (m.client h.client).rblock.bind fun b => if b.1 = okey i sub then some b.2.2 else none) = some v := by
    split
    next h0 => exact hfirst h0
    next h0 => obtain ⟨t, ht⟩ := hlater h0; simp [ht]
  have hcmd : ¬ (decide (o.acc = .cmd) && !(decide (i = 0x6050) && decide (sub = 2))) = true := by
    simpa using hacc
  simp only [Mach.readBlock, if_neg (Nat.not_lt.mpr hcnt), ho, if_neg hcmd, if_neg (Nat.not_lt.mpr hty), hval,
    if_neg (Nat.not_lt.mpr hoff)]

/-! ## WRITE and WRITE_BLOCK (R323, R324, R327) -/

theorem carryOut_write (hne : es ≠ []) (hl : es.length ≤ 64) :
    m.carryOut h sec (.write es) fl = m.writeAll h sec 0x03 false fl es :=
  if_neg (by simp [hne, Nat.not_lt.mpr hl])

/-- A WRITE all of whose entries pass their checks, and none of which is a command, is applied. -/
theorem writeAll_checked (hc : ∀ e ∈ es, m.writeCheck (m.client h.client) block e = 0) (hcmd : ∀ e ∈ es, m.accOf e ≠ some .cmd)
    (hi : ∀ e ∈ es, e.index ≠ 0x3000) : m.writeAll h sec ty block fl es = m.writePlain h sec ty block es := by
  have hnocmd : (es.any fun e => m.accOf e = some .cmd) = false := List.any_eq_false.mpr fun e he => by simp [hcmd e he]
  have hhouse : (es.find? fun e => e.index = 0x3000 && m.accOf e ≠ none && m.accOf e ≠ some .ro) = none :=
    List.find?_eq_none.mpr fun e he => by simp [hi e he]
  have hpass : ((es.map (m.writeCheck (m.client h.client) block)).find? (· ≠ 0)) = none := by
    simpa [List.find?_eq_none] using hc
  simp only [Mach.writeAll, hnocmd, hhouse, hpass, Bool.false_and, Bool.false_eq_true, if_false]
  cases es with
  | nil => rfl
  | cons e l =>
    cases l with
    | nil => exact if_neg (hcmd e List.mem_cons_self)
    | cons _ _ => rfl

theorem writePlain_unstaged (hs : m.stages es = false) :
    m.writePlain h sec ty block es =
      (m.each es fun m e => m.applyEntry h.client e).dictAnswer h sec (wReply ty block 0 (es.map fun e => entryReply e 0)) := by
  simp only [Mach.writePlain, hs, Bool.false_and, Bool.false_eq_true, if_false, Mach.when]

/-- Staged entries go into the edit, within its limits. -/
theorem writePlain_staged (hs : m.stages es = true) (he : (m.client h.client).edit = some e) (hfit : (m.staged e es).fits = true) :
    m.writePlain h sec ty block es =
      ((m.onClient h.client fun x => { x with edit := some (m.staged e es) }).each es fun m e => m.applyEntry h.client e).dictAnswer
        h sec (wReply ty block 0 (es.map fun e => entryReply e 0)) := by
  simp only [Mach.writePlain, hs, he, Option.map_some, hfit, Bool.not_true, Bool.and_false, Bool.false_eq_true, if_false, Mach.when,
    if_true]

/-- A piece of a value in its place: an earlier one is kept, the last one writes the value whole. -/
theorem writeBlock_piece {piece : List Byte} (hlen : piece.length ≤ 1024) (hroll : i = 0x6050 → sub = 1 → m.rollBusy = false)
    (hfirst : off = 0 → n = 0) (hlater : off ≠ 0 → (m.client h.client).wblock = some (okey i sub, ty, total, off, n))
    (hfit : off + piece.length ≤ total) (hlast : more = false → off + piece.length = total) :
    m.writeBlock h sec fl i sub ty total off piece more =
      if more then
        (m.onClient h.client fun y =>
          { y with wblock := some (okey i sub, ty, total, off + piece.length, n + leNat piece * 256 ^ off) }).dictAnswer h sec { ty := 0x05 }
      else (m.onClient h.client fun y => { y with wblock := none }).writeAll h sec 0x05 true fl
        [⟨i, sub, ty, ⟨total, n + leNat piece * 256 ^ off⟩⟩] := by
  have hbusy : ¬ (decide (i = 0x6050) && decide (sub = 1) && m.rollBusy) = true := by
    simpa using hroll
  have hgot : (if off = 0 then some (0, 0)
      else (m.client h.client).wblock.bind fun b =>
        if b.1 = okey i sub && b.2.1 = ty && b.2.2.1 = total && b.2.2.2.1 = off then some (off, b.2.2.2.2) else none) = some (off, n) := by
    split
    next h0 => rw [h0, hfirst h0]
    next h0 => simp [hlater h0]
  have hwhole : ¬ (decide (total < off + piece.length) || (!more && decide (off + piece.length ≠ total))) = true := by
    simpa [Nat.not_lt.mpr hfit] using hlast
  simp only [Mach.writeBlock, if_neg (Nat.not_lt.mpr hlen), if_neg hbusy, hgot, if_neg hwhole]

/-! ## STAGE, COMMIT, SUBSCRIBE (R326, R329, R330, R334) -/

/-- A mask that meets none of the masks of a list does not meet their union. -/
theorem and_foldl_or {α : Type} {f : α → BitVec 16} {mask : BitVec 16} {l : List α} (hl : ∀ x ∈ l, mask &&& f x = 0) :
    ∀ a : BitVec 16, mask &&& a = 0 → mask &&& l.foldl (fun a x => a ||| f x) a = 0 := by
  induction l with
  | nil => exact fun a ha => ha
  | cons x l ih =>
    intro a ha
    refine ih (fun y hy => hl y (List.mem_cons_of_mem x hy)) _ ?_
    simp [BitVec.and_or_distrib_left, ha, hl x List.mem_cons_self]

/-- Areas that may be locked, to this client, and that no other client's edit holds. -/
theorem stageMsg_locks {mask : BitVec 16} (hmask : mask &&& ~~~lockable = 0)
    (h10 : mask.getLsbD 10 = true → (m.client h.client).auth = true)
    (h13 : mask.getLsbD 13 = true → (m.client h.client).auth = true ∧ (m.client h.client).prov = false)
    (hothers : ∀ y ∈ m.dict.clients, y.1 ≠ h.client → ∀ e, y.2.edit = some e → mask &&& e.areas = 0) :
    m.stageMsg h sec mask =
      (m.onClient h.client fun y =>
        { y with edit := some { (m.client h.client).edit.getD {} with
                                  areas := ((m.client h.client).edit.getD {}).areas ||| mask, at_ := m.cycle } }).dictAnswer h sec
        { ty := 0x06 } := by
  have hauth : ¬ ((mask.getLsbD 10 && !(m.client h.client).auth) ||
      (mask.getLsbD 13 && !((m.client h.client).auth && !(m.client h.client).prov))) = true := by
    simpa using ⟨h10, h13⟩
  have hclear : ∀ x ∈ m.dict.clients.filter (fun x => x.1 ≠ h.client), mask &&& (x.2.edit.map (·.areas)).getD 0 = 0 := by
    intro x hx
    obtain ⟨hmem, hne⟩ := List.mem_filter.mp hx
    cases hedit : x.2.edit with
    | none => simp
    | some e => simpa using hothers x hmem (by simpa using hne) e hedit
  have hfree := and_foldl_or hclear 0 BitVec.and_zero
  exact (if_neg (not_not_intro hmask)).trans ((if_neg hauth).trans (if_neg (not_not_intro hfree)))

section
variable {expected : Nat} (he : (m.client h.client).edit = some e) (hf : m.sec.fenced = false)
  (hx : expected = 0 ∨ (3 ≤ (m.client h.client).v ∧ expected = m.dict.cfg.gen))
include he hf hx

/-- COMMIT of an edit that no rule refuses, out of FENCE, of the generation it expects. -/
theorem commitMsg_passes (hb : e.vals ≠ [] → m.commitBad e = none) :
    m.commitMsg h sec expected =
      if e.vals.isEmpty then (m.onClient h.client fun x => { x with edit := none }).dictAnswer h sec { ty := 0x07 }
      else m.startCommit h.client h.seq e := by
  have hver : ¬ (decide ((m.client h.client).v < 3) && decide (expected ≠ 0)) = true := by
    rcases hx with hx | ⟨hv, -⟩
    · simp [hx]
    · simp [Nat.not_lt.mpr hv]
  have hgen : ¬ (decide (expected ≠ 0) && decide (expected ≠ m.dict.cfg.gen)) = true := by
    rcases hx with hx | ⟨-, hx⟩
    · simp [hx]
    · simp [hx]
  simp only [Mach.commitMsg, if_neg hver, he, hf, Bool.false_eq_true, if_false, if_neg hgen]
  split
  next => rfl
  next hv => simp only [hb (by simpa using hv)]

theorem commitMsg_empty (hv : e.vals = []) :
    m.commitMsg h sec expected = (m.onClient h.client fun x => { x with edit := none }).dictAnswer h sec { ty := 0x07 } :=
  (commitMsg_passes he hf hx (absurd hv)).trans (if_pos (by simp [hv]))

theorem commitMsg_starts (hv : e.vals ≠ []) (hb : m.commitBad e = none) :
    m.commitMsg h sec expected = m.startCommit h.client h.seq e :=
  (commitMsg_passes he hf hx fun _ => hb).trans (if_neg (by simp [hv]))

end

/-- The configuration and the time of a commit that starts. -/
theorem startCommit_dict (c q : Nat) :
    (m.startCommit c q e).dict.cfg = ⟨m.dict.cfg.gen + 1, cfgOver m.fam m.dict.cfg.vals e.vals⟩ ∧
      (m.startCommit c q e).dict.commitTime = m.usec :=
  each_keeps (P := fun n => n.dict.cfg = ⟨m.dict.cfg.gen + 1, cfgOver m.fam m.dict.cfg.vals e.vals⟩ ∧ n.dict.commitTime = m.usec)
    (fun _ _ _ hn => hn) ⟨rfl, rfl⟩

/-! ## SPDM (R320, R350, R352) -/

/-- The conversation of client `c` (Table 16.3). -/
def Mach.clientCtx (m : Mach) (c : Nat) : SpdmCtx :=
  let x := m.client c
  ⟨min 3 x.spdm, x.spdm = 4, x.spdm = 5, x.spdm ≠ 5 && decide (m.spdmCount < 64), m.signs⟩

/-- What the requester key of a FINISH makes its client. -/
def Mach.finishStanding (m : Mach) : SpdmReq → Bool × Bool
  | .finish key _ => m.standing key
  | _ => (false, false)

/-- A client after an answer with level `l` and an effect; `st` is what its session makes it. -/
def Client.conversed (x : Client) (l : Nat) (st : Bool × Bool) : SpdmEff → Client
  | .none => { x with spdm := if 4 ≤ x.spdm then x.spdm else l }
  | .opened => { x with spdm := 4 }
  | .finished => { x with spdm := 5, auth := st.1, prov := st.2 }
  | .failed => { x with spdm := 3 }
  | .ended => x

theorem spdmMsg_answered {q : SpdmReq} {l a : Nat} {eff : SpdmEff} (ha : m.spdmAnswer (m.clientCtx h.client) q = (l, a, eff)) :
    m.spdmMsg h sec q =
      ((m.onClient h.client fun x => x.conversed l (m.finishStanding q) eff).dictAnswer h sec
        { ty := 0x0A, body := .spdm a (m.spdmBody dictTransfer q a) }).when (eff = .ended) fun m => m.endClient h.client := by
  have hctx : m.spdmAnswer ⟨min 3 (m.client h.client).spdm, (m.client h.client).spdm = 4, (m.client h.client).spdm = 5,
      (m.client h.client).spdm ≠ 5 && decide (m.spdmCount < 64), m.signs⟩ q = (l, a, eff) := ha
  simp only [Mach.spdmMsg, hctx, spdmBody_onClient]
  cases eff <;> cases q <;> rfl

/-! ## The messages, taken up -/

/-- Settles O49: a message that the dictionary takes up is carried out (`answers_dictMsg`), each by its own rule. That the generation and
the commit's time advance at the hand-over is log entry 45, the bounds of a block transfer are log entry 47, and that a probe is answered
at once is log entry 48. -/
theorem dictionaryRequests : Obligations.DictionaryRequests := by
  unfold Obligations.DictionaryRequests
  refine ⟨?hello, ?writeAll, fun m c q e => startCommit_dict c q, ?messages⟩
  case hello =>
    intro h vmin vmax probe s hu hp hd h0 hmax hmin v body
    refine ⟨fun hprobe => ?_, fun i hprobe hlive hi => ?_⟩
    · subst hprobe
      exact answers_hello hu hp hd (helloMsg_versioned h0 hmax hmin)
    · subst hprobe
      exact answers_hello hu hp hd (helloMsg_opens h0 hmax hmin hlive hi rfl)
  case writeAll =>
    intro m h sec block ty fl es hc hcmd hi reply
    rw [writeAll_checked hc hcmd hi]
    exact ⟨writePlain_unstaged, fun d hs he hfit => writePlain_staged hs he hfit⟩
  case messages =>
    intro c h sec msg s hu hc hs m x
    have ha {n : Mach} (hm : ∀ a b p, msg ≠ .hello a b p) (hn : m.carryOut h sec msg true = n) : Answers c s n :=
      answers_dictMsg hu hc hs hm hn
    refine ⟨?read, ?write, ?readBlock, ?writeBlock, ?stage, ?commit, ?abort, ?subscribe, ?spdm, ?bye⟩
    case read =>
      rintro staged es rfl hne hl
      exact ha nofun (carryOut_read hne hl)
    case write =>
      rintro es rfl hne hl
      exact ha nofun (carryOut_write hne hl)
    case readBlock =>
      rintro staged i sub off cnt o v rfl hcnt ho hacc hty hfirst hlater hoff
      exact ha nofun (readBlock_piece hcnt ho hacc hty hfirst hlater hoff)
    case writeBlock =>
      rintro i sub ty total off piece more n rfl hlen hroll hfirst hlater hfit
      refine ⟨fun hmore => ?_, fun hmore hlast => ?_⟩
      · subst hmore
        exact ha nofun (writeBlock_piece hlen hroll hfirst hlater hfit nofun)
      · subst hmore
        exact ha nofun (writeBlock_piece hlen hroll hfirst hlater hfit fun _ => hlast)
    case stage =>
      rintro mask rfl hmask h10 h13 hothers
      exact ha nofun (stageMsg_locks hmask h10 h13 hothers)
    case commit =>
      rintro expected e rfl he hf hx
      exact ⟨fun hv => ha nofun (commitMsg_empty he hf hx hv), fun hv hb => ha nofun (commitMsg_starts he hf hx hv hb)⟩
    case abort =>
      rintro e rfl he
      exact ha nofun (abortMsg_drops he)
    case subscribe =>
      rintro classes least pitches rfl
      exact ha nofun rfl
    case spdm =>
      rintro q l a rfl eff hq reply
      have hspdm := spdmMsg_answered (sec := sec) hq
      refine ⟨fun he => ?_, fun he => ?_, fun key ok hk he => ?_, fun he => ?_, fun he => ?_⟩
      · subst he; exact ha nofun hspdm
      · subst he; exact ha nofun hspdm
      · subst hk he; exact ha nofun hspdm
      · subst he; exact ha nofun hspdm
      · subst he; exact ha nofun hspdm
    case bye =>
      rintro rfl
      exact ha nofun rfl

end Sys2Proof.Machine
end

section
/-! PROOF. The dictionary's commits, timeouts and events (R318, R327, R330, R333, R335, R336). -/

namespace Sys2Proof.Machine

variable {s : State} {m : Mach} {u r c n a p k ty q : Nat} {i : InCommit} {e : Edit} {flagged : Bool}

/-! ## Installation and acknowledgement (R330) -/

theorem answers_configInstall {hub : Bool} (h : UnitReady (.configInstall hub u) s) (hi : s.m.dict.inst = some i)
    (hm : (if hub then
        (if i.hubs.contains u then
          (s.m.installHub u i.set).onDict fun d => { d with inst := some { i with hubs := i.hubs.filter (· ≠ u) } }
        else s.m)
      else if i.regions.contains u then
        (s.m.installRegion u i.set i.at_).onDict fun d => { d with inst := some { i with regions := i.regions.filter (· ≠ u) } }
      else s.m) = m) : Answers (.configInstall hub u) s m := by
  refine answers_unit h rfl ?_
  simp only [hi]
  exact hm

/-- The machine once the client of commit `i`, which still waits for it, has its answer. -/
def Mach.commitAnswered (m : Mach) (i : InCommit) : Mach :=
  let c := m.client i.client
  ((m.onDict fun d => { d with inst := none }).onClient i.client fun x => { x with edit := none }).dictAnswer
    ⟨c.src, c.v, i.client, i.seq⟩ c.auth { ty := 0x07, body := .committed i.set.gen (cfgDigest m.fam i.set.vals) }

theorem answers_commitAcknowledged (h : UnitReady .commitAcknowledged s) (hi : s.m.dict.inst = some i) (hh : i.hubs = [])
    (hr : i.regions = []) (hs : s.m.sys.steward.isSome = true) (hl : (s.m.client i.client).live = true)
    (hq : (s.m.client i.client).lastSeq = some i.seq) :
    Answers .commitAcknowledged s (((s.m.commitAnswered i).committed i.set.gen).runWaiting) := by
  have hgo : ¬ (!(i.hubs.isEmpty && i.regions.isEmpty) || s.m.sys.steward.isNone) = true := by
    simp [hh, hr, Option.isSome_iff_ne_none.mp hs]
  refine answers_unit h rfl ?_
  simp only [hi, if_neg hgo, hl, hq, decide_true, Bool.and_self, Mach.when, if_true]
  rfl

/-! ## Digests (R333) -/

/-- The copy of region `r`, once it is flagged and a steward holds the role, is fetched again. -/
def Mach.fetchCopy (m : Mach) (r : Nat) : Mach :=
  if (m.region r).rstate ≠ 3 || m.sys.steward.isNone then m
  else match m.dict.inst with
    | some i => if i.regions.contains r then m else m.installRegion r i.set i.at_
    | none => m.installRegion r m.dict.cfg m.cycle

theorem fetchCopy_agrees (hr : (m.region r).rstate ≠ 3) : m.fetchCopy r = m := if_pos (by simp [hr])

theorem fetchCopy_flagged (hr : (m.region r).rstate = 3) (hs : m.sys.steward.isSome = true) (hi : m.dict.inst = none) :
    m.fetchCopy r = m.installRegion r m.dict.cfg m.cycle := by
  rw [Mach.fetchCopy, if_neg (by simp [hr, Option.isSome_iff_ne_none.mp hs])]
  simp only [hi]

theorem answers_digestRecheck (h : UnitReady (.digestRecheck r flagged) s) (hst : (s.m.region r).st = .serving)
    (ht : flagged = false → (s.m.region r).digestAt + ms 1000 ≤ s.m.cycle)
    (hm : ((s.m.onRegion r fun g => { g with digestAt := s.m.cycle }).when flagged fun m =>
      (m.log 0x0702 0 1 r [(8, r)]).onRegion r fun g => { g with rstate := 3 }) = m) :
    Answers (.digestRecheck r flagged) s (m.fetchCopy r) :=
  hm ▸ answers_unit h rfl (if_neg (by simpa [hst] using ht))

/-! ## Timeouts (R318, R327) -/

theorem answers_clientTimeout (h : UnitReady (.clientTimeout c) s) (hl : (s.m.client c).live = true)
    (ht : (s.m.client c).at_ + ms 1000 * s.m.cfgN 0x1100 4 < s.m.cycle) : Answers (.clientTimeout c) s (s.m.endClient c) :=
  answers_unit h rfl (if_pos (by simp [hl, ht]))

theorem answers_editTimeout (h : UnitReady (.editTimeout c) s) (he : (s.m.client c).edit = some e)
    (ht : e.at_ + ms 1000 * s.m.cfgN 0x1100 5 < s.m.cycle) :
    Answers (.editTimeout c) s (s.m.onClient c fun x => { x with edit := none }) := by
  refine answers_unit h rfl ?_
  simp only [he, if_pos ht]

/-! ## Events out (R335, R336) -/

theorem answers_eventSend (h : UnitReady (.eventSend c) s) (hsrc : (s.m.client c).src = .udp a p) (hl : (s.m.client c).live = true)
    (hsub : (s.m.client c).sub ≠ none) (hq : (s.m.client c).evq ≠ []) (hu : s.m.dictUp = true) (hp : s.m.pathOpen (.udp a p) = true)
    (ht : ∀ t, (s.m.client c).evAt = some t → t + ms 1 ≤ s.m.cycle) :
    Answers (.eventSend c) s
      ((s.m.onClient c fun y => { y.sent 31 with evSeq := (y.evSeq + 1) % 65536, evAt := some s.m.cycle }).send
        (.event (.udp a p) c (((s.m.client c).evSeq + 1) % 65536) (s.m.client c).dropped ((s.m.client c).evq.take 31))) := by
  have hgo : ¬ (!(s.m.client c).live || (s.m.client c).sub.isNone || (s.m.client c).evq.isEmpty || !s.m.dictUp ||
      !s.m.pathOpen (.udp a p) ||
      (match (s.m.client c).evAt with | some t => decide (s.m.cycle < t + ms 1) | none => false)) = true := by
    cases hat : (s.m.client c).evAt with
    | none => simp [hl, hsub, hq, hu, hp]
    | some t => simpa [hl, hsub, hq, hu, hp] using ht t hat
  refine answers_unit h rfl ?_
  simp only [hsrc]
  exact if_neg hgo

theorem answers_dictionaryEvents (h : UnitReady (.dictionaryEvents k c n) s) (hp : s.m.pathOpen (.inband k) = true)
    (hu : s.m.dictUp = true) (hl : (s.m.client c).live = true) (hsrc : (s.m.client c).src = .inband k) (h1 : 1 ≤ n) (h31 : n ≤ 31) :
    Answers (.dictionaryEvents k c n) s
      ((s.m.onClient c fun y => y.sent n).fmBox k mbSuccess (eventPayload (s.m.client c).dropped ((s.m.client c).evq.take n))) := by
  refine answers_unit h rfl ((atDict_open (h := ⟨.inband k, 0, 0, 0⟩) hp hu).trans (if_neg ?_))
  simp only [hl, hsrc, Bool.or_eq_true, decide_eq_true_eq]
  simp
  omega

/-! ## Malformed datagrams (R313 to R315) -/

theorem answers_malformed_header {src : Src} (h : UnitReady (.malformedDatagram src .header ty c q) s) (hp : s.m.pathOpen src = true)
    (hu : s.m.dictUp = true) :
    Answers (.malformedDatagram src .header ty c q) s
      (s.m.dictSend src { ty := ty, status := 0x01, client := c, ver := (s.m.client c).v, seq := q }) :=
  answers_unit h rfl (atDict_open (h := ⟨src, 0, 0, 0⟩) hp hu)

theorem answers_malformed_frame (h : UnitReady (.malformedDatagram (.udp a p) .frame ty c q) s) :
    Answers (.malformedDatagram (.udp a p) .frame ty c q) s s.m.fpDrop :=
  answers_unit h rfl rfl

/-- Settles O50. The client's VER in the answer to a malformed datagram, and what FPERR counts, are log entry 48; that a flagged copy is
fetched again while a steward holds the role is log entry 82. -/
theorem commitsComplete : Obligations.CommitsComplete := by
  unfold Obligations.CommitsComplete
  refine ⟨fun u i s hi => ⟨fun h hu => ?hub, fun h hu => ?region⟩, fun i s => answers_commitAcknowledged,
    fun r s hst hs => ⟨fun h hnone => ?flagged, fun h ht hr => ?agrees⟩, fun c s => answers_clientTimeout,
    fun c e s => answers_editTimeout, fun c a p s => answers_eventSend, fun k c n s => answers_dictionaryEvents,
    fun src ty c q s => answers_malformed_header, fun a p ty c q s h hf => ?frame⟩
  case hub => exact answers_configInstall h hi ((if_pos rfl).trans (if_pos (List.contains_iff_mem.mpr hu)))
  case region => exact answers_configInstall h hi ((if_neg Bool.false_ne_true).trans (if_pos (List.contains_iff_mem.mpr hu)))
  case flagged =>
    intro flagged hi hs'
    have hr : (flagged.region r).rstate = 3 := congrArg Region.rstate (onRegion_same _ _ _)
    exact fetchCopy_flagged hr hs' hi ▸ answers_digestRecheck h hst nofun rfl
  case agrees =>
    have hr' : ((s.m.onRegion r fun g => { g with digestAt := s.m.cycle }).region r).rstate ≠ 3 := by rwa [onRegion_same]
    have ha := answers_digestRecheck h hst (fun _ => ht) (if_neg Bool.false_ne_true)
    rwa [fetchCopy_agrees hr'] at ha
  case frame => exact fpDrop_counted hf ▸ answers_malformed_frame h

end Sys2Proof.Machine
end

section
/-! PROOF. Pitch keys, the firmware image and the debug port: the command objects of the Security and Debug areas (R354, R355, R363,
R365, R400). -/

namespace Sys2Proof.Machine

variable {s : State} {m t : Mach} {h : MHdr} {sec block flashOk : Bool} {e : WEntry} {o : Obj} {v : OVal} {key : BitVec 256} {r : DReply}
  {p i sub n why : Nat}

/-! ## The write of a command object of an area that needs authentication (R320, R323) -/

/-- Entry `e` writes command object `o`, with a length that the object takes, for a client that may write it. Index 0x6050, subindex 1,
written in one entry is pitch 16's WRAPKEY, of at most 256 bytes (log entry 12). -/
structure SecuredCmd (f : Fam) (c : Client) (block : Bool) (e : WEntry) (o : Obj) : Prop where
  found : objAt f e.index e.sub = some o
  type : e.ty = o.ty
  acc : o.acc = .cmd
  long : o.lo ≤ e.val.len
  short : e.val.len ≤ if e.index = 0x6050 && e.sub = 1 && !block then 256 else o.hi
  single : e.index ≠ 0x3000
  mayWrite : c.mayWrite e.index = true

theorem SecuredCmd.writeCheck {c : Client} (hc : SecuredCmd m.fam c block e o) : m.writeCheck c block e = 0 := by
  obtain ⟨hfound, htype, hacc, hlong, hshort, -, hw⟩ := hc
  simp only [Mach.writeCheck, hfound, htype, hacc, Nat.not_lt.mpr hlong, Nat.not_lt.mpr hshort, hw]
  simp

theorem SecuredCmd.accOf {c : Client} (hc : SecuredCmd m.fam c block e o) : m.accOf e = some .cmd := by
  rw [Mach.accOf, hc.found, Option.map_some, hc.acc]

/-- The reply to a WRITE of one command object that is refused for reason `why` (R323). -/
def refusedOne (i sub why : Nat) : DReply :=
  { ty := 0x03, status := 0x0E, reason := why, dindex := i, dsub := sub, body := .entries [⟨i, sub, 0x0E, 0, 0, ⟨0, 0⟩⟩] }

/-- A WRITE of one command object that passes its checks runs the command and answers how it went. -/
theorem writeAll_securedCmd (hc : SecuredCmd m.fam (m.client h.client) false e o)
    (hrun : m.runCmd e.index e.sub (normVal e.val) false flashOk = (t, why)) :
    m.writeAll h sec 0x03 false flashOk [e] =
      t.orderAnswer h sec (m.client h.client).v (if why = 0 then wroteOne e.index e.sub else refusedOne e.index e.sub why) := by
  split
  next h0 => subst h0; exact writeAll_cmd hc.accOf hc.single hc.writeCheck hrun
  next h0 =>
    simp only [Mach.writeAll, List.any_cons, List.any_nil, hc.accOf, List.length_singleton, List.find?_cons, List.find?_nil, List.map_cons,
      List.map_nil, hc.writeCheck, hc.single, hrun, h0]
    rfl

/-- A client whose message the dictionary takes up is served a WRITE where it is served a piece of a WRITE_BLOCK. -/
theorem serves_write_of_writeBlock {j l ty total off : Nat} {piece : List Byte} {more : Bool} (es : List WEntry)
    (hs : Serves m h sec (.writeBlock j l ty total off piece more)) : Serves m h sec (.write es) := by
  obtain ⟨hpath, hup, hinst, hlive, hsrc, hseq, hanswered, hver, htype, hauth⟩ := hs
  exact ⟨hpath, hup, hinst, hlive, hsrc, hseq, hanswered, hver, Nat.le_trans (Nat.le_succ 1) htype, hauth⟩

section
variable {c : Instr} (hs : Serves s.m h (s.m.client h.client).auth (.write [])) (hu : UnitReady c s)
include hs hu

/-- The write of a command object by a client that may write it: the command runs, and is answered OK or refused. -/
theorem answers_securedCmd {ty : Nat}
    (he : exec c s = s.app (c.wf s.m.fam) (Mach.aliveRun fun m => m.put h i sub v flashOk))
    (hc : SecuredCmd s.m.fam (s.m.client h.client) false ⟨i, sub, ty, v⟩ o)
    (hrun : (heard s.m h).runCmd i sub (normVal v) false flashOk = (t, why))
    (hr : (if why = 0 then wroteOne i sub else refusedOne i sub why) = r) :
    Answers c s (t.orderAnswer h (s.m.client h.client).auth (s.m.client h.client).v r) := by
  subst hr
  have hput : s.m.put h i sub v flashOk =
      (heard s.m h).writeAll h (s.m.client h.client).auth 0x03 false flashOk [⟨i, sub, ty, v⟩] := by
    rw [Mach.put, Mach.requestAs, hc.found, Option.elim_some, ← hc.type]
    exact request_served (msg := .write _) hs nofun
  have hheard : SecuredCmd (heard s.m h).fam ((heard s.m h).client h.client) false ⟨i, sub, ty, v⟩ o :=
    { hc with mayWrite := (heard_mayWrite s.m h i).trans hc.mayWrite }
  refine answers_unit hu he (hput.trans ((writeAll_securedCmd hheard hrun).trans ?_))
  rw [heard_client_v]

end

/-! ## The objects (Tables 15.8 and 15.13) -/

theorem areaOf_security (hi : 0x6000 ≤ i) (hi' : i < 0x7000) : areaOf i = 10 := by
  simp (disch := omega) only [areaOf, if_neg, if_pos]

theorem objAt_firmware (f : Fam) : objAt f 0x6050 sub = objSecurity 0x6050 sub := by
  have := regions_le f
  have := hubs_le f
  simp (disch := omega) only [objAt, if_neg, if_pos, if_true]

theorem objAt_wrapkey (f : Fam) (hp1 : 1 ≤ p) (hp : p ≤ 63) (hp16 : p ≠ 16) : objAt f (0x6040 + p) 0x01 = oDom 8 .cmd 0 256 0 := by
  have := regions_le f
  have := hubs_le f
  simp (disch := omega) only [objAt, if_neg, if_pos, if_true]

theorem objAt_dbgopen (f : Fam) : objAt f 0x9000 0x01 = oNum 1 .cmd 0 := by
  have := regions_le f
  have := hubs_le f
  simp (disch := omega) only [objAt, if_neg, if_pos]
  rfl

/-- A client that may write the firmware objects may write every pitch's key. -/
theorem mayWrite_wrapkey {c : Client} (hw : c.mayWrite 0x6050 = true) (hp : p ≤ 63) : c.mayWrite (0x6040 + p) = true := by
  have hp30 : 0x6040 + p ≠ 0x6030 := by omega
  have hfirmware : areaOf 0x6050 = 10 := rfl
  simpa [Client.mayWrite, hfirmware, areaOf_security (i := 0x6040 + p) (by omega) (by omega), hp30] using hw

/-- WRAPKEY is an object of a pitch of its own, or, for pitch 16, the firmware's first. -/
theorem securedCmd_wrapkey {f : Fam} {c : Client} (hw : c.mayWrite 0x6050 = true) (hp1 : 1 ≤ p) (hp : p ≤ 63) (hv : v.len ≤ 256) :
    ∃ hi, SecuredCmd f c false ⟨0x6040 + p, 0x01, 8, v⟩ ⟨8, .cmd, 0, hi, ⟨0, 0⟩⟩ := by
  have hmay := mayWrite_wrapkey hw hp
  by_cases hp16 : p = 16
  · subst hp16
    exact ⟨16777216, objAt_firmware f, rfl, rfl, Nat.zero_le _, hv, by simp, hmay⟩
  · refine ⟨256, objAt_wrapkey f hp1 hp hp16, rfl, rfl, Nat.zero_le _, ?_, by simp; omega, hmay⟩
    exact hv.trans (by split <;> exact Nat.le_refl _)

/-! ## What runs (R323) -/

/-- Out of FENCE a command object of the Security area that is no BOOL runs by its index. -/
theorem runCmd_security (hf : m.sec.fenced = false) (ho : objAt m.fam i sub = some o) (hty : o.ty ≠ 1) (ha : areaOf i = 10) :
    m.runCmd i sub v block flashOk =
      if i = 0x6050 && sub = 2 then m.fwCmd v.n flashOk else if i = 0x6050 && block then m.fwReceive v else m.wrapKey (i - 0x6040) v := by
  simp only [Mach.runCmd, hf, ho, hty, ha, decide_false, Bool.false_and, Bool.false_eq_true, if_false]

theorem runCmd_wrapkey (hf : m.sec.fenced = false) (hp : p ≤ 63) (ho : objAt m.fam (0x6040 + p) 0x01 = some o) (hty : o.ty ≠ 1) :
    m.runCmd (0x6040 + p) 0x01 v false flashOk = m.wrapKey p v := by
  rw [runCmd_security hf ho hty (areaOf_security (by omega) (by omega)), Nat.add_sub_cancel_left]
  simp

theorem runCmd_fwcmd (hf : m.sec.fenced = false) : m.runCmd 0x6050 0x02 v false flashOk = m.fwCmd v.n flashOk :=
  runCmd_security hf (objAt_firmware m.fam) (by decide) rfl

theorem runCmd_fwimage (hf : m.sec.fenced = false) : m.runCmd 0x6050 0x01 v true flashOk = m.fwReceive v :=
  runCmd_security hf (objAt_firmware m.fam) (by decide) rfl

/-- DBGOPEN runs under FENCE as well (R361). -/
theorem runCmd_dbgopen (hn : v.n ≤ 1) : m.runCmd 0x9000 0x01 v block flashOk = (if v.n = 0 then m else m.dbgOpen, 0) := by
  have hfenced : ¬ (m.sec.fenced && decide (0x9000 ≠ 0x9000)) = true := by simp
  have harea : areaOf 0x9000 = 13 := rfl
  simp only [Mach.runCmd, if_neg hfenced, objAt_dbgopen, oNum, harea, Nat.not_lt.mpr hn, decide_false, Bool.and_false, Bool.false_eq_true,
    if_false]

/-! ## Pitch keys (R354, R355) -/

section
variable (hcfg : m.cfgN (0x3000 + p) 1 = 1) (hz : m.sec.zeroizing = false)
include hcfg hz

theorem wrapKey_sets (hk : m.unwrap p v = some key)
    (hfree : m.hasKey p = false ∨ tget m.sec.keys none p = some key ∨ m.keyInUse p = false) :
    m.wrapKey p v =
      (m.onSec fun x => { x with keys := tput x.keys none p (some key), keystate := tput x.keystate 0 p 1 }, 0) := by
  have huse : ¬ (m.hasKey p && decide (tget m.sec.keys none p ≠ some key) && m.keyInUse p) = true := by
    rcases hfree with hfree | hfree | hfree <;> simp [hfree]
  simp only [Mach.wrapKey, hcfg, hz, hk, if_neg huse, ne_eq, not_true, decide_false, Bool.or_false, Bool.false_eq_true, if_false]

theorem wrapKey_unreadable (hk : m.unwrap p v = none) : m.wrapKey p v = (m.wrapRefused p, 1) := by
  simp only [Mach.wrapKey, hcfg, hz, hk, ne_eq, not_true, decide_false, Bool.or_false, Bool.false_eq_true, if_false]
  rfl

theorem wrapKey_displaces (hk : m.unwrap p v = some key) (hhas : m.hasKey p = true) (hne : tget m.sec.keys none p ≠ some key)
    (huse : m.keyInUse p = true) : m.wrapKey p v = (m.wrapRefused p, 3) := by
  have hdisplaces : (m.hasKey p && decide (tget m.sec.keys none p ≠ some key) && m.keyInUse p) = true := by simp [hhas, hne, huse]
  simp only [Mach.wrapKey, hcfg, hz, hk, if_pos hdisplaces, ne_eq, not_true, decide_false, Bool.or_false, Bool.false_eq_true, if_false]
  rfl

end

/-! ## The firmware image (R365, R400) -/

theorem fwReceive_takes (hb : m.rollBusy = false) :
    m.fwReceive v = (m.onSec fun x => { x with fwImage := leBytes v.len v.n, fwHdr := none, fwstate := 1 }, 0) :=
  if_neg (by simp [hb])

theorem fwVerify_checks (hb : m.rollBusy = false) (himg : m.sec.fwImage ≠ []) :
    m.fwVerify =
      if m.imgOk (imgOf m.sec.fwImage) then
        (m.onSec fun x => { x with fwstate := 2, fwHdr := some (imgOf m.sec.fwImage) }, 0)
      else (m.onSec fun x => { x with fwstate := 4, fwHdr := none }, 0) := by
  refine (if_neg (by simp [hb, himg])).trans ?_
  split
  next hok => simp only [hok, if_true]
  next hok => simp only [if_neg hok]

section
variable (hb : m.rollBusy = false)
include hb

theorem fwDiscard_drops : m.fwDiscard = (m.onSec fun x => { x with fwstate := 0, fwImage := [], fwHdr := none }, 0) :=
  if_neg (by simp [hb])

variable (hst : m.sec.fwstate = 2)
include hst

/-- A hub that does not live, or a write that does not read back, fails the update. -/
theorem fwActivate_fails (hf : flashOk = false ∨ m.liveHubs.length ≠ hubs m.fam) :
    m.fwActivate flashOk = (m.onSec fun x => { x with fwstate := 4 }, 0) :=
  (if_neg (by simp [hb, hst])).trans (if_pos (by rcases hf with hf | hf <;> simp [hf]))

/-- Slot `slot` and the marker written to every hub's flash (R400). -/
def Mach.flashWritten (m : Mach) (slot : Nat) : Mach :=
  m.each (List.range (hubs m.fam)) fun m k =>
    ((m.send (.flashWr k slot)).send (.flashWr k 2)).onHub k fun x => { x with markerPos := nextMarker x.markerPos }

theorem fwActivate_rolls (hf : flashOk = true) (hlive : m.liveHubs.length = hubs m.fam) {written : Mach}
    (hw : m.flashWritten (1 - m.activeSlot) = written) :
    m.fwActivate flashOk =
      ((written.onSec fun x =>
        { x with fwstate := 3, fwSlot := 1 - m.activeSlot, fwOld := (written.hub (written.sys.steward.getD 0)).image
                 rolledHubs := [], rolledRegs := [] }).rollNext, 0) := by
  subst hw
  exact (if_neg (by simp [hb, hst])).trans (if_neg (by simp [hf, hlive]))

end

/-- The last piece of FWIMAGE: the whole image is received. -/
theorem writeAll_fwimage (hw : (m.client h.client).mayWrite 0x6050 = true) (hf : m.sec.fenced = false) (hb : m.rollBusy = false)
    (hlen : v.len ≤ 16777216) (hn : v.n < 256 ^ v.len) :
    m.writeAll h sec 0x05 true flashOk [⟨0x6050, 0x01, 8, v⟩] =
      (m.onSec fun x => { x with fwImage := leBytes v.len v.n, fwHdr := none, fwstate := 1 }).orderAnswer h sec (m.client h.client).v
        { ty := 0x05 } := by
  have hc : SecuredCmd m.fam (m.client h.client) true ⟨0x6050, 0x01, 8, v⟩ ⟨8, .cmd, 0, 16777216, ⟨0, 0⟩⟩ :=
    ⟨objAt_firmware _, rfl, rfl, Nat.zero_le _, hlen, by simp, hw⟩
  refine writeAll_cmd hc.accOf hc.single hc.writeCheck ?_
  rw [normVal_of_lt hn, runCmd_fwimage hf, fwReceive_takes hb]

/-! ## The debug port (R363) -/

theorem dbgOpen_opens (ho : m.sec.dbgOpen = false) {erased opened : Mach}
    (he : (((m.onSec fun x => { x with applied := 2 }).eraseSecrets.applyFence.raiseSec 3).log 0x0602 0 0 0 []) = erased)
    (hopened : ((erased.onSys fun x => { x with debugLatch := true }).onSec fun x => { x with dbgOpen := true, zeroizing := false }) = opened) :
    m.dbgOpen = (opened.raiseSec 1).log 0x0603 0 0 0 [] := by
  subst he hopened
  exact if_neg (by simp [ho])

/-! ## The commands -/

section
variable (hs : Serves s.m h (s.m.client h.client).auth (.write [])) (hw : (s.m.client h.client).mayWrite 0x6050 = true)
  (hf : s.m.sec.fenced = false)
include hs hw hf

theorem answers_wrapkey (hu : UnitReady (.wrapkey h p v) s) (hp1 : 1 ≤ p) (hp : p ≤ 63) (hlen : v.len ≤ 256) (hn : v.n < 256 ^ v.len)
    (hrun : (heard s.m h).wrapKey p v = (t, why))
    (hr : (if why = 0 then wroteOne (0x6040 + p) 0x01 else refusedOne (0x6040 + p) 0x01 why) = r) :
    Answers (.wrapkey h p v) s (t.orderAnswer h (s.m.client h.client).auth (s.m.client h.client).v r) := by
  obtain ⟨hi, hc⟩ := securedCmd_wrapkey (f := s.m.fam) hw hp1 hp hlen
  refine answers_securedCmd hs hu rfl hc ?_ hr
  rw [normVal_of_lt hn]
  exact (runCmd_wrapkey (m := heard s.m h) hf hp hc.found (by simp)).trans hrun

/-- FWCMD, by whichever command it is written. -/
theorem answers_fwcmd {c : Instr} (hu : UnitReady c s)
    (he : exec c s = s.app (c.wf s.m.fam) (Mach.aliveRun fun m => m.put h 0x6050 0x02 ⟨1, n⟩ flashOk)) (hn : n < 256)
    (hrun : (heard s.m h).fwCmd n flashOk = (t, 0)) :
    Answers c s (t.orderAnswer h (s.m.client h.client).auth (s.m.client h.client).v (wroteOne 0x6050 0x02)) := by
  have hc : SecuredCmd s.m.fam (s.m.client h.client) false ⟨0x6050, 0x02, 2, ⟨1, n⟩⟩ ⟨2, .cmd, 1, 1, ⟨1, 0⟩⟩ :=
    ⟨objAt_firmware _, rfl, rfl, Nat.le_refl 1, Nat.le_refl 1, by simp, hw⟩
  refine answers_securedCmd (why := 0) hs hu he hc ((runCmd_fwcmd (m := heard s.m h) hf).trans ?_) rfl
  rw [normVal_of_lt (v := ⟨1, n⟩) hn]
  exact hrun

end

theorem answers_dbgopen (hs : Serves s.m h (s.m.client h.client).auth (.write []))
    (hw : (s.m.client h.client).mayWrite 0x9000 = true) (hu : UnitReady (.dbgopen h ⟨1, n⟩) s) (hn : n ≤ 1)
    (hrun : (if n = 0 then heard s.m h else (heard s.m h).dbgOpen) = t) :
    Answers (.dbgopen h ⟨1, n⟩) s
      (t.orderAnswer h (s.m.client h.client).auth (s.m.client h.client).v (wroteOne 0x9000 0x01)) := by
  have hc : SecuredCmd s.m.fam (s.m.client h.client) false ⟨0x9000, 0x01, 1, ⟨1, n⟩⟩ ⟨1, .cmd, 1, 1, ⟨1, 0⟩⟩ :=
    ⟨objAt_dbgopen _, rfl, rfl, Nat.le_refl 1, Nat.le_refl 1, by simp, hw⟩
  subst hrun
  refine answers_securedCmd (why := 0) hs hu rfl hc ?_ rfl
  rw [normVal_bool hn, runCmd_dbgopen hn]

/-- FWIMAGE, once its client's message is taken up. -/
theorem answers_fwimage {total off : Nat} {piece : List Byte} {more : Bool}
    (hs : Serves s.m h (s.m.client h.client).auth (.writeBlock 0x6050 0x01 8 total off piece more))
    (hu : UnitReady (.fwimage h total off piece more) s)
    (ht : (heard s.m h).writeBlock h (s.m.client h.client).auth true 0x6050 0x01 8 total off piece more = t) :
    Answers (.fwimage h total off piece more) s t :=
  answers_unit hu rfl ((request_served hs nofun).trans ht)

/-- Settles O53: each command is the WRITE of one object of the Security or the Debug area (`answers_securedCmd`), FWIMAGE a WRITE_BLOCK
whose last piece writes the whole image. The reasons of a refused WRAPKEY are those of log entry 59, DBGOPEN's steps at once and its
answer after its client has ended those of log entry 57, and FWCMD's details those of log entry 58. -/
theorem keysFirmwareAndDebug : Obligations.KeysFirmwareAndDebug := by
  unfold Obligations.KeysFirmwareAndDebug
  intro h s hsb hw m ok
  have hs := serves_write_of_writeBlock [] hsb
  refine ⟨fun hf => ⟨?wrapkey, ?fwimage, ?verify, ?activate, ?discard⟩, fun hwd => ⟨?opens, ?stays⟩⟩
  case wrapkey =>
    intro p v hu hp1 hp hlen hn hcfg hz no
    exact ⟨fun key hk hfree => answers_wrapkey hs hw hf hu hp1 hp hlen hn (wrapKey_sets hcfg hz hk hfree) rfl,
      fun hk => answers_wrapkey hs hw hf hu hp1 hp hlen hn (wrapKey_unreadable hcfg hz hk) rfl,
      fun key hk hhas hne huse => answers_wrapkey hs hw hf hu hp1 hp hlen hn (wrapKey_displaces hcfg hz hk hhas hne huse) rfl⟩
  case fwimage =>
    intro total off piece more n hu hlen hb hfirst hlater hfit htotal
    refine ⟨fun hmore => ?_, fun hmore hlast hn => ?_⟩
    · subst hmore
      exact answers_fwimage hsb hu (writeBlock_piece hlen (fun _ _ => hb) hfirst hlater hfit nofun)
    · subst hmore
      have hmay : (((heard s.m h).onClient h.client fun y => { y with wblock := none }).client h.client).mayWrite 0x6050 = true := by
        rw [onClient_same]
        exact (heard_mayWrite s.m h 0x6050).trans hw
      refine answers_fwimage hsb hu ((writeBlock_piece hlen (fun _ _ => hb) hfirst hlater hfit fun _ => hlast).trans
        ((writeAll_fwimage hmay hf hb htotal hn).trans ?_))
      rw [onClient_same, heard_client_v]
  case verify =>
    intro hu hb himg i
    have hv := fwVerify_checks hb himg
    exact ⟨fun hok => answers_fwcmd hs hw hf hu rfl (by decide) (hv.trans (if_pos hok)),
      fun hok => answers_fwcmd hs hw hf hu rfl (by decide) (hv.trans (if_neg (by simp [i, hok])))⟩
  case activate =>
    intro f hu hb hst
    exact ⟨fun hok hlive => answers_fwcmd hs hw hf hu rfl (by decide) (fwActivate_rolls hb hst hok hlive rfl),
      fun hbad => answers_fwcmd hs hw hf hu rfl (by decide) (fwActivate_fails hb hst hbad)⟩
  case discard =>
    intro hu hb
    exact answers_fwcmd hs hw hf hu rfl (by decide) (fwDiscard_drops hb)
  case opens =>
    intro hu ho
    exact answers_dbgopen hs hwd hu (Nat.le_refl 1) (dbgOpen_opens ho rfl rfl)
  case stays =>
    intro hu
    exact answers_dbgopen hs hwd hu (Nat.zero_le 1) rfl

end Sys2Proof.Machine
end
